-- ==== Sys2Proof/Word.lean ====
section
/-! DEFINITION. The word types of the machine and the operand types an instruction is built from (R6, R26, R29). -/

namespace Sys2Proof

/-- One byte. -/
abbrev Byte := BitVec 8
/-- A 32-bit register or instruction word. -/
abbrev Word := BitVec 32
/-- A 64-bit address or value. -/
abbrev DWord := BitVec 64
/-- A mask of the 32 lanes of a terrace; bit `l` stands for lane `l` (R21). -/
abbrev Lanes := BitVec 32

/-- A source operand field (R29). `imm` is field value 0xFF with the extension word it carries. -/
inductive Src where
  | v (n : Nat) | s (n : Nat) | zero | latch (k : Nat)
  | laneid | terid | smask | qid | teamid | coreid | diecoord
  | imm (w : Word)
deriving DecidableEq, Repr

/-- A destination operand field (R29, R30); `none` is 0xFF, no write-back. -/
inductive Dst where
  | v (n : Nat) | s (n : Nat) | none
deriving DecidableEq, Repr

/-- The modifier word of an A-class instruction (R43). -/
structure Mods where
  sat : Bool
  clamp : Bool
  nega : Bool
  negb : Bool
  absa : Bool
  absb : Bool
  scale : BitVec 6
deriving DecidableEq, Repr

/-- The tile operand of COLL (R263): an accumulator slot or an s register. -/
inductive Tile where
  | acc (n : Nat) | s (n : Nat)
deriving DecidableEq, Repr

/-- The domain of a staged write (R245), or of a boundary. -/
inductive DomKey where
  | phase (launch die : Nat)
  | launch (launch : Nat)
  | gang (gang : Nat)
  | solo (ter : Nat)
deriving DecidableEq, Repr

/-- One terrace's staged bytes of a line as another module sends them to a landing (R250, R251): its rank key, the virtual
and the physical line, the page's SRULE and FMT, the bytes by their place in the line, and the types of the words. -/
structure StagedPart where
  rank : Nat
  core : Nat
  terno : Nat
  line : Nat
  pa : Nat
  srule : Nat
  fmt : Bool
  bytes : List (Nat × Byte)
  types : List (Nat × Nat)
deriving DecidableEq, Repr

/-- What a flit of the fabric asks for or answers, as far as the spec gives it a content (R452, R453); the
spec publishes no payload layout, so the content is given and not its 48 bytes. One term stands for the flits that carry
one operation. -/
inductive FabOp where
  /-- a read of `len` bytes at a physical address -/
  | read (tag pa len : Nat)
  /-- a write of bytes at a physical address -/
  | write (tag pa : Nat) (bytes : List Byte)
  /-- an atomic: operation, element type code, the operands of its lanes in order (R240) -/
  | amo (tag pa op ty : Nat) (xs : List Nat)
  /-- a compare-and-swap of `w` bytes: compare value and new value of each lane in order -/
  | cas (tag pa w : Nat) (ops : List (Nat × Nat))
  /-- a list in pieces of one or two pages, at the home of its first line: with no bytes it is read, with `new` alone written,
      and else exchanged for `new` where it is `old` (R152); the answer is what it was -/
  | list (tag : Nat) (segs : List (Nat × Nat)) (old new : List Byte)
  /-- the answer to `tag`: bytes read, or none for an acknowledgement -/
  | reply (tag : Nat) (bytes : List Byte)
  /-- an error response to `tag`, with the cause code it stands for -/
  | error (tag code : Nat)
  /-- an error response to a flit that names no open request: a response that had no route (R453) -/
  | refused (code : Nat)
  /-- an error response to one rank's tile of a collective round (R258) -/
  | tileRefused (handle round : Nat)
  /-- one rank's tile of a collective round (R258, R264) -/
  | tile (handle round rank kind red ty : Nat) (bytes : List Byte)
  /-- the participants of the sending module have all arrived at their next crossing of a domain, with their staged writes
      that belong to it and the width request of the highest rank key among them: the key and the width (R250, R254, R273) -/
  | arrive (dom : DomKey) (width : Option (Nat × Nat × Nat × Nat)) (parts : List StagedPart)
  /-- an early crossing of a domain asks for the staged writes that a module's buffers hold (R248) -/
  | gather (dom : DomKey)
  /-- the sending module's staged writes of a domain, for an early crossing asked of it, or asked for there (R248) -/
  | early (dom : DomKey) (parts : List StagedPart) (asks : Bool)
  /-- a landing of a domain is done: its boundary count, the crossings completed, NCONF, the early crossings, and a gang's
      view number and members (R250, R253, R274) -/
  | landed (dom : DomKey) (count crossings nconf early view : Nat) (members : List Nat)
  /-- a CGBIND of another module asks for a handle: launch, KEY and list of ranks (R257) -/
  | bind (tag launch key : Nat) (ranks : List Nat)
  /-- a group is held under a handle (R257), or the binding asked for on `tag` came to a status of CGBIND -/
  | bound (tag launch key handle : Nat) (ranks : List Nat)
  /-- a STAGGER's rectangle, STEP in µs and NSLOT (R454) -/
  | stagger (rect : Nat × Nat × Nat × Nat) (stepUs nslot : Nat)
  /-- tasks of a launch that stood at other modules are done -/
  | tasksDone (launch n : Nat)
  /-- a route of another module's launch through this module: loaded, or removed -/
  | route (rect : Nat × Nat × Nat × Nat) (load : Bool)
  /-- other management content -/
  | other (bytes : List Byte)
deriving DecidableEq, Repr

/-- A flit of the Breist fabric (R452). `va` is the virtual address of the access that a request serves, which the home's
log records (R12); `checkOk` is whether its CHECK code holds. -/
structure FabFlit where
  type : Nat
  seq : Nat
  dst : Nat
  src : Nat
  tid : Nat
  va : Nat
  op : FabOp
  checkOk : Bool
deriving DecidableEq, Repr

/-- The fields of a configuration record (R460). Units stand under the numbers of Machine/Errors.lean. -/
structure ConfigRecord where
  posI : Nat
  posJ : Nat
  harvest : List Nat
  /-- the substitutes of harvested slices and controllers, and of units retired in earlier runs: unit, substitute -/
  subst : List (Nat × Nat)
  retired : List Nat
  /-- the base of each die's egress spill area -/
  spill : List Nat
deriving DecidableEq, Repr, Inhabited

end Sys2Proof
end

