-- ==== Sys2Proof/Config.lean ====
section
/-! DEFINITION. What the spec leaves open: the free values of the model. Each is a constant without a body, so no
statement can rest on a value of it. The first argument of most of them is the state's counter of free values. -/

namespace Sys2Proof.Config

/-- Which of the agents that can move moves next (the spec promises no order between agents). -/
opaque pick : Nat → Nat

/-- A byte the spec leaves open. -/
opaque freeByte : Nat → Byte

/-- A word the spec leaves open. -/
opaque freeWord : Nat → Word

/-- The response of a die's physically unclonable function (R459). -/
opaque pufResponse : Nat → List Byte

/-- The SHA-512 digest of a vendor public key that a die's boot ROM holds under an index (R457). -/
opaque romDigest : Nat → Nat → List Byte

/-- The configuration record that a stage-2 body holds, if it has one's form: the spec gives its fields and no layout
    (R460). -/
opaque configRecord : List Byte → Option ConfigRecord

/-- What the payload of a host atomic asks for: the spec gives it no layout (R448). Operation (R240's codes, 7 for a
    compare-and-swap and 8 for a signal's decrement), element type, operand, compare value. -/
opaque hostAtomic : List Byte → Nat × Nat × Nat × Nat

/-- How many records the hypervisor's log has room for (R420), less one: the spec has software set it, and names no command. -/
opaque hyperCap : Nat

/-- Which of the units in service serves a retired unit's index or number: only a log or a record names it (R172, R418). -/
opaque substitute : Nat → Nat

/-- The Breist port through which a die's traffic for a mesh coordinate leaves. -/
opaque egressPort : Nat → Nat → Nat

/-- Which of a number of unpromised choices the device makes: a slot and place (R298), a handle (R257). -/
opaque choose : Nat → Nat

/-- Whether the owner of a page outside the module refuses a store by its own checks (R369): the counter, the physical
    address. -/
opaque ownerRefuses : Nat → Nat → Bool

/-- Whether another module lets a launch pass a step of R288 on its own dies: the counter, the step, a coordinate. -/
opaque peerPasses : Nat → Nat → Nat → Bool

end Sys2Proof.Config
end

