-- ==== Sys2Proof/Machine/Maps.lean ====
section
/-! DEFINITION. Sparse maps by number, in one canonical form: keys strictly rising, no entry equal to the value an
unlisted key reads as. Memory, register files and every other sparse store of the machine are such lists. -/

namespace Sys2Proof.Machine

/-- Read a key; an unlisted key reads as the default. -/
def kget {β : Type} (d : β) : List (Nat × β) → Nat → β
  | [], _ => d
  | (k, v) :: r, x => if k = x then v else kget d r x

/-- Remove a key. -/
def kdel {β : Type} : List (Nat × β) → Nat → List (Nat × β)
  | [], _ => []
  | (k, v) :: r, x => if k = x then kdel r x else (k, v) :: kdel r x

/-- Insert an entry before the first greater key. -/
def kins {β : Type} (x : Nat) (w : β) : List (Nat × β) → List (Nat × β)
  | [] => [(x, w)]
  | (k, v) :: r => if x < k then (x, w) :: (k, v) :: r else (k, v) :: kins x w r

/-- Write a key; writing the default removes the entry. -/
def kset {β : Type} [DecidableEq β] (d : β) (m : List (Nat × β)) (x : Nat) (w : β) : List (Nat × β) :=
  if w = d then kdel m x else kins x w (kdel m x)

/-- The canonical form: keys strictly rising, no entry equal to the default. -/
def kwf {β : Type} [DecidableEq β] (d : β) : List (Nat × β) → Bool
  | [] => true
  | [(_, v)] => decide (v ≠ d)
  | (k, v) :: (k', v') :: r => decide (k < k') && decide (v ≠ d) && kwf d ((k', v') :: r)

/-- The number of one bits of a mask. -/
def popMask (m : Lanes) : Nat := ((List.range 32).filter fun l => m.getLsbD l).length

/-- The lanes of a mask in ascending order. -/
def lanesOf (m : Lanes) : List Nat := (List.range 32).filter fun l => m.getLsbD l

/-- The lowest lane of a mask. -/
def lowLane (m : Lanes) : Option Nat := (lanesOf m).head?

/-- The mask of a list of lanes. -/
def maskOf (ls : List Nat) : Lanes := ls.foldl (fun m l => m ||| (1#32 <<< l)) 0#32

/-- Bits hi to lo of a number (R54). -/
def bitsOf (x hi lo : Nat) : Nat := x / 2 ^ lo % 2 ^ (hi + 1 - lo)

end Sys2Proof.Machine
end

