-- ==== Sys2Proof/Syntax.lean ====
section
/-! DEFINITION. The steps of the machine: one constructor per row of spec/opcode_table.json, in its order.
Rows 0 to 178 are instruction words (R55, R57); rows 179 to 239 are the events of 95_what_each_step_holds.md. -/

namespace Sys2Proof

/-- A row of the opcode table with its operands. An instruction's register fields are numbers as the assembler
writes them (v5 is `.v 5`); a quad field names its first s register; an event carries what it acts on. -/
inductive Instr where
  -- integer, address and logic instructions, A-class (R88 to R97)
  | add (d : Dst) (a b : Src) (m : Option Mods)
  | addc (d : Dst) (a b : Src) (m : Option Mods)
  | sub (d : Dst) (a b : Src) (m : Option Mods)
  | subb (d : Dst) (a b : Src) (m : Option Mods)
  | mullo (d : Dst) (a b : Src) (m : Option Mods)
  | mulhi (d : Dst) (a b : Src) (m : Option Mods)
  | mad (d : Dst) (a b : Src) (m : Option Mods)
  | div (d : Dst) (a b : Src) (m : Option Mods)
  | rem (d : Dst) (a b : Src) (m : Option Mods)
  | min (d : Dst) (a b : Src) (m : Option Mods)
  | max (d : Dst) (a b : Src) (m : Option Mods)
  | and (d : Dst) (a b : Src) (m : Option Mods)
  | or (d : Dst) (a b : Src) (m : Option Mods)
  | xor (d : Dst) (a b : Src) (m : Option Mods)
  | andn (d : Dst) (a b : Src) (m : Option Mods)
  | shl (d : Dst) (a b : Src) (m : Option Mods)
  | shr (d : Dst) (a b : Src) (m : Option Mods)
  | sar (d : Dst) (a b : Src) (m : Option Mods)
  | rol (d : Dst) (a b : Src) (m : Option Mods)
  | bfx (d : Dst) (a b : Src) (m : Option Mods)
  | bfi (d : Dst) (a b : Src) (m : Option Mods)
  | sel (d : Dst) (a b : Src) (neg : Bool) (p : Nat)
  | cmp (c p : Nat) (a b : Src) (m : Option Mods)
  | lea (d : Dst) (a b : Src) (m : Option Mods)
  | abs (d : Dst) (a : Src) (m : Option Mods)
  | neg (d : Dst) (a : Src) (m : Option Mods)
  | not (d : Dst) (a : Src) (m : Option Mods)
  | popc (d : Dst) (a : Src) (m : Option Mods)
  | clz (d : Dst) (a : Src) (m : Option Mods)
  | brev (d : Dst) (a : Src) (m : Option Mods)
  | mov (d : Dst) (a : Src) (m : Option Mods)
  | movi (d : Dst) (w : Word)
  | movh (d : Dst) (w : Word)
  | pset (p : Nat) (a : Src) (lanes : Bool)
  -- floating-point, conversion, packing, generator (R99 to R108)
  | fadd (d : Dst) (a b : Src) (m : Option Mods)
  | fsub (d : Dst) (a b : Src) (m : Option Mods)
  | fmul (d : Dst) (a b : Src) (m : Option Mods)
  | fma (d : Dst) (a b : Src) (m : Option Mods)
  | fmin (d : Dst) (a b : Src) (m : Option Mods)
  | fmax (d : Dst) (a b : Src) (m : Option Mods)
  | fcmp (c p : Nat) (a b : Src) (m : Option Mods)
  | fdiv (d : Dst) (a b : Src) (m : Option Mods)
  | frcp (d : Dst) (a : Src) (m : Option Mods)
  | frsq (d : Dst) (a : Src) (m : Option Mods)
  | fsqrt (d : Dst) (a : Src) (m : Option Mods)
  | fexp2 (d : Dst) (a : Src) (m : Option Mods)
  | flog2 (d : Dst) (a : Src) (m : Option Mods)
  | fsin (d : Dst) (a : Src) (m : Option Mods)
  | fcos (d : Dst) (a : Src) (m : Option Mods)
  | ftanh (d : Dst) (a : Src) (m : Option Mods)
  | frint (d : Dst) (a : Src) (m : Option Mods)
  | fclass (d : Dst) (a : Src) (m : Option Mods)
  | cvt (d : Dst) (a : Src) (t : Nat) (m : Option Mods)
  | qpack (d : Dst) (a : Src) (f : Nat) (m : Option Mods)
  | qunpk (d : Dst) (a : Src) (f : Nat) (m : Option Mods)
  | srnd (d : Dst) (a : Src) (t : Nat) (m : Option Mods)
  | rng (d : Dst)
  | rngst (d : Dst)
  | rngld (a : Src)
  -- cross-lane instructions (R109 to R114)
  | shflIdx (d : Dst) (a b : Src) (m : Option Mods)
  | shflUp (d : Dst) (a b : Src) (m : Option Mods)
  | shflDown (d : Dst) (a b : Src) (m : Option Mods)
  | shflXor (d : Dst) (a b : Src) (m : Option Mods)
  | bcast (d : Dst) (a b : Src) (m : Option Mods)
  | voteAny (d : Dst) (a : Src)
  | voteAll (d : Dst) (a : Src)
  | voteBallot (d : Dst) (a : Src)
  | voteUni (d : Dst) (a : Src)
  | lred (d : Dst) (a : Src) (o : Nat)
  | lscan (d : Dst) (a : Src) (excl : Bool) (o : Nat)
  -- control flow and the CTL space (R115 to R124, R335, R336, R305, R306, R402 to R405)
  | bra (off : Word)
  | brp (p : Nat) (neg : Bool) (off : Word)
  | call (d : Dst) (off : Word)
  | jmpr (a : Src)
  | mode (w : BitVec 16)
  | nop
  | nopMerge
  | ret (a : Src)
  | exit
  | yield
  | sleep (a : Src)
  | leave
  | qbar
  | trap (n : Nat)
  | tret
  | elog (d : Dst)
  | join (a b : Src)
  | launch (d : Dst) (a : Src)
  -- memory instructions (R188 to R211)
  | ldB (d : Dst) (a b : Src)
  | ldH (d : Dst) (a b : Src)
  | ldW (d : Dst) (a b : Src)
  | ldD (d : Dst) (a b : Src)
  | ldQ (d : Dst) (a b : Src)
  | ldbyW (d : Dst) (a b : Src)
  | ldbyD (d : Dst) (a b : Src)
  | ldbyQ (d : Dst) (a b : Src)
  | stB (d a b : Src)
  | stH (d a b : Src)
  | stW (d a b : Src)
  | stD (d a b : Src)
  | stQ (d a b : Src)
  | stbyW (d a b : Src)
  | stbyD (d a b : Src)
  | stbyQ (d a b : Src)
  | ldf (d : Dst) (a b : Src)
  | stf (d a b : Src)
  | pref (l : Nat) (a b : Src)
  | invl (a b : Src)
  | invlAll
  | waitp (path : Nat) (a : Src)
  | cp (d a b sswz dswz rows : Nat)
  | cps (d : Dst)
  | cpw (a : Src)
  | rqnt (a b : Nat) (sat : Bool) (rnd newf : Nat)
  -- fences, scoped accesses, atomics, crossings, collectives (R229 to R266)
  | fence (d : Dst) (s : Nat)
  | acq (d : Dst) (s : Nat)
  | rel (d : Dst) (s : Nat)
  | lda (d : Dst) (a : Src) (dbl : Bool) (off : Option Word)
  | stl (d a : Src) (dbl : Bool) (off : Option Word)
  | amo (d : Dst) (a b : Src) (op : Nat)
  | cas (d : Dst) (a b : Src)
  | red (a b : Src) (op : Nat)
  | cross (d : Dst)
  | crossa (d : Dst)
  | crossw (d : Dst)
  | phase (d : Dst)
  | cgbind (d : Nat) (a : Src)
  | collAllreduce (d : Tile) (a r : Nat)
  | collReducescatter (d : Tile) (a r : Nat)
  | collAllgather (d : Tile) (a : Nat)
  | collBroadcast (d : Tile) (a : Nat)
  | collAlltoall (d : Tile) (a : Nat)
  | abinit (d : Nat) (a : Src)
  | abarv (d : Dst) (a : Src)
  | abwait (d : Src) (a : Src)
  -- gangs, registers, alleys, signals (R281 to R285, R301 to R315)
  | gset (d : Dst) (a : Src)
  | gwid (d : Dst) (a : Src)
  | gview (d : Dst)
  | grank (d : Dst) (a : Src)
  | rgrow (a : Src)
  | rshrink (a : Src)
  | aopen (a : Src)
  | apop (d : Dst) (a : Src)
  | atry (d : Dst) (a : Src)
  | apush (a b : Src)
  | sigdec (err : Bool) (a : Nat) (b : Src)
  | sigwait (d : Dst) (a : Nat) (b : Src)
  -- matrix, attention and key-value instructions (R132 to R162)
  | mma (n a b mr nc kb : Nat) (pa pb : Bool)
  | mmas (n d a b mr nc kb isel : Nat) (pa pb : Bool)
  | mmac (n a b mr nc kb : Nat) (pb : Bool)
  | macld (n a : Nat) (b : Src)
  | macst (n a : Nat) (b : Src)
  | macrd (d : Nat) (a : Src) (n : Nat)
  | macwr (d : Nat) (a : Src) (n : Nat)
  | mepi (n a b mr nc tgt rnd : Nat) (sat : Bool) (fam bfmt : Nat)
  | macz (n : Nat)
  | mprog (d : Dst) (n : Nat)
  | ackpt (d a : Src) (n : Nat)
  | acrst (d a : Src) (n : Nat)
  | attn (n a b q dim chunks lc kw vw : Nat) (fold causal : Bool)
  | attc (init fin : Bool) (n a : Nat)
  | kvap (d : Dst) (a b : Nat)
  | kvtr (d : Dst) (a b : Nat)
  | kvrd (d : Dst) (a : Nat) (b : Src)
  -- counters, bounded counters, system (R348 to R396)
  | cntrd (d : Dst) (k : Nat)
  | cntcfg (d : Dst) (a : Src) (k : Nat)
  | cntsv (a : Nat)
  | cntld (a : Nat)
  | wswitch
  | bcinit (d : Dst) (a : Nat) (b : Src)
  | bctake (d : Dst) (a : Nat) (b : Src)
  | bcgive (d : Dst) (a : Nat) (b : Src)
  | bcread (d : Dst) (a : Nat)
  | bcstat (d : Dst) (a : Nat)
  | sysrd (d : Dst) (n : Nat)
  | syswr (n : Nat) (a : Src)
  | syXreqWrite (a : Src)
  | shoot (a : Nat) (b : Src)
  | part (d : Dst) (a b : Src)
  -- events of the memory side, the core, the domains and the engines
  | loadReturn (ter id : Nat) (m : Lanes)
  | storeAcknowledgement (ter id : Nat) (m : Lanes)
  | overflowInterrupt (core : Nat)
  | quantumExpiry (core : Nat)
  | worldSwitch (core : Nat)
  | sleepEnd (ter lane : Nat)
  | detectorWindowEnd (core pidx : Nat)
  | crossingCompletion (dom : DomKey)
  | copyEngineCommand (cmd rows : Nat)
  | engineAlleyPush (cmd : Nat)
  | requantisation (cmd : Nat)
  | blockStep (core slot : Nat)
  | jobCard (ter card : Nat)
  | watchdogExpiry (ter card : Nat)
  | collectiveRoundCompletion (handle round die : Nat)
  | taskStart (launch leaf : Nat)
  | launchCompletion (launch : Nat)
  | rebalance (ctr : Nat)
  | nearLineEviction (core pidx line : Nat)
  | serviceTerraceStart (vf die : Nat)
  -- events of the fabric, of power and of the host link
  | linkRetraining (die port : Nat)
  | linkDeclaredDown (die port : Nat)
  | fabricRequest (die : Nat) (f : FabFlit)
  | fabricResponse (die : Nat) (f : FabFlit)
  | collectivePacket (die : Nat) (f : FabFlit)
  | fabricManagementFlit (die : Nat) (f : FabFlit) (fromMgmt : Bool)
  | stagger (die : Nat) (f : FabFlit) (fromMgmt : Bool)
  | staggerHoldEnd (die : Nat)
  | egressSpillDrain (die : Nat)
  | powerSample (die demand : Nat)
  | supplyLoss
  | hostRead (die : Nat) (flit : List Byte)
  | hostWrite (die : Nat) (flit : List Byte)
  | hostAtomic (die : Nat) (flit : List Byte)
  | hostReadCompletion (die : Nat) (flit : List Byte)
  | hostErrorResponse (die : Nat) (flit : List Byte)
  | hostInterrupt (die : Nat) (flit : List Byte)
  | doorbell (die : Nat) (flit : List Byte)
  | launchQueueEntry (vf : Nat)
  -- management commands (R451)
  | mgmtPart (a b : Word)
  | quant (core pidx q : Nat)
  | frames (die frame colour : Nat)
  | wdog (us : Nat)
  | link (die port : Nat) (up : Bool)
  | abort (vf : Nat) (launch : Option Nat)
  | stop (launch how : Nat)
  | lost (die frame : Nat)
  | queue (vf addr : Nat)
  | power (die : Nat) (w : Word)
  | logs (die : Nat)
  | freeze
  | quote (die : Nat) (nonce : List Byte)
  | sysreg (vf reg : Nat) (value : DWord)
  -- pins, boot, and the core's own clock
  | freezePin
  | reset
  | bootImage (die : Nat) (image : List Byte)
  | coreCycle (core : Nat)
  | rowBoundary (core slot : Nat)
  | linkRetrained (die port : Nat)
  | freezeReadout (die : Nat)
  | instructionFetch (ter lane : Nat)
deriving DecidableEq, Repr

end Sys2Proof
end

