-- ==== Sys2Proof/Machine/State.lean ====
section
/-! DEFINITION. The state of a module, as plain data, and the state after reset. A store indexed by number is a sparse
list in the canonical form of Machine/Maps.lean. The lists of terraces, teams, launches and the like hold what exists. -/

namespace Sys2Proof.Machine

/-- Who owns a physical address (R173). -/
inductive Owner where
  | die (d : Nat)
  | host
  | peer (i j d : Nat)
  | bad
deriving DecidableEq, Repr

/-- A leaf entry's fields (R175). -/
structure Leaf where
  colour : Nat
  frame : Nat
  sgrp : Nat
  srule : Nat
  cfmt : Nat
  fmt : Bool
  place : Nat
  cls : Nat
  user : Bool
  write : Bool
  exec : Bool
  valid : Bool
deriving DecidableEq, Repr

/-- A translated address: its physical address, its page's leaf, and whether the frame is shared. -/
structure Phys where
  pa : Nat
  leaf : Leaf
  owner : Owner
  shared : Bool
deriving DecidableEq, Repr

/-- One entry of a split's latch window (R47, R48): the value of each lane, 0 where it was inactive, and the core
    cycle from which its producer's latency has elapsed. -/
structure Latch where
  nameable : Bool
  wide : Bool
  vals : List DWord
  ready : Nat
deriving DecidableEq, Repr

/-- One entry of a serialisation stack (R115). -/
structure StackEntry where
  waiting : Bool
  pc : DWord
  mask : Lanes
  mode : BitVec 16
  rk : DWord
  rc : DWord
deriving DecidableEq, Repr

/-- A trap frame (R399). `fid` tells the frames of a terrace apart, so that splits inside one frame know it (R400). -/
structure Frame where
  fid : Nat
  rpc : DWord
  rmask : Lanes
  fmask : Lanes
  rmode : BitVec 16
  rk : DWord
  rc : DWord
  cause : Word
  addr : DWord
  /-- the length in bytes of the trapping instruction, and the serialisation stack as it stood at the trap -/
  rlen : Nat
  stack : List StackEntry
  /-- the final store or atomic of a chain that trapped, and its faulted lanes (R52) -/
  redo : Option (DWord × Lanes)
  /-- what the instruction at RPC had done where the split had stopped in its wait: its issue after TRET goes on from there
      (R254, R309, R354) -/
  kept : Option (Nat × Nat)
deriving DecidableEq, Repr

/-- What an instruction that has issued and holds its split waits for; it goes on when the wait is over. -/
inductive Wait where
  /-- the in-flight counter of a path is at most a threshold (R201) -/
  | path (p thr : Nat)
  /-- the terrace's accesses of a scope with numbers below n have been released (R231) -/
  | released (scope n : Nat)
  /-- the terrace's loads of a scope with numbers below n have returned (R231) -/
  | returned (scope n : Nat)
  /-- batch t and those before it are complete or hold a fault (R208) -/
  | batch (t : Nat)
  /-- a phase of the quarter has passed since arrival (R306) -/
  | quarter (phase : Nat)
  /-- a growth place is free and no older terrace waits (R302) -/
  | growth
  /-- an alley at a location holds a handle, this being the oldest waiter (R309) -/
  | alley (loc : Nat)
  /-- the terrace's send allowance on the alley at a location is not 0 (R310) -/
  | allow (loc : Nat)
  /-- the signal at a location is at most the threshold or has ERR (R315) -/
  | signal (loc thr : Nat)
  /-- the barrier object at a location has left the phase (R262) -/
  | barrier (loc tok : Nat)
  /-- crossing n of the domain has completed (R252) -/
  | crossing (dom : DomKey) (n : Nat)
  /-- a core cycle is reached (a removal of lines, R200, R231; a local counter operation, R348) -/
  | cycle (t : Nat)
  /-- the take the terrace sent to a counter's home is answered, or the total it asked for (R348) -/
  | counter
  | total
  /-- the terrace's copy commands into STAGED pages of the domain have finished or stopped (R249) -/
  | copies (dom : DomKey)
  /-- the accesses with numbers below n of the terrace have completed -/
  | before (n : Nat)
  /-- the tenant's accesses to a range of pages and the requests outside, numbered below n, have completed or stopped
      (R373) -/
  | shot (vf lo hi n : Nat)
  /-- the SHOOTs before it on the module are done (R373) -/
  | turn
  /-- the answer to a request has come from outside the module -/
  | outside (tag : Nat)
  /-- the descriptor that a LAUNCH reads outside the module has come (R286) -/
  | descriptor (ter sid : Nat)
deriving DecidableEq, Repr

/-- Why a split is out of candidacy (R320). -/
inductive Hold where
  | none
  /-- sleeping until a core cycle (R336) -/
  | sleep (until_ : Nat)
  /-- held by an instruction that waits -/
  | wait (w : Wait)
  /-- held by an access of its own that completes by an event -/
  | access (id : Nat)
  /-- held by a tile instruction that an engine runs (R127) -/
  | tile
deriving DecidableEq, Repr

/-- What an instruction that holds its split in a wait read at its issue (R87): the register files and wide marks, the
    predicates, the latch window, the active lanes, and the first access number that is later than it. -/
structure AtIssue where
  v : List (Nat × Word)
  vw : List (Nat × Lanes)
  s : List (Nat × Word)
  sw : BitVec 16
  p : List (Nat × Lanes)
  window : List Latch
  active : Lanes
  ord : Nat
deriving DecidableEq, Repr

/-- A line of a core partition's L1 (R171): virtual line number, ASID, its bytes, class and rights as filled. -/
structure Line where
  line : Nat
  asid : Nat
  /-- the physical address of the line, its page's leaf entry and owner as filled -/
  pa : Nat
  leaf : Leaf
  owner : Owner
  bytes : List Byte
  /-- the domain and boundary count of a STAGED line at its fill (R178) -/
  dom : Option (DomKey × Nat)
  /-- writes that stand at the slice of an UPDATE line and that this sharer has still to apply, oldest first: the store's access,
      its physical address and its bytes (R177) -/
  due : List (Nat × Nat × List Byte)
deriving DecidableEq, Repr

/-- What came back from outside the module for a request that belongs to no access. -/
inductive Answer where
  | val (v : Nat)
  | err (code : Nat)
deriving DecidableEq, Repr

/-- A range of memory outside the module that an engine reads: its physical address and length, and the tag of its
    request or the answer to it. -/
structure OutRead where
  pa : Nat
  len : Nat
  tag : Nat
  got : Option Answer
deriving DecidableEq, Repr

/-- A split (R115) with its issue context. -/
structure Split where
  /-- the model's own number of the split within its terrace -/
  sid : Nat
  pc : DWord
  mask : Lanes
  mode : BitVec 16
  rk : DWord
  rc : DWord
  /-- newest first, at most eight (R47) -/
  window : List Latch
  /-- top first, at most eight (R115) -/
  stack : List StackEntry
  /-- stopped at the merge marker at `pc` (R117) -/
  stopped : Bool
  hold : Hold
  /-- the core cycle from which the next instruction is available (R124, R321) -/
  avail : Nat
  /-- members issued after the chain's head (R50) -/
  members : Nat
  /-- the address of the chain's head, or of the last issued instruction -/
  head : DWord
  /-- the last issued instruction was a store or an atomic (R51) -/
  lastStore : Bool
  /-- the trap frame while the split is in a handler (R399) -/
  frame : Option Frame
  /-- SY_TCAUSE and SY_TADDR (R397, R379) -/
  tcause : Word
  taddr : DWord
  /-- the lanes that rejoin after the re-executed instruction (R404) -/
  after : Option Lanes
  /-- a final store or atomic that runs again for these lanes only (R52) -/
  redo : Option (DWord × Lanes)
  /-- the wait count (R327) -/
  waited : Nat
  /-- the instruction that holds the split (R320), and what it read where it waits -/
  held : Option Instr
  read : Option AtIssue
  /-- writes abandoned while the split's fence waited for them, and the first one's address (R232) -/
  undel : Nat × Nat
  /-- what the instruction that waits has done already: a step of its entry, and a value -/
  kept : Option (Nat × Nat)
  /-- what it reads outside the module -/
  gets : List OutRead
  /-- the first line of a list of this module that its instruction holds while a part of the list elsewhere is read or
      exchanged (R152) -/
  list : Option Nat
  /-- instruction lines fetched from frames that are cached nowhere (R372), until the next issue -/
  buf : List Line
  /-- the delivery of an interrupt to another split pre-empts this one at its next pre-emption point (R410) -/
  stopping : Bool
deriving DecidableEq, Repr

/-- A register or predicate of the scoreboard (R322). -/
inductive PReg where
  | v (n : Nat)
  | s (n : Nat)
  | p (n : Nat)
deriving DecidableEq, Repr

/-- A set pending bit: it clears in a core cycle, or when the access that owns it has written (R322). -/
structure Pending where
  reg : PReg
  clearAt : Option Nat
  access : Nat
deriving DecidableEq, Repr

/-- An instruction counted in flight on a path (R181, R182), in issue order. -/
structure Flight where
  id : Nat
  path : Nat
  /-- the accesses of it that have not returned -/
  left : List Nat
deriving DecidableEq, Repr

/-- A terrace. -/
structure Terrace where
  uid : Nat
  core : Nat
  /-- the terrace number within the core: slot × 16 + place (R29) -/
  ter : Nat
  vf : Nat
  launch : Nat
  /-- its team: the model's number of it, and its index within the launch (R294) -/
  team : Nat
  teamIdx : Nat
  /-- the unit it performs, and its index within the team (R290, R461) -/
  unit : Nat
  k : Nat
  /-- v registers by n × 32 + lane -/
  v : List (Nat × Word)
  /-- wide marks of the even v registers, by register (R189) -/
  vw : List (Nat × Lanes)
  /-- s registers by number -/
  s : List (Nat × Word)
  /-- wide marks of the even s registers; bit n for sn -/
  sw : BitVec 16
  /-- predicates by number -/
  p : List (Nat × Lanes)
  /-- the current register count (R34) -/
  nregs : Nat
  splits : List Split
  pending : List Pending
  flight : List Flight
  /-- the copy commands of the open batch, the sealed batches with their numbers, the last number (R207) -/
  openBatch : List Nat
  sealedBatches : List (Nat × List Nat)
  lastBatch : Nat
  /-- the quarter it is in and the phase it has arrived in (R303, R306) -/
  quarter : Option Nat
  arrived : Option Nat
  /-- arrivals in the die phase, the launch's crossings and the gang's (R250, R252) -/
  phaseArr : Nat
  crossArr : Nat
  gangArr : Nat
  /-- early crossings of each domain seen at the last departure (R253) -/
  phaseEarly : Nat
  crossEarly : Nat
  gangEarly : Nat
  /-- the gang the terrace is bound to (R271), and its width request with the crossing it falls to (R273) -/
  gang : Option Nat
  widthReq : Option (Nat × Nat)
  /-- the status of the gang's crossing at which the terrace left the view and from which it has not departed (R279) -/
  parted : Option Nat
  /-- the sticky approximation flag (R157) -/
  apx : Bool
  /-- the reply of a counter's home to the terrace's take that it has not used yet (R354): the record's address, the status,
      and the units granted -/
  reply : Option (Nat × Nat × Nat)
  /-- the total a counter's home has answered to the terrace's BCREAD (R352) -/
  total : Option Nat
  /-- the alleys, by location, on which the terrace holds a sender record (R308) -/
  opened : List Nat
  /-- the service terrace's current parked request (R408) -/
  service : Option Nat
deriving DecidableEq, Repr

/-- A line of an L2 slice (R171, R174, R178): its slice and set, virtual line number and ASID, physical address, leaf entry
    and boundary count as filled, and whether it holds bytes that DRAM does not (R416). -/
structure L2Line where
  slice : Nat
  set : Nat
  line : Nat
  asid : Nat
  pa : Nat
  leaf : Leaf
  dom : Option (DomKey × Nat)
  dirty : Bool
deriving DecidableEq, Repr

/-- An entry of a home TLB (R365): `form` 1 or 2 for a leaf of that level, 3 for a level-3 table read whole. `reached` holds
    the 64 KiB pieces of the granule that have been reached through it (R371). -/
structure TlbEntry where
  ctl : Nat
  asid : Nat
  granule : Nat
  form : Nat
  words : List DWord
  table : Nat
  reached : BitVec 32
deriving DecidableEq, Repr

/-- A performance counter (R387, R388): its value and configuration word. -/
structure Counter where
  value : Nat
  config : Word
deriving DecidableEq, Repr

/-- What an issue slot keeps for one partition (R326, R328, R329): the split of its last issue, the greedy split's run,
    the ring position, a YIELD just issued, and until when its vector ALU is held (R85). -/
structure SlotState where
  last : Option (Nat × Nat)
  greedy : Option (Nat × Nat)
  run : Nat
  ring : Option (Nat × Nat)
  yielded : Option (Nat × Nat)
  aluUntil : Nat
deriving DecidableEq, Repr

/-- A core partition (R360, R361). -/
structure Part where
  core : Nat
  pidx : Nat
  vf : Nat
  granules : BitVec 4
  slots : BitVec 4
  lb : Nat
  lc : Nat
  quant : Nat
  /-- the eight counters; a slice event's value stands in the bank (R390) -/
  counters : List Counter
  bank : List Nat
  slotState : List SlotState
  /-- the detector (R331): victim tags by set, newest first, and its counts -/
  victims : List (Nat × Nat × Nat)
  missM : Nat
  missR : Nat
  windowCycles : Nat
  adm : Nat
  /-- L1 data lines, most recently used first; NEAR lines; L1 instruction lines -/
  lines : List Line
  near : List Line
  ilines : List Line
deriving DecidableEq, Repr

/-- A slot's row-progress register (R128), with the claiming terrace, the handles its instruction popped (R129), the
    generator counter of its first issue (R68), what it read at its last issue (R137, R140, R146), the number of that
    issue (R127), the tags and addresses of its row's writes outside the module that are not answered, and what its row or
    step reads there. -/
structure Prog where
  act : Bool
  flt : Bool
  opc : Nat
  step : Nat
  row : Nat
  ter : Nat
  uid : Nat
  handleA : Option Nat
  handleB : Option Nat
  rc : DWord
  saved : List Nat
  ord : Nat
  acks : List (Nat × Nat × Nat)
deriving DecidableEq, Repr

/-- A job card of an ATTN that has not completed: its number, the engine that runs it, and the expiries of its watchdog
    (R158, R419). -/
structure Card where
  card : Nat
  eng : Nat
  expired : Nat
deriving DecidableEq, Repr

/-- An ATTN under way: its split, its number in the order of arrival at the cluster's engines, the extent list as read
    at issue (base, start, length, stride) with E, the cards left, and whether a token was masked for absence (R157). -/
structure Job where
  uid : Nat
  sid : Nat
  cluster : Nat
  ord : Nat
  exts : List (Nat × Nat × Nat × Nat)
  e : Nat
  cards : List Card
  absent : Bool
deriving DecidableEq, Repr

/-- A core (R382 to R384). -/
structure Core where
  now : Nat
  /-- the partition that holds it -/
  holder : Option Nat
  sliceStart : Nat
  /-- a switch under way: the next partition and the cycle from which it may issue -/
  switching : Option (Nat × Nat)
  /-- the slice has ended, and the core waits for the points of R384 step 1 -/
  ending : Bool
  /-- slots whose split, chosen in this cycle, began to wait: they choose again -/
  again : List Nat
  /-- the splits chosen in this cycle that have not come to issue, in order: other agents may move between them (R2) -/
  due : List (Nat × Nat)
deriving DecidableEq, Repr

/-- A virtual function (R356, R379, R380). -/
structure Tenant where
  asid : Nat
  tid : Nat
  policy : Word
  ptroot : DWord
  tvec : DWord
  elog : DWord
  vlog : DWord
  ftpool : DWord
  stage : DWord
  /-- the physical address of the launch queue record, once one is placed (R449) -/
  queue : Option Nat
deriving DecidableEq, Repr

/-- The fields of a launch descriptor (R286), with its own address; `priv` in bytes. -/
structure Desc where
  addr : Nat
  entry : DWord
  args : DWord
  signal : Nat
  cont : Nat
  items : Nat
  grain : Nat
  x0 : Nat
  y0 : Nat
  w : Nat
  h : Nat
  dies : Nat
  foot : Nat
  teams : Nat
  tpt : Nat
  rbase : Nat
  rmax : Nat
  grow : Nat
  mode : BitVec 16
  rr : Bool
  priv : Nat
  scr : Nat
  joinpc : DWord
  alist : Nat
  nal : Nat
deriving DecidableEq, Repr

/-- A live launch (R286 to R293, R316). A die is named by its mesh coordinate (x, y); tasks not yet started are held by
    the leaf they stand at (R291), as intervals (first, count). -/
structure Launch where
  id : Nat
  vf : Nat
  d : Desc
  /-- the alley list's records: offset and capacity (R307) -/
  alleys : List (Nat × Nat)
  /-- placed dies in rank order, and the spare list (R289) -/
  placed : List (Nat × Nat)
  spare : List (Nat × Nat)
  /-- dies that a gang took or that left a view, and that are not back on the spare list (R276) -/
  taken : List (Nat × Nat)
  /-- unstarted tasks by leaf -/
  tasks : List (Nat × List (Nat × Nat))
  /-- tasks that stand at other modules' dies and are not yet reported done -/
  remote : Nat
  /-- management has stopped it (1) or is ending it (2) (R410) -/
  halt : Nat
deriving DecidableEq, Repr

/-- A team (R294): its scratchpad size, its headroom pool (R300) and who waits for a growth place, with
    the count asked for. -/
structure Team where
  uid : Nat
  idx : Nat
  launch : Nat
  vf : Nat
  core : Nat
  scr : Nat
  pool : Nat
  places : Nat
  growers : List (Nat × Nat)
  joined : Bool
  /-- places reserved for a joining team's terraces, until they start (R278) -/
  held : Nat
deriving DecidableEq, Repr

/-- A quarter (R303). -/
structure Quarter where
  uid : Nat
  id : Word
  launch : Nat
  die : Nat
  m : Nat
  j : Nat
  a : Nat
  phase : Nat
deriving DecidableEq, Repr

/-- A record of the hypervisor's log (R420, R421), as its 32 bytes. -/
abbrev LogRecord := List Byte

/-- A die: its shares, translations and tables. -/
structure Die where
  /-- L2 ranges by virtual function: GB and GC (R363, R376) -/
  l2range : List (Nat × Nat × Nat)
  /-- home TLB ways by virtual function (R365) -/
  ways : List (Nat × Nat)
  /-- the owner of each market bank -/
  banks : List (Nat × Option Nat)
  /-- L2 lines present, most recent first -/
  l2 : List L2Line
  tlb : List TlbEntry
  /-- substitutes of harvested and retired slices and controllers (R172, R418) -/
  substSlice : List (Nat × Nat)
  substCtl : List (Nat × Nat)
  /-- the frame owner table (R368) -/
  frames : List (Nat × Nat)
  /-- mapping records by 64 KiB piece: VF, ASID and VA piece (R371) -/
  records : List (Nat × Option (Nat × Nat × Nat))
  /-- lost lines (R417): by line, the bytes written since the loss -/
  lost : List (Nat × List Nat)
  /-- Breist ports that are not up: 1 retraining, 2 down (R414) -/
  ports : List (Nat × Nat)
  /-- the sample at which a retraining port began -/
  retrain : List (Nat × Nat)
  /-- power samples taken, 10 µs apart (R455): the die's clock for R414, R418 and R454 -/
  samples : Nat
  /-- the power control word; the power drawn at the last sample, of it the filler's, and the energy not yet counted, in
      hundredths of a watt and ten-thousandths of a millijoule (R455, R456) -/
  power : Word
  drawn : Nat
  filler : Nat
  energy : Nat
  /-- a STAGGER hold: the level, and the time in µs at which it ends (R454) -/
  held : Option (Nat × Nat)
  /-- the last boot stage accepted (R458), the attestation log (R459) and the egress spill area's base (R460) -/
  boot : Nat
  attest : List (List Byte)
  spillBase : Nat
  /-- the next SEQ of each port's link (R452) -/
  seqs : List (Nat × Nat)
deriving DecidableEq, Repr

/-- A request to another module or the host that belongs to no access: its tag, the asking die, the destination's mesh
    coordinate (65536 for the host), the physical address and length, for whom it was made, its virtual address,
    whether it is a write, which a link that goes down abandons, and whether an agent waits for the answer. -/
structure Ask where
  tag : Nat
  die : Nat
  dest : Nat
  pa : Nat
  len : Nat
  vf : Nat
  launch : Nat
  va : Nat
  write : Bool
  waits : Bool
deriving DecidableEq, Repr

/-- What an outstanding access of a terrace does (R190, R195, R197 to R199, R234, R241, R243); `w` is a width in
    bytes. -/
inductive AccKind where
  | load (w : Nat) (signed bypass : Bool)
  | ldf
  | store (w : Nat) (bypass : Bool)
  | stf
  | amo (op : Nat)
  | cas
  | red (op : Nat)
  | pref (level : Nat)
  /-- `poc` where its scope reads the point of coherence and removes lines (R235) -/
  | lda (w : Nat) (poc : Bool)
  | stl (w : Nat)
  /-- a load of a counter image's entry (R396), collected by the waiting split -/
  | image
  /-- a signal's decrement; `cmp` of its request is ERRF (R314) -/
  | sig
deriving DecidableEq, Repr

/-- One lane's part of an outstanding access. `loc` is the physical address, the location of an on-chip byte, or, with
    `reg`, n × 128 + lane × 4 + byte of a terrace's v registers. `page` is present for the global window. -/
structure Req where
  lane : Nat
  ea : Nat
  loc : Nat
  len : Nat
  reg : Option Nat
  page : Option Phys
  /-- a store's bytes, an atomic's operand or new value; a CAS's compare value -/
  data : Nat
  cmp : Nat
  /-- the value of a load or the old value of an atomic, once it is fixed; of a store, that its bytes stand at the slice while
      sharers have still to apply them (R177) -/
  bound : Option Nat
  /-- the request's tag on the host path or the fabric, 0 where none is under way -/
  tag : Nat
  /-- its line is not kept (R200) -/
  noFill : Bool
  /-- the terrace's own staged bytes over what a peer answers (R178), by their place in the request -/
  own : List (Nat × Byte)
  /-- a SHOOT has removed its translation: nothing it brings enters an L2 slice or a near cache (R373) -/
  shot : Bool
deriving DecidableEq, Repr

/-- An outstanding access: an issued memory instruction, with the lanes whose part is still open. -/
structure Access where
  id : Nat
  ter : Nat
  sid : Nat
  core : Nat
  terno : Nat
  vf : Nat
  launch : Nat
  path : Nat
  kind : AccKind
  dst : Dst
  mode : BitVec 16
  rk : DWord
  rc : DWord
  /-- the lanes written by the instruction as a whole (R197) -/
  lanes : Lanes
  reqs : List Req
  /-- a RED parked at its home (R244) -/
  parked : Bool
  /-- faults and error responses of lanes whose split waits for the others: lane, code, address -/
  errs : List (Nat × Nat × Nat)
  /-- the lowest lane that has written an s destination (R242) -/
  low : Option Nat
deriving DecidableEq, Repr

/-- A staged entry (R247): one terrace's bytes of one line for one boundary. `after` is the number of arrivals its
    terrace had made (R249). `types` records the type of each staged word (R251). `spill` is the physical address of
    the 128 bytes of an overflow area that hold it, its region and its virtual address; `good` says that its check code holds,
    and `image` are the bytes written to an area that another module or the host owns. `called` says that an early crossing
    under way lands it (R248). An entry that another module has sent for a landing names a terrace from 2^40 on. -/
structure Staged where
  dom : DomKey
  after : Nat
  vf : Nat
  core : Nat
  pidx : Nat
  ter : Nat
  terno : Nat
  rank : Nat
  launch : Nat
  line : Nat
  pa : Nat
  leaf : Leaf
  bytes : List (Nat × Byte)
  types : List (Nat × Nat)
  spill : Option (Nat × Nat × Nat)
  good : Bool
  image : List Byte
  called : Bool
  /-- orders the entries by age -/
  born : Nat
deriving DecidableEq, Repr

/-- How far a landing of a domain is (R248, R250), while it waits for something outside the module. -/
inductive Landing where
  | idle
  /-- of a crossing, or early: it reads what it needs -/
  | reading (early : Bool)
  /-- the writes of a crossing are made, with its conflicts resolved under FAULT; the crossing has not completed -/
  | crossed (nconf : Nat)
  /-- the writes of early crossings are made, with how many entries landed -/
  | called (n : Nat)
deriving DecidableEq, Repr

/-- A domain of staged writes (R245): its boundary count, the crossings completed, the conflicts of the last crossing
    (R253), the early crossings so far, and what its landings wait for. The messages between modules that a domain over several
    needs are the model's own (log entry 54). -/
structure Domain where
  count : Nat
  crossings : Nat
  nconf : Nat
  early : Nat
  /-- the crossings at which some terrace has arrived -/
  started : Nat
  /-- the other modules whose participants have all arrived at the next crossing, and their staged writes that belong to it
      (R250, R254) -/
  arrived : List Nat
  parts : List Staged
  /-- the width request of highest rank key that other modules' arrivals at the next crossing carry: rank, core, terrace and
      width (R273) -/
  asked : Option (Nat × Nat × Nat × Nat)
  /-- the landing under way, what it reads outside the module, and the tags and addresses of the writes there, its own and
      those of a width change, that are not answered (R250, R274) -/
  landing : Landing
  gets : List OutRead
  acks : List (Nat × Nat)
  /-- early crossings asked for that have not landed, the modules whose staged writes they wait for, and those that have come
      (R248) -/
  calls : Nat
  called : List Nat
  given : List Staged
deriving DecidableEq, Repr

/-- A width change whose checks are done (R274): the new width, the dies chosen and reserved for it (R276, R278), LISTS, STORE,
    SPAN and RST, the member lists as they were read, and how many tokens they hold. -/
structure Plan where
  width : Nat
  dies : List (Nat × Nat)
  lists : Nat
  store : Nat
  span : Nat
  rst : Nat
  raws : List (List Byte)
  total : Nat
deriving DecidableEq, Repr

/-- How far a width change is (R274): its moves are being read; they are written; the lists and the entry are written, with the
    new width, the dies that join and the STATUS. -/
inductive Changing where
  | idle
  | chosen (p : Plan)
  | moved (p : Plan)
  | listed (width : Nat) (dies : List (Nat × Nat)) (status : Nat)
deriving DecidableEq, Repr

/-- The gang of a sequence as the device holds it (R267, R268): its entry's address, the view's members as mesh
    coordinates in rank order, its number, the chunk-length code and the last status. The view is held while a terrace
    is bound to the gang. -/
structure Gang where
  id : Nat
  launch : Nat
  vf : Nat
  entry : Nat
  members : List Nat
  view : Nat
  lc : Nat
  /-- LISTS as the device last read it -/
  lists : Nat
  wst : Nat
  /-- what a width change under way reads outside the module, and how far it is -/
  gets : List OutRead
  change : Changing
deriving DecidableEq, Repr

/-- A group bound to a handle (R256, R257): its key and ranks as mesh coordinates; `begun` counts the rounds begun on
    each die of the module (R264). -/
structure Group where
  handle : Nat
  launch : Nat
  vf : Nat
  key : Nat
  ranks : List Nat
  begun : List (Nat × Nat)
deriving DecidableEq, Repr

/-- What a COLL names (R263, R264): its tile operand, KIND, RED, TYPE, the four values of its quad; then, as its issuing
    terrace's addresses stand, the tile's slot or location, the barrier object's and the destination's location. A
    location of more bytes is a list of places and lengths. -/
structure CollArgs where
  tile : Tile
  kind : Nat
  red : Nat
  ty : Nat
  quad : List Nat
  slot : Option Nat
  /-- the address of a tile in a window -/
  va : Nat
  src : List (Nat × Nat)
  bar : Nat
  dst : List (Nat × Nat)
deriving DecidableEq, Repr

/-- A COLL that some member of a quarter has issued and some has not (R264). A terrace in no quarter is a quarter of
    one. -/
structure CollIssue where
  quarter : Nat
  launch : Nat
  /-- the core of the member that has issued last -/
  core : Nat
  args : CollArgs
  issued : List Nat
  differ : Bool
deriving DecidableEq, Repr

/-- A round in progress on a die (R264 to R266). -/
structure Round where
  handle : Nat
  index : Nat
  die : Nat
  rank : Nat
  args : CollArgs
  len : Nat
  failed : Bool
deriving DecidableEq, Repr

/-- The tile of a rank as it stood when the round began there, with what the ranks must agree in (R264). -/
structure RankTile where
  handle : Nat
  index : Nat
  rank : Nat
  kind : Nat
  red : Nat
  ty : Nat
  bytes : List Byte
deriving DecidableEq, Repr

/-- A take sent to a bounded counter's home (R342, R350). -/
structure BcReq where
  ter : Nat
  core : Nat
  amount : Nat
  try_ : Bool
deriving DecidableEq, Repr

/-- What has arrived at a counter's home and starts a rebalance (R344), with the units it carries. -/
inductive BcTrig where
  | take (q : BcReq) (units : Nat)
  | give (units : Nat)
  | read (ter : Nat)
deriving DecidableEq, Repr

/-- A holder of a bounded counter, with its near-cache entry (R341, R342); `used` orders the entries by their last
    use. -/
structure BcHolder where
  core : Nat
  entry : Bool
  allow : Nat
  drain : Bool
  used : Nat
deriving DecidableEq, Repr

/-- A live bounded counter (R337 to R345): its record's address, home pool, holders, the takes queued at the home,
    oldest first, its rebalances, the triggers whose rebalance has not run, and the queue's length after the last
    rebalance. -/
structure BCounter where
  vf : Nat
  addr : Nat
  pa : Nat
  die : Nat
  slice : Nat
  pool : Nat
  holders : List BcHolder
  queue : List BcReq
  nrebal : Nat
  trigs : List BcTrig
  qlen : Nat
deriving DecidableEq, Repr

/-- A copy engine's command (R204, R210). -/
inductive CmdKind where
  | cp (dst dstride src sstride len rows sswz dswz : Nat)
  | rqnt (addr n newf rnd : Nat) (sat : Bool)
deriving DecidableEq, Repr

/-- A command handed to a copy engine, with its batch's bookkeeping (R204 to R210). `next` is the row or block that
    comes next; `fault` is the recorded fault and the address logged. A finished command leaves the list. -/
structure Cmd where
  id : Nat
  ter : Nat
  core : Nat
  terno : Nat
  vf : Nat
  launch : Nat
  team : Nat
  sup : Bool
  kind : CmdKind
  alley : Nat
  iaddr : Nat
  rk : DWord
  rc : DWord
  next : Nat
  fault : Option (Nat × Nat)
  /-- CPW has delivered the fault (R208) -/
  told : Bool
  /-- what the next row or block reads outside the module (R130) -/
  reads : List OutRead
  /-- tags of the next row's or block's writes outside the module that are not answered, with their addresses -/
  acks : List (Nat × Nat)
  /-- bytes as they stood before later writes of the issuing terrace, by location (R226) -/
  seen : List (Nat × Byte)
  /-- the copy engine of its die that it was handed to (R204) -/
  eng : Nat
  /-- the pieces of the row under way that have not been written; none before its first -/
  left : Option (List Nat)
deriving DecidableEq, Repr

/-- What a flit to the host die says that R448 gives no place: the physical address and length of an access that is not of whole
    lines, an atomic's operation and element type, or the cause code of an error response. -/
structure HostPart where
  addr : Nat
  len : Nat
  op : Nat
  ty : Nat
deriving DecidableEq, Repr

/-- A flit on its way to the host die (R448): its fields, its lines, and what has no place in it. -/
structure HostMsg where
  die : Nat
  type : Nat
  lines : Nat
  tag : Nat
  vf : Nat
  addr : Nat
  payload : List Byte
  part : Option HostPart
deriving DecidableEq, Repr

/-- An upset of a stored bit that no access has met yet (R415, R416). -/
inductive Flaw where
  /-- a single error in a unit, corrected when next read -/
  | single (unit : Nat)
  /-- a lost line of memory, by physical line -/
  | memLine (line : Nat)
  /-- an uncorrectable error in a core partition's L1 copy of a line -/
  | l1Line (core pidx line : Nat)
  /-- an unreadable byte of an on-chip window, by location -/
  | chip (loc : Nat)
  /-- an unreadable register word: terrace, register, lane -/
  | reg (ter n lane : Nat)
  /-- an accumulator slot -/
  | slot (core slot : Nat)
  /-- a staged entry: terrace and line -/
  | staged (ter line : Nat)
  /-- a NEAR line of a core partition, by physical line -/
  | nearLine (core pidx line : Nat)
  /-- a core's partial of the COMMUTE element at a physical address -/
  | part (core pa : Nat)
  /-- a line in an L2 slice of its owning die, by physical line -/
  | l2Line (line : Nat)
  /-- a home TLB entry: die, controller, ASID, granule -/
  | tlb (die ctl asid granule : Nat)
  /-- an instruction line of a core partition, by virtual line number -/
  | instrLine (core pidx line : Nat)
  /-- a fabric queue of a die, or a die's Square engine -/
  | fabric (die : Nat)
  | square (die : Nat)
deriving DecidableEq, Repr

/-- A launch being accepted whose descriptor or alley list stands outside the module and is being read (R286): its tenant, the
    launch that names it, the descriptor's address, the LAUNCH that waits for it, whether the tenant's queue does, and the
    reads. -/
structure Intake where
  vf : Nat
  parent : Option Nat
  addr : Nat
  who : Option (Nat × Nat)
  queued : Bool
  gets : List OutRead
deriving DecidableEq, Repr

/-- A request of another module for a list whose first line stands here and whose rest stands elsewhere (R152): the die it came
    to, the list's first line, the request for the rest and whether that is an exchange, and the flit. The list is held until the
    rest is answered. -/
structure HomeList where
  die : Nat
  line : Nat
  tag : Nat
  swap : Bool
  flit : FabFlit
deriving DecidableEq, Repr

/-- A reply of the management path: its die, its status (R451), and what a read returns: bytes, and retired units with the units
    that serve for them. -/
structure Reply where
  die : Nat
  status : Nat
  bytes : List Byte
  units : List (Nat × Option Nat)
deriving DecidableEq, Repr

/-- A flit that waits at a die's egress, with the core and virtual function whose instruction or engine command sent it,
    which its bytes are credited to when it crosses (R389). -/
structure Outgoing where
  die : Nat
  cause : Option (Nat × Nat)
  flit : FabFlit
deriving DecidableEq, Repr

/-- The state of a module. -/
structure State where
  /-- memory by location: DRAM and host memory by physical address, then the on-chip stores -/
  mem : List Host.Cell
  /-- the bytes the step under way has written, newest first; none between steps -/
  wbuf : List (Nat × Byte)
  ters : List Terrace
  teams : List Team
  /-- teams that have ended, for the engine commands that outlive them (R206, R299) -/
  ended : List Team
  launches : List Launch
  quarters : List Quarter
  /-- terraces waiting in APOP by alley location, in the order they reached it (R309) -/
  poppers : List (Nat × List Nat)
  /-- running partials of COMMUTE elements by physical address: the element format, then core and bits (R180) -/
  partials : List (Nat × Nat × List (Nat × Nat))
  /-- outstanding accesses, oldest first -/
  accs : List Access
  staged : List Staged
  domains : List (DomKey × Domain)
  gangs : List Gang
  groups : List Group
  colls : List CollIssue
  rounds : List Round
  tiles : List RankTile
  bcs : List BCounter
  /-- the splits whose SHOOTs have reached the Boulevard and are not done, in that order (R373) -/
  shoots : List (Nat × Nat)
  /-- commands of the copy engines, in issue order -/
  cmds : List Cmd
  flaws : List Flaw
  /-- messages to the host die and flits to other modules, by sending die, oldest first -/
  hostOut : List HostMsg
  /-- completions that have come for a request of several flits to the host die, by tag: how many, and their lines -/
  hostGot : List (Nat × Nat × List Byte)
  /-- answers from outside the module to requests that belong to no access, by tag -/
  answers : List (Nat × Answer)
  asks : List Ask
  intakes : List Intake
  fabOut : List (Nat × FabFlit)
  /-- flits that wait for a retraining link (R414), and those in a die's egress spill area (R412), by the core partition's
      PIDX -/
  egress : List Outgoing
  spill : List (Nat × Outgoing)
  /-- flits that wait at a die for something of this module: an arrival at a crossing that is not the next one, a request for a
      list that an instruction here holds -/
  waitFab : List (Nat × FabFlit)
  /-- lists that this module holds for requests of others -/
  lists : List HomeList
  /-- routes of other modules' launches: tenant and rectangle (R453) -/
  routes : List (Nat × Nat × Nat × Nat × Nat)
  /-- replies of the management path, oldest first (R451) -/
  replies : List Reply
  /-- the attention watchdog in µs (R419) -/
  wdogUs : Nat
  /-- error events by unit, as the sample counts they fell in (R418) -/
  unitErrs : List (Nat × List Nat)
  /-- units retired (R418) and harvested (R460), numbered by Machine/Errors.lean -/
  retired : List Nat
  harvested : List Nat
  cores : List (Nat × Core)
  parts : List Part
  /-- accumulator elements, f32 bits, by ((core × 4 + slot) × 128 + row) × 128 + column (R125) -/
  acc : List (Nat × Word)
  /-- row-progress registers by core × 4 + slot (R128) -/
  progress : List (Nat × Prog)
  /-- attention jobs in order of arrival -/
  jobs : List Job
  tenants : List (Nat × Tenant)
  /-- the colour table (R368) -/
  colours : List (Nat × Nat)
  dies : List (Nat × Die)
  /-- the hypervisor's log and the records it could not hold for a tenant (R420) -/
  hlog : List LogRecord
  /-- launches marked with error (R316) -/
  errored : List Nat
  frozen : Bool
  /-- the supply is lost (R456) -/
  dark : Bool
  /-- the module position (i, j) of the configuration record (R14, R457) -/
  posI : Nat
  posJ : Nat
  /-- the split that issues next, by terrace and split; a core puts the splits of its cycle here one by one -/
  issue : List (Nat × Nat)
  /-- which agents move next, and the inputs from outside -/
  agenda : List Instr
  /-- the counter free values are drawn from -/
  tick : Nat
  /-- the next unused number for terraces, accesses and other things -/
  fresh : Nat
deriving DecidableEq, Repr

/-- Why the machine stops. -/
inductive Fault where
  /-- `exec` of an instruction word with no split chosen to issue it: raised by every instruction's meaning in a state
      whose issue list names no live split. Safe: the machine never reaches it from `step`, which fetches first. -/
  | noIssuer
  /-- an event whose agent has nothing to do, or whose subject does not exist: raised by every event's meaning.
      Safe: the spec gives such an event no occurrence. -/
  | notEnabled
  /-- the module is frozen and nothing but a reset or the read-out remains (R423). Safe: the spec says nothing moves. -/
  | frozen
  /-- no agent can move and no input is waiting. Safe: the spec's machine waits too (R3). -/
  | idle
deriving DecidableEq, Repr

/-- Why a step has no meaning. -/
inductive Refusal where
  /-- the instruction's meaning is not written yet: raised by the dispatcher. Safe: nothing is claimed of it. -/
  | notModelled (mnemonic : String)
deriving DecidableEq, Repr

/-- An empty split list's default and other defaults of the sparse stores. -/
def SlotState.init : SlotState := ⟨none, none, 0, none, none, 0⟩

/-- A row-progress register after reset (R128). -/
def Prog.init : Prog := ⟨false, false, 0, 0, 0, 0, 0, none, none, 0, [], 0, []⟩

/-- A core after reset: no partition holds it (R360, R382). -/
def Core.init : Core := ⟨0, none, 0, none, false, [], []⟩

/-- A virtual function after reset (R356, R379, R380): its identities are the hypervisor's to assign; DESIGN CHOICE,
    the model gives function n the ASID and TID n (log entry 2). -/
def Tenant.init (n : Nat) : Tenant := ⟨n, n, 0, 0, 0, 0, 0, 0, 0, none⟩

/-- A die after reset: no resource has an owner (R360), caches are empty (log entry 5). -/
def Die.init : Die := ⟨[], [], [], [], [], [], [], [], [], [], [], [], 0, 0x00640019#32, 0, 0, 0, none, 0, [], 0, []⟩

/-- The module right after reset. -/
def State.reset : State :=
  { mem := [], wbuf := [], ters := [], teams := [], ended := [], launches := [], quarters := [], poppers := [], partials := [], accs := [], staged := [], domains := [], gangs := [], groups := [], colls := [], rounds := [], tiles := [], bcs := [], shoots := [], cmds := [], flaws := [], hostOut := [], hostGot := [], answers := [], asks := [], intakes := [], fabOut := [], egress := [], spill := [], waitFab := [], lists := [], routes := [], replies := [], wdogUs := 50, unitErrs := [], retired := [], harvested := [], cores := [], parts := [], acc := [], progress := [], jobs := [],
    tenants := (List.range 16).map fun n => (n, Tenant.init n),
    colours := [], dies := [], hlog := [], errored := [], frozen := false, dark := false, posI := 0, posJ := 0, issue := [], agenda := [], tick := 0,
    fresh := 1 }

end Sys2Proof.Machine
end

