-- ==== Sys2Proof/Machine/Ops.lean ====
section
/-! DEFINITION. The named operations over the state: memory by byte, terraces and splits, registers with their wide
marks, predicates, the other parts of the machine by number. -/

namespace Sys2Proof.Machine

/-! ## Memory -/

/-- What a location that memory does not list reads as. DESIGN CHOICE (log entry 1). -/
def memDefault : Byte := 0

/-- The canonical form of memory. -/
def Memory.wf (m : List Host.Cell) : Bool := kwf memDefault m

/-- The byte last written to a location in this step. -/
def wfind (x : Nat) : List (Nat × Byte) → Option Byte
  | [] => none
  | (k, v) :: r => if k = x then some v else wfind x r

/-- Read one byte of memory. -/
def State.rdByte (s : State) (x : Nat) : Byte := (wfind x s.wbuf).getD (kget memDefault s.mem x)

/-- Read n bytes of memory. -/
def State.rdBytes (s : State) (x n : Nat) : List Byte := (List.range n).map fun i => s.rdByte (x + i)

/-- n little-endian bytes of a number. -/
def natBytes : Nat → Nat → List Byte
  | 0, _ => []
  | n + 1, x => BitVec.ofNat 8 x :: natBytes n (x / 256)

/-- The number of little-endian bytes. -/
def bytesNat : List Byte → Nat
  | [] => 0
  | b :: bs => b.toNat + 256 * bytesNat bs

/-- Read an n-byte little-endian number (R6). -/
def State.rdNat (s : State) (x n : Nat) : Nat := bytesNat (s.rdBytes x n)

/-- Write one byte of memory; it lands when the step commits. -/
def State.wrByte (s : State) (x : Nat) (b : Byte) : State := { s with wbuf := (x, b) :: s.wbuf }

/-- Write bytes at a location. -/
def State.wrBytes (s : State) (x : Nat) : List Byte → State
  | [] => s
  | b :: bs => (s.wrByte x b).wrBytes (x + 1) bs

/-- Write an n-byte little-endian number. -/
def State.wrNat (s : State) (x n v : Nat) : State := s.wrBytes x (natBytes n v)

/-- Memory with a list of writes applied, the oldest (last) first. -/
def applyWrites (m : List Host.Cell) (ws : List (Nat × Byte)) : List Host.Cell :=
  ws.foldr (fun c m => kset memDefault m c.1 c.2) m

/-- The end of a step that began in `s`: the bytes written land together in memory, and nowhere else does memory
    change. -/
def commit (s s' : State) : State := { s' with mem := applyWrites s.mem s'.wbuf, wbuf := [] }

/-! ## The parts of the machine -/

/-- A core by its number (R29). -/
def State.core (s : State) (c : Nat) : Core := kget Core.init s.cores c

/-- Replace a core. -/
def State.setCore (s : State) (c : Nat) (x : Core) : State := { s with cores := kset Core.init s.cores c x }

/-- The cycle a core is in. -/
def State.now (s : State) (c : Nat) : Nat := (s.core c).now

/-- A virtual function. -/
def State.tenant (s : State) (vf : Nat) : Tenant := kget (Tenant.init vf) s.tenants vf

/-- Replace a virtual function's registers. -/
def State.setTenant (s : State) (vf : Nat) (t : Tenant) : State :=
  { s with tenants := s.tenants.map fun e => if e.1 = vf then (vf, t) else e }

/-- A die. -/
def State.die (s : State) (d : Nat) : Die := kget Die.init s.dies d

/-- Replace a die. -/
def State.setDie (s : State) (d : Nat) (x : Die) : State := { s with dies := kset Die.init s.dies d x }

/-- The die of a core. -/
def dieOf (core : Nat) : Nat := core / 256

/-- The cluster of a core, counted over the module. -/
def clusterOf (core : Nat) : Nat := core / 32

/-- A core's partition of a virtual function (R361). -/
def State.part? (s : State) (core vf : Nat) : Option Part := s.parts.find? fun p => p.core == core && p.vf == vf

/-- A core's partition by its index. -/
def State.partAt? (s : State) (core pidx : Nat) : Option Part :=
  s.parts.find? fun p => p.core == core && p.pidx == pidx

/-- Change a core's partition. -/
def State.updPart (s : State) (core pidx : Nat) (f : Part → Part) : State :=
  { s with parts := s.parts.map fun p => if p.core = core ∧ p.pidx = pidx then f p else p }

/-- A terrace by the model's number. -/
def State.ter? (s : State) (uid : Nat) : Option Terrace := s.ters.find? fun t => t.uid == uid

/-- Replace a terrace. -/
def State.setTer (s : State) (t : Terrace) : State :=
  { s with ters := s.ters.map fun u => if u.uid = t.uid then t else u }

/-- Change a terrace. -/
def State.updTer (s : State) (uid : Nat) (f : Terrace → Terrace) : State :=
  { s with ters := s.ters.map fun u => if u.uid = uid then f u else u }

/-- A split of a terrace. -/
def Terrace.split? (t : Terrace) (sid : Nat) : Option Split := t.splits.find? fun x => x.sid == sid

/-- Replace a split of a terrace. -/
def Terrace.setSplit (t : Terrace) (x : Split) : Terrace :=
  { t with splits := t.splits.map fun y => if y.sid = x.sid then x else y }

/-- Change a split. -/
def State.updSplit (s : State) (uid sid : Nat) (f : Split → Split) : State :=
  s.updTer uid fun t => { t with splits := t.splits.map fun y => if y.sid = sid then f y else y }

/-- Whether a terrace is divided into more than one split (R33). -/
def Terrace.divided (t : Terrace) : Bool := 1 < t.splits.length

/-- Mark a launch with error (R316). -/
def State.markError (s : State) (launch : Nat) : State :=
  if s.errored.contains launch then s else { s with errored := launch :: s.errored }

/-- A free word the spec leaves open. -/
def State.freeWord (s : State) : Word × State := (Config.freeWord s.tick, { s with tick := s.tick + 1 })

/-! ## Registers -/

/-- Lane l of vn. -/
def Terrace.vget (t : Terrace) (n l : Nat) : Word := kget 0 t.v (n * 32 + l)

/-- Register sn. -/
def Terrace.sget (t : Terrace) (n : Nat) : Word := kget 0 t.s n

/-- Predicate pn. -/
def Terrace.pget (t : Terrace) (n : Nat) : Lanes := kget 0 t.p n

/-- Write a predicate in the lanes of a mask. -/
def Terrace.pset (t : Terrace) (n : Nat) (m val : Lanes) : Terrace :=
  { t with p := kset 0 t.p n ((t.pget n &&& ~~~m) ||| (val &&& m)) }

/-- The wide mark of the even register vn in lane l (R189). -/
def Terrace.vwide (t : Terrace) (n l : Nat) : Bool := n % 2 == 0 && (kget 0 t.vw n).getLsbD l

/-- The wide mark of the even register sn. -/
def Terrace.swide (t : Terrace) (n : Nat) : Bool := n % 2 == 0 && t.sw.getLsbD n

/-- Write lane l of vn, and nothing else. -/
def Terrace.vput (t : Terrace) (n l : Nat) (w : Word) : Terrace := { t with v := kset 0 t.v (n * 32 + l) w }

/-- Write register sn, and nothing else. -/
def Terrace.sput (t : Terrace) (n : Nat) (w : Word) : Terrace := { t with s := kset 0 t.s n w }

/-- Set or clear the wide mark of the pair that holds vn, in lane l. -/
def Terrace.vmark (t : Terrace) (n l : Nat) (b : Bool) : Terrace :=
  let e := n - n % 2
  let m := kget 0 t.vw e
  { t with vw := kset 0 t.vw e (if b then m ||| (1#32 <<< l) else m &&& ~~~(1#32 <<< l)) }

/-- Set or clear the wide mark of the pair that holds sn. -/
def Terrace.smark (t : Terrace) (n : Nat) (b : Bool) : Terrace :=
  let e := n - n % 2
  { t with sw := if b then t.sw ||| (1#16 <<< e) else t.sw &&& ~~~(1#16 <<< e) }

/-- Write the words to registers n, n + 1, … in lane l. `wide` says that each pair holds a 64-bit value (R189). -/
def Terrace.vwrite (t : Terrace) (wide : Bool) (n l : Nat) : List Word → Terrace
  | [] => t
  | w :: ws => ((t.vput n l w).vmark n l wide).vwrite wide (n + 1) l ws

/-- Write the words to s registers n, n + 1, …. -/
def Terrace.swrite (t : Terrace) (wide : Bool) (n : Nat) : List Word → Terrace
  | [] => t
  | w :: ws => ((t.sput n w).smark n wide).swrite wide (n + 1) ws

/-- Write a result to its destination: a v group in every lane of the mask, an s group with the value of the lowest
    lane of it, nothing when no lane is in it (R33, R54). -/
def Terrace.writeDst (t : Terrace) (d : Dst) (wide : Bool) (m : Lanes) (f : Nat → List Word) : Terrace :=
  match d with
  | .none => t
  | .v n => (lanesOf m).foldl (fun t l => t.vwrite wide n l (f l)) t
  | .s n => match lowLane m with
    | none => t
    | some l => t.swrite wide n (f l)

/-- The low and high words of a 64-bit value. -/
def words2 (x : Nat) : List Word := [BitVec.ofNat 32 x, BitVec.ofNat 32 (x / 2 ^ 32)]

/-- n words of a number, low first. -/
def wordsOf : Nat → Nat → List Word
  | 0, _ => []
  | n + 1, x => BitVec.ofNat 32 x :: wordsOf n (x / 2 ^ 32)

/-- The predicate a guard selects: the active lanes of a split (R40). -/
def activeOf (t : Terrace) (sp : Split) : Lanes :=
  let md := sp.mode.toNat
  if md / 16 % 2 == 0 then sp.mask
  else
    let p := t.pget (md % 8)
    sp.mask &&& (if md / 8 % 2 == 1 then ~~~p else p)

/-! ## The mode word (R36) -/

/-- TYPE. -/
def modeType (m : BitVec 16) : Nat := m.toNat / 32 % 16

/-- RND. -/
def modeRnd (m : BitVec 16) : Nat := m.toNat / 512 % 8

/-- SAT. -/
def modeSat (m : BitVec 16) : Bool := m.toNat / 4096 % 2 == 1

/-- SCOPE. -/
def modeScope (m : BitVec 16) : Nat := m.toNat / 8192

/-- The mesh coordinate of a die as the special value diecoord (R14, R29). -/
def State.dieCoord (s : State) (die : Nat) : Nat := 2 * s.posI + die % 2 + 256 * (2 * s.posJ + die / 2)

/-- A split that starts at a program counter with a mask. -/
def Split.start (sid : Nat) (pc : DWord) (mask : Lanes) : Split :=
  { sid := sid, pc := pc, mask := mask, mode := 0, rk := 0, rc := 0, window := [], stack := [], stopped := false,
    hold := .none, avail := 0, members := 0, head := pc, lastStore := false, frame := none, tcause := 0, taddr := 0,
    after := none, redo := none, waited := 0, held := none, read := none, undel := (0, 0), kept := none, gets := [], list := none, buf := [], stopping := false }

/-- A terrace that has done nothing, its registers 0 and without splits. -/
def Terrace.blank (uid core ter vf launch : Nat) : Terrace :=
  { uid := uid, core := core, ter := ter, vf := vf, launch := launch, team := 0, teamIdx := 0, unit := 0, k := 0, v := [],
    vw := [], s := [], sw := 0, p := [], nregs := 0, splits := [], pending := [], flight := [], openBatch := [],
    sealedBatches := [], lastBatch := 0, quarter := none, arrived := none, phaseArr := 0, crossArr := 0, gangArr := 0,
    phaseEarly := 0, crossEarly := 0, gangEarly := 0, gang := none, widthReq := none, parted := none, apx := false,
    reply := none, total := none, opened := [], service := none }

/-- Whether a split runs supervisor code (R357). -/
def Split.supervisor (sp : Split) : Bool := sp.frame.isSome

end Sys2Proof.Machine
end

