-- ==== Sys2Proof/Machine/Crypto.lean ====
section
/-! DEFINITION. SHA-512 and Ed25519, which R457 to R459 take from outside the spec by name (FIPS 180-4 and RFC 8032;
PRESUMED, log entry 55). The device's boot ROM computes them. -/

namespace Sys2Proof.Machine

/-! ## SHA-512 -/

/-- The largest x below 2^b more than a start whose k-th power is at most n, bit by bit. -/
def rootBits (k n : Nat) : Nat → Nat → Nat
  | 0, x => x
  | b + 1, x => rootBits k n b (if (x + 2 ^ b) ^ k ≤ n then x + 2 ^ b else x)

/-- The first 80 primes. -/
def primes80 : List Nat := (List.range 410).filter fun n => 2 ≤ n && (List.range 20).all fun d => d < 2 || n ≤ d || n % d != 0

/-- The first 64 bits of the fractional part of the k-th root of a prime. -/
def rootWord (k p : Nat) : DWord := BitVec.ofNat 64 (rootBits k (p * 2 ^ (64 * k)) 70 0)

/-- The constants of the rounds, and the initial hash value. -/
def shaRounds : List DWord := primes80.map (rootWord 3)
def shaInit : List DWord := (primes80.take 8).map (rootWord 2)

/-- The functions of the message schedule and of a round. -/
def shaLow0 (x : DWord) : DWord := x.rotateRight 1 ^^^ x.rotateRight 8 ^^^ x >>> 7
def shaLow1 (x : DWord) : DWord := x.rotateRight 19 ^^^ x.rotateRight 61 ^^^ x >>> 6
def shaUp0 (x : DWord) : DWord := x.rotateRight 28 ^^^ x.rotateRight 34 ^^^ x.rotateRight 39
def shaUp1 (x : DWord) : DWord := x.rotateRight 14 ^^^ x.rotateRight 18 ^^^ x.rotateRight 41

/-- A 64-bit word of bytes, most significant first, and its bytes. -/
def wordBig (bs : List Byte) : DWord := BitVec.ofNat 64 (bytesNat bs.reverse)
def bigBytes (n v : Nat) : List Byte := (natBytes n v).reverse

/-- The message schedule of a block: n words more than the sixteen it holds. -/
def shaSchedule : Nat → List DWord → List DWord
  | 0, w => w
  | n + 1, w =>
    let at_ := fun (i : Nat) => w.getD (w.length - i) 0
    shaSchedule n (w ++ [shaLow1 (at_ 2) + at_ 7 + shaLow0 (at_ 15) + at_ 16])

/-- One round on the eight working variables. -/
def shaRound (v : List DWord) (k w : DWord) : List DWord :=
  match v with
  | [a, b, c, d, e, f, g, h] =>
    let t1 := h + shaUp1 e + (e &&& f ^^^ ~~~e &&& g) + k + w
    let t2 := shaUp0 a + (a &&& b ^^^ a &&& c ^^^ b &&& c)
    [t1 + t2, a, b, c, d + t1, e, f, g]
  | v => v

/-- A block's effect on the hash value. -/
def shaBlock (h : List DWord) (block : List Byte) : List DWord :=
  let w := shaSchedule 64 ((List.range 16).map fun i => wordBig ((block.drop (8 * i)).take 8))
  List.zipWith (· + ·) h ((shaRounds.zip w).foldl (fun v e => shaRound v e.1 e.2) h)

/-- The padded message: a 1 bit, zeros, and the length in bits as 16 bytes. -/
def shaPad (bs : List Byte) : List Byte :=
  bs ++ [0x80#8] ++ List.replicate ((239 - bs.length % 128) % 128) 0 ++ bigBytes 16 (8 * bs.length)

/-- The 64-byte SHA-512 digest of bytes. -/
def sha512 (bs : List Byte) : List Byte :=
  let m := shaPad bs
  (((List.range (m.length / 128)).foldl (fun h i => shaBlock h ((m.drop (128 * i)).take 128)) shaInit).map
    fun x => bigBytes 8 x.toNat).flatten

/-! ## Ed25519 -/

/-- The prime of the field, and the order of the base point. -/
def edP : Nat := 2 ^ 255 - 19
def edL : Nat := 2 ^ 252 + 27742317777372353535851937790883648493

/-- A power modulo a number, for exponents below 2 ^ n. -/
def powMod (m : Nat) : Nat → Nat → Nat → Nat
  | 0, _, _ => 1 % m
  | n + 1, b, e => let h := powMod m n (b * b % m) (e / 2); if e % 2 == 1 then b * h % m else h

/-- The inverse in the field. -/
def edInv (x : Nat) : Nat := powMod edP 255 x (edP - 2)

/-- The constant d of the curve. -/
def edD : Nat := (edP - 121665) * edInv 121666 % edP

/-- A point in extended coordinates: X, Y, Z and T, with x = X / Z, y = Y / Z and x y = T / Z. -/
structure EdPoint where
  x : Nat
  y : Nat
  z : Nat
  t : Nat
deriving DecidableEq, Repr

/-- The sum of two points. -/
def EdPoint.add (a b : EdPoint) : EdPoint :=
  let sub := fun (u v : Nat) => (u + edP - v % edP) % edP
  let m := sub a.y a.x * sub b.y b.x % edP
  let n := (a.y + a.x) * (b.y + b.x) % edP
  let c := 2 * a.t * edD * b.t % edP
  let d := 2 * a.z * b.z % edP
  let e := sub n m
  let f := sub d c
  let g := (d + c) % edP
  let h := (n + m) % edP
  ⟨e * f % edP, g * h % edP, f * g % edP, e * h % edP⟩

/-- A multiple of a point, for scalars below 2 ^ n. -/
def EdPoint.mul : Nat → Nat → EdPoint → EdPoint
  | 0, _, _ => ⟨0, 1, 1, 0⟩
  | n + 1, k, p => let r := EdPoint.mul n (k / 2) (p.add p); if k % 2 == 1 then r.add p else r

/-- The x coordinate of a point from y and the low bit of x. -/
def edX (y sign : Nat) : Option Nat :=
  let v := (y * y + edP - 1) % edP * edInv ((edD * y * y + 1) % edP) % edP
  let r := powMod edP 255 v ((edP + 3) / 8)
  let r := if r * r % edP == v then r else r * powMod edP 255 2 ((edP - 1) / 4) % edP
  if r * r % edP != v || (r == 0 && sign == 1) then none else some (if r % 2 == sign then r else (edP - r) % edP)

/-- The point of 32 bytes, where there is one. -/
def edDecode (bs : List Byte) : Option EdPoint :=
  let n := bytesNat bs
  let y := n % 2 ^ 255
  if bs.length != 32 || edP ≤ y then none else (edX y (n / 2 ^ 255)).map fun x => ⟨x, y, 1, x * y % edP⟩

/-- The 32 bytes of a point. -/
def EdPoint.encode (p : EdPoint) : List Byte :=
  let i := edInv p.z
  natBytes 32 (p.y * i % edP + p.x * i % edP % 2 * 2 ^ 255)

/-- The base point. -/
def edBase : EdPoint :=
  let y := 4 * edInv 5 % edP
  let x := (edX y 0).getD 0
  ⟨x, y, 1, x * y % edP⟩

/-- The secret scalar and the prefix of a private key. -/
def edSecret (seed : List Byte) : Nat × List Byte :=
  let h := sha512 seed
  (bytesNat (h.take 32) % 2 ^ 254 / 8 * 8 + 2 ^ 254, h.drop 32)

/-- The public key of a private key. -/
def edPublic (seed : List Byte) : List Byte := (edBase.mul 256 (edSecret seed).1).encode

/-- The signature of a message under a private key; `dom` is the prefix that a variant of the scheme puts before what it
    hashes, empty for Ed25519 itself. -/
def edSign (dom seed msg : List Byte) : List Byte :=
  let s := edSecret seed
  let r := bytesNat (sha512 (dom ++ s.2 ++ msg)) % edL
  let rb := (edBase.mul 256 r).encode
  let k := bytesNat (sha512 (dom ++ rb ++ edPublic seed ++ msg)) % edL
  rb ++ natBytes 32 ((r + k * s.1) % edL)

/-- Whether a signature of a message verifies under a public key: the equation multiplied by the cofactor, as RFC 8032 gives
    it. -/
def edVerify (dom key msg sig : List Byte) : Bool :=
  match edDecode (sig.take 32), edDecode key with
  | some r, some a =>
    let s := bytesNat (sig.drop 32)
    let k := bytesNat (sha512 (dom ++ sig.take 32 ++ key ++ msg)) % edL
    sig.length == 64 && s < edL
      && ((edBase.mul 256 s).mul 4 8).encode == ((r.add (a.mul 256 k)).mul 4 8).encode
  | _, _ => false

/-- The prefix of Ed25519ph with an empty context: its label, the flag of the prehash, and the context's length. -/
def edPhDom : List Byte :=
  [0x53#8, 0x69#8, 0x67#8, 0x45#8, 0x64#8, 0x32#8, 0x35#8, 0x35#8, 0x31#8, 0x39#8, 0x20#8, 0x6E#8, 0x6F#8, 0x20#8, 0x45#8, 0x64#8,
   0x32#8, 0x35#8, 0x35#8, 0x31#8, 0x39#8, 0x20#8, 0x63#8, 0x6F#8, 0x6C#8, 0x6C#8, 0x69#8, 0x73#8, 0x69#8, 0x6F#8, 0x6E#8, 0x73#8,
   0x01#8, 0x00#8]

/-- Whether an Ed25519ph signature of a message verifies: what is signed is the SHA-512 digest of the message. -/
def edPhVerify (key msg sig : List Byte) : Bool := edVerify edPhDom key (sha512 msg) sig

end Sys2Proof.Machine
end

