-- ==== Sys2Proof/Machine/Num.lean ====
section
/-! DEFINITION. Exact values and their rounding: the element types (R37, R62, R63), RoundToType (R66, R69, R70), the
stochastic draw (R68) and the exact arithmetic its arguments come from (R65). -/

namespace Sys2Proof.Machine

/-- An exact value. `fin` stands for ±(m + θ) × 2^e, where θ is 0, or, with `sticky`, an unknown amount strictly
    between 0 and 1. A sticky value carries at least 100 significant bits, so no rounding boundary and no SR
    threshold (a multiple of 2^-32 of the last place) lies between its bounds. -/
inductive Xr where
  | nan
  | inf (neg : Bool)
  | fin (neg : Bool) (m : Nat) (e : Int) (sticky : Bool)
deriving DecidableEq, Repr

/-- The exact zero of a sign. -/
def Xr.zero (neg : Bool) : Xr := .fin neg 0 0 false

/-- The exact value of an integer; zero is +0. -/
def Xr.ofInt (n : Int) : Xr := .fin (decide (n < 0)) n.natAbs 0 false

/-- Whether a value is a zero of either sign. -/
def Xr.isZero : Xr → Bool
  | .fin _ 0 _ false => true
  | _ => false

/-- Whether a value is negative or −0; a NaN is not. -/
def Xr.isNeg : Xr → Bool
  | .nan => false
  | .inf n => n
  | .fin n _ _ _ => n

/-- Negation. -/
def Xr.neg : Xr → Xr
  | .nan => .nan
  | .inf n => .inf (!n)
  | .fin n m e s => .fin (!n) m e s

/-- Absolute value. -/
def Xr.abs : Xr → Xr
  | .nan => .nan
  | .inf _ => .inf false
  | .fin _ m e s => .fin false m e s

/-- The value times 2^k, exactly. -/
def Xr.scale (x : Xr) (k : Int) : Xr :=
  match x with
  | .fin n m e s => .fin n m (e + k) s
  | x => x

/-- The exact product (R65, R80): 0 × ∞ is NaN. -/
def Xr.mul (x y : Xr) : Xr :=
  match x, y with
  | .nan, _ | _, .nan => .nan
  | .inf a, .inf b => .inf (a != b)
  | .inf a, .fin b m _ s => if m == 0 && !s then .nan else .inf (a != b)
  | .fin b m _ s, .inf a => if m == 0 && !s then .nan else .inf (a != b)
  | .fin a m e s, .fin b k f t => .fin (a != b) (m * k) (e + f) (s || t)

/-- A signed magnitude m × 2^e as an integer multiple of 2^f, for f ≤ e. -/
def signedAt (neg : Bool) (m : Nat) (e f : Int) : Int :=
  let n : Int := (m * 2 ^ (e - f).toNat : Nat)
  if neg then -n else n

/-- The exact sum (R65). A zero sum of opposite signs is −0 under RDN, else +0. -/
def Xr.add (rdn : Bool) (x y : Xr) : Xr :=
  match x, y with
  | .nan, _ | _, .nan => .nan
  | .inf a, .inf b => if a == b then .inf a else .nan
  | .inf a, .fin .. => .inf a
  | .fin .., .inf a => .inf a
  | .fin a m e _, .fin b k f _ =>
    if m == 0 && k == 0 then .zero (if a == b then a else rdn)
    else if m == 0 then .fin b k f false
    else if k == 0 then .fin a m e false
    else
      let g := min e f
      let n := signedAt a m e g + signedAt b k f g
      if n == 0 then .zero rdn else .fin (decide (n < 0)) n.natAbs g false

/-- The whole-number square root by bisection: the greatest r with r² ≤ n. -/
def isqrtLoop : Nat → Nat → Nat → Nat
  | 0, r, _ => r
  | k + 1, r, n => let t := r + 2 ^ k; if t * t ≤ n then isqrtLoop k t n else isqrtLoop k r n

/-- The greatest r with r² ≤ n. -/
def isqrt (n : Nat) : Nat := isqrtLoop (Nat.log2 n / 2 + 1) 0 n

/-- The exact quotient of finite nonzero magnitudes, to 128 bits and a sticky rest. -/
def divMag (neg : Bool) (m : Nat) (e : Int) (k : Nat) (f : Int) : Xr :=
  let sh := 160 + Nat.log2 k
  let q := m * 2 ^ sh / k
  .fin neg q (e - f - sh) (m * 2 ^ sh % k != 0)

/-- The exact quotient (R65, R99). -/
def Xr.div (x y : Xr) : Xr :=
  match x, y with
  | .nan, _ | _, .nan => .nan
  | .inf _, .inf _ => .nan
  | .inf a, .fin b _ _ _ => .inf (a != b)
  | .fin a _ _ _, .inf b => .zero (a != b)
  | .fin a m e _, .fin b k f _ =>
    if k == 0 then (if m == 0 then .nan else .inf (a != b))
    else if m == 0 then .zero (a != b)
    else divMag (a != b) m e k f

/-- The exact square root (R102). -/
def Xr.sqrt (x : Xr) : Xr :=
  match x with
  | .nan => .nan
  | .inf n => if n then .nan else .inf false
  | .fin n m e s =>
    if m == 0 && !s then .zero n
    else if n then .nan
    else
      let odd : Nat := (e % 2).toNat
      let a := m * 2 ^ (odd + 256)
      let r := isqrt a
      .fin false r ((e - odd - 256) / 2) (r * r != a)

/-- The order of two values that are no NaN, as the sign of x − y; −0 equals +0 (R101). -/
def Xr.cmp (x y : Xr) : Int :=
  match x, y with
  | .inf a, .inf b => if a == b then 0 else if a then -1 else 1
  | .inf a, _ => if a then -1 else 1
  | _, .inf b => if b then 1 else -1
  | .fin a m e _, .fin b k f _ =>
    let g := min e f
    let n := signedAt a m e g - signedAt b k f g
    if n < 0 then -1 else if n > 0 then 1 else 0
  | _, _ => 0

/-- Whether a value is NaN. -/
def Xr.isNan : Xr → Bool
  | .nan => true
  | _ => false

/-! ## Element types (R37, R62, R63) -/

/-- A floating-point type: exponent and fraction widths, bias, whether it has infinities. -/
structure FFmt where
  ebits : Nat
  fbits : Nat
  bias : Nat
  ieee : Bool
deriving DecidableEq, Repr

/-- The width in bits of an element type code (R37). -/
def tyWidth (t : Nat) : Nat :=
  match t with
  | 0x2 | 0x3 | 0xC | 0xD => 8
  | 0x4 | 0x5 | 0x9 | 0xA => 16
  | 0x6 | 0x7 | 0xB => 64
  | _ => 32

/-- Whether a type code is an integer type. -/
def tyInt (t : Nat) : Bool := t < 8

/-- Whether a type code is a signed integer type. -/
def tySigned (t : Nat) : Bool := t < 8 && t % 2 == 1

/-- Whether a type code is a floating-point type. -/
def tyFloat (t : Nat) : Bool := 8 ≤ t && t < 14

/-- Whether a type is 64 bits wide. -/
def ty64 (t : Nat) : Bool := tyWidth t == 64

/-- The layout of a floating-point type code (R63). -/
def tyFmt (t : Nat) : FFmt :=
  match t with
  | 0x9 => ⟨5, 10, 15, true⟩
  | 0xA => ⟨8, 7, 127, true⟩
  | 0xB => ⟨11, 52, 1023, true⟩
  | 0xC => ⟨4, 3, 7, false⟩
  | 0xD => ⟨5, 2, 15, true⟩
  | _ => ⟨8, 23, 127, true⟩

/-- The exponent of the smallest subnormal. -/
def FFmt.qmin (f : FFmt) : Int := 1 - (f.bias : Int) - f.fbits

/-- The bits of +∞, or, where the type has none, of its NaN without sign. -/
def FFmt.infCode (f : FFmt) : Nat :=
  if f.ieee then (2 ^ f.ebits - 1) * 2 ^ f.fbits else 2 ^ (f.ebits + f.fbits) - 1

/-- The bits of the largest finite value. -/
def FFmt.maxCode (f : FFmt) : Nat := f.infCode - 1

/-- The sign bit. -/
def FFmt.signBit (f : FFmt) : Nat := 2 ^ (f.ebits + f.fbits)

/-- The bits of the canonical NaN (R63). -/
def FFmt.nanCode (f : FFmt) : Nat := if f.ieee then f.infCode + 2 ^ (f.fbits - 1) else f.infCode

/-- The value of the magnitude code of a floating-point type (R63). -/
def FFmt.decodeMag (f : FFmt) (neg : Bool) (c : Nat) : Xr :=
  let ex := c / 2 ^ f.fbits
  let fr := c % 2 ^ f.fbits
  if f.ieee && ex == 2 ^ f.ebits - 1 then (if fr == 0 then .inf neg else .nan)
  else if !f.ieee && c == f.infCode then .nan
  else if ex == 0 then .fin neg fr f.qmin false
  else .fin neg (2 ^ f.fbits + fr) (f.qmin + (ex - 1 : Nat)) false

/-- The value of the bits of a floating-point type. -/
def FFmt.decode (f : FFmt) (bits : Nat) : Xr :=
  f.decodeMag (bits / f.signBit % 2 == 1) (bits % f.signBit)

/-- The least and greatest value of an integer type (R62). -/
def tyMin (t : Nat) : Int := if tySigned t then -(2 ^ (tyWidth t - 1) : Nat) else 0

/-- The greatest value of an integer type. -/
def tyMax (t : Nat) : Int := if tySigned t then (2 ^ (tyWidth t - 1) : Nat) - 1 else (2 ^ tyWidth t : Nat) - 1

/-- A w-bit pattern read as two's complement (R54). -/
def signExt (w : Nat) (n : Nat) : Int :=
  let m := n % 2 ^ w
  if m < 2 ^ (w - 1) then m else (m : Int) - (2 ^ w : Nat)

/-- The value of an integer type's bits (R62). -/
def intOf (t : Nat) (bits : Nat) : Int :=
  if tySigned t then signExt (tyWidth t) bits else ((bits % 2 ^ tyWidth t : Nat) : Int)

/-- The value of an element's bits (R62, R63). -/
def valueOf (t : Nat) (bits : Nat) : Xr :=
  if tyInt t then .ofInt (intOf t bits) else (tyFmt t).decode (bits % 2 ^ tyWidth t)

/-- An integer modulo 2^w. -/
def wrapTo (w : Nat) (n : Int) : Nat := (n % (2 ^ w : Nat)).toNat

/-! ## Rounding (R66, R68, R69, R70) -/

/-- The random draw of R68. -/
def draw (k c : DWord) (l e : Nat) : Nat :=
  let x := c + BitVec.ofNat 64 (l * 256 + e) * 0x9E3779B97F4A7C15#64
  let x := x ^^^ k
  let x := (x ^^^ (x >>> 30)) * 0xBF58476D1CE4E5B9#64
  let x := (x ^^^ (x >>> 27)) * 0x94D049BB133111EB#64
  let x := x ^^^ (x >>> 31)
  x.toNat / 2 ^ 32

/-- R66 on a magnitude n + (rem + θ) / 2^sh: n or n + 1. `rnd` is the RND code, `u` the draw of SR. -/
def roundMag (rnd u : Nat) (neg : Bool) (n rem sh : Nat) (sticky : Bool) : Nat :=
  if rem == 0 && !sticky then n
  else
    let half := 2 ^ sh
    let twice := 2 * rem
    let up : Bool :=
      match rnd with
      | 0 => twice > half || (twice == half && (sticky || n % 2 == 1))
      | 1 => false
      | 2 => !neg
      | 3 => neg
      | 4 => twice > half || twice == half
      | _ =>
        if neg then !(u * 2 ^ sh < (2 ^ sh - rem) * 2 ^ 32)
        else u * 2 ^ sh < rem * 2 ^ 32 || (sticky && u * 2 ^ sh == rem * 2 ^ 32)
    if up then n + 1 else n

/-- A finite magnitude rounded to a multiple of 2^q; the multiple. -/
def roundAt (rnd u : Nat) (neg : Bool) (m : Nat) (e : Int) (sticky : Bool) (q : Int) : Nat :=
  if q ≤ e then m * 2 ^ (e - q).toNat
  else
    let sh := (q - e).toNat
    roundMag rnd u neg (m / 2 ^ sh) (m % 2 ^ sh) sh sticky

/-- The magnitude code nearest a finite value by the mode, with no upper bound (R66): the code counts the
    representable magnitudes from 0. -/
def FFmt.roundCode (f : FFmt) (rnd u : Nat) (neg : Bool) (m : Nat) (e : Int) (sticky : Bool) : Nat :=
  if m == 0 && !sticky then 0
  else
    let top : Int := e + Nat.log2 m
    let q := max (top - f.fbits) f.qmin
    (q - f.qmin).toNat * 2 ^ f.fbits + roundAt rnd u neg m e sticky q

/-- RoundToType for floating-point types (R69, R70): the result's bits. -/
def FFmt.round (f : FFmt) (small : Bool) (rnd u : Nat) (sat : Bool) (r : Xr) : Nat :=
  match r with
  | .nan => f.nanCode
  | .inf n =>
    let s := if n then f.signBit else 0
    if small && sat then s + f.maxCode
    else if f.ieee then s + f.infCode
    else f.nanCode
  | .fin n m e sticky =>
    let s := if n then f.signBit else 0
    let c := f.roundCode rnd u n m e sticky
    if c ≤ f.maxCode then s + c
    else if small || sat || rnd == 1 || (rnd == 2 && n) || (rnd == 3 && !n) then s + f.maxCode
    else s + f.infCode

/-- The integer a value rounds to (R66); an infinity or NaN has none. -/
def roundToInt (rnd u : Nat) (r : Xr) : Option Int :=
  match r with
  | .fin n m e s =>
    let k : Int := roundAt rnd u n m e s 0
    some (if n then -k else k)
  | _ => none

/-- RoundToType (R69): the bits of the result in the type's width. -/
def roundToType (t rnd u : Nat) (sat : Bool) (r : Xr) : Nat :=
  if tyInt t then
    match r with
    | .nan => 0
    | .inf n => wrapTo (tyWidth t) (if n then tyMin t else tyMax t)
    | r =>
      match roundToInt rnd u r with
      | none => 0
      | some k => wrapTo (tyWidth t) (if sat then max (tyMin t) (min (tyMax t) k) else k)
  else (tyFmt t).round (tyWidth t == 8) rnd u sat r

/-- RoundToType for an exact integer and an integer type (R45): wrapped, or clamped with saturation. -/
def finishInt (t : Nat) (sat : Bool) (k : Int) : Nat :=
  wrapTo (tyWidth t) (if sat then max (tyMin t) (min (tyMax t) k) else k)

/-- Clamp01 (R45) on the bits of a floating-point type. -/
def clamp01 (t : Nat) (bits : Nat) : Nat :=
  match valueOf t bits with
  | .nan => 0
  | .inf n => if n then 0 else roundToType t 0 0 false (.ofInt 1)
  | .fin n m e s =>
    if n || (m == 0 && !s) then 0
    else if Xr.cmp (.fin n m e s) (.ofInt 1) > 0 then roundToType t 0 0 false (.ofInt 1)
    else bits

/-- f32 rounding by RNE, the rounding inside the engines (R80, R82). -/
def roundF32 (r : Xr) : Nat := roundToType 8 0 0 false r

/-- The value of f32 bits. -/
def f32 (bits : Nat) : Xr := valueOf 8 bits

/-- FMIN and FMAX (R100): −0 below +0; one NaN gives the other operand. -/
def Xr.minmax (isMax : Bool) (x y : Xr) : Xr :=
  match x.isNan, y.isNan with
  | true, true => .nan
  | true, false => y
  | false, true => x
  | false, false =>
    let c := Xr.cmp x y
    let xLess : Bool := c < 0 || (c == 0 && x.isNeg)
    if xLess != isMax then x else y

end Sys2Proof.Machine
end

