-- ==== Sys2Proof/Machine/Transc.lean ====
section
/-! DEFINITION. The functions of the FUN space (R102), each as the exact mathematical value that Finish rounds once.
A transcendental value is enclosed between two fixed-point bounds; the precision is raised until both bounds agree on
its leading bits, which then stand for the value with a sticky rest (`Xr.fin`). -/

namespace Sys2Proof.Machine

/-- 1 ÷ √x (R102). -/
def Xr.rsqrt (x : Xr) : Xr :=
  match x with
  | .nan => .nan
  | .inf n => if n then .nan else .zero false
  | .fin n m e _ =>
    if m == 0 then .inf n
    else if n then .nan
    else
      let odd : Nat := (e % 2).toNat
      let k := m * 2 ^ odd
      let p := 160 + Nat.log2 k
      let r := isqrt (2 ^ (2 * p) / k)
      .fin false r (-((e - odd) / 2) - p) (r * r * k != 2 ^ (2 * p))

/-- 1 ÷ x (R102). -/
def Xr.rcp (x : Xr) : Xr := Xr.div (.ofInt 1) x

/-- Σ t^k / k! in units of 2^-p, for t in those units, below 1. -/
def expSeries (p t : Nat) : Nat → Nat → Nat → Nat → Nat
  | 0, _, _, acc => acc
  | fuel + 1, k, term, acc =>
    if term == 0 then acc else expSeries p t fuel (k + 1) (term * t / 2 ^ p / (k + 1)) (acc + term)

/-- Σ z^(2k+1) / (2k+1), the signs alternating when `alt` is set. -/
def oddSeries (p zz : Nat) (alt : Bool) : Nat → Nat → Nat → Int → Int
  | 0, _, _, acc => acc
  | fuel + 1, k, term, acc =>
    if term == 0 then acc
    else
      let q : Int := (term / (2 * k + 1) : Nat)
      oddSeries p zz alt fuel (k + 1) (term * zz / 2 ^ p) (if alt && k % 2 == 1 then acc - q else acc + q)

/-- atanh z, or atan z with `alt`, in units of 2^-p. -/
def oddFun (p z : Nat) (alt : Bool) : Int := oddSeries p (z * z / 2 ^ p) alt 1600 0 z 0

/-- ln 2 in units of 2^-p. -/
def ln2Fix (p : Nat) : Nat := (2 * oddFun p (2 ^ p / 3) false).toNat

/-- π in units of 2^-p, by Machin's formula. -/
def piFix (p : Nat) : Nat := (16 * oddFun p (2 ^ p / 5) true - 4 * oddFun p (2 ^ p / 239) true).toNat

/-- Σ ± r^(2k+s) / (2k+s)!: sin r with s = 1 and first term r, cos r with s = 0 and first term 1. -/
def trigSeries (p rr : Nat) : Nat → Nat → Nat → Nat → Int → Int
  | 0, _, _, _, acc => acc
  | fuel + 1, s, k, term, acc =>
    if term == 0 then acc
    else
      let n := 2 * k + s
      trigSeries p rr fuel s (k + 1) (term * rr / 2 ^ p / ((n + 1) * (n + 2)))
        (if k % 2 == 1 then acc - term else acc + term)

/-- A magnitude m × 2^e in units of 2^-p, rounded down. -/
def toFix (p m : Nat) (e : Int) : Nat :=
  if -(p : Int) ≤ e then m * 2 ^ (e + p).toNat else m / 2 ^ (-(e + p)).toNat

/-- The error allowed to a fixed-point value, in units of its last place. -/
def fixErr : Nat := 2 ^ 16

/-- The leading 112 bits of a value known as v ± `fixErr` in units of 2^-p, when both bounds agree on them. -/
def settle (neg : Bool) (p v : Nat) (ex : Int) : Option Xr :=
  let k := Nat.log2 v - 112
  let lo := (v - fixErr) / 2 ^ k
  let hi := (v + fixErr) / 2 ^ k
  if 112 < Nat.log2 v && lo == hi then some (.fin neg lo (k - p + ex) true) else none

/-- The first precision at which a value settles. -/
def ladder (f : Nat → Option Xr) : List Nat → Xr
  | [] => .nan
  | [p] => (f p).getD .nan
  | p :: ps => match f p with | some x => x | none => ladder f ps

/-- The precisions tried, in bits. -/
def precisions : List Nat := [256, 512, 1024, 2048]

/-- 2^f for a fraction f in units of 2^-p, in those units: between 1 and 2. -/
def exp2Frac (p f : Nat) : Nat := expSeries p (f * ln2Fix p / 2 ^ p) 1600 0 (2 ^ p) 0

/-- 2^x (R102). Beyond 2^4096 either way every rounding gives what it gives at 2^±4096. -/
def Xr.exp2 (x : Xr) : Xr :=
  match x with
  | .nan => .nan
  | .inf n => if n then .zero false else .inf false
  | .fin n m e _ =>
    if m == 0 then .ofInt 1
    else if 13 < (Nat.log2 m : Int) + e then
      .fin false (2 ^ 112) (if n then -4208 else 3984) true
    else
      let whole := toFix 0 m e
      let exact : Bool := 0 ≤ e || m % 2 ^ (-e).toNat == 0
      if exact then .fin false 1 (if n then -(whole : Int) else whole) false
      else
        ladder (fun p =>
          let t := toFix p m e
          let up := t % 2 ^ p
          if n then settle false p (exp2Frac p (2 ^ p - up)) (-(t / 2 ^ p : Nat) - 1)
          else settle false p (exp2Frac p up) (t / 2 ^ p : Nat)) precisions

/-- log₂ x (R102). -/
def Xr.log2 (x : Xr) : Xr :=
  match x with
  | .nan => .nan
  | .inf n => if n then .nan else .inf false
  | .fin n m e _ =>
    if m == 0 then .inf true
    else if n then .nan
    else
      let k := Nat.log2 m
      let ex : Int := e + k
      if m == 2 ^ k then .ofInt ex
      else
        ladder (fun p =>
          let y := m * 2 ^ p / 2 ^ k
          let z := (y - 2 ^ p) * 2 ^ p / (y + 2 ^ p)
          let l := (2 * oddFun p z false).toNat * 2 ^ p / ln2Fix p
          if 0 ≤ ex then settle false p (ex.toNat * 2 ^ p + l) 0
          else settle true p ((-ex).toNat * 2 ^ p - l) 0) precisions

/-- x modulo π/2 in units of 2^-p and the quadrant, for a magnitude m × 2^e. -/
def reduceHalfPi (p m : Nat) (e : Int) : Nat × Nat :=
  let q := p + 192
  let half := piFix q / 2
  let t := toFix q m e
  (t % half / 2 ^ 192, t / half % 4)

/-- sin of the reduced argument's quadrant value, as sign and magnitude in units of 2^-p. -/
def sinQuad (p r quadrant : Nat) : Bool × Nat :=
  let rr := r * r / 2 ^ p
  let v := if quadrant % 2 == 1 then trigSeries p rr 800 0 0 (2 ^ p) 0 else trigSeries p rr 800 1 0 r 0
  (decide (2 ≤ quadrant), v.toNat)

/-- sin x (R102). -/
def Xr.sin (x : Xr) : Xr :=
  match x with
  | .nan | .inf _ => .nan
  | .fin n m e _ =>
    if m == 0 then .zero n
    else
      ladder (fun p =>
        let (r, k) := reduceHalfPi p m e
        let (sg, v) := sinQuad p r k
        settle (sg != n) p v 0) precisions

/-- cos x (R102). -/
def Xr.cos (x : Xr) : Xr :=
  match x with
  | .nan | .inf _ => .nan
  | .fin _ m e _ =>
    if m == 0 then .ofInt 1
    else
      ladder (fun p =>
        let (r, k) := reduceHalfPi p m e
        let (sg, v) := sinQuad p r ((k + 1) % 4)
        settle sg p v 0) precisions

/-- tanh x (R102). From 64 on the value lies between 1 − 2^-112 and 1. -/
def Xr.tanh (x : Xr) : Xr :=
  match x with
  | .nan => .nan
  | .inf n => .fin n 1 0 false
  | .fin n m e _ =>
    if m == 0 then .zero n
    else if 6 ≤ (Nat.log2 m : Int) + e then .fin n (2 ^ 112 - 1) (-112) true
    else
      ladder (fun p =>
        -- u = exp(−2x) = 2^(−2x / ln 2)
        let t := toFix p m (e + 1) * 2 ^ p / ln2Fix p
        let u := exp2Frac p (2 ^ p - t % 2 ^ p) / 2 ^ (t / 2 ^ p + 1)
        settle n p ((2 ^ p - u) * 2 ^ p / (2 ^ p + u)) 0) precisions

end Sys2Proof.Machine
end

