-- ==== Sys2Proof/Machine/Blocks.lean ====
section
/-! DEFINITION. Self-describing blocks (R71 to R78, R148), the sums of the matrix block step (R80, R81) and the
attention triples (R82, R83). A block is the list of its 64 bytes; accumulator elements, scores and triples are f32
bits. -/

namespace Sys2Proof.Machine

/-- Byte i of a block, as a number. -/
def byteAt (blk : List Byte) (i : Nat) : Nat := (blk.getD i 0).toNat

/-- Little-endian number of the bytes of a list. -/
def leNat : List Byte → Nat
  | [] => 0
  | b :: bs => b.toNat + 256 * leNat bs

/-- n little-endian bytes of a number. -/
def leBytes : Nat → Nat → List Byte
  | 0, _ => []
  | n + 1, x => BitVec.ofNat 8 x :: leBytes n (x / 256)

/-- The width class of a FORMAT code: 0 to 3 for 4, 8, 16 and 32 bits (R72). -/
def fmtClass (f : Nat) : Nat := f / 16

/-- The element width in bits of a class. -/
def classBits (c : Nat) : Nat := 4 * 2 ^ c

/-- The element count of a class (R72). -/
def classCap (c : Nat) : Nat := 480 / classBits c

/-- The element count of a FORMAT code's class. -/
def capacity (f : Nat) : Nat := classCap (fmtClass f)

/-- The element type code of a kind outside the 4-bit class (R72). -/
def fmtType (f : Nat) : Nat :=
  match f with
  | 0x10 => 0xC | 0x11 => 0xD | 0x12 => 0x3 | 0x13 => 0x2
  | 0x20 => 0xA | 0x21 => 0x9 | 0x22 => 0x5
  | 0x31 => 0x1
  | _ => 0x8

/-- The FORMAT codes of R72, as the block byte has them. -/
def fmtKnown (f : Nat) : Bool := [0x00, 0x10, 0x11, 0x12, 0x13, 0x20, 0x21, 0x22, 0x30, 0x31].contains f

/-- R76: whether a decoding access finds the block valid. -/
def blockValid (blk : List Byte) : Bool :=
  let f := byteAt blk 0
  fmtKnown f && (fmtClass f == 0 || byteAt blk 1 != 0xFF) && byteAt blk 62 ≤ capacity f && byteAt blk 63 == 0

/-- The magnitudes of a 4-bit family's codes 0 to 7, in eighths (R75). The uniform integers are no such list. -/
def familyMags (fam : Nat) : List Nat :=
  match fam with
  | 1 => [0, 4, 8, 12, 16, 24, 32, 48]
  | 2 => [0, 1, 2, 4, 8, 16, 32, 64]
  | _ => [0, 8, 16, 24, 32, 48, 64, 96]

/-- The value of a 4-bit code (R75); code 8 is +0 where it would be −0. -/
def family4 (fam q : Nat) : Xr :=
  if fam == 0 then .ofInt (signExt 4 q)
  else
    let m := (familyMags fam).getD (q % 8) 0
    .fin (8 ≤ q && m != 0) m (-3) false

/-- The bits of element i (R74). -/
def elemBits (blk : List Byte) (i : Nat) : Nat :=
  match fmtClass (byteAt blk 0) with
  | 0 => byteAt blk (2 + i / 2) / 16 ^ (i % 2) % 16
  | 1 => byteAt blk (2 + i)
  | 2 => byteAt blk (2 + 2 * i) + 256 * byteAt blk (3 + 2 * i)
  | _ => leNat [blk.getD (2 + 4 * i) 0, blk.getD (3 + 4 * i) 0, blk.getD (4 + 4 * i) 0, blk.getD (5 + 4 * i) 0]

/-- ElemValue of R77, for i below the capacity. -/
def elemValue (blk : List Byte) (i : Nat) : Xr :=
  let f := byteAt blk 0
  let count := byteAt blk 62
  if count != 0 && count ≤ i then .zero false
  else if fmtClass f == 0 then
    (family4 (byteAt blk 1 / 64) (elemBits blk i)).scale (signExt 6 (byteAt blk 1))
  else (valueOf (fmtType f) (elemBits blk i)).scale ((byteAt blk 1 : Int) - 127)

/-- The element formats of R78: a 4-bit family or a kind of R72. -/
inductive ElemFmt where
  | fam (f : Nat)
  | kind (f : Nat)
deriving DecidableEq, Repr

/-- The format of a QPACK or QUNPK code, or of NEWF (R57, R209). -/
def elemFmt (code : Nat) : ElemFmt := if code < 4 then .fam code else .kind code

/-- R78 for the signed-magnitude families: the code of a magnitude m × 2^e. -/
def roundFamily (mags : List Nat) (rnd u : Nat) (neg : Bool) (m : Nat) (e : Int) : Nat :=
  -- all magnitudes in units of 2^(min(e,-3)); the listed ones are eighths
  let g := min e (-3)
  let v := m * 2 ^ (e - g).toNat
  let us := mags.map fun k => k * 2 ^ (-3 - g).toNat
  let lo := (us.filter fun k => k ≤ v).length - 1
  let idx :=
    if lo == 7 then 7
    else
      let a := us.getD lo 0
      let w := us.getD (lo + 1) 0 - a
      let rem := v - a
      if rem == 0 then lo
      else
        let up : Bool :=
          match rnd with
          | 0 => 2 * rem > w || (2 * rem == w && lo % 2 == 1)
          | 1 => false
          | 2 => !neg
          | 3 => neg
          | 4 => 2 * rem ≥ w
          | _ => if neg then !(u * w < (w - rem) * 2 ^ 32) else u * w < rem * 2 ^ 32
        if up then lo + 1 else lo
  if neg && idx != 0 then idx + 8 else idx

/-- R78: an exact value x rounded into the set V × 2^k; the code written. -/
def roundToSet (fm : ElemFmt) (k : Int) (rnd u : Nat) (sat : Bool) (x : Xr) : Nat :=
  let y := x.scale (-k)
  match fm with
  | .fam 0 =>
    match y with
    | .nan => 0
    | .inf n => if n then 8 else 7
    | y => wrapTo 4 (max (-8) (min 7 ((roundToInt rnd u y).getD 0)))
  | .fam f =>
    match y with
    | .nan => 0
    | .inf n => if n then 15 else 7
    | .fin n m e _ => roundFamily (familyMags f) rnd u n m e
  | .kind f =>
    let t := fmtType f
    if tyInt t then
      match y with
      | .nan => 0
      | .inf n => wrapTo (tyWidth t) (if n then tyMin t else tyMax t)
      | y => finishInt t true ((roundToInt rnd u y).getD 0)
    else roundToType t rnd u sat y

/-- The largest magnitude of a format (R148). -/
def fmtTop (fm : ElemFmt) : Xr :=
  match fm with
  | .fam 0 => .ofInt 7
  | .fam f => .fin false ((familyMags f).getD 7 0) (-3) false
  | .kind f =>
    let t := fmtType f
    if tyInt t then .ofInt (tyMax t) else (tyFmt t).decode (tyFmt t).maxCode

/-- The largest magnitude among the finite values. -/
def maxFinite (ys : List Xr) : Xr :=
  ys.foldl (fun a y => match y with | .fin .. => if Xr.cmp y.abs a > 0 then y.abs else a | _ => a) (.zero false)

/-- R148: the exponent of the block factor chosen for the values; for the 4-bit class between −32 and 31, else
    between −127 and 127. -/
def chooseExp (fm : ElemFmt) (ys : List Xr) : Int :=
  let m := maxFinite ys
  if m.isZero then 0
  else
    let (lo, n) : Int × Nat := match fm with | .fam _ => (-32, 64) | .kind _ => (-127, 255)
    let top := fmtTop fm
    let fits : List Nat := (List.range n).filter fun (i : Nat) => Xr.cmp m (top.scale (lo + (i : Int))) ≤ 0
    lo + ((fits.head?.getD (n - 1) : Nat) : Int)

/-- The SCALE byte of an exponent (R73). -/
def scaleByte (fm : ElemFmt) (k : Int) : Nat :=
  match fm with
  | .fam f => f * 64 + wrapTo 6 k
  | .kind _ => wrapTo 8 (k + 127)

/-- The FORMAT byte of an element format. -/
def formatByte (fm : ElemFmt) : Nat :=
  match fm with
  | .fam _ => 0
  | .kind f => f

/-- The payload of element codes, unused bits zero (R74). -/
def packCodes : Nat → List Nat → List Byte
  | 0, cs => (List.range 60).map fun i => BitVec.ofNat 8 (cs.getD (2 * i) 0 + 16 * cs.getD (2 * i + 1) 0)
  | c, cs =>
    let n := classBits c / 8
    ((List.range (60 / n)).map fun i => leBytes n (cs.getD i 0)).flatten

/-- A block of the codes with its header and COUNT byte (R71). -/
def mkBlock (fm : ElemFmt) (k : Int) (codes : List Nat) (count : Nat) : List Byte :=
  [BitVec.ofNat 8 (formatByte fm), BitVec.ofNat 8 (scaleByte fm k)]
    ++ packCodes (fmtClass (formatByte fm)) codes ++ [BitVec.ofNat 8 count, 0]

/-- Values written into a block (R78, R148): element i rounds with the draw `u i`. -/
def blockOf (fm : ElemFmt) (ys : List Xr) (count rnd : Nat) (sat : Bool) (u : Nat → Nat) : List Byte :=
  let k := chooseExp fm ys
  mkBlock fm k (ys.zipIdx.map fun (y, i) => roundToSet fm k rnd (u i) sat y) count

/-! ## Sums of the engines -/

/-- The exact sum of products under RNE, with its zero sign (R80). -/
def sumXr : List Xr → Xr
  | [] => .zero false
  | x :: xs => xs.foldl (Xr.add false) x

/-- The exact sum S of one block pair (R80). -/
def dotBlocks (a b : List Byte) (cap : Nat) : Xr :=
  sumXr ((List.range cap).map fun t => Xr.mul (elemValue a t) (elemValue b t))

/-- acc + S rounded once to f32 by RNE (R80). -/
def accAdd (acc : Nat) (s : Xr) : Nat := roundF32 (Xr.add false (f32 acc) s)

/-- The larger of two f32 values; NaN when either is (R82). Of +0 and −0, which R82 does not order, the first keeps its bits
    (DESIGN CHOICE, log entry 49). -/
def maxF32 (a b : Nat) : Nat :=
  let x := f32 a
  let y := f32 b
  if x.isNan || y.isNan then (tyFmt 8).nanCode else if Xr.cmp x y < 0 then b else a

/-- The f32 bits of −∞. -/
def f32NegInf : Nat := 0xFF800000

/-- f32 difference, RNE. -/
def f32Sub (a b : Nat) : Nat := roundF32 (Xr.add false (f32 a) (f32 b).neg)

/-- Exp2 of R82: the correctly rounded f32 value of 2^x. -/
def f32Exp2 (a : Nat) : Nat := roundF32 (Xr.exp2 (f32 a))

/-- An attention triple: running maximum, running sum, output vector (R82). -/
structure Triple where
  m : Nat
  l : Nat
  o : List Nat
deriving DecidableEq, Repr

/-- The empty triple of a head dimension. -/
def Triple.empty (dim : Nat) : Triple := ⟨f32NegInf, 0, List.replicate dim 0⟩

/-- One token of ChunkTriple (R82). -/
def Triple.addToken (m : Nat) (t : Triple) (s : Nat) (v : List Xr) : Triple :=
  let p := f32Exp2 (f32Sub s m)
  ⟨m, roundF32 (Xr.add false (f32 t.l) (f32 p)),
    t.o.zipWith (fun o x => roundF32 (Xr.add false (f32 o) (Xr.mul (f32 p) x))) v⟩

/-- ChunkTriple of R82 over the unmasked tokens' scores and values, in ascending order. -/
def chunkTriple (dim : Nat) (toks : List (Nat × List Xr)) : Triple :=
  match toks with
  | [] => Triple.empty dim
  | (s0, _) :: rest =>
    let m := rest.foldl (fun a st => maxF32 a st.1) (maxF32 s0 s0)
    toks.foldl (fun t st => t.addToken m st.1 st.2) ⟨m, 0, List.replicate dim 0⟩

/-- x × α + RoundToType(y × β), rounded once (R83). -/
def blend (x a y b : Nat) : Nat :=
  roundF32 (Xr.add false (Xr.mul (f32 x) (f32 a)) (f32 (roundF32 (Xr.mul (f32 y) (f32 b)))))

/-- Combine of R83; a chunk whose m is −∞ leaves the running triple. -/
def combine (t c : Triple) : Triple :=
  if c.m == f32NegInf then t
  else
    let m := maxF32 t.m c.m
    let a := f32Exp2 (f32Sub t.m m)
    let b := f32Exp2 (f32Sub c.m m)
    ⟨m, blend t.l a c.l b, t.o.zipWith (fun x y => blend x a y b) c.o⟩

/-- The final output element o ÷ l (R83): NaN where l is 0. -/
def finishOut (o l : Nat) : Nat :=
  if (f32 l).isZero then (tyFmt 8).nanCode else roundF32 (Xr.div (f32 o) (f32 l))

end Sys2Proof.Machine
end

