-- ==== Sys2Proof/Machine/Forms.lean ====
section
/-! DEFINITION. The operand forms of every instruction: which registers it reads and writes, how wide, and which
field values it accepts (R28 to R32, R35, R44, R57 and the form tables of the entries). One table serves the
well-formedness check, the checks made at issue (R58, R59), the scoreboard (R322, R323) and the latch rules. -/

namespace Sys2Proof.Machine

/-- How many registers an operand names (R31): `typed` is 2 when TYPE is 64 bits wide, else 1. -/
inductive Wd where
  | one | two | typed | four | eight
deriving DecidableEq, Repr

/-- Which field values a source accepts. -/
inductive SrcKind where
  /-- every value of R29, an immediate included -/
  | any
  /-- every value of R29 but the immediate -/
  | noImm
  /-- a uniform field (R32), an immediate included -/
  | uni
  /-- a uniform field without an immediate -/
  | uniNoImm
  /-- every value of R29 but a latch -/
  | noLatch
  /-- v, s, zero or a latch, read by Base (R189) -/
  | base
  /-- v, s or zero, read by Base -/
  | baseReg
  /-- s or zero, read by Base -/
  | baseUni
  /-- a v or s register -/
  | reg
  /-- a v or s register, or zero -/
  | regZero
  /-- an s register -/
  | sReg
  /-- an s register or zero -/
  | sZero
  /-- an s register, zero or an immediate -/
  | sZeroImm
  /-- an s register or an immediate -/
  | sImm
  /-- a v register -/
  | vReg
deriving DecidableEq, Repr

/-- Which field values a destination accepts (R30). -/
inductive DstKind where
  /-- a v or s register -/
  | reg
  /-- a v or s register, or 0xFF -/
  | opt
  /-- a v register -/
  | vReg
deriving DecidableEq, Repr

/-- One operand of an instruction. -/
inductive Opd where
  /-- a source -/
  | src (x : Src) (w : Wd) (k : SrcKind)
  /-- a destination -/
  | dst (d : Dst) (w : Wd) (k : DstKind)
  /-- a register that is read and written -/
  | both (d : Dst) (w : Wd)
  /-- a predicate that is read -/
  | pRead (p : Nat)
  /-- a predicate that is written -/
  | pWrite (p : Nat)
deriving DecidableEq, Repr

/-- The destination width of CVT's type code: 64-bit types name a pair (R104). -/
def typeWd (t : Nat) : Wd := if t == 6 || t == 7 || t == 11 then .two else .one

/-- The system registers that are 64 bits wide (R379). -/
def sysReg64 (n : Nat) : Bool := [0x04, 0x08, 0x0A, 0x0B, 0x0C, 0x0D, 0x11].contains n

/-- The assigned system register numbers (R379). -/
def sysRegAssigned (n : Nat) : Bool :=
  [0x00, 0x01, 0x02, 0x04, 0x08, 0x09, 0x0A, 0x0B, 0x0C, 0x0D, 0x10, 0x11, 0x12].contains n

/-- The FORMAT codes of R72. -/
def formatAssigned (n : Nat) : Bool :=
  [0x00, 0x10, 0x11, 0x12, 0x13, 0x20, 0x21, 0x22, 0x30, 0x31].contains n

/-- A two-source instruction of the A class. -/
def opdsA (d : Dst) (a b : Src) : List Opd := [.dst d .typed .opt, .src a .typed .any, .src b .typed .any]

/-- A one-source instruction of the A class. -/
def opdsU (d : Dst) (a : Src) : List Opd := [.dst d .typed .opt, .src a .typed .any]

/-- A quad of uniform registers (R133). -/
def quad (a : Nat) : Opd := .src (.s a) .four .sReg

/-- The operands of an instruction. An event has none. -/
def opds : Instr → List Opd
  | .add d a b _ | .sub d a b _ | .mullo d a b _ | .mulhi d a b _ | .div d a b _ | .rem d a b _
  | .min d a b _ | .max d a b _ | .and d a b _ | .or d a b _ | .xor d a b _ | .andn d a b _ => opdsA d a b
  | .addc d a b _ | .subb d a b _ => opdsA d a b ++ [.pRead 7, .pWrite 7]
  | .mad d a b _ => [.both d .typed, .src a .typed .any, .src b .typed .any]
  | .shl d a b _ | .shr d a b _ | .sar d a b _ | .rol d a b _ | .bfx d a b _ =>
      [.dst d .typed .opt, .src a .typed .any, .src b .one .any]
  | .bfi d a b _ => [.both d .typed, .src a .typed .any, .src b .one .any]
  | .sel d a b _ p => [.dst d .typed .reg, .src a .typed .noImm, .src b .typed .noImm, .pRead p]
  | .cmp _ p a b _ => [.src a .typed .any, .src b .typed .any, .pWrite p]
  | .lea d a b _ => [.dst d .two .opt, .src a .two .any, .src b .one .any]
  | .abs d a _ | .neg d a _ | .not d a _ | .popc d a _ | .clz d a _ | .brev d a _ | .mov d a _ => opdsU d a
  | .movi d _ => [.dst d .one .opt]
  | .movh d _ => [.both d .two]
  | .pset p a lanes => [.src a .one (if lanes then .uni else .any), .pWrite p]
  | .fadd d a b _ | .fsub d a b _ | .fmul d a b _ | .fmin d a b _ | .fmax d a b _ | .fdiv d a b _ => opdsA d a b
  | .fma d a b _ => [.both d .typed, .src a .typed .any, .src b .typed .any]
  | .fcmp _ p a b _ => [.src a .typed .any, .src b .typed .any, .pWrite p]
  | .frcp d a _ | .frsq d a _ | .fsqrt d a _ | .fexp2 d a _ | .flog2 d a _ | .fsin d a _ | .fcos d a _
  | .ftanh d a _ | .frint d a _ => opdsU d a
  | .fclass d a _ => [.dst d .one .opt, .src a .typed .any]
  | .cvt d a t _ => [.dst d (typeWd t) .opt, .src a .typed .any]
  | .qpack d a _ _ => [.dst d .one .opt, .src a .typed .any]
  | .qunpk d a _ _ => [.dst d .typed .opt, .src a .one .any]
  | .srnd d a _ _ => opdsU d a
  | .rng d => [.dst d .one .reg]
  | .rngst d => [.dst d .four .reg]
  | .rngld a => [.src a .four .reg]
  | .shflIdx d a b _ | .shflUp d a b _ | .shflDown d a b _ | .shflXor d a b _ =>
      [.dst d .typed .reg, .src a .typed .any, .src b .one .any]
  | .bcast d a b _ => [.dst d .typed .reg, .src a .typed .any, .src b .one .uni]
  | .voteAny d a | .voteAll d a | .voteBallot d a | .voteUni d a => [.dst d .one .reg, .src a .one .any]
  | .lred d a _ => [.dst d .typed .reg, .src a .typed .any]
  | .lscan d a _ _ => [.dst d .typed .vReg, .src a .typed .any]
  | .bra _ => []
  | .brp p _ _ => [.pRead p]
  | .call d _ => [.dst d .two .reg]
  | .jmpr a => [.src a .two .reg]
  | .mode _ | .nop | .nopMerge => []
  | .ret a => [.src a .two .reg]
  | .exit | .yield => []
  | .sleep a => [.src a .one .uni]
  | .leave | .qbar | .trap _ | .tret => []
  | .elog d => [.dst d .one .opt]
  | .join a b => [.src a .one .uni, .src b .one .uni]
  | .launch d a => [.dst d .one .reg, .src a .two .sReg]
  | .ldB d a b | .ldH d a b | .ldW d a b | .ldbyW d a b => [.dst d .one .reg, .src a .one .base, .src b .one .any]
  | .ldD d a b | .ldbyD d a b => [.dst d .two .reg, .src a .one .base, .src b .one .any]
  | .ldQ d a b | .ldbyQ d a b => [.dst d .four .reg, .src a .one .base, .src b .one .any]
  | .stB d a b | .stH d a b | .stW d a b | .stbyW d a b =>
      [.src d .one .noImm, .src a .one .base, .src b .one .any]
  | .stD d a b | .stbyD d a b => [.src d .two .regZero, .src a .one .base, .src b .one .any]
  | .stQ d a b | .stbyQ d a b => [.src d .four .regZero, .src a .one .base, .src b .one .any]
  | .ldf d a b => [.dst d .four .vReg, .src a .one .baseUni, .src b .one .uni]
  | .stf d a b => [.src d .four .vReg, .src a .one .baseUni, .src b .one .uni]
  | .pref _ a b => [.src a .one .base, .src b .one .any]
  | .invl a b => [.src a .one .baseReg, .src b .one .noLatch]
  | .invlAll => []
  | .waitp _ a => [.src a .one .uni]
  | .cp d a b _ _ _ => [quad d, quad a, .src (.s b) .one .sReg]
  | .cps d => [.dst d .one .reg]
  | .cpw a => [.src a .one .uni]
  | .rqnt a b _ _ _ => [.src (.s a) .two .sReg, .src (.s b) .one .sReg]
  | .fence d _ | .acq d _ | .rel d _ => [.dst d .one .opt]
  | .lda d a dbl _ => [.dst d (if dbl then .two else .one) .reg, .src a .one .baseReg]
  | .stl d a dbl _ => [.src d (if dbl then .two else .one) .regZero, .src a .one .baseReg]
  | .amo d a b _ => [.dst d .typed .reg, .src a .one .base, .src b .typed .noImm]
  | .cas d a b => [.both d .typed, .src a .one .base, .src b .typed .any]
  | .red a b _ => [.src a .one .base, .src b .typed .noImm]
  | .cross d | .crossa d | .crossw d | .phase d => [.dst d .one .opt]
  | .cgbind d a => [.dst (.s d) .one .reg, .src a .two .sImm]
  | .collAllreduce t a _ | .collReducescatter t a _ | .collAllgather t a | .collBroadcast t a | .collAlltoall t a =>
      (match t with | .acc _ => [] | .s n => [.src (.s n) .one .sReg]) ++ [quad a]
  | .abinit d a => [.src (.s d) .one .sReg, .src a .one .uni]
  | .abarv d a => [.dst d .one .opt, .src a .one .uni]
  | .abwait d a => [.src d .one .sZero, .src a .one .uni]
  | .gset d a => [.dst d .one .opt, .src a .two .regZero]
  | .gwid d a => [.dst d .one .opt, .src a .one .uni]
  | .gview d => [.dst d .two .reg]
  | .grank d a => [.dst d .one .reg, .src a .one .uni]
  | .rgrow a | .rshrink a | .aopen a => [.src a .one .uni]
  | .apop d a => [.dst d .one .reg, .src a .one .uni]
  | .atry d a => [.dst d .two .reg, .src a .one .uni]
  | .apush a b => [.src a .one .uni, .src b .one .uni]
  | .sigdec _ a b => [.src (.s a) .two .sReg, .src b .one .uni]
  | .sigwait d a b => [.dst d .two .opt, .src (.s a) .two .sReg, .src b .one .uni]
  | .mma _ a b _ _ _ _ _ => [quad a, quad b]
  | .mmas _ d a b _ _ _ _ _ _ => [.src (.v d) .one .vReg, quad a, quad b]
  | .mmac _ a b _ _ _ _ => [quad a, quad b]
  | .macld _ a b | .macst _ a b => [.src (.s a) .two .sReg, .src b .one .sZeroImm]
  | .macrd d a _ => [.dst (.v d) .four .vReg, .src a .one .uni]
  | .macwr d a _ => [.src (.v d) .four .vReg, .src a .one .uni]
  | .mepi _ a b _ _ _ _ _ _ _ => [quad a, .src (.s b) .two .sReg]
  | .macz _ => []
  | .mprog d _ => [.dst d .one .reg]
  | .ackpt d a _ | .acrst d a _ => [.src d .one .uniNoImm, .src a .one .uni]
  | .attn _ a b _ _ _ _ _ _ _ _ => [quad a, quad b]
  | .attc _ _ _ a => [quad a]
  | .kvap d a b => [.dst d .one .opt, .src (.s a) .two .sReg, quad b]
  | .kvtr d a b => [.dst d .one .opt, .src (.s a) .two .sReg, .src (.s b) .two .sReg]
  | .kvrd d a b => [.dst d .eight .reg, .src (.s a) .two .sReg, .src b .one .uni]
  | .cntrd d _ => [.dst d .two .reg]
  | .cntcfg d a _ => [.dst d .one .opt, .src a .one .uni]
  | .cntsv a | .cntld a => [.src (.s a) .two .sReg]
  | .wswitch => []
  | .bcinit d a b | .bctake d a b | .bcgive d a b => [.dst d .one .opt, .src (.s a) .two .sReg, .src b .one .uni]
  | .bcread d a | .bcstat d a => [.dst d .two .reg, .src (.s a) .two .sReg]
  | .sysrd d n => [.dst d (if sysReg64 n then .two else .one) .reg]
  | .syswr n a => [if sysReg64 n then .src a .two .sZeroImm else .src a .one .uni]
  | .syXreqWrite a => [.src a .one .uni]
  | .shoot a b => [.src (.s a) .two .sReg, .src b .one .uni]
  | .part d a b => [.dst d .one .opt, .src a .one .uni, .src b .one .uni]
  | _ => []

/-- The number of registers of an operand whose width does not depend on TYPE; `typed` counts as 1 here. -/
def Wd.count : Wd → Nat
  | .one => 1 | .two => 2 | .typed => 1 | .four => 4 | .eight => 8

/-- Whether a source is one of the uniform values of R29. -/
def srcUniform : Src → Bool
  | .s _ | .zero | .terid | .smask | .qid | .teamid | .coreid | .diecoord | .imm _ => true
  | .v _ | .latch _ | .laneid => false

/-- Whether a source is a special value (0xF8 to 0xFE). -/
def srcSpecial : Src → Bool
  | .laneid | .terid | .smask | .qid | .teamid | .coreid | .diecoord => true
  | _ => false

/-- Whether a source is an immediate. -/
def srcImm : Src → Bool
  | .imm _ => true
  | _ => false

/-- The register numbers and latch numbers a field can name. -/
def srcRange : Src → Bool
  | .v n => n < 224
  | .s n => n < 16
  | .latch k => 1 ≤ k && k ≤ 7
  | _ => true

/-- R31: a register of a pair or group has an aligned number; a special value names no pair. -/
def srcAligned (w : Wd) : Src → Bool
  | .v n | .s n => n % w.count == 0
  | x => w.count == 1 || !srcSpecial x

/-- Whether a field accepts the source. -/
def srcAccepts (k : SrcKind) (x : Src) : Bool :=
  match k, x with
  | .any, _ => true
  | .noImm, x => !srcImm x
  | .noLatch, x => (match x with | .latch _ => false | _ => true)
  | .uni, x => srcUniform x
  | .uniNoImm, x => srcUniform x && !srcImm x
  | .base, .v _ | .base, .s _ | .base, .zero | .base, .latch _ => true
  | .baseReg, .v _ | .baseReg, .s _ | .baseReg, .zero => true
  | .baseUni, .s _ | .baseUni, .zero => true
  | .reg, .v _ | .reg, .s _ => true
  | .regZero, .v _ | .regZero, .s _ | .regZero, .zero => true
  | .sReg, .s _ => true
  | .sZero, .s _ | .sZero, .zero => true
  | .sZeroImm, .s _ | .sZeroImm, .zero | .sZeroImm, .imm _ => true
  | .sImm, .s _ | .sImm, .imm _ => true
  | .vReg, .v _ => true
  | _, _ => false

/-- Whether a field accepts the destination, its number in range and aligned (R30, R31). -/
def dstAccepts (k : DstKind) (w : Wd) : Dst → Bool
  | .v n => n < 224 && n % w.count == 0
  | .s n => (k != .vReg) && n < 16 && n % w.count == 0
  | .none => k == .opt

/-- The check of one operand that the word alone decides (R58, case 5). -/
def opdOk : Opd → Bool
  | .src x w k => srcAccepts k x && srcRange x && srcAligned w x
  | .dst d w k => dstAccepts k w d
  | .both d w => dstAccepts .reg w d
  | .pRead p | .pWrite p => p < 8

/-- The number of operands that are immediates; a word has one extension word at most (R58, case 5). -/
def immCount (i : Instr) : Nat := ((opds i).filter fun o => match o with | .src x _ _ => srcImm x | _ => false).length

/-- The modifier word of an instruction (R43), if its word carries one. -/
def modsOf : Instr → Option Mods
  | .add _ _ _ m | .addc _ _ _ m | .sub _ _ _ m | .subb _ _ _ m | .mullo _ _ _ m | .mulhi _ _ _ m | .mad _ _ _ m
  | .div _ _ _ m | .rem _ _ _ m | .min _ _ _ m | .max _ _ _ m | .and _ _ _ m | .or _ _ _ m | .xor _ _ _ m
  | .andn _ _ _ m | .shl _ _ _ m | .shr _ _ _ m | .sar _ _ _ m | .rol _ _ _ m | .bfx _ _ _ m | .bfi _ _ _ m
  | .cmp _ _ _ _ m | .lea _ _ _ m | .abs _ _ m | .neg _ _ m | .not _ _ m | .popc _ _ m | .clz _ _ m | .brev _ _ m
  | .mov _ _ m | .fadd _ _ _ m | .fsub _ _ _ m | .fmul _ _ _ m | .fma _ _ _ m | .fmin _ _ _ m | .fmax _ _ _ m
  | .fcmp _ _ _ _ m | .fdiv _ _ _ m | .frcp _ _ m | .frsq _ _ m | .fsqrt _ _ m | .fexp2 _ _ m | .flog2 _ _ m
  | .fsin _ _ m | .fcos _ _ m | .ftanh _ _ m | .frint _ _ m | .fclass _ _ m | .cvt _ _ _ m | .qpack _ _ _ m
  | .qunpk _ _ _ m | .srnd _ _ _ m | .shflIdx _ _ _ m | .shflUp _ _ _ m | .shflDown _ _ _ m | .shflXor _ _ _ m
  | .bcast _ _ _ m => m
  | _ => none

/-- Which modifier bits an instruction honours (R44): a modifier word whose set bits are all honoured by it has
    the form of this word. -/
def modsHonoured : Instr → Mods
  | .add .. | .addc .. | .sub .. | .subb .. | .mullo .. | .mulhi .. | .mad .. | .div .. | .rem .. | .min ..
  | .max .. => ⟨true, false, true, true, true, true, 0⟩
  | .abs .. | .neg .. => ⟨true, false, true, false, true, false, 0⟩
  | .cmp .. | .fcmp .. => ⟨false, false, true, true, true, true, 0⟩
  | .fadd .. | .fsub .. | .fmul .. | .fma .. | .fmin .. | .fmax .. | .fdiv .. => ⟨true, true, true, true, true, true, 0x3F⟩
  | .frcp .. | .frsq .. | .fsqrt .. | .fexp2 .. | .flog2 .. | .fsin .. | .fcos .. | .ftanh .. | .frint ..
  | .cvt .. | .srnd .. => ⟨true, true, true, false, true, false, 0x3F⟩
  | .fclass .. => ⟨false, false, true, false, true, false, 0⟩
  | .qpack .. => ⟨true, false, false, false, false, false, 0x3F⟩
  | .qunpk .. => ⟨false, false, false, false, false, false, 0x3F⟩
  | _ => ⟨false, false, false, false, false, false, 0⟩

/-- R58, case 6, as far as the word decides it. -/
def modsOk (i : Instr) : Bool :=
  match modsOf i with
  | none => true
  | some m =>
    let h := modsHonoured i
    (!m.sat || h.sat) && (!m.clamp || h.clamp) && (!m.nega || h.nega) && (!m.negb || h.negb) &&
      (!m.absa || h.absa) && (!m.absb || h.absb) && (m.scale == 0 || h.scale != 0)

/-- An A-class word with an immediate has no room for a modifier word (R43). -/
def modsRoom (i : Instr) : Bool := immCount i == 0 || modsOf i == none

/-- The function codes, reserved values and limits of descriptors that the word decides (R57, R58 cases 3 and 4). -/
def fieldsOk : Instr → Bool
  | .cmp c _ _ _ _ => c < 6
  | .fcmp c _ _ _ _ => c < 8
  | .cvt _ _ t m => t < 14 && (match m with | some m => !m.clamp || 8 ≤ t | none => true)
  | .srnd _ _ t _ => [0x8, 0x9, 0xA, 0xB, 0xC, 0xD].contains t
  | .qpack _ _ f _ | .qunpk _ _ f _ => [0, 1, 2, 3, 0x10, 0x11, 0x12, 0x13].contains f
  | .lred _ _ o | .lscan _ _ _ o => o < 6
  | .bra off | .brp _ _ off | .call _ off => off.toNat % 4 == 0
  | .mode i => (i.toNat / 512) % 8 < 6 && (i.toNat / 32) % 16 < 14
  | .trap n => n < 256
  | .pref l _ _ => l < 3
  | .waitp p _ => p < 5
  | .cp _ _ _ ss ds rows => ss < 4 && ds < 4 && 1 ≤ rows && rows ≤ 4096
  | .rqnt _ _ _ rnd newf => rnd < 7 && newf < 256 && (newf < 4 || formatAssigned newf)
  | .fence _ s | .acq _ s | .rel _ s => s < 8
  | .amo _ _ _ op => op < 7
  | .red _ _ op => op < 6
  | .collAllreduce t _ r | .collReducescatter t _ r =>
      r < 3 && (match t with | .acc n => n < 4 | .s _ => true)
  | .collAllgather t _ | .collBroadcast t _ | .collAlltoall t _ =>
      (match t with | .acc n => n < 4 | .s _ => true)
  | .mma n _ _ mr nc kb _ _ | .mmac n _ _ mr nc kb _ =>
      n < 4 && 1 ≤ mr && mr ≤ 128 && 1 ≤ nc && nc ≤ 128 && 1 ≤ kb && kb ≤ 256
  | .mmas n _ _ _ mr nc kb isel _ _ =>
      n < 4 && isel < 4 && 1 ≤ mr && mr ≤ 128 && 1 ≤ nc && nc ≤ 128 && 1 ≤ kb && kb ≤ 256
  | .macld n _ _ | .macst n _ _ | .macrd _ _ n | .macwr _ _ n | .macz n | .mprog _ n | .ackpt _ _ n
  | .acrst _ _ n => n < 4
  | .mepi n _ _ mr nc tgt rnd _ fam bfmt =>
      n < 4 && 1 ≤ mr && mr ≤ 128 && 1 ≤ nc && nc ≤ 128 && tgt < 9 && rnd < 7 && fam < 4 && formatAssigned bfmt
        && (tgt == 8 || (bfmt == 0 && fam == 0)) && (bfmt == 0 || fam == 0)
  | .attn n _ _ q dim chunks lc kw vw fold _ =>
      n < 4 && (fold || n == 0) && 1 ≤ q && q ≤ 128 && 1 ≤ dim && dim ≤ 256 && 1 ≤ chunks && chunks < 256
        && lc < 6 && kw < 4 && vw < 4
  | .attc _ _ n _ => n < 4
  | .cntrd _ k | .cntcfg _ _ k => k < 8
  | .sysrd _ n => sysRegAssigned n
  | .syswr n _ => sysRegAssigned n && n != 0x12
  | .ldf _ _ _ | .stf _ _ _ => true
  | _ => true

/-- Whether a constructor is an instruction word (rows 0 to 178 of the opcode table) and not an event. -/
def isWord : Instr → Bool
  | .loadReturn .. | .storeAcknowledgement .. | .overflowInterrupt .. | .quantumExpiry .. | .worldSwitch ..
  | .sleepEnd .. | .detectorWindowEnd .. | .crossingCompletion .. | .copyEngineCommand .. | .engineAlleyPush ..
  | .requantisation .. | .blockStep .. | .jobCard .. | .watchdogExpiry .. | .collectiveRoundCompletion ..
  | .taskStart .. | .launchCompletion .. | .rebalance .. | .nearLineEviction .. | .serviceTerraceStart ..
  | .linkRetraining .. | .linkDeclaredDown .. | .fabricRequest .. | .fabricResponse .. | .collectivePacket ..
  | .fabricManagementFlit .. | .stagger .. | .staggerHoldEnd .. | .egressSpillDrain .. | .powerSample ..
  | .supplyLoss | .hostRead .. | .hostWrite .. | .hostAtomic .. | .hostReadCompletion .. | .hostErrorResponse ..
  | .hostInterrupt .. | .doorbell .. | .launchQueueEntry .. | .mgmtPart .. | .quant .. | .frames .. | .wdog ..
  | .link .. | .abort .. | .stop .. | .lost .. | .queue .. | .power .. | .logs .. | .freeze | .quote .. | .sysreg ..
  | .freezePin | .reset | .bootImage .. | .coreCycle .. | .rowBoundary .. | .linkRetrained .. | .freezeReadout ..
  | .instructionFetch .. => false
  | _ => true

/-- Every check of R58 that the word alone decides. -/
def formOk (i : Instr) : Bool :=
  isWord i && (opds i).all opdOk && immCount i ≤ 1 && modsOk i && modsRoom i && fieldsOk i

end Sys2Proof.Machine
end

