-- ==== Sys2Proof/WellFormed.lean ====
section
/-! DEFINITION. Well-formed instructions: those a word of the encoding stands for (R26 to R35, R43, R44, R57, R58). -/

namespace Sys2Proof

/-- An instruction is well formed when every field holds a value its entry accepts. An event is no word. -/
def WellFormed (i : Instr) : Bool := Machine.formOk i

end Sys2Proof
end

