-- ==== Sys2Proof/Decode.lean ====
section
/-! DEFINITION. The decoder of instruction words, total on any bytes, and after it the encoder (R26 to R35, R39, R43,
R55 to R58 and the encoding tables of the entries). -/

namespace Sys2Proof

open Machine

/-- The fields of an instruction word (R26) and its extension word; X is set exactly when there is one. -/
structure Fields where
  op : Nat
  d : Nat
  a : Nat
  b : Nat
  ext : Option Word
deriving DecidableEq, Repr

/-- Why bytes are no instruction. -/
inductive Reject where
  /-- fewer bytes than the word, or than the extension word its X bit asks for -/
  | short
  /-- the primary opcode is unassigned (R58, case 1) -/
  | opcode
  /-- X, a function code, a reserved bit or an operand field breaks the form of the opcode (R58, cases 2 to 6, 8) -/
  | form
deriving DecidableEq, Repr

/-- Goes on when the condition holds. -/
def need (b : Bool) : Option Unit := if b then some () else none

/-- A source field (R29); 0xFF is the immediate in the extension word, where there is one. -/
def getSrc (f : Nat) (ext : Option Word) : Option Src :=
  if f ≤ 0xDF then some (.v f)
  else if f ≤ 0xEF then some (.s (f - 0xE0))
  else if f = 0xF0 then some .zero
  else if f ≤ 0xF7 then some (.latch (f - 0xF0))
  else if f = 0xF8 then some .laneid
  else if f = 0xF9 then some .terid
  else if f = 0xFA then some .smask
  else if f = 0xFB then some .qid
  else if f = 0xFC then some .teamid
  else if f = 0xFD then some .coreid
  else if f = 0xFE then some .diecoord
  else ext.map .imm

/-- A destination field (R29, R30). -/
def getDst (f : Nat) : Option Dst :=
  if f ≤ 0xDF then some (.v f)
  else if f ≤ 0xEF then some (.s (f - 0xE0))
  else if f = 0xFF then some .none
  else none

/-- A field that names an s register by its number. -/
def getS (f : Nat) : Option Nat := if 0xE0 ≤ f ∧ f ≤ 0xEF then some (f - 0xE0) else none

/-- A source field as the encoder writes it (R29). -/
def encSrc : Src → Nat
  | .v n => n | .s n => 0xE0 + n | .zero => 0xF0 | .latch k => 0xF0 + k | .laneid => 0xF8 | .terid => 0xF9
  | .smask => 0xFA | .qid => 0xFB | .teamid => 0xFC | .coreid => 0xFD | .diecoord => 0xFE | .imm _ => 0xFF

/-- A destination field as the encoder writes it. -/
def encDst : Dst → Nat
  | .v n => n | .s n => 0xE0 + n | .none => 0xFF

/-- The tile field of COLL (R263). -/
def encTile : Tile → Nat
  | .acc n => n | .s n => 0xE0 + n

/-- The tile field of COLL, read. -/
def getTile (f : Nat) : Option Tile :=
  if f < 4 then some (.acc f) else (getS f).map .s

/-- The modifier word (R43). -/
def encMods (m : Mods) : Word :=
  BitVec.ofNat 32 (m.sat.toNat + 2 * m.clamp.toNat + 4 * m.nega.toNat + 8 * m.negb.toNat + 16 * m.absa.toNat
    + 32 * m.absb.toNat + 64 * m.scale.toNat)

/-- The modifier word, read; its bits 31 to 12 are reserved. -/
def getMods (w : Word) : Option Mods :=
  let n := w.toNat
  if n < 2 ^ 12 then
    some ⟨n % 2 == 1, n / 2 % 2 == 1, n / 4 % 2 == 1, n / 8 % 2 == 1, n / 16 % 2 == 1, n / 32 % 2 == 1,
      BitVec.ofNat 6 (n / 64)⟩
  else none

/-- The extension word of an immediate operand. -/
def immOf : Src → Option Word
  | .imm w => some w
  | _ => none

/-- The extension word of two operand fields of which one may be an immediate. -/
def immOf2 (a b : Src) : Option Word := match immOf a with | some w => some w | none => immOf b

/-- The extension word of an A-class instruction (R28, R43). -/
def extA (a b : Src) (m : Option Mods) : Option Word :=
  match immOf2 a b with | some w => some w | none => m.map encMods

/-- The modifier word of an A-class word whose operand fields hold an immediate (`imm`) or not (R43). -/
def getModsA (ext : Option Word) (imm : Bool) : Option (Option Mods) :=
  match ext with
  | none => if imm then none else some none
  | some e => if imm then some none else (getMods e).map some

/-- X of a K-class or M-class word is set exactly when an operand field holds 0xFF (R28). -/
def needX (f : Fields) (imm : Bool) : Option Unit := need (imm == f.ext.isSome)

/-- A two-source A-class word. -/
def parseA (k : Dst → Src → Src → Option Mods → Instr) (f : Fields) : Option Instr := do
  need (!(f.a == 255 && f.b == 255))
  return k (← getDst f.d) (← getSrc f.a f.ext) (← getSrc f.b f.ext) (← getModsA f.ext (f.a == 255 || f.b == 255))

/-- A one-source A-class word, its b field a function code already read. -/
def parseU (k : Dst → Src → Option Mods → Instr) (f : Fields) : Option Instr := do
  return k (← getDst f.d) (← getSrc f.a f.ext) (← getModsA f.ext (f.a == 255))

/-- A one-source A-class word whose b field is an argument of the instruction. -/
def parseUF (k : Dst → Src → Nat → Option Mods → Instr) (f : Fields) : Option Instr :=
  parseU (fun d a m => k d a f.b m) f

/-- SEL (R56, R96). -/
def parseSel (f : Fields) : Option Instr := do
  let e ← f.ext
  need (e.toNat < 16)
  return .sel (← getDst f.d) (← getSrc f.a none) (← getSrc f.b none) (e.toNat / 8 == 1) (e.toNat % 8)

/-- CMP and FCMP (R57). -/
def parseCmp (k : Nat → Nat → Src → Src → Option Mods → Instr) (f : Fields) : Option Instr := do
  need (f.d < 128 && !(f.a == 255 && f.b == 255))
  return k (f.d / 8) (f.d % 8) (← getSrc f.a f.ext) (← getSrc f.b f.ext)
    (← getModsA f.ext (f.a == 255 || f.b == 255))

/-- MOVI, MOVH and CALL: a destination and the extension word (R95, R120). -/
def parseMovi (k : Dst → Word → Instr) (f : Fields) : Option Instr := do
  need (f.a == 0 && f.b == 0)
  return k (← getDst f.d) (← f.ext)

/-- PSET (R98). -/
def parsePset (f : Fields) : Option Instr := do
  need (f.d < 8 && f.b < 2)
  needX f (f.a == 255)
  return .pset f.d (← getSrc f.a f.ext) (f.b == 1)

/-- A K-class word with a destination and nothing else. -/
def parseD (k : Dst → Instr) (f : Fields) : Option Instr := do
  need (f.a == 0 && f.ext.isNone)
  return k (← getDst f.d)

/-- RNGLD (R108). -/
def parseRngld (f : Fields) : Option Instr := do
  need (f.d == 0 && f.ext.isNone)
  return .rngld (← getSrc f.a none)

/-- A K-class word with a destination and a source in a. -/
def parseDA (k : Dst → Src → Instr) (f : Fields) : Option Instr := do
  needX f (f.a == 255)
  return k (← getDst f.d) (← getSrc f.a f.ext)

/-- A K-class word with a destination, a source in a and an argument in b. -/
def parseDAF (k : Dst → Src → Nat → Instr) (f : Fields) : Option Instr :=
  parseDA (fun d a => k d a f.b) f

/-- A K-class word with a source in a and nothing in d. -/
def parseAI (k : Src → Instr) (f : Fields) : Option Instr := do
  need (f.d == 0)
  needX f (f.a == 255)
  return k (← getSrc f.a f.ext)

/-- A K-class word with sources in a and b and nothing in d. -/
def parseAB (k : Src → Src → Instr) (f : Fields) : Option Instr := do
  need (f.d == 0 && !(f.a == 255 && f.b == 255))
  needX f (f.a == 255 || f.b == 255)
  return k (← getSrc f.a f.ext) (← getSrc f.b f.ext)

/-- A K-class word with no operand; its b field is already read. -/
def parseOne (i : Instr) (f : Fields) : Option Instr := do
  need (f.d == 0 && f.a == 0 && f.ext.isNone)
  return i

/-- NOP and the merge marker (R122). -/
def parseNop (f : Fields) : Option Instr := do
  need (f.d < 2 && f.a == 0 && f.ext.isNone)
  return if f.d == 1 then .nopMerge else .nop

/-- JMPR and RET (R121). -/
def parseReg (k : Src → Instr) (f : Fields) : Option Instr := do
  need (f.d == 0 && f.ext.isNone)
  return k (← getSrc f.a none)

/-- BRA (R120). -/
def parseBra (f : Fields) : Option Instr := do
  need (f.d == 0 && f.a == 0 && f.b == 0)
  return .bra (← f.ext)

/-- BRP (R120). -/
def parseBrp (f : Fields) : Option Instr := do
  need (f.d < 16 && f.a == 0 && f.b == 0)
  return .brp (f.d % 8) (f.d / 8 == 1) (← f.ext)

/-- MODE (R39). -/
def parseMode (f : Fields) : Option Instr := do
  need (f.d == 0 && f.ext.isNone)
  return .mode (BitVec.ofNat 16 (f.a * 256 + f.b))

/-- TRAP (R402). -/
def parseTrap (f : Fields) : Option Instr := do
  need (f.a == 0 && f.ext.isNone)
  return .trap f.d

/-- LAUNCH (R317). -/
def parseLaunch (f : Fields) : Option Instr := do
  need (f.b == 0 && f.ext.isNone)
  return .launch (← getDst f.d) (← getSrc f.a none)

/-- A load and CAS: the index or new value in b may be an immediate (R28, R188, R243). -/
def parseLd (k : Dst → Src → Src → Instr) (f : Fields) : Option Instr := do
  needX f (f.b == 255)
  return k (← getDst f.d) (← getSrc f.a none) (← getSrc f.b f.ext)

/-- A store (R188, R190). -/
def parseSt (k : Src → Src → Src → Instr) (f : Fields) : Option Instr := do
  needX f (f.b == 255)
  return k (← getSrc f.d none) (← getSrc f.a none) (← getSrc f.b f.ext)

/-- PREF: a function code in d (R199). -/
def parseNAB (k : Nat → Src → Src → Instr) (f : Fields) : Option Instr := do
  needX f (f.b == 255)
  return k f.d (← getSrc f.a none) (← getSrc f.b f.ext)

/-- INVL (R200). -/
def parseInvl (f : Fields) : Option Instr :=
  match f.d with
  | 0 => parseNAB (fun _ => .invl) f
  | 1 => parseOne .invlAll { f with d := f.b }
  | _ => none

/-- WAITP (R201). -/
def parseWaitp (f : Fields) : Option Instr := do
  need (f.b == 0)
  needX f (f.a == 255)
  return .waitp f.d (← getSrc f.a f.ext)

/-- CP (R202). -/
def parseCp (f : Fields) : Option Instr := do
  let e := (← f.ext).toNat
  need (e % 2 ^ 16 == 0)
  return .cp (← getS f.d) (← getS f.a) (← getS f.b) (e / 2 ^ 30) (e / 2 ^ 28 % 4) (e / 2 ^ 16 % 2 ^ 12 + 1)

/-- RQNT (R209). -/
def parseRqnt (f : Fields) : Option Instr := do
  let e := (← f.ext).toNat
  need (f.d == 0 && e < 2 ^ 12)
  return .rqnt (← getS f.a) (← getS f.b) (e / 2 ^ 11 == 1) (e / 2 ^ 8 % 8) (e % 2 ^ 8)

/-- FENCE, ACQ and REL (R229). -/
def parseFence (f : Fields) : Option Instr := do
  need (f.a == 0 && f.ext.isNone)
  let d ← getDst f.d
  match f.b / 8 with
  | 0 => return .fence d (f.b % 8)
  | 1 => return .acq d (f.b % 8)
  | 2 => return .rel d (f.b % 8)
  | _ => none

/-- LDA (R234). -/
def parseLda (f : Fields) : Option Instr := do
  need (f.b == 2 || f.b == 3)
  return .lda (← getDst f.d) (← getSrc f.a none) (f.b == 3) f.ext

/-- STL (R234). -/
def parseStl (f : Fields) : Option Instr := do
  need (f.b == 2 || f.b == 3)
  return .stl (← getSrc f.d none) (← getSrc f.a none) (f.b == 3) f.ext

/-- AMO (R241). -/
def parseAmo (f : Fields) : Option Instr := do
  return .amo (← getDst f.d) (← getSrc f.a none) (← getSrc f.b none) (← f.ext).toNat

/-- RED (R241). -/
def parseRed (f : Fields) : Option Instr := do
  need (f.d == 0)
  return .red (← getSrc f.a none) (← getSrc f.b none) (← f.ext).toNat

/-- CGBIND (R257). -/
def parseCgbind (f : Fields) : Option Instr := do
  need (f.b == 0)
  needX f (f.a == 255)
  return .cgbind (← getS f.d) (← getSrc f.a f.ext)

/-- COLL (R263). -/
def parseColl (f : Fields) : Option Instr := do
  need (f.ext.isNone)
  let d ← getTile f.d
  let a ← getS f.a
  let r := f.b / 8
  match f.b % 8 with
  | 0 => return .collAllreduce d a r
  | 1 => return .collReducescatter d a r
  | 2 => need (r == 0); return .collAllgather d a
  | 3 => need (r == 0); return .collBroadcast d a
  | 4 => need (r == 0); return .collAlltoall d a
  | _ => none

/-- ABINIT (R262). -/
def parseAbinit (f : Fields) : Option Instr := do
  needX f (f.a == 255)
  return .abinit (← getS f.d) (← getSrc f.a f.ext)

/-- ABWAIT (R262). -/
def parseAbwait (f : Fields) : Option Instr := do
  needX f (f.a == 255)
  return .abwait (← getSrc f.d none) (← getSrc f.a f.ext)

/-- SIGDEC (R314). -/
def parseSigdec (f : Fields) : Option Instr := do
  need (f.d < 2)
  needX f (f.b == 255)
  return .sigdec (f.d == 1) (← getS f.a) (← getSrc f.b f.ext)

/-- A K-class word with a destination, an s register in a and a source in b. -/
def parseDSB (k : Dst → Nat → Src → Instr) (f : Fields) : Option Instr := do
  needX f (f.b == 255)
  return k (← getDst f.d) (← getS f.a) (← getSrc f.b f.ext)

/-- A K-class word with a destination and s registers in a and b. -/
def parseDSS (k : Dst → Nat → Nat → Instr) (f : Fields) : Option Instr := do
  need (f.ext.isNone)
  return k (← getDst f.d) (← getS f.a) (← getS f.b)

/-- A K-class word with a destination and an s register in a. -/
def parseDS (k : Dst → Nat → Instr) (f : Fields) : Option Instr := do
  need (f.ext.isNone)
  return k (← getDst f.d) (← getS f.a)

/-- The descriptor of MMA, MMAS and MMAC (R132, R136, R139). -/
def mmaDesc (mr nc kb : Nat) (pa pb : Bool) (n isel : Nat) : Word :=
  BitVec.ofNat 32 (mr - 1 + 2 ^ 7 * (nc - 1) + 2 ^ 14 * (kb - 1) + 2 ^ 22 * pa.toNat + 2 ^ 23 * pb.toNat
    + 2 ^ 24 * n + 2 ^ 26 * isel)

/-- MMA (R132). -/
def parseMma (f : Fields) : Option Instr := do
  let e := (← f.ext).toNat
  need (e < 2 ^ 24)
  return .mma f.d (← getS f.a) (← getS f.b) (e % 2 ^ 7 + 1) (e / 2 ^ 7 % 2 ^ 7 + 1) (e / 2 ^ 14 % 2 ^ 8 + 1)
    (e / 2 ^ 22 % 2 == 1) (e / 2 ^ 23 % 2 == 1)

/-- MMAS (R136). -/
def parseMmas (f : Fields) : Option Instr := do
  let e := (← f.ext).toNat
  need (f.d < 224 && e < 2 ^ 28)
  return .mmas (e / 2 ^ 24 % 4) f.d (← getS f.a) (← getS f.b) (e % 2 ^ 7 + 1) (e / 2 ^ 7 % 2 ^ 7 + 1)
    (e / 2 ^ 14 % 2 ^ 8 + 1) (e / 2 ^ 26 % 4) (e / 2 ^ 22 % 2 == 1) (e / 2 ^ 23 % 2 == 1)

/-- MMAC (R139). -/
def parseMmac (f : Fields) : Option Instr := do
  let e := (← f.ext).toNat
  need (e < 2 ^ 24 && e / 2 ^ 22 % 2 == 0)
  return .mmac f.d (← getS f.a) (← getS f.b) (e % 2 ^ 7 + 1) (e / 2 ^ 7 % 2 ^ 7 + 1) (e / 2 ^ 14 % 2 ^ 8 + 1)
    (e / 2 ^ 23 % 2 == 1)

/-- MACLD and MACST (R142). -/
def parseNSB (k : Nat → Nat → Src → Instr) (f : Fields) : Option Instr := do
  needX f (f.b == 255)
  return k f.d (← getS f.a) (← getSrc f.b f.ext)

/-- MACRD and MACWR (R142). -/
def parseRow (k : Nat → Src → Nat → Instr) (f : Fields) : Option Instr := do
  needX f (f.a == 255)
  return k f.d (← getSrc f.a f.ext) f.b

/-- MEPI (R146). -/
def parseMepi (f : Fields) : Option Instr := do
  let e := (← f.ext).toNat
  return .mepi f.d (← getS f.a) (← getS f.b) (e % 2 ^ 7 + 1) (e / 2 ^ 7 % 2 ^ 7 + 1) (e / 2 ^ 14 % 2 ^ 4)
    (e / 2 ^ 18 % 2 ^ 3) (e / 2 ^ 21 % 2 == 1) (e / 2 ^ 22 % 4) (e / 2 ^ 24)

/-- The ACC space (R142, R143). -/
def parseAcc (f : Fields) : Option Instr := do
  let n := f.b / 16
  match f.b % 16 with
  | 0 => need (f.d == 0 && f.a == 0 && f.ext.isNone); return .macz n
  | 1 => need (f.a == 0 && f.ext.isNone); return .mprog (← getDst f.d) n
  | 2 => needX f (f.a == 255); return .ackpt (← getSrc f.d none) (← getSrc f.a f.ext) n
  | 3 => needX f (f.a == 255); return .acrst (← getSrc f.d none) (← getSrc f.a f.ext) n
  | _ => none

/-- ATTN (R156). -/
def parseAttn (f : Fields) : Option Instr := do
  let e := (← f.ext).toNat
  return .attn f.d (← getS f.a) (← getS f.b) (e % 2 ^ 7 + 1) (e / 2 ^ 7 % 2 ^ 8 + 1) (e / 2 ^ 15 % 2 ^ 8)
    (e / 2 ^ 23 % 8) (e / 2 ^ 26 % 4) (e / 2 ^ 28 % 4) (e / 2 ^ 30 % 2 == 1) (e / 2 ^ 31 == 1)

/-- ATTC (R161). -/
def parseAttc (f : Fields) : Option Instr := do
  need (f.d < 16 && f.b == 0 && f.ext.isNone)
  return .attc (f.d / 8 == 1) (f.d / 4 % 2 == 1) (f.d % 4) (← getS f.a)

/-- The CNT space (R57, R393). -/
def parseCnt (f : Fields) : Option Instr := do
  match f.b / 8 with
  | 0 => need (f.a == 0 && f.ext.isNone); return .cntrd (← getDst f.d) (f.b % 8)
  | 1 => needX f (f.a == 255); return .cntcfg (← getDst f.d) (← getSrc f.a f.ext) (f.b % 8)
  | 2 => need (f.d == 0 && f.b == 16 && f.ext.isNone); return .cntsv (← getS f.a)
  | 3 => need (f.d == 0 && f.b == 24 && f.ext.isNone); return .cntld (← getS f.a)
  | _ => none

/-- SYSRD (R378). -/
def parseSysrd (f : Fields) : Option Instr := do
  need (f.a == 0 && f.ext.isNone)
  return .sysrd (← getDst f.d) f.b

/-- SYSWR (R378); a write of SY_XREQ is a row of its own. -/
def parseSyswr (f : Fields) : Option Instr := do
  need (f.b == 0)
  needX f (f.a == 255)
  let a ← getSrc f.a f.ext
  return if f.d == 0x12 then .syXreqWrite a else .syswr f.d a

/-- SHOOT (R373). -/
def parseShoot (f : Fields) : Option Instr := do
  need (f.d == 0)
  needX f (f.b == 255)
  return .shoot (← getS f.a) (← getSrc f.b f.ext)

/-- PART (R375). -/
def parsePart (f : Fields) : Option Instr := do
  need (!(f.a == 255 && f.b == 255))
  needX f (f.a == 255 || f.b == 255)
  return .part (← getDst f.d) (← getSrc f.a f.ext) (← getSrc f.b f.ext)

/-- The instruction the fields of a word stand for, every field decoded and nothing yet checked (R55, R57). -/
def parse (f : Fields) : Option Instr :=
  match f.op with
  | 0x01 => parseA .add f
  | 0x02 => parseA .addc f
  | 0x03 => parseA .sub f
  | 0x04 => parseA .subb f
  | 0x05 => parseA .mullo f
  | 0x06 => parseA .mulhi f
  | 0x07 => parseA .mad f
  | 0x08 => parseA .div f
  | 0x09 => parseA .rem f
  | 0x0a => parseA .min f
  | 0x0b => parseA .max f
  | 0x0c => parseA .and f
  | 0x0d => parseA .or f
  | 0x0e => parseA .xor f
  | 0x0f => parseA .andn f
  | 0x10 => parseA .shl f
  | 0x11 => parseA .shr f
  | 0x12 => parseA .sar f
  | 0x13 => parseA .rol f
  | 0x14 => parseA .bfx f
  | 0x15 => parseA .bfi f
  | 0x16 => parseSel f
  | 0x17 => parseCmp .cmp f
  | 0x18 => parseA .lea f
  | 0x19 =>
    match f.b with
    | 0x00 => parseU .abs f
    | 0x01 => parseU .neg f
    | 0x02 => parseU .not f
    | 0x03 => parseU .popc f
    | 0x04 => parseU .clz f
    | 0x05 => parseU .brev f
    | 0x06 => parseU .mov f
    | _ => none
  | 0x1a => parseMovi .movi f
  | 0x1b => parseMovi .movh f
  | 0x1c => parsePset f
  | 0x20 => parseA .fadd f
  | 0x21 => parseA .fsub f
  | 0x22 => parseA .fmul f
  | 0x23 => parseA .fma f
  | 0x24 => parseA .fmin f
  | 0x25 => parseA .fmax f
  | 0x26 => parseCmp .fcmp f
  | 0x27 => parseA .fdiv f
  | 0x28 =>
    match f.b with
    | 0x00 => parseU .frcp f
    | 0x01 => parseU .frsq f
    | 0x02 => parseU .fsqrt f
    | 0x03 => parseU .fexp2 f
    | 0x04 => parseU .flog2 f
    | 0x05 => parseU .fsin f
    | 0x06 => parseU .fcos f
    | 0x07 => parseU .ftanh f
    | 0x08 => parseU .frint f
    | 0x09 => parseU .fclass f
    | _ => none
  | 0x29 => parseUF .cvt f
  | 0x2a => parseUF .qpack f
  | 0x2b => parseUF .qunpk f
  | 0x2c => parseUF .srnd f
  | 0x2d =>
    match f.b with
    | 0x00 => parseD .rng f
    | 0x01 => parseD .rngst f
    | 0x02 => parseRngld f
    | _ => none
  | 0x30 => parseA .shflIdx f
  | 0x31 => parseA .shflUp f
  | 0x32 => parseA .shflDown f
  | 0x33 => parseA .shflXor f
  | 0x34 => parseA .bcast f
  | 0x35 =>
    match f.b with
    | 0x00 => parseDA .voteAny f
    | 0x01 => parseDA .voteAll f
    | 0x02 => parseDA .voteBallot f
    | 0x03 => parseDA .voteUni f
    | _ => none
  | 0x36 => parseDAF (fun d a b => .lred d a b) f
  | 0x37 => parseDAF (fun d a b => .lscan d a (b / 8 % 2 == 1) (b % 8 + 16 * (b / 16))) f
  | 0x38 => parseBra f
  | 0x39 => parseBrp f
  | 0x3a => parseMovi .call f
  | 0x3b => if f.b == 0 then parseReg .jmpr f else none
  | 0x3c => parseMode f
  | 0x3d =>
    match f.b with
    | 0x00 => parseNop f
    | 0x01 => parseReg .ret f
    | 0x02 => parseOne .exit f
    | 0x03 => parseOne .yield f
    | 0x04 => parseAI .sleep f
    | 0x05 => parseOne .leave f
    | 0x06 => parseOne .qbar f
    | 0x07 => parseTrap f
    | 0x08 => parseOne .tret f
    | 0x09 => parseD .elog f
    | _ => none
  | 0x3e => parseAB .join f
  | 0x3f => parseLaunch f
  | 0x40 => parseLd .ldB f
  | 0x41 => parseLd .ldH f
  | 0x42 => parseLd .ldW f
  | 0x43 => parseLd .ldD f
  | 0x44 => parseLd .ldQ f
  | 0x45 => parseLd .ldbyW f
  | 0x46 => parseLd .ldbyD f
  | 0x47 => parseLd .ldbyQ f
  | 0x48 => parseSt .stB f
  | 0x49 => parseSt .stH f
  | 0x4a => parseSt .stW f
  | 0x4b => parseSt .stD f
  | 0x4c => parseSt .stQ f
  | 0x4d => parseSt .stbyW f
  | 0x4e => parseSt .stbyD f
  | 0x4f => parseSt .stbyQ f
  | 0x50 => parseLd .ldf f
  | 0x51 => parseSt .stf f
  | 0x52 => parseNAB .pref f
  | 0x53 => parseInvl f
  | 0x54 => parseWaitp f
  | 0x55 => parseCp f
  | 0x56 =>
    match f.b with
    | 0x00 => parseD .cps f
    | 0x01 => parseAI .cpw f
    | _ => none
  | 0x57 => parseRqnt f
  | 0x58 => parseFence f
  | 0x59 => parseLda f
  | 0x5a => parseStl f
  | 0x5b => parseAmo f
  | 0x5c => parseLd .cas f
  | 0x5d => parseRed f
  | 0x5e =>
    match f.b with
    | 0x00 => parseD .cross f
    | 0x01 => parseD .crossa f
    | 0x02 => parseD .crossw f
    | 0x03 => parseD .phase f
    | _ => none
  | 0x5f => parseCgbind f
  | 0x60 => parseColl f
  | 0x61 =>
    match f.b with
    | 0x00 => parseAbinit f
    | 0x01 => parseDA .abarv f
    | 0x02 => parseAbwait f
    | _ => none
  | 0x62 =>
    match f.b with
    | 0x00 => parseDA .gset f
    | 0x01 => parseDA .gwid f
    | 0x02 => parseD .gview f
    | 0x03 => parseDA .grank f
    | _ => none
  | 0x63 =>
    match f.b with
    | 0x00 => parseAI .rgrow f
    | 0x01 => parseAI .rshrink f
    | _ => none
  | 0x64 =>
    match f.b with
    | 0x00 => parseAI .aopen f
    | 0x01 => parseDA .apop f
    | 0x02 => parseDA .atry f
    | _ => none
  | 0x65 => parseAB .apush f
  | 0x66 => parseSigdec f
  | 0x67 => parseDSB .sigwait f
  | 0x68 => parseMma f
  | 0x69 => parseMmas f
  | 0x6a => parseMmac f
  | 0x6b => parseNSB .macld f
  | 0x6c => parseNSB .macst f
  | 0x6d => parseRow .macrd f
  | 0x6e => parseRow .macwr f
  | 0x6f => parseMepi f
  | 0x70 => parseAcc f
  | 0x71 => parseAttn f
  | 0x72 => parseAttc f
  | 0x73 => parseDSS .kvap f
  | 0x74 => parseDSS .kvtr f
  | 0x75 => parseDSB .kvrd f
  | 0x76 => parseCnt f
  | 0x77 => if f.b == 0 then parseOne .wswitch f else none
  | 0x78 => parseDSB .bcinit f
  | 0x79 => parseDSB .bctake f
  | 0x7a => parseDSB .bcgive f
  | 0x7b =>
    match f.b with
    | 0x00 => parseDS .bcread f
    | 0x01 => parseDS .bcstat f
    | _ => none
  | 0x7c => parseSysrd f
  | 0x7d => parseSyswr f
  | 0x7e => parseShoot f
  | 0x7f => parsePart f
  | _ => none

/-- The fields of an instruction's word (R26, R55, R56, R57). An event has no word. -/
def encodeFields : Instr → Fields
  | .add d a b m => ⟨0x01, encDst d, encSrc a, encSrc b, extA a b m⟩
  | .addc d a b m => ⟨0x02, encDst d, encSrc a, encSrc b, extA a b m⟩
  | .sub d a b m => ⟨0x03, encDst d, encSrc a, encSrc b, extA a b m⟩
  | .subb d a b m => ⟨0x04, encDst d, encSrc a, encSrc b, extA a b m⟩
  | .mullo d a b m => ⟨0x05, encDst d, encSrc a, encSrc b, extA a b m⟩
  | .mulhi d a b m => ⟨0x06, encDst d, encSrc a, encSrc b, extA a b m⟩
  | .mad d a b m => ⟨0x07, encDst d, encSrc a, encSrc b, extA a b m⟩
  | .div d a b m => ⟨0x08, encDst d, encSrc a, encSrc b, extA a b m⟩
  | .rem d a b m => ⟨0x09, encDst d, encSrc a, encSrc b, extA a b m⟩
  | .min d a b m => ⟨0x0a, encDst d, encSrc a, encSrc b, extA a b m⟩
  | .max d a b m => ⟨0x0b, encDst d, encSrc a, encSrc b, extA a b m⟩
  | .and d a b m => ⟨0x0c, encDst d, encSrc a, encSrc b, extA a b m⟩
  | .or d a b m => ⟨0x0d, encDst d, encSrc a, encSrc b, extA a b m⟩
  | .xor d a b m => ⟨0x0e, encDst d, encSrc a, encSrc b, extA a b m⟩
  | .andn d a b m => ⟨0x0f, encDst d, encSrc a, encSrc b, extA a b m⟩
  | .shl d a b m => ⟨0x10, encDst d, encSrc a, encSrc b, extA a b m⟩
  | .shr d a b m => ⟨0x11, encDst d, encSrc a, encSrc b, extA a b m⟩
  | .sar d a b m => ⟨0x12, encDst d, encSrc a, encSrc b, extA a b m⟩
  | .rol d a b m => ⟨0x13, encDst d, encSrc a, encSrc b, extA a b m⟩
  | .bfx d a b m => ⟨0x14, encDst d, encSrc a, encSrc b, extA a b m⟩
  | .bfi d a b m => ⟨0x15, encDst d, encSrc a, encSrc b, extA a b m⟩
  | .lea d a b m => ⟨0x18, encDst d, encSrc a, encSrc b, extA a b m⟩
  | .fadd d a b m => ⟨0x20, encDst d, encSrc a, encSrc b, extA a b m⟩
  | .fsub d a b m => ⟨0x21, encDst d, encSrc a, encSrc b, extA a b m⟩
  | .fmul d a b m => ⟨0x22, encDst d, encSrc a, encSrc b, extA a b m⟩
  | .fma d a b m => ⟨0x23, encDst d, encSrc a, encSrc b, extA a b m⟩
  | .fmin d a b m => ⟨0x24, encDst d, encSrc a, encSrc b, extA a b m⟩
  | .fmax d a b m => ⟨0x25, encDst d, encSrc a, encSrc b, extA a b m⟩
  | .fdiv d a b m => ⟨0x27, encDst d, encSrc a, encSrc b, extA a b m⟩
  | .shflIdx d a b m => ⟨0x30, encDst d, encSrc a, encSrc b, extA a b m⟩
  | .shflUp d a b m => ⟨0x31, encDst d, encSrc a, encSrc b, extA a b m⟩
  | .shflDown d a b m => ⟨0x32, encDst d, encSrc a, encSrc b, extA a b m⟩
  | .shflXor d a b m => ⟨0x33, encDst d, encSrc a, encSrc b, extA a b m⟩
  | .bcast d a b m => ⟨0x34, encDst d, encSrc a, encSrc b, extA a b m⟩
  | .abs d a m => ⟨0x19, encDst d, encSrc a, 0x0, extA a .zero m⟩
  | .neg d a m => ⟨0x19, encDst d, encSrc a, 0x1, extA a .zero m⟩
  | .not d a m => ⟨0x19, encDst d, encSrc a, 0x2, extA a .zero m⟩
  | .popc d a m => ⟨0x19, encDst d, encSrc a, 0x3, extA a .zero m⟩
  | .clz d a m => ⟨0x19, encDst d, encSrc a, 0x4, extA a .zero m⟩
  | .brev d a m => ⟨0x19, encDst d, encSrc a, 0x5, extA a .zero m⟩
  | .mov d a m => ⟨0x19, encDst d, encSrc a, 0x6, extA a .zero m⟩
  | .frcp d a m => ⟨0x28, encDst d, encSrc a, 0x0, extA a .zero m⟩
  | .frsq d a m => ⟨0x28, encDst d, encSrc a, 0x1, extA a .zero m⟩
  | .fsqrt d a m => ⟨0x28, encDst d, encSrc a, 0x2, extA a .zero m⟩
  | .fexp2 d a m => ⟨0x28, encDst d, encSrc a, 0x3, extA a .zero m⟩
  | .flog2 d a m => ⟨0x28, encDst d, encSrc a, 0x4, extA a .zero m⟩
  | .fsin d a m => ⟨0x28, encDst d, encSrc a, 0x5, extA a .zero m⟩
  | .fcos d a m => ⟨0x28, encDst d, encSrc a, 0x6, extA a .zero m⟩
  | .ftanh d a m => ⟨0x28, encDst d, encSrc a, 0x7, extA a .zero m⟩
  | .frint d a m => ⟨0x28, encDst d, encSrc a, 0x8, extA a .zero m⟩
  | .fclass d a m => ⟨0x28, encDst d, encSrc a, 0x9, extA a .zero m⟩
  | .ldB d a b => ⟨0x40, encDst d, encSrc a, encSrc b, immOf b⟩
  | .ldH d a b => ⟨0x41, encDst d, encSrc a, encSrc b, immOf b⟩
  | .ldW d a b => ⟨0x42, encDst d, encSrc a, encSrc b, immOf b⟩
  | .ldD d a b => ⟨0x43, encDst d, encSrc a, encSrc b, immOf b⟩
  | .ldQ d a b => ⟨0x44, encDst d, encSrc a, encSrc b, immOf b⟩
  | .ldbyW d a b => ⟨0x45, encDst d, encSrc a, encSrc b, immOf b⟩
  | .ldbyD d a b => ⟨0x46, encDst d, encSrc a, encSrc b, immOf b⟩
  | .ldbyQ d a b => ⟨0x47, encDst d, encSrc a, encSrc b, immOf b⟩
  | .stB d a b => ⟨0x48, encSrc d, encSrc a, encSrc b, immOf b⟩
  | .stH d a b => ⟨0x49, encSrc d, encSrc a, encSrc b, immOf b⟩
  | .stW d a b => ⟨0x4a, encSrc d, encSrc a, encSrc b, immOf b⟩
  | .stD d a b => ⟨0x4b, encSrc d, encSrc a, encSrc b, immOf b⟩
  | .stQ d a b => ⟨0x4c, encSrc d, encSrc a, encSrc b, immOf b⟩
  | .stbyW d a b => ⟨0x4d, encSrc d, encSrc a, encSrc b, immOf b⟩
  | .stbyD d a b => ⟨0x4e, encSrc d, encSrc a, encSrc b, immOf b⟩
  | .stbyQ d a b => ⟨0x4f, encSrc d, encSrc a, encSrc b, immOf b⟩
  | .sel d a b neg p => ⟨0x16, encDst d, encSrc a, encSrc b, some (BitVec.ofNat 32 (p + 8 * neg.toNat))⟩
  | .cmp c p a b m => ⟨0x17, p + 8 * c, encSrc a, encSrc b, extA a b m⟩
  | .fcmp c p a b m => ⟨0x26, p + 8 * c, encSrc a, encSrc b, extA a b m⟩
  | .movi d w => ⟨0x1a, encDst d, 0, 0, some w⟩
  | .movh d w => ⟨0x1b, encDst d, 0, 0, some w⟩
  | .pset p a lanes => ⟨0x1c, p, encSrc a, lanes.toNat, immOf a⟩
  | .cvt d a t m => ⟨0x29, encDst d, encSrc a, t, extA a .zero m⟩
  | .qpack d a t m => ⟨0x2a, encDst d, encSrc a, t, extA a .zero m⟩
  | .qunpk d a t m => ⟨0x2b, encDst d, encSrc a, t, extA a .zero m⟩
  | .srnd d a t m => ⟨0x2c, encDst d, encSrc a, t, extA a .zero m⟩
  | .rng d => ⟨0x2d, encDst d, 0, 0, none⟩
  | .rngst d => ⟨0x2d, encDst d, 0, 1, none⟩
  | .rngld a => ⟨0x2d, 0, encSrc a, 2, none⟩
  | .voteAny d a => ⟨0x35, encDst d, encSrc a, 0x0, immOf a⟩
  | .voteAll d a => ⟨0x35, encDst d, encSrc a, 0x1, immOf a⟩
  | .voteBallot d a => ⟨0x35, encDst d, encSrc a, 0x2, immOf a⟩
  | .voteUni d a => ⟨0x35, encDst d, encSrc a, 0x3, immOf a⟩
  | .lred d a o => ⟨0x36, encDst d, encSrc a, o, immOf a⟩
  | .lscan d a excl o => ⟨0x37, encDst d, encSrc a, o + 8 * excl.toNat, immOf a⟩
  | .bra off => ⟨0x38, 0, 0, 0, some off⟩
  | .brp p neg off => ⟨0x39, p + 8 * neg.toNat, 0, 0, some off⟩
  | .call d off => ⟨0x3a, encDst d, 0, 0, some off⟩
  | .jmpr a => ⟨0x3b, 0, encSrc a, 0, none⟩
  | .mode i => ⟨0x3c, 0, i.toNat / 256, i.toNat % 256, none⟩
  | .nop => ⟨0x3d, 0, 0, 0, none⟩
  | .nopMerge => ⟨0x3d, 1, 0, 0, none⟩
  | .ret a => ⟨0x3d, 0, encSrc a, 1, none⟩
  | .exit => ⟨0x3d, 0, 0, 2, none⟩
  | .yield => ⟨0x3d, 0, 0, 3, none⟩
  | .sleep a => ⟨0x3d, 0, encSrc a, 4, immOf a⟩
  | .leave => ⟨0x3d, 0, 0, 5, none⟩
  | .qbar => ⟨0x3d, 0, 0, 6, none⟩
  | .trap n => ⟨0x3d, n, 0, 7, none⟩
  | .tret => ⟨0x3d, 0, 0, 8, none⟩
  | .elog d => ⟨0x3d, encDst d, 0, 9, none⟩
  | .join a b => ⟨0x3e, 0, encSrc a, encSrc b, immOf2 a b⟩
  | .launch d a => ⟨0x3f, encDst d, encSrc a, 0, none⟩
  | .ldf d a b => ⟨0x50, encDst d, encSrc a, encSrc b, immOf b⟩
  | .stf d a b => ⟨0x51, encSrc d, encSrc a, encSrc b, immOf b⟩
  | .pref l a b => ⟨0x52, l, encSrc a, encSrc b, immOf b⟩
  | .invl a b => ⟨0x53, 0, encSrc a, encSrc b, immOf b⟩
  | .invlAll => ⟨0x53, 1, 0, 0, none⟩
  | .waitp p a => ⟨0x54, p, encSrc a, 0, immOf a⟩
  | .cp d a b ss ds rows => ⟨0x55, 224 + d, 224 + a, 224 + b, some (BitVec.ofNat 32 (2 ^ 16 * (rows - 1) + 2 ^ 28 * ds + 2 ^ 30 * ss))⟩
  | .cps d => ⟨0x56, encDst d, 0, 0, none⟩
  | .cpw a => ⟨0x56, 0, encSrc a, 1, immOf a⟩
  | .rqnt a b sat rnd newf => ⟨0x57, 0, 224 + a, 224 + b, some (BitVec.ofNat 32 (newf + 2 ^ 8 * rnd + 2 ^ 11 * sat.toNat))⟩
  | .fence d s => ⟨0x58, encDst d, 0, s, none⟩
  | .acq d s => ⟨0x58, encDst d, 0, s + 8, none⟩
  | .rel d s => ⟨0x58, encDst d, 0, s + 16, none⟩
  | .lda d a dbl off => ⟨0x59, encDst d, encSrc a, 2 + dbl.toNat, off⟩
  | .stl d a dbl off => ⟨0x5a, encSrc d, encSrc a, 2 + dbl.toNat, off⟩
  | .amo d a b op => ⟨0x5b, encDst d, encSrc a, encSrc b, some (BitVec.ofNat 32 op)⟩
  | .cas d a b => ⟨0x5c, encDst d, encSrc a, encSrc b, immOf b⟩
  | .red a b op => ⟨0x5d, 0, encSrc a, encSrc b, some (BitVec.ofNat 32 op)⟩
  | .cross d => ⟨0x5e, encDst d, 0, 0, none⟩
  | .crossa d => ⟨0x5e, encDst d, 0, 1, none⟩
  | .crossw d => ⟨0x5e, encDst d, 0, 2, none⟩
  | .phase d => ⟨0x5e, encDst d, 0, 3, none⟩
  | .cgbind d a => ⟨0x5f, 224 + d, encSrc a, 0, immOf a⟩
  | .collAllreduce d a r => ⟨0x60, encTile d, 224 + a, 8 * r, none⟩
  | .collReducescatter d a r => ⟨0x60, encTile d, 224 + a, 1 + 8 * r, none⟩
  | .collAllgather d a => ⟨0x60, encTile d, 224 + a, 2, none⟩
  | .collBroadcast d a => ⟨0x60, encTile d, 224 + a, 3, none⟩
  | .collAlltoall d a => ⟨0x60, encTile d, 224 + a, 4, none⟩
  | .abinit d a => ⟨0x61, 224 + d, encSrc a, 0, immOf a⟩
  | .abarv d a => ⟨0x61, encDst d, encSrc a, 1, immOf a⟩
  | .abwait d a => ⟨0x61, encSrc d, encSrc a, 2, immOf a⟩
  | .gset d a => ⟨0x62, encDst d, encSrc a, 0, immOf a⟩
  | .gwid d a => ⟨0x62, encDst d, encSrc a, 1, immOf a⟩
  | .gview d => ⟨0x62, encDst d, 0, 2, none⟩
  | .grank d a => ⟨0x62, encDst d, encSrc a, 3, immOf a⟩
  | .rgrow a => ⟨0x63, 0, encSrc a, 0, immOf a⟩
  | .rshrink a => ⟨0x63, 0, encSrc a, 1, immOf a⟩
  | .aopen a => ⟨0x64, 0, encSrc a, 0, immOf a⟩
  | .apop d a => ⟨0x64, encDst d, encSrc a, 1, immOf a⟩
  | .atry d a => ⟨0x64, encDst d, encSrc a, 2, immOf a⟩
  | .apush a b => ⟨0x65, 0, encSrc a, encSrc b, immOf2 a b⟩
  | .sigdec e a b => ⟨0x66, e.toNat, 224 + a, encSrc b, immOf b⟩
  | .sigwait d a b => ⟨0x67, encDst d, 224 + a, encSrc b, immOf b⟩
  | .mma n a b mr nc kb pa pb => ⟨0x68, n, 224 + a, 224 + b, some (mmaDesc mr nc kb pa pb 0 0)⟩
  | .mmas n d a b mr nc kb isel pa pb => ⟨0x69, d, 224 + a, 224 + b, some (mmaDesc mr nc kb pa pb n isel)⟩
  | .mmac n a b mr nc kb pb => ⟨0x6a, n, 224 + a, 224 + b, some (mmaDesc mr nc kb false pb 0 0)⟩
  | .macld n a b => ⟨0x6b, n, 224 + a, encSrc b, immOf b⟩
  | .macst n a b => ⟨0x6c, n, 224 + a, encSrc b, immOf b⟩
  | .macrd d a n => ⟨0x6d, d, encSrc a, n, immOf a⟩
  | .macwr d a n => ⟨0x6e, d, encSrc a, n, immOf a⟩
  | .mepi n a b mr nc tgt rnd sat fam bfmt => ⟨0x6f, n, 224 + a, 224 + b, some (BitVec.ofNat 32 (mr - 1 + 2 ^ 7 * (nc - 1) + 2 ^ 14 * tgt + 2 ^ 18 * rnd + 2 ^ 21 * sat.toNat + 2 ^ 22 * fam + 2 ^ 24 * bfmt))⟩
  | .macz n => ⟨0x70, 0, 0, 16 * n, none⟩
  | .mprog d n => ⟨0x70, encDst d, 0, 1 + 16 * n, none⟩
  | .ackpt d a n => ⟨0x70, encSrc d, encSrc a, 2 + 16 * n, immOf a⟩
  | .acrst d a n => ⟨0x70, encSrc d, encSrc a, 3 + 16 * n, immOf a⟩
  | .attn n a b q dim chunks lc kw vw fold causal => ⟨0x71, n, 224 + a, 224 + b, some (BitVec.ofNat 32 (q - 1 + 2 ^ 7 * (dim - 1) + 2 ^ 15 * chunks + 2 ^ 23 * lc + 2 ^ 26 * kw + 2 ^ 28 * vw + 2 ^ 30 * fold.toNat + 2 ^ 31 * causal.toNat))⟩
  | .attc init fin n a => ⟨0x72, n + 4 * fin.toNat + 8 * init.toNat, 224 + a, 0, none⟩
  | .kvap d a b => ⟨0x73, encDst d, 224 + a, 224 + b, none⟩
  | .kvtr d a b => ⟨0x74, encDst d, 224 + a, 224 + b, none⟩
  | .kvrd d a b => ⟨0x75, encDst d, 224 + a, encSrc b, immOf b⟩
  | .cntrd d k => ⟨0x76, encDst d, 0, k, none⟩
  | .cntcfg d a k => ⟨0x76, encDst d, encSrc a, 8 + k, immOf a⟩
  | .cntsv a => ⟨0x76, 0, 224 + a, 16, none⟩
  | .cntld a => ⟨0x76, 0, 224 + a, 24, none⟩
  | .wswitch => ⟨0x77, 0, 0, 0, none⟩
  | .bcinit d a b => ⟨0x78, encDst d, 224 + a, encSrc b, immOf b⟩
  | .bctake d a b => ⟨0x79, encDst d, 224 + a, encSrc b, immOf b⟩
  | .bcgive d a b => ⟨0x7a, encDst d, 224 + a, encSrc b, immOf b⟩
  | .bcread d a => ⟨0x7b, encDst d, 224 + a, 0, none⟩
  | .bcstat d a => ⟨0x7b, encDst d, 224 + a, 1, none⟩
  | .sysrd d n => ⟨0x7c, encDst d, 0, n, none⟩
  | .syswr n a => ⟨0x7d, n, encSrc a, 0, immOf a⟩
  | .syXreqWrite a => ⟨0x7d, 0x12, encSrc a, 0, immOf a⟩
  | .shoot a b => ⟨0x7e, 0, 224 + a, encSrc b, immOf b⟩
  | .part d a b => ⟨0x7f, encDst d, encSrc a, encSrc b, immOf2 a b⟩
  | _ => ⟨0, 0, 0, 0, none⟩

/-- The word of the fields (R26). -/
def packWord (f : Fields) : Word :=
  BitVec.ofNat 32 (f.b + 2 ^ 8 * f.a + 2 ^ 16 * f.d + 2 ^ 24 * f.op + 2 ^ 31 * f.ext.isSome.toNat)

/-- The fields of a word (R26), with the extension word where X is set. -/
def unpackWord (w : Word) (ext : Word) : Fields :=
  let n := w.toNat
  ⟨n / 2 ^ 24 % 2 ^ 7, n / 2 ^ 16 % 2 ^ 8, n / 2 ^ 8 % 2 ^ 8, n % 2 ^ 8, if n / 2 ^ 31 == 1 then some ext else none⟩

/-- The instruction the fields stand for, or none where R58 refuses the word. -/
def decodeFields (f : Fields) : Option Instr :=
  match parse f with
  | some i => if WellFormed i then some i else none
  | none => none

/-- A primary opcode that R55 leaves unassigned. -/
def opcodeAssigned (op : Nat) : Bool :=
  op < 128 && op != 0 && !(0x1D ≤ op && op ≤ 0x1F) && !(0x2E ≤ op && op ≤ 0x2F)

/-- The encoding of a well-formed instruction: its word and its extension word where it has one. -/
def encode (i : Instr) : List Word :=
  let f := encodeFields i
  packWord f :: f.ext.toList

/-- Four bytes in memory order, read as a little-endian word (R6). -/
def wordOfBytes (b0 b1 b2 b3 : Byte) : Word :=
  BitVec.ofNat 32 (b0.toNat + 2 ^ 8 * b1.toNat + 2 ^ 16 * b2.toNat + 2 ^ 24 * b3.toNat)

/-- A word's bytes in memory order (R6). -/
def bytesOfWord (w : Word) : List Byte :=
  [BitVec.ofNat 8 w.toNat, BitVec.ofNat 8 (w.toNat / 2 ^ 8), BitVec.ofNat 8 (w.toNat / 2 ^ 16),
    BitVec.ofNat 8 (w.toNat / 2 ^ 24)]

/-- The instruction at the start of the bytes and its length in bytes: 4, or 8 when X is set (R26). -/
def decode (bs : List Byte) : Except Reject (Instr × Nat) :=
  match bs with
  | b0 :: b1 :: b2 :: b3 :: rest =>
    let w := wordOfBytes b0 b1 b2 b3
    if w.toNat / 2 ^ 31 == 1 then
      match rest with
      | c0 :: c1 :: c2 :: c3 :: _ =>
        match decodeFields (unpackWord w (wordOfBytes c0 c1 c2 c3)) with
        | some i => .ok (i, 8)
        | none => .error (if opcodeAssigned (w.toNat / 2 ^ 24 % 2 ^ 7) then .form else .opcode)
      | _ => .error .short
    else
      match decodeFields (unpackWord w 0) with
      | some i => .ok (i, 4)
      | none => .error (if opcodeAssigned (w.toNat / 2 ^ 24 % 2 ^ 7) then .form else .opcode)
  | _ => .error .short

/-- The bytes an encoding lays out in memory. -/
def encodeBytes (i : Instr) : List Byte := (encode i).flatMap bytesOfWord

/-- The bytes of an instruction whose bits are `w`, numbered from the least significant bit of its first word, the
    bits above `nbits` zero; two words, the longest instruction. -/
def tableBytes (nbits w : Nat) : List Byte :=
  let n := w % 2 ^ nbits
  bytesOfWord (BitVec.ofNat 32 n) ++ bytesOfWord (BitVec.ofNat 32 (n / 2 ^ 32))

/-- The instruction the decoder reads from an instruction whose bits are `w`. -/
def decodeTableWord (nbits w : Nat) : Option Instr :=
  match decode (tableBytes nbits w) with
  | .ok (i, _) => some i
  | .error _ => none

end Sys2Proof
end

