-- ==== Sys2Proof/Machine/Counters.lean ====
section
/-! DEFINITION. The performance counters of a core partition (R387 to R392). -/

namespace Sys2Proof.Machine

/-- The event codes of R389. -/
def evCycles : Nat := 0x01
def evInstr : Nat := 0x02
def evL1Miss : Nat := 0x03
def evMstep : Nat := 0x04
def evL2Hit : Nat := 0x10
def evL2Miss : Nat := 0x11
def evTlbMiss : Nat := 0x12
def evFabb : Nat := 0x20
def evEnergy : Nat := 0x21

/-- The assigned event codes. -/
def evAssigned (e : Nat) : Bool := [0x00, 0x01, 0x02, 0x03, 0x04, 0x10, 0x11, 0x12, 0x20, 0x21].contains e

/-- Events counted in the L2 slices (R390). -/
def evSlice (e : Nat) : Bool := e == evL2Hit || e == evL2Miss || e == evTlbMiss

/-- The fields of a configuration word (R388). -/
def cfgEvent (w : Word) : Nat := w.toNat % 256
def cfgEn (w : Word) : Bool := w.getLsbD 8
def cfgOvie (w : Word) : Bool := w.getLsbD 10
def cfgPend (w : Word) : Bool := w.getLsbD 30

/-- Counter k's configuration word and value, a slice counter's value from its bank (R390). -/
def Part.counter (p : Part) (k : Nat) : Counter :=
  let c := p.counters.getD k ⟨0, 0⟩
  if evSlice (cfgEvent c.config) then ⟨p.bank.getD k 0, c.config⟩ else c

/-- Set counter k, its value where its event says (R390). -/
def Part.setCounter (p : Part) (k : Nat) (c : Counter) : Part :=
  if evSlice (cfgEvent c.config) then
    { p with counters := p.counters.set k ⟨(p.counters.getD k ⟨0, 0⟩).value, c.config⟩, bank := p.bank.set k c.value }
  else { p with counters := p.counters.set k c }

/-- n events added to a value; a wrap sets OVF, and PEND with OVIE (R387, R392). -/
def Counter.add (c : Counter) (n : Nat) : Counter :=
  let v := c.value + n
  let w := if 2 ^ 48 ≤ v then
      c.config ||| 0x80000000#32 ||| (if cfgOvie c.config then 0x40000000#32 else 0#32)
    else c.config
  ⟨v % 2 ^ 48, w⟩

/-- n events of one code counted by every enabled counter of a partition that counts it (R388, R389). -/
def Part.count (p : Part) (ev n : Nat) : Part :=
  (List.range 8).foldl (fun p k =>
    let c := p.counter k
    if cfgEn c.config && cfgEvent c.config == ev then p.setCounter k (c.add n) else p) p

/-- n events counted for the partition of a core and index. -/
def State.count (s : State) (core pidx ev n : Nat) : State := s.updPart core pidx fun p => p.count ev n

/-- n events counted for a virtual function's partition of a core. FABB and ENERGY count only with MGR (R391). -/
def State.countVf (s : State) (core vf ev n : Nat) : State :=
  if (ev == evFabb || ev == evEnergy) && !(s.tenant vf).policy.getLsbD 3 then s
  else
    match s.part? core vf with
    | none => s
    | some p => s.count core p.pidx ev n

end Sys2Proof.Machine
end

