-- ==== Sys2Proof/Machine/Hashes.lean ====
section
/-! DEFINITION. Addresses: the published hashes (R172, R363 to R365), owners (R173) and leaf entries (R175, R367). -/

namespace Sys2Proof.Machine

/-- HomeOf (R172): the controller number before substitution. -/
def homeOf (asid va : Nat) : Nat :=
  let g := bitsOf va 47 21
  (g ^^^ (asid * 2 ^ 15) ^^^ (g / 2 ^ 11)) % 96

/-- IndexHash (R363). -/
def indexHash (asid va : Nat) : Nat :=
  let n := bitsOf va 47 6
  (n ^^^ (n / 2 ^ 13) ^^^ (n / 2 ^ 26) ^^^ (asid * 0x10001)) % 2 ^ 42

/-- CtlOf (R364): the controller of a physical line within its die. -/
def ctlOf (pa : Nat) : Nat :=
  let c := bitsOf pa 36 6
  (c ^^^ (c / 2 ^ 7) ^^^ (c / 2 ^ 14) ^^^ (c / 2 ^ 21)) % 96

/-- BankColour (R364). -/
def bankColour (pa : Nat) : Nat :=
  let f := bitsOf pa 36 16
  (f ^^^ (f / 2 ^ 5) ^^^ (f / 2 ^ 10) ^^^ (f / 2 ^ 15) ^^^ (f / 2 ^ 20)) % 32

/-- The home TLB set of a granule (R365). -/
def tlbSet (asid g : Nat) : Nat := (g ^^^ (g / 2 ^ 7) ^^^ (g / 2 ^ 14) ^^^ asid) % 128

/-- The L1 data set of a line in a range of set groups (R363). -/
def l1Set (asid va lb lc : Nat) : Nat :=
  let h := indexHash asid va
  16 * (lb + (h / 16) % lc) + h % 16

/-- The L1 instruction set of a line (R363). -/
def l1iSet (asid va lb lc : Nat) : Nat :=
  let h := indexHash asid va
  4 * (lb + (h / 4) % lc) + h % 4

/-- The L2 slice and set of a line (R363). -/
def l2Place (asid va gb gc : Nat) : Nat × Nat :=
  let h := indexHash asid va
  (h % 96, 32 * (gb + (h / 3072) % gc) + (h / 96) % 32)

/-! ## Owners and leaves -/

/-- The owner of a physical address (R173); `bad` for a reserved owner or a must-be-zero bit set. -/
def ownerOf (pa : Nat) : Owner :=
  match bitsOf pa 54 53 with
  | 0 => if bitsOf pa 52 39 == 0 then .die (bitsOf pa 38 37) else .bad
  | 1 => .host
  | 2 => if bitsOf pa 52 47 == 0 then .peer (bitsOf pa 46 43) (bitsOf pa 42 39) (bitsOf pa 38 37) else .bad
  | _ => .bad

/-- Coherence classes (R175). -/
def clsUntracked : Nat := 0
def clsUpdate : Nat := 1
def clsStaged : Nat := 2
def clsCommute : Nat := 3

/-- The fields of a leaf entry's 64 bits (R175). -/
def leafOf (w : Nat) : Leaf :=
  { colour := bitsOf w 63 56, frame := bitsOf w 55 17, sgrp := bitsOf w 16 16, srule := bitsOf w 15 13,
    cfmt := bitsOf w 12 9, fmt := bitsOf w 8 8 == 1, place := bitsOf w 7 6, cls := bitsOf w 5 4,
    user := bitsOf w 3 3 == 1, write := bitsOf w 2 2 == 1, exec := bitsOf w 1 1 == 1, valid := bitsOf w 0 0 == 1 }

/-- The bytes a leaf of a level covers (R366). -/
def levelSpan (level : Nat) : Nat := match level with | 1 => 2 ^ 30 | 2 => 2 ^ 21 | _ => 2 ^ 16

/-- The physical address a leaf gives a virtual address. -/
def leafPa (l : Leaf) (level va : Nat) : Nat := l.frame * 65536 + va % levelSpan level

/-- R175, R367: whether a valid leaf is malformed. -/
def leafMalformed (l : Leaf) (level : Nat) : Bool :=
  let o := ownerOf (l.frame * 65536)
  (l.frame * 65536 % levelSpan level != 0) || o == .bad || l.colour == 0
    || (l.sgrp != 0 && l.cls != clsStaged) || 5 ≤ l.srule || (l.srule != 0 && l.cls != clsStaged)
    || (l.cls == clsCommute && 6 ≤ l.cfmt) || (l.cls != clsCommute && l.cfmt != 0)
    || (l.fmt && l.cls == clsCommute) || l.place == 3 || (l.place != 0 && l.cls != clsUntracked)
    || (l.place == 2 && o != .host) || (o == .host && l.place != 2)
    || (l.cls == clsUpdate && (match o with | .die _ => false | _ => true))
    || (l.exec && l.cls != clsUntracked)

/-- The form of a table entry at level 1 or 2 (R366). -/
def isTable (w : Nat) : Bool := bitsOf w 8 8 == 1 && bitsOf w 5 4 == 3

/-- R367: whether a valid table entry at a level is malformed. -/
def tableMalformed (w level : Nat) : Bool :=
  !isTable w || bitsOf w 63 56 != 0 || bitsOf w 7 6 != 0 || bitsOf w 3 1 != 0
    || (level < 2 && bitsOf w 11 9 != 0)

/-- The table a table entry names. -/
def tableNext (w : Nat) : Nat := bitsOf w 55 9 * 512

/-- The cause codes of translation faults (R398). -/
def codePage : Nat := 0x10
def codeViolation : Nat := 0x11
def codeEntry : Nat := 0x12
def codeAlias : Nat := 0x13

/-- The index of a virtual address at a level (R366). -/
def levelIndex (level va : Nat) : Nat :=
  match level with | 0 => bitsOf va 47 39 | 1 => bitsOf va 38 30 | 2 => bitsOf va 29 21 | _ => bitsOf va 20 16

/-- Whether an address lies in the global window (R163). -/
def isGlobal (va : Nat) : Bool := 2 ^ 32 ≤ va && va < 2 ^ 48

/-- The substitute of a controller or slice number. -/
def substOf (m : List (Nat × Nat)) (n : Nat) : Nat := kget n m n

/-- Whether a translated line may stand in an L1 of a die (R174, R372, R177). -/
def Phys.l1Ok (p : Phys) (die : Nat) : Bool :=
  match p.owner with
  | .die d => !p.shared && p.leaf.cls != clsCommute && (p.leaf.cls != clsUpdate || d == die)
  | _ => false

end Sys2Proof.Machine
end

