-- ==== Sys2Proof/Machine/Errors.lean ====
section
/-! DEFINITION. The records of the logs (R420, R421), and errors of stored bits (R415 to R418): units, their events and
retirement, lost lines, and what an access that meets an upset comes to. -/

namespace Sys2Proof.Machine

/-! ## Logs -/

/-- What a record says (R421), but for its sequence number and the tenant's identity. -/
structure LogRec where
  addr : Nat
  iaddr : Nat
  code : Nat
  sub : Nat
  coreid : Nat
  terid : Nat
  die : Nat
  source : Nat
deriving DecidableEq, Repr

/-- The 32 bytes of a record (R421). -/
def State.recordBytes (s : State) (vf : Nat) (r : LogRec) (seq : Nat) : List Byte :=
  natBytes 8 r.addr ++ natBytes 8 r.iaddr ++ natBytes 2 ((s.tenant vf).asid % 4096 + vf * 4096)
    ++ natBytes 1 r.code ++ natBytes 1 r.sub
    ++ natBytes 4 (r.coreid % 1024 + r.terid % 64 * 2 ^ 10 + s.dieCoord r.die * 2 ^ 16 + r.source * 2 ^ 29)
    ++ natBytes 8 seq

/-- Append to the hypervisor's log (R12, R420). -/
def State.logHyper (s : State) (vf : Nat) (r : LogRec) : State :=
  { s with hlog := s.hlog ++ [s.recordBytes vf r s.hlog.length] }

/-! ## Units (R418) -/

/-- A unit's number: its kind times 2^20 and its index in the module. -/
def unitOf (kind index : Nat) : Nat := kind * 2 ^ 20 + index

/-- The kinds of unit. -/
def unitCore (core : Nat) : Nat := unitOf 0 core
def unitSlice (die n : Nat) : Nat := unitOf 1 (die * 96 + n)
def unitCtl (die n : Nat) : Nat := unitOf 2 (die * 96 + n)
def unitBank (die ctl b : Nat) : Nat := unitOf 3 ((die * 96 + ctl) * 32 + b)
def unitCopy (die n : Nat) : Nat := unitOf 4 (die * 8 + n)
def unitAttn (cluster n : Nat) : Nat := unitOf 5 (cluster * 4 + n)
def unitSquare (die : Nat) : Nat := unitOf 6 die
def unitMarket (die b : Nat) : Nat := unitOf 7 (die * 32 + b)

/-- The die a unit stands on. -/
def unitDie (u : Nat) : Nat :=
  let i := u % 2 ^ 20
  match u / 2 ^ 20 with
  | 0 => i / 256 | 1 | 2 => i / 96 | 3 => i / 3072 | 4 => i / 8 | 5 => i / 32 | 6 => i | _ => i / 32

/-- The units among which a unit is the last of its kind (R418). -/
def unitPeers (u : Nat) : List Nat :=
  let i := u % 2 ^ 20
  match u / 2 ^ 20 with
  | 3 => (List.range 32).map fun b => unitOf 3 (i / 32 * 32 + b)
  | 4 => (List.range 8).map fun n => unitOf 4 (i / 8 * 8 + n)
  | 5 => (List.range 4).map fun n => unitOf 5 (i / 4 * 4 + n)
  | _ => []

/-- Whether a unit is out of service. -/
def State.unitOut (s : State) (u : Nat) : Bool := s.retired.contains u || s.harvested.contains u

/-- Whether a lasting error retires the unit (R418): a Square engine or market bank stays; the last copy or attention
    engine of its kind stays; one bank of a controller may go. -/
def State.canRetire (s : State) (u : Nat) : Bool :=
  !s.unitOut u &&
  (match u / 2 ^ 20 with
   | 0 | 1 | 2 => true
   | 3 => (unitPeers u).all fun p => !s.retired.contains p
   | 4 | 5 => (unitPeers u).any fun p => p != u && !s.unitOut p
   | _ => false)

/-- The queue of a copy engine that retires passes, in order, to the other engines of its die; the command it serves stays
    (R418). -/
def State.copyPass (s : State) (u : Nat) : State :=
  let d := unitDie u
  let mine := s.cmds.filter fun c => dieOf c.core == d && unitCopy d c.eng == u
  let cur := mine.find? fun c => c.fault.isNone && (c.next != 0 || c.left.isSome || !c.reads.isEmpty)
  let others := (List.range 8).filter fun n => !s.unitOut (unitCopy d n)
  if others.isEmpty then s
  else { s with
    tick := s.tick + 1
    cmds := s.cmds.map fun c =>
      if dieOf c.core = d ∧ unitCopy d c.eng = u ∧ cur.map (·.id) ≠ some c.id then
        { c with eng := others.getD (Config.choose (s.tick + c.id) % others.length) 0 } else c }

/-- The next engine of a cluster in ascending order that is in service. -/
def State.nextEngine (s : State) (cluster n : Nat) : Nat :=
  (([n + 1, n + 2, n + 3].map (· % 4)).find? fun k => !s.unitOut (unitAttn cluster k)).getD n

/-- The cards of an attention engine that retires pass to the cluster's next engine; the card it runs stays (R418). -/
def State.cardPass (s : State) (u : Nat) : State :=
  let cl := u % 2 ^ 20 / 4
  let eng := u % 4
  let mine := s.jobs.filter fun j => j.cluster == cl && j.cards.any fun c => c.eng == eng
  let cur := mine.find? fun j => mine.all fun x => j.ord ≤ x.ord
  let first := cur.bind fun j => (j.cards.find? fun c => c.eng == eng).map fun c => (j.ord, c.card)
  { s with jobs := s.jobs.map fun j =>
      if j.cluster = cl then
        { j with cards := j.cards.map fun c =>
            if c.eng = eng ∧ first ≠ some (j.ord, c.card) then { c with eng := s.nextEngine cl eng } else c }
      else j }

/-! ## Lost lines (R417) -/

/-- Whether a line of module memory is known to be lost (R417). -/
def State.lostLine (s : State) (pa : Nat) : Bool :=
  match ownerOf pa with
  | .die d => (s.die d).lost.any fun e => e.1 == pa / 64
  | _ => false

/-- Whether any byte of a range is lost. -/
def State.lostRange (s : State) (pa n : Nat) : Bool := (List.range (n / 64 + 2)).any fun i =>
  let a := pa / 64 * 64 + 64 * i
  a < pa + n && s.lostLine a

/-- The controller of a physical address, in the die that owns it. -/
def State.ctlServing (s : State) (d pa : Nat) : Nat := substOf (s.die d).substCtl (ctlOf pa)

/-- The module freezes: every clock of its cores and of its fabric stops, and the power they draw falls to nothing with no
    limit on the fall (R423, R456). -/
def State.freeze (s : State) : State :=
  { s with frozen := true, dies := s.dies.map fun e => (e.1, { e.2 with drawn := 0, filler := 0 }) }

/-- Enter a line of module memory in the lost-line table of its controller; a 65th frame freezes the module. -/
def State.loseLine (s : State) (vf line : Nat) : State :=
  match ownerOf (line * 64) with
  | .die d =>
    let die := s.die d
    let ctl := s.ctlServing d (line * 64)
    let mine := (die.lost.filter fun e => s.ctlServing d (e.1 * 64) == ctl).map fun e => e.1 / 1024
    let frames := mine.eraseDups
    let s1 := s.setDie d { die with lost := (line, []) :: die.lost.filter fun e => e.1 != line }
    if frames.contains (line / 1024) || frames.length < 64 then s1
    else (s1.logHyper vf ⟨line * 64, 0, 0x16, 0, 0, 0, d, 2⟩).freeze
  | _ => s

/-- Remove an upset. -/
def State.dropFlaw (s : State) (f : Flaw) : State := { s with flaws := s.flaws.filter fun g => g != f }

/-! ## Retirement (R418) -/

/-- The lines of a slice leave it for DRAM: a dirty one with an upset is lost (R416). -/
def State.sliceOut (s : State) (d n : Nat) : State :=
  if s.flaws.isEmpty then s
  else (s.die d).l2.foldl (fun s l =>
    if l.slice == n && s.flaws.contains (.l2Line (l.pa / 64)) then
      (let s := s.dropFlaw (.l2Line (l.pa / 64)); if l.dirty then s.loseLine 0 (l.pa / 64) else s)
    else s) s

/-- The record of a unit in the hypervisor's log (R418). -/
def State.logUnit (s : State) (u sub : Nat) : State :=
  s.logHyper 0 ⟨0, 0, 0x47, sub, (if u / 2 ^ 20 == 0 then u else 0), 0, unitDie u, 4⟩

/-- The slice or controller that is to serve for one of its die that retires: another one in service (R172, R418); none where
    there is none. -/
def State.server (s : State) (u : Nat) : Option Nat :=
  let d := unitDie u
  let kind := if u / 2 ^ 20 == 1 then unitSlice d else unitCtl d
  let ns := (List.range 96).filter fun n => !s.unitOut (kind n)
  ns[Config.substitute u % max 1 ns.length]?

/-- A table of substitutes once unit n retires, `sub` serving for it and for every unit that n served for. -/
def resubst (m : List (Nat × Nat)) (n sub : Nat) : List (Nat × Nat) :=
  (List.range 96).foldl (fun m k => if substOf m k == n then kset k m k sub else m) m

/-- Retire a unit (R418): it is recorded, a slice's or controller's number passes to its substitute, with those it served for,
    and a slice writes its dirty lines to DRAM. -/
def State.retire1 (s : State) (u : Nat) : State :=
  let d := unitDie u
  let n := u % 2 ^ 20 % 96
  let s := { s with retired := s.retired ++ [u] }.logUnit u 0
  let s := if u / 2 ^ 20 == 1 then s.sliceOut d n else s
  let die := s.die d
  let sub := (s.server u).getD n
  match u / 2 ^ 20 with
  | 1 => s.setDie d { die with substSlice := resubst die.substSlice n sub, l2 := die.l2.filter fun l => l.slice != n }
  | 2 => s.setDie d { die with substCtl := resubst die.substCtl n sub, tlb := die.tlb.filter fun e => e.ctl != n }
  | 4 => s.copyPass u
  | 5 => s.cardPass u
  | _ => s

/-- Count an error event against a unit; five within 64 ms make it lasting, and one that does not retire then is reported
    (R418), as a record whose SUB is 1 (DESIGN CHOICE, log entry 50). -/
def State.unitEvent (s : State) (u : Nat) : State :=
  let now := (s.die (unitDie u)).samples
  let evs := now :: (kget [] s.unitErrs u).filter fun t => now - t ≤ 6400
  let s1 := { s with unitErrs := kset [] s.unitErrs u evs }
  if evs.length < 5 || s1.unitOut u then s1
  else if s1.canRetire u then s1.retire1 u
  else if evs.length == 5 then s1.logUnit u 1
  else s1

/-- The lines of a range. -/
def linesOf (pa n : Nat) : List Nat := (List.range (n / 64 + 2)).filterMap fun i =>
  let l := pa / 64 + i
  if l * 64 < pa + n then some l else none

/-- The DRAM bank of a physical address, as a unit. -/
def State.bankUnit (s : State) (d pa : Nat) : Nat := unitBank d (s.ctlServing d pa) (bankColour pa)

/-- An upset in an L2 line: a clean line is discarded and fetched again, a dirty one is lost (R416). -/
def State.meetL2 (s : State) (vf line : Nat) : State :=
  if s.flaws.contains (.l2Line line) then
    match ownerOf (line * 64) with
    | .die d =>
      let die := s.die d
      let s1 := (s.dropFlaw (.l2Line line)).setDie d { die with l2 := die.l2.filter fun x => x.pa / 64 != line }
      (match die.l2.find? fun x => x.pa / 64 == line with
       | none => s1
       | some x => (if x.dirty then s1.loseLine vf line else s1).unitEvent (unitSlice d x.slice))
    | _ => s
  else s

/-- Lines leave the L2: an upset in one is found, and a dirty one is then lost (R416). -/
def State.l2Leave (s : State) (vf : Nat) (ls : List L2Line) : State :=
  if s.flaws.isEmpty then s
  else ls.foldl (fun s l => s.meetL2 vf (l.pa / 64)) s

/-- A read of a range of module memory at its point of coherence: the lines of it with an uncorrectable error become
    lost; the answer is whether the access receives the uncorrectable error response (R416, R417). -/
def State.meetMem (s : State) (vf pa n : Nat) : State × Bool :=
  let s1 := if s.flaws.isEmpty then s else (linesOf pa n).foldl (fun s l =>
    let s := s.meetL2 vf l
    if s.flaws.contains (.memLine l) then
      (match ownerOf (l * 64) with
       | .die d => ((s.dropFlaw (.memLine l)).loseLine vf l).unitEvent (s.bankUnit d (l * 64))
       | _ => s)
    else s) s
  (s1, s1.lostRange pa n)

/-- A read of bytes of an on-chip window: whether one of them is unreadable (R416). -/
def State.meetChip (s : State) (x n : Nat) : Bool :=
  s.flaws.any fun f => match f with | .chip y => x ≤ y && y < x + n | _ => false

/-- A write of bytes of an on-chip window makes them readable again (R416). -/
def State.healChip (s : State) (x n : Nat) : State :=
  { s with flaws := s.flaws.filter fun f => match f with | .chip y => !(x ≤ y && y < x + n) | _ => true }

/-- A read of a register word through its window. -/
def State.meetReg (s : State) (ter loc n : Nat) : Bool :=
  s.flaws.any fun f => match f with
    | .reg t r l => t == ter && loc / 4 ≤ r * 32 + l && r * 32 + l ≤ (loc + n - 1) / 4
    | _ => false

/-- The single errors a completed read met are corrected and counted (R415): those of the units it used. -/
def State.correct (s : State) (units : List Nat) : State :=
  s.flaws.foldl (fun s f => match f with
    | .single u => if units.contains u then (s.dropFlaw f).unitEvent u else s
    | _ => s) s

/-- An uncorrectable error in an L1 copy: the copy is discarded and fetched again, counted as corrected (R416). -/
def State.meetL1 (s : State) (core pidx line : Nat) : State :=
  if s.flaws.contains (.l1Line core pidx line) then
    ((s.dropFlaw (.l1Line core pidx line)).updPart core pidx fun p =>
      { p with lines := p.lines.filter fun l => l.pa / 64 != line }).unitEvent (unitCore core)
  else s

/-- An uncorrectable error in an instruction line: the same. -/
def State.meetInstr (s : State) (core pidx line : Nat) : State :=
  if s.flaws.contains (.instrLine core pidx line) then
    ((s.dropFlaw (.instrLine core pidx line)).updPart core pidx fun p =>
      { p with ilines := p.ilines.filter fun l => l.line != line }).unitEvent (unitCore core)
  else s

end Sys2Proof.Machine
end

