-- ==== Sys2Proof/Machine/Translate.lean ====
section
/-! DEFINITION. The translation home: the walk of a tenant's tables, the home TLB, and the checks it makes (R365 to
R372). -/

namespace Sys2Proof.Machine

/-- The colour of the frame that holds a physical address of this module (R368); 0 elsewhere. -/
def State.frameColour (s : State) (pa : Nat) : Nat :=
  match ownerOf pa with
  | .die d => kget 0 (s.die d).frames (bitsOf pa 36 16)
  | _ => 0

/-- The mask of virtual functions a colour admits (R368). -/
def State.colourMask (s : State) (c : Nat) : Nat := if c == 0 then 0 else kget 0 s.colours c

/-- Whether a colour's mask holds a virtual function. -/
def State.colourHolds (s : State) (c vf : Nat) : Bool := (s.colourMask c).testBit vf

/-- Whether a colour is shared (R368). -/
def State.colourShared (s : State) (c : Nat) : Bool :=
  let m := s.colourMask c
  1 < ((List.range 16).filter fun i => m.testBit i).length

/-- A finished walk: the leaf's level, its 64 bits and the table it stands in. -/
structure WalkEnd where
  level : Nat
  word : Nat
  table : Nat
deriving DecidableEq, Repr

/-- Why a walk failed: its cause code, and whether what failed is the VALID bit of a leaf (step 3 of R369). -/
structure WalkErr where
  code : Nat
  leaf : Bool
deriving DecidableEq, Repr

/-- Whether a frame lies in the egress spill area that the configuration record has set aside on its die, which no tenant
    reaches (R412, R460). -/
def State.inSpillArea (s : State) (d pa : Nat) : Bool :=
  let x := s.die d
  2 ≤ x.boot && x.spillBase ≤ pa && pa < x.spillBase + 2 ^ 24

/-- Whether this module's tables let a virtual function reach a frame by its physical address: the frame's colour admits it
    (R369), and the frame lies in no egress spill area (R412). -/
def State.admits (s : State) (vf pa : Nat) : Bool :=
  (match ownerOf pa with | .die d => !s.inSpillArea d pa | _ => false) && s.colourHolds (s.frameColour pa) vf

/-- The walk of R366 with steps 1 to 4 of R369, from a level downward. A table in an egress spill area is
    out of a tenant's reach (R412) and answers as one whose colour is not the tenant's does. An entry on a lost line gives the uncorrectable
    error response (R417). -/
def State.walkFrom (s : State) (vf va : Nat) : Nat → Nat → Nat → State × Except WalkErr WalkEnd
  | 0, _, _ => (s, .error ⟨codeEntry, false⟩)
  | fuel + 1, level, table =>
    let x := table + 8 * levelIndex level va
    let m := s.meetMem vf x 8
    let s := m.1
    let w := s.rdNat x 8
    let isT := level == 0 || (level < 3 && isTable w)
    if m.2 then (s, .error ⟨0x16, false⟩)
    else if w % 2 == 0 then (s, .error ⟨codePage, !isT⟩)
    else if isT then
      if tableMalformed w level then (s, .error ⟨codeEntry, false⟩)
      else if !s.admits vf table then (s, .error ⟨codeViolation, false⟩)
      else s.walkFrom vf va fuel (level + 1) (tableNext w)
    else if !s.admits vf table then (s, .error ⟨codeViolation, false⟩)
    else if leafMalformed (leafOf w) level then (s, .error ⟨codeEntry, false⟩)
    else (s, .ok ⟨level, w, table⟩)

/-- The walk of a virtual function's tables (R366). A root that is not 4 KiB aligned ends every walk (R379). -/
def State.walk (s : State) (vf va : Nat) : State × Except WalkErr WalkEnd :=
  let root := (s.tenant vf).ptroot.toNat
  if root % 4096 != 0 then (s, .error ⟨codeEntry, false⟩) else s.walkFrom vf va 4 0 root

/-! ## The home TLB (R365, R370) -/

/-- The controller that serves an address's home on a die (R172). -/
def State.homeCtl (s : State) (die asid va : Nat) : Nat := substOf (s.die die).substCtl (homeOf asid va)

/-- The home TLB's entry for an address. -/
def State.tlbFind (s : State) (die asid va : Nat) : Option TlbEntry :=
  let c := s.homeCtl die asid va
  (s.die die).tlb.find? fun e => e.ctl == c && e.asid == asid && e.granule == bitsOf va 47 21

/-- The leaf an entry gives an address; an invalid leaf of a level-3 entry is read again from its table (R370). The last
    part says whether the entry itself gave it. -/
def State.tlbLeaf (s : State) (vf : Nat) (e : TlbEntry) (va : Nat) : State × Except WalkErr WalkEnd × Bool :=
  if e.form == 3 then
    let i := levelIndex 3 va
    let w0 := (e.words.getD i 0).toNat
    let again := w0 % 2 == 0
    let m := if again then s.meetMem vf (e.table + 8 * i) 8 else (s, false)
    let w := if again then m.1.rdNat (e.table + 8 * i) 8 else w0
    (m.1, if m.2 then .error ⟨0x16, false⟩
      else if w % 2 == 0 then .error ⟨codePage, true⟩
      else if leafMalformed (leafOf w) 3 then .error ⟨codeEntry, false⟩
      else .ok ⟨3, w, e.table⟩, !again)
  else (s, .ok ⟨e.form, (e.words.headD 0).toNat, e.table⟩, true)

/-- The number of home TLB ways a virtual function holds on a die. -/
def State.tlbWays (s : State) (die vf : Nat) : Nat :=
  let m := kget 0 (s.die die).ways vf
  ((List.range 16).filter fun i => m.testBit i).length

/-- Place an entry as the most recently used; the least recently used beyond the function's ways leaves (R365). -/
def State.tlbInsert (s : State) (die vf : Nat) (e : TlbEntry) : State :=
  let d := s.die die
  let same := fun (x : TlbEntry) => x.ctl == e.ctl && x.asid == e.asid && tlbSet x.asid x.granule == tlbSet e.asid e.granule
  let rest := d.tlb.filter fun x => !(same x && x.granule == e.granule)
  let keep := (rest.filter same).take (s.tlbWays die vf - 1)
  if s.tlbWays die vf == 0 then s
  else s.setDie die { d with tlb := e :: (keep ++ rest.filter fun x => !same x) }

/-- The TLB entry of a finished walk (R365). A word of a level-3 table that cannot be read stands as an invalid leaf, which
    is read again at its access. -/
def State.tlbOfWalk (s : State) (die asid va : Nat) (w : WalkEnd) : TlbEntry :=
  { ctl := s.homeCtl die asid va, asid := asid, granule := bitsOf va 47 21, form := w.level,
    words := if w.level == 3 then (List.range 32).map fun i =>
               let x := w.table + 8 * i
               if s.lostLine x || s.flaws.contains (.memLine (x / 64)) then 0 else BitVec.ofNat 64 (s.rdNat x 8)
             else [BitVec.ofNat 64 w.word],
    table := w.table, reached := 0 }

/-- An upset in a home TLB entry: the entry is discarded and fetched again, counted as corrected (R416). -/
def State.meetTlb (s : State) (die asid va : Nat) : State :=
  match s.tlbFind die asid va with
  | none => s
  | some e =>
    let f := Flaw.tlb die e.ctl e.asid e.granule
    if s.flaws.contains f then
      let d := s.die die
      ((s.dropFlaw f).setDie die { d with tlb := d.tlb.filter fun x =>
        !(x.ctl == e.ctl && x.asid == e.asid && x.granule == e.granule) }).unitEvent (unitCtl die e.ctl)
    else s

/-! ## The checks of an access (R369) -/

/-- What an access wants of a page. -/
structure Want where
  write : Bool
  exec : Bool
  sup : Bool
deriving DecidableEq, Repr

/-- Step 8 of R369 (R175, R193). -/
def Want.allows (w : Want) (l : Leaf) : Bool := (w.sup || l.user) && (!w.write || l.write) && (!w.exec || l.exec)

/-- Steps 5 to 8 of R369, and R372's rule on the class of a shared frame. -/
def State.checkLeaf (s : State) (vf : Nat) (w : Want) (l : Leaf) (pa : Nat) : Option Nat :=
  let o := ownerOf pa
  let pol := (s.tenant vf).policy
  if !s.colourHolds l.colour vf then some codeViolation
  else if (o == .host && !pol.getLsbD 2) || ((match o with | .peer .. => true | _ => false) && !pol.getLsbD 1) then
    some codeViolation
  else if (match o with | .die d => s.frameColour pa != l.colour || s.inSpillArea d pa | _ => false) then some codeViolation
  else if !w.allows l then some codeViolation
  else if s.colourShared l.colour && l.cls != clsUntracked then some codeViolation
  else none

/-- The mapping record of a 64 KiB piece (R371). -/
def State.record (s : State) (pa : Nat) : Option (Nat × Nat × Nat) :=
  match ownerOf pa with
  | .die d => kget none (s.die d).records (bitsOf pa 36 16)
  | _ => none

/-- Write a piece's mapping record. -/
def State.setRecord (s : State) (pa : Nat) (r : Nat × Nat × Nat) : State :=
  match ownerOf pa with
  | .die d =>
    let x := s.die d
    s.setDie d { x with records := kset none x.records (bitsOf pa 36 16) (some r) }
  | _ => s

/-- The synonym check of R371, made where a walk reaches a piece: the alias error, or none where the access proceeds. -/
def State.synonym (s : State) (vf asid va pa : Nat) : State × Option Nat :=
  match s.record pa with
  | none => (s, none)
  | some r =>
    if r == (vf, asid, va / 65536) then (s, none)
    else
      match s.walk r.1 (r.2.2 * 65536) with
      | (s1, .ok w) =>
        (s1, if leafPa (leafOf w.word) w.level (r.2.2 * 65536) / 65536 == pa / 65536 then some codeAlias else none)
      | (s1, .error e) => (s1, if e.code == 0x16 then some 0x16 else none)

/-- A translation that is allowed, with what the home will keep of it: the TLB entry, and whether the piece's record is
    written. -/
structure Reach where
  ph : Phys
  tlb : Option TlbEntry
  record : Bool
deriving DecidableEq, Repr

/-- Look an access up at its translation home (R369 to R372): the translation, or the cause code of the failure. The state
    after it has the TLB miss counted for the owner's partition (R389) and the upsets that were met noted; an access
    refused so changes no entry and no record (R381). -/
def State.look (s : State) (vf die : Nat) (owner : Option Nat) (w : Want) (va : Nat) : State × Except WalkErr Reach :=
  let asid := (s.tenant vf).asid
  let s := s.meetTlb die asid va
  let hit := s.tlbFind die asid va
  let found := match hit with
    | some e => s.tlbLeaf vf e va
    | none => let r := s.walk vf va; (r.1, r.2, false)
  let s1 := match hit, owner with | none, some core => found.1.countVf core vf evTlbMiss 1 | _, _ => found.1
  match found.2.1 with
  | .error c => (s1, .error c)
  | .ok wk =>
    let l := leafOf wk.word
    let pa := leafPa l wk.level va
    match s1.checkLeaf vf w l pa with
    | some c => (s1, .error ⟨c, false⟩)
    | none =>
      let shared := s1.colourShared l.colour
      let i := levelIndex 3 va
      let e := match hit with | some e => e | none => s1.tlbOfWalk die asid va wk
      let known := found.2.2 && e.reached.getLsbD i
      let out := shared || (match ownerOf pa with | .die _ => false | _ => true)
      let syn := if out || known then (s1, none) else s1.synonym vf asid va pa
      match syn.2 with
      | some c => (syn.1, .error ⟨c, false⟩)
      | none =>
        (syn.1, .ok ⟨⟨pa, l, ownerOf pa, shared⟩, some { e with reached := e.reached ||| (1#32 <<< i) }, !out && !known⟩)

/-- The home keeps an allowed translation: its TLB entry is the most recently used, and the piece's record is written. -/
def State.enter (s : State) (vf die va : Nat) (r : Reach) : State :=
  let s1 := if r.record then s.setRecord r.ph.pa (vf, (s.tenant vf).asid, va / 65536) else s
  match r.tlb with
  | some e => s1.tlbInsert die vf e
  | none => s1

/-- Translate a global address for an access from a die (R369 to R372): the state after it and the translation, or
    the cause code of the failure. -/
def State.translate (s : State) (vf die : Nat) (owner : Option Nat) (w : Want) (va : Nat) : State × Except Nat Phys :=
  match s.look vf die owner w va with
  | (s1, .error e) => (s1, .error e.code)
  | (s1, .ok r) => (s1.enter vf die va r, .ok r.ph)

/-- A translation that a peer's answer has borne out enters the home TLB (R381). -/
def State.borneOut (s : State) (vf die va : Nat) : State :=
  match s.look vf die none ⟨false, false, true⟩ va with
  | (s1, .ok r) => s1.enter vf die va r
  | (_, .error _) => s

/-- Whether an address's page fault is that of a leaf (step 3 of R369). -/
def State.leafAbsent (s : State) (vf die va : Nat) : Bool :=
  match (s.look vf die none ⟨false, false, true⟩ va).2 with
  | .error e => e.code == codePage && e.leaf
  | .ok _ => false

end Sys2Proof.Machine
end

