-- ==== Sys2Proof/Machine/Poc.lean ====
section
/-! DEFINITION. Points of coherence (R170, R174): where the bytes of memory and of the on-chip stores stand, and the
reads and writes made there. -/

namespace Sys2Proof.Machine

/-- The location of byte o of a team's scratchpad allocation (R164). -/
def scratchLoc (team o : Nat) : Nat := 2 ^ 60 + team * 2 ^ 20 + o

/-- The location of byte o of a lane's private slice (R165). -/
def privLoc (ter lane o : Nat) : Nat := 2 ^ 100 + (ter * 32 + lane) * 2 ^ 13 + o

/-- The location of a byte of a die's market (R169): bank × 2 MiB + offset. -/
def marketLoc (die o : Nat) : Nat := 2 ^ 56 + die * 2 ^ 26 + o

/-- A write's effect on the lost-line table: a line written in full since its loss leaves it (R417). -/
def State.lostWrite (s : State) (x n : Nat) : State :=
  match ownerOf x with
  | .die d =>
    let y := s.die d
    if y.lost.isEmpty then s
    else
      let upd := y.lost.map fun e =>
        (e.1, e.2 ++ (((List.range n).map fun i => x + i).filter fun a => a / 64 == e.1 && !e.2.contains (a % 64)).map (· % 64))
      s.setDie d { y with lost := upd.filter fun e => e.2.length < 64 }
  | _ => s

/-- A store by any agent to bytes of an overflow area in use changes the entry that lies there, which then fails its
    check (R247). -/
def State.spoil (s : State) (pa n : Nat) : State :=
  if s.staged.any fun e => match e.spill with | some (x, _) => x < pa + n && pa < x + 128 | none => false then
    { s with staged := s.staged.map fun e => match e.spill with
        | some (x, _) => if x < pa + n && pa < x + 128 then { e with good := false } else e
        | none => e }
  else s

/-- Replace bytes of a line's copy from an address on. -/
def patchBytes (bytes : List Byte) (off : Nat) (new : List Byte) : List Byte :=
  bytes.zipIdx.map fun (b, i) => if off ≤ i && i < off + new.length then new.getD (i - off) b else b

/-- Apply a write at a physical address to a copy of its line. -/
def Line.patch (l : Line) (pa : Nat) (new : List Byte) : Line :=
  if l.pa / 64 == pa / 64 then { l with bytes := patchBytes l.bytes (pa % 64) new } else l

/-- A line that stands in the L2 of its owner holds bytes that DRAM does not, once it is written (R174, R416). -/
def State.l2Dirty (s : State) (pa : Nat) : State :=
  match ownerOf pa with
  | .die d =>
    let x := s.die d
    if x.l2.any fun l => l.pa / 64 == pa / 64 && !l.dirty then
      s.setDie d { x with l2 := x.l2.map fun l => if l.pa / 64 == pa / 64 then { l with dirty := true } else l }
    else s
  | _ => s

/-- A sharer applies the writes to its line that it still owes, in their order. -/
def Line.apply (l : Line) : Line := { l.due.foldl (fun l d => l.patch d.2.1 d.2.2) l with due := [] }

/-- A write at a point of coherence, and what each sharer of its UPDATE line does to its copy, by its partition (R177). -/
def State.pocShare (s : State) (pa : Nat) (bs : List Byte) (f : Part → Line → Line) : State :=
  let s1 := (((s.wrBytes pa bs).lostWrite pa bs.length).spoil pa bs.length).l2Dirty pa
  let mine := fun (l : Line) => l.leaf.cls == clsUpdate && l.pa / 64 == pa / 64
  { s1 with parts := s1.parts.map fun p =>
      if p.lines.any mine then { p with lines := p.lines.map fun l => if mine l then f p l else l } else p }

/-- A write of a range inside one line, at its point of coherence: the bytes are stored, and the recorded sharers of
    an UPDATE line apply them before it is acknowledged (R177). -/
def State.pocWrite (s : State) (pa : Nat) (bs : List Byte) : State := s.pocShare pa bs fun _ l => l.apply.patch pa bs

/-- The same of a core's store whose acknowledgement is still to come: the sharers of other cores have yet to apply it. -/
def State.pocSend (s : State) (core id pa : Nat) (bs : List Byte) : State :=
  s.pocShare pa bs fun p l => if p.core == core then l.apply.patch pa bs else { l with due := l.due ++ [(id, pa, bs)] }

/-- The bytes of a range that may pass from one line to the next, written line by line. -/
def State.pocPut (s : State) (pa : Nat) (bs : List Byte) : State :=
  (linesOf pa bs.length).foldl (fun s l =>
    let lo := max pa (l * 64)
    s.pocWrite lo ((bs.drop (lo - pa)).take (l * 64 + 64 - lo))) s

/-- A number written at a point of coherence. -/
def State.pocWriteNat (s : State) (pa n v : Nat) : State := s.pocWrite pa (natBytes n v)

/-! ## Alleys (R307, R308) -/

/-- An alley's header as it stands in memory. A sender record is its 32-bit word. -/
structure Alley where
  cap : Nat
  head : Nat
  tail : Nat
  next : Nat
  snd : List Nat
  unallot : Nat
deriving DecidableEq, Repr

/-- Write an alley's header back, as one update. -/
def State.setAlley (s : State) (x : Nat) (a : Alley) : State :=
  let s := (((s.wrNat x 4 a.cap).wrNat (x + 4) 4 a.head).wrNat (x + 8) 4 a.tail).wrNat (x + 12) 4 a.next
  (a.snd.zipIdx.foldl (fun s e => s.wrNat (x + 16 + 4 * e.2) 4 e.1) s).wrNat (x + 48) 4 a.unallot

/-- The fields of a sender record (R307). -/
def sndAllow (w : Nat) : Nat := w / 65536
def sndUsed (w : Nat) : Bool := bitsOf w 15 15 == 1
def sndCore (w : Nat) : Nat := bitsOf w 10 6
def sndTer (w : Nat) : Nat := bitsOf w 5 0

/-- A sender record. -/
def mkSnd (allow core ter : Nat) : Nat := allow * 65536 + 32768 + core * 64 + ter

/-- Whether an update may use the alley: CAP in range and no reserved bit of a record set (R308). -/
def Alley.ok (a : Alley) : Bool := 1 ≤ a.cap && a.cap ≤ 1024 && a.snd.all fun w => bitsOf w 14 11 == 0

/-- The first record in use at an index or above, wrapping (R308). -/
def Alley.nextUsed (a : Alley) : Option Nat :=
  ((List.range 8).map fun i => (a.next + i) % 8).find? fun i => sndUsed (a.snd.getD i 0)

/-- Allot free entries one at a time (R308). -/
def Alley.allot : Nat → Alley → Alley
  | 0, a => a
  | fuel + 1, a =>
    if a.unallot == 0 then a
    else match a.nextUsed with
      | none => a
      | some i =>
        Alley.allot fuel { a with unallot := a.unallot - 1, next := (i + 1) % 8,
                                  snd := a.snd.set i (a.snd.getD i 0 + 65536) }

/-- Allot every free entry. -/
def Alley.settle (a : Alley) : Alley := a.allot a.unallot

/-- An alley's header at a location, as its bytes give it. -/
def State.alleyBytes (s : State) (x : Nat) : Alley :=
  { cap := s.rdNat x 4, head := s.rdNat (x + 4) 4, tail := s.rdNat (x + 8) 4, next := s.rdNat (x + 12) 4,
    snd := (List.range 8).map fun i => s.rdNat (x + 16 + 4 * i) 4, unallot := s.rdNat (x + 48) 4 }

/-- An alley at a location as its next update finds it: entries that stand free beside a record in use, as an ordinary store
    may leave them, are allotted (R308). -/
def State.alley (s : State) (x : Nat) : Alley := (s.alleyBytes x).settle

/-- The record of a sender. -/
def Alley.record (a : Alley) (core ter : Nat) : Option Nat :=
  (List.range 8).find? fun i =>
    let w := a.snd.getD i 0
    sndUsed w && sndCore w == core && sndTer w == ter

/-- A sender closes: its allowance returns and its record is cleared (R308). -/
def Alley.close (a : Alley) (core ter : Nat) : Alley :=
  match a.record core ter with
  | none => a
  | some i => Alley.settle { a with unallot := a.unallot + sndAllow (a.snd.getD i 0), snd := a.snd.set i 0 }

/-- A pop: the handle at HEAD, which leaves the alley with the freed entry allotted (R309). -/
def State.alleyPop (s : State) (x : Nat) : Word × State :=
  let a := s.alley x
  let h := s.rdNat (x + 64 + 4 * (a.head % a.cap)) 4
  (BitVec.ofNat 32 h,
    s.setAlley x (Alley.settle { a with head := (a.head + 1) % 2 ^ 32, unallot := a.unallot + 1 }))

/-- A push on a sender's allowance (R310). -/
def State.alleyPush (s : State) (x rec : Nat) (h : Word) : State :=
  let a := s.alley x
  (s.wrNat (x + 64 + 4 * (a.tail % a.cap)) 4 h.toNat).setAlley x
    { a with tail := (a.tail + 1) % 2 ^ 32, snd := a.snd.set rec (a.snd.getD rec 0 - 65536) }

/-! ## Barrier objects (R260 to R262) -/

/-- An arrival at the barrier object at a location: the phase before it, and the state after it. An arrival with error
    sets ERR and counts in NERR (R261). -/
def State.barArrive (s : State) (x : Nat) (err : Bool) : Nat × State :=
  let ph := s.rdNat (x + 8) 4
  let n := (s.rdNat (x + 4) 4 + 1) % 2 ^ 32
  let s1 := if n == s.rdNat x 4 then (s.wrNat (x + 4) 4 0).wrNat (x + 8) 4 ((ph + 1) % 2 ^ 32) else s.wrNat (x + 4) 4 n
  let st := s.rdNat (x + 12) 4
  (ph, if err then s1.wrNat (x + 12) 4 (2 ^ 31 + st / 2 ^ 16 % 2 ^ 15 * 2 ^ 16 + min (st % 2 ^ 16 + 1) 0xFFFF) else s1)

/-! ## Accumulator slots (R125) -/

/-- The key of element (i, j) of a slot, given as core × 4 + slot. -/
def accKey (slot i j : Nat) : Nat := (slot * 128 + i) * 128 + j

/-- An element's bits. -/
def State.accGet (s : State) (slot i j : Nat) : Word := kget 0 s.acc (accKey slot i j)

/-- Write an element. -/
def State.accPut (s : State) (slot i j : Nat) (w : Word) : State := { s with acc := kset 0 s.acc (accKey slot i j) w }

/-- n bytes of a slot from a byte offset (a multiple of 4). -/
def State.accBytes (s : State) (slot off n : Nat) : List Byte :=
  (List.range (n / 4)).flatMap fun k => natBytes 4 (s.accGet slot ((off / 4 + k) / 128) ((off / 4 + k) % 128)).toNat

/-- Write bytes of a slot from a byte offset. -/
def State.accWrite (s : State) (slot off : Nat) (bs : List Byte) : State :=
  (List.range (bs.length / 4)).foldl (fun s k =>
    s.accPut slot ((off / 4 + k) / 128) ((off / 4 + k) % 128) (BitVec.ofNat 32 (bytesNat ((bs.drop (4 * k)).take 4)))) s

end Sys2Proof.Machine
end

