-- ==== Sys2Proof/Machine/Life.lean ====
section
/-! DEFINITION. Lanes, splits, terraces and teams that end (R119, R299, R305), and the records of the logs (R420,
R421). -/

namespace Sys2Proof.Machine

/-! ## Logs -/

/-- The physical address of a tenant's log byte, where the device may write it (R420): an UNTRACKED or UPDATE page of
    module memory with WRITE set. -/
def State.logByte (s : State) (vf die va : Nat) : Option Nat :=
  if !isGlobal va then none
  else
    match (s.translate vf die none ⟨true, false, true⟩ va).2 with
    | .ok p =>
      (match p.owner with
       | .die _ => if p.leaf.cls == clsUntracked || p.leaf.cls == clsUpdate then some p.pa else none
       | _ => none)
    | .error _ => none

/-- The physical addresses of n bytes of a log, where every one may be written. -/
def State.logRange (s : State) (vf die va n : Nat) : Option Nat :=
  match s.logByte vf die va, s.logByte vf die (va + n - 1) with
  | some a, some _ => some a
  | _, _ => none

/-- Write a record to a tenant's log at a virtual base (R420). The answer is its SEQ; none says it was dropped, and DROP
    is counted where it can be. -/
def State.logAt (s : State) (vf die base : Nat) (r : LogRec) : State × Option Nat :=
  if base == 0 || base % 64 != 0 then (s, none)
  else
    match s.logRange vf die base 64 with
    | none => (s, none)
    | some h =>
      let m := s.meetMem vf h 64
      let s := m.1
      let seq := s.rdNat h 8
      let cap := s.rdNat (h + 8) 4
      let drop := s.rdNat (h + 12) 4
      let dropped := (s.pocWriteNat (h + 12) 4 (min (drop + 1) (2 ^ 32 - 1)), none)
      -- the lost header is the device's own read: its record stands in the hypervisor's log, the tenant's log being lost
      if m.2 then (s.logHyper vf ⟨base, 0, 0x16, 0, 0, 0, die, 4⟩, none)
      else if cap == 0 || (s.rdBytes (h + 16) 48).any (· != 0) then dropped
      else
        match s.logRange vf die (base + 64 + 32 * (seq % cap)) 32 with
        | none => dropped
        | some a => ((s.pocWrite a (s.recordBytes vf r seq)).pocWriteNat h 8 ((seq + 1) % 2 ^ 64), some seq)

/-- Log a record: a violation to SY_VLOG, anything else to SY_ELOG; `both` and a record its log could not take go to
    the hypervisor's log as well (R12, R381, R420). -/
def State.logRec (s : State) (vf : Nat) (both : Bool) (r : LogRec) : State × Option Nat :=
  let t := s.tenant vf
  let res := s.logAt vf r.die (if r.code == 0x11 then t.vlog else t.elog).toNat r
  (if both || res.2.isNone then res.1.logHyper vf r else res.1, res.2)

/-- The virtual function of an ASID. -/
def State.vfOfAsid (s : State) (asid : Nat) : Nat := ((List.range 16).find? fun v => (s.tenant v).asid == asid).getD 0

/-- A line of memory that has been lost and whose error no access of the step has received (R416, R422): the record names
    the tenant and the address of its mapping record, and stands in the hypervisor's log alone where there is none. -/
def State.noteLost (s : State) (pa : Nat) : State :=
  match ownerOf pa with
  | .die d =>
    (match s.record pa with
     | some r => (s.logRec r.1 true ⟨r.2.2 * 65536 + pa % 65536, 0, 0x42, 0, 0, 0, d, 2⟩).1
     | none => s.logHyper 0 ⟨0, 0, 0x42, 0, 0, 0, d, 2⟩)
  | _ => s

/-- The record of an uncorrectable error that a step met and no access received (R416, R422), as its place stood in `s0`; one
    that an access did receive has that access's record, and one that a program's own entry describes another. -/
def State.noteFlaw (s0 : State) (told : Bool) (s : State) (f : Flaw) : State :=
  let note := fun (vf va core die source : Nat) => (s.logRec vf true ⟨va, 0, 0x42, 0, core, 0, die, source⟩).1
  match f with
  | .l1Line core pidx line =>
    (match (s0.partAt? core pidx).bind fun p => (p.lines.find? fun l => l.pa / 64 == line).map fun l => (p.vf, l.line * 64) with
     | some x => note x.1 x.2 core (dieOf core) 0
     | none => s)
  | .instrLine core pidx line =>
    (match s0.partAt? core pidx with
     | some p => note p.vf (line * 64) core (dieOf core) 0
     | none => s)
  | .tlb die _ asid granule => note (s0.vfOfAsid asid) (granule * 2 ^ 21) 0 die 2
  | .l2Line line =>
    (match ownerOf (line * 64) with
     | .die d => (match (s0.die d).l2.find? fun x => x.pa / 64 == line with
        | some x => if x.dirty then (if told then s else s.noteLost (line * 64)) else note (s0.vfOfAsid x.asid) (x.line * 64) 0 d 2
        | none => s)
     | _ => s)
  | .nearLine _ _ line | .memLine line => if told then s else s.noteLost (line * 64)
  | .part _ pa => if told then s else s.noteLost pa
  | _ => s

/-- The records of the uncorrectable errors that a step from `s0` has met and has not reported otherwise (R416, R422). -/
def State.noted (s s0 : State) : State :=
  if s0.flaws.isEmpty || s.frozen then s
  else
    let told := (s.hlog.drop s0.hlog.length).any fun r => r.getD 18 0 == 0x16
    (s0.flaws.filter fun f => !s.flaws.contains f).foldl (State.noteFlaw s0 told) s

/-- Whether R12 sends a record of this code to the hypervisor's log as well. -/
def logBoth (code : Nat) : Bool := code == 0x11 || code == 0x16 || code == 0x3F

/-! ## The fabric's edge (R412, R414, R452, R453) -/

/-- The die of this module at a coordinate in the form of diecoord. -/
def State.dieOfCoord (s : State) (c : Nat) : Option Nat := (List.range 4).find? fun d => s.dieCoord d == c

/-- The port of a die, of its eight, that its traffic for a coordinate leaves by (R16, R452). -/
def portOf (die coord : Nat) : Nat := Config.egressPort die coord % 8

/-- Whether a rectangle holds a coordinate. -/
def rectHas (x0 y0 w h c : Nat) : Bool := x0 ≤ c % 256 && c % 256 < x0 + w && y0 ≤ c / 256 && c / 256 < y0 + h

/-- Whether a tenant has a route between two coordinates (R453): a live launch of its rectangle holds both. -/
def State.hasRoute (s : State) (tid a b : Nat) : Bool :=
  (s.launches.any fun l => (s.tenant l.vf).tid == tid && rectHas l.d.x0 l.d.y0 l.d.w l.d.h a && rectHas l.d.x0 l.d.y0 l.d.w l.d.h b)
    || s.routes.any fun r => r.1 == tid && rectHas r.2.1 r.2.2.1 r.2.2.2.1 r.2.2.2.2 a && rectHas r.2.1 r.2.2.1 r.2.2.2.1 r.2.2.2.2 b

/-- The record of a collective packet that a switch of a die drops (R258): in the tenant's violation log and the hypervisor's,
    with the handle in place of an address. -/
def State.dropPacket (s : State) (vf die handle : Nat) : State :=
  let r : LogRec := ⟨handle, 0, 0x41, 0, 0, 0, die, 3⟩
  ((s.logAt vf die (s.tenant vf).vlog.toNat r).1).logHyper vf r

/-- The number of 64-byte flits that carry an operation's content: 48 payload bytes each. -/
def opFlits : FabOp → Nat
  | .write _ _ bs | .reply _ bs | .tile _ _ _ _ _ _ bs | .other bs => max 1 ((bs.length + 47) / 48)
  | .list _ _ old new => max 1 ((old.length + new.length + 47) / 48)
  | .cas _ _ w ops => max 1 ((2 * w * ops.length + 47) / 48)
  | .arrive _ _ ps | .early _ ps _ => max 1 ((ps.foldl (fun n p => n + p.bytes.length) 0 + 47) / 48)
  | _ => 1

/-- The bytes an operation writes. -/
def opBytes : FabOp → Nat
  | .write _ _ bs => bs.length
  | _ => 0

/-- Events of a die credited to each of its partitions (R389, R391; log entry 32). -/
def State.countDie (s : State) (die ev n : Nat) : State :=
  (s.parts.filter fun p => dieOf p.core == die).foldl (fun s p => s.countVf p.core p.vf ev n) s

/-- A flit crosses its die's link now, under the link's next SEQ (R452); its bytes are credited to the partition that caused
    it (R389). -/
def State.emit (s : State) (e : Outgoing) : State :=
  let x := s.die e.die
  let port := portOf e.die e.flit.dst
  let n := opFlits e.flit.op
  let seq := kget 0 x.seqs port
  let s1 : State := { s.setDie e.die { x with seqs := kset 0 x.seqs port ((seq + n) % 256) } with
    fabOut := s.fabOut ++ [(e.die, { e.flit with seq := seq })] }
  match e.cause with
  | some (core, vf) => s1.countVf core vf evFabb (64 * n)
  | none => s1

/-- The event of a flit's delivery at a die. -/
def fabEvent (die : Nat) (f : FabFlit) : Instr :=
  match f.type with
  | 1 => .fabricResponse die f
  | 2 => .collectivePacket die f
  | 3 => .stagger die f true
  | 4 => .fabricManagementFlit die f true
  | _ => .fabricRequest die f

/-- A flit at a die's egress: it crosses an up link, waits for a retraining one, and is lost at a down one (R414). One for
    a die of this module is delivered there. `cause` is the core and virtual function that it serves, where one does. -/
def State.crossFab (s : State) (die : Nat) (cause : Option (Nat × Nat)) (f : FabFlit) : State :=
  match s.dieOfCoord f.dst with
  | some d => { s with agenda := s.agenda ++ [fabEvent d f] }
  | none =>
    match kget 0 (s.die die).ports (portOf die f.dst) with
    | 0 => s.emit ⟨die, cause, f⟩
    | 1 => { s with egress := s.egress ++ [⟨die, cause, f⟩] }
    | _ => s

/-- The tag of a request. -/
def opTag : FabOp → Nat
  | .read t .. | .write t .. | .amo t .. | .cas t .. | .list t .. | .reply t _ | .error t _ => t
  | _ => 0

/-- The error response to a flit, if it gets one: an error response gets none. -/
def refusalOf (f : FabFlit) (code : Nat) : Option FabFlit :=
  let back := fun (op : FabOp) => some (⟨1, 0, f.src, f.dst, f.tid, f.va, op, true⟩ : FabFlit)
  match f.op with
  | .tile h k .. => back (.tileRefused h k)
  | .error .. | .refused _ | .tileRefused .. => none
  | op => if f.type == 0 then back (.error (opTag op) code) else back (.refused code)

/-- Whether a switch forwards or delivers a flit (R453): a request, response or collective flit needs a route from its source
    to its destination; the error response to a flit that had none goes back all the same (DESIGN CHOICE, log entry 54). -/
def State.routed (s : State) (f : FabFlit) : Bool :=
  2 < f.type || s.hasRoute f.tid f.src f.dst
    || (match f.op with | .error .. | .refused _ | .tileRefused .. => true | _ => false)

/-- A flit without a route is dropped and logged at a die's switch, and its sender receives an error response (R453); the spec
    gives neither code: a free value. -/
def State.noRoute (s : State) (die : Nat) (f : FabFlit) : State :=
  let code := (Config.freeByte s.tick).toNat
  let s := { s with tick := s.tick + 1 }.logHyper 0 ⟨f.va, 0, code, 0, 0, 0, die, 3⟩
  match refusalOf f code with
  | some r => s.crossFab die none r
  | none => s

/-- A flit handed to a die's switch for another die (R453). -/
def State.sendFab (s : State) (die : Nat) (cause : Option (Nat × Nat)) (f : FabFlit) : State :=
  if s.routed f then s.crossFab die cause f else s.noRoute die f

/-! ## Unreadable bytes of the stores (R416) -/

/-- A team by the model's number. -/
def State.team? (s : State) (uid : Nat) : Option Team := s.teams.find? fun t => t.uid == uid

/-- A team by its number, an ended one too. -/
def State.teamAny? (s : State) (uid : Nat) : Option Team := (s.teams ++ s.ended).find? fun t => t.uid == uid

/-- The unit whose store holds a location of a window (R418): a core, or a market bank. -/
def State.chipUnit (s : State) (x : Nat) : Nat :=
  if 2 ^ 100 ≤ x then unitCore (((s.ter? ((x - 2 ^ 100) / 2 ^ 18)).map (·.core)).getD 0)
  else if 2 ^ 60 ≤ x then unitCore (((s.teamAny? ((x - 2 ^ 60) / 2 ^ 20)).map (·.core)).getD 0)
  else unitMarket ((x - 2 ^ 56) / 2 ^ 26) ((x - 2 ^ 56) % 2 ^ 26 / 2 ^ 21)

/-- A read has met an unreadable byte of a window, or a register word, or an accumulator slot: an event against its unit
    (R416, R418). -/
def State.chipErr (s : State) (x : Nat) : State := s.unitEvent (s.chipUnit x)
def State.terErr (s : State) (ter : Nat) : State :=
  match s.ter? ter with | some t => s.unitEvent (unitCore t.core) | none => s
def State.slotErr (s : State) (slot : Nat) : State := s.unitEvent (unitCore (slot / 4))

/-! ## Collective rounds (R264, R265) -/

/-- The rank of a die of the module in a group. -/
def State.groupRank (s : State) (g : Group) (die : Nat) : Option Nat :=
  (List.range g.ranks.length).find? fun i => g.ranks.getD i 65536 == s.dieCoord die

/-- Whether a link that a group's packets from a die need is down (R414). -/
def State.groupDown (s : State) (g : Group) (die : Nat) : Bool :=
  g.ranks.any fun c => (s.dieOfCoord c).isNone && kget 0 (s.die die).ports (portOf die c) == 2

/-- The rank under which a packet lost in a fabric queue of a die stands among the tiles (R416). -/
def lostTile (die : Nat) : Nat := 65536 + die

/-- The record of an uncorrectable error that a round meets on a core's die (R12, R416), with a slot's number, a tile's address
    or the handle (log entry 42). -/
def State.logRound (s : State) (vf core addr : Nat) : State :=
  (s.logRec vf true ⟨addr, 0, 0x42, 0, core, 0, dieOf core, 1⟩).1

/-- The place in a tile of a location, from the places of its bytes. -/
def placeOf (x : Nat) : List (Nat × Nat) → Option Nat
  | [] => none
  | p :: ps => if p.1 ≤ x && x < p.1 + p.2 then some (x - p.1) else (placeOf x ps).map (· + p.2)

/-- The tile a round reads on its die as it begins, and whether it could be read (R265, R416); an upset that it meets has its
    record and counts against its unit. -/
def State.roundTile (s : State) (vf core : Nat) (a : CollArgs) (len : Nat) : State × List Byte × Bool :=
  match a.slot with
  | some k =>
    let bs := s.accBytes k 0 65536
    if s.flaws.contains (.slot (k / 4) (k % 4)) then ((s.logRound vf core (k % 4)).slotErr k, bs, false) else (s, bs, true)
  | none =>
    let bs := (a.src.flatMap fun p => s.rdBytes p.1 p.2).take len
    match s.flaws.findSome? fun f => match f with | .chip y => (placeOf y a.src).map fun o => (y, o) | _ => none with
    | some x => ((s.logRound vf core (a.va + x.2)).chipErr x.1, bs, false)
    | none => (s, bs, true)

/-- The length of a round's tile. -/
def CollArgs.len (a : CollArgs) : Nat := if a.slot.isSome then 65536 else a.quad.getD 2 0

/-- A COLL that every member of its quarter has issued begins its round: the tile is read, and the ranks of other
    modules are sent it. Members that named different operands get one arrival with error, logged with the handle; the
    record's code is left open. -/
def State.beginRound (s : State) (ci : CollIssue) : State :=
  let a := ci.args
  let die := dieOf ci.core
  let handle := a.quad.getD 0 0
  match s.groups.find? fun g => g.handle == handle && g.launch == ci.launch with
  | none => s
  | some g =>
    if ci.differ then
      let s := (s.barArrive a.bar true).2
      ({ s with tick := s.tick + 1 }.logRec g.vf false
        ⟨handle, 0, (Config.freeByte s.tick).toNat, 0, 0, 0, die, 1⟩).1
    else
      let k := kget 0 g.begun die
      let begin_ : State → State := fun s => { s with
        groups := s.groups.map fun (x : Group) => if x.handle = g.handle then { x with begun := kset 0 x.begun die (k + 1) } else x }
      match s.groupRank g die with
      | none =>
        -- the first switch drops the packets of a die that is no rank, and the round ends with ERR (R258)
        { begin_ (s.dropPacket g.vf die handle) with rounds := s.rounds ++ [⟨handle, k, die, g.ranks.length, a, a.len, true⟩] }
      | some rank =>
        let (s, bs, ok) := s.roundTile g.vf ci.core a a.len
        let out := g.ranks.filterMap fun c => if (s.dieOfCoord c).isNone then
            some (die, (⟨2, 0, c, s.dieCoord die, (s.tenant g.vf).tid, 0, .tile handle k rank a.kind a.red a.ty bs, true⟩ : FabFlit))
          else none
        -- a Square engine that is harvested, or upset, fails its rounds (R265, R416; log entry 42)
        let sq := s.flaws.contains (.square die)
        let s := if sq then ((s.dropFlaw (.square die)).logRound g.vf ci.core handle).unitEvent (unitSquare die) else s
        let lost := s.tiles.any fun t => t.handle == handle && t.index == k && t.rank == lostTile die
        let bad := !ok || sq || lost || s.unitOut (unitSquare die) || s.groupDown g die
        out.foldl (fun s f => s.sendFab f.1 (some (ci.core, g.vf)) f.2) { begin_ s with
          rounds := s.rounds ++ [⟨handle, k, die, rank, a, a.len, bad⟩]
          tiles := s.tiles ++ [⟨handle, k, rank, a.kind, a.red, a.ty, bs⟩] }

/-- Begin the rounds of a quarter that its m members have all issued. -/
def State.beginDue (s : State) (quarter m : Nat) : State :=
  let due := s.colls.filter fun c => c.quarter == quarter && m ≤ c.issued.length
  due.foldl (fun s c => s.beginRound c) { s with colls := s.colls.filter fun c => !(c.quarter == quarter && m ≤ c.issued.length) }

/-- A member that leaves a quarter no longer counts among those that have issued. -/
def State.collLeave (s : State) (quarter uid m : Nat) : State :=
  let cs := s.colls.map fun c => if c.quarter = quarter then { c with issued := c.issued.filter (· != uid) } else c
  let s := { s with colls := cs.filter fun c => !c.issued.isEmpty }
  if m == 0 then s else s.beginDue quarter m

/-! ## Quarters -/

/-- Replace a quarter. -/
def State.updQuarter (s : State) (uid : Nat) (f : Quarter → Quarter) : State :=
  { s with quarters := s.quarters.map fun q => if q.uid = uid then f q else q }

/-- A quarter's phase completes when A reaches M (R306). -/
def Quarter.settle (q : Quarter) : Quarter := if q.m ≤ q.a then { q with a := 0, phase := q.phase + 1 } else q

/-- A terrace leaves its quarter (R305). -/
def State.leaveQuarter (s : State) (t : Terrace) : State :=
  match t.quarter with
  | none => s
  | some u =>
    let s1 := s.updTer t.uid fun t => { t with quarter := none, arrived := none }
    match s1.quarters.find? fun q => q.uid == u with
    | none => s1
    | some q =>
      if q.m ≤ 1 then { s1 with quarters := s1.quarters.filter fun q => q.uid != u }.collLeave u t.uid 0
      else (s1.updQuarter u fun q => Quarter.settle { q with j := q.j - 1, m := q.m - 1 }).collLeave u t.uid (q.m - 1)

/-! ## Ends -/

/-- Change a team. -/
def State.updTeam (s : State) (uid : Nat) (f : Team → Team) : State :=
  { s with teams := s.teams.map fun t => if t.uid = uid then f t else t }

/-- A launch by its number. -/
def State.launch? (s : State) (id : Nat) : Option Launch := s.launches.find? fun l => l.id == id

/-- A terrace's base register count. -/
def State.baseRegs (s : State) (t : Terrace) : Nat :=
  match s.launch? t.launch with
  | some l => l.d.rbase * 8
  | none => t.nregs

/-- Registers from one count up to another read as 0 with wide marks clear (R302). -/
def Terrace.growTo (t : Terrace) (n : Nat) : Terrace :=
  { t with v := t.v.filter fun e => e.1 < t.nregs * 32 || n * 32 ≤ e.1
           vw := t.vw.filter fun e => e.1 < t.nregs || n ≤ e.1
           nregs := n }

/-- The oldest entry of those that wait for a growth place. -/
def oldestGrower (gs : List (Nat × Nat)) : Option (Nat × Nat) :=
  gs.foldl (fun b g => match b with | none => some g | some x => if g.1 < x.1 then some g else some x) none

/-- A growth place goes to the oldest waiter, which takes its granules at once (R302). -/
def State.grantOne (s : State) (m : Team) (g : Nat × Nat) : State :=
  match s.ter? g.1 with
  | none => s.updTeam m.uid fun m => { m with growers := m.growers.filter fun x => x.1 != g.1 }
  | some t =>
    (s.updTeam m.uid fun m =>
      { m with places := m.places - 1, pool := m.pool - (g.2 - t.nregs) / 8,
               growers := m.growers.filter fun x => x.1 != g.1 }).updTer g.1 fun t => t.growTo g.2

/-- Free growth places of a team are granted, oldest waiter first (R302). -/
def State.grantLoop (s : State) (team : Nat) : Nat → State
  | 0 => s
  | fuel + 1 =>
    match s.team? team with
    | none => s
    | some m =>
      match oldestGrower m.growers with
      | none => s
      | some g => if m.places == 0 then s else (s.grantOne m g).grantLoop team fuel

/-- At most 64 terraces of a team can wait. -/
def State.grantPlaces (s : State) (team : Nat) : State := s.grantLoop team 64

/-- A coordinate pair in the form of diecoord. -/
def coordOf (c : Nat × Nat) : Nat := c.1 + 256 * c.2

/-- Whether a die belongs to a view that a gang of the launch holds, or holds a terrace of the launch (R276). -/
def State.dieHeld (s : State) (l : Launch) (c : Nat × Nat) : Bool :=
  (s.gangs.any fun g => g.launch == l.id && g.members.contains (coordOf c)
      && ((s.ters.any fun t => t.gang == some g.id) || (l.remote != 0 && g.members.any fun x => (s.dieOfCoord x).isNone)))
    || (s.ters.any fun t => t.launch == l.id && s.dieCoord (dieOf t.core) == coordOf c)
    || ((s.dieOfCoord (coordOf c)).isNone && l.remote != 0)

/-- Dies of a launch that gangs have left return to the tail of its spare list (R276). -/
def State.spareBack (s : State) (launch : Nat) : State :=
  { s with launches := s.launches.map fun l =>
      if l.id = launch then
        { l with spare := l.spare ++ l.taken.filter fun c => !s.dieHeld l c, taken := l.taken.filter fun c => s.dieHeld l c }
      else l }

/-! ## Outstanding accesses -/

/-- Replace an access. -/
def State.setAccess (s : State) (a : Access) : State :=
  { s with accs := s.accs.map fun x => if x.id = a.id then a else x }

/-- Drop from each path's flights the leading ones that have returned. -/
def trimPath (path : Nat) : List Flight → List Flight
  | [] => []
  | f :: fs => if f.path != path then f :: trimPath path fs else if f.left.isEmpty then trimPath path fs else f :: fs

/-- Every path's counter after returns. -/
def trimAll (fs : List Flight) : List Flight := [0, 1, 2, 3, 4].foldl (fun fs p => trimPath p fs) fs

/-- The access with a number returns; its instruction has once each of its accesses has (R182). -/
def State.returned (s : State) (ter id : Nat) : State :=
  s.updTer ter fun t =>
    { t with flight := trimAll (t.flight.map fun f => { f with left := f.left.filter (· != id) })
             pending := t.pending.filter fun p => !(p.clearAt == none && p.access == id) }

/-- An access makes one more of an instruction that is counted already (R182). -/
def State.joinFlight (s : State) (ter id new : Nat) : State :=
  s.updTer ter fun t =>
    { t with flight := t.flight.map fun f => if f.left.contains id then { f with left := f.left ++ [new] } else f }

/-- Close requests of an access; with none left it is over and has returned. -/
def State.closeReqs (s : State) (a : Access) (m : Lanes) : State :=
  let rest := a.reqs.filter fun r => !m.getLsbD r.lane
  if rest.isEmpty then { s with accs := s.accs.filter fun x => x.id != a.id }.returned a.ter a.id
  else s.setAccess { a with reqs := rest }

/-- Abandon a parked request (R409): its address is logged, it returns, and its launch is marked with error. -/
def State.abandon (s : State) (id : Nat) : State :=
  match s.accs.find? fun a => a.id == id && a.parked with
  | none => s
  | some a =>
    let s := a.reqs.foldl (fun s r => (s.logRec a.vf false ⟨r.ea, 0, 0x45, 0, a.core, a.terno, dieOf a.core, 2⟩).1) s
    (s.closeReqs a 0xFFFFFFFF#32).markError a.launch

/-- A terrace ends (R299): it leaves its quarter, closes its sender records, returns its growth, gives up its claims and
    waits, and frees its place; the team ends with its last terrace. -/
def State.endTerrace (s : State) (t : Terrace) : State :=
  let s := s.leaveQuarter t
  let s := t.opened.foldl (fun s x =>
    let a := s.alley x
    if a.ok then s.setAlley x (a.close (t.core % 32) t.ter) else s) s
  let base := s.baseRegs t
  let s := s.updTeam t.team fun m =>
    { m with
      pool := m.pool + (t.nregs - base) / 8
      places := if base < t.nregs then m.places + 1 else m.places
      growers := m.growers.filter fun g => g.1 != t.uid }
  let s : State := { s with
    progress := s.progress.filterMap fun e =>
      if e.2.uid = t.uid ∧ e.2.act then
        (let x := { e.2 with act := false }; if x = Prog.init then none else some (e.1, x))
      else some e
    cmds := s.cmds.filter fun c => !(c.ter == t.uid && c.fault.isSome)
    jobs := s.jobs.filter fun j => j.uid != t.uid
    poppers := (s.poppers.map fun e => (e.1, e.2.filter (· != t.uid))).filter fun e => !e.2.isEmpty
    ters := s.ters.filter fun u => u.uid != t.uid }
  -- the ring position of a slot that its partition holds no terrace in stands before place 0 (R329)
  let s := if s.ters.any fun u => u.core == t.core && u.vf == t.vf && u.ter / 16 == t.ter / 16 then s
    else { s with parts := s.parts.map fun p => if p.core = t.core ∧ p.vf = t.vf then
        { p with slotState := p.slotState.modify (t.ter / 16) fun q => { q with ring := none } } else p }
  let s := match t.service with | some id => s.abandon id | none => s
  let s := s.spareBack t.launch
  if s.ters.any fun u => u.team == t.team then s.grantPlaces t.team
  else
    { s with
      teams := s.teams.filter fun m => m.uid != t.team
      ended := s.ended ++ s.teams.filter fun m => m.uid == t.team }

/-- A split whose lanes have all ended (R119): its stack's top entry continues as the split, a waiting entry stopped at
    its marker; with no stack it ceases to exist, and the terrace ends with its last split. -/
def State.endSplit (s : State) (uid sid now : Nat) : State :=
  match s.ter? uid with
  | none => s
  | some t =>
    match t.split? sid with
    | none => s
    | some sp =>
      match sp.stack with
      | e :: rest =>
        s.updSplit uid sid fun sp =>
          { sp with pc := e.pc, mask := e.mask, mode := e.mode, rk := e.rk, rc := e.rc, stack := rest,
                    stopped := e.waiting, window := [], members := 0, lastStore := false, after := none, redo := none,
                    hold := .none, avail := now + 1 }
      | [] =>
        let t1 := { t with splits := t.splits.filter fun x => x.sid != sid }
        let s1 := s.setTer t1
        if t1.splits.isEmpty then s1.endTerrace t1 else s1

end Sys2Proof.Machine
end

