-- ==== Sys2Proof/Machine/Splits.lean ====
section
/-! DEFINITION. Divergence and merging (R115 to R119, R400), traps, their frames and the return from them (R399 to
R404). -/

namespace Sys2Proof.Machine

/-- Rename a split in what the issue slots keep: the greedy split and the last issue pass on (R330). -/
def State.renameSplit (s : State) (uid old new : Nat) : State :=
  let f := fun (x : Option (Nat × Nat)) => if x = some (uid, old) then some (uid, new) else x
  { s with parts := s.parts.map fun p =>
      { p with slotState := p.slotState.map fun q =>
          { q with last := f q.last, greedy := f q.greedy, yielded := f q.yielded } } }

/-! ## Divergence (R116) -/

/-- The outcome groups of a control transfer: lanes and where they continue, empty groups dropped. -/
def dropEmpty (gs : List (Lanes × DWord)) : List (Lanes × DWord) := gs.filter fun g => g.1 != 0

/-- Whether the groups would push a stack beyond eight entries (R116); the entries a frame keeps count. -/
def divergeOverflow (t : Terrace) (sp : Split) (gs : List (Lanes × DWord)) : Bool :=
  let k := gs.length
  let held := sp.stack.length + (match sp.frame with | some f => f.stack.length | none => 0)
  1 < k && 4 < t.splits.length - 1 + k && 8 < held + (k - 1)

/-- A split after the division, at one group. -/
def Split.atGroup (sp : Split) (sid : Nat) (g : Lanes × DWord) (stack : List StackEntry) : Split :=
  { sp with sid := sid, mask := g.1, pc := g.2, stack := stack, window := [], members := 0, lastStore := false }

/-- Continue a split as its groups (R116). The state's split already stands after its instruction. Groups that continue at
    one address, as a BRP to the next instruction has, are apart all the same, and every group's wait count is 0 (DESIGN
    CHOICE, log entry 39); inside a handler every group keeps the frame's cause and address (R399). -/
def State.diverge (s : State) (uid sid : Nat) (gs : List (Lanes × DWord)) : State :=
  match s.ter? uid with
  | none => s
  | some t =>
    match t.split? sid, gs with
    | some sp, [g] => s.setTer (t.setSplit { sp with pc := g.2, mask := g.1 })
    | some sp, g :: rest =>
      let n := t.splits.length
      if n - 1 + gs.length ≤ 4 then
        let new := rest.zipIdx.map fun e =>
          { (sp.atGroup (s.fresh + e.2) e.1 []) with
            tcause := if sp.frame.isSome then sp.tcause else 0
            taddr := if sp.frame.isSome then sp.taddr else 0
            waited := 0, hold := .none, held := none, read := none, kept := none, gets := [], list := none, stopping := false }
        let s1 := s.setTer { (t.setSplit (sp.atGroup sid g sp.stack)) with
          splits := (t.setSplit (sp.atGroup sid g sp.stack)).splits ++ new }
        { s1 with fresh := s1.fresh + rest.length }
      else
        let push := rest.map fun (m, pc) => StackEntry.mk false pc m sp.mode sp.rk sp.rc
        s.setTer (t.setSplit (sp.atGroup sid g (push ++ sp.stack)))
    | _, _ => s

/-! ## Merging (R117, R118) -/

/-- The frame number of a split. -/
def Split.fid (sp : Split) : Option Nat := sp.frame.map (·.fid)

/-- The lowest lane of a split. -/
def Split.low (sp : Split) : Nat := (lowLane sp.mask).getD 32

/-- Whether two stopped splits merge at release (R118, R400). -/
def mergeable (a b : Split) : Bool :=
  a.pc == b.pc && a.mode == b.mode && a.rk == b.rk && a.fid == b.fid && (a.stack.isEmpty || b.stack.isEmpty)

/-- Two splits merged: the lanes of both, the larger counter, the one stack there is; and of the wait counts the larger
    (DESIGN CHOICE, log entry 39). -/
def mergeTwo (a b : Split) : Split :=
  { a with mask := a.mask ||| b.mask, rc := if a.rc.toNat < b.rc.toNat then b.rc else a.rc,
           stack := if a.stack.isEmpty then b.stack else a.stack, window := [], members := 0, lastStore := false,
           waited := max a.waited b.waited }

/-- Merge a split into the first of a list that accepts it; the pair of numbers says who passed into whom. -/
def mergeInto (x : Split) : List Split → List Split × Option (Nat × Nat)
  | [] => ([x], none)
  | y :: ys =>
    if mergeable y x then (mergeTwo y x :: ys, some (x.sid, y.sid))
    else
      let r := mergeInto x ys
      (y :: r.1, r.2)

/-- Merge all splits of a list, in order. -/
def mergeAll : List Split → List Split → List (Nat × Nat) → List Split × List (Nat × Nat)
  | acc, [], ren => (acc, ren)
  | acc, x :: xs, ren =>
    let r := mergeInto x acc
    mergeAll r.1 xs (match r.2 with | some e => e :: ren | none => ren)

/-- Insert a split by its lowest lane. -/
def insertByLow (x : Split) : List Split → List Split
  | [] => [x]
  | y :: ys => if x.low ≤ y.low then x :: y :: ys else y :: insertByLow x ys

/-- Splits ordered by their lowest lane (R320). -/
def sortByLow (l : List Split) : List Split := l.foldr insertByLow []

/-- Release the stopped splits of one group where the rule allows it (R118): `inFrame` none for the splits outside
    every frame, which wait for every split of the terrace. -/
def State.release (s : State) (uid : Nat) (grp : Option Nat) (now : Nat) : State :=
  match s.ter? uid with
  | none => s
  | some t =>
    let mine := t.splits.filter fun x => x.fid == grp
    let all := if grp.isNone then t.splits else mine
    if mine.isEmpty || all.any fun x => !(x.stopped && x.fid == grp) then s
    else
      let (merged, ren) := mergeAll [] (sortByLow mine) []
      let resumed := merged.map fun x => { x with stopped := false, pc := x.pc + 4, avail := max x.avail (now + 1) }
      let s1 := s.setTer { t with splits := resumed ++ t.splits.filter fun x => x.fid != grp }
      ren.foldl (fun s e => s.renameSplit uid e.1 e.2) s1

/-- Release every group of a terrace that can be (R118, R400). -/
def State.releaseAll (s : State) (uid now : Nat) : State :=
  match s.ter? uid with
  | none => s
  | some t => (t.splits.map (·.fid)).eraseDups.foldl (fun s g => s.release uid g now) s

/-- A merge marker at `pc` (R117): steps 1 to 3, at most one round for each entry of the stack. The lanes of a deferred
    entry start with an empty window (DESIGN CHOICE, log entry 39). -/
def markerLoop (pc : DWord) : Nat → Split → Split
  | 0, sp => { sp with stopped := true, pc := pc }
  | fuel + 1, sp =>
    match sp.stack with
    | e :: rest =>
      if !e.waiting then
        { sp with mask := e.mask, pc := e.pc, mode := e.mode, rk := e.rk, rc := e.rc,
                  stack := ⟨true, pc, sp.mask, sp.mode, sp.rk, sp.rc⟩ :: rest, window := [], members := 0 }
      else if e.pc == pc && e.mode == sp.mode && e.rk == sp.rk then
        markerLoop pc fuel { sp with mask := sp.mask ||| e.mask, stack := rest,
                                     rc := if sp.rc.toNat < e.rc.toNat then e.rc else sp.rc, window := [] }
      else { sp with stopped := true, pc := pc }
    | [] => { sp with stopped := true, pc := pc }

/-- End every lane of a split (R119) and release what waited for it. -/
def State.endSplitR (s : State) (uid sid now : Nat) : State := (s.endSplit uid sid now).releaseAll uid now

/-! ## Traps (R399 to R401) -/

/-- What a trap says. `fmask` none stands for the split's whole mask. -/
structure Trap where
  code : Nat
  sub : Nat
  fetch : Bool
  after : Bool
  fmask : Option Lanes
  addr : Nat
deriving DecidableEq, Repr

/-- A trap of a code with the address of its instruction word and no faulted lanes of its own. -/
def Trap.simple (code : Nat) (addr : DWord) : Trap := ⟨code, 0, false, false, none, addr.toNat⟩

/-- The illegal-instruction and illegal-operand traps (R60). -/
def Trap.illegalInstr (pc : DWord) : Trap := .simple 0x01 pc
def Trap.illegalOperand (pc : DWord) : Trap := .simple 0x02 pc

/-- SY_TCAUSE's bits (R397). -/
def causeWord (tr : Trap) (chain svc : Bool) : Word :=
  BitVec.ofNat 32 (tr.code + tr.sub % 256 * 2 ^ 16 + tr.fetch.toNat * 2 ^ 15 + chain.toNat * 2 ^ 14
    + tr.after.toNat * 2 ^ 13 + svc.toNat * 2 ^ 12)

/-- The record a core writes for a trap (R421). -/
def coreRec (t : Terrace) (code sub addr iaddr : Nat) : LogRec :=
  ⟨addr, iaddr, code, sub, t.core, t.ter, dieOf t.core, 0⟩

/-- A handler fault (R401): the record, the end of every lane of the frame, the launch marked; in the service terrace
    the parked request is abandoned by the caller that watches for its end. -/
def State.handlerFault (s : State) (t : Terrace) (sp : Split) (tr : Trap) (now : Nat) : State :=
  let s := (s.logRec t.vf true (coreRec t 0x3F tr.code tr.addr sp.pc.toNat)).1
  let s := s.markError t.launch
  match sp.frame with
  | none =>
    s.endSplitR t.uid sp.sid now
  | some f =>
    -- the handler's splits leave; the split's own stack is the one it had at the trap
    let gone := fun (x : Split) => x.fid == some f.fid && x.sid != sp.sid
    let s := s.updTer t.uid fun u =>
      { u with
        splits := (u.splits.filter fun x => !gone x).map fun x =>
          if x.sid = sp.sid then { x with frame := none, stack := f.stack, hold := .none } else x
        pending := u.pending.filter fun p => !(p.clearAt == none && u.splits.any fun x => gone x && x.sid == p.access) }
    s.endSplitR t.uid sp.sid now

/-- Take a trap (R399). `chain` says that the instruction is a member or the head of a latch chain, whose head is at
    `head`; `len` is the instruction's length; `redo` a chain's final store and
    its faulted lanes (R52); one that is still to run again from an earlier trap stays so. The split's `pc` stands at the instruction.
    An interrupt or a fetch's fault leaves what the instruction there had done (R254). -/
def State.takeTrap (s : State) (uid sid : Nat) (chain : Bool) (head : DWord) (len : Nat) (tr : Trap)
    (redo : Option (DWord × Lanes)) (now : Nat) : State :=
  match s.ter? uid with
  | none => s
  | some t =>
    match t.split? sid with
    | none => s
    | some sp =>
      let tvec := (s.tenant t.vf).tvec
      if sp.frame.isSome || tvec == 0 then s.handlerFault t sp tr now
      else
        let svc := t.service.isSome
        let cause := causeWord tr chain svc
        let fr : Frame :=
          { fid := s.fresh
            rpc := if tr.after then sp.pc + BitVec.ofNat 64 len else if chain then head else sp.pc
            rmask := (sp.after.getD 0) ||| sp.mask
            fmask := tr.fmask.getD sp.mask
            rmode := sp.mode, rk := sp.rk, rc := sp.rc, cause := cause, addr := BitVec.ofNat 64 tr.addr
            rlen := len, stack := sp.stack, redo := redo.or sp.redo
            kept := if tr.code == 0x20 || tr.fetch then sp.kept else none }
        let s := { s with fresh := s.fresh + 1 }
        let s := (s.logRec t.vf (logBoth tr.code) (coreRec t tr.code tr.sub tr.addr sp.pc.toNat)).1
        s.updSplit uid sid fun sp =>
          { sp with frame := some fr, window := [], members := 0, lastStore := false, pc := tvec, mask := fr.fmask,
                    mode := 0, stack := [], tcause := cause, taddr := fr.addr, after := none, redo := none,
                    hold := .none, held := none, read := none, kept := none, gets := [], list := none, buf := [], avail := now + 1 }

/-- Whether a frame's trap was met by an instruction that has completed (R397). -/
def Frame.afterBit (f : Frame) : Bool := f.cause.getLsbD 13

/-- Whether a frame's trap was met in a latch chain. -/
def Frame.chainBit (f : Frame) : Bool := f.cause.getLsbD 14

/-- A split leaves its handler (R404): the status and generator are restored and the window is empty. -/
def Split.leaveFrame (sp : Split) (f : Frame) (mask : Lanes) (pc : DWord) (now : Nat) : Split :=
  { sp with frame := none, mode := f.rmode, rk := f.rk, rc := f.rc, window := [], members := 0, lastStore := false,
            stack := f.stack, mask := mask, pc := pc, avail := now + 1, hold := .none, redo := f.redo
            kept := if pc == f.rpc then f.kept else none }

/-- TRET's return (R404): an AFTER trap and a chain resume with every lane; otherwise the instruction runs again for
    the faulted lanes, and the others rejoin after it. -/
def Split.tretTo (sp : Split) (f : Frame) (now : Nat) : Split :=
  if f.afterBit || f.chainBit then sp.leaveFrame f f.rmask f.rpc now
  else
    let x := sp.leaveFrame f f.fmask f.rpc now
    if f.fmask == f.rmask then x else { x with after := some f.rmask }

/-- EXIT in a handler (R404): the lanes end and leave every copy of the frame; with no lane of FMASK left the split
    leaves the handler with the lanes that waited in the frame. -/
def State.exitInFrame (s : State) (uid sid : Nat) (f : Frame) (gone : Lanes) (now : Nat) : State :=
  let g : Frame := { f with rmask := f.rmask &&& ~~~gone, fmask := f.fmask &&& ~~~gone }
  let s := s.updTer uid fun t =>
    { t with splits := t.splits.map fun x =>
        if x.fid = some f.fid then { x with frame := some { g with stack := g.stack } } else x }
  match s.ter? uid with
  | none => s
  | some t =>
    match t.split? sid with
    | none => s
    | some sp =>
      let left := sp.mask &&& ~~~gone
      if left != 0 then s.setTer (t.setSplit { sp with mask := left })
      else if !sp.stack.isEmpty || t.splits.any fun x => x.fid == some f.fid && x.sid != sid then
        -- other lanes of the handler go on
        s.endSplitR uid sid now
      else if g.rmask == 0 then
        (s.setTer (t.setSplit { sp with frame := none, stack := g.stack })).endSplitR uid sid now
      else
        let pc := if g.afterBit || g.chainBit then g.rpc else g.rpc + BitVec.ofNat 64 g.rlen
        s.setTer (t.setSplit (sp.leaveFrame g g.rmask pc now))

/-- Lanes end outside a handler (R119, R122). -/
def State.exitLanes (s : State) (uid sid : Nat) (gone : Lanes) (now : Nat) : State :=
  match s.ter? uid with
  | none => s
  | some t =>
    match t.split? sid with
    | none => s
    | some sp =>
      match sp.frame with
      | some f => s.exitInFrame uid sid f gone now
      | none =>
        let left := sp.mask &&& ~~~gone
        if left == 0 then s.endSplitR uid sid now else s.setTer (t.setSplit { sp with mask := left })

end Sys2Proof.Machine
end

