-- ==== Sys2Proof/Machine/Operands.lean ====
section
/-! DEFINITION. Reading operands (R29, R31, R48, R54, R189), and the checks of R58 and R59 that only the state
decides. -/

namespace Sys2Proof.Machine

/-- The issue of one instruction: who issues it, and the split and terrace as they stand at issue (R87). -/
structure Ctx where
  uid : Nat
  sid : Nat
  t : Terrace
  sp : Split
  i : Instr
  active : Lanes
  len : Nat
  now : Nat
  diecoord : Nat
  qid : Word
  /-- the instruction is a member of a latch chain; it is one or the head of one (R50) -/
  member : Bool
  headsChain : Bool
  /-- it has issued before and goes on after a wait -/
  resumed : Bool
  /-- the terrace with the register files, and the latch window, as they stood at its issue (R87) -/
  rt : Terrace
  window : List Latch
  /-- the first access number that is later than its issue (R231) -/
  ord : Nat
deriving DecidableEq, Repr

/-- TYPE at issue. -/
def Ctx.ty (c : Ctx) : Nat := modeType c.sp.mode

/-- RND at issue. -/
def Ctx.rnd (c : Ctx) : Nat := modeRnd c.sp.mode

/-- SAT at issue. -/
def Ctx.sat (c : Ctx) : Bool := modeSat c.sp.mode

/-- SCOPE at issue. -/
def Ctx.scope (c : Ctx) : Nat := modeScope c.sp.mode

/-- The address of the instruction. -/
def Ctx.pc (c : Ctx) : DWord := c.sp.pc

/-- The address of the next instruction. -/
def Ctx.nextPc (c : Ctx) : DWord := c.sp.pc + BitVec.ofNat 64 c.len

/-- The die that issues. -/
def Ctx.die (c : Ctx) : Nat := dieOf c.t.core

/-- The active lanes in ascending order. -/
def Ctx.lanes (c : Ctx) : List Nat := lanesOf c.active

/-- A latch entry (R48). -/
def Ctx.latch (c : Ctx) (k : Nat) : Latch := c.window.getD (k - 1) ⟨false, false, [], 0⟩

/-- A 32-bit source in a lane (R54). -/
def Ctx.src (c : Ctx) (x : Src) (l : Nat) : Nat :=
  match x with
  | .v n => (c.rt.vget n l).toNat
  | .s n => (c.rt.sget n).toNat
  | .zero => 0
  | .latch k => ((c.latch k).vals.getD l 0).toNat % 2 ^ 32
  | .laneid => l
  | .terid => c.t.ter
  | .smask => c.sp.mask.toNat
  | .qid => c.qid.toNat
  | .teamid => c.t.teamIdx
  | .coreid => c.t.core
  | .diecoord => c.diecoord
  | .imm w => w.toNat

/-- A 64-bit source in a lane (R31, R54). -/
def Ctx.src64 (c : Ctx) (x : Src) (l : Nat) : Nat :=
  match x with
  | .v n => (c.rt.vget (n + 1) l).toNat * 2 ^ 32 + (c.rt.vget n l).toNat
  | .s n => (c.rt.sget (n + 1)).toNat * 2 ^ 32 + (c.rt.sget n).toNat
  | .latch k => ((c.latch k).vals.getD l 0).toNat
  | .imm w => wrapTo 64 (signExt 32 w.toNat)
  | x => c.src x l

/-- The bit pattern of an element of a type in a lane (R64, R86). -/
def Ctx.srcTy (c : Ctx) (ty : Nat) (x : Src) (l : Nat) : Nat :=
  if ty64 ty then c.src64 x l else c.src x l % 2 ^ tyWidth ty

/-- Base of R189. -/
def Ctx.base (c : Ctx) (x : Src) (l : Nat) : Nat :=
  match x with
  | .v n => if c.rt.vwide n l then c.src64 x l else c.src x l
  | .s n => if c.rt.swide n then c.src64 x l else c.src x l
  | .latch k => ((c.latch k).vals.getD l 0).toNat
  | x => c.src x l

/-- The effective address of R188, with an index or an offset in b. -/
def Ctx.addr (c : Ctx) (a b : Src) (l : Nat) : Nat :=
  let off : Int := match b with | .imm w => signExt 32 w.toNat | x => (c.src x l : Int)
  wrapTo 64 ((c.base a l : Int) + off)

/-- The source in the lowest active lane; a uniform operand reads the same in every lane. -/
def Ctx.uni (c : Ctx) (x : Src) : Nat := c.src x ((lowLane c.active).getD 0)

/-- A uniform operand of an instruction the guard does not restrict. -/
def Ctx.uniAll (c : Ctx) (x : Src) : Nat := c.src x ((lowLane c.sp.mask).getD 0)

/-- A destination read as a source (MAD, FMA, BFI, CAS). -/
def dstSrc : Dst → Src
  | .v n => .v n | .s n => .s n | .none => .zero

/-! ## Registers an instruction reads and writes (R322, R323) -/

/-- The number of registers of an operand under a TYPE. -/
def Wd.regs (ty : Nat) : Wd → Nat
  | .one => 1 | .two => 2 | .four => 4 | .eight => 8
  | .typed => if ty64 ty then 2 else 1

/-- Consecutive registers from a source. -/
def srcRegs (x : Src) (n : Nat) : List PReg :=
  match x with
  | .v k => (List.range n).map fun i => .v (k + i)
  | .s k => (List.range n).map fun i => .s (k + i)
  | _ => []

/-- Whether a source field is a base field (R189). -/
def SrcKind.isBase : SrcKind → Bool
  | .base | .baseReg | .baseUni => true
  | _ => false

/-- The registers and predicates an operand reads; a base that names an even register reads the odd one too (R323). -/
def opdReads (ty : Nat) : Opd → List PReg
  | .src x w k =>
    if k.isBase then
      match x with
      | .v n => if n % 2 == 0 then [.v n, .v (n + 1)] else [.v n]
      | .s n => if n % 2 == 0 then [.s n, .s (n + 1)] else [.s n]
      | _ => []
    else srcRegs x (w.regs ty)
  | .both d w => srcRegs (dstSrc d) (w.regs ty)
  | .pRead p => [.p p]
  | _ => []

/-- The registers and predicates an operand writes. -/
def opdWrites (ty : Nat) : Opd → List PReg
  | .dst d w _ | .both d w => (match d with | .none => [] | d => srcRegs (dstSrc d) (w.regs ty))
  | .pWrite p => [.p p]
  | _ => []

/-- What an instruction reads, the guard predicate included. -/
def readsOf (mode : BitVec 16) (i : Instr) : List PReg :=
  (opds i).flatMap (opdReads (modeType mode))
    ++ (if mode.toNat / 16 % 2 == 1 then [.p (mode.toNat % 8)] else [])

/-- What an instruction writes. -/
def writesOf (mode : BitVec 16) (i : Instr) : List PReg := (opds i).flatMap (opdWrites (modeType mode))

/-- The latches an instruction names. -/
def latchesOf (i : Instr) : List Nat :=
  (opds i).filterMap fun o => match o with | .src (.latch k) _ _ => some k | _ => none

/-- Whether an instruction names a latch. -/
def namesLatch (i : Instr) : Bool := !(latchesOf i).isEmpty

/-! ## Types accepted (R41) -/

/-- The types f16, bf16, f32 and f64. -/
def tyFp (t : Nat) : Bool := 8 ≤ t && t ≤ 11

/-- The types f16, bf16 and f32. -/
def tyFp32 (t : Nat) : Bool := 8 ≤ t && t ≤ 10

/-- Whether AMO or RED of an operation accepts a type (R241). -/
def amoType (op t : Nat) : Bool :=
  match op with
  | 0 | 1 | 2 => [0, 1, 6, 7].contains t || tyFp t
  | 3 | 4 | 5 => [0, 1, 6, 7].contains t
  | _ => [0, 1, 6, 7, 8, 11].contains t

/-- Whether an instruction accepts a TYPE (R41 and the entries). SEL (R96) and PSET (R98) accept every TYPE: their chapter traps
    a TYPE that an entry does not except, theirs name none, and R85 speaks of a SEL of TYPE f64 (DESIGN CHOICE, log
    entry 47). -/
def typeOk (i : Instr) (t : Nat) : Bool :=
  match i with
  | .add .. | .sub .. | .mullo .. | .mulhi .. | .mad .. | .div .. | .rem .. | .min .. | .max .. | .and .. | .or ..
  | .xor .. | .andn .. | .shl .. | .shr .. | .sar .. | .rol .. | .bfx .. | .cmp .. | .neg .. | .not .. | .popc ..
  | .clz .. | .brev .. => tyInt t
  | .addc .. | .subb .. => t == 0 || t == 6
  | .bfi .. => [0, 1, 6, 7].contains t
  | .abs .. => tySigned t
  | .fadd .. | .fsub .. | .fmul .. | .fma .. | .fmin .. | .fmax .. | .fdiv .. | .fcmp .. | .frcp .. | .frsq ..
  | .fsqrt .. | .frint .. | .fclass .. => tyFp t
  | .fexp2 .. | .flog2 .. | .fsin .. | .fcos .. | .ftanh .. | .qpack .. | .qunpk .. | .ldf .. | .stf .. => tyFp32 t
  | .srnd .. => t == 8 || t == 11
  | .lred _ _ o | .lscan _ _ _ o => if o < 3 then tyInt t || tyFp t else tyInt t
  | .amo _ _ _ op | .red _ _ op => amoType op t
  | .cas .. => [0, 1, 6, 7, 8, 11].contains t
  | .collAllreduce d .. | .collReducescatter d .. =>
    (match d with | .acc _ => t == 8 | .s _ => [0, 1, 8, 9, 10].contains t)
  | _ => true

/-- The pairs SRND assigns (R105): with TYPE f32 there is no f64. -/
def srndOk (i : Instr) (t : Nat) : Bool :=
  match i with
  | .srnd _ _ d _ => !(t == 8 && d == 11)
  | _ => true

/-- R58, case 5, as far as TYPE decides it: a typed operand of a 64-bit type names an even register or no special
    value. -/
def typedOk (ty : Nat) : Opd → Bool
  | .src x .typed _ =>
    if ty64 ty then (match x with | .v n | .s n => n % 2 == 0 | x => !srcSpecial x) else true
  | .dst d .typed _ | .both d .typed =>
    if ty64 ty then (match d with | .v n | .s n => n % 2 == 0 | .none => true) else true
  | _ => true

/-- R58, case 6, as far as TYPE decides it (R44). -/
def modsTypeOk (i : Instr) (ty : Nat) : Bool :=
  match modsOf i with
  | none => true
  | some m =>
    let sgn := tySigned ty || tyFloat ty
    let free := match i with | .cvt .. | .srnd .. | .qpack .. | .qunpk .. => true | _ => false
    let clampTy := match i with | .cvt _ _ t _ => tyFloat t | _ => tyFloat ty
    ((!m.nega && !m.negb && !m.absa && !m.absb) || sgn) && (!m.clamp || clampTy)
      && (m.scale == 0 || free || tyFloat ty)

/-- Every check of R58 that the state decides. -/
def issueFormOk (i : Instr) (ty : Nat) : Bool :=
  (opds i).all (typedOk ty) && modsTypeOk i ty && typeOk i ty && srndOk i ty

/-! ## R59 -/

/-- Stores and atomics in the sense of R51. -/
def isStoreOrAtomic : Instr → Bool
  | .stB .. | .stH .. | .stW .. | .stD .. | .stQ .. | .stbyW .. | .stbyD .. | .stbyQ .. | .stf .. | .amo .. | .cas ..
  | .red .. | .stl .. => true
  | _ => false

/-- Whether a latch that an operand names can be read (R48, R49). -/
def latchOk (sp : Split) (ty : Nat) : Opd → Bool
  | .src (.latch k) w _ =>
    match sp.window[k - 1]? with
    | none => false
    | some e => e.nameable && (e.wide || w.regs ty == 1)
  | _ => true

/-- Whether the v registers of an operand lie below the count (R34). -/
def countOk (nregs ty : Nat) (o : Opd) : Bool :=
  (opdReads ty o ++ opdWrites ty o).all fun r => match r with | .v n => n < nregs | _ => true

/-- Whether an operand writes an s register (R33). -/
def opdWritesS : Opd → Bool
  | .dst (.s _) _ _ | .both (.s _) _ => true
  | _ => false

/-- R59: the instruction's operands can be used in this state. -/
def operandsOk (t : Terrace) (sp : Split) (i : Instr) : Bool :=
  let ty := modeType sp.mode
  (opds i).all (latchOk sp ty) && (opds i).all (countOk t.nregs ty)
    && !(t.divided && (opds i).any opdWritesS)
    && !(namesLatch i && (sp.lastStore || 7 ≤ sp.members))

end Sys2Proof.Machine
end

