-- ==== Sys2Proof/Machine/Issue.lean ====
section
/-! DEFINITION. The issue of an instruction (R47, R50 to R53, R58 to R60, R85, R322, R326 to R330): the checks before
its effect, the effect, and what every issue does beside it. -/

namespace Sys2Proof.Machine

/-! ## Fetching (R27, R321) -/

/-- n bytes at a virtual address from instruction lines, where every line stands there and the code may reach it (R357). -/
def fetchBytes (ls : List Line) (sup : Bool) (asid va : Nat) : Nat → Option (List Byte)
  | 0 => some []
  | n + 1 =>
    match ls.find? fun l => l.line == va / 64 && l.asid == asid && (sup || l.leaf.user) with
    | none => none
    | some l => (fetchBytes ls sup asid (va + 1) n).map fun bs => l.bytes.getD (va % 64) 0 :: bs

/-- The instruction word and, where X is set, its extension word, from instruction lines. None where a line is missing. -/
def fetchInstr (ls : List Line) (sup : Bool) (asid va : Nat) : Option (List Byte) :=
  match fetchBytes ls sup asid va 4 with
  | none => none
  | some w => if 128 ≤ (w.getD 3 0).toNat then (fetchBytes ls sup asid (va + 4) 4).map (w ++ ·) else some w

/-- The instruction lines a split fetches from: those it holds of frames that are cached nowhere (R372), and those of its
    partition's instruction cache that are readable (R416). -/
def State.codeLines (s : State) (t : Terrace) (sp : Split) : List Line :=
  match s.part? t.core t.vf with
  | none => sp.buf
  | some p => sp.buf ++
      (if s.flaws.isEmpty then p.ilines else p.ilines.filter fun l => !s.flaws.contains (.instrLine p.core p.pidx l.line))

/-- The bytes of an instruction for the issue logic's look ahead: from the lines the split fetches from, else as a fetch from
    a frame of this module would read them. -/
def State.peekBytes (s : State) (t : Terrace) (sp : Split) (va : Nat) : Option (List Byte) :=
  match fetchInstr (s.codeLines t sp) sp.supervisor (s.tenant t.vf).asid va with
  | some bs => some bs
  | none =>
    if !isGlobal va then none
    else
      match (s.translate t.vf (dieOf t.core) none ⟨false, true, sp.supervisor⟩ va).2 with
      | .ok p => (match p.owner with | .die _ => some (s.rdBytes p.pa 8) | _ => none)
      | .error _ => none

/-- Whether an opcode has a form whose a field may name a latch (R28, R50, R55, R56, R211). -/
def opcodeReadsA (op : Nat) : Bool :=
  (0x01 ≤ op && op ≤ 0x19) || op == 0x1C || (0x20 ≤ op && op ≤ 0x2C) || (0x30 ≤ op && op ≤ 0x37)
    || (0x40 ≤ op && op ≤ 0x4F) || op == 0x52 || (0x5B ≤ op && op ≤ 0x5D)

/-- The same of its b field. -/
def opcodeReadsB (op : Nat) : Bool :=
  (0x01 ≤ op && op ≤ 0x18) || (0x20 ≤ op && op ≤ 0x27) || (0x30 ≤ op && op ≤ 0x33)
    || (0x40 ≤ op && op ≤ 0x4F) || op == 0x52 || (0x5B ≤ op && op ≤ 0x5D)

/-- The same of its d field, a store's value. -/
def opcodeReadsD (op : Nat) : Bool := [0x48, 0x49, 0x4A, 0x4D].contains op

/-- Whether a word that no instruction of the opcode map has names a latch in an operand field of its opcode that may
    name one (R50, R211). DEDUCED (log entry 14). -/
def namesWord (w : Word) : Bool :=
  let f := unpackWord w 0
  let latch := fun x => 0xF1 ≤ x && x ≤ 0xF7
  (opcodeReadsA f.op && latch f.a) || (opcodeReadsB f.op && latch f.b) || (opcodeReadsD f.op && latch f.d)

/-- The first word of an instruction's bytes. -/
def wordAt (bs : List Byte) : Word := wordOfBytes (bs.getD 0 0) (bs.getD 1 0) (bs.getD 2 0) (bs.getD 3 0)

/-- Whether the instruction at an address names a latch, as far as it can be seen (R50). -/
def State.namesAt (s : State) (t : Terrace) (sp : Split) (pc : DWord) : Bool :=
  match s.peekBytes t sp pc.toNat with
  | none => false
  | some bs => match decode bs with | .ok (i, _) => namesLatch i | .error _ => namesWord (wordAt bs)

/-! ## Latencies and latch entries (R47, R85) -/

/-- The rows of R85, the last four without a place in the vector ALU's hold. -/
inductive LatRow where
  | alu | mul | div | fp | fpLong | sel | fcmp | shuffle | vote | other
deriving DecidableEq, Repr

/-- The row of R85 an instruction stands in. -/
def latRow : Instr → LatRow
  | .add .. | .addc .. | .sub .. | .subb .. | .min .. | .max .. | .and .. | .or .. | .xor .. | .andn .. | .shl ..
  | .shr .. | .sar .. | .rol .. | .bfx .. | .bfi .. | .lea .. | .abs .. | .neg .. | .not .. | .popc .. | .clz ..
  | .brev .. | .mov .. | .movi .. | .movh .. => .alu
  | .mullo .. | .mulhi .. | .mad .. => .mul
  | .div .. | .rem .. => .div
  | .fadd .. | .fsub .. | .fmul .. | .fma .. | .fmin .. | .fmax .. | .cvt .. | .srnd .. | .qpack .. | .qunpk .. => .fp
  | .fdiv .. | .frcp .. | .frsq .. | .fsqrt .. | .fexp2 .. | .flog2 .. | .fsin .. | .fcos .. | .ftanh .. | .frint ..
  | .fclass .. => .fpLong
  | .sel .. | .cmp .. | .pset .. => .sel
  | .fcmp .. => .fcmp
  | .shflIdx .. | .shflUp .. | .shflDown .. | .shflXor .. | .bcast .. => .shuffle
  | .voteAny .. | .voteAll .. | .voteBallot .. | .voteUni .. | .lred .. | .lscan .. | .rng .. => .vote
  | _ => .other

/-- Whether an instruction is a floating-point f64 instruction (R85). -/
def isF64 (i : Instr) (ty : Nat) : Bool :=
  let res := match i with | .cvt _ _ t _ => t | _ => ty
  (match latRow i with | .fp | .fpLong | .fcmp => true | _ => false) && (ty == 11 || res == 11)

/-- Whether an instruction waits for the slot's vector ALU (R85, R324). -/
def usesAlu (i : Instr) : Bool :=
  match latRow i with | .alu | .mul | .div | .fp | .fpLong | .sel => true | _ => false

/-- The fixed latency of an instruction (R85, R145, R322, R378); none where it has none. -/
def latency (i : Instr) (ty : Nat) : Option Nat :=
  let extra := if isF64 i ty then 7 else 0
  match latRow i with
  | .alu | .sel => some 2
  | .mul => some (if ty64 ty then 8 else 4)
  | .div => some (if ty64 ty then 16 else 8)
  | .fp | .fcmp => some (4 + extra)
  | .fpLong => some (8 + extra)
  | .shuffle => some 6
  | .vote => some 8
  | .other => match i with | .call .. => some 2 | .sysrd .. | .gview .. | .grank .. | .macrd .. => some 8 | _ => none

/-- Latch producers (R47). -/
def latchProducer (i : Instr) : Bool :=
  match latRow i with | .alu | .mul | .div | .fp | .fpLong => true | _ => false

/-- Instructions after which the next is available 2 cycles later (R124). -/
def isBranch : Instr → Bool
  | .bra .. | .brp .. | .call .. | .jmpr .. | .ret .. => true
  | _ => false

/-! ## The issue -/

/-- What an instruction's effect comes to. -/
inductive Res where
  /-- it has completed; `vals` is its latch entry, wide or not, where it is a latch producer -/
  | done (s : State) (vals : Option (Bool × List DWord))
  /-- it has completed, and `place` says what becomes of its split, which stands after it -/
  | jump (s : State) (place : State → State)
  /-- it traps; `counted` where it has had an effect (R389) -/
  | trap (s : State) (tr : Trap) (counted : Bool)
  /-- it does not issue yet (R324) -/
  | stay
  /-- it has issued, and holds its split in a wait -/
  | wait (s : State) (w : Wait)
  /-- it has issued and holds its split until an event completes it -/
  | hold (s : State) (h : Hold)

/-- Whether a word at a split's program counter is a member of a latch chain (R50). -/
def Split.memberWord (sp : Split) (w : Word) : Bool := namesWord w && !sp.window.isEmpty

/-- Whether such a word, of a length in bytes, is a member or the head of one. -/
def State.chainWord (s : State) (t : Terrace) (sp : Split) (w : Word) (len : Nat) : Bool :=
  if namesWord w then sp.memberWord w else s.namesAt t sp (sp.pc + BitVec.ofNat 64 len)

/-- The context of an instruction of a split. -/
def State.ctxOf (s : State) (uid sid : Nat) (i : Instr) : Option Ctx :=
  match s.ter? uid with
  | none => none
  | some t =>
    match t.split? sid with
    | none => none
    | some sp =>
      let a := activeOf t sp
      let len := 4 * (encode i).length
      let member := namesLatch i && !sp.window.isEmpty
      let q := t.quarter.bind fun u => s.quarters.find? fun q => q.uid == u
      some
        { uid := uid, sid := sid, t := t, sp := sp, i := i,
          active := match sp.read, sp.redo with
            | some r, _ => r.active
            | none, some (x, m) => if x == sp.pc then a &&& m else a
            | none, none => a
          len := len, now := s.now t.core, diecoord := s.dieCoord (dieOf t.core)
          qid := match q with | some q => q.id | none => 0xFFFFFFFF#32
          member := member
          headsChain := if namesLatch i then member else s.namesAt t sp (sp.pc + BitVec.ofNat 64 len)
          resumed := sp.read.isSome
          rt := match sp.read with | some r => { t with v := r.v, vw := r.vw, s := r.s, sw := r.sw, p := r.p } | none => t
          window := match sp.read with | some r => r.window | none => sp.window
          ord := match sp.read with | some r => r.ord | none => s.fresh }

/-- The context of the split that issues next (the head of the issue list). -/
def State.issuer (s : State) (i : Instr) : Option Ctx :=
  match s.issue with
  | [] => none
  | (uid, sid) :: _ => s.ctxOf uid sid i

/-- Drop the head of the issue list. -/
def State.popIssue (s : State) : State := { s with issue := s.issue.tail }

/-- An issue as its slot records it (R326, R328, R329): a switch empties the window of the split that issued last; the
    greedy run, the ring position and the vector ALU's hold. -/
def State.noteIssue (s : State) (c : Ctx) : State :=
  match s.part? c.t.core c.t.vf with
  | none => s
  | some p =>
    let k := c.t.ter / 16
    let q := p.slotState.getD k SlotState.init
    let me := (c.uid, c.sid)
    let s := match q.last with
      | some o => if o = me then s else s.updSplit o.1 o.2 fun x => { x with window := [] }
      | none => s
    let q' : SlotState :=
      { last := some me, greedy := some me, run := if q.greedy = some me then q.run + 1 else 1,
        ring := some (c.t.ter % 16, c.sp.low), yielded := none,
        aluUntil := if isF64 c.i c.ty then c.now + 8 else q.aluUntil }
    let s := s.updPart c.t.core p.pidx fun p =>
      { p with slotState := ((List.range 4).map fun j => p.slotState.getD j SlotState.init).set k q' }
    s.updSplit c.uid c.sid fun x => { x with waited := 0, hold := .none }

/-- Set pending bits of the registers and predicates an instruction writes (R322). -/
def Terrace.setPending (t : Terrace) (now : Nat) (rs : List PReg) (clearAt : Option Nat) (access : Nat) : Terrace :=
  { t with pending :=
      (t.pending.filter fun p => match p.clearAt with | some c => now < c | none => true)
        ++ rs.map fun r => ⟨r, clearAt, access⟩ }

/-- The lines of uncached frames that a split holds on to after an issue: those of a chain's next member, which issues with
    no other fetch between (R50, R372). -/
def Split.keepBuf (sp : Split) (pc : DWord) : List Line :=
  match sp.buf with
  | [] => []
  | l :: _ =>
    match fetchInstr sp.buf sp.supervisor l.asid pc.toNat with
    | none => []
    | some bs => if (match decode bs with | .ok (i, _) => namesLatch i | .error _ => namesWord (wordAt bs)) then sp.buf else []

/-- The split after an instruction of it: its window, chain state and program counter, and the lanes that rejoin
    (R47, R50, R52, R321, R404). -/
def Split.retire (sp : Split) (c : Ctx) (vals : Option (Bool × List DWord)) : Split :=
  let e : Latch := match vals with
    | some (w, vs) => ⟨latchProducer c.i, w, vs, c.now + (latency c.i c.ty).getD 0⟩
    | none => ⟨false, false, [], c.now⟩
  let names := namesLatch c.i
  { sp with
    pc := c.nextPc
    window := e :: sp.window.take 7
    members := if names then sp.members + 1 else 0
    head := if names then sp.head else c.pc
    lastStore := isStoreOrAtomic c.i
    avail := max sp.avail (c.now + if isBranch c.i then 2 else 1)
    mask := match sp.after with | some m => m | none => sp.mask
    after := none
    kept := none
    gets := []
    list := none
    buf := sp.keepBuf c.nextPc
    hold := .none
    held := none
    read := none
    redo := match sp.redo with
      | some r => if r.1 == c.pc || (!names && !c.sp.window.isEmpty) then none else some r
      | none => none }

/-- The pending bits that an access or a waiting instruction set are clear (R322). -/
def Terrace.clearOwned (t : Terrace) (n : Nat) : Terrace :=
  { t with pending := t.pending.filter fun p => !(p.clearAt == none && p.access == n) }

/-- Whether an instruction's effect overwrites its own count: CNTLD's, which sets every counter once its image has been read
    (R389, R396). -/
def overwritesCount : Instr → Bool
  | .cntld _ => true
  | _ => false

/-- An issue, where the instruction has not issued before: its count and what its slot records (R326, R389). -/
def State.issued (s : State) (c : Ctx) : State :=
  if c.resumed then s.updTer c.uid fun t => t.clearOwned c.sid else (s.countVf c.t.core c.t.vf evInstr 1).noteIssue c

/-- What follows a completed instruction: its count, its pending bits, the split moved on. -/
def State.retire (s : State) (c : Ctx) (vals : Option (Bool × List DWord)) : State :=
  let s := s.updTer c.uid fun t =>
    match latency c.i c.ty with
    | some n => t.setPending c.now (writesOf c.sp.mode c.i) (some (c.now + n)) 0
    | none => t
  ((s.updSplit c.uid c.sid fun sp => sp.retire c vals).issued c).popIssue

/-- The trap of an instruction, with the chain's rules (R52): the faulted lanes of a final store or atomic are kept for
    its second run. -/
def State.trapOut (s : State) (c : Ctx) (tr : Trap) (counted : Bool) : State :=
  let head := if c.member then c.sp.head else c.pc
  let redo := if c.member && isStoreOrAtomic c.i then tr.fmask.map fun m => (c.pc, m) else none
  let s := if c.resumed then s.updTer c.uid fun t => t.clearOwned c.sid
    else if counted then s.countVf c.t.core c.t.vf evInstr 1 else s
  ((if c.resumed then s else s.noteIssue c).takeTrap c.uid c.sid c.headsChain head c.len tr redo c.now).popIssue

/-- The window address of a register word (R166); an s register has none. -/
def regAddr (ter n l : Nat) : Nat := 0x200000 + ter * 0x8000 + n * 128 + l * 4

/-- The lanes of an instruction that read an unreadable register word, and the first one's address (R416). An s register
    or a latch is no such word in the window; register n of the s file is number 256 + n of the upsets. -/
def State.badLanes (s : State) (c : Ctx) : Lanes × Nat :=
  let rs := readsOf c.sp.mode c.i
  let hit := fun l => rs.find? fun r => match r with
    | .v n => s.flaws.contains (.reg c.uid n l)
    | .s n => s.flaws.contains (.reg c.uid (256 + n) 0)
    | .p _ => false
  let ls := c.lanes.filter fun l => (hit l).isSome
  (maskOf ls, match ls with
    | [] => 0
    | l :: _ => match hit l with | some (.v n) => regAddr c.t.ter n l | _ => 0)

/-- A register word that an instruction writes in full is readable again. -/
def State.healRegs (s : State) (c : Ctx) : State :=
  if s.flaws.isEmpty then s
  else
    let ws := writesOf c.sp.mode c.i
    { s with flaws := s.flaws.filter fun f => match f with
        | .reg t n l => !(t == c.uid && (if n < 256 then ws.contains (.v n) && c.active.getLsbD l else ws.contains (.s (n - 256))))
        | _ => true }

/-- An instruction's effect, its lanes that read an unreadable word left out: those trap, and the others complete
    (R193, R416). An instruction with no effect by lanes traps before it has any. -/
def guarded (body : State → Ctx → Res) (s : State) (c : Ctx) : Res :=
  let b := if s.flaws.isEmpty then (0, 0) else s.badLanes c
  if b.1 == 0 then body s c
  else
    match body s { c with active := c.active &&& ~~~b.1 } with
    | .done s1 _ =>
      -- a trapped instruction leaves C as it was (R68)
      .trap ((s1.updSplit c.uid c.sid fun x => { x with rc := c.sp.rc }).terErr c.uid)
        ⟨0x16, 0, false, false, some b.1, b.2⟩ true
    | _ => .trap (s.terErr c.uid) ⟨0x16, 0, false, false, none, b.2⟩ false

/-- What an instruction that goes on after a wait read at its issue. -/
def Ctx.atIssue (c : Ctx) : AtIssue := ⟨c.rt.v, c.rt.vw, c.rt.s, c.rt.sw, c.rt.p, c.window, c.active, c.ord⟩

/-- An instruction that waits has issued and holds its split; the bits of what it will write are pending (R320, R322). -/
def State.await (s : State) (c : Ctx) (w : Wait) : State :=
  let s := if c.resumed then s
    else (if overwritesCount c.i then s.noteIssue c else s.issued c).updTer c.uid fun t => t.setPending c.now (writesOf c.sp.mode c.i) none c.sid
  (s.updSplit c.uid c.sid fun x =>
    { x with hold := .wait w, held := some c.i, read := some c.atIssue, avail := max x.avail (c.now + 1) }).popIssue

/-- An instruction that does not issue yet (R324): its split stays a candidate, and its slot chooses again in this cycle.
    One that has issued before tries again in the next. -/
def State.stay (s : State) (c : Ctx) : State :=
  if c.resumed then s.await c (.cycle (c.now + 1))
  else
    let k := s.core c.t.core
    ((s.updSplit c.uid c.sid fun x => { x with avail := max x.avail (c.now + 1) }).setCore c.t.core
      { k with again := (c.t.ter / 16) :: k.again }).popIssue

/-- What an instruction's effect does to the machine. -/
def State.finish (s0 : State) (c : Ctx) (r : Res) : State :=
  commit s0 (match r with
    | .done s vals => ((s.noted s0).healRegs c).retire c vals
    | .jump s place => place (((s.noted s0).healRegs c).retire c none)
    | .trap s tr counted => (s.trapOut c tr counted).noted s0
    | .stay => s0.stay c
    | .wait s w => (s.noted s0).await c w
    | .hold s h => ((s.noted s0).issued c).popIssue.updSplit c.uid c.sid fun x =>
        { x with hold := h, held := some c.i, read := none })

/-- An instruction that held its split completes: the split stands after it. -/
def State.retireHeld (s : State) (uid sid : Nat) : State :=
  match (s.ter? uid).bind fun t => (t.split? sid).bind (·.held) with
  | none => s
  | some i =>
    match s.ctxOf uid sid i with
    | none => s
    | some c => s.updSplit uid sid fun sp => sp.retire c none

/-- An instruction that held its split ends in a trap. -/
def State.trapHeld (s : State) (uid sid : Nat) (tr : Trap) : State :=
  match (s.ter? uid).bind fun t => (t.split? sid).bind (·.held) with
  | none => s
  | some i =>
    match s.ctxOf uid sid i with
    | none => s
    | some c =>
      let head := if c.member then c.sp.head else c.pc
      let redo := if c.member && isStoreOrAtomic i then tr.fmask.map fun m => (c.pc, m) else none
      s.takeTrap uid sid c.headsChain head c.len tr redo c.now

/-- The checks of R58 and R59 that the state decides: the trap they end in. -/
def Ctx.check (c : Ctx) : Option Trap :=
  if !issueFormOk c.i c.ty then some (.illegalInstr c.pc)
  else if !operandsOk c.t c.sp c.i then some (.illegalOperand c.pc)
  else none

/-- Issue an instruction: the checks, then its effect. `own` is a check that stands between those of R58 and R59. -/
def issueWith (i : Instr) (own : State → Ctx → Option Trap) (body : State → Ctx → Res) (s : State) :
    Host.Outcome State Fault Refusal :=
  match s.issuer i with
  | none => .fault .noIssuer
  | some c =>
    if c.resumed then .next (s.finish c (body s c))
    else if !issueFormOk c.i c.ty then .next (s.finish c (.trap s (.illegalInstr c.pc) false))
    else
      match own s c with
      | some tr => .next (s.finish c (.trap s tr false))
      | none =>
        if !operandsOk c.t c.sp c.i then .next (s.finish c (.trap s (.illegalOperand c.pc) false))
        else .next (s.finish c (guarded body s c))

/-- Issue an instruction with no check of its own. -/
def issue (i : Instr) (body : State → Ctx → Res) (s : State) : Host.Outcome State Fault Refusal :=
  issueWith i (fun _ _ => none) body s

end Sys2Proof.Machine
end

