-- ==== Sys2Proof/Machine/Flags.lean ====
section
/-! DEFINITION. Results of register instructions: how a result is written (R54, R64), what the modifiers do (R45), and
the carries and comparisons that predicates receive (R89, R97, R101). -/

namespace Sys2Proof.Machine

/-- A w-bit result extended to its 32-bit register, or the 64 bits of a pair (R64). -/
def extendTy (ty bits : Nat) : Nat :=
  if tySigned ty && tyWidth ty < 32 then wrapTo 32 (signExt (tyWidth ty) bits) else bits

/-- The words of a register result of one or two registers. -/
def resWords (wide : Bool) (x : Nat) : List Word := if wide then words2 x else [BitVec.ofNat 32 x]

/-- The latch values of a result: 0 in inactive lanes (R48). -/
def Ctx.latchVals (c : Ctx) (f : Nat → Nat) : List DWord :=
  (List.range 32).map fun l => if c.active.getLsbD l then BitVec.ofNat 64 (f l) else 0

/-- Write a result to d and complete, with its latch entry (R54). `f` gives the register value of each active lane. -/
def Ctx.result (c : Ctx) (s : State) (d : Dst) (wide : Bool) (f : Nat → Nat) : Res :=
  let vals := c.latchVals f
  .done (s.updTer c.uid fun t => t.writeDst d wide c.active fun l => resWords wide (vals.getD l 0).toNat)
    (some (wide, vals))

/-- A result in TYPE (R64). -/
def Ctx.resultTy (c : Ctx) (s : State) (d : Dst) (ty : Nat) (f : Nat → Nat) : Res :=
  c.result s d (ty64 ty) fun l => extendTy ty (f l)

/-- The modifier word in force (R43). -/
def zeroMods : Mods := ⟨false, false, false, false, false, false, 0⟩

/-- The modifiers of an instruction. -/
def modsWord (m : Option Mods) : Mods := m.getD zeroMods

/-- Modify on the value from a (R45), on integers. -/
def intA (m : Mods) (x : Int) : Int :=
  let x : Int := if m.absa then x.natAbs else x
  if m.nega then -x else x

/-- Modify on the value from b, on integers. -/
def intB (m : Mods) (x : Int) : Int :=
  let x : Int := if m.absb then x.natAbs else x
  if m.negb then -x else x

/-- Modify on the value from a, on exact values. -/
def xrA (m : Mods) (x : Xr) : Xr :=
  let x := if m.absa then x.abs else x
  if m.nega then x.neg else x

/-- Modify on the value from b, on exact values. -/
def xrB (m : Mods) (x : Xr) : Xr :=
  let x := if m.absb then x.abs else x
  if m.negb then x.neg else x

/-- SCALE as a signed exponent (R45). -/
def modExp (m : Mods) : Int := m.scale.toInt

/-- Finish of R45 for a floating-point result type: scale, round once, clamp. -/
def finishXr (m : Mods) (ty rnd u : Nat) (sat : Bool) (r : Xr) : Nat :=
  let bits := roundToType ty rnd u (sat || m.sat) (r.scale (modExp m))
  if m.clamp then clamp01 ty bits else bits

/-- The draw of a lane and element from the generator at issue (R68). -/
def Ctx.draw (c : Ctx) (l e : Nat) : Nat := Sys2Proof.Machine.draw c.sp.rk c.sp.rc l e

/-- C advances by 1 when the instruction rounds under SR with some lane active (R68). -/
def Ctx.advance (c : Ctx) (s : State) (sr : Bool) : State :=
  if sr && c.active != 0 then s.updSplit c.uid c.sid fun x => { x with rc := x.rc + 1 } else s

/-- Add a lane's bit to a predicate value. -/
def laneBits (ls : List Nat) (f : Nat → Bool) : Lanes := maskOf (ls.filter f)

/-- Write a predicate in the active lanes. -/
def Ctx.writePred (c : Ctx) (s : State) (p : Nat) (f : Nat → Bool) : State :=
  s.updTer c.uid fun t => t.pset p c.active (laneBits c.lanes f)

/-- The carry of ADDC and the borrow of SUBB, from and to p7 (R89). -/
def Ctx.carryIn (c : Ctx) (l : Nat) : Int := if (c.rt.pget 7).getLsbD l then 1 else 0

/-- Whether an exact sum carries out of an unsigned type (R89). -/
def carryOut (ty : Nat) (r : Int) : Bool := r > tyMax ty

/-- Whether an exact difference borrows (R89). -/
def borrowOut (r : Int) : Bool := r < 0

/-- The integer comparisons of CMP (R97). -/
def cmpInt (cond : Nat) (x y : Int) : Bool :=
  match cond with
  | 0 => x == y
  | 1 => x != y
  | 2 => x < y
  | 3 => x ≤ y
  | 4 => x > y
  | _ => x ≥ y

/-- The comparisons of FCMP (R101). -/
def cmpXr (cond : Nat) (x y : Xr) : Bool :=
  let un := x.isNan || y.isNan
  let k := Xr.cmp x y
  match cond with
  | 0 => !un && k == 0
  | 1 => un || k != 0
  | 2 => !un && k < 0
  | 3 => !un && k ≤ 0
  | 4 => !un && k > 0
  | 5 => !un && k ≥ 0
  | 6 => un
  | _ => !un

end Sys2Proof.Machine
end

