-- ==== Sys2Proof/Machine/Float.lean ====
section
/-! DEFINITION. Floating-point instructions (R99 to R103), conversion and narrow packing (R104 to R107), the
stochastic-rounding generator (R108). -/

namespace Sys2Proof.Machine

/-- Whether SR is in effect for the mode word's rounding. -/
def Ctx.srMode (c : Ctx) : Bool := c.rnd == 5

/-- The exact value of a source as TYPE. -/
def Ctx.val (c : Ctx) (x : Src) (l : Nat) : Xr := valueOf c.ty (c.srcTy c.ty x l)

/-- The template of R86 on floating-point values: Op is exact, Finish rounds once with draw (l, 0). -/
def fpBin (d : Dst) (a b : Src) (m : Option Mods) (op : Xr → Xr → Xr) (s : State) (c : Ctx) : Res :=
  let w := modsWord m
  (c.advance s c.srMode) |> fun s =>
    c.resultTy s d c.ty fun l =>
      finishXr w c.ty c.rnd (c.draw l 0) c.sat (op (xrA w (c.val a l)) (xrB w (c.val b l)))

/-- A one-source function (R102): the exact value, rounded once by Finish. -/
def fpFun (d : Dst) (a : Src) (m : Option Mods) (op : Xr → Xr) (s : State) (c : Ctx) : Res :=
  let w := modsWord m
  c.resultTy (c.advance s c.srMode) d c.ty fun l =>
    finishXr w c.ty c.rnd (c.draw l 0) c.sat (op (xrA w (c.val a l)))

/-- Whether the rounding mode is RDN, which gives an exact zero sum its sign (R65). -/
def Ctx.rdn (c : Ctx) : Bool := c.rnd == 3

/-- x rounded to an integral value (R102): the sign of a zero stays. -/
def integral (rnd u : Nat) (x : Xr) : Xr :=
  match x with
  | .fin n m e st => .fin n (roundAt rnd u n m e st 0) 0 false
  | x => x

/-- The class mask of R103. -/
def classMask (f : FFmt) (neg : Bool) (c : Nat) : Nat :=
  let ex := c / 2 ^ f.fbits
  let fr := c % 2 ^ f.fbits
  if ex == 2 ^ f.ebits - 1 then
    if fr == 0 then (if neg then 2 ^ 0 else 2 ^ 7)
    else if fr.testBit (f.fbits - 1) then 2 ^ 8 else 2 ^ 9
  else if ex == 0 then
    if fr == 0 then (if neg then 2 ^ 3 else 2 ^ 4) else (if neg then 2 ^ 2 else 2 ^ 5)
  else if neg then 2 ^ 1 else 2 ^ 6

/-- FADD (R99). -/
def execFadd (d : Dst) (a b : Src) (m : Option Mods) (s : State) : Host.Outcome State Fault Refusal :=
  issue (.fadd d a b m) (fun s c => fpBin d a b m (Xr.add c.rdn) s c) s

/-- FSUB (R99). -/
def execFsub (d : Dst) (a b : Src) (m : Option Mods) (s : State) : Host.Outcome State Fault Refusal :=
  issue (.fsub d a b m) (fun s c => fpBin d a b m (fun x y => Xr.add c.rdn x y.neg) s c) s

/-- FMUL (R99). -/
def execFmul (d : Dst) (a b : Src) (m : Option Mods) (s : State) : Host.Outcome State Fault Refusal :=
  issue (.fmul d a b m) (fpBin d a b m Xr.mul) s

/-- FMA (R99): the product and the sum are exact; the addend takes no modifier. -/
def execFma (d : Dst) (a b : Src) (m : Option Mods) (s : State) : Host.Outcome State Fault Refusal :=
  issue (.fma d a b m) (fun s c =>
    let w := modsWord m
    c.resultTy (c.advance s c.srMode) d c.ty fun l =>
      finishXr w c.ty c.rnd (c.draw l 0) c.sat
        (Xr.add c.rdn (Xr.mul (xrA w (c.val a l)) (xrB w (c.val b l))) (c.val (dstSrc d) l))) s

/-- FMIN (R100). -/
def execFmin (d : Dst) (a b : Src) (m : Option Mods) (s : State) : Host.Outcome State Fault Refusal :=
  issue (.fmin d a b m) (fpBin d a b m (Xr.minmax false)) s

/-- FMAX (R100). -/
def execFmax (d : Dst) (a b : Src) (m : Option Mods) (s : State) : Host.Outcome State Fault Refusal :=
  issue (.fmax d a b m) (fpBin d a b m (Xr.minmax true)) s

/-- FCMP (R101). -/
def execFcmp (cond p : Nat) (a b : Src) (m : Option Mods) (s : State) : Host.Outcome State Fault Refusal :=
  issue (.fcmp cond p a b m) (fun s c =>
    let w := modsWord m
    .done (c.writePred s p fun l => cmpXr cond (xrA w (c.val a l)) (xrB w (c.val b l))) none) s

/-- FDIV (R99). -/
def execFdiv (d : Dst) (a b : Src) (m : Option Mods) (s : State) : Host.Outcome State Fault Refusal :=
  issue (.fdiv d a b m) (fpBin d a b m Xr.div) s

/-- FRCP (R102). -/
def execFrcp (d : Dst) (a : Src) (m : Option Mods) (s : State) : Host.Outcome State Fault Refusal :=
  issue (.frcp d a m) (fpFun d a m Xr.rcp) s

/-- FRSQ (R102). -/
def execFrsq (d : Dst) (a : Src) (m : Option Mods) (s : State) : Host.Outcome State Fault Refusal :=
  issue (.frsq d a m) (fpFun d a m Xr.rsqrt) s

/-- FSQRT (R102). -/
def execFsqrt (d : Dst) (a : Src) (m : Option Mods) (s : State) : Host.Outcome State Fault Refusal :=
  issue (.fsqrt d a m) (fpFun d a m Xr.sqrt) s

/-- FEXP2 (R102). -/
def execFexp2 (d : Dst) (a : Src) (m : Option Mods) (s : State) : Host.Outcome State Fault Refusal :=
  issue (.fexp2 d a m) (fpFun d a m Xr.exp2) s

/-- FLOG2 (R102). -/
def execFlog2 (d : Dst) (a : Src) (m : Option Mods) (s : State) : Host.Outcome State Fault Refusal :=
  issue (.flog2 d a m) (fpFun d a m Xr.log2) s

/-- FSIN (R102). -/
def execFsin (d : Dst) (a : Src) (m : Option Mods) (s : State) : Host.Outcome State Fault Refusal :=
  issue (.fsin d a m) (fpFun d a m Xr.sin) s

/-- FCOS (R102). -/
def execFcos (d : Dst) (a : Src) (m : Option Mods) (s : State) : Host.Outcome State Fault Refusal :=
  issue (.fcos d a m) (fpFun d a m Xr.cos) s

/-- FTANH (R102). -/
def execFtanh (d : Dst) (a : Src) (m : Option Mods) (s : State) : Host.Outcome State Fault Refusal :=
  issue (.ftanh d a m) (fpFun d a m Xr.tanh) s

/-- FRINT (R102): two roundings, with draws (l, 0) and (l, 1). -/
def execFrint (d : Dst) (a : Src) (m : Option Mods) (s : State) : Host.Outcome State Fault Refusal :=
  issue (.frint d a m) (fun s c =>
    let w := modsWord m
    c.resultTy (c.advance s c.srMode) d c.ty fun l =>
      finishXr w c.ty c.rnd (c.draw l 1) c.sat (integral c.rnd (c.draw l 0) (xrA w (c.val a l)))) s

/-- FCLASS (R103): NEGA and ABSA change the sign before classification. -/
def execFclass (d : Dst) (a : Src) (m : Option Mods) (s : State) : Host.Outcome State Fault Refusal :=
  issue (.fclass d a m) (fun s c =>
    let w := modsWord m
    let f := tyFmt c.ty
    c.result s d false fun l =>
      let bits := c.srcTy c.ty a l
      let n := bits / f.signBit % 2 == 1
      classMask f ((n && !w.absa) != w.nega) (bits % f.signBit)) s

/-- The exact value CVT converts: x after Modify (R104). -/
def Ctx.cvtVal (c : Ctx) (w : Mods) (a : Src) (l : Nat) : Xr :=
  if tyInt c.ty then .ofInt (intA w (intOf c.ty (c.srcTy c.ty a l))) else xrA w (c.val a l)

/-- CVT (R104). C advances where the source or the result is a floating-point type (R68). Between two integer types under SR a
    negative SCALE still rounds, by the draw from C, and leaves C as it is: R104 and R66 round by a draw where R68 says that such
    a CVT never draws (DESIGN CHOICE, log entry 48). -/
def execCvt (d : Dst) (a : Src) (t : Nat) (m : Option Mods) (s : State) : Host.Outcome State Fault Refusal :=
  issue (.cvt d a t m) (fun s c =>
    let w := modsWord m
    let sr := c.srMode && !(tyInt c.ty && tyInt t)
    c.resultTy (c.advance s sr) d t fun l => finishXr w t c.rnd (c.draw l 0) c.sat (c.cvtVal w a l)) s

/-- QPACK (R106). -/
def execQpack (d : Dst) (a : Src) (f : Nat) (m : Option Mods) (s : State) : Host.Outcome State Fault Refusal :=
  issue (.qpack d a f m) (fun s c =>
    let w := modsWord m
    let width := if f < 4 then 4 else 8
    let g := 32 / width
    let code := fun j =>
      if c.active.getLsbD j then roundToSet (elemFmt f) (modExp w) c.rnd (c.draw j 0) (c.sat || w.sat) (c.val a j) else 0
    c.result (c.advance s c.srMode) d false fun l =>
      (List.range g).foldl (fun r k => r + code (g * (l / g) + k) * 2 ^ (width * k)) 0) s

/-- QUNPK (R107). -/
def execQunpk (d : Dst) (a : Src) (f : Nat) (m : Option Mods) (s : State) : Host.Outcome State Fault Refusal :=
  issue (.qunpk d a f m) (fun s c =>
    let w := modsWord m
    let width := if f < 4 then 4 else 8
    let g := 32 / width
    c.resultTy (c.advance s c.srMode) d c.ty fun l =>
      let code := c.src a l / 2 ^ (width * (l % g)) % 2 ^ width
      finishXr w c.ty c.rnd (c.draw l 0) c.sat (if f < 4 then family4 f code else valueOf (fmtType f) code)) s

/-- SRND (R105): rounded under SR to the narrower type, written back in TYPE. -/
def execSrnd (d : Dst) (a : Src) (t : Nat) (m : Option Mods) (s : State) : Host.Outcome State Fault Refusal :=
  issue (.srnd d a t m) (fun s c =>
    let w := modsWord m
    c.resultTy (c.advance s true) d c.ty fun l =>
      roundToType c.ty 0 0 false (valueOf t (finishXr w t 5 (c.draw l 0) c.sat (xrA w (c.val a l))))) s

/-- RNG (R108). -/
def execRng (d : Dst) (s : State) : Host.Outcome State Fault Refusal :=
  issue (.rng d) (fun s c => c.result (c.advance s true) d false fun l => c.draw l 0) s

/-- RNGST (R108). -/
def execRngst (d : Dst) (s : State) : Host.Outcome State Fault Refusal :=
  issue (.rngst d) (fun s c =>
    .done (s.updTer c.uid fun t =>
      t.writeDst d false c.active fun _ => words2 c.sp.rk.toNat ++ words2 c.sp.rc.toNat) none) s

/-- Register a of a group in a lane: the k-th after it. -/
def Ctx.group (c : Ctx) (a : Src) (k l : Nat) : Nat :=
  match a with
  | .v n => (c.rt.vget (n + k) l).toNat
  | .s n => (c.rt.sget (n + k)).toNat
  | _ => 0

/-- RNGLD (R108): from the lowest active lane; with none, nothing changes. -/
def execRngld (a : Src) (s : State) : Host.Outcome State Fault Refusal :=
  issue (.rngld a) (fun s c =>
    match lowLane c.active with
    | none => .done s none
    | some l =>
      let pair := fun k => BitVec.ofNat 64 (c.group a k l + c.group a (k + 1) l * 2 ^ 32)
      .done (s.updSplit c.uid c.sid fun x => { x with rk := pair 0, rc := pair 2 }) none) s

end Sys2Proof.Machine
end

