-- ==== Sys2Proof/Machine/Access.lean ====
section
/-! DEFINITION. Accesses: the windows and the pages they reach (R163 to R170, R193 to R195), the L1 (R171, R176 to R178,
R331), the L2 (R172, R174), in-flight counters (R181 to R183), the values reads return (R180, R194, R239), and requests
to other modules and the host (R192, R240). -/

namespace Sys2Proof.Machine

/-! ## Domains (R245) -/

/-- The domain a terrace's writes to a page of a phase group belong to. -/
def Terrace.domain (t : Terrace) (sgrp : Nat) : DomKey :=
  if t.launch == 0 then .solo t.uid
  else if sgrp == 0 then .phase t.launch (dieOf t.core)
  else match t.gang with | some g => .gang g | none => .launch t.launch

/-- A domain's state. -/
def State.dom (s : State) (k : DomKey) : Domain :=
  match s.domains.find? fun e => e.1 == k with
  | some e => e.2
  | none => ⟨0, 0, 0, 0, 0, [], [], none, .idle, [], [], 0, [], []⟩

/-- Whether the landing of a crossing is under way. -/
def Domain.landing? (d : Domain) : Bool :=
  match d.landing with | .reading false | .crossed _ => true | _ => false

/-- The crossings that are past for a terrace which comes to take part: one whose landing is under way among them. -/
def Domain.passed (d : Domain) : Nat := d.crossings + d.landing?.toNat

/-- Replace a domain's state. -/
def State.setDom (s : State) (k : DomKey) (d : Domain) : State :=
  if s.domains.any fun e => e.1 == k then
    { s with domains := s.domains.map fun e => if e.1 == k then (k, d) else e }
  else { s with domains := (k, d) :: s.domains }

/-- A terrace's arrivals in a domain (R254). -/
def Terrace.arrivals (t : Terrace) (k : DomKey) : Nat :=
  match k with | .phase .. => t.phaseArr | .launch _ => t.crossArr | .gang _ => t.gangArr | .solo _ => t.crossArr

/-! ## Windows (R163 to R169) -/

/-- Where an on-chip access goes: a location in the stores, or bytes of a terrace's v registers. -/
inductive Chip where
  | loc (x : Nat)
  | reg (ter off : Nat)
deriving DecidableEq, Repr

/-- The lane-private slice of a terrace's lanes. -/
def State.privSize (s : State) (t : Terrace) : Nat :=
  match s.launch? t.launch with | some l => l.d.priv | none => 0

/-- The team of a launch that the cluster window names on a core: the accessing terrace's own team on its core, the sibling
    team of its group where there is one (R297), else the launch's team there (DEDUCED, log entry 24). -/
def State.clusterTeam (s : State) (t : Terrace) (core : Nat) : Option Team :=
  if s.unitOut (unitCore core) then none
  else if core == t.core then s.teamAny? t.team
  else
    let ms := s.teams.filter fun m => m.core == core && m.launch == t.launch
    let n := match s.launch? t.launch with | some l => l.d.teams | none => 0
    (ms.find? fun m => n != 0 && !m.joined && m.idx / n == t.teamIdx / n).or ms.head?

/-- Whether a market bank of a die belongs to a virtual function (R169). -/
def State.ownsBank (s : State) (die vf b : Nat) : Bool := kget none (s.die die).banks b == some vf

/-- The on-chip place of n bytes at an address, every byte checked against its window (R163 to R169); none is a
    violation. -/
def State.chipAt (s : State) (t : Terrace) (lane ea n : Nat) : Option Chip :=
  if 0x80000 ≤ ea && ea + n ≤ 0x100000 then
    let o := ea - 0x80000
    match s.teamAny? t.team with
    | some m => if o + n ≤ m.scr then some (.loc (scratchLoc m.uid o)) else none
    | none => none
  else if 0x100000 ≤ ea && ea + n ≤ 0x110000 then
    let o := ea - 0x100000
    if o + n ≤ s.privSize t then some (.loc (privLoc t.uid lane o)) else none
  else if 0x200000 ≤ ea && ea + n ≤ 0x400000 then
    let o := ea - 0x200000
    let r := o % 0x8000 / 128
    match s.ters.find? fun u => u.core == t.core && u.ter == o / 0x8000 && u.team == t.team && u.launch == t.launch with
    | some u => if r < u.nregs && o % 128 + n ≤ 128 then some (.reg u.uid (o % 0x8000)) else none
    | none => none
  else if 0x1000000 ≤ ea && ea + n ≤ 0x2000000 then
    let o := ea - 0x1000000
    match s.clusterTeam t (t.core / 32 * 32 + o / 0x80000) with
    | some m => if o % 0x80000 + n ≤ m.scr then some (.loc (scratchLoc m.uid (o % 0x80000))) else none
    | none => none
  else if 0x4000000 ≤ ea && ea + n ≤ 0x8000000 then
    let o := ea - 0x4000000
    let d := dieOf t.core
    if s.ownsBank d t.vf (o / 0x200000) && s.ownsBank d t.vf ((o + n - 1) / 0x200000) then some (.loc (marketLoc d o))
    else none
  else none

/-- The path of a window (R181): 0 global, 1 cluster, 2 market, 3 copy, 4 host. -/
def pathOf (ea : Nat) (page : Option Phys) : Nat :=
  match page with
  | some p => if p.owner == .host then 4 else 0
  | none => if 0x4000000 ≤ ea then 2 else 1

/-! ## Registers through their window (R166) -/

/-- A byte of a terrace's v registers. -/
def State.regByte (s : State) (ter off : Nat) : Byte :=
  match s.ter? ter with
  | some t => BitVec.ofNat 8 ((t.vget (off / 128) (off % 128 / 4)).toNat / 2 ^ (8 * (off % 4)))
  | none => Config.freeByte (s.tick + off)

/-- Write bytes of a terrace's v registers; a write clears the wide mark of its pair (R189). -/
def Terrace.putByte (t : Terrace) (off : Nat) (b : Byte) : Terrace :=
  let n := off / 128
  let l := off % 128 / 4
  let sh := 8 * (off % 4)
  let w := (t.vget n l).toNat
  let w' := w - w / 2 ^ sh % 256 * 2 ^ sh + b.toNat * 2 ^ sh
  (t.vput n l (BitVec.ofNat 32 w')).vmark n l false

/-- The bytes at an on-chip place. -/
def State.chipRead (s : State) (p : Chip) (n : Nat) : Nat :=
  match p with
  | .loc x => s.rdNat x n
  | .reg ter off => bytesNat ((List.range n).map fun i => s.regByte ter (off + i))

/-- Write bytes at an on-chip place. -/
def State.chipWrite (s : State) (p : Chip) (n v : Nat) : State :=
  match p with
  | .loc x => (s.wrNat x n v).healChip x n
  | .reg ter off =>
    let s := if n < 4 then s else
      { s with flaws := s.flaws.filter fun f => match f with
          | .reg t r l => !(t == ter && off / 4 ≤ r * 32 + l && r * 32 + l < (off + n) / 4)
          | _ => true }
    s.updTer ter fun t => (natBytes n v).zipIdx.foldl (fun t e => t.putByte (off + e.2) e.1) t

/-- An on-chip place as the location of a request. -/
def Chip.place (p : Chip) : Nat × Option Nat :=
  match p with | .loc x => (x, none) | .reg t o => (o, some t)

/-- The on-chip place of a request. -/
def Req.chip (r : Req) : Chip := match r.reg with | some t => .reg t r.loc | none => .loc r.loc

/-! ## The L1 (R171, R176, R363) -/

/-- A line's domain and count at fill for a terrace; none outside STAGED pages (R178). -/
def State.lineDom (s : State) (t : Terrace) (l : Leaf) : Option (DomKey × Nat) :=
  if l.cls == clsStaged then
    let k := t.domain l.sgrp
    some (k, (s.dom k).count)
  else none

/-- The L1 data line a lookup of a terrace hits. -/
def State.l1Find (s : State) (t : Terrace) (p : Part) (va : Nat) : Option Line :=
  let asid := (s.tenant t.vf).asid
  p.lines.find? fun l => l.line == va / 64 && l.asid == asid && l.dom == s.lineDom t l.leaf

/-- Remove L1 data lines of a partition. -/
def State.l1Drop (s : State) (core pidx : Nat) (f : Line → Bool) : State :=
  s.updPart core pidx fun p => { p with lines := p.lines.filter fun l => !f l }

/-- Make a line the most recently used of its partition. -/
def Part.touch (p : Part) (l : Line) : Part := { p with lines := l :: p.lines.filter fun x => x != l }

/-- Enter a victim tag of a set; four are kept (R331). -/
def Part.addVictim (p : Part) (set line asid : Nat) : Part :=
  let mine := (p.victims.filter fun v => v.1 == set).take 3
  { p with victims := (set, line, asid) :: (mine ++ p.victims.filter fun v => v.1 != set) }

/-- Fill a line: the least recently used of the set beyond 20 ways leaves, and its tag enters the victim tags. -/
def Part.fill (p : Part) (l : Line) : Part :=
  let set := fun (x : Line) => l1Set x.asid (x.line * 64) p.lb p.lc
  let rest := p.lines.filter fun x => !(x.line == l.line && x.asid == l.asid)
  let mine := rest.filter fun x => set x == set l
  let p := { p with lines := l :: (mine.take 19 ++ rest.filter fun x => set x != set l) }
  (mine.drop 19).foldl (fun p x => p.addVictim (set x) x.line x.asid) p

/-- A line request of a load-class instruction that misses in the L1: M, and R′ for a victim tag, and L1MISS (R331,
    R389). -/
def State.l1Miss (s : State) (t : Terrace) (p : Part) (va : Nat) : State :=
  let asid := (s.tenant t.vf).asid
  let v := (l1Set asid va p.lb p.lc, va / 64, asid)
  (s.updPart t.core p.pidx fun p =>
    { p with missM := p.missM + 1, missR := if p.victims.contains v then p.missR + 1 else p.missR,
             victims := p.victims.filter fun x => x != v }).countVf t.core t.vf evL1Miss 1

/-! ## The L2 (R172, R174, R178, R363) -/

/-- The line that a lookup of the requesting die's slice finds (R171, R172, R178). -/
def State.l2Find (s : State) (t : Terrace) (die va : Nat) : Option L2Line :=
  let asid := (s.tenant t.vf).asid
  (s.die die).l2.find? fun l => l.line == va / 64 && l.asid == asid && l.dom == s.lineDom t l.leaf

/-- A line used in the L2 of the die that owns it: the state with the line most recently used, and whether it was there
    (R174, R363). With `first` it is the first for eviction in its set (R199). -/
def State.l2Touch (s : State) (t : Terrace) (va : Nat) (p : Phys) (first : Bool) : State × Bool :=
  match p.owner with
  | .die d =>
    let asid := (s.tenant t.vf).asid
    let x := s.die d
    let (gb, gc) := kget (0, 0) x.l2range t.vf
    if p.shared || gc == 0 then (s, false)
    else
      let at_ := l2Place asid va gb gc
      let old := x.l2.find? fun l => l.line == va / 64 && l.asid == asid
      let me : L2Line := ⟨substOf x.substSlice at_.1, at_.2, va / 64, asid, p.pa / 64 * 64, p.leaf, s.lineDom t p.leaf,
        match old with | some o => o.dirty | none => false⟩
      let rest := x.l2.filter fun l => !(l.line == va / 64 && l.asid == asid)
      let same := fun (l : L2Line) => l.slice == me.slice && l.set == me.set
      let mine := (rest.filter same).take 15
      let s1 := s.l2Leave t.vf ((rest.filter same).drop 15)
      (s1.setDie d { s1.die d with l2 := (if first then mine ++ [me] else me :: mine) ++ rest.filter fun l => !same l },
        (s.l2Find t d va).isSome)
  | _ => (s, false)

/-- A request's lookups in the L2, by whether each finds the line: that of the requester's slice, and for a line of another die
    of the module that of the owning slice (DEDUCED, log entry 21). -/
def State.l2Lookups (s : State) (t : Terrace) (va : Nat) (p : Phys) : List Bool :=
  let hit := (s.l2Touch t va p false).2
  match p.owner with
  | .die d => if d == dieOf t.core || p.shared then [hit] else [false, hit]
  | _ => [false]

/-- Lookups counted for a terrace's partition (R389, R390). -/
def State.countLookups (s : State) (t : Terrace) (hits : List Bool) : State :=
  hits.foldl (fun s hit => s.countVf t.core t.vf (if hit then evL2Hit else evL2Miss) 1) s

/-- A request makes its lookups in the L2, and they are counted. -/
def State.l2Count (s : State) (t : Terrace) (va : Nat) (p : Phys) (first : Bool) : State :=
  ((s.l2Touch t va p first).1).countLookups t (s.l2Lookups t va p)

/-- Where an access goes that has missed the L1 (R172): a line in the requester's slice serves it under the rights it was
    filled with, and a miss goes to the translation home. -/
def State.reach (s : State) (t : Terrace) (die : Nat) (owner : Option Nat) (w : Want) (va : Nat) :
    State × Except WalkErr Reach :=
  match s.l2Find t die va with
  | some l =>
    (s, if w.allows l.leaf then .ok ⟨⟨l.pa + va % 64, l.leaf, .die die, false⟩, none, false⟩ else .error ⟨codeViolation, false⟩)
  | none => s.look t.vf die owner w va

/-! ## COMMUTE pages (R179, R180) -/

/-- The element type code and size of a CFMT. -/
def cfmtType (c : Nat) : Nat := match c with | 0 => 1 | 1 => 7 | 2 => 8 | 3 => 0xA | 4 => 9 | _ => 0xB
def cfmtSize (c : Nat) : Nat := tyWidth (cfmtType c) / 8

/-- Addition of an element format (R179), on bit patterns. -/
def cfmtAdd (c x y : Nat) : Nat :=
  let t := cfmtType c
  if tyInt t then (x + y) % 2 ^ tyWidth t else roundToType t 0 0 false (Xr.add false (valueOf t x) (valueOf t y))

/-- Contribute an operand to a core's partial of an element. -/
def State.contribute (s : State) (core cfmt pa x : Nat) : State :=
  let ps := (kget (0, []) s.partials pa).2
  { s with partials := kset (0, []) s.partials pa (cfmt, kins core (cfmtAdd cfmt (kget 0 ps core) x) (kdel ps core)) }

/-- Fold the partials of one element into its base value, in ascending cores. -/
def State.fold1 (s : State) (pa : Nat) : State :=
  match kget (0, []) s.partials pa with
  | (_, []) => s
  | (cfmt, ps) =>
    let v := ps.foldl (fun v e => cfmtAdd cfmt v e.2) (s.rdNat pa (cfmtSize cfmt))
    { s.pocWriteNat pa (cfmtSize cfmt) v with partials := kset (0, []) s.partials pa (0, []) }

/-- The elements with partials that a range touches. -/
def State.partialsIn (s : State) (pa n : Nat) : List Nat :=
  (s.partials.filter fun e => e.1 < pa + n && pa < e.1 + cfmtSize e.2.1).map (·.1)

/-- Fold the elements a range touches. -/
def State.foldRange (s : State) (pa n : Nat) : State := (s.partialsIn pa n).foldl (fun s a => s.fold1 a) s

/-- An upset in a COMMUTE partial that a fold of a range meets: the partial is gone, and its line is lost (R416). -/
def State.meetParts (s : State) (vf pa n : Nat) : State :=
  if s.flaws.isEmpty then s
  else
    s.flaws.foldl (fun s f => match f with
      | .part core x =>
        if (s.partialsIn pa n).contains x then
          let e := kget (0, []) s.partials x
          let ps := kdel e.2 core
          (({ s.dropFlaw f with partials := kset (0, []) s.partials x (if ps.isEmpty then (0, []) else (e.1, ps)) }).loseLine vf
            (x / 64)).unitEvent (unitCore core)
        else s
      | _ => s) s

/-! ## Staged writes as their terrace sees them (R178) -/

/-- A terrace's own staged byte at a physical address; the latest entry is first. -/
def State.ownStaged (s : State) (ter pa : Nat) : Option Byte :=
  match s.staged.find? fun e => e.ter == ter && e.pa == pa / 64 && e.bytes.any fun b => b.1 == pa % 64 with
  | some e => some (kget 0 e.bytes (pa % 64))
  | none => none

/-- Bytes of a STAGED page with the terrace's own staged writes over them. -/
def State.overlay (s : State) (ter pa : Nat) (bs : List Byte) : List Byte :=
  bs.zipIdx.map fun (b, i) => (s.ownStaged ter (pa + i)).getD b

/-! ## NEAR lines (R239) -/

/-- The NEAR line of a core partition that holds a physical address. -/
def Part.nearLine (p : Part) (pa : Nat) : Option Line := p.near.find? fun l => l.pa / 64 == pa / 64

/-- Remove a core's L1 copies of the line at a physical address. -/
def State.l1DropPa (s : State) (core vf pa : Nat) : State :=
  match s.part? core vf with
  | some p => s.l1Drop core p.pidx fun x => x.pa / 64 == pa / 64
  | none => s

/-- A line as the near cache holds it; the core's L1 copy of it leaves, so that no later load finds an older one (R176). -/
def State.nearIn (s : State) (core pidx va : Nat) (ph : Phys) (asid : Nat) (bytes : List Byte) : State :=
  s.updPart core pidx fun p =>
    if (p.nearLine ph.pa).isSome then p
    else { p with
      near := ⟨va / 64, asid, ph.pa / 64 * 64, ph.leaf, ph.owner, bytes, none, []⟩ :: p.near
      lines := p.lines.filter fun x => x.pa / 64 != ph.pa / 64 }

/-- A NEAR line leaves its near cache. -/
def State.nearGone (s : State) (core pidx pa : Nat) : State :=
  s.updPart core pidx fun p => { p with near := p.near.filter fun x => x.pa / 64 != pa / 64 }

/-- An upset in a NEAR line that an access meets: the line is gone and lost (R416). The answer is whether the access
    receives the uncorrectable error response. -/
def State.meetNear (s : State) (core vf pa : Nat) : State × Bool :=
  match s.part? core vf with
  | none => (s, false)
  | some p =>
    let f := Flaw.nearLine core p.pidx (pa / 64)
    if s.flaws.contains f && (p.nearLine pa).isSome then
      ((((s.dropFlaw f).nearGone core p.pidx pa).loseLine vf (pa / 64)).unitEvent (unitCore core), true)
    else (s, false)

/-- What an access that reads a page of this module meets: upsets in the near cache, in partials and at the point of
    coherence (R416, R417). -/
def State.meetPage (s : State) (core vf : Nat) (ph : Phys) (n : Nat) : State × Bool :=
  let a := s.meetNear core vf ph.pa
  if a.2 then a
  else if ((a.1.part? core vf).bind fun p => p.nearLine ph.pa).isSome then (a.1, false)
  else ((if ph.leaf.cls == clsCommute then a.1.meetParts vf ph.pa n else a.1).meetMem vf ph.pa n)

/-! ## The values of reads -/

/-- A read at a page's point of coherence: COMMUTE elements fold, NEAR lines of the core and the terrace's own staged
    writes come first (R178, R180, R239). -/
def State.pocRead (s : State) (core vf ter : Nat) (ph : Phys) (n : Nat) : State × Nat :=
  if ph.leaf.cls == clsCommute then
    let s1 := s.foldRange ph.pa n
    (s1, s1.rdNat ph.pa n)
  else if ph.leaf.cls == clsStaged then (s, bytesNat (s.overlay ter ph.pa (s.rdBytes ph.pa n)))
  else
    match (s.part? core vf).bind fun p => p.nearLine ph.pa with
    | some l => (s, bytesNat ((l.bytes.drop (ph.pa % 64)).take n))
    | none => (s, s.rdNat ph.pa n)

/-- The L1 line fetched for an address. -/
def State.lineFor (s : State) (t : Terrace) (va : Nat) (ph : Phys) : Line :=
  let a := ph.pa / 64 * 64
  ⟨va / 64, (s.tenant t.vf).asid, a, ph.leaf, ph.owner, s.rdBytes a 64, s.lineDom t ph.leaf, []⟩

/-- A bypass read (R195, R130): the point of coherence, whose bytes replace the core's L1 copy. -/
def State.bypassRead (s : State) (core vf ter : Nat) (ph : Phys) (n : Nat) : State × Nat :=
  let r := s.pocRead core vf ter ph n
  match r.1.part? core vf with
  | none => r
  | some p =>
    let fresh := r.1.rdBytes (ph.pa / 64 * 64) 64
    (r.1.updPart core p.pidx fun p =>
      { p with lines := p.lines.map fun l => if l.pa / 64 == ph.pa / 64 then
          { l with bytes := fresh, dom := l.dom.map (fun e => (e.1, (r.1.dom e.1).count)), due := [] } else l }, r.2)

/-- An UPDATE line that enters an L1 may take the directory entry of another line of its die, which then leaves every
    sharer (R177): which, and whether, is not promised. It is one of the same virtual function (R359). -/
def State.dirEvict (s : State) (vf : Nat) (l : Line) : State :=
  if l.leaf.cls != clsUpdate then s
  else
    let n := Config.choose s.tick
    let s := { s with tick := s.tick + 1 }
    let held := ((s.parts.filter fun p => p.vf == vf).flatMap fun p => (p.lines.filter fun x =>
      x.leaf.cls == clsUpdate && x.owner == l.owner && x.pa / 64 != l.pa / 64).map fun x => x.pa / 64).eraseDups
    match held[n / 2]? with
    | none => s
    | some x =>
      if n % 2 == 0 then s
      else { s with parts := s.parts.map fun p =>
        if p.vf = vf then { p with lines := p.lines.filter fun y => !(y.leaf.cls == clsUpdate && y.pa / 64 == x) } else p }

/-- A line enters a core's L1. -/
def State.l1Fill (s : State) (core : Nat) (p : Part) (l : Line) : State :=
  (s.dirEvict p.vf l).updPart core p.pidx fun p => p.fill l

/-- An ordinary load of a global address (R194): the L1 where the page may stand there, else the point of coherence,
    which fills the L1. -/
def State.cachedRead (s : State) (t : Terrace) (noFill : Bool) (va : Nat) (ph : Phys) (n : Nat) : State × Nat :=
  match s.part? t.core t.vf with
  | none => s.pocRead t.core t.vf t.uid ph n
  | some p =>
    if (p.nearLine ph.pa).isSome then s.pocRead t.core t.vf t.uid ph n
    else if !ph.l1Ok (dieOf t.core) then s.pocRead t.core t.vf t.uid ph n
    else
      match s.l1Find t p va with
      | some l =>
        let s1 := s.updPart t.core p.pidx fun p => p.touch l
        let bs := (l.bytes.drop (ph.pa % 64)).take n
        (s1, bytesNat (if ph.leaf.cls == clsStaged then s1.overlay t.uid ph.pa bs else bs))
      | none =>
        let l := s.lineFor t va ph
        let s1 := if noFill then s else s.l1Fill t.core p l
        s1.pocRead t.core t.vf t.uid ph n

/-! ## Outstanding accesses -/

/-- Whether two requests touch a common byte. -/
def Req.overlaps (a b : Req) : Bool := a.reg == b.reg && a.loc < b.loc + b.len && b.loc < a.loc + a.len

/-- Whether a request goes to another module or the host. -/
def Req.away (r : Req) : Bool :=
  match r.page with | some p => (match p.owner with | .die _ => false | _ => true) | none => false

/-- A terrace's in-flight counter of a path (R181). -/
def Terrace.inFlight (t : Terrace) (path : Nat) : Nat := (t.flight.filter fun f => f.path == path).length

/-- The terrace an access acts for, or what remains of one that has ended. -/
def State.accTer (s : State) (a : Access) : Terrace :=
  match s.ter? a.ter with
  | some t => t
  | none => .blank a.ter a.core a.terno a.vf a.launch

/-- An error that an access meets only as it is performed, its split having gone on: the record, the launch marked, and the
    bytes it would have read a free value (R5). -/
def State.lateError (s : State) (a : Access) (r : Req) : State × Nat :=
  let s1 := ((s.logRec a.vf true ⟨r.ea, 0, 0x16, 0, a.core, a.terno, dieOf a.core, 0⟩).1).markError a.launch
  ({ s1 with tick := s.tick + r.len }, bytesNat ((List.range r.len).map fun i => Config.freeByte (s.tick + i)))

/-- Whether a load looks up the L1, and finds its line there. -/
def State.hitsL1 (s : State) (a : Access) (r : Req) (ph : Phys) : Bool :=
  (match a.kind with | .load _ _ false | .ldf | .lda _ false => true | _ => false) && ph.l1Ok (dieOf a.core)
    && (match s.part? a.core a.vf with | some p => (s.l1Find (s.accTer a) p r.ea).isSome | none => false)

/-- Fix the value of a load's request. -/
def State.bindLoad (s : State) (a : Access) (r : Req) : State × Nat :=
  match r.bound with
  | some v => (s, v)
  | none =>
    match r.page with
    | none => (s, s.chipRead r.chip r.len)
    | some ph =>
      let m := if s.hitsL1 a r ph then (s, false) else s.meetPage a.core a.vf ph r.len
      let s := m.1
      if m.2 then s.lateError a r
      else match a.kind with
      | .load _ _ false | .ldf | .lda _ false => s.cachedRead (s.accTer a) r.noFill r.ea ph r.len
      | _ => s.bypassRead a.core a.vf a.ter ph r.len

/-- Whether an access is a load whose value is fixed when it returns. -/
def AccKind.isLoad : AccKind → Bool
  | .load .. | .ldf | .lda .. | .image => true
  | _ => false

/-- Bytes that a later write of a terrace overwrites, noted as they stand for its commands issued before it (R226): number
    `before` is the one from which the write counts. -/
def State.noteSeen (s : State) (ter before : Nat) (w : Req) : State :=
  (s.cmds.filter fun c => c.ter == ter && c.id < before && w.reg.isNone && !w.away).foldl (fun s c =>
    let r := match w.page with
      | some ph => s.pocRead c.core c.vf c.ter ph w.len
      | none => (s, s.rdNat w.loc w.len)
    let new := (natBytes w.len r.2).zipIdx.map fun e => (w.loc + e.2, e.1)
    { r.1 with cmds := r.1.cmds.map fun x =>
        if x.id = c.id then { x with seen := x.seen ++ new.filter fun e => !x.seen.any fun y => y.1 == e.1 } else x }) s

/-- Bytes that an access of a terrace has now written or changed are what its later commands read of them, once no other access
    before them is open there (R130, R226). -/
def State.noteDone (s : State) (a : Access) (w : Req) : State :=
  if w.away then s
  else
    (s.cmds.filter fun c => c.ter == a.ter && a.id < c.id && w.reg.isNone
      && s.accs.all fun b => b.ter != a.ter || b.id == a.id || c.id ≤ b.id || b.reqs.all fun x => !x.overlaps w).foldl (fun s c =>
      let r := match w.page with
        | some ph => s.pocRead c.core c.vf c.ter ph w.len
        | none => (s, s.rdNat w.loc w.len)
      let new := (natBytes w.len r.2).zipIdx.map fun e => (w.loc + e.2, e.1)
      { r.1 with cmds := r.1.cmds.map fun x =>
          if x.id = c.id then { x with seen := new ++ x.seen.filter fun y => !(w.loc ≤ y.1 && y.1 < w.loc + w.len) } else x }) s

/-- Fix the values of a load's open requests that a test selects, and of its other lanes in their lines, which it reads at the
    same instant (R192). -/
def State.bindLines (s : State) (a0 : Access) (f : Req → Bool) : State :=
  let free := fun (r : Req) => r.bound.isNone && r.tag == 0
  let lines := (a0.reqs.filter fun r => free r && f r).map (·.ea / 64)
  (a0.reqs.filter fun r => free r && lines.contains (r.ea / 64)).foldl (fun s r =>
    match s.accs.find? fun a => a.id == a0.id with
    | none => s
    | some a =>
      let v := s.bindLoad a r
      v.1.setAccess { a with reqs := a.reqs.map fun x =>
        if x.lane = r.lane ∧ x.loc = r.loc then { x with bound := some v.2 } else x }) s

/-- Fix the values of a terrace's open loads, and what its earlier commands will read, that a write performed now would
    overtake (R2, R192, R226). -/
def State.bindOver (s : State) (ter before : Nat) (w : Req) : State :=
  (s.accs.filter fun a => a.ter == ter && a.kind.isLoad).foldl (fun s a => s.bindLines a (·.overlaps w)) (s.noteSeen ter before w)

/-! ## Requests to other modules and the host (R173, R192, R238, R240) -/

/-- Whether it waits for an answer from there. -/
def Req.outside (r : Req) : Bool := r.bound.isNone && r.tag != 0 && r.away

/-- Whether the link a peer's traffic needs is down (R414). -/
def State.peerDown (s : State) (die coord : Nat) : Bool := kget 0 (s.die die).ports (portOf die coord) == 2

/-- The mesh coordinate of a peer die. -/
def peerCoord (i j d : Nat) : Nat := 2 * i + d % 2 + 256 * (2 * j + d / 2)

/-- Whether a page's owner is a peer behind a link that is down. -/
def State.ownerDown (s : State) (die : Nat) (o : Owner) : Bool :=
  match o with | .peer i j d => s.peerDown die (peerCoord i j d) | _ => false

/-- Who sends a request out of the module: a core, for one of its instructions or engine commands, or the device at a die. -/
inductive Sender where
  | core (n : Nat)
  | dev (die : Nat)
deriving DecidableEq, Repr

/-- The die a sender stands on. -/
def Sender.die : Sender → Nat
  | .core n => dieOf n
  | .dev d => d

/-- The core and virtual function that the bytes of a sender's flits are credited to (R389). -/
def Sender.cause (x : Sender) (vf : Nat) : Option (Nat × Nat) :=
  match x with
  | .core n => some (n, vf)
  | .dev _ => none

/-- One request as it leaves the module: what is asked of a range, on a tag. -/
inductive OutOp where
  | read
  | write (v : Nat)
  /-- an atomic: operation, element type, operands in lane order -/
  | amo (op ty : Nat) (xs : List Nat)
  /-- a compare-and-swap: compare and new values in lane order -/
  | cas (ops : List (Nat × Nat))
  /-- a list in two pieces, at the home of its first line (R152) -/
  | list (segs : List (Nat × Nat)) (old new : List Byte)

/-- The flits that carry a range of physical addresses on the host link, of at most three lines each: the address of the first
    line, and how many (R448). -/
def hostChunks (pa n : Nat) : List (Nat × Nat) :=
  let k := (linesOf pa n).length
  (List.range ((k + 2) / 3)).map fun i => ((pa / 64 + 3 * i) * 64, min 3 (k - 3 * i))

/-- Bytes of a range as they stand in the lines of a chunk of it; the other bytes of those lines are 0 (DESIGN CHOICE, log entry
    12). -/
def chunkBytes (pa : Nat) (bs : List Byte) (addr lines : Nat) : List Byte :=
  (List.range (64 * lines)).map fun i => if pa ≤ addr + i then bs.getD (addr + i - pa) 0 else 0

/-- Send a request of n bytes at an address outside the module. -/
def State.sendOut (s : State) (by_ : Sender) (vf tag va pa n : Nat) (o : Owner) (op : OutOp) : State :=
  match o with
  | .host =>
    let put := fun (ms : List HostMsg) => { s with hostOut := s.hostOut ++ ms }
    let writes := fun (bs : List Byte) => (hostChunks pa n).map fun c =>
      (⟨by_.die, 1, c.2, tag % 65536, vf, c.1, chunkBytes pa bs c.1 c.2,
        if pa % 64 == 0 && n % 64 == 0 then none else some ⟨pa, n, 0, 0⟩⟩ : HostMsg)
    let atomic := fun (op ety : Nat) (bs : List Byte) =>
      [(⟨by_.die, 3, (bs.length + 63) / 64, tag % 65536, vf, pa, bs, some ⟨pa, n, op, ety⟩⟩ : HostMsg)]
    (match op with
     | .read => put ((hostChunks pa n).map fun c => ⟨by_.die, 0, c.2, tag % 65536, vf, c.1, [], none⟩)
     | .write v => put (writes (natBytes n v))
     | .amo op ety xs => put (atomic op ety (xs.flatMap (natBytes n)))
     | .cas ops => put (atomic 7 0 (ops.flatMap fun e => natBytes n e.2 ++ natBytes n e.1))
     | .list _ _ new => put (writes new))
  | .peer i j d =>
    let f := match op with
      | .read => FabOp.read tag pa n
      | .write v => .write tag pa (natBytes n v)
      | .amo op ety xs => .amo tag pa op ety xs
      | .cas ops => .cas tag pa n ops
      | .list segs old new => .list tag segs old new
    s.sendFab by_.die (by_.cause vf) ⟨0, 0, peerCoord i j d, s.dieCoord by_.die, (s.tenant vf).tid, va, f, true⟩
  | _ => s

/-- Whether an access is an atomic (R238). -/
def AccKind.atomic : AccKind → Bool
  | .amo _ | .cas | .red _ | .sig => true
  | _ => false

/-- Whether an access's part on an outside page is performed here once the page's bytes are: an atomic placed NEAR or on a
    STAGED page (R178, R239). -/
def AccKind.fetchesFirst (k : AccKind) (l : Leaf) : Bool := k.atomic && (l.cls == clsStaged || l.place == 1)

/-- Which lanes one request carries: the lanes of a load in one line, of an atomic at one address, one lane of a store
    (R192, R240). -/
def AccKind.together (k : AccKind) (a b : Req) : Bool :=
  match k with
  | .load .. | .lda .. | .image => a.ea / 64 == b.ea / 64
  | .amo _ | .cas | .red _ => a.ea == b.ea
  | _ => a.lane == b.lane

/-- What the lanes of one request ask for, with the range it names. -/
def AccKind.outOp (k : AccKind) (ety : Nat) (l : Leaf) (rs : List Req) : Nat × Nat × OutOp :=
  let r := rs.headD ⟨0, 0, 0, 0, none, none, 0, 0, none, 0, false, [], false⟩
  let lo := rs.foldl (fun m x => min m x.loc) r.loc
  let hi := rs.foldl (fun m x => max m (x.loc + x.len)) (r.loc + r.len)
  if k.fetchesFirst l then (if l.place == 1 then (r.loc / 64 * 64, 64, .read) else (lo, hi - lo, .read))
  else
    match k with
    | .amo op | .red op => (r.loc, r.len, .amo op ety (rs.map (·.data)))
    | .sig => (r.loc, r.len, .amo 8 r.cmp (rs.map (·.data)))
    | .cas => (r.loc, r.len, .cas (rs.map fun x => (x.cmp, x.data)))
    | .store .. | .stf | .stl _ => (r.loc, r.len, .write r.data)
    | _ => (lo, hi - lo, .read)

/-- Send what an instruction's lanes ask of outside pages, lane by lane: the lanes that go together share a tag. -/
def State.sendLanes (s : State) (by_ : Sender) (vf ety : Nat) (k : AccKind) : Nat → List Req → List Req → State × List Req
  | 0, _, done => (s, done)
  | _, [], done => (s, done)
  | fuel + 1, r :: rest, done =>
    if !r.away || r.tag != 0 || r.bound.isSome then s.sendLanes by_ vf ety k fuel rest (done ++ [r])
    else
      match r.page with
      | none => s.sendLanes by_ vf ety k fuel rest (done ++ [r])
      | some ph =>
        let tag := s.fresh
        let mine := fun (x : Req) => x.away && x.tag == 0 && x.bound.isNone && k.together r x
        let x := k.outOp ety ph.leaf (r :: rest.filter mine)
        let s1 := { s with fresh := tag + 1 }.sendOut by_ vf tag (r.ea / 65536 * 65536 + x.1 % 65536) x.1 x.2.1 ph.owner x.2.2
        s1.sendLanes by_ vf ety k fuel (rest.map fun x => if mine x then { x with tag := tag } else x)
          (done ++ [{ r with tag := tag }])

/-- The whole of an instruction's outside requests sent. -/
def State.sendAll (s : State) (by_ : Sender) (vf ety : Nat) (k : AccKind) (rs : List Req) : State × List Req :=
  s.sendLanes by_ vf ety k rs.length rs []

/-- A request that belongs to no access goes out: the state, and its tag. `waits` says that an agent takes the answer. -/
def State.askFor (s : State) (by_ : Sender) (vf launch va n : Nat) (ph : Phys) (op : OutOp) (waits : Bool) : State × Nat :=
  let tag := s.fresh
  let dest := match ph.owner with | .peer i j d => peerCoord i j d | _ => 65536
  let w := match op with | .read => false | .write _ => true | .list _ old new => old.isEmpty && !new.isEmpty | _ => !waits
  let s1 : State := { s with
    fresh := tag + 1, asks := s.asks ++ [(⟨tag, by_.die, dest, ph.pa, n, vf, launch, va, w, waits⟩ : Ask)] }
  (s1.sendOut by_ vf tag va ph.pa n ph.owner op, tag)

/-- Write a NEAR line back and remove it: one UNTRACKED write of the whole line. A line of a peer's page is sent there, and
    the open accesses that the near cache would have served follow it. -/
def State.nearOut (s : State) (core pidx : Nat) (l : Line) : State :=
  let a := l.pa / 64 * 64
  match l.owner, s.partAt? core pidx with
  | .peer .., some p =>
    let s1 := ((s.askFor (.core core) p.vf 0 (l.line * 64) 64 ⟨a, l.leaf, l.owner, false⟩ (.write (bytesNat l.bytes)) false).1).nearGone
      core pidx l.pa
    (s1.accs.filter fun x => x.core == core && x.vf == p.vf).foldl (fun s x =>
      let hit := fun (r : Req) => r.away && r.tag == 0 && r.bound.isNone && r.loc / 64 == l.pa / 64
      if x.reqs.any hit then
        let y := s.sendAll (.core core) x.vf (modeType x.mode) x.kind (x.reqs.filter hit)
        let now := fun (r : Req) => if hit r then (y.2.find? fun q => q.lane == r.lane && q.loc == r.loc).getD r else r
        y.1.setAccess { x with reqs := x.reqs.map now }
      else s) s1
  | _, _ =>
    let m := s.meetNear core (match s.partAt? core pidx with | some p => p.vf | none => 0) l.pa
    if m.2 then m.1 else (s.pocWrite a l.bytes).nearGone core pidx l.pa

end Sys2Proof.Machine
end

