-- ==== Sys2Proof/Machine/Staging.lean ====
section
/-! DEFINITION. Staged writes: regions, the staging buffer and its overflow areas (R245 to R249, R251). -/

namespace Sys2Proof.Machine

/-- A record of the staged-region table (R246). -/
structure Region where
  index : Nat
  base : Nat
  len : Nat
  ovf : Nat
  ovflen : Nat
  used : Nat
  reserved : Bool
deriving DecidableEq, Repr

/-- Whether a range of module memory cannot be read: a line of it is lost, or has an upset no access has met (R416, R417). -/
def State.unsound (s : State) (pa n : Nat) : Bool :=
  s.lostRange pa n || (linesOf pa n).any fun l => s.flaws.contains (.memLine l) || (s.flaws.contains (.l2Line l) &&
    match ownerOf (l * 64) with
    | .die d => (s.die d).l2.any fun x => x.pa / 64 == l && x.dirty
    | _ => false)

/-- The page of n bytes of tenant memory that the device itself may read, or write. -/
def State.devPage (s : State) (vf die va n : Nat) (write : Bool) : Option Phys :=
  if !(isGlobal va && isGlobal (va + n - 1)) then none
  else
    match (s.translate vf die none ⟨write, false, true⟩ va).2, (s.translate vf die none ⟨write, false, true⟩ (va + n - 1)).2 with
    | .ok p, .ok _ => some p
    | _, _ => none

/-- The physical address of n bytes of tenant memory for the device itself, where every one may be read, or written. A page
    of another module or the host is none the device uses so (DESIGN CHOICE, log entry 40). -/
def State.devAddr (s : State) (vf die va n : Nat) (write : Bool) : Option Phys :=
  match s.devPage vf die va n write with
  | none => none
  | some p =>
    match p.owner with
    | .die _ => if !write && s.unsound p.pa n then none else some p
    | _ => none

/-- Read a little-endian number of tenant memory for the device; none where it cannot be read. -/
def State.devNat (s : State) (vf die va n : Nat) : Option Nat :=
  (s.devAddr vf die va n false).map fun p => s.rdNat p.pa n

/-- Record k of a virtual function's staged-region table. -/
def State.region (s : State) (vf die k : Nat) : Option Region :=
  let base := (s.tenant vf).stage.toNat
  if base == 0 || base % 4096 != 0 then none
  else
    match s.devAddr vf die (base + 64 * k) 64 false with
    | none => none
    | some p =>
      let f := fun o => s.rdNat (p.pa + o) 8
      some ⟨k, f 0, f 8, f 16, f 24, f 32, (s.rdBytes (p.pa + 40) 24).any (· != 0)⟩

/-- A read of the staged-region table as the device makes it at a staged write: its lines that are upset become lost, and
    the answer is whether one of them is (R416, R417). -/
def State.meetRegions (s : State) (vf die : Nat) : State × Bool :=
  let base := (s.tenant vf).stage.toNat
  if base == 0 || base % 4096 != 0 then (s, false)
  else (List.range 64).foldl (fun x k =>
    match (x.1.translate vf die none ⟨false, false, true⟩ (base + 64 * k)).2 with
    | .ok p => let m := x.1.meetMem vf p.pa 64; (m.1, x.2 || m.2)
    | .error _ => x) (s, false)

/-- The lowest-numbered used record whose range holds an address (R246). -/
def State.findRegion (s : State) (vf die va : Nat) : Option Region :=
  ((List.range 64).filterMap fun k => s.region vf die k).find? fun r =>
    r.len != 0 && r.base ≤ va && va < r.base + r.len

/-- Whether the overflow area of a record lies on UNTRACKED pages without FMT and with WRITE set: its pages of 64 KiB
    are looked at one by one. -/
def State.ovfOk (s : State) (vf die : Nat) (r : Region) : Bool :=
  (List.range (r.ovflen / 65536 + 2)).all fun i =>
    let a := if i == 0 then r.ovf else (r.ovf / 65536 + i) * 65536
    if r.ovf + r.ovflen ≤ a then true
    else
      match s.devPage vf die a 1 true with
      | some p => p.leaf.cls == clsUntracked && !p.leaf.fmt
      | none => false

/-- A malformed record (R246). -/
def State.regionBad (s : State) (vf die : Nat) (r : Region) : Bool :=
  r.base % 65536 != 0 || r.len % 65536 != 0 || r.ovf % 128 != 0 || r.ovflen % 128 != 0 || r.reserved
    || !s.ovfOk vf die r

/-- The entries a partition's staging buffer holds. -/
def State.buffered (s : State) (core pidx : Nat) : List Staged :=
  s.staged.filter fun e => e.core == core && e.pidx == pidx && e.spill.isNone

/-- The virtual addresses at which a virtual function's spilled entries lie in its overflow areas. -/
def State.spillVas (s : State) (vf : Nat) : List Nat :=
  s.staged.filterMap fun e => match e.spill with
    | some (_, _, va) => if e.vf == vf then some va else none
    | none => none

/-- Whether a region's overflow area has room for 128 more bytes. -/
def Region.room (r : Region) : Bool := r.used + 128 ≤ r.ovflen

/-- Write OVFUSED of a record. -/
def State.setUsed (s : State) (vf die : Nat) (r : Region) (used : Nat) : State :=
  match s.devAddr vf die ((s.tenant vf).stage.toNat + 64 * r.index + 32) 8 false with
  | some p => s.pocWriteNat p.pa 8 used
  | none => s

/-- 128 bytes of the device's own layout, which is not published (R247): free bytes. -/
def freeBytes (tick n : Nat) : List Byte := (List.range n).map fun i => Config.freeByte (tick * 128 + i)

/-- The first free 128 bytes of an area, with their virtual address. -/
def State.freeSpot (s : State) (vf die : Nat) (r : Region) : Option (Phys × Nat) :=
  let held := s.spillVas vf
  let spots := (List.range (r.ovflen / 128)).map fun i => r.ovf + 128 * i
  match spots.find? fun a => held.all fun h => h + 128 ≤ a || a + 128 ≤ h with
  | none => none
  | some a => (s.devPage vf die a 128 true).map fun p => (p, a)

/-- Place an entry in its region's overflow area (R247). -/
def State.spillTo (s : State) (e : Staged) (r : Region) : Option (State × Staged) :=
  let die := dieOf e.core
  if !r.room || s.regionBad e.vf die r then none
  else
    match s.freeSpot e.vf die r with
    | none => none
    | some (p, va) =>
      let bs := freeBytes s.tick 128
      let (s1, image) := match p.owner with
        | .die _ => ((s.pocWrite p.pa (bs.take 64)).pocWrite (p.pa + 64) (bs.drop 64), [])
        | _ => ((s.askFor (.core e.core) e.vf e.launch va 128 p (.write (bytesNat bs)) false).1, bs)
      let s2 := s1.setUsed e.vf die r (r.used + 128)
      some ({ s2 with tick := s2.tick + 1 }, { e with spill := some (p.pa, r.index, va), image := image })

/-- A buffered entry spilled to its region's area, where it can be. -/
def State.spill1 (s : State) (e : Staged) : Option State :=
  match s.findRegion e.vf (dieOf e.core) (e.line * 64) with
  | none => none
  | some r =>
    match s.spillTo e r with
    | none => none
    | some (s1, e1) => some { s1 with staged := s1.staged.map fun x => if x = e then e1 else x }

/-- The oldest buffered entry of a partition that can be spilled, spilled (R247). -/
def State.spillOldest (s : State) (core pidx : Nat) : Option State :=
  let can := (s.buffered core pidx).filter fun e => (s.spill1 e).isSome
  (can.find? fun e => can.all fun x => e.born ≤ x.born).bind s.spill1

/-- The member rank of a terrace's staged values (R251). -/
def State.rankOf (s : State) (t : Terrace) (k : DomKey) (gangRank : Nat) : Nat :=
  match k with
  | .gang _ => gangRank
  | .launch l =>
    match s.launch? l with
    | some x =>
      let c := s.dieCoord (dieOf t.core)
      (c / 256 - x.d.y0) * x.d.w + (c % 256 - x.d.x0)
    | none => 0
  | _ => 0

/-- Who stages, and what the written words record (R251). -/
structure Stager where
  vf : Nat
  core : Nat
  pidx : Nat
  ter : Nat
  terno : Nat
  launch : Nat
  dom : DomKey
  after : Nat
  rank : Nat
  ty : Nat
deriving DecidableEq, Repr

/-- What a staged write comes to. -/
inductive StageRes where
  | ok (s : State)
  /-- no record, or a malformed one (R246) -/
  | violation
  /-- the stage-full trap (R248) -/
  | full
  /-- a record cannot be read (R417) -/
  | lost (s : State)

/-- Write bytes within one line into an entry. -/
def Staged.put (e : Staged) (off : Nat) (bs : List Byte) (ty : Nat) : Staged :=
  let idx := bs.zipIdx.map fun (b, i) => (off + i, b)
  let words := ((List.range bs.length).map fun i => (off + i) / 4).eraseDups
  { e with bytes := idx.foldl (fun m x => kins x.1 x.2 (kdel m x.1)) e.bytes,
           types := words.foldl (fun m w => kins w ty (kdel m w)) e.types }

/-- The pages of a virtual function's staged-region table and of a record's overflow area, which the device reaches at a staged
    write: their translations enter the home TLB, and their pieces have records (R371). -/
def State.stageWalks (s : State) (vf die : Nat) (r : Region) : State :=
  let s := (s.translate vf die none ⟨false, false, true⟩ (s.tenant vf).stage.toNat).1
  (List.range (r.ovflen / 65536 + 2)).foldl (fun s i =>
    let a := if i == 0 then r.ovf else (r.ovf / 65536 + i) * 65536
    if r.ovf + r.ovflen ≤ a || !isGlobal a then s else (s.translate vf die none ⟨true, false, true⟩ a).1) s

/-- Stage bytes within one line (R247, R248). -/
def State.stage (s : State) (g : Stager) (va : Nat) (ph : Phys) (bs : List Byte) : StageRes :=
  let die := dieOf g.core
  let m := if s.flaws.isEmpty && (s.dies.all fun e => e.2.lost.isEmpty) then (s, false) else s.meetRegions g.vf die
  let s := m.1
  if m.2 then .lost s
  else
  match s.findRegion g.vf die va with
  | none => .violation
  | some r =>
    if s.regionBad g.vf die r then .violation
    else
      let s := s.stageWalks g.vf die r
      let same := fun (e : Staged) =>
        e.ter == g.ter && e.pa == ph.pa / 64 && e.dom == g.dom && e.after == g.after && e.good && !e.called
      match s.staged.find? same with
      | some e =>
        .ok { s with staged := e.put (ph.pa % 64) bs g.ty :: s.staged.filter fun x => x != e }
      | none =>
        let e0 : Staged := ⟨g.dom, g.after, g.vf, g.core, g.pidx, g.ter, g.terno, g.rank, g.launch, va / 64,
          ph.pa / 64, ph.leaf, [], [], none, true, [], false, s.fresh⟩
        let e := e0.put (ph.pa % 64) bs g.ty
        let s := { s with fresh := s.fresh + 1 }
        if (s.buffered g.core g.pidx).length < 256 then .ok { s with staged := e :: s.staged }
        else
          match s.spillOldest g.core g.pidx with
          | some s1 => .ok { s1 with staged := e :: s1.staged }
          | none =>
            match s.spillTo e r with
            | some (s1, e1) => .ok { s1 with staged := e1 :: s1.staged }
            | none => .full

/-- Whether a staged entry has become bad: changed or lost in its overflow area, or upset (R247, R416). -/
def State.entryBad (s : State) (e : Staged) : Bool :=
  !e.good || s.flaws.contains (.staged e.ter e.line)
    || (match e.spill with | some (pa, _) => s.unsound pa 128 | none => false)

/-- A dropped entry (R247): logged in both logs, its launch marked, and an upset counted (R416). -/
def State.dropEntry (s : State) (e : Staged) : State :=
  let f := Flaw.staged e.ter e.line
  let s := match e.spill with | some (pa, _) => (s.meetMem e.vf pa 128).1 | none => s
  let s := if s.flaws.contains f then (s.dropFlaw f).unitEvent (unitCore e.core) else s
  ((s.logRec e.vf true ⟨e.line * 64, 0, 0x42, 0, 0, 0, dieOf e.core, 2⟩).1).markError e.launch

/-- The bytes of a spilled entry are free again (R247). -/
def State.freeSpill (s : State) (e : Staged) : State :=
  match e.spill with
  | none => s
  | some (_, k, _) =>
    match s.region e.vf (dieOf e.core) k with
    | some r => s.setUsed e.vf (dieOf e.core) r (r.used - 128)
    | none => s

/-- A terrace's own read of staged bytes whose entry is upset: the entry is dropped (R247, R416). -/
def State.meetStaged (s : State) (ter pa n : Nat) : State :=
  if s.flaws.isEmpty then s
  else
    (s.staged.filter fun e => e.ter == ter && pa / 64 ≤ e.pa && e.pa ≤ (pa + n - 1) / 64
        && s.flaws.contains (.staged e.ter e.line)).foldl (fun s e =>
      let s := s.freeSpill e
      { s with staged := s.staged.filter fun x => x != e }.dropEntry e) s

/-- The type an instruction's staged words record (R251). -/
def stagedType (ty : Nat) : Nat := if ty == 0 || ty == 1 || ty == 8 then ty else 0

/-- The stager of a terrace's write to a page. `gangRank` is the die's rank in the view of a bound gang. -/
def State.stager (s : State) (t : Terrace) (sgrp gangRank ty : Nat) : Stager :=
  let k := t.domain sgrp
  let pidx := match s.part? t.core t.vf with | some p => p.pidx | none => 0
  ⟨t.vf, t.core, pidx, t.uid, t.ter, t.launch, k, t.arrivals k, s.rankOf t k gangRank, ty⟩

end Sys2Proof.Machine
end

