-- ==== Sys2Proof/Machine/Memory.lean ====
section
/-! DEFINITION. Memory instructions (R188 to R201, R234 to R244): how each lane's access begins, and the instructions
LD, ST, LDBY, STBY, LDF, STF, PREF, INVL, WAITP, LDA, STL, AMO, CAS and RED. -/

namespace Sys2Proof.Machine

/-! ## Gangs, as far as accesses need them -/

/-- A gang by its number. -/
def State.gang? (s : State) (g : Nat) : Option Gang := s.gangs.find? fun x => x.id == g

/-- The rank of a die in a gang's view. -/
def State.gangRank (s : State) (g : Gang) (die : Nat) : Option Nat :=
  (List.range g.members.length).find? fun i => g.members.getD i 0 == s.dieCoord die

/-- The rank of a terrace's die in its gang's view; 0 where there is none. -/
def State.terRank (s : State) (t : Terrace) : Nat :=
  match t.gang.bind s.gang? with
  | some g => (s.gangRank g (dieOf t.core)).getD 0
  | none => 0

/-- The participants of a gang (R245, R271). -/
def State.gangTers (s : State) (g : Nat) : List Terrace := s.ters.filter fun t => t.gang == some g

/-- The module that a die's mesh coordinate lies in. -/
def moduleOf (c : Nat) : Nat := c % 256 / 2 + 256 * (c / 256 / 2)

/-- The dies among mesh coordinates that other modules hold, one for each module. -/
def State.otherMods (s : State) (cs : List Nat) : List Nat :=
  (cs.filter fun c => (s.dieOfCoord c).isNone).foldl (fun l c => if l.any fun x => moduleOf x == moduleOf c then l else l ++ [c]) []

/-- Whether the participants of a domain on other modules, which hold dies of a list, have not all arrived at its next
    crossing. -/
def State.awaited (s : State) (k : DomKey) (cs : List Nat) : Bool :=
  (s.otherMods cs).any fun c => !(s.dom k).arrived.contains (moduleOf c)

/-- Whether R272 holds an instruction of a terrace back: it has arrived at a crossing that has not completed, and some
    participant, of this module or another, has not arrived or a width request has been made. -/
def State.gated (s : State) (t : Terrace) : Bool :=
  match t.gang with
  | none => false
  | some g =>
    let d := s.dom (.gang g)
    let done := d.crossings
    let away := match s.gang? g with | some x => s.awaited (.gang g) x.members | none => false
    done < t.gangArr && (away || d.asked.isSome
      || (s.gangTers g).any fun u => u.gangArr ≤ done || (u.widthReq.map (·.2)) == some done)

/-! ## One lane's access -/

/-- What a lane's access begins as. -/
inductive LaneRes where
  | fault (code : Nat)
  | open (r : Req)
  /-- a request to another module or the host -/
  | send (r : Req)
  | done
  /-- the instruction does not issue yet -/
  | stay

/-- Whether an access needs WRITE (R175, R193). -/
def AccKind.writes : AccKind → Bool
  | .store .. | .stf | .amo _ | .cas | .red _ | .stl _ | .sig => true
  | _ => false

/-- Whether an access reads data before it writes any. -/
def AccKind.reads : AccKind → Bool
  | .load .. | .ldf | .lda .. | .amo _ | .cas | .red _ | .sig | .image => true
  | _ => false

/-- Whether an access decodes a block (R197, R198). -/
def AccKind.block : AccKind → Bool
  | .ldf | .stf => true
  | _ => false

/-- Whether an access is a store, whose refusal by another module or the host stands at its issue (R192, R237, R369). -/
def AccKind.posted : AccKind → Bool
  | .store .. | .stf | .stl _ => true
  | _ => false

/-- Whether an access looks up the L1 (R331, R235). -/
def AccKind.looksUp : AccKind → Bool
  | .load _ _ bypass => !bypass
  | .ldf => true
  | .lda _ poc => !poc
  | _ => false

/-- The new value of an atomic's location, as a bit pattern of the type (R241, R243): none writes nothing. -/
def AccKind.apply (k : AccKind) (ty old x cmp : Nat) : Option Nat :=
  let w := tyWidth ty
  match k with
  | .cas => if old == cmp then some x else none
  | .amo op | .red op =>
    some (match op with
      | 0 => if tyInt ty then (old + x) % 2 ^ w else roundToType ty 0 0 false (Xr.add false (valueOf ty old) (valueOf ty x))
      | 1 => if tyInt ty then wrapTo w (min (intOf ty old) (intOf ty x))
             else roundToType ty 0 0 false (Xr.minmax false (valueOf ty old) (valueOf ty x))
      | 2 => if tyInt ty then wrapTo w (max (intOf ty old) (intOf ty x))
             else roundToType ty 0 0 false (Xr.minmax true (valueOf ty old) (valueOf ty x))
      | 3 => old &&& x
      | 4 => old ||| x
      | 5 => old ^^^ x
      | _ => x)
  | _ => none

/-- Whether a COMMUTE page permits an access (R179): loads, and RED add in the page's element type. -/
def commuteOk (k : AccKind) (ty cfmt : Nat) : Bool :=
  match k with
  | .load .. | .ldf | .lda .. | .pref _ | .image => true
  | .red op => op == 0 && ty == cfmtType cfmt
  | _ => false

/-- An access on an on-chip window: stores and atomics take place at once (R194, R238); a load of the terrace's own
    registers reads them at issue (R167). -/
def State.chipLane (s : State) (c : Ctx) (k : AccKind) (r : Req) : State × LaneRes :=
  if k.reads && (match r.reg with | some t => s.meetReg t r.loc r.len | none => s.meetChip r.loc r.len) then
    ((match r.reg with | some t => s.terErr t | none => s.chipErr r.loc), .fault 0x16)
  else
    match k with
    | .load .. | .ldf | .lda .. | .image =>
      (s, .open { r with bound := if r.reg == some c.uid then some (s.chipRead r.chip r.len) else none })
    | .store .. | .stf | .stl _ => ((s.bindOver c.uid s.fresh r).chipWrite r.chip r.len r.data, .done)
    | .pref _ => (s, .done)
    | k =>
      let s := s.bindOver c.uid s.fresh r
      let old := s.chipRead r.chip r.len
      let s := match k.apply c.ty old r.data r.cmp with
        | some v => s.chipWrite r.chip r.len v
        | none => s
      (s, match k with | .red _ => .done | _ => .open { r with bound := some old })

/-- Bytes staged for a terrace's write at a page: the state after it, or the fault. -/
def State.stageAs (s : State) (t : Terrace) (ty : Nat) (ea : Nat) (ph : Phys) (bs : List Byte) : State × Option Nat :=
  match s.stage (s.stager t ph.leaf.sgrp (s.terRank t) (stagedType ty)) ea ph bs with
  | .ok s => (s, none)
  | .violation => (s, some codeViolation)
  | .full => (s, some 0x18)
  | .lost s => (s, some 0x16)

/-- A terrace's own staged bytes of a range, by their place in it. -/
def State.ownBytes (s : State) (ter pa n : Nat) : List (Nat × Byte) :=
  (List.range n).filterMap fun i => (s.ownStaged ter (pa + i)).map fun b => (i, b)

/-- A value with bytes replaced. -/
def overBytes (own : List (Nat × Byte)) (n v : Nat) : Nat :=
  if own.isEmpty then v else bytesNat ((natBytes n v).zipIdx.map fun e => ((own.find? fun o => o.1 == e.2).map (·.2)).getD e.1)

/-- A staged write, or an atomic on a STAGED page (R178, R238). An atomic on a peer's page reads there first. -/
def State.stagedLane (s : State) (c : Ctx) (k : AccKind) (r : Req) (ph : Phys) : State × LaneRes :=
  if ph.leaf.sgrp == 1 && s.gated c.t then (s, .stay)
  else if k.atomic && r.away then (s, .send { r with own := s.ownBytes c.uid ph.pa r.len })
  else
    let s1 := s.bindOver c.uid s.fresh r
    let put := fun (s : State) (v : Nat) (res : LaneRes) =>
      match s.stageAs c.t c.ty r.ea ph (natBytes r.len v) with
      | (s, none) => (s, res)
      | (s, some code) => (s, .fault code)
    if k.atomic then
      let rd := s1.pocRead c.t.core c.t.vf c.uid ph r.len
      let res := match k with | .red _ => LaneRes.done | _ => .open { r with bound := some rd.2 }
      match k.apply c.ty rd.2 r.data r.cmp with
      | some v => put rd.1 v res
      | none => (rd.1, res)
    else put s1 r.data .done

/-- Whether the record line of a live bounded counter holds an address (R338). -/
def State.liveRecord (s : State) (pa : Nat) : Bool := s.bcs.any fun b => b.pa == pa / 64 * 64

/-- Whether an access is one of a load-class instruction (R324). -/
def AccKind.loadClass : AccKind → Bool
  | .load .. | .lda .. | .ldf | .pref _ | .amo _ | .cas => true
  | _ => false

/-- The addresses whose requests an instruction has made: a load makes one request for each line, an atomic one for each
    address (R192, R240). -/
abbrev Seen := List Nat

/-- A request to a page, made: its miss in the L1 where it looked there, and its lookup in the L2, counted for load-class
    instructions (R331, R389). A line in the near cache goes no further (R239). -/
def State.request (s : State) (c : Ctx) (k : AccKind) (seen : Seen) (r : Req) (ph : Phys) : State :=
  if if k.atomic then seen.contains r.ea else seen.any fun x => x / 64 == r.ea / 64 then s
  else
    match s.part? c.t.core c.t.vf with
    | none => s
    | some p =>
      let s1 := if k.looksUp && ph.l1Ok c.die then s.l1Miss c.t p r.ea else s
      if (p.nearLine ph.pa).isSome then s1
      else if k.loadClass then s1.l2Count c.t r.ea ph false
      else if k.reads then (s1.l2Touch c.t r.ea ph false).1
      else s1

/-- Why an access on a page whose translation stands is refused (R179, R197, R338, R414). -/
def State.refusal (s : State) (c : Ctx) (k : AccKind) (ph : Phys) : Option Nat :=
  let away := match ph.owner with | .die _ => false | _ => true
  if ph.leaf.cls == clsCommute && (!commuteOk k c.ty ph.leaf.cfmt || (away && k.writes)) then some codeViolation
  else if k.block && !ph.leaf.fmt then some 0x15
  else if k.writes && s.liveRecord ph.pa then some codeViolation
  else if s.ownerDown c.die ph.owner then some 0x19
  else none

/-- Whether a command of the terrace, of a number below `before`, has still to read, outside the module, bytes that a write of
    the terrace would change (R226). -/
def State.cmdReads (s : State) (ter before ea n : Nat) : Bool :=
  s.cmds.any fun m => m.ter == ter && m.id < before && m.fault.isNone && (match m.kind with
    | .cp _ _ src ss len rows _ _ => (List.range rows).any fun i =>
        m.next ≤ i && ea < (src + i * ss) % 2 ^ 64 + len && (src + i * ss) % 2 ^ 64 < ea + n
    | .rqnt .. => false)

/-- Whether the near cache of the terrace's core awaits a line from a peer (R239). -/
def State.nearComing (s : State) (c : Ctx) (pa : Nat) : Bool :=
  s.accs.any fun a => a.core == c.t.core && a.vf == c.t.vf && a.reqs.any fun r =>
    r.outside && r.loc / 64 == pa / 64 && (match r.page with | some p => a.kind.fetchesFirst p.leaf && p.leaf.place == 1 | none => false)

/-- An access on a page whose translation stands (R193, R194, R238). One that is refused leaves the state as it was. Whether
    the owner of an outside page refuses a store by its own checks (R369) is a free value at the store's issue (log entry 41). -/
def State.pageLane (s : State) (c : Ctx) (k : AccKind) (seen : Seen) (r : Req) (q : Reach) : State × LaneRes :=
  let ph := q.ph
  let r := { r with loc := ph.pa, page := some ph }
  match s.refusal c k ph with
  | some code => (s, .fault code)
  | none =>
    let s := if k.reads && ph.leaf.cls == clsStaged then s.meetStaged c.uid ph.pa r.len else s
    match ph.owner with
    | .die _ =>
      let m := if k.reads then s.meetPage c.t.core c.t.vf ph r.len else (s, false)
      let s1 := (m.1.enter c.t.vf c.die r.ea q).request c k seen r ph
      if m.2 then (m.1, .fault 0x16)
      else if ph.leaf.cls == clsStaged && k.writes then
        match s1.stagedLane c k r ph with
        | (s2, .fault code) => (if code == 0x16 then s2 else m.1, .fault code)
        | x => x
      -- an atomic on an UNTRACKED page placed HOME removes the core's own L1 copy at issue (R238)
      else
        (if k.atomic && ph.leaf.cls == clsUntracked && ph.leaf.place == 0 then s1.l1DropPa c.t.core c.t.vf ph.pa else s1, .open r)
    | .bad => (s, .fault codeEntry)
    | _ =>
      let near := ((s.part? c.t.core c.t.vf).bind fun p => p.nearLine ph.pa).isSome
      if (k.writes && s.cmdReads c.uid s.fresh r.ea r.len) || s.nearComing c ph.pa then (s, .stay)
      else if ph.leaf.cls == clsStaged && k.writes then
        match s.stagedLane c k r ph with
        | (s2, .fault code) => (if code == 0x16 then s2 else s, .fault code)
        | (s2, x) => (if k.atomic then s2.request c k seen r ph else (s2.enter c.t.vf c.die r.ea q).request c k seen r ph, x)
      else if near then ((s.enter c.t.vf c.die r.ea q).request c k seen r ph, .open r)
      else if k.posted && Config.ownerRefuses s.tick ph.pa then ({ s with tick := s.tick + 1 }, .fault codeViolation)
      else
        let s := if k.posted then { s with tick := s.tick + 1 } else s
        (s.request c k seen r ph,
          .send (if ph.leaf.cls == clsStaged then { r with own := s.ownBytes c.uid ph.pa r.len } else r))

/-- The windows LDF and STF reach besides the global one (R197): the core scratchpad, cluster and market. -/
def blockWindow (ea : Nat) : Bool :=
  isGlobal ea || (0x80000 ≤ ea && ea < 0x100000) || (0x1000000 ≤ ea && ea < 0x2000000) || (0x4000000 ≤ ea && ea < 0x8000000)

/-- Begin one lane's access of `len` bytes at an address. -/
def State.lane (s : State) (c : Ctx) (k : AccKind) (seen : Seen) (lane ea len data cmp : Nat) : State × LaneRes :=
  let r : Req := ⟨lane, ea, 0, len, none, none, data, cmp, none, 0, false, [], false⟩
  if ea % len != 0 then (s, .fault 0x14)
  else if k.block && !blockWindow ea then (s, .fault codeViolation)
  else if !(isGlobal ea && isGlobal (ea + len - 1)) then
    match s.chipAt c.t lane ea len with
    | none => (s, .fault codeViolation)
    | some p => s.chipLane c k { r with loc := p.place.1, reg := p.place.2 }
  else
    let hit : State × Option Line := if k.looksUp then
        (match s.part? c.t.core c.t.vf with
         | some p =>
           (match s.l1Find c.t p ea with
            | some l =>
              let s1 := s.meetL1 c.t.core p.pidx (l.pa / 64)
              (s1, ((s1.part? c.t.core c.t.vf).bind fun p => s1.l1Find c.t p ea))
            | none => (s, none))
         | none => (s, none))
      else (s, none)
    match hit.2 with
    | some l =>
      if !l.leaf.user && !c.sp.supervisor then (hit.1, .fault codeViolation)
      else if k.block && !l.leaf.fmt then (hit.1, .fault 0x15)
      else
        let ph : Phys := ⟨l.pa + ea % 64, l.leaf, l.owner, false⟩
        let s1 := if l.leaf.cls == clsStaged then hit.1.meetStaged c.uid ph.pa len else hit.1
        let q := { r with loc := ph.pa, page := some ph }
        -- a hit reads its line now, unless an access of the terrace before it is still open at its bytes (R2, R221)
        if s1.accs.any fun a => a.ter == c.uid && a.reqs.any q.overlaps then (s1, .open q)
        else
          let v := s1.cachedRead c.t false ea ph len
          (v.1, .open { q with bound := some v.2 })
    | none =>
      match hit.1.reach c.t c.die (some c.t.core) ⟨k.writes, false, c.sp.supervisor⟩ ea with
      | (s1, .error e) => (s1, .fault e.code)
      | (s1, .ok q) => s1.pageLane c k seen r q

/-! ## The instruction -/

/-- What the lanes of an instruction have come to. -/
structure Lanes32 where
  s : State
  reqs : List Req
  out : List Req
  done : List (Nat × Nat)
  faults : List (Nat × Nat × Nat)
  seen : Seen
  stay : Bool

/-- One lane's result noted: opened requests, those that leave the module, completed lanes and faults, each with its
    address. A lane that faults makes no access (R193). -/
def Lanes32.add (x : Lanes32) (lane ea : Nat) (r : State × LaneRes) : Lanes32 :=
  let y := { x with s := r.1, seen := ea :: x.seen }
  match r.2 with
  | .open q => { y with reqs := x.reqs ++ [q] }
  | .send q => { y with out := x.out ++ [q] }
  | .done => { y with done := x.done ++ [(lane, ea)] }
  | .fault code => { y with seen := x.seen, faults := x.faults ++ [(lane, code, ea)] }
  | .stay => { y with stay := true }

/-- Whether a fault is an error response, which is logged (R193). -/
def isResponse (code : Nat) : Bool := code != codePage && code != 0x14 && code != 0x18

/-- The error responses of lanes besides the one that a trap reports, logged (R193). -/
def State.logLanes (s : State) (t : Terrace) (pc : Nat) (fs : List (Nat × Nat × Nat)) : State :=
  (fs.filter fun f => isResponse f.2.1).foldl (fun s f =>
    (s.logRec t.vf (logBoth f.2.1) (coreRec t f.2.1 0 f.2.2 pc)).1) s

/-- A RED to the global window whose translation fails does not trap (R244): a page fault parks it, and of any other
    error the address is logged, and nothing performed. -/
def State.redFault (s : State) (c : Ctx) (code ea : Nat) : State :=
  ((s.logRec c.t.vf (logBoth code) (coreRec c.t code 0 ea c.pc.toNat)).1).markError c.t.launch

/-- Register an access with its open requests; it counts on its path unless the instruction traps (R182, R183). `errs` are
    faults of its other lanes that the split's trap will report with theirs. -/
def State.openAccess (s : State) (c : Ctx) (k : AccKind) (dst : Dst) (lanes : Lanes) (path : Nat) (reqs : List Req)
    (parked counts : Bool) (errs : List (Nat × Nat × Nat)) : State :=
  let id := s.fresh
  let s := { s with fresh := id + 1 }
  let a : Access := ⟨id, c.uid, c.sid, c.t.core, c.t.ter, c.t.vf, c.t.launch, path, k, dst, c.sp.mode, c.sp.rk,
    c.sp.rc, lanes, reqs, parked, errs, none⟩
  let s := if reqs.isEmpty then s else { s with accs := s.accs ++ [a] }
  s.updTer c.uid fun t =>
    let t := if counts then { t with flight := trimAll (t.flight ++ [⟨id, path, if reqs.isEmpty then [] else [id]⟩]) } else t
    if reqs.isEmpty then t else t.setPending c.now (writesOf c.sp.mode c.i) none id

/-- Whether a register of the terrace that an access reaches through the register window is pending (R167, R323). -/
def State.ownRegBusy (s : State) (c : Ctx) (lanes : List Nat) (ea : Nat → Nat) (len : Nat) : Bool :=
  lanes.any fun l =>
    match s.chipAt c.t l (ea l) len with
    | some (.reg t off) =>
      t == c.uid && c.t.pending.any fun p => p.reg == .v (off / 128) && (match p.clearAt with | some n => c.now < n | none => true)
    | _ => false

/-- Whether an access returns a value. -/
def AccKind.returning : AccKind → Bool
  | .load .. | .ldf | .lda .. | .amo _ | .cas | .image => true
  | _ => false

/-- Whether an access keeps its split's next instruction back until its lanes have been answered: an LDA (R235), an LDF, whose
    block is checked as it is read (R76), and a load or atomic that another module or the host answers, whose error response
    traps precisely (R5, R193, R244). Stores and REDs do not wait (R192, R236, R244). DEDUCED (log entry 41). -/
def AccKind.holds (k : AccKind) (reqs out : List Req) : Bool :=
  match k with
  | .lda .. | .ldf => !(reqs.isEmpty && out.isEmpty)
  | .load .. | .amo _ | .cas => !out.isEmpty
  | _ => false

/-- Begin a memory instruction in its lanes (R192, R193, R242). `ea`, `data` and `cmp` give each lane's address and
    operands. -/
def memOp (k : AccKind) (dst : Dst) (lanes : List Nat) (all : Lanes) (len : Nat) (ea data cmp : Nat → Nat)
    (s : State) (c : Ctx) : Res :=
  if lanes.isEmpty then .done s none
  else if s.ownRegBusy c lanes ea len then .stay
  else
    let x := lanes.foldl (fun (x : Lanes32) l => x.add l (ea l) (x.s.lane c k x.seen l (ea l) len (data l) (cmp l)))
      ⟨s, [], [], [], [], [], false⟩
    if x.stay then .stay
    else
      let soft := match k with | .red _ => true | _ => false
      let isSoft := fun (f : Nat × Nat × Nat) => soft && isGlobal f.2.2 && f.2.1 != 0x14 && f.2.1 != 0x18
      let hard := x.faults.filter fun f => !isSoft f
      let quiet := x.faults.filter isSoft
      let park := quiet.filter fun f => f.2.1 == codePage
      let s1 := (quiet.filter fun f => f.2.1 != codePage).foldl (fun s f => s.redFault c f.2.1 f.2.2) x.s
      let first := lanes.find? fun l => !hard.any fun f => f.1 == l
      let path := match first with
        | none => 0
        | some l => match (x.reqs ++ x.out).find? fun r => r.lane == l with
          | some r => pathOf (ea l) r.page
          | none => if isGlobal (ea l) then 0 else pathOf (ea l) none
      let counts := hard.isEmpty && first.isSome
      if counts && 255 ≤ c.t.inFlight path then .stay
      else
        let sent := s1.sendAll (.core c.t.core) c.t.vf c.ty k x.out
        let reqs := x.reqs ++ sent.2
        let holds := k.holds x.reqs x.out
        let parkReqs := park.map fun f => (⟨f.1, f.2.2, 0, len, none, none, data f.1, 0, none, 0, false, [], false⟩ : Req)
        let s2 := if first.isNone then s1
          else if park.isEmpty then sent.1.openAccess c k dst all path reqs false counts (if holds then hard else [])
          else
            -- the parked lanes return apart from the others, and the counter waits for both
            let one := reqs.isEmpty
            let s2 := if one then sent.1 else sent.1.openAccess c k dst all path reqs false counts []
            let s3 := s2.openAccess c k dst all path parkReqs true (counts && one) []
            if one then s3 else s3.joinFlight c.uid sent.1.fresh s2.fresh
        if holds then .hold s2 (.access sent.1.fresh)
        else
          match hard with
          | [] => .done s2 none
          | f :: fs => .trap (s2.logLanes c.t c.pc.toNat fs) ⟨f.2.1, 0, false, false, some (maskOf (hard.map (·.1))), f.2.2⟩
              (first.isSome)

/-- The lanes that make a load's access: an s destination takes the lowest active lane's (R192). -/
def Ctx.loadLanes (c : Ctx) (d : Dst) : List Nat :=
  match d with | .s _ => (lowLane c.active).toList | _ => c.lanes

/-- LD and LDBY (R192, R195). -/
def load (w : Nat) (bypass : Bool) (d : Dst) (a b : Src) (s : State) (c : Ctx) : Res :=
  memOp (.load w (w ≤ 2 && tySigned c.ty) bypass) d (c.loadLanes d) c.active w (c.addr a b) (fun _ => 0) (fun _ => 0) s c

/-- The n registers of a store's value operand in a lane, as one number. -/
def Ctx.storeVal (c : Ctx) (x : Src) (w l : Nat) : Nat :=
  if w ≤ 4 then c.src x l % 2 ^ (8 * w)
  else (List.range (w / 4)).foldl (fun v k => v + c.group x k l * 2 ^ (32 * k)) 0

/-- ST and STBY (R192, R195). -/
def store (w : Nat) (bypass : Bool) (d a b : Src) (s : State) (c : Ctx) : Res :=
  memOp (.store w bypass) .none c.lanes c.active w (c.addr a b) (c.storeVal d w) (fun _ => 0) s c

def execLdB (d : Dst) (a b : Src) (s : State) : Host.Outcome State Fault Refusal := issue (.ldB d a b) (load 1 false d a b) s
def execLdH (d : Dst) (a b : Src) (s : State) : Host.Outcome State Fault Refusal := issue (.ldH d a b) (load 2 false d a b) s
def execLdW (d : Dst) (a b : Src) (s : State) : Host.Outcome State Fault Refusal := issue (.ldW d a b) (load 4 false d a b) s
def execLdD (d : Dst) (a b : Src) (s : State) : Host.Outcome State Fault Refusal := issue (.ldD d a b) (load 8 false d a b) s
def execLdQ (d : Dst) (a b : Src) (s : State) : Host.Outcome State Fault Refusal := issue (.ldQ d a b) (load 16 false d a b) s
def execLdbyW (d : Dst) (a b : Src) (s : State) : Host.Outcome State Fault Refusal := issue (.ldbyW d a b) (load 4 true d a b) s
def execLdbyD (d : Dst) (a b : Src) (s : State) : Host.Outcome State Fault Refusal := issue (.ldbyD d a b) (load 8 true d a b) s
def execLdbyQ (d : Dst) (a b : Src) (s : State) : Host.Outcome State Fault Refusal := issue (.ldbyQ d a b) (load 16 true d a b) s
def execStB (d a b : Src) (s : State) : Host.Outcome State Fault Refusal := issue (.stB d a b) (store 1 false d a b) s
def execStH (d a b : Src) (s : State) : Host.Outcome State Fault Refusal := issue (.stH d a b) (store 2 false d a b) s
def execStW (d a b : Src) (s : State) : Host.Outcome State Fault Refusal := issue (.stW d a b) (store 4 false d a b) s
def execStD (d a b : Src) (s : State) : Host.Outcome State Fault Refusal := issue (.stD d a b) (store 8 false d a b) s
def execStQ (d a b : Src) (s : State) : Host.Outcome State Fault Refusal := issue (.stQ d a b) (store 16 false d a b) s
def execStbyW (d a b : Src) (s : State) : Host.Outcome State Fault Refusal := issue (.stbyW d a b) (store 4 true d a b) s
def execStbyD (d a b : Src) (s : State) : Host.Outcome State Fault Refusal := issue (.stbyD d a b) (store 8 true d a b) s
def execStbyQ (d a b : Src) (s : State) : Host.Outcome State Fault Refusal := issue (.stbyQ d a b) (store 16 true d a b) s

/-! ## LDF and STF (R196 to R198) -/

/-- The faulted lanes of an LDF or STF: all that share its one access, or, before it has any effect, the split's (R399). -/
def blockTrap (c : Ctx) (tr : Trap) : Trap := { tr with fmask := if tr.code == 0x15 then none else some c.active }

/-- LDF (R197): one read of the block for the active lanes. -/
def execLdf (d : Dst) (a b : Src) (s : State) : Host.Outcome State Fault Refusal :=
  issue (.ldf d a b) (fun s c =>
    if c.t.divided then .trap s (.illegalOperand c.pc) false
    else
      match memOp .ldf d (lowLane c.active).toList c.active 64 (c.addr a b) (fun _ => 0) (fun _ => 0) s c with
      | .done s2 v => .done (c.advance s2 c.srMode) v
      | .trap s2 tr n => .trap s2 (blockTrap c tr) n
      | r => r) s

/-- The control word of an STF is acceptable (R198). -/
def controlOk (w : Nat) : Bool :=
  let f := w % 256
  fmtKnown f && (fmtClass f == 0 || bitsOf w 9 8 == 0) && bitsOf w 31 24 == 0 && bitsOf w 15 10 == 0
    && bitsOf w 23 16 ≤ capacity f

/-- The block an STF writes (R198), from the registers of all 32 lanes. -/
def Ctx.stfBlock (c : Ctx) (d : Src) (cw : Nat) : List Byte :=
  let f := cw % 256
  let fm := if fmtClass f == 0 then ElemFmt.fam (bitsOf cw 9 8) else .kind f
  let count := bitsOf cw 23 16
  let n := if count == 0 then capacity f else count
  let ys := (List.range n).map fun i => valueOf c.ty (c.group d (i / 32) (i % 32) % 2 ^ tyWidth c.ty)
  blockOf fm ys count c.rnd c.sat fun i => c.draw (i % 32) (i / 32)

/-- STF (R198). -/
def execStf (d a b : Src) (s : State) : Host.Outcome State Fault Refusal :=
  issue (.stf d a b) (fun s c =>
    let cw := c.group d 3 31
    if c.t.divided then .trap s (.illegalOperand c.pc) false
    else if c.active == 0 then .done s none
    else if !controlOk cw then .trap s (.illegalOperand c.pc) false
    else
      let blk := bytesNat (c.stfBlock d cw)
      match memOp .stf .none (lowLane c.active).toList c.active 64 (c.addr a b) (fun _ => blk) (fun _ => 0) s c with
      | .done s2 v => .done (c.advance s2 c.srMode) v
      | .trap s2 tr n => .trap s2 (blockTrap c tr) n
      | r => r) s

/-! ## PREF, INVL, WAITP -/

/-- The line that a PREF asks for, as a request. -/
def prefReq (lane ea : Nat) (ph : Phys) : Req :=
  ⟨lane, ea, ph.pa / 64 * 64, 64, none, some { ph with pa := ph.pa / 64 * 64 }, 0, 0, some 0, 0, false, [], false⟩

/-- One lane's part of a PREF (R199): the line asked for, or none where it has no effect. -/
def State.prefLane (s : State) (c : Ctx) (level : Nat) (seen : Seen) (lane ea : Nat) : State × Option Req :=
  if !isGlobal ea then (s, none)
  else
    let part := s.part? c.t.core c.t.vf
    match if level == 0 then part.bind fun p => s.l1Find c.t p ea else none with
    | some l => if l.leaf.user || c.sp.supervisor then (s, some (prefReq lane ea ⟨l.pa, l.leaf, l.owner, false⟩)) else (s, none)
    | none =>
      match s.reach c.t c.die (some c.t.core) ⟨false, false, c.sp.supervisor⟩ ea with
      | (s1, .error _) => (s1, none)
      | (s1, .ok q) =>
        let ph := q.ph
        match ph.owner with
        | .die _ =>
          if ph.leaf.cls == clsCommute || s.unsound (ph.pa / 64 * 64) 64 then (s1, none)
          else
            let s2 := s1.enter c.t.vf c.die ea q
            let s3 := if seen.any fun x => x / 64 == ea / 64 then s2
              else
                (match part with
                 | some p => if level == 0 && ph.l1Ok c.die then s2.l1Miss c.t p ea else s2
                 | none => s2).l2Count c.t ea ph false
            (s3, some (prefReq lane ea ph))
        | _ => (s1, none)

/-- PREF (R199). -/
def execPref (level : Nat) (a b : Src) (s : State) : Host.Outcome State Fault Refusal :=
  issue (.pref level a b) (fun s c =>
    let r := c.lanes.foldl (fun (x : State × List Req) l =>
      let y := x.1.prefLane c level (x.2.map (·.ea)) l (c.addr a b l)
      (y.1, x.2 ++ y.2.toList)) (s, [])
    -- a global address that is on no host-owned page counts, a dropped one too
    let counted := c.lanes.any fun l => isGlobal (c.addr a b l) &&
      (match (s.reach c.t c.die none ⟨false, false, c.sp.supervisor⟩ (c.addr a b l)).2 with
       | .ok q => q.ph.owner != .host
       | .error _ => true)
    if !counted then .done s none
    else if 255 ≤ c.t.inFlight 0 then .stay
    else .done (r.1.openAccess c (.pref level) .none c.active 0 r.2 false true []) none) s

/-- A fill still in flight for a removed line is not kept (R200). -/
def State.noKeep (s : State) (core vf : Nat) (f : Req → Bool) : State :=
  { s with accs := s.accs.map fun a =>
      if a.core == core && a.vf == vf && a.reqs.any f then
        { a with reqs := a.reqs.map fun r => if f r then { r with noFill := true } else r }
      else a }

/-- Write back and remove the NEAR lines of a partition that a test selects. -/
def State.nearFlush (s : State) (core pidx : Nat) (f : Line → Bool) : State :=
  match s.partAt? core pidx with
  | none => s
  | some p => (p.near.filter f).foldl (fun s l => s.nearOut core pidx l) s

/-- INVL, extent 0 (R200). -/
def execInvl (a b : Src) (s : State) : Host.Outcome State Fault Refusal :=
  issue (.invl a b) (fun s c =>
    match s.part? c.t.core c.t.vf with
    | none => .done s none
    | some p =>
      let asid := (s.tenant c.t.vf).asid
      let ls := ((c.lanes.map fun l => c.addr a b l).filter isGlobal).map (· / 64)
      let hit := fun (l : Line) => l.asid == asid && ls.contains l.line
      .done (((s.nearFlush c.t.core p.pidx hit).l1Drop c.t.core p.pidx hit).noKeep c.t.core c.t.vf
        fun r => r.page.isSome && ls.contains (r.ea / 64)) none) s

/-- INVL.all, extent 1 (R200). It names no lane, and acts whatever lanes are active (DESIGN CHOICE, log entry 53). -/
def execInvlAll (s : State) : Host.Outcome State Fault Refusal :=
  issue .invlAll (fun s c =>
    match s.part? c.t.core c.t.vf with
    | none => .done s none
    | some p =>
      .done (((s.nearFlush c.t.core p.pidx fun _ => true).l1Drop c.t.core p.pidx fun _ => true).noKeep
        c.t.core c.t.vf fun _ => true) none) s

/-- WAITP (R201). -/
def execWaitp (path : Nat) (a : Src) (s : State) : Host.Outcome State Fault Refusal :=
  issue (.waitp path a) (fun s c =>
    if c.t.inFlight path ≤ c.uniAll a then .done s none else .wait s (.path path (c.uniAll a))) s

/-! ## Scopes and fences (R213 to R215, R229 to R237) -/

/-- Whether SY_POLICY allows a virtual function system scope (R215, R380). -/
def State.sysScope (s : State) (vf : Nat) : Bool := (s.tenant vf).policy.getLsbD 0

/-- R215 for an access: the trap of a refused system scope. -/
def Ctx.scopeTrap (c : Ctx) (s : State) (ea : Nat → Nat) : Option Trap :=
  if c.scope == 7 && !s.sysScope c.t.vf then
    (lowLane c.active).map fun l => ⟨codeViolation, 0, false, false, some c.active, ea l⟩
  else none

/-- An access under its scope's check. -/
def inScope (ea : Ctx → Nat → Nat) (body : State → Ctx → Res) (s : State) (c : Ctx) : Res :=
  match c.scopeTrap s (ea c) with
  | some tr => .trap s tr false
  | none => if c.scope == 5 && s.gated c.t then .stay else body s c

/-- A scope after the fall-backs of R214. -/
def Terrace.effScope (t : Terrace) (sc : Nat) : Nat :=
  if sc == 2 && t.quarter.isNone then 1 else if sc == 5 && t.gang.isNone then 4 else sc

/-- Whether a scope waits for a request's target (R230). -/
def Req.target (r : Req) (sc : Nat) : Bool :=
  match r.page with
  | none => 1 ≤ sc
  | some p => match p.owner with
    | .host => sc == 7
    | .peer .. => 5 ≤ sc
    | _ => 1 ≤ sc

/-- Released (R231): no load, store or atomic of the terrace on a target of the scope, earlier than number n, is open. -/
def State.released (s : State) (t : Terrace) (sc n : Nat) : Bool :=
  s.accs.all fun a => a.ter != t.uid || n ≤ a.id || (match a.kind with | .pref _ => true | _ => false)
    || a.reqs.all fun r => !r.target (t.effScope sc)

/-- Returned (R231). -/
def State.returnedAll (s : State) (t : Terrace) (sc n : Nat) : Bool :=
  s.accs.all fun a => a.ter != t.uid || n ≤ a.id || !a.kind.returning || a.reqs.all fun r => !r.target (t.effScope sc)

/-- Lines of UNTRACKED pages leave a core's L1, NEAR lines excepted, and their fills in flight are not kept (R231). -/
def State.dropUntracked (s : State) (core vf : Nat) : State :=
  match s.part? core vf with
  | none => s
  | some p =>
    (s.l1Drop core p.pidx fun l => l.leaf.cls == clsUntracked).noKeep core vf fun r =>
      match r.page with | some ph => ph.leaf.cls == clsUntracked | none => false

/-- The removal of an acquire (R231). -/
def State.acquire (s : State) (t : Terrace) (sc : Nat) : State :=
  if t.effScope sc < 2 then s else s.dropUntracked t.core t.vf

/-- FENCE, ACQ and REL (R231, R232): `rel` waits for releases, `acq` for returns and removes lines. -/
def fence (acq rel : Bool) (d : Dst) (sc : Nat) (s : State) (c : Ctx) : Res :=
  if sc == 7 && !s.sysScope c.t.vf then .trap s (.simple codeViolation c.pc) false
  else if sc == 5 && s.gated c.t then .stay
  else if rel && !s.released c.t sc c.ord then .wait s (.released sc c.ord)
  else if acq && !s.returnedAll c.t sc c.ord then .wait s (.returned sc c.ord)
  else
    let s1 := if acq then s.acquire c.t sc else s
    let n := c.sp.undel.1
    let s2 := s1.updSplit c.uid c.sid fun x => { x with undel := (0, 0) }
    let status := if n == 0 then 0 else 2 ^ 31 + min n 0xFFFF
    if n != 0 && d == .none then .trap s2 ⟨0x19, 0, false, true, none, c.sp.undel.2⟩ true
    else .done (s2.updTer c.uid fun t => t.writeDst d false c.active fun _ => [BitVec.ofNat 32 status]) none

def execFence (d : Dst) (sc : Nat) (s : State) : Host.Outcome State Fault Refusal := issue (.fence d sc) (fence true true d sc) s
def execAcq (d : Dst) (sc : Nat) (s : State) : Host.Outcome State Fault Refusal := issue (.acq d sc) (fence true false d sc) s
def execRel (d : Dst) (sc : Nat) (s : State) : Host.Outcome State Fault Refusal := issue (.rel d sc) (fence false true d sc) s

/-- The address of LDA and STL (R234). -/
def Ctx.offAddr (c : Ctx) (a : Src) (off : Option Word) (l : Nat) : Nat :=
  wrapTo 64 ((c.base a l : Int) + (match off with | some w => signExt 32 w.toNat | none => 0))

/-- LDA (R235): it holds its split until every lane has returned; the removal follows. -/
def execLda (d : Dst) (a : Src) (dbl : Bool) (off : Option Word) (s : State) : Host.Outcome State Fault Refusal :=
  issue (.lda d a dbl off) (inScope (fun c => c.offAddr a off) fun s c =>
    let w := if dbl then 8 else 4
    match memOp (.lda w (2 ≤ c.t.effScope c.scope)) d (c.loadLanes d) c.active w (c.offAddr a off) (fun _ => 0) (fun _ => 0) s c with
    | .done s2 v => .done (s2.acquire c.t c.scope) v
    | r => r) s

/-- STL (R236): the release, then the stores. A wait that met a link declared down ends in the link-down trap. -/
def execStl (d a : Src) (dbl : Bool) (off : Option Word) (s : State) : Host.Outcome State Fault Refusal :=
  issue (.stl d a dbl off) (inScope (fun c => c.offAddr a off) fun s c =>
    let w := if dbl then 8 else 4
    if c.sp.undel.1 != 0 then
      .trap (s.updSplit c.uid c.sid fun x => { x with undel := (0, 0) }) ⟨0x19, 0, false, false, none, c.sp.undel.2⟩ false
    else if !s.released c.t c.scope c.ord then .wait s (.released c.scope c.ord)
    else memOp (.stl w) .none c.lanes c.active w (c.offAddr a off) (c.storeVal d w) (fun _ => 0) s c) s

/-! ## Atomics (R238 to R244) -/

/-- The size of an atomic's element. -/
def Ctx.elemBytes (c : Ctx) : Nat := tyWidth c.ty / 8

/-- AMO (R242). -/
def execAmo (d : Dst) (a b : Src) (op : Nat) (s : State) : Host.Outcome State Fault Refusal :=
  issue (.amo d a b op) (inScope (fun c => c.base a) fun s c =>
    memOp (.amo op) d c.lanes c.active c.elemBytes (c.base a) (c.srcTy c.ty b) (fun _ => 0) s c) s

/-- CAS (R243). -/
def execCas (d : Dst) (a b : Src) (s : State) : Host.Outcome State Fault Refusal :=
  issue (.cas d a b) (inScope (fun c => c.base a) fun s c =>
    memOp .cas d c.lanes c.active c.elemBytes (c.base a) (c.srcTy c.ty b) (c.srcTy c.ty (dstSrc d)) s c) s

/-- RED (R242, R244). -/
def execRed (a b : Src) (op : Nat) (s : State) : Host.Outcome State Fault Refusal :=
  issue (.red a b op) (inScope (fun c => c.base a) fun s c =>
    memOp (.red op) .none c.lanes c.active c.elemBytes (c.base a) (c.srcTy c.ty b) (fun _ => 0) s c) s

end Sys2Proof.Machine
end

