-- ==== Sys2Proof/Machine/Signals.lean ====
section
/-! DEFINITION. Signals (R312 to R315): where they may stand, SIGDEC and SIGWAIT. -/

namespace Sys2Proof.Machine

/-- A signal's value after a decrement (R314). -/
def signalNext (v n : Nat) (err : Bool) : Nat :=
  let count := v % 2 ^ 63
  let e := 2 ^ 63 ≤ v || count < n || err
  (count - n) + (if e then 2 ^ 63 else 0)

/-- Whether a wait of a threshold is over at a value (R315). -/
def signalMet (v thr : Nat) : Bool := v % 2 ^ 63 ≤ thr || 2 ^ 63 ≤ v

/-- The page of a signal, with the rules of R312 and R313 checked; `t` is the terrace that acts on it, where one does. -/
def State.signalAt (s : State) (vf die : Nat) (t : Option Terrace) (w : Want) (va : Nat) : State × Except Nat Phys :=
  if va % 8 != 0 || !isGlobal va then (s, .error codeViolation)
  else
    match match t with | some t => s.reach t die (some t.core) w va | none => s.look vf die none w va with
    | (s1, .error e) => (s1, .error e.code)
    | (s1, .ok q) =>
      let p := q.ph
      let home := (p.leaf.cls == clsUntracked || p.leaf.cls == clsUpdate) && !p.leaf.fmt && p.leaf.place == 0
      let ok := match p.owner with
        | .host => p.leaf.place == 2 && s.sysScope vf
        | .die _ | .peer .. => home
        | .bad => false
      if !ok || s.liveRecord p.pa then (s1, .error codeViolation)
      else (match p.owner with | .die _ => s1.enter vf die va q | _ => s1, .ok p)

/-- A decrement at the point of coherence of a signal on this module (R312). The decrementing core's own copy of the
    line leaves its L1. -/
def State.signalPut (s : State) (core vf pa n : Nat) (err : Bool) : State :=
  (s.pocWriteNat pa 8 (signalNext (s.rdNat pa 8) n err)).l1DropPa core vf pa

/-- A fault that stops an instruction that acts for the whole terrace. -/
def Trap.whole (code addr : Nat) : Trap := ⟨code, 0, false, false, none, addr⟩

/-- SIGDEC (R314). -/
def execSigdec (err : Bool) (a : Nat) (b : Src) (s : State) : Host.Outcome State Fault Refusal :=
  issue (.sigdec err a b) (fun s c =>
    if c.active == 0 then .done s none
    else if c.sp.undel.1 != 0 then
      .trap (s.updSplit c.uid c.sid fun x => { x with undel := (0, 0) }) (.whole 0x19 c.sp.undel.2) false
    else
      let va := c.src64 (.s a) 0
      match s.signalAt c.t.vf c.die (some c.t) ⟨true, false, c.sp.supervisor⟩ va with
      | (s1, .error code) => .trap s1 (.whole code va) false
      | (s1, .ok ph) =>
        let path := pathOf va (some ph)
        if !s.released c.t 7 c.ord then .wait s (.released 7 c.ord)
        else if 255 ≤ c.t.inFlight path then .stay
        else
          let r : Req := ⟨(lowLane c.active).getD 0, va, ph.pa, 8, none, some ph, c.uniAll b, err.toNat, none, 0, false, [], false⟩
          let m := match ph.owner with | .die _ => s1.meetMem c.t.vf ph.pa 8 | _ => (s1, false)
          if m.2 then .trap m.1 (.whole 0x16 va) false
          else if s.ownerDown c.die ph.owner then .trap s1 (.whole 0x19 va) false
          else
            let x := m.1.sendAll (.core c.t.core) c.t.vf 0 .sig [r]
            .done (x.1.openAccess c .sig .none c.active path x.2 false true []) none) s

/-- Note what a waiting instruction has done (its entry's step, and a value). -/
def State.keep (s : State) (c : Ctx) (k v : Nat) : State := s.updSplit c.uid c.sid fun x => { x with kept := some (k, v) }

/-- A read of n bytes outside the module that an agent waits for. -/
def State.ask (s : State) (by_ : Sender) (vf va n : Nat) (ph : Phys) : State × Nat := s.askFor by_ vf 0 va n ph .read true

/-- The answer to such a request, if it has come; it is taken away. -/
def State.takeAnswer (s : State) (tag : Nat) : Option (State × Answer) :=
  match s.answers.find? fun e => e.1 == tag with
  | some e => some ({ s with answers := s.answers.filter fun e => e.1 != tag }, e.2)
  | none => none

/-- What a read of a range outside the module comes to. -/
inductive OutGot where
  | val (v : Nat)
  | err (code : Nat)
  | wait
deriving DecidableEq, Repr

/-- An answer as what a read comes to. -/
def Answer.got : Answer → OutGot
  | .val v => .val v
  | .err c => .err c

/-- A range outside the module that an agent reads once, by a request of a given form: it asks, keeps the request, and takes the
    answer when it comes. -/
def State.outGetBy (s : State) (op : OutOp) (gets : List OutRead) (by_ : Sender) (vf launch va n : Nat) (ph : Phys) :
    State × List OutRead × OutGot :=
  match gets.find? fun g => g.pa == ph.pa && g.len == n with
  | some g =>
    (match g.got with
     | some a => (s, gets, a.got)
     | none =>
       match s.takeAnswer g.tag with
       | none => (s, gets, .wait)
       | some (s1, a) => (s1, gets.map fun x => if x = g then { x with got := some a } else x, a.got))
  | none =>
    if s.ownerDown by_.die ph.owner then (s, gets, .err 0x19)
    else
      let x := s.askFor by_ vf launch va n ph op true
      (x.1, gets ++ [⟨ph.pa, n, x.2, none⟩], .wait)

/-- The same by a plain read. -/
def State.outGet (s : State) (gets : List OutRead) (by_ : Sender) (vf launch va n : Nat) (ph : Phys) :
    State × List OutRead × OutGot := s.outGetBy .read gets by_ vf launch va n ph

/-- Whether everything asked has been answered. -/
def State.allGot (s : State) (gets : List OutRead) : Bool :=
  gets.all fun g => g.got.isSome || s.answers.any fun e => e.1 == g.tag

/-- The end of SIGWAIT with a value: the acquire at the signal's scope, and the result (R315). -/
def signalEnd (d : Dst) (s : State) (c : Ctx) (v : Nat) : Res :=
  if !s.returnedAll c.t 7 c.ord then .wait (s.keep c 1 v) (.returned 7 c.ord)
  else .done ((s.acquire c.t 7).updTer c.uid fun t => t.writeDst d true c.active fun _ => words2 v) none

/-- SIGWAIT (R315). -/
def execSigwait (d : Dst) (a : Nat) (b : Src) (s : State) : Host.Outcome State Fault Refusal :=
  issue (.sigwait d a b) (fun s c =>
    if c.active == 0 then .done s none
    else
      let va := c.src64 (.s a) 0
      let thr := c.uniAll b
      match c.sp.kept with
      | some (1, v) => signalEnd d s c v
      | kept =>
        match s.signalAt c.t.vf c.die (some c.t) ⟨false, false, c.sp.supervisor⟩ va with
        | (s1, .error code) => .trap s1 (.whole code va) false
        | (s1, .ok ph) =>
          match ph.owner with
          | .die _ =>
            let m := s1.meetMem c.t.vf ph.pa 8
            let v := m.1.rdNat ph.pa 8
            if m.2 then .trap m.1 (.whole 0x16 va) false
            else if signalMet v thr then signalEnd d m.1 c v
            else .wait m.1 (.signal ph.pa thr)
          | o =>
            let down := s.ownerDown c.die o
            let again := fun (s : State) =>
              if down then Res.trap s (.whole 0x19 va) false
              else
                let x := s.ask (.core c.t.core) c.t.vf va 8 ph
                .wait (x.1.keep c 0 x.2) (.outside x.2)
            match kept with
            | some (_, tag) =>
              match s1.takeAnswer tag with
              | none => .wait s1 (.outside tag)
              | some (s2, .err code) => .trap s2 (.whole code va) false
              | some (s2, .val v) => if signalMet v thr then signalEnd d s2 c v else again s2
            | none => again s1) s

end Sys2Proof.Machine
end

