-- ==== Sys2Proof/Machine/Sync.lean ====
section
/-! DEFINITION. Register growth (R300 to R302), quarters (R303 to R306) and alleys (R307 to R311). -/

namespace Sys2Proof.Machine

/-! ## RGROW and RSHRINK -/

/-- A terrace's largest register count: its launch's, or the 32 registers of a service terrace (R286, R408). -/
def State.maxRegs (s : State) (t : Terrace) : Nat :=
  match s.launch? t.launch with
  | some l => l.d.rmax * 8
  | none => 32

/-- RGROW (R301, R302). -/
def execRgrow (a : Src) (s : State) : Host.Outcome State Fault Refusal :=
  issue (.rgrow a) (fun s c =>
    let n := c.uniAll a
    if c.t.divided || n % 8 != 0 || s.maxRegs c.t < n then .trap s (.illegalOperand c.pc) false
    else if n ≤ c.t.nregs then .done s none
    else if s.baseRegs c.t < c.t.nregs then
      .done ((s.updTeam c.t.team fun m => { m with pool := m.pool - (n - c.t.nregs) / 8 }).updTer c.uid
        fun t => t.growTo n) none
    else
      let s1 := (s.updTeam c.t.team fun m =>
        { m with growers := (m.growers.filter fun g => g.1 != c.uid) ++ [(c.uid, n)] }).grantPlaces c.t.team
      match s1.ter? c.uid with
      | some t => if n ≤ t.nregs then .done s1 none else .wait s1 .growth
      | none => .done s1 none) s

/-- RSHRINK (R301, R302). -/
def execRshrink (a : Src) (s : State) : Host.Outcome State Fault Refusal :=
  issue (.rshrink a) (fun s c =>
    let n := c.uniAll a
    let base := s.baseRegs c.t
    if c.t.divided || n % 8 != 0 || n < base then .trap s (.illegalOperand c.pc) false
    else if c.t.nregs ≤ n then .done s none
    else
      .done (((s.updTer c.uid fun t => { t with nregs := n }).updTeam c.t.team fun m =>
        { m with pool := m.pool + (c.t.nregs - n) / 8, places := if n == base then m.places + 1 else m.places }).grantPlaces
          c.t.team) none) s

/-! ## Quarters -/

/-- JOIN (R304). -/
def execJoin (a b : Src) (s : State) : Host.Outcome State Fault Refusal :=
  issue (.join a b) (fun s c =>
    let q := c.uniAll a
    let m := c.uniAll b
    let die := c.die
    let mine := s.quarters.filter fun x => x.launch == c.t.launch && x.die == die
    if c.t.divided || c.t.quarter.isSome || q == 0xFFFFFFFF || m == 0 || 65535 < m then
      .trap s (.illegalOperand c.pc) false
    else
      match mine.find? fun x => x.id.toNat == q with
      | none =>
        if 1024 ≤ mine.length then .trap s (.illegalOperand c.pc) false
        else
          let x : Quarter := ⟨s.fresh, BitVec.ofNat 32 q, c.t.launch, die, m, 1, 0, 0⟩
          .done ({ s with fresh := s.fresh + 1, quarters := s.quarters ++ [x] }.updTer c.uid fun t =>
            { t with quarter := some x.uid }) none
      | some x =>
        if x.m != m || x.j == x.m then .trap s (.illegalOperand c.pc) false
        else
          .done ((s.updQuarter x.uid fun x => { x with j := x.j + 1 }).updTer c.uid fun t =>
            { t with quarter := some x.uid }) none) s

/-- LEAVE (R305). -/
def execLeave (s : State) : Host.Outcome State Fault Refusal :=
  issue .leave (fun s c =>
    if c.t.divided then .trap s (.illegalOperand c.pc) false else .done (s.leaveQuarter c.t) none) s

/-- The departure from a quarter's phase (R306): the acquire, once the phase has passed. -/
def quarterDepart (s : State) (c : Ctx) (u ph : Nat) : Res :=
  match s.quarters.find? fun q => q.uid == u with
  | none => .done s none
  | some q =>
    if q.phase ≤ ph then .wait s (.quarter ph)
    else if !s.returnedAll c.t 2 c.ord then .wait s (.returned 2 c.ord)
    else .done ((s.acquire c.t 2).updTer c.uid fun t => { t with arrived := none }) none

/-- QBAR (R306). -/
def execQbar (s : State) : Host.Outcome State Fault Refusal :=
  issue .qbar (fun s c =>
    if c.t.divided then .trap s (.illegalOperand c.pc) false
    else
      match c.t.quarter with
      | none =>
        if !s.released c.t 1 c.ord then .wait s (.released 1 c.ord)
        else if !s.returnedAll c.t 1 c.ord then .wait s (.returned 1 c.ord) else .done s none
      | some u =>
        match c.t.arrived with
        | some ph => quarterDepart s c u ph
        | none =>
          if !s.released c.t 2 c.ord then .wait s (.released 2 c.ord)
          else
            match s.quarters.find? fun q => q.uid == u with
            | none => .done s none
            | some q =>
              quarterDepart ((s.updQuarter u fun q => Quarter.settle { q with a := q.a + 1 }).updTer c.uid fun t =>
                { t with arrived := some q.phase }) c u q.phase) s

/-! ## Alleys -/

/-- Whether an address lies in a window an alley may stand in (R309). -/
def alleyWindow (va : Nat) : Bool := (0x80000 ≤ va && va < 0x100000) || (0x1000000 ≤ va && va < 0x2000000)

/-- The location of an alley as a terrace names it, or the cause code of what stops its update (R308, R309). -/
def State.alleyAt (s : State) (t : Terrace) (va : Nat) : Except Nat Nat :=
  if va % 64 != 0 || !alleyWindow va then .error codeViolation
  else
    match s.chipAt t 0 va 64 with
    | some (.loc x) =>
      let a := s.alley x
      if s.meetChip x 64 then .error 0x16
      else if !a.ok then .error 0x02
      else
        match s.chipAt t 0 va (64 + 4 * a.cap) with
        | some _ => if s.meetChip x (64 + 4 * a.cap) then .error 0x16 else .ok x
        | none => .error codeViolation
    | _ => .error codeViolation

/-- An alley that cannot be used, as `alleyAt` says: an unreadable one counts against its core (R416, R418). -/
def State.alleyErr (s : State) (t : Terrace) (code : Nat) : State := if code == 0x16 then s.terErr t.uid else s

/-- The trap of an alley instruction. -/
def alleyTrap (c : Ctx) (code va : Nat) : Trap := if code == 0x02 then .illegalOperand c.pc else .whole code va

/-- The index of a sender within its cluster. -/
def Terrace.sender (t : Terrace) : Nat := t.core % 32

/-- AOPEN (R309). -/
def execAopen (a : Src) (s : State) : Host.Outcome State Fault Refusal :=
  issue (.aopen a) (fun s c =>
    let va := c.uniAll a
    match s.alleyAt c.t va with
    | .error e => .trap (s.alleyErr c.t e) (alleyTrap c e va) false
    | .ok x =>
      let y := s.alley x
      match y.record c.t.sender c.t.ter with
      | some _ => .done s none
      | none =>
        match (List.range 8).find? fun i => !sndUsed (y.snd.getD i 0) with
        | none => .trap s (.illegalOperand c.pc) false
        | some i =>
          let y1 := Alley.settle { y with snd := y.snd.set i (mkSnd 0 c.t.sender c.t.ter) }
          .done ((s.setAlley x y1).updTer c.uid fun t => { t with opened := x :: t.opened }) none) s

/-- The terraces waiting in APOP on an alley, oldest first (R309). -/
def State.popQueue (s : State) (x : Nat) : List Nat := kget [] s.poppers x

/-- Replace them. -/
def State.setPopQueue (s : State) (x : Nat) (q : List Nat) : State := { s with poppers := kset [] s.poppers x q }

/-- Whether an alley holds no handle. -/
def Alley.empty (a : Alley) : Bool := a.tail == a.head

/-- The end of a pop: the acquire at cluster scope, and the result (R309). -/
def popEnd (d : Dst) (try_ : Bool) (s : State) (c : Ctx) (h : Nat) : Res :=
  if !s.returnedAll c.t 3 c.ord then .wait (s.keep c 1 h) (.returned 3 c.ord)
  else
    let ws := BitVec.ofNat 32 h :: (if try_ then [1#32] else [])
    .done ((s.acquire c.t 3).updTer c.uid fun t => t.writeDst d false c.active fun _ => ws) none

/-- APOP (R309). -/
def execApop (d : Dst) (a : Src) (s : State) : Host.Outcome State Fault Refusal :=
  issue (.apop d a) (fun s c =>
    let va := c.uniAll a
    match c.sp.kept with
    | some (_, h) => popEnd d false s c h
    | none =>
      match s.alleyAt c.t va with
      | .error e => .trap (s.alleyErr c.t e) (alleyTrap c e va) false
      | .ok x =>
        let q := s.popQueue x
        let q := if q.contains c.uid then q else q ++ [c.uid]
        if q.head? == some c.uid && !(s.alley x).empty then
          let p := (s.setPopQueue x (q.filter (· != c.uid))).alleyPop x
          popEnd d false p.2 c p.1.toNat
        else .wait (s.setPopQueue x q) (.alley x)) s

/-- ATRY (R309). -/
def execAtry (d : Dst) (a : Src) (s : State) : Host.Outcome State Fault Refusal :=
  issue (.atry d a) (fun s c =>
    let va := c.uniAll a
    match c.sp.kept with
    | some (_, h) => popEnd d true s c h
    | none =>
      match s.alleyAt c.t va with
      | .error e => .trap (s.alleyErr c.t e) (alleyTrap c e va) false
      | .ok x =>
        if (s.alley x).empty then .done (s.updTer c.uid fun t => t.writeDst d false c.active fun _ => [0, 0]) none
        else
          let p := s.alleyPop x
          popEnd d true p.2 c p.1.toNat) s

/-- APUSH (R310). -/
def execApush (a b : Src) (s : State) : Host.Outcome State Fault Refusal :=
  issue (.apush a b) (fun s c =>
    let va := c.uniAll a
    match s.alleyAt c.t va with
    | .error e => .trap (s.alleyErr c.t e) (alleyTrap c e va) false
    | .ok x =>
      let y := s.alley x
      match y.record c.t.sender c.t.ter with
      | none => .trap s (.illegalOperand c.pc) false
      | some i =>
        if !s.released c.t 3 c.ord then .wait s (.released 3 c.ord)
        else if sndAllow (y.snd.getD i 0) == 0 then .wait s (.allow x)
        else .done (s.alleyPush x i (BitVec.ofNat 32 (c.uniAll b))) none) s

end Sys2Proof.Machine
end

