-- ==== Sys2Proof/Machine/Launch.lean ====
section
/-! DEFINITION. Launches (R286 to R299, R316, R317, R461): descriptors, acceptance, the distributor tree, admission, the
start of terraces, completion, and LAUNCH. -/

namespace Sys2Proof.Machine

/-! ## Reads of the device -/

/-- What a read of tenant memory by the device comes to: bytes, a failure's code and address, or that what stands outside the
    module has still to come. -/
inductive DevGot where
  | bytes (bs : List Byte)
  | fail (code va : Nat)
  | wait
deriving DecidableEq, Repr

/-- Read one piece of tenant memory for the device: at once on this module, by a request elsewhere. -/
def State.devPiece (s : State) (gets : List OutRead) (vf die va n : Nat) : State × List OutRead × DevGot :=
  if !isGlobal va then (s, gets, .fail codeViolation va)
  else
    match s.translate vf die none ⟨false, false, true⟩ va with
    | (s1, .error code) => (s1, gets, .fail code va)
    | (s1, .ok p) =>
      match p.owner with
      | .die _ => let m := s1.meetMem vf p.pa n; (m.1, gets, if m.2 then .fail 0x16 va else .bytes (m.1.rdBytes p.pa n))
      | _ =>
        match s1.outGet gets (.dev die) vf 0 va n p with
        | (s2, g, .val v) => (s2, g, .bytes (natBytes n v))
        | (s2, g, .err code) => (s2, g, .fail code va)
        | (s2, g, .wait) => (s2, g, .wait)

/-- Read k pieces of n bytes; the first failure counts. -/
def State.devGet (s : State) (gets : List OutRead) (vf die va n : Nat) : Nat → State × List OutRead × DevGot
  | 0 => (s, gets, .bytes [])
  | k + 1 =>
    match s.devPiece gets vf die va n with
    | (s1, g, .fail code a) => (s1, g, .fail code a)
    | (s1, g, .bytes bs) =>
      (match s1.devGet g vf die (va + n) n k with
       | (s2, g, .bytes r) => (s2, g, .bytes (bs ++ r))
       | x => x)
    | (s1, g, .wait) =>
      match s1.devGet g vf die (va + n) n k with
      | (s2, g, .fail code a) => (s2, g, .fail code a)
      | (s2, g, _) => (s2, g, .wait)

/-! ## Descriptors -/

/-- A little-endian field of a list of bytes. -/
def fieldOf (bs : List Byte) (off n : Nat) : Nat := bytesNat ((bs.drop off).take n)

/-- The fields of a descriptor's 128 bytes (R286). -/
def descOf (addr : Nat) (bs : List Byte) : Desc :=
  let f := fieldOf bs
  { addr := addr, entry := BitVec.ofNat 64 (f 0 8), args := BitVec.ofNat 64 (f 8 8), signal := f 16 8, cont := f 24 8,
    items := f 32 8, grain := f 40 4, x0 := f 44 1, y0 := f 45 1, w := f 46 1, h := f 47 1, dies := f 48 2,
    foot := f 50 1, teams := f 51 1, tpt := f 52 1, rbase := f 53 1, rmax := f 54 1, grow := f 55 1,
    mode := BitVec.ofNat 16 (f 56 2), rr := f 58 1 % 2 == 1, priv := 16 * f 59 1, scr := f 60 4,
    joinpc := BitVec.ofNat 64 (f 64 8), alist := f 72 8, nal := f 80 2 }

/-- Whether every field of a descriptor meets its limits (R286); `pol` is byte 58. -/
def Desc.ok (d : Desc) (pol : Nat) : Bool :=
  d.entry.toNat % 4 == 0 && d.signal % 8 == 0 && d.cont % 64 == 0 && 1 ≤ d.items && d.items ≤ 2 ^ 48 && 1 ≤ d.grain
    && d.x0 ≤ 31 && d.y0 ≤ 31 && 1 ≤ d.w && d.w ≤ 32 && 1 ≤ d.h && d.h ≤ 32 && d.x0 + d.w ≤ 32 && d.y0 + d.h ≤ 32
    && 1 ≤ d.dies && d.dies ≤ d.w * d.h && d.foot ≤ 2
    && (match d.foot with
        | 0 => d.teams == 0
        | 1 => 1 ≤ d.teams && d.teams ≤ 32
        | _ => 1 ≤ d.teams && d.teams ≤ 255)
    && 1 ≤ d.tpt && d.tpt ≤ 64 && 1 ≤ d.rbase && d.rbase ≤ 28 && d.rbase ≤ d.rmax && d.rmax ≤ 28
    && (if d.rmax == d.rbase then d.grow == 0 else 1 ≤ d.grow && d.grow ≤ 16)
    && modeType d.mode < 14 && modeRnd d.mode < 6 && pol < 2 && d.scr % 64 == 0 && d.scr ≤ 524288
    && d.joinpc.toNat % 4 == 0 && d.alist % 8 == 0 && d.nal ≤ 64 && ((d.nal == 0) == (d.alist == 0))

/-- The records of an alley list, where each alley lies in the scratchpad (R307). -/
def alleyList (scr n : Nat) (bs : List Byte) : Option (List (Nat × Nat)) :=
  let rs := (List.range n).map fun i => (fieldOf bs (8 * i) 4, fieldOf bs (8 * i + 4) 4)
  if rs.all fun r => r.1 % 64 == 0 && 1 ≤ r.2 && r.2 ≤ 1024 && r.1 + 64 + 4 * r.2 ≤ scr then some rs else none

/-- What a descriptor comes to as the device reads it (R287): its fields and alleys where it is valid, its signal where one is
    named and meets R313, or that a part of it has still to come from outside the module. -/
inductive DescRead where
  | ok (d : Desc) (alleys : List (Nat × Nat))
  | invalid (signal : Option Nat)
  | wait
deriving DecidableEq, Repr

/-- A part of a descriptor that cannot be read: a lost line has its record (R417). -/
def State.noteRead (s : State) (vf code va : Nat) : State :=
  if code == 0x16 then (s.logRec vf true ⟨va, 0, 0x16, 0, 0, 0, 0, 4⟩).1 else s

/-- The signal that a descriptor names, where it meets R313. -/
def State.goodSignal (s : State) (vf signal : Nat) : Option Nat :=
  if signal != 0 && (s.signalAt vf 0 none ⟨true, false, true⟩ signal).2.isOk then some signal else none

/-- Read a descriptor (R286, R287), in pieces of eight bytes; where it cannot be read its SIGNAL may still be. One whose address
    is not a multiple of 64 counts as invalid, and its SIGNAL as not read (DESIGN CHOICE, log entry 51). The device reads
    descriptors, and its signals, from die 0 of the module (DESIGN CHOICE, log entry 31). -/
def State.readDesc (s : State) (gets : List OutRead) (vf va : Nat) : State × List OutRead × DescRead :=
  if va % 64 != 0 then (s, gets, .invalid none)
  else
    match s.devGet gets vf 0 va 8 16 with
    | (s, gets, .wait) => (s, gets, .wait)
    | (s, gets, .fail code a) =>
      (match s.devPiece gets vf 0 (va + 16) 8 with
       | (s, gets, .wait) => (s, gets, .wait)
       | (s, gets, .bytes bs) => (s.noteRead vf code a, gets, .invalid (s.goodSignal vf (bytesNat bs)))
       | (s, gets, .fail ..) => (s.noteRead vf code a, gets, .invalid none))
    | (s, gets, .bytes bs) =>
      let d := descOf va bs
      let sg := s.goodSignal vf d.signal
      if !d.ok (fieldOf bs 58 1) || (bs.drop 82).any (· != 0) || (d.signal != 0 && sg.isNone) then (s, gets, .invalid sg)
      else if d.nal == 0 then (s, gets, .ok d [])
      else
        match s.devGet gets vf 0 d.alist 8 d.nal with
        | (s, gets, .wait) => (s, gets, .wait)
        | (s, gets, .fail code a) => (s.noteRead vf code a, gets, .invalid sg)
        | (s, gets, .bytes bs) =>
          (s, gets, match alleyList d.scr d.nal bs with | some al => .ok d al | none => .invalid sg)

/-! ## Signals of the device (R312, R316) -/

/-- A decrement that the device makes for a completion, by die 0's translation and port where the signal stands elsewhere (DESIGN
    CHOICE, log entry 31). -/
def State.deviceSignal (s : State) (vf va n : Nat) (err : Bool) : State :=
  match s.signalAt vf 0 none ⟨true, false, true⟩ va with
  | (s1, .error code) => (s1.logRec vf (logBoth code) ⟨va, 0, code, 0, 0, 0, 0, 4⟩).1
  | (s1, .ok p) =>
    match p.owner with
    | .die _ =>
      let m := s1.meetMem vf p.pa 8
      if m.2 then (m.1.logRec vf true ⟨va, 0, 0x16, 0, 0, 0, 0, 4⟩).1
      else m.1.pocWriteNat p.pa 8 (signalNext (m.1.rdNat p.pa 8) n err)
    | o =>
      if s1.ownerDown 0 o then (s1.logRec vf true ⟨va, 0, 0x19, 0, 0, 0, 0, 4⟩).1
      else (s1.askFor (.dev 0) vf 0 va 8 p (.amo 8 err.toNat [n]) false).1

/-! ## The rectangle (R14, R288, R289) -/

/-- The dies of a rectangle in ascending rectangle position (R251). -/
def Desc.rect (d : Desc) : List (Nat × Nat) :=
  (List.range (d.w * d.h)).map fun p => (d.x0 + p % d.w, d.y0 + p / d.w)

/-- The die of this module at a mesh coordinate. -/
def State.dieAt (s : State) (c : Nat × Nat) : Option Nat :=
  if c.1 / 2 == s.posI && c.2 / 2 == s.posJ then some (c.1 % 2 + 2 * (c.2 % 2)) else none

/-- The dies of this module among coordinates. -/
def State.localDies (s : State) (cs : List (Nat × Nat)) : List Nat := cs.filterMap s.dieAt

/-- The cores of a die that hold a partition of a virtual function and are in service. -/
def State.coresOn (s : State) (vf die : Nat) : List Nat :=
  (List.range 256).filterMap fun c =>
    let core := die * 256 + c
    if (s.part? core vf).isSome && !s.unitOut (unitCore core) then some core else none

/-- Whether a virtual function holds a partition on a die (R361). -/
def State.holdsDie (s : State) (vf die : Nat) : Bool :=
  (s.parts.any fun p => p.vf == vf && dieOf p.core == die) && 1 ≤ (kget (0, 0) (s.die die).l2range vf).2
    && 1 ≤ s.tlbWays die vf

/-- Whether a rectangle meets another. -/
def Desc.meets (a b : Desc) : Bool := a.x0 < b.x0 + b.w && b.x0 < a.x0 + a.w && a.y0 < b.y0 + b.h && b.y0 < a.y0 + a.h

/-- Whether a rectangle lies inside another. -/
def Desc.inside (a b : Desc) : Bool := b.x0 ≤ a.x0 && a.x0 + a.w ≤ b.x0 + b.w && b.y0 ≤ a.y0 && a.y0 + a.h ≤ b.y0 + b.h

/-- The bytes of the unified store a place takes, and those a team takes beside its places (R295). -/
def Desc.placeBytes (d : Desc) : Nat := 1024 * d.rbase + 32 * d.priv
def Desc.teamBytes (d : Desc) : Nat := d.scr + 1024 * d.grow * (d.rmax - d.rbase)

/-- The bytes of a partition's granules (R360). -/
def Part.bytes (p : Part) : Nat := 131072 * ((List.range 4).filter fun i => p.granules.getLsbD i).length

/-- The bytes of a partition in use. -/
def State.usedBytes (s : State) (core vf : Nat) : Nat :=
  let ters := s.ters.filter fun t => t.core == core && t.vf == vf
  let teams := s.teams.filter fun t => t.core == core && t.vf == vf
  (ters.foldl (fun n t => n + match s.launch? t.launch with | some l => l.d.placeBytes | none => 4096) 0)
    + teams.foldl (fun n m => n + match s.launch? m.launch with
        | some l => l.d.teamBytes + m.held * l.d.placeBytes
        | none => 0) 0

/-- The places of a core that joining teams have reserved (R278). -/
def State.heldPlaces (s : State) (core : Nat) : Nat :=
  (s.teams.filter fun t => t.core == core).foldl (fun n m => n + m.held) 0

/-- The scheduling policy of a terrace: round-robin or not. -/
def State.isRr (s : State) (t : Terrace) : Bool := match s.launch? t.launch with | some l => l.d.rr | none => false

/-- The free positions of a core for a terrace of a virtual function under a policy (R295, R319), as terrace numbers. -/
def State.freePlaces (s : State) (core vf : Nat) (rr : Bool) : List Nat :=
  let here := s.ters.filter fun t => t.core == core
  (List.range 64).filter fun n =>
    (here.all fun t => t.ter != n)
      && here.all fun t => t.vf != vf || t.ter / 16 != n / 16 || s.isRr t == rr

/-- Whether a core has room for n terraces and a number of bytes. -/
def State.room (s : State) (core vf : Nat) (rr : Bool) (n bytes : Nat) : Bool :=
  match s.part? core vf with
  | none => false
  | some p => !s.unitOut (unitCore core) && n + s.heldPlaces core ≤ (s.freePlaces core vf rr).length && s.usedBytes core vf + bytes ≤ p.bytes

/-- Whether some cluster or die of the placed ones can hold one group with its partitions as configured (R288 step 5). -/
def State.groupFits (s : State) (vf : Nat) (d : Desc) (placed : List (Nat × Nat)) : Bool :=
  let need := d.tpt * d.placeBytes + d.teamBytes
  placed.any fun c =>
    match s.dieAt c with
    | none => Config.peerPasses s.tick 5 (coordOf c)
    | some die =>
      let ok := (s.coresOn vf die).filter fun k => match s.part? k vf with | some p => need ≤ p.bytes | none => false
      if d.foot == 2 then d.teams ≤ ok.length
      else (List.range 8).any fun cl => d.teams ≤ (ok.filter fun k => k % 256 / 32 == cl).length

/-- Whether every link the routes of a rectangle need is up (R288 step 4): a route inside the module crosses none. -/
def State.routesUp (s : State) (cs : List (Nat × Nat)) : Bool :=
  (s.localDies cs).all fun die => cs.all fun c =>
    match s.dieAt c with
    | some _ => true
    | none => kget 0 (s.die die).ports (portOf die (coordOf c)) == 0 && Config.peerPasses s.tick 4 (coordOf c)

/-- Steps 2 to 6 of R288: the status, 0 where every one passes. -/
def State.claim (s : State) (vf : Nat) (parent : Option Nat) (d : Desc) : Nat :=
  let cs := d.rect
  let live := s.launches.filter fun l => l.vf == vf
  if cs.any fun c => match s.dieAt c with
      | some die => !s.holdsDie vf die
      | none => !Config.peerPasses s.tick 2 (coordOf c) then 2
  else if live.any fun l => d.meets l.d && !(parent == some l.id && d.inside l.d) then 3
  else if !s.routesUp cs then 4
  else if d.foot != 0 && !s.groupFits vf d (cs.take d.dies) then 5
  else if 64 ≤ live.length then 6
  else 0

/-! ## The distributor tree (R290 to R292) -/

/-- The units of a launch, and the tasks. -/
def Desc.units (d : Desc) : Nat := (d.items + d.grain - 1) / d.grain
def Desc.perTask (d : Desc) : Nat := if d.foot == 0 then 1 else d.teams * d.tpt
def Desc.tasks (d : Desc) : Nat := (d.units + d.perTask - 1) / d.perTask

/-- The leaves below the Avenue of a die, by Street (R291): a leaf is a core, a cluster or a die. -/
def State.avenue (s : State) (vf foot die : Nat) : List (List Nat) :=
  if foot == 2 then (if (s.coresOn vf die).isEmpty then [] else [[die]])
  else
    let ks := s.coresOn vf die
    let streets := ((List.range 8).map fun cl => ks.filter fun k => k % 256 / 32 == cl).filter fun x => !x.isEmpty
    if foot == 0 then streets else streets.map fun x => [clusterOf (x.headD 0)]

/-- Unstarted tasks as ascending intervals (first, count). -/
abbrev Tasks := List (Nat × Nat)

/-- Their number. -/
def tcount (ts : Tasks) : Nat := ts.foldl (fun n t => n + t.2) 0

/-- The n lowest of them, and the rest. -/
def takeLow : Nat → Tasks → Tasks × Tasks
  | _, [] => ([], [])
  | n, (a, k) :: r =>
    if n == 0 then ([], (a, k) :: r)
    else if k ≤ n then let x := takeLow (n - k) r; ((a, k) :: x.1, x.2)
    else ([(a, n)], (a + n, k - n) :: r)

/-- Insert an interval by its first number. -/
def insertIv (x : Nat × Nat) : Tasks → Tasks
  | [] => [x]
  | y :: ys => if x.1 ≤ y.1 then x :: y :: ys else y :: insertIv x ys

/-- Intervals in ascending order. -/
def sortIv (ts : Tasks) : Tasks := ts.foldr insertIv []

/-- Split tasks among k children (R291): consecutive shares, the lowest to child 0. -/
def shares (ts : Tasks) (k : Nat) : List Tasks :=
  let n := tcount ts
  ((List.range k).foldl (fun (x : List Tasks × Tasks) i =>
    let y := takeLow (n / k + if i < n % k then 1 else 0) x.2
    (x.1 ++ [y.1], y.2)) ([], ts)).1

/-- A launch's tasks by leaf. -/
def Launch.at (l : Launch) (leaf : Nat) : Tasks := kget [] l.tasks leaf

/-- Add tasks to a leaf. -/
def Launch.give (l : Launch) (leaf : Nat) (ts : Tasks) : Launch :=
  { l with tasks := kset [] l.tasks leaf (sortIv (l.at leaf ++ ts)) }

/-- The tasks below a distributor. -/
def Launch.below (l : Launch) (leaves : List Nat) : Nat := leaves.foldl (fun n x => n + tcount (l.at x)) 0

/-- Split tasks among the leaves of a Street; with `dry`, among those that hold none. -/
def Launch.giveStreet (l : Launch) (dry : Bool) (street : List Nat) (ts : Tasks) : Launch :=
  let ds := street.filter fun x => (l.at x).isEmpty
  let kids := if dry && !ds.isEmpty then ds else street
  (kids.zip (shares ts kids.length)).foldl (fun l e => l.give e.1 e.2) l

/-- Split tasks among the Streets of an Avenue. -/
def Launch.giveAvenue (l : Launch) (dry : Bool) (av : List (List Nat)) (ts : Tasks) : Launch :=
  let ds := av.filter fun x => l.below x == 0
  let kids := if dry && !ds.isEmpty then ds else av
  (kids.zip (shares ts kids.length)).foldl (fun l e => l.giveStreet dry e.1 e.2) l

/-- What a distributor's steal for a dry child comes to (R292). -/
inductive Steal where
  | moved (l : Launch) (ts : Tasks)
  | up
  | stop

/-- Take the highest-numbered n tasks of leaves that hold more than one; a leaf that holds one is not robbed. -/
def Launch.takeHigh (l : Launch) (leaves : List Nat) : Nat → Launch × Tasks
  | 0 => (l, [])
  | n + 1 =>
    let rich := leaves.filter fun x => 2 ≤ tcount (l.at x)
    let top := fun x => (l.at x).foldl (fun m t => max m (t.1 + t.2)) 0
    match rich.foldl (fun b x => match b with
        | none => some x | some y => if top y < top x then some x else some y) none with
    | none => (l, [])
    | some x =>
      let k := tcount (l.at x) - 1
      let r := takeLow k (l.at x)
      let y := Launch.takeHigh { l with tasks := kset [] l.tasks x r.1 } leaves n
      (y.1, sortIv (r.2 ++ y.2))

/-- One level of a steal: the children of D as lists of leaves, and the dry one. -/
def Launch.rob (l : Launch) (kids : List (List Nat)) (c : List Nat) : Steal :=
  let best := kids.foldl (fun b x => if l.below b < l.below x then x else b) (kids.headD [])
  if 2 ≤ l.below best then
    if best == c then .stop
    else let r := l.takeHigh best (l.below best / 2); .moved r.1 r.2
  else if kids.all fun x => l.below x ≤ 1 then .up else .stop

/-- The steals that follow a leaf's becoming dry (R292): its Street, its Avenue, its Boulevard. -/
def State.stealFor (s : State) (l : Launch) (leaf : Nat) : Launch :=
  let avs := (s.localDies l.placed).map fun d => s.avenue l.vf l.d.foot d
  if !(l.at leaf).isEmpty then l
  else
    match avs.find? fun a => a.any fun st => st.contains leaf with
    | none => l
    | some av =>
      match av.find? fun st => st.contains leaf with
      | none => l
      | some st =>
        match l.rob (st.map fun x => [x]) [leaf] with
        | .moved l ts => l.give leaf ts
        | .stop => l
        | .up =>
          match l.rob av st with
          | .moved l ts => l.giveStreet true st ts
          | .stop => l
          | .up =>
            match l.rob (avs.map fun a => a.flatten) av.flatten with
            | .moved l ts => l.giveAvenue true av ts
            | _ => l

/-- Hand out a launch's tasks at acceptance (R291); shares of other modules' dies leave this module. -/
def State.deal (s : State) (l : Launch) : Launch :=
  let childless := fun (c : Nat × Nat) => match s.dieAt c with | some die => (s.avenue l.vf l.d.foot die).isEmpty | none => false
  -- a die whose cores are all out of service has no child, and is none itself (DEDUCED, log entry 31)
  let dies := l.placed.filter fun c => !childless c
  let dies := if dies.isEmpty then l.placed else dies
  let ss := dies.zip (shares (if l.d.tasks == 0 then [] else [(0, l.d.tasks)]) dies.length)
  let l := ss.foldl (fun (l : Launch) e =>
    match s.dieAt e.1 with
    | some die =>
      let av := s.avenue l.vf l.d.foot die
      if av.isEmpty then l.give (die * 256) e.2 else l.giveAvenue false av e.2
    | none => { l with remote := l.remote + tcount e.2 }) l
  ((s.localDies l.placed).flatMap fun d => (s.avenue l.vf l.d.foot d).flatten).foldl (fun l x => s.stealFor l x) l

/-- Replace a launch. -/
def State.setLaunch (s : State) (l : Launch) : State :=
  { s with launches := s.launches.map fun x => if x.id = l.id then l else x }

/-! ## Acceptance (R288) -/

/-- A refused launch (R288, R316): its record, and ERR on its signal where that could be read. -/
def State.refuse (s : State) (vf va status : Nat) (sig : Option Nat) : State :=
  let s := (s.logRec vf false ⟨0, va, 0x40, status, 0, 0, 0, 4⟩).1
  match sig with
  | some x => s.deviceSignal vf x 0 true
  | none => s

/-- Accept the launch of a valid descriptor (R288, from step 2): the state, and the status. -/
def State.takeOn (s : State) (vf : Nat) (parent : Option Nat) (va : Nat) (d : Desc) (al : List (Nat × Nat)) : State × Nat :=
  let st := s.claim vf parent d
  if st != 0 then (s.refuse vf va st (if d.signal == 0 then none else some d.signal), st)
  else
    let cs := d.rect
    let l : Launch := ⟨s.fresh, vf, d, al, cs.take d.dies, cs.drop d.dies, [], [], 0, 0⟩
    ({ s with fresh := s.fresh + 1, launches := s.launches ++ [s.deal l] }, 0)

/-- Accept the launch of a descriptor (R288): the state, and the status; or none while parts of it are on their way, which
    the state then keeps under the one who accepts it. -/
def State.accept (s : State) (vf : Nat) (parent : Option Nat) (va : Nat) (who : Option (Nat × Nat)) (queued : Bool) :
    State × Option Nat :=
  let s := { s with tick := s.tick + 1 }
  let mine := fun (i : Intake) => i.vf == vf && i.addr == va && i.who == who && i.queued == queued && i.parent == parent
  let gets := match s.intakes.find? mine with | some i => i.gets | none => []
  let rest := s.intakes.filter fun i => !mine i
  match s.readDesc gets vf va with
  | (s, gets, .wait) => ({ s with intakes := rest ++ [⟨vf, parent, va, who, queued, gets⟩] }, none)
  | (s, _, .invalid sig) => ({ s with intakes := rest }.refuse vf va 1 sig, some 1)
  | (s, _, .ok d al) => let r := { s with intakes := rest }.takeOn vf parent va d al; (r.1, some r.2)

/-- The continuations whose descriptors have come go on (R316). -/
def State.resumeIntakes (s : State) : State :=
  (s.intakes.filter fun i => i.who.isNone && !i.queued).foldl (fun s i =>
    if s.allGot i.gets then (s.accept i.vf i.parent i.addr none false).1 else s) s

/-- LAUNCH (R317). It waits while parts of the descriptor are on their way. -/
def execLaunch (d : Dst) (a : Src) (s : State) : Host.Outcome State Fault Refusal :=
  issue (.launch d a) (fun s c =>
    if c.active == 0 then .done s none
    else if !s.released c.t 6 c.ord then .wait s (.released 6 c.ord)
    else
      -- reads of an earlier attempt that was pre-empted are over
      let s := if c.resumed then s else { s with intakes := s.intakes.filter fun i => i.who != some (c.uid, c.sid) }
      match s.accept c.t.vf (if c.t.launch == 0 then none else some c.t.launch) (c.base a ((lowLane c.active).getD 0))
          (some (c.uid, c.sid)) false with
      | (s1, some st) => .done (s1.updTer c.uid fun t => t.writeDst d false c.active fun _ => [BitVec.ofNat 32 st]) none
      | (s1, none) => .wait s1 (.descriptor c.uid c.sid)) s

/-! ## Teams and terraces (R294 to R298) -/

/-- A terrace as R298 starts it. In its domains it has made as many arrivals as crossings are past there, and has seen the
    early crossings so far: a terrace that starts after a crossing takes part in the next one (DESIGN CHOICE, log entry 4). -/
def State.mkTerrace (s : State) (l : Launch) (m : Team) (place k : Nat) (unit : Option Nat) (pc : DWord) : Terrace :=
  let d := l.d
  let first := match unit with | some u => u * d.grain | none => 0
  let count := match unit with | some u => min ((u + 1) * d.grain) d.items - u * d.grain | none => 0
  let put := fun (x : List (Nat × Word)) (n v : Nat) => kset 0 x n (BitVec.ofNat 32 v)
  let sregs := put (put (put (put (put (put [] 0 d.args.toNat) 1 (d.args.toNat / 2 ^ 32)) 12 first) 13 (first / 2 ^ 32))
    14 count) 15 k
  let sp : Split := { Split.start (s.fresh + 1) pc 0xFFFFFFFF#32 with mode := d.mode }
  let phase := s.dom (.phase l.id (dieOf m.core))
  let cross := s.dom (.launch l.id)
  { Terrace.blank s.fresh m.core place l.vf l.id with
    team := m.uid, teamIdx := m.idx, unit := unit.getD 0, k := k, s := sregs, sw := (1#16 ||| 1#16 <<< 12),
    nregs := d.rbase * 8, splits := [sp], phaseArr := phase.passed, crossArr := cross.passed,
    phaseEarly := phase.early, crossEarly := cross.early }

/-- Create a terrace of a team on its core, at a place the core chooses among the free ones. -/
def State.addTerrace (s : State) (l : Launch) (m : Team) (k : Nat) (unit : Option Nat) (pc : DWord)
    (f : Terrace → Terrace) : State :=
  match s.freePlaces m.core l.vf l.d.rr with
  | [] => s
  | ps =>
    let t := s.mkTerrace l m (ps.getD (Config.choose s.tick % ps.length) 0) k unit pc
    { s with fresh := s.fresh + 2, tick := s.tick + 1, ters := s.ters ++ [f t] }

/-- Start a team on a core: its scratchpad with the listed alleys, and its pool (R294, R300, R307). -/
def State.addTeam (s : State) (l : Launch) (core idx : Nat) : State × Team :=
  let m : Team := ⟨s.fresh, idx, l.id, l.vf, core, l.d.scr, l.d.grow * (l.d.rmax - l.d.rbase), l.d.grow, [], false, 0⟩
  let s := { s with fresh := s.fresh + 1, teams := s.teams ++ [m] }
  (l.alleys.foldl (fun s a => s.setAlley (scratchLoc m.uid a.1) ⟨a.2, 0, 0, 0, List.replicate 8 0, a.2⟩) s, m)

/-- The launch's team on a core, of those a distributor starts there. -/
def State.footTeam (s : State) (l : Launch) (core : Nat) : Option Team :=
  s.teams.find? fun m => m.core == core && m.launch == l.id && !m.joined

/-- The lowest index of a team that no live terrace of it holds (R461). -/
def State.freeIndex (s : State) (m : Team) (tpt : Nat) : Nat :=
  ((List.range tpt).find? fun k => s.ters.all fun t => t.team != m.uid || t.k != k).getD 0

/-- Start unit u of a launch with FOOT 0 on a core, if it has room (R295). -/
def State.startUnit (s : State) (l : Launch) (core u : Nat) : Option State :=
  let old := s.footTeam l core
  let n := (s.ters.filter fun t => t.core == core && t.launch == l.id).length
  if l.d.tpt ≤ n || !s.room core l.vf l.d.rr 1 (l.d.placeBytes + if old.isNone then l.d.teamBytes else 0) then none
  else
    let rank := ((List.range l.placed.length).find? fun i => s.dieAt (l.placed.getD i (0, 0)) == some (dieOf core)).getD 0
    let r := match old with
      | some m => (s, m)
      | none => s.addTeam l core (rank * 256 + core % 256)
    some (r.1.addTerrace l r.2 (r.1.freeIndex r.2 l.d.tpt) (some u) l.d.entry id)

/-- The units of team t of group g, by index (R290). -/
def Desc.teamUnits (d : Desc) (g t : Nat) : List (Nat × Nat) :=
  ((List.range d.tpt).map fun k => (k, g * (d.teams * d.tpt) + t * d.tpt + k)).filter fun e => e.2 < d.units

/-- Admit group g on cores of a cluster or die, all or nothing (R296). -/
def State.startTeam (s : State) (l : Launch) (cores : List Nat) (g : Nat) : Option State :=
  let d := l.d
  let fit := (cores.filter fun k => s.room k l.vf d.rr d.tpt (d.tpt * d.placeBytes + d.teamBytes)).take d.teams
  if fit.length < d.teams then none
  else
    some (fit.zipIdx.foldl (fun s e =>
      match d.teamUnits g e.2 with
      | [] => s
      | us =>
        let r := s.addTeam l e.1 (g * d.teams + e.2)
        us.foldl (fun s u => s.addTerrace l r.2 u.1 (some u.2) d.entry id) r.1) s)

/-- Start a task at its leaf (R292, R296). -/
def State.startTask (s : State) (l : Launch) (leaf task : Nat) : Option State :=
  match l.d.foot with
  | 0 => s.startUnit l leaf task
  | 1 => s.startTeam l ((s.coresOn l.vf (leaf / 8)).filter fun k => clusterOf k == leaf) task
  | _ => s.startTeam l (s.coresOn l.vf leaf) task

/-- The die of a leaf. -/
def Launch.leafDie (l : Launch) (leaf : Nat) : Nat := match l.d.foot with | 0 => leaf / 256 | 1 => leaf / 8 | _ => leaf

/-- Whether a leaf no longer is a child of its distributor: its cores are out of service (R291, R418). -/
def State.leafOut (s : State) (l : Launch) (leaf : Nat) : Bool :=
  !((s.avenue l.vf l.d.foot (l.leafDie leaf)).any fun st => st.contains leaf)

/-- The tasks of a leaf that is no child any more pass to its siblings, as those of a steal do: to its Street's other leaves,
    else to its Avenue's other Streets, else to the launch's other dies (R292, R418). None where no child is left. -/
def State.passOn (s : State) (l : Launch) (leaf : Nat) : Option Launch :=
  let ts := l.at leaf
  let l := { l with tasks := kdel l.tasks leaf }
  let av := s.avenue l.vf l.d.foot (l.leafDie leaf)
  let mine := if l.d.foot == 0 then av.find? fun st => st.any fun k => clusterOf k == clusterOf leaf else none
  match mine with
  | some st => some (l.giveStreet true st ts)
  | none =>
    if !av.isEmpty then some (l.giveAvenue true av ts)
    else
      match ((s.localDies l.placed).map fun d => s.avenue l.vf l.d.foot d).filter fun a => !a.isEmpty with
      | [] => none
      | avs =>
        let ds := avs.filter fun a => l.below a.flatten == 0
        let kids := if ds.isEmpty then avs else ds
        some ((kids.zip (shares ts kids.length)).foldl (fun l e => l.giveAvenue true e.1 e.2) l)

/-- TASK_START's effect: the lowest task of the leaf starts, and a leaf that becomes dry has tasks stolen for it; the
    tasks of a core out of service pass to its siblings. -/
def State.taskStart (s : State) (l : Launch) (leaf : Nat) : Option State :=
  match l.at leaf with
  | [] => none
  | (a, _) :: _ =>
    if s.leafOut l leaf then (s.passOn l leaf).map s.setLaunch
    else
      match s.startTask l leaf a with
      | none => none
      | some s1 =>
        let l1 := { l with tasks := kset [] l.tasks leaf (takeLow 1 (l.at leaf)).2 }
        some (s1.setLaunch (s1.stealFor l1 leaf))

/-! ## Completion (R316) -/

/-- Whether a launch is complete: every task started, every terrace ended, every access, collective round and command
    over. -/
def State.launchOver (s : State) (l : Launch) : Bool :=
  l.tasks.isEmpty && l.remote == 0 && (s.ters.all fun t => t.launch != l.id) && (s.accs.all fun a => a.launch != l.id)
    && (s.domains.all fun e => e.2.landing == .idle || (match e.1 with
      | .phase i _ | .launch i => i != l.id
      | .gang g => s.gangs.all fun x => x.id != g || x.launch != l.id
      | .solo _ => true))
    && (s.colls.all fun x => x.launch != l.id)
    && (s.rounds.all fun r => s.groups.all fun g => g.handle != r.handle || g.launch != l.id)
    && s.cmds.all fun c => c.launch != l.id || c.fault.isSome

/-- LAUNCH_COMPLETION's effect: the signal, the rectangle, the continuation. -/
def State.complete (s : State) (l : Launch) : State :=
  let err := s.errored.contains l.id
  let gone := (s.groups.filter fun g => g.launch == l.id).map (·.handle)
  let s := { s with
    rounds := s.rounds.filter fun r => !gone.contains r.handle
    tiles := s.tiles.filter fun r => !gone.contains r.handle
    launches := s.launches.filter fun x => x.id != l.id
    errored := s.errored.filter (· != l.id)
    cmds := s.cmds.filter fun c => c.launch != l.id
    ended := s.ended.filter fun m => m.launch != l.id
    domains := s.domains.filter fun e => match e.1 with
      | .phase i _ | .launch i => i != l.id
      | .gang _ | .solo _ => true
    gangs := s.gangs.filter fun g => g.launch != l.id
    groups := s.groups.filter fun g => g.launch != l.id
    colls := s.colls.filter fun c => c.launch != l.id }
  let s := if l.d.signal == 0 then s else s.deviceSignal l.vf l.d.signal 1 err
  if l.d.cont == 0 then s else (s.accept l.vf none l.d.cont none false).1

end Sys2Proof.Machine
end

