-- ==== Sys2Proof/Machine/Returns.lean ====
section
/-! DEFINITION. The events LOAD_RETURN and STORE_ACKNOWLEDGEMENT, the eviction of a NEAR line, and what they perform
(R176, R177, R180, R182, R192, R238 to R242). -/

namespace Sys2Proof.Machine

/-- The outcome of an event: its step where it is enabled, with the records of the errors it met, else no occurrence. -/
def event (ok : Bool) (s s' : State) : Host.Outcome State Fault Refusal :=
  if ok then .next (commit s (s'.noted s)) else .fault .notEnabled

/-! ## Writes performed at their places -/

/-- Write bytes into a NEAR line of a partition. -/
def State.nearPatch (s : State) (core pidx pa : Nat) (bs : List Byte) : State :=
  s.updPart core pidx fun p => { p with near := p.near.map fun l => l.patch pa bs }

/-- A store of a core at the point of coherence of a page of this module (R176, R177, R195, R239), where `put` writes it. A NEAR
    line takes it, of a peer's page too; with `shot` its line enters no L2 slice (R373). -/
def State.storeBy (put : State → Nat → List Byte → State) (s : State) (t : Terrace) (va : Nat) (ph : Phys) (bypass shot : Bool)
    (bs : List Byte) : State :=
  match s.part? t.core t.vf with
  | none => put s ph.pa bs
  | some p =>
    if (p.nearLine ph.pa).isSome then s.nearPatch t.core p.pidx ph.pa bs
    else
      let s1 := put (if shot then s else (s.l2Touch t va ph false).1) ph.pa bs
      if bypass then s1.l1Drop t.core p.pidx fun l => l.pa / 64 == ph.pa / 64
      else s1.updPart t.core p.pidx fun p => { p with lines := p.lines.map fun l => l.patch ph.pa bs }

/-- A store of a core that all sharers of its line apply at once. -/
def State.storeAt (s : State) (t : Terrace) (va : Nat) (ph : Phys) (bypass shot : Bool) (bs : List Byte) : State :=
  s.storeBy State.pocWrite t va ph bypass shot bs

/-- An atomic performed in the near cache, its line being there (R239): the old value, and the state with the new one. -/
def State.nearAtomic (s : State) (a : Access) (pidx : Nat) (r : Req) (ph : Phys) : State × Nat :=
  let old := match (s.partAt? a.core pidx).bind fun p => p.nearLine ph.pa with
    | some l => bytesNat ((l.bytes.drop (ph.pa % 64)).take r.len)
    | none => s.rdNat ph.pa r.len
  match a.kind.apply (modeType a.mode) old r.data r.cmp with
  | some v => (s.nearPatch a.core pidx ph.pa (natBytes r.len v), old)
  | none => (s, old)

/-- An atomic of a core on a page of this module, or on a line that its near cache holds: the old value, and the state with
    the new one (R238, R239). One placed HOME on an UNTRACKED page leaves no older copy in the core's L1. -/
def State.atomicAt (s : State) (a : Access) (r : Req) (ph : Phys) : State × Nat :=
  let home := fun (_ : Unit) =>
    let m := s.meetMem a.vf ph.pa r.len
    let s1 := if ph.leaf.cls == clsUntracked then m.1.l1DropPa a.core a.vf ph.pa else m.1
    let old := s1.rdNat ph.pa r.len
    if m.2 then s1.lateError a r
    else match a.kind.apply (modeType a.mode) old r.data r.cmp with
    | some v => (s1.pocWriteNat ph.pa r.len v, old)
    | none => (s1, old)
  match s.part? a.core a.vf with
  | some p =>
    if ph.leaf.place == 1 && ph.leaf.cls == clsUntracked && !r.shot then
      (s.nearIn a.core p.pidx r.ea ph (s.tenant a.vf).asid (s.rdBytes (ph.pa / 64 * 64) 64)).nearAtomic a p.pidx r ph
    else home ()
  | none => home ()

/-! ## Destinations -/

/-- The words a load or atomic writes to its destination (R64, R189, R192). -/
def Access.words (a : Access) (v : Nat) : Bool × List Word :=
  let ty := modeType a.mode
  match a.kind with
  | .load w sg _ => if w ≤ 2 && sg then (false, wordsOf 1 (wrapTo 32 (signExt (8 * w) v)))
                    else if w ≤ 4 then (false, wordsOf 1 v) else (true, wordsOf (w / 4) v)
  | .lda w _ => if w ≤ 4 then (false, wordsOf 1 v) else (true, wordsOf 2 v)
  | .amo _ | .cas => (ty64 ty, resWords (ty64 ty) (extendTy ty v))
  | _ => (false, [])

/-- Element slot j of lane l that LDF writes (R197). -/
def Access.ldfWord (a : Access) (blk : List Byte) (j l : Nat) : Word :=
  let i := 32 * j + l
  let f := byteAt blk 0
  let ty := modeType a.mode
  if j == 3 && l == 31 then
    BitVec.ofNat 32 (f + (if fmtClass f == 0 then byteAt blk 1 / 64 * 256 else 0) + byteAt blk 62 * 2 ^ 16)
  else if capacity f ≤ i then 0
  else BitVec.ofNat 32 (roundToType ty (modeRnd a.mode) (draw a.rk a.rc l j) (modeSat a.mode) (elemValue blk i))

/-- Write a returned value to the terrace's registers. -/
def State.deliver (s : State) (a : Access) (r : Req) (v : Nat) : State :=
  match a.kind with
  | .ldf =>
    let blk := natBytes 64 v
    match a.dst with
    | .v n => s.updTer a.ter fun t =>
        (lanesOf a.lanes).foldl (fun t l => t.vwrite false n l ((List.range 4).map fun j => a.ldfWord blk j l)) t
    | _ => s
  | .image => s.updSplit a.ter a.sid fun x => match x.kept with
    | some (3, n) => { x with kept := some (3, n + v * 2 ^ (128 * r.lane)) }
    | _ => x
  | _ =>
    let w := a.words v
    match a.dst with
    | .s _ =>
      -- an s destination ends with the value of the lowest lane that is not faulted (R33, R242)
      let cur := (s.accs.find? fun x => x.id == a.id).getD a
      if (cur.low.getD 32) ≤ r.lane then s
      else (s.setAccess { cur with low := some r.lane }).updTer a.ter fun t =>
        t.writeDst a.dst w.1 (1#32 <<< r.lane) fun _ => w.2
    | _ => s.updTer a.ter fun t => t.writeDst a.dst w.1 (1#32 <<< r.lane) fun _ => w.2

/-- An access as it stands now. -/
def State.accNow (s : State) (a : Access) : Access := (s.accs.find? fun x => x.id == a.id).getD a

/-- One request of a returning access returns (R192, R242). A block that R76 finds invalid is a format error (R197). -/
def State.returnReq (s : State) (a : Access) (r : Req) : State :=
  match a.kind with
  | .pref level =>
    match r.page with
    | none => s
    | some ph =>
      let t := s.accTer a
      let s1 := if r.shot then s else (s.l2Touch t r.ea ph (level == 2)).1
      match s1.part? a.core a.vf with
      | some p =>
        if level == 0 && ph.l1Ok (dieOf a.core) && !r.noFill && (s1.l1Find t p r.ea).isNone && (p.nearLine ph.pa).isNone then
          s1.l1Fill a.core p (s1.lineFor t r.ea ph)
        else s1
      | none => s1
  | .amo _ | .cas =>
    match r.bound, r.page with
    | some v, _ => s.deliver a r v
    | none, some ph => let x := (s.noteSeen a.ter a.id r).atomicAt a r ph; (x.1.noteDone a r).deliver a r x.2
    | none, none => s
  | .ldf =>
    let x := s.bindLoad a r
    if blockValid (natBytes 64 x.2) then x.1.deliver a r x.2
    else let b := x.1.accNow a; x.1.setAccess { b with errs := b.errs ++ [(r.lane, 0x15, r.ea)] }
  | _ => let x := s.bindLoad a r; x.1.deliver a r x.2

/-- The units a request used (R418): the core, the home TLB's controller, the L2 slice, the DRAM bank and its controller, or
    the market bank. -/
def State.unitsOf (s : State) (a : Access) (r : Req) : List Nat :=
  match r.page with
  | none => if r.reg.isNone && 2 ^ 56 ≤ r.loc && r.loc < 2 ^ 57 then
      [unitCore a.core, unitMarket ((r.loc - 2 ^ 56) / 2 ^ 26) ((r.loc - 2 ^ 56) % 2 ^ 26 / 2 ^ 21)] else [unitCore a.core]
  | some ph =>
    let asid := (s.tenant a.vf).asid
    let home := unitCtl (dieOf a.core) (s.homeCtl (dieOf a.core) asid r.ea)
    match ph.owner with
    | .die d =>
      let rng := kget (0, 0) (s.die d).l2range a.vf
      [unitCore a.core, home, unitSlice d (substOf (s.die d).substSlice (l2Place asid r.ea rng.1 rng.2).1),
        unitCtl d (s.ctlServing d ph.pa), s.bankUnit d ph.pa]
    | _ => [unitCore a.core, home]

/-! ## When an access may complete -/

/-- The requests of an access that a mask selects, in ascending lanes. -/
def Access.sel (a : Access) (m : Lanes) : List Req := a.reqs.filter fun r => m.getLsbD r.lane

/-- Whether the requests a mask selects may complete together now: no earlier access of the terrace touches their bytes
    (R2, R192, R221), lanes of one load in one line and lanes of one atomic at one address go together (R192, R240), and
    no lower lane of a store is left behind a higher one at a byte. -/
def State.mayComplete (s : State) (a : Access) (m : Lanes) : Bool :=
  let rs := a.sel m
  let left := a.reqs.filter fun r => !m.getLsbD r.lane
  !rs.isEmpty && !a.parked && popMask m == rs.length && rs.all (fun r => !r.outside)
    && s.accs.all (fun b => b.ter != a.ter || a.id ≤ b.id || (match b.kind with | .pref _ => true | _ => false)
        || b.reqs.all fun x => rs.all fun r => !r.overlaps x)
    && (match a.kind with
        | .load .. | .lda .. | .image => left.all fun x => rs.all fun r => r.ea / 64 != x.ea / 64
        | .amo _ | .cas | .red _ => left.all fun x => rs.all fun r => r.ea != x.ea
        | .store .. | .stl _ => left.all fun x => rs.all fun r => !(x.lane < r.lane && r.overlaps x)
        | _ => true)

/-- An access by its terrace and number. -/
def State.access? (s : State) (ter id : Nat) : Option Access := s.accs.find? fun a => a.ter == ter && a.id == id

/-- An instruction that traps is removed from its path's count as if it had never issued (R183). -/
def State.uncount (s : State) (ter id : Nat) : State :=
  s.updTer ter fun t => { t with flight := trimAll (t.flight.filter fun f => f.id != id) }

/-- The end of an access that held its split: the trap of its first fault or error response, which the other lanes' are
    logged beside (R193), or an LDA's removal of lines (R235) and the completion. `a` is the access as it last stood. -/
def State.afterReturn (s : State) (a : Access) : State :=
  if (s.access? a.ter a.id).isSome then s
  else
    match s.ter? a.ter with
    | none => s
    | some t =>
      match t.splits.find? fun x => x.hold == .access a.id with
      | none => s
      | some sp =>
        match a.errs.foldl (fun (b : Option (Nat × Nat × Nat)) e => match b with
            | none => some e | some x => if e.1 < x.1 then some e else some x) none with
        | some (lane, code, ea) =>
          ((s.uncount t.uid a.id).logLanes t sp.pc.toNat (a.errs.filter fun e => e.1 != lane)).trapHeld t.uid sp.sid
            ⟨code, 0, false, false, match a.kind, sp.held with
              | .ldf, _ => if code == 0x15 then none else some a.lanes
              | _, some (.cntsv _) => none
              | _, _ => some (maskOf (a.errs.map (·.1))), ea⟩
        | none =>
          let s1 := match a.kind with | .lda _ true => s.dropUntracked t.core t.vf | _ => s
          -- the step of the generator of an LDF (R197)
          let s2 := match a.kind, sp.held.bind fun i => s1.ctxOf t.uid sp.sid i with
            | .ldf, some c => c.advance s1 c.srMode
            | _, _ => s1
          s2.retireHeld t.uid sp.sid

/-- LOAD_RETURN's effect on an access. -/
def State.loadReturn (s : State) (a : Access) (m : Lanes) : State :=
  let s1 := (a.sel m).foldl (fun s r => (s.returnReq a r).correct (s.unitsOf a r)) s
  (s1.closeReqs (s1.accNow a) m).afterReturn (s1.accNow a)

/-- The event LOAD_RETURN (R192, R182). -/
def execLoadReturn (ter id : Nat) (m : Lanes) (s : State) : Host.Outcome State Fault Refusal :=
  match s.access? ter id with
  | none => .fault .notEnabled
  | some a =>
    let kind := a.kind.returning || (match a.kind with | .pref _ => true | _ => false)
    event (kind && s.mayComplete a m) s (s.loadReturn a m)

/-- One request of a store or RED is performed at its place (R194, R242). -/
def State.ackReq (s : State) (a : Access) (r : Req) : State :=
  match r.page with
  | none => s
  | some ph =>
    match ph.owner with
    | .die _ =>
      (match a.kind with
       | .store _ bypass => s.storeAt (s.accTer a) r.ea ph bypass r.shot (natBytes r.len r.data)
       | .stf | .stl _ => s.storeAt (s.accTer a) r.ea ph false r.shot (natBytes r.len r.data)
       | .red _ =>
         if ph.leaf.cls == clsCommute then s.contribute a.core ph.leaf.cfmt ph.pa r.data
         else (s.atomicAt a r ph).1
       | .sig => s.signalPut a.core a.vf ph.pa r.data (r.cmp != 0)
       | _ => s)
    | .host => s
    | _ =>
      -- a peer's line that the near cache holds; its own answer has performed anything else
      if r.tag == 0 && r.bound.isNone then
        match a.kind with
        | .store .. | .stf | .stl _ => s.storeAt (s.accTer a) r.ea ph false r.shot (natBytes r.len r.data)
        | .red _ => (s.atomicAt a r ph).1
        | _ => s
      else s

/-- Whether a request is a store whose bytes stand at the slice already (R177). -/
def Req.sent (r : Req) : Bool := r.bound.isSome && !r.away

/-- Every sharer applies what it owes of an access's stores. -/
def State.settleShares (s : State) (id : Nat) : State :=
  { s with parts := s.parts.map fun p => { p with lines := p.lines.map fun l => if l.due.any fun d => d.1 == id then l.apply else l } }

/-- STORE_ACKNOWLEDGEMENT's effect on an access: what has not been performed is, and every sharer has applied it (R177). -/
def State.storeAck (s : State) (a : Access) (m : Lanes) : State :=
  let s1 := (a.sel m).foldl (fun s r => if r.sent then s.settleShares a.id else
    (((s.noteSeen a.ter a.id r).ackReq a r).noteDone a r).correct (s.unitsOf a r)) s
  (s1.closeReqs a m).afterReturn a

/-- Whether a request is a store to an UPDATE line of this module that other cores share. -/
def State.sharedAfar (s : State) (a : Access) (r : Req) : Bool :=
  match a.kind, r.page with
  | .store .., some ph | .stf, some ph | .stl _, some ph =>
    !r.away && r.bound.isNone && ph.leaf.cls == clsUpdate &&
      s.parts.any fun p => p.core != a.core && p.lines.any fun l => l.leaf.cls == clsUpdate && l.pa / 64 == ph.pa / 64
  | _, _ => false

/-- Stores whose sharers apply them later: they stand at the slice, and their acknowledgement is still to come (R177). -/
def State.storeSend (s : State) (a : Access) (m : Lanes) : State :=
  let rs := (a.sel m).filter (s.sharedAfar a)
  let s1 := rs.foldl (fun s r => match r.page with
    | none => s
    | some ph =>
      let bypass := match a.kind with | .store _ b => b | _ => false
      (((s.noteSeen a.ter a.id r).storeBy (fun s pa bs => s.pocSend a.core a.id pa bs) (s.accTer a) r.ea ph bypass r.shot
        (natBytes r.len r.data)).noteDone a r).correct (s.unitsOf a r)) s
  s1.setAccess { a with reqs := a.reqs.map fun x => if rs.contains x then { x with bound := some 0 } else x }

/-- A step of a store: where other cores share its UPDATE line, it may stand at the slice before they have applied it (R11, R177;
    DESIGN CHOICE, log entry 8). -/
def State.storeStep (s : State) (a : Access) (m : Lanes) : State :=
  if (a.sel m).any (s.sharedAfar a) then
    let s1 : State := { s with tick := s.tick + 1 }
    if Config.choose s.tick % 2 == 1 then s1.storeSend a m else s1.storeAck a m
  else s.storeAck a m

/-- The event STORE_ACKNOWLEDGEMENT (R176, R177, R182). -/
def execStoreAcknowledgement (ter id : Nat) (m : Lanes) (s : State) : Host.Outcome State Fault Refusal :=
  match s.access? ter id with
  | none => .fault .notEnabled
  | some a =>
    let kind := match a.kind with | .store .. | .stf | .stl _ | .red _ | .sig => true | _ => false
    event (kind && s.mayComplete a m) s (s.storeStep a m)

/-- The event NEAR_LINE_EVICTION (R239): one UNTRACKED write of the whole line. -/
def execNearLineEviction (core pidx line : Nat) (s : State) : Host.Outcome State Fault Refusal :=
  match (s.partAt? core pidx).bind fun p => p.near.find? fun l => l.pa / 64 == line with
  | none => .fault .notEnabled
  | some l => event true s (s.nearOut core pidx l)

end Sys2Proof.Machine
end

