-- ==== Sys2Proof/Machine/Engine.lean ====
section
/-! DEFINITION. The reads and writes that engines make for a terrace (R130, R185, R204). -/

namespace Sys2Proof.Machine

/-- For whom an engine works: the terrace, as it stood at the issue. `before` is the number from which later accesses
    of the terrace count, and `seen` the bytes as they stood before later writes of it (R226). -/
structure Eng where
  uid : Nat
  sid : Nat
  core : Nat
  terno : Nat
  vf : Nat
  launch : Nat
  team : Nat
  sup : Bool
  before : Nat
  seen : List (Nat × Byte)
deriving DecidableEq, Repr

/-- An access with no requests, to name the terrace of an engine's work that has ended. -/
def Eng.access (e : Eng) : Access :=
  ⟨0, e.uid, 0, e.core, e.terno, e.vf, e.launch, 0, .ldf, .none, 0, 0, 0, 0, [], false, [], none⟩

/-- The terrace an engine works for, or what remains of it. -/
def State.engTer (s : State) (e : Eng) : Terrace := { s.accTer e.access with team := e.team }

/-- The engine's view of a terrace that is alive. -/
def Eng.ofTer (t : Terrace) (sup : Bool) (before : Nat) : Eng :=
  ⟨t.uid, 0, t.core, t.ter, t.vf, t.launch, t.team, sup, before, []⟩

/-- A request as an engine makes it. -/
def engReq (va loc n : Nat) (page : Option Phys) (v : Nat) : Req := ⟨0, va, loc, n, none, page, v, 0, none, 0, false, [], false⟩

/-- Whether engines reach the window of an address (R203). -/
def engWindow (va : Nat) : Bool := blockWindow va

/-- Whether an earlier store or atomic of the terrace to a range has not been performed yet (R130); with `all`, an
    earlier load counts too. -/
def State.engBusy (s : State) (e : Eng) (all : Bool) (pa n : Nat) : Bool :=
  s.accs.any fun a => a.ter == e.uid && a.id < e.before && (a.kind.writes || (all && a.kind.returning))
    && a.reqs.any fun r => r.reg.isNone && pa < r.loc + r.len && r.loc < pa + n

/-- Bytes as the issuing split's loads would have found them at the command's issue (R226). -/
def Eng.atIssue (e : Eng) (loc n v : Nat) : Nat :=
  overBytes (e.seen.filterMap fun x => if loc ≤ x.1 && x.1 < loc + n then some (x.1 - loc, x.2) else none) n v

/-- What a read of an engine comes to; `gets` is what it has asked for outside the module. -/
inductive EngRead where
  | val (s : State) (gets : List OutRead) (v : Nat)
  | fault (s : State) (gets : List OutRead) (code : Nat)
  /-- it waits for an answer from outside the module -/
  | wait (s : State) (gets : List OutRead)
  /-- it must wait for earlier accesses of the terrace -/
  | busy

/-- Read n bytes at an address (R130); with `block`, as an operand block. A range outside the module is asked for once. -/
def State.engRead (s : State) (e : Eng) (gets : List OutRead) (block : Bool) (va n : Nat) : EngRead :=
  let t := s.engTer e
  let d := dieOf e.core
  if !engWindow va then .fault s gets codeViolation
  else if !isGlobal va then
    match s.chipAt t 0 va n with
    | some (.loc x) =>
      if s.meetChip x n then .fault (s.chipErr x) gets 0x16
      else .val (s.correct (s.unitsOf e.access (engReq va x n none 0))) gets (e.atIssue x n (s.rdNat x n))
    | _ => .fault s gets codeViolation
  else if !isGlobal (va + n - 1) then .fault s gets codeViolation
  else
    match s.reach t d (some e.core) ⟨false, false, e.sup⟩ va with
    | (s1, .error x) => .fault s1 gets x.code
    | (s1, .ok q) =>
      let ph := q.ph
      if block && !ph.leaf.fmt then .fault s gets 0x15
      else if s.engBusy e false ph.pa n then .busy
      else
        let own := fun (s : State) => if ph.leaf.cls == clsStaged then s.meetStaged e.uid ph.pa n else s
        let s1 := own s1
        let here := fun (s : State) =>
          let r := ((s.l2Touch t va ph false).1).bypassRead e.core e.vf e.uid ph n
          EngRead.val (r.1.correct (r.1.unitsOf e.access (engReq va ph.pa n (some ph) 0))) gets (e.atIssue ph.pa n r.2)
        match ph.owner with
        | .die _ =>
          let m := s1.meetPage e.core e.vf ph n
          if m.2 then .fault m.1 gets 0x16 else here (m.1.enter e.vf d va q)
        | .bad => .fault s gets codeEntry
        | _ =>
          let m := (own s).meetNear e.core e.vf ph.pa
          if m.2 then .fault m.1 gets 0x16
          else if ((m.1.part? e.core e.vf).bind fun p => p.nearLine ph.pa).isSome then here m.1
          else
            match m.1.outGet gets (.core e.core) e.vf e.launch va n ph with
            | (s2, g, .wait) => .wait s2 g
            | (s2, g, .err code) => .fault s2 g code
            | (s2, g, .val v) => .val s2 g (e.atIssue ph.pa n (overBytes (s2.ownBytes e.uid ph.pa n) n v))

/-- What a write of an engine comes to; `ack` is the tag of an answer that must come. -/
inductive EngWrite where
  | ok (s : State) (ack : Option Nat)
  | fault (s : State) (code : Nat)
  | busy

/-- Write n bytes at an address, as a store of the issuing split; `ty` is the type staged words record (R251). -/
def State.engWrite (s : State) (e : Eng) (va n v ty : Nat) : EngWrite :=
  let t := s.engTer e
  let d := dieOf e.core
  if !engWindow va then .fault s codeViolation
  else if !isGlobal va then
    match s.chipAt t 0 va n with
    | some (.loc x) => .ok (((s.bindOver e.uid e.before (engReq va x n none v)).wrNat x n v).healChip x n) none
    | _ => .fault s codeViolation
  else if !isGlobal (va + n - 1) then .fault s codeViolation
  else
    match s.reach t d (some e.core) ⟨true, false, e.sup⟩ va with
    | (s1, .error x) => .fault s1 x.code
    | (s1, .ok q) =>
      let ph := q.ph
      let r := engReq va ph.pa n (some ph) v
      let near := ((s.part? e.core e.vf).bind fun p => p.nearLine ph.pa).isSome
      if ph.leaf.cls == clsCommute || s.liveRecord ph.pa then .fault s codeViolation
      else
        match ph.owner with
        | .bad => .fault s codeEntry
        | o =>
          if ph.leaf.cls == clsStaged then
            (match ((s1.enter e.vf d va q).bindOver e.uid e.before r).stageAs t ty va ph (natBytes n v) with
             | (s2, none) => .ok s2 none
             | (s2, some 0x16) => .fault s2 0x16
             | (_, some code) => .fault s code)
          else if s.engBusy e true ph.pa n then .busy
          else
            match o with
            | .die _ => .ok ((((s1.enter e.vf d va q).noteSeen e.uid e.before r).storeAt t va ph false false (natBytes n v)).correct
                (s.unitsOf e.access r)) none
            | _ =>
              if near then .ok (s.storeAt t va ph false false (natBytes n v)) none
              else if s.cmdReads e.uid e.before va n then .busy
              else if s.ownerDown d o then .fault s 0x19
              else let x := s.askFor (.core e.core) e.vf e.launch va n ph (.write v) true; .ok x.1 (some x.2)

/-- Writes outside the module that have been answered leave a list of tags and addresses; the first error response, with its
    address, where one has come. -/
def State.takeAcks (s : State) (acks : List (Nat × Nat)) : State × List (Nat × Nat) × Option (Nat × Nat) :=
  acks.foldl (fun (x : State × List (Nat × Nat) × Option (Nat × Nat)) k =>
    match x.1.takeAnswer k.1 with
    | none => (x.1, x.2.1 ++ [k], x.2.2)
    | some (s1, .val _) => (s1, x.2.1, x.2.2)
    | some (s1, .err code) => (s1, x.2.1, x.2.2.or (some (code, k.2)))) (s, [], none)

/-- Whether an answer to one of these has come. -/
def State.ackHere (s : State) (tags : List Nat) : Bool := tags.any fun k => s.answers.any fun a => a.1 == k

/-- Requests whose answers nobody takes any more. -/
def State.forget (s : State) (tags : List Nat) : State :=
  { s with answers := s.answers.filter fun a => !tags.contains a.1
           asks := s.asks.map fun a => if tags.contains a.tag then { a with waits := false } else a }

/-- The record an engine writes for a fault it meets (R421). -/
def Eng.logRec (e : Eng) (code addr iaddr : Nat) : LogRec := ⟨addr, iaddr, code, 0, e.core, e.terno, dieOf e.core, 1⟩

/-- Swz of R184. -/
def swz (x m : Nat) : Nat := x ^^^ ((x / 128 % 8) &&& (2 ^ m - 1)) * 16

/-- An address under a mode; a global one is used as it is (R185). -/
def swzAt (va m : Nat) : Nat := if isGlobal va then va else swz va m

/-- Whether a range lies in the valid part of one window that engines reach (R203). -/
def State.rangeOk (s : State) (t : Terrace) (va n : Nat) : Bool :=
  if 2 ^ 32 ≤ va then va + n ≤ 2 ^ 48
  else if !engWindow va then false
  else if 0x1000000 ≤ va && va < 0x2000000 then
    -- a range of the cluster window may pass from one core's part to the next
    (List.range (n / 0x80000 + 2)).all fun i =>
      let lo := if i == 0 then va else (va / 0x80000 + i) * 0x80000
      let hi := min (va + n) ((va / 0x80000 + i + 1) * 0x80000)
      hi ≤ lo || (s.chipAt t 0 lo (hi - lo)).isSome
  else (s.chipAt t 0 va n).isSome

end Sys2Proof.Machine
end

