-- ==== Sys2Proof/Machine/Copy.lean ====
section
/-! DEFINITION. Copy engines (R202 to R210): CP, RQNT, CPS, CPW, and the engines' steps. -/

namespace Sys2Proof.Machine

/-! ## Commands -/

/-- For whom a command is performed. -/
def Cmd.forWhom (c : Cmd) : Eng := ⟨c.ter, 0, c.core, c.terno, c.vf, c.launch, c.team, c.sup, c.id, c.seen⟩

/-- The address of a row or block: the source and destination of row r, or the block. -/
def Cmd.src (c : Cmd) (r : Nat) : Nat :=
  match c.kind with | .cp _ _ src ss _ _ _ _ => (src + r * ss) % 2 ^ 64 | .rqnt a _ _ _ _ => a + 64 * r
def Cmd.dst (c : Cmd) (r : Nat) : Nat :=
  match c.kind with | .cp d ds _ _ _ _ _ _ => (d + r * ds) % 2 ^ 64 | .rqnt a _ _ _ _ => a + 64 * r

/-- The number of rows or blocks. -/
def Cmd.total (c : Cmd) : Nat := match c.kind with | .cp _ _ _ _ _ rows _ _ => rows | .rqnt _ n _ _ _ => n

/-- Whether a range of n bytes holds a byte on a STAGED page of a domain, as a terrace's pages stand. -/
def State.stagedRange (s : State) (t : Terrace) (sup : Bool) (dom : DomKey) (va n : Nat) : Bool :=
  (List.range (n / 65536 + 2)).any fun i =>
    let a := if i == 0 then va else (va / 65536 + i) * 65536
    a < va + n && isGlobal a &&
      (match (s.translate t.vf (dieOf t.core) none ⟨true, false, sup⟩ a).2 with
       | .ok p => p.leaf.cls == clsStaged && t.domain p.leaf.sgrp == dom
       | .error _ => false)

/-- Whether the destination of a command's rows touches a STAGED page of a domain (R249). -/
def State.cmdStaged (s : State) (t : Terrace) (c : Cmd) (dom : DomKey) : Bool :=
  match c.kind with
  | .cp _ _ _ _ len rows _ _ => (List.range rows).any fun r => s.stagedRange t c.sup dom (c.dst r) len
  | .rqnt .. => false

/-- The copy engines of a die that serve (R16, R418); one does where all are harvested (DESIGN CHOICE, log entry 42). -/
def State.copyEngines (s : State) (die : Nat) : List Nat :=
  match (List.range 8).filter fun n => !s.unitOut (unitCopy die n) with
  | [] => [0]
  | ns => ns

/-- The copy engine that takes a command: which is not promised. -/
def State.pickEngine (s : State) (die : Nat) : Nat :=
  let ns := s.copyEngines die
  ns.getD (Config.choose s.tick % ns.length) 0

/-- A value's 16 bytes by location, without those that an earlier access of the terrace has still to write (R130). -/
def State.settled16 (s : State) (e : Eng) (loc v : Nat) : List (Nat × Byte) :=
  ((natBytes 16 v).zipIdx.map fun b => (loc + b.2, b.1)).filter fun b => !s.engBusy e false b.1 1

/-- The 16 bytes at an address of this module as a load of the issuing split would find them now, by location: without those
    that an earlier access of the terrace has still to write, and without what cannot be read (R130). -/
def State.viewPiece (s : State) (c : Ctx) (va : Nat) : State × List (Nat × Byte) :=
  let e := Eng.ofTer c.t c.sp.supervisor s.fresh
  if !isGlobal va then
    match s.chipAt c.t 0 va 16 with
    | some (.loc x) => (s, if s.meetChip x 16 then [] else s.settled16 e x (s.rdNat x 16))
    | _ => (s, [])
  else
    match (s.reach c.t c.die none ⟨false, false, c.sp.supervisor⟩ va).2 with
    | .error _ => (s, [])
    | .ok q =>
      match q.ph.owner with
      | .die _ =>
        if s.unsound q.ph.pa 16 then (s, [])
        else let r := s.pocRead c.t.core c.t.vf c.uid q.ph 16; (r.1, s.settled16 e q.ph.pa r.2)
      | _ => (s, [])

/-- What a CP reads, as a load of the issuing split would find it at its issue (R204, R226). Bytes of other modules and the host
    are read when their rows move (log entry 22). -/
def State.snapshot (s : State) (c : Ctx) (k : CmdKind) : State × List (Nat × Byte) :=
  match k with
  | .rqnt .. => (s, [])
  | .cp _ _ src ss len rows m _ =>
    ((List.range rows).flatMap fun r => (List.range (len / 16)).map fun i => swzAt ((src + r * ss + 16 * i) % 2 ^ 64) m).foldl
      (fun x va => let y := x.1.viewPiece c va; (y.1, x.2 ++ y.2)) (s, [])

/-- Issue a command: it counts on the copy path and joins the open batch. -/
def State.issueCmd (s0 : State) (c : Ctx) (k : CmdKind) (alley : Nat) : State :=
  let v := s0.snapshot c k
  let s := v.1
  let id := s.fresh
  let m : Cmd := ⟨id, c.uid, c.t.core, c.t.ter, c.t.vf, c.t.launch, c.t.team, c.sp.supervisor, k, alley, c.pc.toNat,
    c.sp.rk, c.sp.rc, 0, none, false, [], [], v.2, s.pickEngine c.die, none⟩
  State.updTer { s with fresh := id + 1, tick := s.tick + 1, cmds := s.cmds ++ [m] } c.uid fun t =>
    { t with flight := trimAll (t.flight ++ [⟨id, 3, [id]⟩]), openBatch := t.openBatch ++ [id] }

/-- CP (R202, R203). -/
def execCp (d a b sswz dswz rows : Nat) (s : State) : Host.Outcome State Fault Refusal :=
  issue (.cp d a b sswz dswz rows) (fun s c =>
    if c.active == 0 then .done s none
    else
      let r := fun n => (c.rt.sget n).toNat
      let dst := c.src64 (.s d) 0
      let src := c.src64 (.s a) 0
      let len := r b
      if len % 16 != 0 || len == 0 || 1048576 < len || dst % 16 != 0 || src % 16 != 0 || r (d + 2) % 16 != 0
          || r (a + 2) % 16 != 0 || (r (d + 2) != 0 && r (d + 2) < len) then .trap s (.illegalOperand c.pc) false
      else
        let at_ := fun (base stride i : Nat) => (base + i * stride) % 2 ^ 64
        let bad := ((List.range rows).flatMap fun i => [at_ src (r (a + 2)) i, at_ dst (r (d + 2)) i]).find? fun va =>
          !s.rangeOk c.t va len
        match bad with
        | some va => .trap s (.whole codeViolation va) false
        | none =>
          let al := r (d + 3)
          let rec_ : Except Nat Bool := if al == 0 then .ok true else
            (match s.alleyAt c.t al with
             | .error e => .error e
             | .ok x => .ok ((s.alley x).record c.t.sender c.t.ter).isSome)
          match rec_ with
          | .error e => .trap (s.alleyErr c.t e) (alleyTrap c e al) false
          | .ok false => .trap s (.illegalOperand c.pc) false
          | .ok true =>
            let dom := c.t.domain 1
            if s.gated c.t && (List.range rows).any fun i => s.stagedRange c.t c.sp.supervisor dom (at_ dst (r (d + 2)) i) len
            then .stay
            else if 255 ≤ c.t.inFlight 3 then .stay
            else .done (s.issueCmd c (.cp dst (r (d + 2)) src (r (a + 2)) len rows sswz dswz) al) none) s

/-- RQNT (R209). -/
def execRqnt (a b : Nat) (sat : Bool) (rnd newf : Nat) (s : State) : Host.Outcome State Fault Refusal :=
  issue (.rqnt a b sat rnd newf) (fun s c =>
    if c.active == 0 then .done s none
    else
      let va := c.src64 (.s a) 0
      let n := (c.rt.sget b).toNat
      if va % 64 != 0 || 16777216 < n then .trap s (.illegalOperand c.pc) false
      else if 255 ≤ c.t.inFlight 3 then .stay
      else
        let rn := if rnd == 6 then c.rnd else rnd
        .done (c.advance (s.issueCmd c (.rqnt va n newf rn (sat || c.sat)) 0) (rn == 5)) none) s

/-! ## Batches (R207, R208) -/

/-- A command by its number. -/
def State.cmd? (s : State) (id : Nat) : Option Cmd := s.cmds.find? fun c => c.id == id

/-- Whether a batch is settled, or complete. -/
def State.settled (s : State) (ids : List Nat) : Bool :=
  ids.all fun i => match s.cmd? i with | some c => c.fault.isSome | none => true
def State.complete1 (s : State) (ids : List Nat) : Bool := ids.all fun i => (s.cmd? i).isNone

/-- The sealed batches that are not settled. -/
def State.unsettled (s : State) (t : Terrace) : Nat := (t.sealedBatches.filter fun b => !s.settled b.2).length

/-- CPS (R207). -/
def execCps (d : Dst) (s : State) : Host.Outcome State Fault Refusal :=
  issue (.cps d) (fun s c =>
    if 16 ≤ s.unsettled c.t then .stay
    else
      let n := let x := (c.t.lastBatch + 1) % 2 ^ 32; if x == 0 then 1 else x
      .done (s.updTer c.uid fun t =>
        let open_ : List (Nat × List Nat) := t.sealedBatches.filter fun b => !s.complete1 b.2
        let t : Terrace := { t with openBatch := [], lastBatch := n, sealedBatches := open_ ++ [(n, t.openBatch)] }
        t.writeDst d false c.active fun _ => [BitVec.ofNat 32 n]) none) s

/-- The commands of the batches a CPW of t waits for, in issue order. -/
def State.batchCmds (s : State) (t : Terrace) (b : Nat) : List Cmd :=
  let ids := (t.sealedBatches.filter fun x => (b + 2 ^ 32 - x.1) % 2 ^ 32 < 2 ^ 31).flatMap (·.2)
  s.cmds.filter fun c => ids.contains c.id

/-- CPW (R208). -/
def execCpw (a : Src) (s : State) : Host.Outcome State Fault Refusal :=
  issue (.cpw a) (fun s c =>
    let b := c.uniAll a
    if c.t.lastBatch == 0 || b == 0 || 2 ^ 31 ≤ (c.t.lastBatch + 2 ^ 32 - b) % 2 ^ 32 then
      .trap s (.illegalOperand c.pc) false
    else
      let cs := s.batchCmds c.t b
      let ids := cs.map (·.id)
      match cs.find? fun x => x.fault.isSome with
      | some x =>
        if cs.any fun x => x.fault.isSome && x.told then
          let again := fun (x : Cmd) =>
            if ids.contains x.id && x.fault.isSome then
              (let e := if s.unitOut (unitCopy c.die x.eng) then s.pickEngine c.die else x.eng
               { x with fault := none, told := false, left := none, eng := e })
            else x
          .wait { s with cmds := s.cmds.map again } (.batch b)
        else
          let f := x.fault.getD (0, 0)
          .trap { s with cmds := s.cmds.map fun x =>
            if ids.contains x.id && x.fault.isSome then { x with told := true } else x }
            ⟨0x17, f.1, false, false, none, f.2⟩ false
      | none => if cs.isEmpty then .done s none else .wait s (.batch b)) s

/-! ## The engines' steps (R204 to R206, R210) -/

/-- Replace a command. -/
def State.setCmd (s : State) (c : Cmd) : State := { s with cmds := s.cmds.map fun x => if x.id = c.id then c else x }

/-- A command has stopped or finished as its counter sees it (R182). -/
def State.cmdReturned (s : State) (c : Cmd) : State := s.returned c.ter c.id

/-- A command stops on a fault (R206). -/
def State.cmdFault (s : State) (c : Cmd) (code addr : Nat) : State :=
  let s := (s.logRec c.vf (logBoth code) (c.forWhom.logRec code addr c.iaddr)).1
  let s := (s.cmdReturned c).forget (c.acks.map (·.1) ++ c.reads.map (·.tag))
  if (s.ter? c.ter).isSome then
    s.setCmd { c with fault := some (code, addr), told := false, reads := [], acks := [], left := none }
  else { s.markError c.launch with cmds := s.cmds.filter fun x => x.id != c.id }

/-- A command ends: with an alley to push it waits for ENGINE_ALLEY_PUSH, else it has returned. -/
def State.cmdEnd (s : State) (c : Cmd) : State :=
  if c.next < c.total || c.alley != 0 then s.setCmd c
  else { s with cmds := s.cmds.filter fun x => x.id != c.id }.cmdReturned c

/-- A row's end, once every piece is written and every write outside the module answered (R206). -/
def State.rowEnd (s : State) (c : Cmd) : State :=
  if c.left == some [] && c.acks.isEmpty then s.cmdEnd { c with next := c.next + 1, left := none, reads := [] } else s.setCmd c

/-- The command an engine serves: the first handed to it that has rows or blocks to do (R204). One that waits to push its
    handle, or has stopped on a fault, leaves the engine to the others (R205, R206). -/
def State.engCurrent (s : State) (die eng : Nat) : Option Cmd :=
  s.cmds.find? fun c => dieOf c.core == die && c.eng == eng && c.fault.isNone && c.next < c.total

/-- Whether a command is the one its engine serves. -/
def State.served (s : State) (c : Cmd) : Bool :=
  match s.engCurrent (dieOf c.core) c.eng with | some x => x.id == c.id | none => false

/-- The addresses of piece i of the row under way, 16 bytes. -/
def Cmd.pieceSrc (c : Cmd) (i : Nat) : Nat :=
  match c.kind with | .cp _ _ _ _ _ _ m _ => swzAt ((c.src c.next + 16 * i) % 2 ^ 64) m | .rqnt .. => c.src c.next
def Cmd.pieceDst (c : Cmd) (i : Nat) : Nat :=
  match c.kind with | .cp _ _ _ _ _ _ _ m => swzAt ((c.dst c.next + 16 * i) % 2 ^ 64) m | .rqnt .. => c.dst c.next

/-- The bytes of a block of this module's memory that a command has read, by location: it reads a block as a whole (R186). -/
def State.blockSeen (s : State) (c : Cmd) (va v : Nat) : List (Nat × Byte) :=
  match (s.reach (s.engTer c.forWhom) (dieOf c.core) none ⟨false, false, c.sup⟩ va).2 with
  | .ok q => (match q.ph.owner with
    | .die _ => ((natBytes 64 v).zipIdx.map fun e => (q.ph.pa + e.2, e.1)).filter fun e => !c.seen.any fun y => y.1 == e.1
    | _ => [])
  | .error _ => []

/-- One piece of a row: none where it can make no step now. Of global memory its whole block is read (R186). -/
def State.copyPiece (s : State) (c : Cmd) (left : List Nat) (i : Nat) : Option State :=
  let va := c.pieceSrc i
  let b := if isGlobal va then va / 64 * 64 else va
  match s.engRead c.forWhom c.reads false b (if isGlobal va then 64 else 16) with
  | .busy => none
  | .wait s1 g => if g.length == c.reads.length then none else some (s1.setCmd { c with left := some left, reads := g })
  | .fault s1 g code => some (s1.cmdFault { c with reads := g } code (c.pieceSrc i))
  | .val s1 g v =>
    match s1.engWrite c.forWhom (c.pieceDst i) 16 (v / 2 ^ (8 * (va - b)) % 2 ^ 128) 0 with
    | .busy => none
    | .fault s2 code => some (s2.cmdFault { c with reads := g } code (c.pieceDst i))
    | .ok s2 ack =>
      -- what the engine noted for the command itself while it wrote stays
      let now := (s2.cmd? c.id).getD c
      some ((s2.correct [unitCopy (dieOf c.core) c.eng]).rowEnd { now with
        left := some (left.filter (· != i)), reads := g
        seen := now.seen ++ (if isGlobal va then s.blockSeen now b v else [])
        acks := c.acks ++ (ack.map fun t => (t, c.pieceDst i)).toList })

/-- The first of a list of pieces that can make a step, and its step. -/
def State.firstPiece (s : State) (c : Cmd) (left : List Nat) : List Nat → Option State
  | [] => none
  | i :: rest => (s.copyPiece c left i).or (s.firstPiece c left rest)

/-- A step of the row under way: a piece of it, in no promised order (R204); none where no piece can make a step now. -/
def State.copyRow (s : State) (c : Cmd) : Option State :=
  match c.kind with
  | .rqnt .. => none
  | .cp _ _ _ _ len _ _ _ =>
    let left := c.left.getD (List.range (len / 16))
    let k := Config.choose s.tick % left.length
    { s with tick := s.tick + 1 }.firstPiece c left (left.drop k ++ left.take k)

/-- Answers to a command's writes, taken; an error response stops it at its row (R206). -/
def State.acked (s : State) (c : Cmd) : State :=
  match s.takeAcks c.acks with
  | (s1, acks, some (code, addr)) => s1.cmdFault { c with acks := acks } code addr
  | (s1, acks, none) => s1.rowEnd { c with acks := acks }

/-- Steps of a command's rows, as far as each can be made. -/
def State.copySteps (s : State) (id : Nat) : Nat → State
  | 0 => s
  | n + 1 =>
    match s.cmd? id with
    | none => s
    | some c =>
      if c.fault.isSome || c.total ≤ c.next || !s.served c then s
      else match s.copyRow c with | none => s | some s1 => s1.copySteps id n

/-- COPY_ENGINE_COMMAND (R204): steps of the rows of a CP, in ascending rows; with 0 steps, the answers to its writes are
    taken. -/
def execCopyEngineCommand (cmd rows : Nat) (s : State) : Host.Outcome State Fault Refusal :=
  match s.cmd? cmd with
  | none => .fault .notEnabled
  | some c =>
    match c.kind with
    | .rqnt .. => .fault .notEnabled
    | .cp .. =>
      if rows == 0 then event (c.fault.isNone && s.ackHere (c.acks.map (·.1))) s (s.acked c)
      else event (c.fault.isNone && c.next < c.total && s.served c && (s.copyRow c).isSome) s (s.copySteps cmd rows)

/-- The block that replaces an old one (R210), or none for the format error. -/
def Cmd.newBlock (c : Cmd) (old : List Byte) : Option (List Byte) :=
  match c.kind with
  | .cp .. => none
  | .rqnt _ _ newf rnd sat =>
    let fm := elemFmt newf
    let cap := capacity (formatByte fm)
    let k := if byteAt old 62 == 0 then capacity (byteAt old 0) else byteAt old 62
    if !blockValid old || cap < k then none
    else
      let ys := (List.range k).map (elemValue old)
      some (blockOf fm ys (if k < cap then k else 0) rnd sat fun i =>
        draw c.rk c.rc (i % 32) (4 * (c.next % 64) + i / 32))

/-- Whether a command may work on a block (R210): the right to write, and the page's class and FMT. -/
def State.blockPage (s : State) (e : Eng) (va : Nat) : Except Nat Phys :=
  match (s.reach (s.engTer e) (dieOf e.core) none ⟨true, false, e.sup⟩ va).2 with
  | .error x => .error x.code
  | .ok q =>
    if q.ph.leaf.cls == clsStaged || q.ph.leaf.cls == clsCommute then .error codeViolation
    else if !q.ph.leaf.fmt then .error 0x15 else .ok q.ph

/-- The next block of a command is done. -/
def State.blockDone (s : State) (c : Cmd) : State := s.cmdEnd { c with next := c.next + 1, reads := [], acks := [] }

/-- One block of an RQNT: none where it can make no step now. A block outside the module is read and then exchanged for the new
    one where it still is what was read; where it is not, the exchange is made again from what it has become, so that the
    replacement is one indivisible step at its point of coherence (R186, R210). -/
def State.rqntStep (s : State) (c : Cmd) : Option State :=
  let e := { c.forWhom with seen := [] }
  let va := c.src c.next
  let put := fun (s : State) (old : Nat) =>
    match c.newBlock (natBytes 64 old) with
    | none => some (s.cmdFault c 0x15 va)
    | some bs =>
      match s.engWrite e va 64 (bytesNat bs) 0 with
      | .busy => none
      | .fault s1 code => some (s1.cmdFault c code va)
      | .ok s1 _ => some ((s1.correct [unitCopy (dieOf c.core) c.eng]).blockDone c)
  let here := fun (_ : Unit) =>
    match s.engRead e [] true va 64 with
    | .fault s1 _ code => some (s1.cmdFault c code va)
    | .val s1 _ v => put s1 v
    | _ => none
  if !isGlobal va then here ()
  else
    match s.blockPage e va with
    | .error code => some (s.cmdFault c code va)
    | .ok ph =>
      let near := ((s.part? e.core e.vf).bind fun p => p.nearLine ph.pa).isSome
      match ph.owner with
      | .die _ => here ()
      | _ =>
        if near then here ()
        else if s.engBusy e true ph.pa 64 then none
        else
          match c.acks, c.reads.head?.bind fun g => g.got with
          | (tag, _) :: _, old =>
            -- the exchange has been asked for
            (match s.takeAnswer tag with
             | none => none
             | some (s1, .err code) => some (s1.cmdFault { c with acks := [] } code va)
             | some (s1, .val v) =>
               if old == some (.val v) then some (s1.blockDone c)
               else some (s1.setCmd { c with acks := [], reads := [⟨ph.pa, 64, 0, some (.val v)⟩] }))
          | [], some (.val old) =>
            (match c.newBlock (natBytes 64 old) with
             | none => some (s.cmdFault c 0x15 va)
             | some bs =>
               let x := s.askFor (.core e.core) e.vf e.launch va 64 ph (.cas [(old, bytesNat bs)]) true
               some (x.1.setCmd { c with acks := [(x.2, va)] }))
          | [], some (.err code) => some (s.cmdFault c code va)
          | [], none =>
            match s.outGet c.reads (.core e.core) e.vf e.launch va 64 ph with
            | (s1, g, .err code) => some (s1.cmdFault { c with reads := g } code va)
            | (s1, g, .val _) => some (s1.setCmd { c with reads := g })
            | (s1, g, .wait) => if g.length == c.reads.length then none else some (s1.setCmd { c with reads := g })

/-- REQUANTISATION (R209, R210): one block; an RQNT of no blocks ends. -/
def execRequantisation (cmd : Nat) (s : State) : Host.Outcome State Fault Refusal :=
  match s.cmd? cmd with
  | none => .fault .notEnabled
  | some c =>
    match c.kind with
    | .cp .. => .fault .notEnabled
    | .rqnt .. =>
      if c.total ≤ c.next then event c.fault.isNone s (s.cmdEnd c)
      else
        match s.rqntStep c with
        | none => .fault .notEnabled
        | some s1 => event (c.fault.isNone && s.served c) s s1

/-- ENGINE_ALLEY_PUSH (R205, R311): the handle of a finished command is pushed on its terrace's allowance. -/
def State.enginePush (s : State) (c : Cmd) : Option State :=
  let t := s.engTer c.forWhom
  match s.alleyAt t c.alley with
  | .error code => some ((s.alleyErr t code).cmdFault c (if code == 0x16 then 0x16 else codeViolation) c.alley)
  | .ok x =>
    let a := s.alley x
    match a.record t.sender t.ter with
    | none => some (s.cmdFault c codeViolation c.alley)
    | some i =>
      if !s.released t 3 c.id || sndAllow (a.snd.getD i 0) == 0 then none
      else
        some ({ s.alleyPush x i (BitVec.ofNat 32 (c.dst 0)) with
          cmds := s.cmds.filter fun y => y.id != c.id }.cmdReturned c)

/-- ENGINE_ALLEY_PUSH (R205, R311). -/
def execEngineAlleyPush (cmd : Nat) (s : State) : Host.Outcome State Fault Refusal :=
  match s.cmd? cmd with
  | none => .fault .notEnabled
  | some c =>
    match s.enginePush c with
    | none => .fault .notEnabled
    | some s1 => event (c.alley != 0 && c.fault.isNone && c.total ≤ c.next) s s1

end Sys2Proof.Machine
end

