-- ==== Sys2Proof/Machine/Kv.lean ====
section
/-! DEFINITION. The device's own writes of tenant memory, and key-value lists: KVAP, KVTR and KVRD (R151 to
R155). -/

namespace Sys2Proof.Machine

/-! ## Writes of the device -/

/-- The page of n bytes inside one page of tenant memory that the device may write. A refused write changes no entry and no record
    (R381): one to a live record is logged (R338); of one that its page refuses the spec says nothing, and it is dropped (DESIGN
    CHOICE, log entry 51). -/
def State.devTarget (s : State) (vf die va n : Nat) : State × Option Phys :=
  if !isGlobal va then (s, none)
  else
    match s.look vf die none ⟨true, false, true⟩ va with
    | (s1, .error _) => (s1, none)
    | (s1, .ok q) =>
      if (linesOf q.ph.pa n).any fun l => s1.liveRecord (l * 64) then
        ((s1.logRec vf true ⟨va, 0, codeViolation, 0, 0, 0, die, 2⟩).1, none)
      else (match q.ph.owner with | .die _ => s1.enter vf die va q | _ => s1, some q.ph)

/-- A write of the device that leaves the module, for the answer that its completion waits for; one that a link which is down
    keeps back is abandoned (R414). -/
def State.devSend (s : State) (vf die va n : Nat) (p : Phys) (op : OutOp) : State × List (Nat × Nat) :=
  if s.ownerDown die p.owner then ((s.logRec vf false ⟨va, 0, 0x43, 0, 0, 0, die, 2⟩).1, [])
  else let x := s.askFor (.dev die) vf 0 va n p op true; (x.1, [(x.2, va)])

/-- Write bytes inside one page of tenant memory for the device: the state, and the tags and addresses of what it waits for. -/
def State.devPut (s : State) (vf die va : Nat) (bs : List Byte) : State × List (Nat × Nat) :=
  match s.devTarget vf die va bs.length with
  | (s1, none) => (s1, [])
  | (s1, some p) =>
    match p.owner with
    | .die _ => (s1.pocPut p.pa bs, [])
    | _ => s1.devSend vf die va bs.length p (.write (bytesNat bs))

/-- Several such writes, in order. -/
def State.devPuts (s : State) (vf die : Nat) (ws : List (Nat × List Byte)) : State × List (Nat × Nat) :=
  ws.foldl (fun x w => let y := x.1.devPut vf die w.1 w.2; (y.1, x.2 ++ y.2)) (s, [])

/-- A physical address as another module names it (R173). -/
def State.farPa (s : State) (pa : Nat) : Nat :=
  match ownerOf pa with
  | .die d => 2 * 2 ^ 53 + s.posI * 2 ^ 43 + s.posJ * 2 ^ 39 + d * 2 ^ 37 + pa % 2 ^ 37
  | _ => pa

/-- Rewrite a member list for the device as one operation at the home of its first line (R152, R274); a list may pass from one
    page to the next. -/
def State.devPutList (s : State) (vf die va : Nat) (bs : List Byte) : State × List (Nat × Nat) :=
  let n := min 832 (65536 - va % 65536)
  if n == 832 then s.devPut vf die va bs
  else
    match s.devTarget vf die va n with
    | (s1, none) => (s1, [])
    | (s1, some p) =>
      match p.owner with
      | .peer .. =>
        (match s1.devTarget vf die (va + n) (832 - n) with
         | (s2, none) => (s2, [])
         | (s2, some q) => s2.devSend vf die va 832 p (.list [(s2.farPa p.pa, n), (s2.farPa q.pa, 832 - n)] [] bs))
      | _ => s1.devPuts vf die [(va, bs.take n), (va + n, bs.drop n)]

/-! ## Extent lists (R151) -/

/-- An extent. -/
structure Extent where
  base : Nat
  start : Nat
  len : Nat
  stride : Nat
deriving DecidableEq, Repr

/-- A valid list: its extents in use, E, and the bytes it was read from. -/
structure KvList where
  exts : List Extent
  e : Nat
  raw : List Byte
deriving DecidableEq, Repr

/-- Extent x of a list's bytes. -/
def extentAt (raw : List Byte) (x : Nat) : Extent :=
  let o := 64 + 32 * x
  ⟨fieldOf raw o 8, fieldOf raw (o + 8) 8, fieldOf raw (o + 16) 8, fieldOf raw (o + 24) 4⟩

/-- Whether extents follow one another from a position on and meet their limits; the answer is the position after. -/
def extentsEnd : Nat → List Extent → Option Nat
  | p, [] => some p
  | p, x :: r =>
    if x.base % 64 == 0 && x.start == p && 1 ≤ x.len && x.stride != 0 && x.stride % 64 == 0 then
      extentsEnd (p + x.len) r
    else none

/-- The list in 832 bytes; none where it is invalid. -/
def parseKv (raw : List Byte) : Option KvList :=
  let zero := fun (o n : Nat) => fieldOf raw o n == 0
  let n := fieldOf raw 0 1
  let e := fieldOf raw 8 8
  let exts := (List.range n).map (extentAt raw)
  if 16 < n || 16 < fieldOf raw 16 1 || !zero 1 7 || !zero 17 47
      || (List.range 16).any (fun x => !zero (92 + 32 * x) 4) || (List.range 16).any (fun y => !zero (588 + 16 * y) 4)
      || extentsEnd 0 exts != some e then none
  else some ⟨exts, e, raw⟩

/-- Replace bytes of a list at an offset by an n-byte number. -/
def putField (raw : List Byte) (off n v : Nat) : List Byte := patchBytes raw off (natBytes n v)

/-- Write extents from number x on. -/
def putExtents (raw : List Byte) (x : Nat) : List Extent → List Byte
  | [] => raw
  | e :: r =>
    let o := 64 + 32 * x
    putExtents (putField (putField (putField (putField raw o 8 e.base) (o + 8) 8 e.start) (o + 16) 8 e.len) (o + 24) 4
      e.stride) (x + 1) r

/-- The bytes of a list with its extents and E replaced. -/
def KvList.pack (l : KvList) (exts : List Extent) (e : Nat) : List Byte :=
  putExtents (putField (putField l.raw 0 1 exts.length) 8 8 e) 0 exts

/-- The address of the token record of a position. -/
def KvList.map (l : KvList) (p : Nat) : Option Nat :=
  (l.exts.find? fun x => x.start ≤ p && p < x.start + x.len).map fun x => x.base + (p - x.start) * x.stride

/-! ## What KVAP and KVTR do to a list (R153, R154) -/

/-- KVAP: the status, and the new bytes where the list changes. -/
def kvAppend (raw : List Byte) (base len stride : Nat) : Nat × Option (List Byte) :=
  match parseKv raw with
  | none => (4, none)
  | some l =>
    if base % 64 != 0 || len == 0 || stride == 0 || stride % 64 != 0 then (3, none)
    else
      match l.exts.getLast? with
      | some x =>
        if x.stride == stride && x.base + x.len * x.stride == base then
          (1, some (l.pack (l.exts.dropLast ++ [{ x with len := x.len + len }]) (l.e + len)))
        else if l.exts.length == 16 then (2, none)
        else (0, some (l.pack (l.exts ++ [⟨base, l.e, len, stride⟩]) (l.e + len)))
      | none => (0, some (l.pack [⟨base, l.e, len, stride⟩] (l.e + len)))

/-- 64 KiB boundaries. -/
def floor64K (x : Nat) : Nat := x / 65536 * 65536
def ceil64K (x : Nat) : Nat := (x + 65535) / 65536 * 65536

/-- Cut an extent at a position: the tokens kept, and the pages freed. -/
def Extent.cut (x : Extent) (p : Nat) : Nat × Option (Nat × Nat) :=
  let kept := min (p - x.start) x.len
  let old := ceil64K (x.base + x.len * x.stride)
  let keep := if 0 < kept then ceil64K (x.base + kept * x.stride) else floor64K x.base
  (kept, if keep < old then some (keep, (old - keep) / 65536) else none)

/-- Write freed-page records from number y on. -/
def putRecords (raw : List Byte) (y : Nat) : List (Nat × Nat) → List Byte
  | [] => raw
  | r :: rs => putRecords (putField (putField raw (576 + 16 * y) 8 r.1) (584 + 16 * y) 4 r.2) (y + 1) rs

/-- KVTR: the count written to d, and the new bytes where the list changes. -/
def kvTruncate (raw : List Byte) (p : Nat) : Nat × Option (List Byte) :=
  match parseKv raw with
  | none => (0xFFFFFFFF, none)
  | some l =>
    if l.e ≤ p then (0, some (putField raw 16 1 0))
    else
      let cuts := l.exts.map fun x => (x, x.cut p)
      let exts := cuts.filterMap fun c => if c.2.1 == 0 then none else some { c.1 with len := c.2.1 }
      let recs := cuts.filterMap fun c => c.2.2
      (recs.foldl (fun n r => n + r.2) 0 % 2 ^ 32,
        some (putRecords (putField (l.pack exts p) 16 1 recs.length) 0 recs))

/-! ## The access to a list (R152) -/

/-- Whether an address is that of a list of the sequence a terrace is bound to: LISTS as it stands in the entry, or, of an entry
    that another module or the host owns, as the device last read it (DESIGN CHOICE, log entry 26). -/
def State.ownList (s : State) (t : Terrace) (va : Nat) : Bool :=
  match t.gang.bind s.gang? with
  | none => false
  | some g =>
    let lists := (s.devNat t.vf (dieOf t.core) (g.entry + 8) 8).getD g.lists
    lists ≤ va && va < lists + 832 * 64

/-- A part of a list that one page holds: its offset in the list, its length and its translation. -/
structure ListPart where
  off : Nat
  len : Nat
  q : Reach
deriving DecidableEq, Repr

/-- The parts of a list, for an access of a split, each on a page of the right class without FMT (R151, R152): one, or two
    where the list passes from one page of 64 KiB to the next. A write to the record line of a live bounded counter is a
    violation (R338). -/
def State.listParts (s : State) (c : Ctx) (write : Bool) (va : Nat) : State × Except (Nat × Nat) (List ListPart) :=
  if !(isGlobal va && isGlobal (va + 831)) then (s, .error (codeViolation, va))
  else
    let n := min 832 (65536 - va % 65536)
    let segs := (0, n) :: (if n < 832 then [(n, 832 - n)] else [])
    segs.foldl (fun (x : State × Except (Nat × Nat) (List ListPart)) g =>
      match x.2 with
      | .error _ => x
      | .ok ps =>
        match x.1.reach c.t c.die (some c.t.core) ⟨write, false, c.sp.supervisor⟩ (va + g.1) with
        | (s1, .error e) => (s1, .error (e.code, va + g.1))
        | (s1, .ok q) =>
          let good := (q.ph.leaf.cls == clsUntracked || q.ph.leaf.cls == clsUpdate) && !q.ph.leaf.fmt
          let live := write && (linesOf q.ph.pa g.2).any fun l => s1.liveRecord (l * 64)
          if !good || live then (s1, .error (codeViolation, va + g.1)) else (s1, .ok (ps ++ [⟨g.1, g.2, q⟩])))
      (s, .ok [])

/-- A list in two parts whose first line a peer owns: that home performs its accesses (R152). -/
def wholeAway : List ListPart → Option ListPart
  | [p, _] => (match p.q.ph.owner with | .peer .. => some p | _ => none)
  | _ => none

/-- The pieces of a list as a request names them. -/
def State.listSegs (s : State) (ps : List ListPart) : List (Nat × Nat) := ps.map fun p => (s.farPa p.q.ph.pa, p.len)

/-- The core's own copies of a list's lines leave its L1: the access reads and writes the point of coherence (R176, R221). -/
def State.dropList (s : State) (c : Ctx) (p : ListPart) : State :=
  (linesOf p.q.ph.pa p.len).foldl (fun s l => s.l1DropPa c.t.core c.t.vf (l * 64)) s

/-- The bytes of a list's parts, in order: at once on this module, by requests elsewhere. -/
def State.listRead (s : State) (c : Ctx) (va : Nat) (parts : List ListPart) : State × List OutRead × DevGot :=
  match wholeAway parts with
  | some p =>
    (match s.outGetBy (.list (s.listSegs parts) [] []) c.sp.gets (.core c.t.core) c.t.vf c.t.launch va 832 p.q.ph with
     | (s1, g, .val v) => (s1, g, .bytes (natBytes 832 v))
     | (s1, g, .err code) => (s1, g, .fail code va)
     | (s1, g, .wait) => (s1, g, .wait))
  | none =>
  parts.foldl (fun (x : State × List OutRead × DevGot) p =>
    let ph := p.q.ph
    let join := fun (bs : List Byte) => match x.2.2 with | .bytes r => DevGot.bytes (r ++ bs) | r => r
    let fail := fun (code : Nat) => match x.2.2 with | .fail a b => DevGot.fail a b | _ => .fail code (va + p.off)
    match ph.owner with
    | .die _ =>
      let m := x.1.meetPage c.t.core c.t.vf ph p.len
      if m.2 then (m.1, x.2.1, fail 0x16)
      else ((m.1.enter c.t.vf c.die (va + p.off) p.q).dropList c p, x.2.1, join (m.1.rdBytes ph.pa p.len))
    | _ =>
      match x.1.outGet x.2.1 (.core c.t.core) c.t.vf c.t.launch (va + p.off) p.len ph with
      | (s1, g, .val v) => (s1, g, join (natBytes p.len v))
      | (s1, g, .err code) => (s1, g, fail code)
      | (s1, g, .wait) => (s1, g, match x.2.2 with | .fail a b => .fail a b | _ => .wait)) (s, c.sp.gets, .bytes [])

/-- The first request of an instruction's reads that is not answered. -/
def firstOpen (gets : List OutRead) : Nat := match gets.find? fun g => g.got.isNone with | some g => g.tag | none => 0

/-- Keep what an instruction that waits reads outside the module. -/
def State.keepGets (s : State) (c : Ctx) (gets : List OutRead) : State := s.updSplit c.uid c.sid fun x => { x with gets := gets }

/-- Whether a part of a list stands outside the module. -/
def ListPart.away (p : ListPart) : Bool := match p.q.ph.owner with | .die _ => false | _ => true

/-- A list of this module that waits for a part elsewhere is held: its first line (R152). -/
def listLock (ps : List ListPart) : Option Nat :=
  match ps with
  | [p, q] => if !p.away && q.away then some (p.q.ph.pa / 64) else none
  | _ => none

/-- Whether the instruction of another split holds the list of a first line, or a request of another module does. -/
def State.listHeld (s : State) (uid sid line : Nat) : Bool :=
  (s.lists.any fun h => h.line == line) || s.ters.any fun t => t.splits.any fun x => x.list == some line && x.held.isSome && (t.uid, x.sid) != (uid, sid)

/-- Whether an instruction's list is held by another. -/
def State.listBusy (s : State) (c : Ctx) (ps : List ListPart) : Bool :=
  match ps with
  | p :: _ => !p.away && s.listHeld c.uid c.sid (p.q.ph.pa / 64)
  | [] => false

/-- An instruction waits for a part of its list. -/
def State.holdList (s : State) (c : Ctx) (ps : List ListPart) : State :=
  match listLock ps with
  | some l => s.updSplit c.uid c.sid fun x => { x with list := some l }
  | none => s

/-- It holds its list no more. -/
def State.freeList (s : State) (c : Ctx) : State :=
  if c.sp.list.isSome then s.updSplit c.uid c.sid fun x => { x with list := none } else s

/-- What becomes of an instruction once it has the bytes of the list. -/
abbrev ListUse := State → List ListPart → List Byte → Res

/-- Get a list's bytes for an instruction of a split: at once on this module, by requests elsewhere. -/
def withList (write : Bool) (va : Nat) (use : ListUse) (s : State) (c : Ctx) : Res :=
  if va % 64 != 0 then .trap s (.illegalOperand c.pc) false
  else if c.scope == 7 && !s.sysScope c.t.vf then .trap s (.whole codeViolation va) false
  else if s.gated c.t && (c.scope == 5 || s.ownList c.t va) then .stay
  else
    match s.listParts c write va with
    | (s1, .error e) => .trap s1 (.whole e.1 e.2) false
    | (s1, .ok ps) =>
      let e := Eng.ofTer c.t c.sp.supervisor s1.fresh
      if write && !s.released c.t c.scope c.ord then .wait s (.released c.scope c.ord)
      else if ps.any fun p => s1.engBusy e true p.q.ph.pa p.len then .wait s (.before s.fresh)
      else if s1.listBusy c ps then .stay
      else
        match s1.listRead c va ps with
        | (s2, g, .wait) => .wait ((s2.keepGets c g).holdList c ps) (.outside (firstOpen g))
        | (s2, _, .fail code a) => .trap s2 (.whole code a) false
        | (s2, _, .bytes bs) => use s2 ps bs

/-- Write the parts of a list that stand on this module; the core's own copies of its lines leave the L1. -/
def State.putList (s : State) (c : Ctx) (ps : List ListPart) (bs : List Byte) : State :=
  (ps.filter fun p => !p.away).foldl (fun s p =>
    let ph := p.q.ph
    let s := s.bindOver c.uid s.fresh (engReq 0 ph.pa p.len (some ph) 0)
    ((linesOf ph.pa p.len).foldl (fun s l =>
        s.pocWrite (l * 64) ((bs.drop (p.off + (l * 64 - ph.pa))).take 64)) s).dropList c p) s

/-- Write a list that was read as `old`. What of it stands outside the module is exchanged there for the new bytes where it
    still is what was read, and the whole read again where it is not, so that the update is one indivisible operation (R152):
    the whole list at a peer that owns its first line; else the part outside, while this module holds the list (DEDUCED, log
    entry 26). -/
def State.exchange (s : State) (c : Ctx) (va : Nat) (ps : List ListPart) (old new : List Byte) (fin : State → Res) : Res :=
  let whole := wholeAway ps
  let slice := fun (p : ListPart) (bs : List Byte) =>
    if whole.isSome then bytesNat bs else bytesNat ((bs.drop p.off).take p.len)
  let rest := fun (s : State) =>
    if whole.isSome then s
    else ((ps.filter ListPart.away).drop 1).foldl (fun s p =>
      (s.askFor (.core c.t.core) c.t.vf c.t.launch (va + p.off) p.len p.q.ph (.write (slice p new)) false).1) (s.putList c ps new)
  match ps.find? ListPart.away with
  | none => fin (s.putList c ps new)
  | some p =>
    match c.sp.kept with
    | some (2, tag) =>
      (match s.takeAnswer tag with
       | none => .wait s (.outside tag)
       | some (s1, .err code) => .trap s1 (.whole code (va + p.off)) false
       | some (s1, .val v) =>
         if v == slice p old then fin (rest s1)
         else .wait (s1.updSplit c.uid c.sid fun x => { x with kept := none, gets := [] }) (.cycle (c.now + 1)))
    | _ =>
      let x := if whole.isSome then
          s.askFor (.core c.t.core) c.t.vf c.t.launch va 832 p.q.ph (.list (s.listSegs ps) old new) true
        else s.askFor (.core c.t.core) c.t.vf c.t.launch (va + p.off) p.len p.q.ph (.cas [(slice p old, slice p new)]) true
      .wait ((x.1.updSplit c.uid c.sid fun y => { y with kept := some (2, x.2) }).holdList c ps) (.outside x.2)

/-- KVAP and KVTR: `f` gives the status and the new list. -/
def kvUpdate (d : Dst) (va : Nat) (f : List Byte → Nat × Option (List Byte)) (s : State) (c : Ctx) : Res :=
  if c.t.divided then .trap s (.illegalOperand c.pc) false
  else if c.active == 0 then .done s none
  else
    withList true va (fun s ps bs =>
      let r := f bs
      let fin := fun (s : State) => Res.done (s.updTer c.uid fun t => t.writeDst d false c.active fun _ => [BitVec.ofNat 32 r.1]) none
      match r.2 with
      | some new => s.exchange c va ps bs new fin
      | none => fin s) s c

/-- KVAP (R153). -/
def execKvap (d : Dst) (a b : Nat) (s : State) : Host.Outcome State Fault Refusal :=
  issue (.kvap d a b) (fun s c =>
    kvUpdate d (c.src64 (.s a) 0) (fun bs =>
      kvAppend bs (c.src64 (.s b) 0) (c.rt.sget (b + 2)).toNat (c.rt.sget (b + 3)).toNat) s c) s

/-- KVTR (R154). -/
def execKvtr (d : Dst) (a b : Nat) (s : State) : Host.Outcome State Fault Refusal :=
  issue (.kvtr d a b) (fun s c =>
    kvUpdate d (c.src64 (.s a) 0) (fun bs => kvTruncate bs (c.src64 (.s b) 0)) s c) s

/-- The offset of the 32 bytes an index of KVRD names (R155). -/
def kvOffset (x : Nat) : Option Nat :=
  if x ≤ 15 then some (64 + 32 * x) else if x == 16 then some 0 else if x ≤ 32 then some (576 + 16 * (x - 17)) else none

/-- KVRD (R155): an acquire at SCOPE follows the read. -/
def execKvrd (d : Dst) (a : Nat) (b : Src) (s : State) : Host.Outcome State Fault Refusal :=
  issue (.kvrd d a b) (fun s c =>
    if c.active == 0 then .done s none
    else
    match kvOffset (c.uni b) with
    | none => .trap s (.illegalOperand c.pc) false
    | some o =>
      withList false (c.src64 (.s a) 0) (fun s _ bs =>
        let ws := (List.range 8).map fun j => BitVec.ofNat 32 (fieldOf bs (o + 4 * j) 4)
        .done ((s.acquire c.t c.scope).updTer c.uid fun t => t.writeDst d false c.active fun _ => ws) none) s c) s

end Sys2Proof.Machine
end

