-- ==== Sys2Proof/Machine/Cross.lean ====
section
/-! DEFINITION. Landings of staged writes and their conflicts (R247, R250, R251), early crossings (R248), and CROSS,
CROSSA, CROSSW and PHASE (R252 to R255). -/

namespace Sys2Proof.Machine

/-! ## Conflict rules (R251) -/

/-- One terrace's bytes of a line at a landing, with its rank key. -/
structure Writer where
  rank : Nat
  core : Nat
  terno : Nat
  ter : Nat
  bytes : List (Nat × Byte)
  types : List (Nat × Nat)
deriving DecidableEq, Repr

/-- Whether a rank key is lower than another. -/
def Writer.lt (a b : Writer) : Bool :=
  a.rank < b.rank || (a.rank == b.rank && (a.core < b.core || (a.core == b.core && a.terno < b.terno)))

/-- Insert a writer by its key. -/
def insertWriter (x : Writer) : List Writer → List Writer
  | [] => [x]
  | y :: ys => if x.lt y then x :: y :: ys else y :: insertWriter x ys

/-- Add an entry's bytes to those of its terrace; a later entry's bytes replace an earlier one's. -/
def addEntry (ws : List Writer) (e : Staged) : List Writer :=
  let put := fun {β : Type} (m : List (Nat × β)) (x : Nat × β) => kins x.1 x.2 (kdel m x.1)
  match ws.find? fun w => w.ter == e.ter with
  | some w =>
    ws.map fun x => if x.ter = e.ter then
      { w with rank := e.rank, bytes := e.bytes.foldl put w.bytes, types := e.types.foldl put w.types } else x
  | none => ws ++ [⟨e.rank, e.core, e.terno, e.ter, e.bytes, e.types⟩]

/-- The writers of a line in ascending keys; `es` is the line's entries, newest first. -/
def writersOf (es : List Staged) : List Writer := (es.reverse.foldl addEntry []).foldr insertWriter []

/-- Whether a writer staged some byte of a range. -/
def Writer.has (w : Writer) (off n : Nat) : Bool := w.bytes.any fun b => off ≤ b.1 && b.1 < off + n

/-- A writer's byte. -/
def Writer.byte? (w : Writer) (off : Nat) : Option Byte := (w.bytes.find? fun b => b.1 == off).map (·.2)

/-- The word a writer staged, its missing bytes from the last landing. -/
def Writer.word (w : Writer) (old : List Byte) (off : Nat) : Nat :=
  bytesNat ((List.range 4).map fun i => (w.byte? (off + i)).getD (old.getD (off + i) 0))

/-- Fold the values of a conflict under MIN, MAX or SUM in a recorded type. -/
def foldWord (srule ty x y : Nat) : Nat :=
  if tyInt ty then
    match srule with
    | 1 => wrapTo 32 (min (intOf ty x) (intOf ty y))
    | 2 => wrapTo 32 (max (intOf ty x) (intOf ty y))
    | _ => (x + y) % 2 ^ 32
  else
    match srule with
    | 1 => roundToType ty 0 0 false (Xr.minmax false (valueOf ty x) (valueOf ty y))
    | 2 => roundToType ty 0 0 false (Xr.minmax true (valueOf ty x) (valueOf ty y))
    | _ => roundToType ty 0 0 false (Xr.add false (valueOf ty x) (valueOf ty y))

/-- The value of a conflicting word or block at an offset, or none where it is resolved under FAULT. -/
def resolve (srule : Nat) (fmt : Bool) (ws : List Writer) (old : List Byte) (off n : Nat) : Option (List Byte) :=
  if srule == 0 then
    let src := if fmt then (ws.getLast?).toList else ws.reverse
    some ((List.range n).map fun i => ((src.findSome? fun w => w.byte? (off + i))).getD (old.getD (off + i) 0))
  else if srule == 4 || fmt then none
  else
    let tyOf := fun (w : Writer) => kget 0 w.types (off / 4)
    match ws with
    | [] => none
    | w :: r =>
      if r.any fun x => tyOf x != tyOf w then none
      else some (natBytes 4 (r.foldl (fun v x => foldWord srule (tyOf w) v (x.word old off)) (w.word old off)))

/-! ## Landings (R250) -/

/-- A writer's bytes of a range, by their place in the line. -/
def Writer.sole (w : Writer) (off n : Nat) : List (Nat × Byte) :=
  (List.range n).filterMap fun i => (w.byte? (off + i)).map fun b => (off + i, b)

/-- Whether the resolution of a conflict takes bytes of the last landing: some writer has not staged all of it. -/
def needsOld (who : List Writer) (off n : Nat) : Bool := who.any fun w => (List.range n).any fun i => (w.byte? (off + i)).isNone

/-- What the landing of one word, or one block of an FMT page, comes to: the bytes that land, by their place; a conflict
    resolved under FAULT; or one that takes bytes of the last landing which cannot be read, so that the staged bytes land in
    ascending rank keys (R417; DEDUCED, log entry 27). -/
inductive Landed where
  | bytes (bs : List (Nat × Byte))
  | conflict
  | lost (bs : List (Nat × Byte))
deriving DecidableEq, Repr

/-- The bytes that land. -/
def Landed.put : Landed → List (Nat × Byte)
  | .bytes bs | .lost bs => bs
  | .conflict => []

/-- Land one word or block of a line's writers: `old` are the line's bytes as of the last landing, none where they cannot be
    read. -/
def landUnit (l : Leaf) (ws : List Writer) (old : Option (List Byte)) (off n : Nat) : Landed :=
  match ws.filter fun w => w.has off n with
  | [] => .bytes []
  | [w] => .bytes (w.sole off n)
  | who =>
    if old.isNone && needsOld who off n then
      .lost (who.foldl (fun m w => (w.sole off n).foldl (fun m b => kins b.1 b.2 (kdel m b.1)) m) [])
    else
      match resolve l.srule l.fmt who (old.getD []) off n with
      | some bs => .bytes (bs.zipIdx.map fun b => (off + b.2, b.1))
      | none => .conflict

/-- The width of the words or blocks of a page's landings. -/
def Leaf.unit (l : Leaf) : Nat := if l.fmt then 64 else 4

/-- Whether the landing of a line takes bytes of the last landing. -/
def takesOld (l : Leaf) (ws : List Writer) : Bool :=
  (List.range (64 / l.unit)).any fun i =>
    let who := ws.filter fun w => w.has (l.unit * i) l.unit
    1 < who.length && needsOld who (l.unit * i) l.unit

/-- Bytes by ascending place, as runs of neighbours. -/
def runsOf : List (Nat × Byte) → List (Nat × List Byte)
  | [] => []
  | (x, b) :: r =>
    match runsOf r with
    | (y, bs) :: rs => if y == x + 1 then (x, b :: bs) :: rs else (x, [b]) :: (y, bs) :: rs
    | [] => [(x, [b])]

/-- Whether a physical address lies outside the module. -/
def isAway (pa : Nat) : Bool := match ownerOf pa with | .die _ => false | _ => true

/-- Who sends the writes of an entry's landing: its core, or the device at die 0 for an entry of another module. -/
def Staged.sender (e : Staged) : Sender := if e.ter < 2 ^ 40 then .core e.core else .dev 0

/-- The die whose records name an entry's line: its home, else its sender's. -/
def Staged.home (e : Staged) : Nat := match ownerOf (e.pa * 64) with | .die d => d | _ => e.sender.die

/-- The page of an entry at a physical address. -/
def Staged.page (e : Staged) (pa : Nat) : Phys := ⟨pa, e.leaf, ownerOf pa, false⟩

/-- What a landing of entries reads outside the module, with the entry it is for, its virtual and physical address and its
    length: the entries that stand in an overflow area there, and the lines whose conflicts take bytes of the last landing. -/
def landNeeds (es : List Staged) : List (Staged × Nat × Nat × Nat) :=
  (es.filterMap fun e => match e.spill with
    | some (pa, _, va) => if isAway pa then some (e, va, pa, 128) else none
    | none => none)
  ++ ((es.map (·.pa)).eraseDups.filterMap fun l =>
    let mine := es.filter fun e => e.pa == l
    match mine with
    | e :: _ => if isAway (l * 64) && takesOld e.leaf (writersOf mine) then some (e, e.line * 64, l * 64, 64) else none
    | [] => none)

/-- Make those reads: the answer is whether one has still to come. -/
def State.landReads (s : State) (gets : List OutRead) (es : List Staged) : State × List OutRead × Bool :=
  (landNeeds es).foldl (fun (x : State × List OutRead × Bool) r =>
    match x.1.outGet x.2.1 r.1.sender r.1.vf r.1.launch r.2.1 r.2.2.2 (r.1.page r.2.2.1) with
    | (s, g, .wait) => (s, g, true)
    | (s, g, _) => (s, g, x.2.2)) (s, gets, false)

/-- The bytes that a read outside the module has brought; none where it failed. -/
def gotBytes (gets : List OutRead) (pa n : Nat) : Option (List Byte) :=
  match (gets.find? fun g => g.pa == pa && g.len == n).bind (·.got) with
  | some (.val v) => some (natBytes n v)
  | _ => none

/-- Whether an entry fails its check at a landing (R247). -/
def State.failsCheck (s : State) (gets : List OutRead) (e : Staged) : Bool :=
  s.entryBad e || (match e.spill with | some (pa, _) => isAway pa && gotBytes gets pa 128 != some e.image | none => false)

/-- A landing's write of bytes of a line, as one write: at once on this module, by a request elsewhere, whose answer the
    landing's end waits for; one that a link which is down keeps back is abandoned (R414). -/
def State.landPut (s : State) (e : Staged) (off : Nat) (bs : List Byte) : State × List (Nat × Nat) :=
  let pa := e.pa * 64 + off
  let va := e.line * 64 + off
  match ownerOf pa with
  | .die _ => (s.pocWrite pa bs, [])
  | o =>
    if s.ownerDown e.sender.die o then
      (((s.logRec e.vf false ⟨va, 0, 0x43, 0, 0, 0, e.sender.die, 2⟩).1).markError e.launch, [])
    else
      let x := s.askFor e.sender e.vf e.launch va bs.length (e.page pa) (.write (bytesNat bs)) true
      (x.1, [(x.2, va)])

/-- Land one line, given its entries, newest first: the state, the conflicts resolved under FAULT, and its writes that are not
    answered. -/
def State.landLine (s : State) (gets : List OutRead) (es : List Staged) : State × Nat × List (Nat × Nat) :=
  match es with
  | [] => (s, 0, [])
  | e :: _ =>
    let ws := writersOf es
    let n := e.leaf.unit
    let m := if !isAway (e.pa * 64) && takesOld e.leaf ws then s.meetMem e.vf (e.pa * 64) 64 else (s, false)
    let old := if isAway (e.pa * 64) then gotBytes gets (e.pa * 64) 64
      else if m.2 then none else some (m.1.rdBytes (e.pa * 64) 64)
    let us := (List.range (64 / n)).map fun i => (n * i, landUnit e.leaf ws old (n * i) n)
    let s1 := us.foldl (fun s u =>
      let log := fun (code : Nat) => (s.logRec e.vf (logBoth code) ⟨e.line * 64 + u.1, 0, code, 0, 0, 0, e.home, 2⟩).1
      match u.2 with
      | .conflict => log 0x44
      | .lost _ => (log 0x16).markError e.launch
      | .bytes _ => s) m.1
    let w := (us.flatMap fun u => runsOf u.2.put).foldl (fun (x : State × List (Nat × Nat)) r =>
      let y := x.1.landPut e r.1 r.2; (y.1, x.2 ++ y.2)) (s1, [])
    (w.1, (us.filter fun u => u.2 == .conflict).length, w.2)

/-- Steps 1 to 3 of R250 for entries of this module and of others, newest first, whose reads outside the module have come: the
    state, the conflicts resolved under FAULT, and the writes outside that are not answered. -/
def State.land (s : State) (gets : List OutRead) (es : List Staged) : State × Nat × List (Nat × Nat) :=
  let s1 := { s with staged := s.staged.filter fun e => !es.contains e }
  let good := es.filter fun e => !s.failsCheck gets e
  let s2 := (es.filter (s.failsCheck gets)).foldl (fun s e => s.dropEntry e) (es.foldl (fun s e => s.freeSpill e) s1)
  (good.map (·.pa)).eraseDups.foldl (fun (x : State × Nat × List (Nat × Nat)) l =>
    let y := x.1.landLine gets (good.filter fun e => e.pa == l)
    (y.1, x.2.1 + y.2.1, x.2.2 ++ y.2.2)) (s2, 0, [])

/-! ## Domains over several modules

A launch or a gang of this module leads its crossings: participants elsewhere send their arrivals and their staged writes here,
and learn from here what has landed. The spec publishes none of these messages: the model's own (DESIGN CHOICE, log entry
54). -/

/-- The dies of other modules that take part in a domain, one for each module, as mesh coordinates. -/
def State.partners (s : State) (k : DomKey) : List Nat :=
  s.otherMods (match k with
    | .gang g => (match s.gang? g with | some x => x.members | none => [])
    | .launch l =>
      (match s.launch? l with
       | some x => if x.remote == 0 then [] else (x.d.rect.filter fun c => !x.spare.contains c).map coordOf
       | none => [])
    | _ => [])

/-- The virtual function of a domain. -/
def State.domVf (s : State) (k : DomKey) : Nat :=
  match k with
  | .launch l | .phase l _ => ((s.launch? l).map (·.vf)).getD 0
  | .gang g => ((s.gang? g).map (·.vf)).getD 0
  | .solo u => ((s.ter? u).map (·.vf)).getD 0

/-- The launch of a domain. -/
def State.domLaunch (s : State) (k : DomKey) : Nat :=
  match k with
  | .launch l | .phase l _ => l
  | .gang g => ((s.gang? g).map (·.launch)).getD 0
  | .solo _ => 0

/-- A management flit from die 0 to a die of another module. -/
def State.sendMgmt (s : State) (vf c : Nat) (op : FabOp) : State :=
  s.crossFab 0 none ⟨4, 0, c, s.dieCoord 0, (s.tenant vf).tid, 0, op, true⟩

/-- The other modules of a domain learn what has landed (R250, R253, R274). -/
def State.tellLanded (s : State) (k : DomKey) (cs : List Nat) : State :=
  let d := s.dom k
  let v := match k with | .gang g => s.gang? g | _ => none
  cs.foldl (fun s c => s.sendMgmt (s.domVf k) c
    (.landed k d.count d.crossings d.nconf d.early ((v.map (·.view)).getD 0) ((v.map (·.members)).getD []))) s

/-- A line of staged bytes that another module has sent for a landing, as an entry (R250). -/
def State.entryOfPart (s : State) (k : DomKey) (p : StagedPart) : Staged :=
  let pa := match ownerOf (p.pa * 64) with
    | .peer i j d => if i == s.posI && j == s.posJ then (d * 2 ^ 37 + p.pa * 64 % 2 ^ 37) / 64 else p.pa
    | _ => p.pa
  ⟨k, (s.dom k).crossings, s.domVf k, p.core, 0, 2 ^ 40 + (p.rank * 1024 + p.core) * 64 + p.terno, p.terno, p.rank, s.domLaunch k, p.line,
    pa, { leafOf 0 with cls := clsStaged, sgrp := 1, srule := p.srule, fmt := p.fmt }, p.bytes, p.types, none, true, [], false, 0⟩

/-! ## Early crossings (R248) -/

/-- An early crossing's writes are made and answered: the boundary count rises. -/
def State.earlyDone (s : State) (k : DomKey) (n : Nat) : State :=
  let d := s.dom k
  (s.setDom k { d with
    count := (d.count + d.calls) % 2 ^ 32, early := d.early + if n == 0 then 0 else 1, landing := .idle, gets := [], acks := [],
    calls := 0, given := [] }).tellLanded k (s.partners k)

/-- An early crossing lands, every other module's staged writes having come; what it waits for outside the module keeps it. -/
def State.earlyLand (s : State) (k : DomKey) : State :=
  let d := s.dom k
  let es := (s.staged.filter fun e => e.dom == k && e.called) ++ d.given
  match s.landReads d.gets es with
  | (s1, gets, true) => s1.setDom k { s1.dom k with landing := .reading true, gets := gets }
  | (s1, gets, false) =>
    let r := s1.land gets es
    if r.2.2.isEmpty then r.1.earlyDone k es.length
    else r.1.setDom k { r.1.dom k with landing := .called es.length, gets := [], acks := r.2.2 }

/-- An early crossing of a domain is asked for: the writes that this module holds are marked for it, the other modules but
    `from_` are asked for theirs, and where nothing has to come it lands at once. -/
def State.callEarly (s : State) (k : DomKey) (from_ : Option Nat) : State :=
  let cs := (s.partners k).filter fun c => some (moduleOf c) != from_
  let d := s.dom k
  let s1 := { s.setDom k { d with calls := d.calls + 1, called := (d.called ++ cs.map moduleOf).eraseDups } with
    staged := s.staged.map fun e => if e.dom = k then { e with called := true } else e }
  let s2 := cs.foldl (fun s c => s.sendMgmt (s.domVf k) c (.gather k)) s1
  if (s2.dom k).called.isEmpty && d.landing == .idle then s2.earlyLand k else s2

/-- An early crossing of a domain (R248): every write held lands and the count rises. -/
def State.earlyCross (s : State) (k : DomKey) : State := s.callEarly k none

/-! ## CROSS, CROSSA, CROSSW and PHASE (R252 to R254) -/

/-- The scope of arrival and departure of a domain (R245). -/
def domScope : DomKey → Nat
  | .phase .. => 4
  | .gang _ => 5
  | .launch _ | .solo _ => 6

/-- The early crossings of a domain that a terrace has seen. -/
def Terrace.earlySeen (t : Terrace) (k : DomKey) : Nat :=
  match k with | .phase .. => t.phaseEarly | .gang _ => t.gangEarly | _ => t.crossEarly

/-- A terrace has seen the early crossings up to a number. -/
def Terrace.seeEarly (t : Terrace) (k : DomKey) (n : Nat) : Terrace :=
  match k with
  | .phase .. => { t with phaseEarly := n } | .gang _ => { t with gangEarly := n } | _ => { t with crossEarly := n }

/-- A terrace has arrived n times. -/
def Terrace.setArrivals (t : Terrace) (k : DomKey) (n : Nat) : Terrace :=
  match k with
  | .phase .. => { t with phaseArr := n } | .gang _ => { t with gangArr := n } | _ => { t with crossArr := n }

/-- The crossing status (R253). -/
def crossStatus (nconf : Nat) (early : Bool) : Nat :=
  (if nconf == 0 then 0 else 2 ^ 31) + (if early then 2 ^ 30 else 0) + min nconf 0xFFFF

/-- The end of a departure: the acquire, the status, and the stage-conflict trap where nothing takes it (R254). -/
def departEnd (d : Dst) (st scope : Nat) (s : State) (c : Ctx) : Res :=
  let s := s.acquire c.t scope
  if 2 ^ 31 ≤ st && d == .none then .trap s ⟨0x1A, 0, false, true, none, c.pc.toNat⟩ true
  else .done (s.updTer c.uid fun t => t.writeDst d false c.active fun _ => [BitVec.ofNat 32 st]) none

/-- The departure of CROSSW, CROSS and PHASE; `arr` is the terrace's arrivals in the domain. -/
def depart (d : Dst) (phase : Bool) (k : DomKey) (arr : Nat) (s : State) (c : Ctx) : Res :=
  let wait := fun (w : Wait) => Res.wait (if c.sp.kept.isSome || (match c.i with | .crossw _ => true | _ => false) then s
    else s.keep c 1 arr) w
  match if phase then none else c.t.parted with
  | some st =>
    if !s.returnedAll c.t 6 c.ord then wait (.returned 6 c.ord)
    else departEnd d st 6 (s.updTer c.uid fun t => { t with parted := none }) c
  | none =>
    let x := s.dom k
    if arr == 0 then .done (s.updTer c.uid fun t => t.writeDst d false c.active fun _ => [0]) none
    else if x.crossings < arr then wait (.crossing k (arr - 1))
    else if !s.returnedAll c.t (domScope k) c.ord then wait (.returned (domScope k) c.ord)
    else
      departEnd d (crossStatus x.nconf (c.t.earlySeen k < x.early)) (domScope k)
        (s.updTer c.uid fun t => t.seeEarly k x.early) c

/-- Whether a copy command of the terrace into STAGED pages of a domain has neither finished nor stopped (R249). -/
def State.copyOpen (s : State) (t : Terrace) (k : DomKey) : Bool :=
  s.cmds.any fun m => m.ter == t.uid && m.fault.isNone && s.cmdStaged t m k

/-- An arrival of the members of R252 that make one; `dep` says that a departure follows. -/
def arrive (d : Dst) (phase dep : Bool) (s : State) (c : Ctx) : Res :=
  let k := c.t.domain (if phase then 0 else 1)
  let a := c.t.arrivals k
  let x := s.dom k
  if x.crossings < a then .wait s (.crossing k (a - 1))
  else if s.copyOpen c.t k then .wait s (.copies k)
  else if !s.released c.t (domScope k) c.ord then .wait s (.released (domScope k) c.ord)
  else
    let s1 := (s.setDom k { x with started := max x.started (a + 1) }).updTer c.uid fun t =>
      { t.setArrivals k (a + 1) with parted := if phase then t.parted else none }
    if dep then depart d phase k (a + 1) s1 { c with t := { c.t with parted := none } }
    else .done (s1.updTer c.uid fun t => t.writeDst d false c.active fun _ => [BitVec.ofNat 32 a]) none

/-- CROSS and PHASE: an arrival made is not made again (R254). -/
def crossing (d : Dst) (phase : Bool) (s : State) (c : Ctx) : Res :=
  if c.t.divided then .trap s (.illegalOperand c.pc) false
  else
    match c.sp.kept with
    | some (_, a) => depart d phase (c.t.domain (if phase then 0 else 1)) a s c
    | none => arrive d phase true s c

/-- CROSS (R252, R254). -/
def execCross (d : Dst) (s : State) : Host.Outcome State Fault Refusal := issue (.cross d) (crossing d false) s

/-- PHASE (R252, R254). -/
def execPhase (d : Dst) (s : State) : Host.Outcome State Fault Refusal := issue (.phase d) (crossing d true) s

/-- CROSSA (R252, R254). -/
def execCrossa (d : Dst) (s : State) : Host.Outcome State Fault Refusal :=
  issue (.crossa d) (fun s c =>
    if c.t.divided then .trap s (.illegalOperand c.pc) false else arrive d false false s c) s

/-- CROSSW (R252, R254). -/
def execCrossw (d : Dst) (s : State) : Host.Outcome State Fault Refusal :=
  issue (.crossw d) (fun s c =>
    if c.t.divided then .trap s (.illegalOperand c.pc) false
    else let k := c.t.domain 1; depart d false k (c.t.arrivals k) s c) s

end Sys2Proof.Machine
end

