-- ==== Sys2Proof/Machine/Gangs.lean ====
section
/-! DEFINITION. Gangs (R267 to R285): the sequence table entry, binding, the width-changing crossing, the event
CROSSING_COMPLETION, and GSET, GWID, GVIEW and GRANK. -/

namespace Sys2Proof.Machine

/-! ## The entry (R267, R268) -/

/-- The fields of an entry that the device reads from memory. -/
structure SeqEntry where
  width : Nat
  lc : Nat
  view : Nat
  lists : Nat
  store : Nat
  span : Nat
  rst : Nat
  members : List Nat
deriving DecidableEq, Repr

/-- The fields of an entry's 256 bytes. -/
def entryOf (bs : List Byte) : SeqEntry :=
  let f := fieldOf bs
  ⟨f 0 1, f 2 1, f 4 4, f 8 8, f 16 8, f 24 4, f 28 4, (List.range (f 0 1)).map fun r => f (64 + 2 * r) 2⟩

/-- The limits of LISTS, STORE, SPAN and RST. -/
def SeqEntry.placesOk (e : SeqEntry) : Bool :=
  e.lists % 64 == 0 && e.store % 64 == 0 && e.span % 64 == 0 && e.rst % 64 == 0 && 64 ≤ e.rst

/-- Whether a coordinate is well formed and lies in a launch's rectangle. -/
def Desc.holdsCoord (d : Desc) (c : Nat) : Bool :=
  c % 256 < 32 && c / 256 < 32 && d.rect.contains (c % 256, c / 256)

/-- A valid entry (R268). -/
def entryValid (d : Desc) (bs : List Byte) : Bool :=
  let e := entryOf bs
  1 ≤ e.width && e.width ≤ 64 && e.lc ≤ 5 && fieldOf bs 1 1 == 0 && fieldOf bs 56 8 == 0 && fieldOf bs 192 64 == 0
    && e.placesOk && e.members.all d.holdsCoord && e.members.eraseDups.length == e.members.length

/-- The chunk length of a code. -/
def chunkLen (lc : Nat) : Nat := 2 ^ (lc + 1)

/-- LocalPos of R269. -/
def localPos (l t w : Nat) : Nat := t / l / w * l + t % l

/-- StoreAddr of R270. -/
def SeqEntry.addr (e : SeqEntry) (r p : Nat) : Nat := e.store + r * e.span + p * e.rst

/-- Own of R270: the tokens a rank holds of P at a width. -/
def ownTokens (l p r w : Nat) : Nat :=
  (List.range ((p + l - 1) / l)).foldl (fun n c => if c % w == r then n + min l (p - c * l) else n) 0

/-! ## Participants (R245) -/

/-- The terraces of the module that take part in a domain. -/
def State.participants (s : State) (k : DomKey) : List Terrace :=
  s.ters.filter fun t => match k with
    | .phase l d => t.launch == l && dieOf t.core == d
    | .launch l => t.launch == l && t.gang.isNone
    | .gang g => t.gang == some g
    | .solo u => t.uid == u

/-- Whether every participant of a domain has arrived at its next crossing, and there is one that has (R254). -/
def State.allArrived (s : State) (k : DomKey) : Bool :=
  let d := s.dom k
  (d.crossings < d.started || !d.arrived.isEmpty) && ((s.participants k).all fun t => d.crossings < t.arrivals k)
    && (s.partners k).all fun c => d.arrived.contains (moduleOf c)

/-- Whether writes outside the module have all been answered. -/
def State.allAcked (s : State) (acks : List (Nat × Nat)) : Bool := acks.all fun k => s.answers.any fun a => a.1 == k.1

/-- Whether a crossing of a domain, or an early one, can go on (R248, R254): it begins once every participant has arrived, or
    every other module has sent its staged writes, and then waits for what it reads and writes outside the module. -/
def State.crossDue (s : State) (k : DomKey) : Bool :=
  let d := s.dom k
  match d.landing with
  | .idle => if d.calls == 0 then s.allArrived k else d.called.isEmpty
  | .reading _ => s.allGot d.gets
  | .called _ => s.allAcked d.acks
  | .crossed _ => s.allAcked d.acks && (match k with
      | .gang g => (match s.gang? g with | some x => s.allGot x.gets | none => true)
      | _ => true)

/-! ## The width-changing crossing (R273 to R279) -/

/-- The request of this module's participants with the highest rank key, as rank, core, terrace and width (R273). -/
def State.widthHere (s : State) (g : Gang) (n : Nat) : Option (Nat × Nat × Nat × Nat) :=
  let key := fun (t : Terrace) => (⟨(s.gangRank g (dieOf t.core)).getD 0, t.core, t.ter, t.uid, [], []⟩ : Writer)
  let ts := (s.gangTers g.id).filter fun t => (t.widthReq.map (·.2)) == some n
  let best := ts.foldl (fun b t => match b with
    | none => some t
    | some x => if (key x).lt (key t) then some t else some x) none
  best.bind fun t => t.widthReq.map fun r => ((key t).rank, t.core, t.ter, r.1)

/-- The winning request of a crossing (R273): the width asked for by the participant of highest rank key, on this module or
    another. -/
def State.widthAsked (s : State) (g : Gang) (n : Nat) : Option Nat :=
  let key := fun (x : Nat × Nat × Nat × Nat) => (⟨x.1, x.2.1, x.2.2.1, 0, [], []⟩ : Writer)
  match s.widthHere g n, (s.dom (.gang g.id)).asked with
  | some a, some b => some (if (key a).lt (key b) then b.2.2.2 else a.2.2.2)
  | some a, none | none, some a => some a.2.2.2
  | none, none => none

/-- The core that takes a joining team on a die of the module (R278). -/
def State.joinCore (s : State) (l : Launch) (die : Nat) : Option Nat :=
  (s.coresOn l.vf die).find? fun k => s.room k l.vf l.d.rr l.d.tpt (l.d.tpt * l.d.placeBytes + l.d.teamBytes)

/-- The dies that a width change has reserved. -/
def Changing.dies : Changing → List (Nat × Nat)
  | .idle => []
  | .chosen p | .moved p => p.dies
  | .listed _ ds _ => ds

/-- Whether a die has room for a joining team, and no other gang has chosen it. -/
def State.canJoin (s : State) (l : Launch) (c : Nat × Nat) : Bool :=
  (s.gangs.all fun g => g.launch != l.id || !g.change.dies.contains c) && match s.dieAt c with
    | some die => (s.joinCore l die).isSome
    | none => Config.peerPasses s.tick 7 (coordOf c)

/-- A member list as the device reads it at a crossing (R275). -/
def State.listDev (s : State) (gets : List OutRead) (vf die va : Nat) : State × List OutRead × DevGot :=
  let page := fun (x : Nat) => if !isGlobal x then false else
    match (s.translate vf die none ⟨false, false, true⟩ x).2 with
    | .ok p => (p.leaf.cls != clsUntracked && p.leaf.cls != clsUpdate) || p.leaf.fmt
    | .error _ => false
  if page va || page (va + 831) then (s, gets, .fail codeViolation va) else s.devGet gets vf die va 64 13

/-- What the reading of several member lists has come to. -/
structure Lists where
  s : State
  gets : List OutRead
  got : List (Option (List Byte))
  fail : Option (Nat × Nat)
  wait : Bool

/-- The member lists of the ranks from r on: the bytes where they could be read, the first failure, and whether some have
    still to come from outside the module. -/
def State.listsDev (s : State) (gets : List OutRead) (vf die lists r : Nat) : Nat → Lists
  | 0 => ⟨s, gets, [], none, false⟩
  | n + 1 =>
    let x := s.listDev gets vf die (lists + 832 * r)
    let y := x.1.listsDev x.2.1 vf die lists (r + 1) n
    match x.2.2 with
    | .bytes bs => { y with got := some bs :: y.got }
    | .fail code va => { y with got := none :: y.got, fail := some (code, va) }
    | .wait => { y with got := none :: y.got, wait := true }

/-- A move of a record: from an old address to a new one (R277). -/
def moves (e : SeqEntry) (kl : List KvList) (l p w w2 : Nat) : List (Nat × Nat) :=
  (List.range ((p + l - 1) / l)).flatMap fun c =>
    (List.range (min l (p - c * l))).filterMap fun k =>
      let t := c * l + k
      match (kl[c % w]?).bind fun x => x.map (localPos l t w) with
      | none => none
      | some old =>
        let new := e.addr (c % w2) (localPos l t w2)
        if old == new then none else some (old, new)

/-- What the reading of the moves has come to: where each piece goes and its bytes, the first failure's code and address, or
    that some have still to come. -/
inductive Moves where
  | ok (ws : List (Nat × List Byte))
  | fail (code va : Nat)
  | wait
deriving DecidableEq, Repr

/-- What refuses the page of a store address for a move: its class or group, a live record, or its translation (R275, R338). -/
def State.storePage (s : State) (vf die va : Nat) (write : Bool) : Option Nat :=
  if !isGlobal va then some codeViolation
  else
    match (s.translate vf die none ⟨write, false, true⟩ va).2 with
    | .error code => some code
    | .ok p =>
      if p.leaf.cls != clsStaged || p.leaf.sgrp != 1 || (write && s.liveRecord p.pa) then some codeViolation else none

/-- Read the piece of 64 bytes at the new address of a move, where it stands outside the module, so that what its owner refuses is
    known before any move is written (R275; DEDUCED, log entry 26). -/
def State.probe (s : State) (gets : List OutRead) (vf die va : Nat) : State × List OutRead × DevGot :=
  match (s.translate vf die none ⟨true, false, true⟩ va).2 with
  | .ok p => if isAway p.pa then s.devPiece gets vf die va 64 else (s, gets, .bytes [])
  | .error _ => (s, gets, .bytes [])

/-- Read the 64-byte pieces of the records that move, and find where each goes (R275, R277). -/
def State.movePieces (s : State) (gets : List OutRead) (vf die : Nat) : List (Nat × Nat) → State × List OutRead × Moves
  | [] => (s, gets, .ok [])
  | (old, new) :: r =>
    match s.storePage vf die old false, s.storePage vf die new true with
    | some code, _ => (s, gets, .fail code old)
    | none, some code => (s, gets, .fail code new)
    | none, none =>
      let x := s.devPiece gets vf die old 64
      let y := x.1.probe x.2.1 vf die new
      match x.2.2, y.2.2 with
      | .fail code va, _ | _, .fail code va => (y.1, y.2.1, .fail code va)
      | .bytes bs, .bytes _ =>
        (match y.1.movePieces y.2.1 vf die r with
         | (s2, g, .ok z) => (s2, g, .ok ((new, bs) :: z))
         | z => z)
      | _, _ =>
        match y.1.movePieces y.2.1 vf die r with
        | (s2, g, .ok _) => (s2, g, .wait)
        | z => z

/-- A list in store form (R270): its freed-page records as they stood, where they were a valid list's; its reserved bytes are
    zero. -/
def storeForm (raw : List Byte) (base rst e : Nat) : List Byte :=
  let f := fieldOf raw 16 1
  let keep := if f ≤ 16 then f else 0
  let blank := patchBytes (patchBytes raw 0 (List.replicate 16 0)) 64 (List.replicate 512 0)
  let blank := patchBytes blank 16 (natBytes 1 keep ++ List.replicate 47 0)
  let blank := (List.range 16).foldl (fun b y => patchBytes b (588 + 16 * y) (List.replicate 4 0)) blank
  if e == 0 then blank else putExtents (putField (putField blank 0 1 1) 8 8 e) 0 [⟨base, 0, e, rst⟩]

/-- Log a failure of a crossing (R275). -/
def State.logChange (s : State) (vf die : Nat) (e : Nat × Nat) : State :=
  (s.logRec vf (logBoth e.1) ⟨e.2, 0, e.1, 0, 0, 0, die, 2⟩).1

/-- Bind a terrace to a gang (R271): its arrivals are the gang's completed crossings. -/
def State.bindTer (s : State) (uid g : Nat) : State :=
  let d := s.dom (.gang g)
  s.updTer uid fun t => { t with gang := some g, gangArr := d.crossings, gangEarly := d.early, widthReq := none }

/-- Unbind a terrace: it takes part in its launch's domain again. -/
def State.unbindTer (s : State) (uid : Nat) : State :=
  s.updTer uid fun t =>
    let d := s.dom (.launch t.launch)
    { t with gang := none, widthReq := none, crossArr := d.passed, crossEarly := d.early }

/-- A die chosen for a wider view has the places, scratchpad and pool of its joining team reserved (R278). -/
def State.reserve (s : State) (l : Launch) (c : Nat × Nat) : State :=
  match (s.dieAt c).bind (s.joinCore l) with
  | none => s
  | some core =>
    let r := s.addTeam l core (2 ^ 31 + coordOf c)
    r.1.updTeam r.2.uid fun m => { m with joined := true, held := l.d.tpt }

/-- The joining team reserved on a die. -/
def State.reserved (s : State) (l : Launch) (c : Nat × Nat) : Option Team :=
  s.teams.find? fun m => m.launch == l.id && m.held != 0 && m.idx == 2 ^ 31 + coordOf c

/-- The places reserved on dies are freed (R275). -/
def State.unreserve (s : State) (l : Launch) (cs : List (Nat × Nat)) : State :=
  { s with teams := s.teams.filter fun m => !(m.launch == l.id && m.held != 0 && cs.any fun c => m.idx == 2 ^ 31 + coordOf c) }

/-- The joining team on a die of the new view starts (R278). -/
def State.joinTeam (s : State) (l : Launch) (g : Nat) (c : Nat × Nat) : State :=
  match s.reserved l c with
  | none => s.setLaunch { l with remote := l.remote + 1 }
  | some m =>
    -- the new member's first step sees the rewritten lists (R274)
    let s1 := (s.dropUntracked m.core l.vf).updTeam m.uid fun m => { m with held := 0 }
    let d := s1.dom (.gang g)
    (List.range l.d.tpt).foldl (fun s k =>
      s.addTerrace l m k none l.d.joinpc fun t => { t with gang := some g, gangArr := d.crossings, gangEarly := d.early }) s1

/-- The new view takes force (R276, R278, R279): terraces of the dies that leave depart unbound, joining teams start. -/
def State.newView (s : State) (l : Launch) (g : Gang) (w2 : Nat) (got : List (Nat × Nat)) : State :=
  let left := g.members.drop w2
  let d := s.dom (.gang g.id)
  let out := (s.gangTers g.id).filter fun t => left.contains (s.dieCoord (dieOf t.core))
  let s1 := out.foldl (fun s t =>
    (s.unbindTer t.uid).updTer t.uid fun t => { t with parted := some (crossStatus d.nconf (t.gangEarly < d.early)) }) s
  let pairs := left.map fun c => (c % 256, c / 256)
  let l1 : Launch := { l with
    spare := l.spare.filter fun c => !got.contains c
    taken := (l.taken ++ got) ++ pairs.filter fun c => !l.taken.contains c && !l.spare.contains c }
  let s2 := { s1.setLaunch l1 with gangs := s1.gangs.map fun (x : Gang) =>
    if x.id = g.id then { g with members := g.members.take w2 ++ got.map coordOf, view := (g.view + 1) % 2 ^ 32 } else x }
  let s3 := got.foldl (fun s c => match s.launch? l.id with | some l => s.joinTeam l g.id c | none => s) s2
  s3.spareBack l.id

/-- What the checks of a width change come to: a STATUS that ends it, that it reads outside the module, or the change. -/
inductive Checked where
  | status (s : State) (n : Nat)
  | wait (s : State) (gets : List OutRead)
  | ok (s : State) (p : Plan)

/-- The dies that a wider view takes: the first of the spare list that can admit a joining team (R276). -/
def State.joiners (s : State) (l : Launch) (w w2 : Nat) : List (Nat × Nat) := (l.spare.filter (s.canJoin l)).take (w2 - w)

/-- The die that acts for a gang: the first member of its view on this module. -/
def State.gangDie (s : State) (g : Gang) : Nat := (g.members.findSome? s.dieOfCoord).getD 0

/-- Steps 2 and 3 of R274. An entry that cannot be read counts as zeros, whose RST breaks R267: STATUS 3 (DESIGN CHOICE, log
    entry 51); STATUS 4 names the reading of a list and the moves alone. -/
def State.checkWidth (s : State) (l : Launch) (g : Gang) (w2 : Nat) : Checked :=
  let w := g.members.length
  let die := s.gangDie g
  if w < w2 && (l.d.joinpc == 0 || (s.joiners l w w2).length < w2 - w) then .status s 1
  else
    match s.devGet g.gets l.vf die g.entry 64 4 with
    | (s, gets, .wait) => .wait s gets
    | (s, gets, r) =>
      let e := entryOf (match r with | .bytes bs => bs | _ => List.replicate 256 0)
      if !e.placesOk then .status s 3
      else
        -- the lists of joining ranks are read too, for the freed-page records that their store form keeps
        let x := s.listsDev gets l.vf die e.lists 0 (max w w2)
        let old := x.got.take w
        if x.wait then .wait x.s x.gets
        else if old.any fun b => b.isSome && (b.bind parseKv).isNone then .status x.s 3
        else
          match (if old.any (·.isNone) then x.fail else none) with
          | some f => .status (x.s.logChange l.vf die f) 4
          | none =>
            let kl := old.filterMap fun b => b.bind parseKv
            let len := chunkLen g.lc
            let p := kl.foldl (fun n k => n + k.e) 0
            let nch := (p + len - 1) / len
            let dies := x.s.joiners l w w2
            if !(kl.zipIdx.all fun k => k.1.e == ownTokens len p k.2 w) then .status x.s 3
            else if e.span < (nch + min w w2 - 1) / min w w2 * len * e.rst then .status x.s 2
            else if dies.length < w2 - w then .status x.s 1
            else
              .ok (dies.foldl (fun s c => s.reserve l c) x.s)
                ⟨w2, dies, e.lists, e.store, e.span, e.rst, x.got.map fun b => b.getD (List.replicate 832 0), p⟩

/-- The moves of a change, in pieces of 64 bytes (R277). -/
def Plan.moves (p : Plan) (w lc : Nat) : List (Nat × Nat) :=
  let e : SeqEntry := ⟨0, 0, 0, p.lists, p.store, p.span, p.rst, []⟩
  (Machine.moves e ((p.raws.take w).filterMap parseKv) (chunkLen lc) p.total w p.width).flatMap fun m =>
    (List.range (p.rst / 64)).map fun i => (m.1 + 64 * i, m.2 + 64 * i)

/-- Change a gang. -/
def State.updGang (s : State) (g : Nat) (f : Gang → Gang) : State :=
  { s with gangs := s.gangs.map fun x => if x.id = g then f x else x }

/-- Write WIDTH, STATUS, VIEW and MEMBER of an entry (R268); the answers that these wait for. -/
def State.putEntry (s : State) (g : Gang) (members : List Nat) (view st : Nat) : State × List (Nat × Nat) :=
  let mem := (List.range 64).flatMap fun r => natBytes 2 (members.getD r 0xFFFF)
  s.devPuts g.vf (s.gangDie g) [(g.entry, natBytes 1 members.length), (g.entry + 3, natBytes 1 st ++ natBytes 4 view),
    (g.entry + 64, mem.take 64), (g.entry + 128, mem.drop 64)]

/-- The answers to writes outside the module are taken: an error response is logged (R12), and the answer is whether there was
    one. -/
def State.settleAcks (s : State) (vf die : Nat) (acks : List (Nat × Nat)) : State × Bool :=
  acks.foldl (fun (x : State × Bool) k => match x.1.takeAnswer k.1 with
    | some (s1, .err code) => (s1.logChange vf die (code, k.2), true)
    | some (s1, .val _) => (s1, x.2)
    | none => x) (s, false)

/-- Those of the domain's writes that are answered. -/
def State.settleDom (s : State) (k : DomKey) (die : Nat) : State × Bool :=
  let x := s.settleAcks (s.domVf k) die (s.dom k).acks
  (x.1.setDom k { x.1.dom k with acks := [] }, x.2)

/-- A crossing completes (R250, R254): its count has risen, or rises now; a new view takes force; and the other modules of the old
    and the new view learn it. -/
def State.finishCross (s : State) (k : DomKey) (nconf : Nat) (raised : Bool) (then_ : State → State) : State :=
  let d := s.dom k
  let n := d.crossings
  let cs := s.partners k
  let s1 := s.setDom k { d with
    count := if raised then d.count else (d.count + 1) % 2 ^ 32, crossings := n + 1, nconf := nconf, arrived := [], asked := none,
    landing := .idle, gets := [], acks := [] }
  let s2 := match k with
    | .gang g =>
      let s2 := s1.updGang g fun x => { x with gets := [] }
      { s2 with ters := s2.ters.map fun t =>
          if t.gang = some g ∧ (t.widthReq.map (·.2)) = some n then { t with widthReq := none } else t }
    | _ => s1
  let s3 := then_ s2
  s3.tellLanded k (s3.otherMods (cs ++ s3.partners k))

/-- The last step of a width change: the crossing completes under the new view, or under the old one (R274, R275). -/
def State.changeEnd (s : State) (l : Launch) (g : Gang) (nconf : Nat) (dies : List (Nat × Nat)) (w2 st : Nat) : State :=
  (s.updGang g.id fun x => { x with change := .idle, gets := [], wst := st }).finishCross (.gang g.id) nconf (st == 0) fun s =>
    if st == 0 then match s.gang? g.id with | some x => s.newView l x w2 dies | none => s else s

/-- The lists and the entry are written, or the entry alone: the crossing completes once that is answered. -/
def State.changeListed (s : State) (l : Launch) (g : Gang) (nconf w2 : Nat) (dies : List (Nat × Nat)) (st : Nat)
    (acks : List (Nat × Nat)) : State :=
  if acks.isEmpty then s.changeEnd l g nconf dies w2 st
  else
    let s1 := s.updGang g.id fun x => { x with change := .listed w2 dies st, gets := [] }
    s1.setDom (.gang g.id) { s1.dom (.gang g.id) with acks := acks }

/-- A change that fails: its STATUS is written (R275). -/
def State.changeFail (s : State) (l : Launch) (g : Gang) (nconf w2 : Nat) (dies : List (Nat × Nat)) (st : Nat) : State :=
  let x := (s.unreserve l dies).putEntry g g.members g.view st
  x.1.changeListed l g nconf w2 [] st x.2

/-- Steps 5 and 6: the moves are written, and answered where they left the module; the count rises, and the lists and the entry are
    rewritten. A refusal that the reads before did not show is STATUS 4 here (DEDUCED, log entry 26). -/
def State.changeLists (s : State) (l : Launch) (g : Gang) (nconf : Nat) (p : Plan) : State :=
  let k := DomKey.gang g.id
  let die := s.gangDie g
  let x := s.settleDom k die
  if x.2 then
    x.1.changeFail l g nconf p.width p.dies 4
  else
    let e : SeqEntry := ⟨0, 0, 0, p.lists, p.store, p.span, p.rst, []⟩
    let d := x.1.dom k
    let y := p.raws.zipIdx.foldl (fun (y : State × List (Nat × Nat)) b =>
      let z := y.1.devPutList l.vf die (p.lists + 832 * b.2) (storeForm b.1 (e.addr b.2 0) p.rst
        (if b.2 < p.width then ownTokens (chunkLen g.lc) p.total b.2 p.width else 0))
      (z.1, y.2 ++ z.2)) (x.1.setDom k { d with count := (d.count + 1) % 2 ^ 32 }, [])
    let z := y.1.putEntry g (g.members.take p.width ++ p.dies.map coordOf) ((g.view + 1) % 2 ^ 32) 0
    z.1.changeListed l g nconf p.width p.dies 0 (y.2 ++ z.2)

/-- Step 4, and step 5 for what stands on this module: the moves are read, and then written together. -/
def State.changeMoves (s : State) (l : Launch) (g : Gang) (nconf : Nat) (p : Plan) : State :=
  let die := s.gangDie g
  match s.movePieces g.gets l.vf die (p.moves g.members.length g.lc) with
  | (s1, gets, .wait) => s1.updGang g.id fun x => { x with change := .chosen p, gets := gets }
  | (s1, _, .fail code va) => (s1.logChange l.vf die (code, va)).changeFail l g nconf p.width p.dies 4
  | (s1, _, .ok ws) =>
    let x := s1.devPuts l.vf die ws
    if x.2.isEmpty then x.1.changeLists l g nconf p
    else
      let s2 := x.1.updGang g.id fun x => { x with change := .moved p, gets := [] }
      s2.setDom (.gang g.id) { s2.dom (.gang g.id) with acks := x.2 }

/-- A width change goes on from where it stands (R274). -/
def State.changeGo (s : State) (l : Launch) (g : Gang) (nconf w2 : Nat) : State :=
  match g.change with
  | .idle =>
    (match s.checkWidth l g w2 with
     | .wait s1 gets => s1.updGang g.id fun x => { x with gets := gets }
     | .status s1 st => s1.changeFail l g nconf w2 [] st
     | .ok s1 p => s1.changeMoves l { g with gets := [] } nconf p)
  | .chosen p => s.changeMoves l g nconf p
  | .moved p => s.changeLists l g nconf p
  | .listed _ dies st => ((s.settleDom (.gang g.id) (s.gangDie g)).1).changeEnd l g nconf dies w2 st

/-- The width of a change under way. -/
def Changing.width? : Changing → Option Nat
  | .idle => none
  | .chosen p | .moved p => some p.width
  | .listed w _ _ => some w

/-- The width that a crossing of a gang asks for (R273): none where it is the current one. A change under way keeps its own. -/
def State.widthWanted (s : State) (k : DomKey) : Option (Launch × Gang × Nat) :=
  match k with
  | .gang g =>
    (match s.gang? g with
     | none => none
     | some x =>
       match x.change.width?.or (s.widthAsked x (s.dom k).crossings), s.launch? x.launch with
       | some w2, some l => if w2 == x.members.length then none else some (l, x, w2)
       | _, _ => none)
  | _ => none

/-- The writes of a crossing have been made and answered, or something of its width change has: it goes on (R250, R274). The
    error response to a write of the landing is logged and marks the launch, as that of any write that has gone out. -/
def State.crossGo (s : State) (k : DomKey) (nconf : Nat) : State :=
  let landed := fun (_ : Unit) =>
    let x := s.settleDom k 0
    if x.2 then x.1.markError (s.domLaunch k) else x.1
  match s.widthWanted k with
  | none => (landed ()).finishCross k nconf false id
  | some (l, g, w2) => (if g.change == .idle then landed () else s).changeGo l g nconf w2

/-- The staged writes that belong to the next crossing of a domain (R249, R250): those of arrivals before it, of participants
    that are none any more, and of other modules. -/
def State.crossEntries (s : State) (k : DomKey) : List Staged :=
  let n := (s.dom k).crossings
  let ps := (s.participants k).map (·.uid)
  (s.staged.filter fun e => e.dom == k && (e.after ≤ n || !ps.contains e.ter)) ++ (s.dom k).parts

/-- The writes of a crossing land (R250); what they need from outside the module keeps them. -/
def State.crossLand (s : State) (k : DomKey) : State :=
  let es := s.crossEntries k
  match s.landReads (s.dom k).gets es with
  | (s1, gets, true) => s1.setDom k { s1.dom k with landing := .reading false, gets := gets }
  | (s1, gets, false) =>
    let r := s1.land gets es
    let s2 := r.1.setDom k { r.1.dom k with landing := .crossed r.2.1, gets := [], parts := [], acks := r.2.2 }
    if r.2.2.isEmpty then s2.crossGo k r.2.1 else s2

/-- CROSSING_COMPLETION's effect (R248, R250, R254, R274): the writes of the crossing land, the count rises, and a gang's width
    request is considered; or an early crossing's writes land. What reaches outside the module takes several such events. -/
def State.completeCrossing (s : State) (k : DomKey) : State :=
  let d := s.dom k
  match d.landing with
  | .idle => if d.calls == 0 then s.crossLand k else s.earlyLand k
  | .reading early => if early then s.earlyLand k else s.crossLand k
  | .called n =>
    let x := s.settleDom k 0
    (if x.2 then x.1.markError (s.domLaunch k) else x.1).earlyDone k n
  | .crossed n => s.crossGo k n

/-- The event CROSSING_COMPLETION. -/
def execCrossingCompletion (k : DomKey) (s : State) : Host.Outcome State Fault Refusal :=
  event (s.crossDue k) s (s.completeCrossing k)

/-! ## GSET, GWID, GVIEW and GRANK (R281 to R284) -/

/-- The wait at issue of R272. -/
def gangGate (body : State → Ctx → Res) (s : State) (c : Ctx) : Res :=
  if s.gated c.t then .stay else body s c

/-- What GSET comes to: the value of d, a failure's code and address, that it waits for the entry, or that it waits for a
    crossing of the gang that is completing. -/
inductive GsetRes where
  | later
  | status (n : Nat)
  | fail (code va : Nat)
  | wait (gets : List OutRead)

/-- GSET's status and effect, the entry's page having passed (R282). -/
def State.gset (s : State) (c : Ctx) (entry : Option Nat) : State × GsetRes :=
  let arrived : Bool := match c.t.gang with | some g => (s.dom (.gang g)).crossings < c.t.gangArr | none => false
  if arrived then (s, .status 3)
  else
    match entry with
    | none => (if c.t.gang.isNone then s else (s.unbindTer c.uid).spareBack c.t.launch, .status 0)
    | some va =>
      match s.launch? c.t.launch with
      | none => (s, .status 1)
      | some l =>
        let old := s.gangs.find? fun g => g.launch == l.id && g.entry == va
        let held := old.filter fun g => !(s.gangTers g.id).isEmpty
        let me := s.dieCoord c.die
        match held with
        | some g =>
          if (s.dom (.gang g.id)).landing? then (s, .later)
          else if !g.members.contains me then (s, .status 2)
          else if c.t.gang == some g.id then (s, .status 0)
          else ((s.bindTer c.uid g.id).spareBack l.id, .status 0)
        | none =>
          match s.devGet c.sp.gets c.t.vf c.die va 64 4 with
          | (s1, gets, .wait) => (s1, .wait gets)
          | (s1, _, .fail code a) => (s1, .fail code a)
          | (s1, _, .bytes bs) =>
            let e := entryOf bs
            if !entryValid l.d bs then (s1, .status 1)
            else if !e.members.contains me then (s1, .status 2)
            else
              let g : Gang := ⟨(old.map (·.id)).getD s1.fresh, l.id, c.t.vf, va, e.members, e.view, e.lc, e.lists, 0, [], .idle⟩
              let s2 := { s1 with fresh := s1.fresh + 1, gangs := g :: s1.gangs.filter fun x => x.id != g.id }
              ((s2.bindTer c.uid g.id).spareBack l.id, .status 0)

/-- GSET (R282). Where the guard leaves no lane active the address is that of the split's lowest lane (DESIGN CHOICE, log entry
    51). -/
def execGset (d : Dst) (a : Src) (s : State) : Host.Outcome State Fault Refusal :=
  issue (.gset d a) (gangGate fun s c =>
    let fin := fun (s : State) (va : Option Nat) =>
      match s.gset c va with
      | (s1, .wait gets) => .wait (s1.keepGets c gets) (.outside (firstOpen gets))
      | (s1, .fail code a) => Res.trap s1 (.whole code a) false
      | (_, .later) => .stay
      | (s1, .status st) => .done (s1.updTer c.uid fun t => t.writeDst d false c.active fun _ => [BitVec.ofNat 32 st]) none
    if a == .zero then fin s none
    else
      let low := (lowLane c.active).getD ((lowLane c.sp.mask).getD 0)
      let va := c.base a low
      if va % 256 != 0 || !isGlobal va then .trap s (.whole codeViolation va) false
      else
        match s.look c.t.vf c.die (some c.t.core) ⟨true, false, c.sp.supervisor⟩ va with
        | (s1, .error e) => .trap s1 (.whole e.code va) false
        | (s1, .ok q) =>
          if (q.ph.leaf.cls != clsUntracked && q.ph.leaf.cls != clsUpdate) || q.ph.leaf.fmt then
            .trap s1 (.whole codeViolation va) false
          else fin (match q.ph.owner with | .die _ => s1.enter c.t.vf c.die va q | _ => s1) (some va)) s

/-- GWID (R273, R283). -/
def execGwid (d : Dst) (a : Src) (s : State) : Host.Outcome State Fault Refusal :=
  issue (.gwid d a) (gangGate fun s c =>
    let w := c.uni a
    let st := if c.t.gang.isNone then 2 else if w == 0 || 64 < w then 1 else 0
    let s1 := if st == 0 then s.updTer c.uid fun t => { t with widthReq := some (w, t.gangArr) } else s
    .done (s1.updTer c.uid fun t => t.writeDst d false c.active fun _ => [BitVec.ofNat 32 st]) none) s

/-- The two words of GVIEW (R284). -/
def State.viewWords (s : State) (t : Terrace) : List Word :=
  match t.gang.bind s.gang? with
  | none => [0xFFFFFFFF#32, 0]
  | some g =>
    [BitVec.ofNat 32 g.view,
     BitVec.ofNat 32 (g.wst * 2 ^ 20 + g.lc * 2 ^ 16 + (s.gangRank g (dieOf t.core)).getD 0 * 2 ^ 8 + g.members.length)]

/-- GVIEW (R284). -/
def execGview (d : Dst) (s : State) : Host.Outcome State Fault Refusal :=
  issue (.gview d) (gangGate fun s c =>
    .done (s.updTer c.uid fun t => t.writeDst d false c.active fun _ => s.viewWords c.t) none) s

/-- GRANK (R284). -/
def execGrank (d : Dst) (a : Src) (s : State) : Host.Outcome State Fault Refusal :=
  issue (.grank d a) (gangGate fun s c =>
    let x := match c.t.gang.bind s.gang? with | some g => g.members.getD (c.uni a) 0xFFFFFFFF | none => 0xFFFFFFFF
    .done (s.updTer c.uid fun t => t.writeDst d false c.active fun _ => [BitVec.ofNat 32 x]) none) s

/-- Add 1 to APXC of the sequence a terrace is bound to (R157, R285): one atomic at the entry's home. -/
def State.addApx (s : State) (t : Terrace) : State :=
  match t.gang.bind s.gang? with
  | none => s
  | some g =>
    let die := dieOf t.core
    let va := g.entry + 32
    match s.translate g.vf die none ⟨true, false, true⟩ va with
    | (s1, .error code) => (s1.logRec g.vf (logBoth code) ⟨va, 0, code, 0, t.core, t.ter, die, 2⟩).1
    | (s1, .ok p) =>
      match p.owner with
      | .die _ =>
        let m := s1.meetMem g.vf p.pa 8
        if m.2 then (m.1.logRec g.vf true ⟨va, 0, 0x16, 0, t.core, t.ter, die, 2⟩).1
        else m.1.pocWriteNat p.pa 8 ((m.1.rdNat p.pa 8 + 1) % 2 ^ 64)
      | _ => (s1.askFor (.core t.core) g.vf t.launch va 8 p (.amo 0 6 [1]) false).1

end Sys2Proof.Machine
end

