-- ==== Sys2Proof/Machine/Coll.lean ====
section
/-! DEFINITION. Groups, barrier objects and collectives (R256 to R266): CGBIND, ABINIT, ABARV, ABWAIT, COLL, and the
event COLLECTIVE_ROUND_COMPLETION. -/

namespace Sys2Proof.Machine

/-! ## CGBIND (R256, R257) -/

/-- Read k pieces of two bytes for an instruction: the bytes, or what stops the reading; none while earlier stores of the
    terrace have not been performed. A piece of another module or of the host is asked for. -/
def State.recordBytesOf (s : State) (e : Eng) (gets : List OutRead) (va : Nat) : Nat → Option (State × List OutRead × DevGot)
  | 0 => some (s, gets, .bytes [])
  | k + 1 =>
    match s.engRead e gets false va 2 with
    | .busy => none
    | .fault s1 g code => some (s1, g, .fail code va)
    | .val s1 g v =>
      (match s1.recordBytesOf e g (va + 2) k with
       | some (s2, g, .bytes r) => some (s2, g, .bytes (natBytes 2 v ++ r))
       | x => x)
    | .wait s1 g =>
      match s1.recordBytesOf e g (va + 2) k with
      | some (s2, g, .bytes _) => some (s2, g, .wait)
      | x => x

/-- The key and ranks of a group record; none where it is invalid (R256). -/
def groupOf (bs : List Byte) : Option (Nat × List Nat) :=
  let key := fieldOf bs 0 8
  let n := fieldOf bs 8 2
  let ranks := (List.range n).map fun r => fieldOf bs (16 + 2 * r) 2
  if key == 0 || n == 0 || 1024 < n || fieldOf bs 10 6 != 0 || ranks.any (fun c => 32 ≤ c % 256 || 32 ≤ c / 256)
      || ranks.eraseDups.length != n then none
  else some (key, ranks)

/-- An unused handle: any, as the device chooses. -/
def State.newHandle (s : State) : Nat :=
  let base := Config.choose s.tick
  let at_ := fun i => (base + i) % (2 ^ 31 - 1) + 1
  at_ (((List.range (s.groups.length + 1)).find? fun i => !s.groups.any fun g => g.handle == at_ i).getD 0)

/-- The other modules of a launch learn a binding (R257): messages of the model's own (DESIGN CHOICE, log entry 54). -/
def State.tellBound (s : State) (l : Launch) (from_ : Option Nat) (g : Group) : State :=
  ((s.otherMods (l.d.rect.map coordOf)).filter fun c => some (moduleOf c) != from_).foldl (fun s c =>
    s.sendMgmt l.vf c (.bound 0 l.id g.key g.handle g.ranks)) s

/-- Bind a group for a CGBIND on a die (R257), of this module or, by a message, of another one of the launch: what d
    receives. The launch's bindings on every module stand here. -/
def State.bindGroup (s : State) (l : Launch) (die : Nat) (from_ : Option Nat) (key : Nat) (ranks : List Nat) : State × Nat :=
  let mine := s.groups.filter fun g => g.launch == l.id
  if !ranks.contains die then (s, 0x80000003)
  else if !ranks.all l.d.holdsCoord then (s, 0x80000004)
  else
    match mine.find? fun g => g.key == key with
    | some g => (s, if g.ranks == ranks then g.handle else 0x80000002)
    | none =>
      if 64 ≤ mine.length then (s, 0x80000005)
      else
        let g : Group := ⟨s.newHandle, l.id, l.vf, key, ranks, []⟩
        ({ s with tick := s.tick + 1, groups := s.groups ++ [g] }.tellBound l from_ g, g.handle)

/-- A terrace's CGBIND (R257). -/
def State.cgbind (s : State) (c : Ctx) (key : Nat) (ranks : List Nat) : State × Nat :=
  match s.launch? c.t.launch with
  | none => (s, 0x80000004)
  | some l => s.bindGroup l (s.dieCoord c.die) none key ranks

/-- CGBIND (R257). -/
def execCgbind (d : Nat) (a : Src) (s : State) : Host.Outcome State Fault Refusal :=
  issue (.cgbind d a) (fun s c =>
    let low := (lowLane c.active).getD ((lowLane c.sp.mask).getD 0)
    let va := match a with | .imm w => w.toNat | a => c.base a low
    let e := Eng.ofTer c.t c.sp.supervisor s.fresh
    let put := fun (s : State) (x : Nat) =>
      Res.done (s.updTer c.uid fun t => t.writeDst (.s d) false c.active fun _ => [BitVec.ofNat 32 x]) none
    if va % 16 != 0 then put s 0x80000001
    else
      let out := fun (s : State) (g : List OutRead) => Res.wait (s.keepGets c g) (.outside (firstOpen g))
      match s.recordBytesOf e c.sp.gets va 8 with
      | none => .wait s (.before s.fresh)
      | some (s1, g, .wait) => out s1 g
      | some (s1, _, .fail code a) => .trap s1 (.whole code a) false
      | some (s1, g, .bytes hd) =>
        let n := fieldOf hd 8 2
        if n == 0 || 1024 < n then put s1 0x80000001
        else
          match s1.recordBytesOf e g (va + 16) n with
          | none => .wait s (.before s.fresh)
          | some (s2, g, .wait) => out s2 g
          | some (s2, _, .fail code a) => .trap s2 (.whole code a) false
          | some (s2, _, .bytes r) =>
            match groupOf (hd ++ r) with
            | none => put s2 0x80000001
            | some (key, ranks) => let x := s2.cgbind c key ranks; put x.1 x.2) s

/-! ## Barrier objects (R260 to R262) -/

/-- The windows a barrier object or a tile may stand in. -/
def objectWindow (va : Nat) : Bool := engWindow va && !isGlobal va

/-- The location of a barrier object, or the cause code of the error response. -/
def State.barrierAt (s : State) (t : Terrace) (va : Nat) : Except Nat Nat :=
  if va % 16 != 0 || !objectWindow va then .error codeViolation
  else
    match s.chipAt t 0 va 16 with
    | some (.loc x) => .ok x
    | _ => .error codeViolation

/-- The checks and waits of an AB member: its object's location is handed on. -/
def withBarrier (atScope : Bool) (a : Src) (use : Nat → State → Ctx → Res) (s : State) (c : Ctx) : Res :=
  let va := c.uniAll a
  if atScope && c.scope == 7 && !s.sysScope c.t.vf then .trap s (.whole codeViolation va) false
  else if atScope && c.scope == 5 && s.gated c.t then .stay
  else
    match s.barrierAt c.t va with
    | .error code => .trap s (.whole code va) false
    | .ok x => use x s c

/-- ABINIT (R262). -/
def execAbinit (d : Nat) (a : Src) (s : State) : Host.Outcome State Fault Refusal :=
  issue (.abinit d a) (fun s c =>
    let n := (c.rt.sget d).toNat
    if n == 0 || 65535 < n then .trap s (.illegalOperand c.pc) false
    else withBarrier false a (fun x s _ => .done ((s.wrNat x 16 n).healChip x 16) none) s c) s

/-- ABARV (R262). -/
def execAbarv (d : Dst) (a : Src) (s : State) : Host.Outcome State Fault Refusal :=
  issue (.abarv d a) (withBarrier true a fun x s c =>
    if !s.released c.t c.scope c.ord then .wait s (.released c.scope c.ord)
    else if s.meetChip x 16 then .trap (s.chipErr x) (.whole 0x16 (c.uniAll a)) false
    else
      let r := s.barArrive x false
      .done (r.2.updTer c.uid fun t => t.writeDst d false c.active fun _ => [BitVec.ofNat 32 r.1]) none) s

/-- Whether a phase has left a token (R262). -/
def phasePassed (ph tok : Nat) : Bool :=
  let n := (ph + 2 ^ 32 - tok) % 2 ^ 32
  1 ≤ n && n < 2 ^ 31

/-- ABWAIT (R262). -/
def execAbwait (d a : Src) (s : State) : Host.Outcome State Fault Refusal :=
  issue (.abwait d a) (withBarrier true a fun x s c =>
    let tok := c.uniAll d
    if s.meetChip x 16 then .trap (s.chipErr x) (.whole 0x16 (c.uniAll a)) false
    else if !phasePassed (s.rdNat (x + 8) 4) tok then .wait s (.barrier x tok)
    else if !s.returnedAll c.t c.scope c.ord then .wait s (.returned c.scope c.ord)
    else .done (s.acquire c.t c.scope) none) s

/-! ## COLL (R263, R264) -/

/-- The places of n bytes at an address of a window a tile may stand in; a range of the cluster window may pass from one
    core's part to the next. None where some byte lies outside. -/
def State.places (s : State) (t : Terrace) (va n : Nat) : Option (List (Nat × Nat)) :=
  if !objectWindow va then none
  else
    (List.range (n / 0x80000 + 2)).foldl (fun acc i =>
      let lo := if i == 0 then va else (va / 0x80000 + i) * 0x80000
      let hi := min (va + n) ((va / 0x80000 + i + 1) * 0x80000)
      match acc with
      | none => none
      | some ps =>
        if hi ≤ lo then some ps
        else match s.chipAt t 0 lo (hi - lo) with
          | some (.loc x) => some (ps ++ [(x, hi - lo)])
          | _ => none) (some [])

/-- Whether an instruction may name a slot: its partition holds it (R125). -/
def State.slotHeld (s : State) (t : Terrace) (n : Nat) : Bool :=
  match s.part? t.core t.vf with | some p => p.slots.getLsbD n | none => false

/-- A slot's index in the module. -/
def Terrace.slot (t : Terrace) (n : Nat) : Nat := t.core * 4 + n

/-- Whether a collective round is in progress on a slot (R266). -/
def State.roundBusy (s : State) (slot : Nat) : Bool := s.rounds.any fun r => r.args.slot == some slot

/-- Whether another terrace has claimed a slot (R127). -/
def State.claimed (s : State) (t : Terrace) (n : Nat) : Bool :=
  let p := kget Prog.init s.progress (t.slot n)
  p.act && p.uid != t.uid

/-- What stands before an instruction that names slots: the violation of R125, and the waits of R127 and R266. -/
def withSlots (ns : List Nat) (body : State → Ctx → Res) (s : State) (c : Ctx) : Res :=
  match ns.find? fun n => !s.slotHeld c.t n with
  | some n => .trap s (.whole codeViolation n) false
  | none =>
    if ns.any fun n => s.roundBusy (c.t.slot n) || s.claimed c.t n then .stay else body s c

/-- The operands of a COLL of a terrace, where they pass R263's checks. -/
def State.collArgs (s : State) (c : Ctx) (tile : Tile) (kind red a : Nat) : Option CollArgs :=
  let q := (List.range 4).map fun i => (c.rt.sget (a + i)).toNat
  let dst := q.getD 3 0
  match s.groups.find? fun g => g.handle == q.getD 0 0 && g.launch == c.t.launch with
  | none => none
  | some g =>
    let n := g.ranks.length
    let len := match tile with | .acc _ => 65536 | .s _ => q.getD 2 0
    let total := match kind with | 2 => n * len | 1 => len / n | _ => len
    let src := match tile with | .acc _ => some [] | .s k => s.places c.t (c.rt.sget k).toNat len
    let aligned := match tile with | .acc _ => true | .s k => (c.rt.sget k).toNat % 64 == 0
    let out := if dst == 0 then some [] else s.places c.t dst total
    match s.barrierAt c.t (q.getD 1 0), src, out with
    | .ok bar, some src, some out =>
      if !aligned || len % 64 != 0 || len == 0 || 2097152 < len || dst % 64 != 0
          || ((kind == 1 || kind == 4) && len % (64 * n) != 0) || ((kind == 2 || kind == 4) && dst == 0) then none
      else
        some ⟨tile, kind, red, c.ty, q, (match tile with | .acc k => some (c.t.slot k) | .s _ => none),
          (match tile with | .acc _ => 0 | .s k => (c.rt.sget k).toNat), src, bar, out⟩
    | _, _, _ => none

/-- A member's issue noted; the round begins with the last member's (R264), whose core gives the slot and the scratchpad, and
    whose TYPE and barrier object are the round's where members differ (DESIGN CHOICE, log entry 42). -/
def State.collIssue (s : State) (t : Terrace) (a : CollArgs) : State :=
  let me : CollIssue := ⟨t.quarter.getD 0, t.launch, t.core, a, [t.uid], false⟩
  match t.quarter.bind fun u => s.quarters.find? fun q => q.uid == u with
  | none => s.beginRound me
  | some q =>
    let s1 := match s.colls.find? fun x => x.quarter == q.uid && !x.issued.contains t.uid with
      | none => { s with colls := s.colls ++ [me] }
      | some x =>
        let same := x.args.tile == a.tile && x.args.kind == a.kind && x.args.red == a.red && x.args.quad == a.quad
        let y : CollIssue := { x with args := a, core := t.core, issued := x.issued ++ [t.uid], differ := x.differ || !same }
        { s with colls := s.colls.map fun z => if z = x then y else z }
    s1.beginDue q.uid q.m

/-- COLL (R263, R264). -/
def coll (tile : Tile) (kind red a : Nat) (s : State) (c : Ctx) : Res :=
  if c.t.divided then .trap s (.illegalOperand c.pc) false
  else if c.active == 0 then .done s none
  else
    withSlots (match tile with | .acc n => [n] | .s _ => []) (fun s c =>
      match s.collArgs c tile kind red a with
      | none => .trap s (.illegalOperand c.pc) false
      | some x => if !s.released c.t 2 c.ord then .stay else .done (s.collIssue c.t x) none) s c

/-- COLL.allreduce. -/
def execCollAllreduce (d : Tile) (a r : Nat) (s : State) : Host.Outcome State Fault Refusal :=
  issue (.collAllreduce d a r) (coll d 0 r a) s
/-- COLL.reducescatter. -/
def execCollReducescatter (d : Tile) (a r : Nat) (s : State) : Host.Outcome State Fault Refusal :=
  issue (.collReducescatter d a r) (coll d 1 r a) s
/-- COLL.allgather. -/
def execCollAllgather (d : Tile) (a : Nat) (s : State) : Host.Outcome State Fault Refusal :=
  issue (.collAllgather d a) (coll d 2 0 a) s
/-- COLL.broadcast. -/
def execCollBroadcast (d : Tile) (a : Nat) (s : State) : Host.Outcome State Fault Refusal :=
  issue (.collBroadcast d a) (coll d 3 0 a) s
/-- COLL.alltoall. -/
def execCollAlltoall (d : Tile) (a : Nat) (s : State) : Host.Outcome State Fault Refusal :=
  issue (.collAlltoall d a) (coll d 4 0 a) s

/-! ## Rounds (R265) -/

/-- Reduce of one element over the ranks' bytes, in ascending rank. -/
def reduceElem (red ty off : Nat) : List (List Byte) → Nat
  | [] => 0
  | x :: xs =>
    let n := tyWidth ty / 8
    xs.foldl (fun v y => ((AccKind.amo red).apply ty v (fieldOf y off n) 0).getD v) (fieldOf x off n)

/-- Reduce of a range of bytes. -/
def reduceBytes (red ty lo n : Nat) (xs : List (List Byte)) : List Byte :=
  let w := tyWidth ty / 8
  (List.range (n / w)).flatMap fun i => natBytes w (reduceElem red ty (lo + w * i) xs)

/-- What a round writes at rank q: where, and the bytes there. -/
def roundResult (r : Round) (q : Nat) (xs : List (List Byte)) : Bool × List Byte :=
  let n := xs.length
  let part := r.len / n
  let a := r.args
  match a.kind with
  | 0 => (false, reduceBytes a.red a.ty 0 r.len xs)
  | 1 => (!a.dst.isEmpty, reduceBytes a.red a.ty (q * part) part xs)
  | 2 => (true, xs.flatten)
  | 3 => (!a.dst.isEmpty, xs.headD [])
  | _ => (true, xs.flatMap fun x => (x.drop (q * part)).take part)

/-- Write bytes at places. -/
def State.putPlaces (s : State) : List (Nat × Nat) → List Byte → State
  | [], _ => s
  | p :: ps, bs => ((s.wrBytes p.1 (bs.take p.2)).healChip p.1 (min p.2 bs.length)).putPlaces ps (bs.drop p.2)

/-- The tiles of every rank of a round, where all are known. -/
def State.roundTiles (s : State) (g : Group) (index : Nat) : Option (List RankTile) :=
  (List.range g.ranks.length).foldl (fun acc q =>
    match acc, s.tiles.find? fun t => t.handle == g.handle && t.index == index && t.rank == q with
    | some ts, some t => some (ts ++ [t])
    | _, _ => none) (some [])

/-- The tiles of a round that every rank of the module has completed are forgotten. -/
def State.dropTiles (s : State) (g : Group) (index : Nat) : State :=
  let local_ := g.ranks.filterMap s.dieOfCoord
  let g := (s.groups.find? fun x => x.handle == g.handle).getD g
  if (local_.all fun d => index < kget 0 g.begun d) && !(s.rounds.any fun r => r.handle == g.handle && r.index == index) then
    { s with tiles := s.tiles.filter fun t => !(t.handle == g.handle && t.index == index) }
  else s

/-- The end of a round at one rank (R265, R266). -/
def State.endRound (s : State) (g : Group) (r : Round) : State :=
  let ts := s.roundTiles g r.index
  let ok := !r.failed && (match ts with
    | some ts => ts.all fun t => t.kind == r.args.kind && t.red == r.args.red && t.ty == r.args.ty && t.bytes.length == r.len
    | none => false)
  let xs := (ts.getD []).map (·.bytes)
  let s1 := if !ok then s
    else
      let w := roundResult r r.rank xs
      if w.1 then s.putPlaces r.args.dst w.2
      else match r.args.slot with
        | some k => s.accWrite k 0 w.2
        | none => s.putPlaces r.args.src w.2
  let s2 := (s1.barArrive r.args.bar (!ok)).2
  ({ s2 with rounds := s2.rounds.filter fun x => x != r }.dropTiles g r.index).correct [unitSquare r.die]

/-- The event COLLECTIVE_ROUND_COMPLETION: every rank's tile is known, or the round has failed. -/
def execCollectiveRoundCompletion (handle round die : Nat) (s : State) : Host.Outcome State Fault Refusal :=
  match s.groups.find? fun g => g.handle == handle,
    s.rounds.find? fun r => r.handle == handle && r.index == round && r.die == die with
  | some g, some r => event (r.failed || (s.roundTiles g round).isSome) s (s.endRound g r)
  | _, _ => .fault .notEnabled

end Sys2Proof.Machine
end

