-- ==== Sys2Proof/Machine/Tile.lean ====
section
/-! DEFINITION. Accumulator slots and the matrix engine (R125 to R150): MMA, MMAS, MMAC, MACLD, MACST, MACRD, MACWR, MACZ,
MPROG, ACKPT, ACRST, MEPI and the event BLOCK_STEP. -/

namespace Sys2Proof.Machine

/-! ## What engines read and write for a tile instruction (R130) -/

/-- What a piece of an engine's work comes to. -/
inductive EngOut (α : Type) where
  | ok (s : State) (x : α)
  | fault (s : State) (code addr : Nat)
  /-- it has asked another module or the host -/
  | wait (s : State)
  /-- it must wait for earlier accesses of the terrace, or for an answer -/
  | busy

/-- One piece of work after another. -/
def EngOut.andThen {α β : Type} (x : EngOut α) (f : State → α → EngOut β) : EngOut β :=
  match x with
  | .ok s x => f s x
  | .fault s code addr => .fault s code addr
  | .wait s => .wait s
  | .busy => .busy

/-- What the split that a tile instruction holds has asked for outside the module, each range once. -/
def State.engGets (s : State) (e : Eng) : List OutRead :=
  match (s.ter? e.uid).bind fun t => t.split? e.sid with | some sp => sp.gets | none => []

/-- Keep what has been asked for. -/
def State.setGets (s : State) (e : Eng) (g : List OutRead) : State :=
  s.updSplit e.uid e.sid fun sp => { sp with gets := g }

/-- Whether an instruction of the terrace has yet to write a register among n bytes of its v registers (R130, R167). -/
def State.regPending (s : State) (e : Eng) (ter off n : Nat) : Bool :=
  ter == e.uid && (match s.ter? ter with
    | none => false
    | some t => t.pending.any fun p =>
        (List.range (n / 128 + 2)).any (fun i => off / 128 + i ≤ (off + n - 1) / 128 && p.reg == .v (off / 128 + i))
          && (match p.clearAt with | some x => (s.core e.core).now < x | none => true))

/-- Cut a range of the cluster window where it passes from one core's part to the next. -/
def spanParts (va n : Nat) : List (Nat × Nat) :=
  let k := 0x80000 - va % 0x80000
  if 0x1000000 ≤ va && va + n ≤ 0x2000000 && k < n then [(va, k), (va + k, n - k)] else [(va, n)]

/-- Read n bytes in any window, a lane-private address in a lane's slice. A range outside the module is asked for, and read
    once it has been answered. -/
def State.tileRead (s : State) (e : Eng) (block : Bool) (lane va n : Nat) : EngOut (List Byte) :=
  if isGlobal va || block then
    let old := s.engGets e
    match s.engRead e old block va n with
    | .val s1 g v => .ok (s1.setGets e g) (natBytes n v)
    | .fault s1 g code => .fault (s1.setGets e g) code va
    | .busy => .busy
    | .wait s1 g => if g.length == old.length then .busy else .wait (s1.setGets e g)
  else
    match s.chipAt (s.engTer e) lane va n with
    | none => .fault s codeViolation va
    | some p =>
      let held := match p with | .loc _ => false | .reg t o => s.regPending e t o n
      let bad := match p with | .loc x => s.meetChip x n | .reg t o => s.meetReg t o n
      if held then .busy
      else if bad then .fault (match p with | .loc x => s.chipErr x | .reg t _ => s.terErr t) 0x16 va
      else .ok (s.correct (s.unitsOf e.access (engReq va p.place.1 n none 0))) (natBytes n (s.chipRead p n))

/-- Write bytes in any window; the answer is the tag and address of an acknowledgement still to come. -/
def State.tileWrite (s : State) (e : Eng) (lane va ty : Nat) (bs : List Byte) : EngOut (List (Nat × Nat)) :=
  let n := bs.length
  if isGlobal va || engWindow va then
    match s.engWrite e va n (bytesNat bs) ty with
    | .ok s1 ack => .ok s1 (ack.map fun t => (t, va)).toList
    | .fault s1 code => .fault s1 code va
    | .busy => .busy
  else
    match s.chipAt (s.engTer e) lane va n with
    | none => .fault s codeViolation va
    | some p =>
      let q := p.place
      let held := match p with | .loc _ => false | .reg t o => s.regPending e t o n
      if held then .busy
      else
        .ok ((s.bindOver e.uid e.before { engReq va q.1 n none (bytesNat bs) with reg := q.2 }).chipWrite p n (bytesNat bs)) []

/-- Read k pieces of n bytes. -/
def State.tileReads (s : State) (e : Eng) (lane va n : Nat) : Nat → EngOut (List Byte)
  | 0 => .ok s []
  | k + 1 => (s.tileRead e false lane va n).andThen fun s bs =>
      (s.tileReads e lane (va + n) n k).andThen fun s r => .ok s (bs ++ r)

/-- Write values one after another, each at an address, in order. -/
def State.tileWrites (s : State) (e : Eng) (lane ty : Nat) : List (Nat × List Byte) → EngOut (List (Nat × Nat))
  | [] => .ok s []
  | w :: ws => (s.tileWrite e lane w.1 ty w.2).andThen fun s a =>
      (s.tileWrites e lane ty ws).andThen fun s r => .ok s (a ++ r)

/-- Read an operand block, which must be valid (R76). -/
def State.tileBlock (s : State) (e : Eng) (va : Nat) : EngOut (List Byte) :=
  (s.tileRead e true 0 (va % 2 ^ 64) 64).andThen fun s blk =>
    if blockValid blk then .ok s blk else .fault s 0x15 (va % 2 ^ 64)

/-- Read blocks. -/
def State.tileBlocks (s : State) (e : Eng) : List Nat → EngOut (List (List Byte))
  | [] => .ok s []
  | a :: r => (s.tileBlock e a).andThen fun s b => (s.tileBlocks e r).andThen fun s bs => .ok s (b :: bs)

/-! ## Claims (R127 to R129) -/

/-- Whether an instruction works by an index pattern: an MMAS. -/
def usesPattern : Instr → Bool
  | .mmas .. => true
  | _ => false

/-- The progress of a slot of the module. -/
def State.prog (s : State) (slot : Nat) : Prog := kget Prog.init s.progress slot

/-- Replace a slot's progress. -/
def State.setProg (s : State) (slot : Nat) (p : Prog) : State :=
  { s with progress := kset Prog.init s.progress slot p }

/-- Whether an instruction of an opcode resumes the claim on a slot (R129). -/
def State.resumes (s : State) (t : Terrace) (n opc : Nat) : Bool :=
  let p := s.prog (t.slot n)
  p.act && p.uid == t.uid && p.opc == opc

/-- The slots a head dimension takes (R127, R160, R161). -/
def slotsFor (n dim : Nat) : List Nat := if 128 < dim then [n, n + 1] else [n]

/-- The slots a tile instruction of a terrace names (R127). -/
def tileSlots (t : Terrace) : Instr → List Nat
  | .mma n .. | .mmas n .. | .mmac n .. | .macld n .. | .macst n .. | .ackpt _ _ n | .acrst _ _ n | .mepi n .. => [n]
  | .attc _ _ n a => slotsFor n (bitsOf (t.sget (a + 2)).toNat 22 15 + 1)
  | .attn n _ _ _ dim _ _ _ _ fold _ => if fold then slotsFor n dim else []
  | _ => []

/-- Claim slots: a resume keeps its place and its popped handles, anything else starts at step 0 and row 0. -/
def State.claimSlots (s : State) (c : Ctx) (ns : List Nat) (opc : Nat) (saved : List Nat) (ha hb : Option Nat) : State :=
  let ord := s.fresh
  ns.foldl (fun s n =>
    let p := s.prog (c.t.slot n)
    if s.resumes c.t n opc then s.setProg (c.t.slot n) { p with flt := false, saved := saved, ord := ord }
    else (s.forget (p.acks.map (·.1))).setProg (c.t.slot n)
      ⟨true, false, opc, 0, 0, c.t.ter, c.uid, ha, hb, c.sp.rc, saved, ord, []⟩) { s with fresh := s.fresh + 1 }

/-- Change the progress of slots. -/
def State.moveProg (s : State) (slots : List Nat) (f : Prog → Prog) : State :=
  slots.foldl (fun s k => s.setProg k (f (s.prog k))) s

/-- What stands before every tile instruction (R126): the trap of a divided terrace, and no effect with no active
    lane. -/
def tile (body : State → Ctx → Res) (s : State) (c : Ctx) : Res :=
  if c.t.divided then .trap s (.illegalOperand c.pc) false
  else if c.active == 0 then .done s none
  else body s c

/-- The split that holds a tile instruction on a slot, with the instruction: one that names the slot. -/
def State.tileOn (s : State) (slot : Nat) : Option (Terrace × Split × Instr) :=
  let p := s.prog slot
  if !p.act || p.flt then none
  else
    match s.ter? p.uid with
    | none => none
    | some t =>
      match t.splits.find? fun x => x.hold == .tile with
      | none => none
      | some sp =>
        match sp.held with
        | none => none
        | some i => if (tileSlots t i).any fun n => t.slot n == slot then some (t, sp, i) else none

/-- An engine working for a split that holds a tile instruction. -/
def tileEng (t : Terrace) (sp : Split) (before : Nat) : Eng := { Eng.ofTer t sp.supervisor before with sid := sp.sid }

/-- A tile instruction stops (R131): FLT is set on its slots, and its split traps. -/
def State.tileStop (s : State) (t : Terrace) (sp : Split) (slots : List Nat) (code addr : Nat) : State :=
  (s.moveProg slots fun p => { p with flt := true }).trapHeld t.uid sp.sid (.whole code addr)

/-- A tile instruction completes: its claims end (R128). -/
def State.tileDone (s : State) (t : Terrace) (sp : Split) (slots : List Nat) : State :=
  (s.moveProg slots fun p => { p with act := false, acks := [], saved := [], handleA := none, handleB := none }).retireHeld
    t.uid sp.sid

/-! ## MMA, MMAS, MMAC (R132 to R141) -/

/-- The opcodes of the tile instructions. -/
def opcMma : Nat := 0x68
def opcMmas : Nat := 0x69
def opcMmac : Nat := 0x6A
def opcMacld : Nat := 0x6B
def opcMacst : Nat := 0x6C
def opcMepi : Nat := 0x6F
def opcAcc : Nat := 0x70
def opcAttn : Nat := 0x71
def opcAttc : Nat := 0x72

/-- A 64-bit value of two s registers, and one register. -/
def Terrace.sPair (t : Terrace) (n : Nat) : Nat := (t.sget (n + 1)).toNat * 2 ^ 32 + (t.sget n).toNat
def Terrace.sVal (t : Terrace) (n : Nat) : Nat := (t.sget n).toNat

/-- What an alley would give a popping instruction: the k-th handle, or what stops it. -/
inductive PopRes where
  | handle (loc h : Nat)
  | trap (tr : Trap)
  | wait (loc : Nat)

/-- Look at the k-th handle of the alley a quad names, for a terrace in its turn (R133, R309). -/
def State.popLook (s : State) (c : Ctx) (q k : Nat) : PopRes :=
  let va := c.rt.sVal q
  match s.alleyAt c.t va with
  | .error e => .trap (alleyTrap c e va)
  | .ok x =>
    let a := s.alley x
    let held := (a.tail + 2 ^ 32 - a.head) % 2 ^ 32
    let first := match (s.popQueue x).head? with | some u => u == c.uid | none => true
    if held ≤ k || !first then .wait x else .handle x (s.rdNat (x + 64 + 4 * ((a.head + k) % a.cap)) 4)

/-- Take a place in the order of an alley's waiters. -/
def State.joinPop (s : State) (uid x : Nat) : State :=
  let q := s.popQueue x
  if q.contains uid then s else s.setPopQueue x (q ++ [uid])

/-- Take the head handle in its turn. -/
def State.takePop (s : State) (uid x : Nat) : State := ((s.setPopQueue x ((s.popQueue x).filter (· != uid))).alleyPop x).2

/-- The pops of an MMA (R133): both handles are looked at before either is taken. The answer is the handles. -/
def popHandles (qa qb : Nat) (pa pb : Bool) (s : State) (c : Ctx) (use : State → Option Nat → Option Nat → Res) : Res :=
  let la := if pa then some (s.popLook c qa 0) else none
  let same := pa && pb && c.rt.sVal qa == c.rt.sVal qb
  let lb := if pb then some (s.popLook c qb (if same then 1 else 0)) else none
  let wait := fun (s : State) (x : Nat) => Res.wait (s.joinPop c.uid x) (.alley x)
  match la, lb with
  | none, none => use s none none
  | some (.trap tr), _ | _, some (.trap tr) => .trap s tr false
  | some (.wait x), some (.wait y) | some (.wait x), some (.handle y _) | some (.handle y _), some (.wait x) =>
    wait (s.joinPop c.uid y) x
  | some (.wait x), none | none, some (.wait x) => wait s x
  | some (.handle x h), none =>
    if h % 64 != 0 then .trap s (.illegalOperand c.pc) false
    else if !s.returnedAll c.t 3 c.ord then .wait s (.returned 3 c.ord)
    else use ((s.takePop c.uid x).acquire c.t 3) (some h) none
  | none, some (.handle x h) =>
    if h % 64 != 0 then .trap s (.illegalOperand c.pc) false
    else if !s.returnedAll c.t 3 c.ord then .wait s (.returned 3 c.ord)
    else use ((s.takePop c.uid x).acquire c.t 3) none (some h)
  | some (.handle x h), some (.handle y k) =>
    if h % 64 != 0 || k % 64 != 0 then .trap s (.illegalOperand c.pc) false
    else if !s.returnedAll c.t 3 c.ord then .wait s (.returned 3 c.ord)
    else use (((s.takePop c.uid x).takePop c.uid y).acquire c.t 3) (some h) (some k)

/-- Whether an operand quad's base and stride are multiples of 64 (R133). -/
def quadOk (t : Terrace) (q : Nat) (pop : Bool) : Bool := t.sVal (q + 2) % 64 == 0 && (pop || t.sPair q % 64 == 0)

/-- Issue an instruction of the matrix engine, its own checks having passed; `qs` are its operand quads. -/
def matrixIssue (n opc qa qb : Nat) (pa pb : Bool) (saved : List Nat) (s : State) (c : Ctx) : Res :=
  let hold := fun (s : State) (ha hb : Option Nat) => Res.hold (s.claimSlots c [n] opc saved ha hb) .tile
  if s.resumes c.t n opc then hold s none none else popHandles qa qb pa pb s c hold

/-- MMA (R132 to R135). -/
def execMma (n a b mr nc kb : Nat) (pa pb : Bool) (s : State) : Host.Outcome State Fault Refusal :=
  issue (.mma n a b mr nc kb pa pb) (tile (withSlots [n] fun s c =>
    if !quadOk c.rt a pa || !quadOk c.rt b pb then .trap s (.illegalOperand c.pc) false
    else matrixIssue n opcMma a b pa pb [] s c)) s

/-- The index pattern of an MMAS (R137): eight words. -/
def patternOf (t : Terrace) (d isel : Nat) : List Nat := (List.range 8).map fun i => (t.vget d (8 * isel + i)).toNat

/-- The positions kept of group g. -/
def keptOf (pat : List Nat) (g : Nat) : Nat × Nat :=
  let x := pat.getD (g / 8) 0 / 16 ^ (g % 8)
  (x % 4, x / 4 % 4)

/-- Whether a group below G of a pattern does not keep p0 < p1 (R137). -/
def patternBad (pat : List Nat) (groups : Nat) : Bool := (List.range groups).any fun g => (keptOf pat g).2 ≤ (keptOf pat g).1

/-- The width class of the B block at an address as an MMAS finds it at issue, read as its engine reads it (R130). -/
def State.peekClass (s : State) (c : Ctx) (va : Nat) : EngOut Nat :=
  (s.tileRead (tileEng c.t c.sp s.fresh) true 0 va 64).andThen fun s b => .ok s (fmtClass (byteAt b 0))

/-- What an instruction waits for whose engine has asked outside the module, or must wait for earlier accesses. -/
def State.readWait (s : State) (c : Ctx) : Wait :=
  match (s.engGets (tileEng c.t c.sp s.fresh)).find? fun g => g.got.isNone with
  | some g => .outside g.tag
  | none => .before s.fresh

/-- The B block that an MMAS on a slot reads first: of the handle it popped or would pop, or of its base. -/
def State.firstB (s : State) (c : Ctx) (n a b : Nat) (pa pb : Bool) : Option Nat :=
  let p := s.prog (c.t.slot n)
  let again := s.resumes c.t n opcMmas
  let base := if !pb then some (c.rt.sPair b) else if again then p.handleB
    else (match s.popLook c b (if pa && c.rt.sVal a == c.rt.sVal b then 1 else 0) with | .handle _ h => some h | _ => none)
  base.map fun x => (x + (if again then 2 * p.step else 0) * 64) % 2 ^ 64

/-- MMAS (R136 to R138). The groups of the pattern are those of the width class, which the first B block tells: it is read
    before the slot is claimed where only it can tell. Where that read faults, the step meets the fault; a step whose class
    has a group that is not kept in order traps there (DEDUCED, log entry 25). -/
def execMmas (n d a b mr nc kb isel : Nat) (pa pb : Bool) (s : State) : Host.Outcome State Fault Refusal :=
  issue (.mmas n d a b mr nc kb isel pa pb) (tile (withSlots [n] fun s c =>
    let pat := patternOf c.rt d isel
    let go := fun (s : State) => matrixIssue n opcMmas a b pa pb pat s c
    if !quadOk c.rt a pa || !quadOk c.rt b pb || patternBad pat 15 then .trap s (.illegalOperand c.pc) false
    else if !patternBad pat 60 then go s
    else
      match (s.firstB c n a b pa pb).map (s.peekClass c) with
      | some (.ok s1 cls) => if patternBad pat (max 15 (classCap cls / 2)) then .trap s (.illegalOperand c.pc) false else go s1
      | some .busy => .wait s (s.readWait c)
      | some (.wait s1) => .wait s1 (s1.readWait c)
      | some (.fault ..) | none => go s)) s

/-- The tensor shape record (R140). -/
structure Shape where
  hin : Nat
  win : Nat
  wout : Nat
  fh : Nat
  fw : Nat
  cb : Nat
  sy : Nat
  sx : Nat
  dy : Nat
  dx : Nat
  padt : Nat
  padl : Nat
  pixst : Nat
  rowst : Nat
  padv : Nat
deriving DecidableEq, Repr

/-- The record in 32 bytes. -/
def shapeOf (bs : List Byte) : Shape :=
  let f := fieldOf bs
  ⟨f 0 2, f 2 2, f 4 2, f 6 1, f 7 1, f 8 1, f 9 1, f 10 1, f 11 1, f 12 1, f 13 1, f 14 1, f 16 4, f 20 4, f 24 4⟩

/-- Whether a record meets its limits for KB blocks. -/
def shapeOk (bs : List Byte) (kb : Nat) : Bool :=
  let x := shapeOf bs
  1 ≤ x.hin && 1 ≤ x.win && 1 ≤ x.wout && 1 ≤ x.fh && x.fh ≤ 16 && 1 ≤ x.fw && x.fw ≤ 16 && 1 ≤ x.cb && 1 ≤ x.sy
    && 1 ≤ x.sx && 1 ≤ x.dy && 1 ≤ x.dx && fieldOf bs 15 1 == 0 && x.pixst % 64 == 0 && 64 * x.cb ≤ x.pixst
    && x.rowst % 64 == 0 && fieldOf bs 28 4 == 0 && x.fh * x.fw * x.cb == kb

/-- MMAC (R139 to R141). An image base that is not a multiple of 64, or a record that is not at a multiple of 32, takes the
    illegal-operand trap: R139 gives the alignment, and not what a breach of it does (DESIGN CHOICE, log entry 43). -/
def execMmac (n a b mr nc kb : Nat) (pb : Bool) (s : State) : Host.Outcome State Fault Refusal :=
  issue (.mmac n a b mr nc kb pb) (tile (withSlots [n] fun s c =>
    let ra := c.rt.sVal (a + 3)
    if !quadOk c.rt b pb || c.rt.sPair a % 64 != 0 || ra % 32 != 0 || ra < 0x80000 || 0x100000 < ra + 32 then
      .trap s (.illegalOperand c.pc) false
    else
      match s.tileRead (tileEng c.t c.sp s.fresh) false 0 ra 32 with
      | .busy | .wait _ => .wait s (.before s.fresh)
      | .fault s1 code va => .trap s1 (.whole code va) false
      | .ok s1 bs =>
        if !shapeOk bs kb then .trap s1 (.illegalOperand c.pc) false
        else matrixIssue n opcMmac a b false pb (bs.map (·.toNat)) s1 c)) s

/-- The address of the A block of row i and step k, or none for a padding block (R133, R141). -/
def aAddr (i : Instr) (t : Terrace) (p : Prog) (row k : Nat) : Option Nat :=
  match i with
  | .mmac _ a _ _ _ _ _ =>
    let x := shapeOf (p.saved.map (BitVec.ofNat 8))
    let o := t.sVal (a + 2) + row
    let cb := k % x.cb
    let fx := k / x.cb % x.fw
    let fy := k / (x.cb * x.fw)
    let iy : Int := (o / x.wout * x.sy + fy * x.dy : Nat) - (x.padt : Int)
    let ix : Int := (o % x.wout * x.sx + fx * x.dx : Nat) - (x.padl : Int)
    if 0 ≤ iy && iy < x.hin && 0 ≤ ix && ix < x.win then
      some ((t.sPair a + iy.toNat * x.rowst + ix.toNat * x.pixst + cb * 64) % 2 ^ 64)
    else none
  | .mma _ a _ _ _ _ pa _ | .mmas _ _ a _ _ _ _ _ pa _ =>
    some (((if pa then p.handleA.getD 0 else t.sPair a) + row * t.sVal (a + 2) + k * 64) % 2 ^ 64)
  | _ => none

/-- The address of B's block k of column j. -/
def bAddr (b : Nat) (pb : Bool) (t : Terrace) (p : Prog) (j k : Nat) : Nat :=
  ((if pb then p.handleB.getD 0 else t.sPair b) + j * t.sVal (b + 2) + k * 64) % 2 ^ 64

/-- The geometry of a matrix instruction: its B quad and pop bit, MR, NC, KB. -/
def matrixOf : Instr → Option (Nat × Bool × Nat × Nat × Nat)
  | .mma _ _ b mr nc kb _ pb => some (b, pb, mr, nc, kb)
  | .mmas _ _ _ b mr nc kb _ _ pb => some (b, pb, mr, nc, kb)
  | .mmac _ _ b mr nc kb pb => some (b, pb, mr, nc, kb)
  | _ => none

/-- The elements of a block as exact values. -/
def blockVals (blk : List Byte) : List Xr := (List.range (capacity (byteAt blk 0))).map (elemValue blk)

/-- The exact sum of products of two lists (R80). -/
def dotVals (a b : List Xr) : Xr := sumXr (a.zipWith Xr.mul b)

/-- The elements of B's window that an MMAS pattern keeps, in the order of A's elements (R138). -/
def keepVals (pat : List Nat) (vals : List Xr) : List Xr :=
  (List.range (vals.length / 4)).flatMap fun g =>
    let k := keptOf pat g
    [vals.getD (4 * g + k.1) (.zero false), vals.getD (4 * g + k.2) (.zero false)]

/-- A block step's columns (R134, R138): the class, and for each column the values its A elements meet. -/
def State.stepCols (s : State) (e : Eng) (i : Instr) (t : Terrace) (p : Prog) (b : Nat) (pb : Bool) (nc k : Nat) :
    EngOut (Option (Nat × List (List Xr))) :=
  let double := usesPattern i
  let addrs := (List.range nc).flatMap fun j =>
    if double then [bAddr b pb t p j (2 * k), bAddr b pb t p j (2 * k + 1)] else [bAddr b pb t p j k]
  (s.tileBlocks e addrs).andThen fun s bs =>
    let cls := fmtClass (byteAt (bs.headD []) 0)
    if (bs.any fun x => fmtClass (byteAt x 0) != cls) || (double && cls == 3) then .ok s none
    else if double then
      .ok s (some (cls, (List.range nc).map fun j =>
        keepVals p.saved (blockVals (bs.getD (2 * j) []) ++ blockVals (bs.getD (2 * j + 1) []))))
    else .ok s (some (cls, bs.map blockVals))

/-- Apply a row of a step. -/
def State.applyRow (s : State) (slot row : Nat) (a : List Xr) (cols : List (List Xr)) : State :=
  cols.zipIdx.foldl (fun s c =>
    s.accPut slot row c.2 (BitVec.ofNat 32 (accAdd (s.accGet slot row c.2).toNat (dotVals a c.1)))) s

/-- The A blocks of a step from a row on (R134): the values of each row up to the first that stops the step, and what stops
    it. -/
def stepRows (e : Eng) (i : Instr) (t : Terrace) (p : Prog) (k cls a0 : Nat) :
    Nat → Nat → State → EngOut (List (List Xr) × Option (Nat × Nat))
  | 0, _, s => .ok s ([], none)
  | n + 1, row, s =>
    let a : EngOut (Option (List Xr)) := match aAddr i t p row k with
      | none =>
        let pad := f32 (shapeOf (p.saved.map (BitVec.ofNat 8))).padv
        .ok s (some (List.replicate (classCap cls) pad))
      | some va => (s.tileBlock e va).andThen fun s blk =>
        .ok s (if fmtClass (byteAt blk 0) == cls then some (blockVals blk) else none)
    match a with
    | .busy => .busy
    | .wait s => .wait s
    | .fault s code addr => .ok s ([], some (code, addr))
    | .ok s none => .ok s ([], some (0x15, a0))
    | .ok s (some vals) => (stepRows e i t p k cls a0 n (row + 1) s).andThen fun s r => .ok s (vals :: r.1, r.2)

/-- One block step of a slot's instruction, from its STEP and ROW (R134, R138, R141); a resume past the last step makes
    none. None where it can make no step now. Where row 0's A block is a padding block, which has no address, a mismatch of
    the width classes is logged against address 0 (DESIGN CHOICE, log entry 44). -/
def State.blockStep (s : State) (slot : Nat) (t : Terrace) (sp : Split) (i : Instr) : Option State :=
  match matrixOf i with
  | none => none
  | some (b, pb, mr, nc, kb) =>
    let p := s.prog slot
    let k := p.step
    let e := tileEng t sp p.ord
    let a0 := (aAddr i t p 0 k).getD 0
    if kb ≤ k then some (s.tileDone t sp [slot])
    else if s.flaws.contains (.slot (slot / 4) (slot % 4)) then
      some ((s.slotErr slot).tileStop t sp [slot] 0x16 (slot % 4))
    else
      match s.stepCols e i t p b pb nc k with
      | .busy => none
      | .wait s1 => some s1
      | .fault s1 code addr => some (s1.tileStop t sp [slot] code addr)
      | .ok s1 none => some (s1.tileStop t sp [slot] 0x15 a0)
      | .ok s1 (some (cls, cols)) =>
        if usesPattern i && patternBad p.saved (classCap cls / 2) then
          some ((s1.moveProg [slot] fun p => { p with flt := true }).trapHeld t.uid sp.sid (.illegalOperand sp.pc))
        else
          match stepRows e i t p k cls a0 (mr - p.row) p.row s1 with
          | .busy | .fault .. => none
          | .wait s2 => some s2
          | .ok s2 (rows, stop) =>
            let s3 := rows.zipIdx.foldl (fun s r => s.applyRow slot (p.row + r.2) r.1 cols) s2
            match stop with
            | some (code, addr) =>
              some ((s3.moveProg [slot] fun x => { x with row := p.row + rows.length }).tileStop t sp [slot] code addr)
            | none =>
              let s4 := (s3.countVf t.core t.vf evMstep 1).moveProg [slot] fun p => { p with step := k + 1, row := 0 }
              some (if k + 1 < kb then s4 else s4.tileDone t sp [slot])

/-- Whether an instruction is the oldest of those the matrix engine of its core serves (R127). -/
def State.engineTurn (s : State) (slot : Nat) : Bool :=
  (List.range 4).all fun n =>
    let k := slot / 4 * 4 + n
    match s.tileOn k with
    | some (_, _, i) => (matrixOf i).isNone || (s.prog slot).ord ≤ (s.prog k).ord
    | none => true

/-- The event BLOCK_STEP. -/
def execBlockStep (core slot : Nat) (s : State) : Host.Outcome State Fault Refusal :=
  let k := core * 4 + slot
  match s.tileOn k with
  | none => .fault .notEnabled
  | some (t, sp, i) =>
    match s.blockStep k t sp i with
    | none => .fault .notEnabled
    | some s1 => event (slot < 4 && t.core == core && s.engineTurn k) s s1

/-! ## Slot housekeeping (R142 to R145) -/

/-- MACZ (R143). -/
def execMacz (n : Nat) (s : State) : Host.Outcome State Fault Refusal :=
  issue (.macz n) (tile (withSlots [n] fun s c =>
    let k := c.t.slot n
    let lo := accKey k 0 0
    .done { s.setProg k Prog.init with
      acc := s.acc.filter fun e => !(lo ≤ e.1 && e.1 < lo + 16384)
      flaws := s.flaws.filter fun f => f != .slot c.t.core n } none)) s

/-- The word MPROG writes (R128). Its seven bits of ROW show 0 while all 128 rows of a claim that stands are done (DESIGN
    CHOICE, log entry 52). -/
def progWord (p : Prog) (apx : Bool) : Nat :=
  p.act.toNat * 2 ^ 31 + p.flt.toNat * 2 ^ 30 + apx.toNat * 2 ^ 29 + p.opc % 128 * 2 ^ 22 + p.step % 256 * 2 ^ 14
    + p.row % 128 * 2 ^ 7 + p.ter % 64

/-- MPROG (R143). -/
def execMprog (d : Dst) (n : Nat) (s : State) : Host.Outcome State Fault Refusal :=
  issue (.mprog d n) (fun s c =>
    if !s.slotHeld c.t n then .trap s (.whole codeViolation n) false
    else
      .done (s.updTer c.uid fun t => t.writeDst d false c.active fun _ =>
        [BitVec.ofNat 32 (progWord (s.prog (c.t.slot n)) c.t.apx)]) none) s

/-- MACRD (R145). -/
def execMacrd (d : Nat) (a : Src) (n : Nat) (s : State) : Host.Outcome State Fault Refusal :=
  issue (.macrd d a n) (withSlots [n] fun s c =>
    let r := c.uni a
    if 127 < r then .trap s (.illegalOperand c.pc) false
    else if c.active != 0 && s.flaws.contains (.slot c.t.core n) then .trap (s.slotErr (c.t.slot n)) (.whole 0x16 n) false
    else
      .done (s.updTer c.uid fun t => t.writeDst (.v d) false c.active fun l =>
        (List.range 4).map fun j => s.accGet (c.t.slot n) r (32 * j + l)) none) s

/-- MACWR (R145). -/
def execMacwr (d : Nat) (a : Src) (n : Nat) (s : State) : Host.Outcome State Fault Refusal :=
  issue (.macwr d a n) (withSlots [n] fun s c =>
    let r := c.uni a
    if 127 < r then .trap s (.illegalOperand c.pc) false
    else
      .done (c.lanes.foldl (fun s l => (List.range 4).foldl (fun s j =>
        s.accPut (c.t.slot n) r (32 * j + l) (c.rt.vget (d + j) l)) s) s) none) s

/-- Whether stores of an instruction to a range wait for a gang's crossing (R272). -/
def State.storeGated (s : State) (c : Ctx) (va n : Nat) : Bool :=
  match c.t.gang with
  | some g => s.gated c.t && isGlobal va && s.stagedRange c.t c.sp.supervisor (.gang g) va n
  | none => false

/-- The address of MACLD and MACST (R24). -/
def macAddr (t : Terrace) (a : Nat) (b : Src) : Nat :=
  let base := if t.swide a then t.sPair a else t.sVal a
  let off : Int := match b with | .imm w => signExt 32 w.toNat | .s n => t.sVal n | _ => 0
  wrapTo 64 ((base : Int) + off)

/-- MACLD and MACST (R144). An address in the lane-private window names the slice of the lowest active lane: R144 admits any
    data window, and does not say whose slice (DESIGN CHOICE, log entry 45). -/
def macCopy (n opc a : Nat) (b : Src) (s : State) (c : Ctx) : Res :=
  let va := macAddr c.t a b
  if va % 64 != 0 then .trap s (.illegalOperand c.pc) false
  else if opc == opcMacst && s.storeGated c va 65536 then .stay
  else .hold (s.claimSlots c [n] opc [(lowLane c.active).getD 0] none none) .tile

/-- MACLD. -/
def execMacld (n a : Nat) (b : Src) (s : State) : Host.Outcome State Fault Refusal :=
  issue (.macld n a b) (tile (withSlots [n] (macCopy n opcMacld a b))) s
/-- MACST. -/
def execMacst (n a : Nat) (b : Src) (s : State) : Host.Outcome State Fault Refusal :=
  issue (.macst n a b) (tile (withSlots [n] (macCopy n opcMacst a b))) s

/-- ACKPT and ACRST (R143): the length and the address are read at issue. -/
def ckptCopy (n : Nat) (d a : Src) (s : State) (c : Ctx) : Res :=
  let len := c.uni d
  let va := c.uni a
  let win := (0x80000 ≤ va && va < 0x100000) || (0x200000 ≤ va && va < 0x400000)
  if !win || va % 64 != 0 || len % 64 != 0 || len == 0 || 65536 < len then .trap s (.illegalOperand c.pc) false
  else .hold (s.claimSlots c [n] opcAcc [len, va] none none) .tile

/-- ACKPT. -/
def execAckpt (d a : Src) (n : Nat) (s : State) : Host.Outcome State Fault Refusal :=
  issue (.ackpt d a n) (tile (withSlots [n] (ckptCopy n d a))) s
/-- ACRST. -/
def execAcrst (d a : Src) (n : Nat) (s : State) : Host.Outcome State Fault Refusal :=
  issue (.acrst d a n) (tile (withSlots [n] (ckptCopy n d a))) s

/-! ## MEPI (R146 to R150) -/

/-- The element size of a target, and its type. -/
def tgtType (tgt : Nat) : Nat :=
  match tgt with | 0 => 8 | 1 => 9 | 2 => 10 | 3 => 12 | 4 => 13 | 5 => 3 | 6 => 2 | _ => 1
def tgtSize (tgt : Nat) : Nat := if tgt == 8 then 64 else tyWidth (tgtType tgt) / 8

/-- A scale vector (R146): n values as f32 bits, or what stops the reading. -/
def State.vecOf (s : State) (c : Ctx) (a n : Nat) : EngOut (List Nat) :=
  if a == 0xFFFFFFFF then .ok s (List.replicate n 0x3F800000)
  else if a < 0x80000 || 0x100000 < a + 4 * n then .fault s codeViolation a
  else
    match s.chipAt c.t 0 a (4 * n) with
    | some (.loc x) =>
      if s.meetChip x (4 * n) then .fault (s.chipErr x) 0x16 a else .ok s ((List.range n).map fun i => s.rdNat (x + 4 * i) 4)
    | _ => .fault s codeViolation a

/-- MEPI (R146, R147): C advances at the first issue, and every row draws from the C before it (R149). -/
def execMepi (n a b mr nc tgt rnd : Nat) (sat : Bool) (fam bfmt : Nat) (s : State) : Host.Outcome State Fault Refusal :=
  issue (.mepi n a b mr nc tgt rnd sat fam bfmt) (tile (withSlots [n] fun s c =>
    let dst := c.rt.sPair a
    let stride := c.rt.sVal (a + 2)
    let al := c.rt.sVal (a + 3)
    let size := tgtSize tgt
    let vr := c.rt.sVal b
    let vc := c.rt.sVal (b + 1)
    let one := fun x => x == 0xFFFFFFFF
    let rec_ : Except Nat Bool := if al == 0 then .ok true else
      (match s.alleyAt c.t al with
       | .error e => .error e
       | .ok x => .ok ((s.alley x).record c.t.sender c.t.ter).isSome)
    if dst % size != 0 || stride % size != 0 || (!one vr && vr % 4 != 0) || (!one vc && vc % 4 != 0) then
      .trap s (.illegalOperand c.pc) false
    else
      match rec_ with
      | .error e => .trap (s.alleyErr c.t e) (alleyTrap c e al) false
      | .ok false => .trap s (.illegalOperand c.pc) false
      | .ok true =>
        match (s.vecOf c vr mr).andThen fun s r => (s.vecOf c vc nc).andThen fun s k => .ok s (r ++ k) with
        | .busy | .wait _ => .wait s (.before s.fresh)
        | .fault s1 code va => .trap s1 (.whole code va) false
        | .ok s1 vec =>
          let row := nc * size
          if (List.range mr).any fun i => s.storeGated c ((dst + i * stride) % 2 ^ 64) row then
            .stay
          else
            .hold (s1.claimSlots c [n] opcMepi vec none none) .tile)) s

/-- The bytes of a row of MEPI, as values with the address offsets they are stored at (R147). -/
def mepiRow (nc tgt rnd : Nat) (sat : Bool) (fam bfmt : Nat) (acc : Nat → Nat) (rs : Nat) (cs : Nat → Nat)
    (u : Nat → Nat) : List (Nat × List Byte) :=
  let y := fun j => Xr.mul (Xr.mul (f32 (acc j)) (f32 rs)) (f32 (cs j))
  if tgt != 8 then
    let ty := tgtType tgt
    let n := tgtSize tgt
    (List.range nc).map fun j => (j * n, natBytes n (roundToType ty rnd (u j) sat (y j)))
  else
    let fm := if fmtClass bfmt == 0 then ElemFmt.fam fam else .kind bfmt
    let cap := capacity bfmt
    (List.range ((nc + cap - 1) / cap)).map fun b =>
      let k := min cap (nc - b * cap)
      (64 * b, blockOf fm ((List.range k).map fun i => y (b * cap + i)) (if k < cap then k else 0) rnd sat
        fun i => u (b * cap + i))

end Sys2Proof.Machine
end

