-- ==== Sys2Proof/Machine/Attn.lean ====
section
/-! DEFINITION. Attention (R156 to R162, R419): ATTN, ATTC, job cards, the rows of tile instructions, and the events
JOB_CARD, WATCHDOG_EXPIRY and ROW_BOUNDARY. -/

namespace Sys2Proof.Machine

/-- A piece of engine work for each element of a list, in order. -/
def engMap {α β : Type} (f : State → α → EngOut β) : List α → State → EngOut (List β)
  | [], s => .ok s []
  | x :: r, s => (f s x).andThen fun s b => (engMap f r s).andThen fun s bs => .ok s (b :: bs)

/-! ## Geometry -/

/-- The bytes of a triple record (R158). -/
def recordSize (dim : Nat) : Nat := 64 * (((dim + 2) * 4 + 63) / 64)

/-- Whether n bytes lie in one of the windows of a triple area (R156, R161). -/
def areaWindow (va n : Nat) : Bool :=
  (0x80000 ≤ va && va + n ≤ 0x100000) || (0x1000000 ≤ va && va + n ≤ 0x2000000) || (0x4000000 ≤ va && va + n ≤ 0x8000000)

/-- The fields of an ATTN. -/
structure AttnForm where
  slot : Nat
  a : Nat
  b : Nat
  q : Nat
  dim : Nat
  chunks : Nat
  len : Nat
  kw : Nat
  vw : Nat
  fold : Bool
  causal : Bool
deriving DecidableEq, Repr

/-- The ATTN a split holds. -/
def attnForm : Instr → Option AttnForm
  | .attn n a b q dim chunks lc kw vw fold causal => some ⟨n, a, b, q, dim, chunks, chunkLen lc, kw, vw, fold, causal⟩
  | _ => none

/-- The key and value blocks of a row or token. -/
def AttnForm.nk (f : AttnForm) : Nat := (f.dim + classCap f.kw - 1) / classCap f.kw
def AttnForm.nv (f : AttnForm) : Nat := (f.dim + classCap f.vw - 1) / classCap f.vw

/-- The slots an ATTN claims. -/
def AttnForm.slots (f : AttnForm) : List Nat := if f.fold then slotsFor f.slot f.dim else []

/-- The bytes of its triple area. -/
def AttnForm.areaBytes (f : AttnForm) : Nat := f.chunks * f.q * recordSize f.dim

/-! ## ATTN's issue (R156, R157) -/

/-- The attention engines of a cluster that serve (R16, R418); one does where all four are harvested (DESIGN CHOICE, log
    entry 42). -/
def State.attnEngines (s : State) (cluster : Nat) : List Nat :=
  match (List.range 4).filter fun n => !s.unitOut (unitAttn cluster n) with
  | [] => [0]
  | ns => ns

/-- The cards of an ATTN, each with the engine that takes it: any, as the device chooses. -/
def State.dealCards (s : State) (cluster n : Nat) : List Card :=
  let es := s.attnEngines cluster
  (List.range ((n + 3) / 4)).map fun j => ⟨j, es.getD (Config.choose (s.tick + j) % es.length) 0, 0⟩

/-- ATTN with its list read (R157): the job starts. -/
def attnStart (f : AttnForm) (s : State) (c : Ctx) (raw : List Byte) : Res :=
  match parseKv raw with
  | none => .trap s (.illegalOperand c.pc) false
  | some l =>
    if l.exts.any fun x => x.stride < 64 * (f.nk + f.nv) then .trap s (.illegalOperand c.pc) false
    else
      let s1 := (s.acquire c.t c.scope).claimSlots c f.slots opcAttn [] none none
      let cl := clusterOf c.t.core
      let job : Job := ⟨c.uid, c.sid, cl, s1.fresh, l.exts.map fun x => (x.base, x.start, x.len, x.stride), l.e,
        s1.dealCards cl f.chunks, false⟩
      .hold { s1 with fresh := s1.fresh + 1, tick := s1.tick + (f.chunks + 3) / 4, jobs := s1.jobs ++ [job] } .tile

/-- ATTN (R156 to R160, R285). -/
def execAttn (n a b q dim chunks lc kw vw : Nat) (fold causal : Bool) (s : State) :
    Host.Outcome State Fault Refusal :=
  issue (.attn n a b q dim chunks lc kw vw fold causal) (tile fun s c =>
    let f : AttnForm := ⟨n, a, b, q, dim, chunks, chunkLen lc, kw, vw, fold, causal⟩
    let area := c.rt.sVal (b + 3)
    let other := match c.t.gang.bind s.gang? with | some g => chunkLen g.lc != f.len | none => false
    if (fold && 128 < dim && n == 3) || other || c.rt.sPair a % 64 != 0 || c.rt.sVal (a + 2) % 64 != 0 || area % 64 != 0 then
      .trap s (.illegalOperand c.pc) false
    else if !areaWindow area f.areaBytes then .trap s (.whole codeViolation area) false
    else withSlots f.slots (fun s c => withList false (c.rt.sPair b) (fun s _ raw => attnStart f (s.freeList c) c raw) s c) s c) s

/-! ## Job cards (R157, R158) -/

/-- An operand block of a class, as exact values. -/
def State.attnBlock (s : State) (e : Eng) (cls va : Nat) : EngOut (List Xr) :=
  (s.tileBlock e va).andThen fun s blk =>
    if fmtClass (byteAt blk 0) == cls then .ok s (blockVals blk) else .fault s 0x15 (va % 2 ^ 64)

/-- Consecutive blocks of a class. -/
def State.attnBlocks (s : State) (e : Eng) (cls va n : Nat) : EngOut (List (List Xr)) :=
  engMap (fun s i => s.attnBlock e cls (va + 64 * i)) (List.range n) s

/-- A token's record address in a list. -/
def Job.recordAt (j : Job) (p : Nat) : Nat :=
  match j.exts.find? fun x => x.2.1 ≤ p && p < x.2.1 + x.2.2.1 with
  | some x => x.1 + (p - x.2.1) * x.2.2.2
  | none => 0

/-- A token's key blocks and its value vector; none where the leaf of a page of its blocks is absent (R157, R369). -/
def State.token (s : State) (e : Eng) (f : AttnForm) (j : Job) (p : Nat) :
    EngOut (Nat × Option (List (List Xr) × List Xr)) :=
  let r := j.recordAt p
  let keys := s.attnBlocks e f.kw r f.nk
  let both := keys.andThen fun s ks => (s.attnBlocks e f.vw (r + 64 * f.nk) f.nv).andThen fun s vs =>
    .ok s (ks, (vs.flatten).take f.dim)
  match both with
  | .ok s x => .ok s (p, some x)
  | .fault s code addr =>
    if code == codePage && s.leafAbsent e.vf (dieOf e.core) addr then .ok s (p, none) else .fault s code addr
  | .wait s => .wait s
  | .busy => .busy

/-- The score of a query row and a token (R80, R157). -/
def scoreOf (f : AttnForm) (q k : List (List Xr)) : Nat :=
  (List.range f.nk).foldl (fun x m =>
    let cnt := min (classCap f.kw) (f.dim - m * classCap f.kw)
    accAdd x (sumXr (((q.getD m []).zipWith Xr.mul (k.getD m [])).take cnt))) 0

/-- Whether a token is masked by the end of the history or by CAUSAL. -/
def maskedBy (f : AttnForm) (e i p : Nat) : Bool := e ≤ p || (f.causal && e + i < p + f.q)

/-- The bytes of a record (R158). -/
def recordOf (dim : Nat) (t : Triple) : List Byte :=
  let bs := natBytes 4 t.m ++ natBytes 4 t.l ++ (t.o.take dim).flatMap (natBytes 4)
  bs ++ List.replicate (recordSize dim - bs.length) 0

/-- Cut bytes into pieces of 64 with their addresses. -/
def pieces64 (va : Nat) (bs : List Byte) : List (Nat × List Byte) :=
  (List.range (bs.length / 64)).map fun i => (va + 64 * i, (bs.drop (64 * i)).take 64)

/-- One card (R158): its reads, and then its records; the answer says whether a token was masked for absence. -/
def State.runCard (s : State) (e : Eng) (f : AttnForm) (t : Terrace) (j : Job) (k : Nat) : EngOut Bool :=
  let us := (List.range 4).filterMap fun i => if 4 * k + i < f.chunks then some (4 * k + i) else none
  let c0 := t.sVal (f.b + 2)
  let ps := us.flatMap fun u => (List.range f.len).filterMap fun i =>
    let p := (c0 + u) * f.len + i
    if p < j.e then some p else none
  (engMap (fun s i => s.attnBlocks e f.kw (t.sPair f.a + i * t.sVal (f.a + 2)) f.nk) (List.range f.q) s).andThen fun s qs =>
  (engMap (fun s p => s.token e f j p) ps s).andThen fun s toks =>
    let recs := us.flatMap fun u => (List.range f.q).flatMap fun i =>
      let mine := toks.filterMap fun x =>
        if x.1 / f.len == c0 + u && !maskedBy f j.e i x.1 then
          x.2.map fun kv => (scoreOf f (qs.getD i []) kv.1, kv.2)
        else none
      pieces64 (t.sVal (f.b + 3) + (u * f.q + i) * recordSize f.dim) (recordOf f.dim (chunkTriple f.dim mine))
    (s.tileWrites e 0 0 recs).andThen fun s _ => .ok s (toks.any fun x => x.2.isNone)

/-- The job of a terrace. -/
def State.job? (s : State) (uid : Nat) : Option Job := s.jobs.find? fun j => j.uid == uid

/-- Replace a job. -/
def State.setJob (s : State) (j : Job) : State := { s with jobs := s.jobs.map fun x => if x.uid = j.uid then j else x }

/-- Drop a terrace's job. -/
def State.dropJob (s : State) (uid : Nat) : State := { s with jobs := s.jobs.filter fun j => j.uid != uid }

/-- Whether one of the cluster's engines serves a card: fewer older cards wait than there are engines (R158). Where all four
    are harvested the spec is silent, and one engine serves (DESIGN CHOICE, log entry 42). -/
def State.cardServed (s : State) (j : Job) (k : Nat) : Bool :=
  let older := (s.jobs.filter fun x => x.cluster == j.cluster && x.ord < j.ord).foldl (fun n x => n + x.cards.length) 0
  older + (j.cards.filter fun c => c.card < k).length < (s.attnEngines j.cluster).length

/-- ATTN completes (R157): the flag and the counter of approximations. -/
def State.attnEnd (s : State) (t : Terrace) (sp : Split) (slots : List Nat) (absent : Bool) : State :=
  let s := s.dropJob t.uid
  let s := if absent then (s.addApx t).updTer t.uid fun t => { t with apx := true } else s
  s.tileDone t sp slots

/-- The split that waits for a job, with its ATTN. -/
def State.jobSplit (s : State) (j : Job) : Option (Terrace × Split × AttnForm) :=
  match s.ter? j.uid with
  | none => none
  | some t => match t.split? j.sid with
    | none => none
    | some sp => if sp.hold != .tile then none else (sp.held.bind attnForm).map fun f => (t, sp, f)

/-- JOB_CARD's step: none where it can make none now. -/
def State.jobCard (s : State) (j : Job) (k : Nat) : Option State :=
  match s.jobSplit j with
  | none => none
  | some (t, sp, f) =>
    let slots := f.slots.map t.slot
    match s.runCard (tileEng t sp j.ord) f t j k with
    | .busy => none
    | .wait s1 => some s1
    | .fault s1 code addr => some ((s1.dropJob j.uid).tileStop t sp slots code addr)
    | .ok s1 absent =>
      let eng := match j.cards.find? fun c => c.card == k with | some c => c.eng | none => 0
      let s1 := s1.correct [unitAttn j.cluster eng]
      let j := (s1.job? j.uid).getD j
      let j1 := { j with cards := j.cards.filter fun c => c.card != k, absent := j.absent || absent }
      let s2 := s1.setJob j1
      some (if !j1.cards.isEmpty || f.fold then s2 else s2.attnEnd t sp [] j1.absent)

/-- The event JOB_CARD. -/
def execJobCard (ter card : Nat) (s : State) : Host.Outcome State Fault Refusal :=
  match s.job? ter with
  | none => .fault .notEnabled
  | some j =>
    match s.jobCard j card with
    | none => .fault .notEnabled
    | some s1 => event ((j.cards.any fun c => c.card == card) && s.cardServed j card) s s1

/-- A card's watchdog expires (R419): the engine is reset and the card replayed; the third time the ATTN stops. -/
def State.watchdog (s : State) (j : Job) (c : Card) : State :=
  match s.jobSplit j with
  | none => s
  | some (t, sp, f) =>
    let pc := sp.pc.toNat
    let s1 := ((s.logRec t.vf false ⟨pc, pc, 0x46, 0, t.core, t.ter, dieOf t.core, 1⟩).1).unitEvent (unitAttn j.cluster c.eng)
    if 2 ≤ c.expired then (s1.dropJob j.uid).tileStop t sp (f.slots.map t.slot) 0x1B pc
    else
      let j := (s1.job? j.uid).getD j
      s1.setJob { j with cards := j.cards.map fun x =>
        if x.card = c.card then { x with expired := x.expired + 1, eng := s1.nextEngine j.cluster c.eng } else x }

/-- The event WATCHDOG_EXPIRY. -/
def execWatchdogExpiry (ter card : Nat) (s : State) : Host.Outcome State Fault Refusal :=
  match s.job? ter with
  | none => .fault .notEnabled
  | some j =>
    match j.cards.find? fun c => c.card == card with
    | none => .fault .notEnabled
    | some c => event (s.cardServed j card && (s.jobSplit j).isSome) s (s.watchdog j c)

/-! ## Folds (R160 to R162) -/

/-- What a fold works on. -/
structure FoldForm where
  slots : List Nat
  area : Nat
  stats : Nat
  n : Nat
  q : Nat
  dim : Nat
  init : Bool
  fin : Bool
deriving DecidableEq, Repr

/-- The slot, given as core × 4 + slot, and the column of element d. -/
def FoldForm.place (f : FoldForm) (d : Nat) : Nat × Nat := (f.slots.getD (d / 128) 0, d % 128)

/-- A triple in the first bytes of a record. -/
def tripleOf (dim : Nat) (bs : List Byte) : Triple :=
  ⟨fieldOf bs 0 4, fieldOf bs 4 4, (List.range dim).map fun d => fieldOf bs (8 + 4 * d) 4⟩

/-- The running triple of a row (R161). -/
def State.running (s : State) (e : Eng) (f : FoldForm) (i : Nat) : EngOut Triple :=
  if f.init then .ok s (Triple.empty f.dim)
  else
    match f.slots.find? fun k => s.flaws.contains (.slot (k / 4) (k % 4)) with
    | some k => .fault (s.slotErr k) 0x16 (k % 4)
    | none =>
      (s.tileRead e false 0 (f.stats + 8 * i) 8).andThen fun s bs =>
        .ok s ⟨fieldOf bs 0 4, fieldOf bs 4 4,
          (List.range f.dim).map fun d => (s.accGet (f.place d).1 i (f.place d).2).toNat⟩

/-- A triple record of a fold; one in the cluster window may pass from one core's part to the next (R160, R162). R161 names no
    window for the triple area: outside the on-chip windows it is global memory, lane 0's slice or the register window
    (DESIGN CHOICE, log entry 45). -/
def State.recordAt (s : State) (e : Eng) (va n : Nat) : EngOut (List Byte) :=
  (engMap (fun s p => s.tileRead e false 0 p.1 p.2) (spanParts va n) s).andThen fun s bs => .ok s bs.flatten

/-- One row of a fold (R162). -/
def State.foldRow (s : State) (e : Eng) (f : FoldForm) (i : Nat) : EngOut (List (Nat × Nat)) :=
  (s.running e f i).andThen fun s t0 =>
  (engMap (fun s u => s.recordAt e (f.area + (u * f.q + i) * recordSize f.dim) (8 + 4 * f.dim)) (List.range f.n) s).andThen fun s recs =>
    let t := recs.foldl (fun t r => combine t (tripleOf f.dim r)) t0
    let o := if f.fin then t.o.map fun x => finishOut x t.l else t.o
    (s.tileWrite e 0 (f.stats + 8 * i) 0 (natBytes 4 t.m ++ natBytes 4 t.l)).andThen fun s a =>
      .ok ((List.range f.dim).foldl (fun s d =>
        s.accPut (f.place d).1 i (f.place d).2 (BitVec.ofNat 32 (o.getD d 0))) s) a

/-- ATTC (R161, R162). -/
def execAttc (init fin : Bool) (n a : Nat) (s : State) : Host.Outcome State Fault Refusal :=
  issue (.attc init fin n a) (tile fun s c =>
    let stats := c.rt.sVal (a + 1)
    let geo := c.rt.sVal (a + 2)
    let dim := bitsOf geo 22 15 + 1
    if 2 ^ 23 ≤ geo || (128 < dim && n == 3) then .trap s (.illegalOperand c.pc) false
    else if !areaWindow stats 1 then .trap s (.whole codeViolation stats) false
    else if stats % 8 != 0 then .trap s (.illegalOperand c.pc) false
    else withSlots (slotsFor n dim) (fun s c => .hold (s.claimSlots c (slotsFor n dim) opcAttc [] none none) .tile) s c) s

/-! ## Rows (R131, R144, R147, R162) -/

/-- The rows a tile instruction has, its slots in the module, and its fold, if it has one. -/
structure RowForm where
  slots : List Nat
  total : Nat
  fold : Option FoldForm
deriving DecidableEq, Repr

/-- The L2 lookups of one line request of MACLD, a load-class instruction (R324, R389). -/
def State.readLookups (s : State) (e : Eng) (va : Nat) : List Bool :=
  if !isGlobal va then []
  else
    match (s.reach (s.engTer e) (dieOf e.core) none ⟨false, false, e.sup⟩ va).2 with
    | .ok q => s.l2Lookups (s.engTer e) va q.ph
    | .error _ => []

/-- The rows of the instruction a terrace's split holds on a slot. -/
def rowForm (t : Terrace) (p : Prog) : Instr → Option RowForm
  | .macld n .. | .macst n .. => some ⟨[t.slot n], 128, none⟩
  | .ackpt _ _ n | .acrst _ _ n => some ⟨[t.slot n], (p.saved.getD 0 0 + 511) / 512, none⟩
  | .mepi n _ _ mr .. => some ⟨[t.slot n], mr, none⟩
  | .attc init fin n a =>
    let geo := t.sVal (a + 2)
    let q := bitsOf geo 14 8 + 1
    let dim := bitsOf geo 22 15 + 1
    let slots := (slotsFor n dim).map t.slot
    some ⟨slots, q, some ⟨slots, t.sVal a, t.sVal (a + 1), geo % 256, q, dim, init, fin⟩⟩
  | .attn n a b q dim chunks lc kw vw fold causal =>
    let f : AttnForm := ⟨n, a, b, q, dim, chunks, chunkLen lc, kw, vw, fold, causal⟩
    let slots := f.slots.map t.slot
    let area := t.sVal (b + 3)
    if fold then some ⟨slots, q, some ⟨slots, area, area + f.areaBytes, chunks, q, dim, false, false⟩⟩ else none
  | _ => none

/-- One row of a tile instruction; the answer is the acknowledgements it waits for. A MEPI destination in the lane-private
    window names lane 0's slice (DESIGN CHOICE, log entry 45). -/
def State.rowDo (s : State) (slot : Nat) (t : Terrace) (sp : Split) (i : Instr) (rf : RowForm) (r : Nat) :
    EngOut (List (Nat × Nat)) :=
  let p := s.prog slot
  let e := tileEng t sp p.ord
  let flaw := s.flaws.contains (.slot (slot / 4) (slot % 4))
  let acc := fun j => (s.accGet slot r j).toNat
  match rf.fold with
  | some f => s.foldRow e f r
  | none =>
    match i with
    | .macld _ a b =>
      let hits := (List.range 8).flatMap fun k => s.readLookups e ((macAddr t a b + 512 * r + 64 * k) % 2 ^ 64)
      (s.tileReads e (p.saved.getD 0 0) ((macAddr t a b + 512 * r) % 2 ^ 64) 64 8).andThen fun s bs =>
        .ok ((s.accWrite slot (512 * r) bs).countLookups t hits) []
    | .macst _ a b =>
      if flaw then .fault (s.slotErr slot) 0x16 (slot % 4)
      else s.tileWrites e (p.saved.getD 0 0) 0 (pieces64 ((macAddr t a b + 512 * r) % 2 ^ 64) (s.accBytes slot (512 * r) 512))
    | .ackpt .. =>
      let n := min 512 (p.saved.getD 0 0 - 512 * r)
      (s.tileReads e 0 (p.saved.getD 1 0 + 512 * r) 64 (n / 64)).andThen fun s bs => .ok (s.accWrite slot (512 * r) bs) []
    | .acrst .. =>
      let n := min 512 (p.saved.getD 0 0 - 512 * r)
      if flaw then .fault (s.slotErr slot) 0x16 (slot % 4)
      else s.tileWrites e 0 0 (pieces64 (p.saved.getD 1 0 + 512 * r) (s.accBytes slot (512 * r) n))
    | .mepi _ a _ mr nc tgt rnd sat fam bfmt =>
      let rn := if rnd == 6 then modeRnd sp.mode else rnd
      let u := fun j => draw sp.rk p.rc (r % 32) (j + 128 * (r / 32 % 2))
      let row := mepiRow nc tgt rn (sat || modeSat sp.mode) fam bfmt acc (p.saved.getD r 0) (fun j => p.saved.getD (mr + j) 0) u
      let dst := t.sPair a + r * t.sVal (a + 2)
      if flaw then .fault (s.slotErr slot) 0x16 (slot % 4)
      else s.tileWrites e 0 (match tgt with | 0 => 8 | 7 => 1 | _ => 0) (row.map fun w => ((dst + w.1) % 2 ^ 64, w.2))
    | _ => .ok s []

/-- The alley a MEPI pushes on completion, and the handle (R150). -/
def mepiPush (t : Terrace) : Instr → Option (Nat × Nat)
  | .mepi _ a .. => if t.sVal (a + 3) == 0 then none else some (t.sVal (a + 3), t.sVal a)
  | _ => none

/-- A MEPI that rounds under SR advances C by 1 as it completes (R68, R149): where it stops or traps before, C stands as at
    its first issue, from which a resume takes its draws (DEDUCED, log entry 25). -/
def State.advanceTile (s : State) (t : Terrace) (sp : Split) : Instr → State
  | .mepi _ _ _ _ _ _ rnd .. =>
    if (if rnd == 6 then modeRnd sp.mode else rnd) == 5 then s.updSplit t.uid sp.sid fun x => { x with rc := x.rc + 1 } else s
  | _ => s

/-- A whole slot's contents are readable again once they have been loaded. -/
def State.healSlot (s : State) (slot : Nat) (i : Instr) : State :=
  match i with
  | .macld .. => { s with flaws := s.flaws.filter fun f => f != .slot (slot / 4) (slot % 4) }
  | _ => s

/-- The end of a tile instruction whose rows are done: its handle is pushed once its terrace's earlier stores are visible in
    the cluster (R150, R311); none where it still waits. -/
def State.rowsEnd (s : State) (slot : Nat) (t : Terrace) (sp : Split) (i : Instr) (rf : RowForm) : Option State :=
  let p := s.prog slot
  let fin := fun (s : State) => match s.job? t.uid with
    | some j => s.attnEnd t sp rf.slots j.absent
    | none => ((s.healSlot slot i).advanceTile t sp i).tileDone t sp rf.slots
  match mepiPush t i with
  | none => some (fin s)
  | some (al, h) =>
    match s.alleyAt t al with
    | .error code => some ((s.alleyErr t code).tileStop t sp rf.slots (if code == 0x16 then 0x16 else codeViolation) al)
    | .ok x =>
      match (s.alley x).record t.sender t.ter with
      | none => some (s.tileStop t sp rf.slots codeViolation al)
      | some k =>
        if !s.released t 3 p.ord || sndAllow ((s.alley x).snd.getD k 0) == 0 then none
        else some (fin (s.alleyPush x k (BitVec.ofNat 32 h)))

/-- The bytes of rows that a partition of a core has in its die's egress spill area (R412). -/
def State.spilledBytes (s : State) (core pidx : Nat) : Nat :=
  s.spill.foldl (fun n e => if e.1 = pidx ∧ e.2.cause.map (·.1) = some core then n + opBytes e.2.flit.op else n) 0

/-- The flits of a MEPI row that could not cross stand in the die's egress spill area (R412): `n` flits waited before the row.
    None where the 16 KiB of the partition cannot take them: the row is not accepted yet. -/
def State.spillNew (s : State) (core pidx n : Nat) : Option State :=
  let new := s.egress.drop n
  if new.isEmpty then some s
  else if 16384 < s.spilledBytes core pidx + (new.foldl (fun k e => k + opBytes e.flit.op) 0) then none
  else some { s with egress := s.egress.take n, spill := s.spill ++ new.map fun e => (pidx, e) }

/-- Whether ROW moves on when a row's writes are on their way (R412): a MEPI's. Else they must have been answered. -/
def movesEarly : Instr → Bool
  | .mepi .. => true
  | _ => false

/-- The oldest unanswered write of a tile instruction's rows is answered, if its answer has come; an error response stops the
    instruction with ROW at its row, which a resume forms and stores again in full (R131, R150, R407). -/
def State.rowAcked (s : State) (t : Terrace) (sp : Split) (i : Instr) (rf : RowForm) (p : Prog) : Option State :=
  match p.acks with
  | [] => none
  | (tag, va, r) :: rest =>
    match s.takeAnswer tag with
    | none => none
    | some (s1, .err code) =>
      some (((s1.forget (rest.map (·.1))).moveProg rf.slots fun p => { p with row := r, acks := [] }).tileStop t sp rf.slots code va)
    | some (s1, .val _) =>
      some (s1.moveProg rf.slots fun p =>
        { p with acks := rest, row := if rest.isEmpty && !movesEarly i then p.row + 1 else p.row })

/-- One step of the rows of a slot's instruction: an answer taken, a row, or the end; with the last row the end where nothing
    is waited for. -/
def State.rowStep (s : State) (slot : Nat) (t : Terrace) (sp : Split) (i : Instr) : Option State :=
  let p := s.prog slot
  match rowForm t p i with
  | none => none
  | some rf =>
    let waiting := match s.job? t.uid with | some j => !j.cards.isEmpty | none => false
    let early := movesEarly i
    if rf.slots.head? != some slot || waiting then none
    else if s.ackHere ((p.acks.take 1).map (·.1)) then s.rowAcked t sp i rf p
    else if !p.acks.isEmpty && (!early || rf.total ≤ p.row) then none
    else if rf.total ≤ p.row then s.rowsEnd slot t sp i rf
    else
      match s.rowDo slot t sp i rf p.row with
      | .busy => none
      | .wait s1 => some s1
      | .fault s1 code addr => some ((s1.dropJob t.uid).tileStop t sp rf.slots code addr)
      | .ok s1 acks =>
        match if early then s1.spillNew t.core ((s.part? t.core t.vf).map (·.pidx) |>.getD 0) s.egress.length else some s1 with
        | none => none
        | some s1 =>
          let s2 := s1.moveProg rf.slots fun p =>
            { p with row := if early || acks.isEmpty then p.row + 1 else p.row
                     acks := p.acks ++ acks.map fun a => (a.1, a.2, p.row) }
          if rf.total ≤ p.row + 1 && acks.isEmpty && p.acks.isEmpty then some ((s2.rowsEnd slot t sp i rf).getD s2) else some s2

/-- The event ROW_BOUNDARY. -/
def execRowBoundary (core slot : Nat) (s : State) : Host.Outcome State Fault Refusal :=
  let k := core * 4 + slot
  match s.tileOn k with
  | none => .fault .notEnabled
  | some (t, sp, i) =>
    match s.rowStep k t sp i with
    | none => .fault .notEnabled
    | some s1 => event (slot < 4 && t.core == core) s s1

end Sys2Proof.Machine
end

