-- ==== Sys2Proof/Machine/Bounded.lean ====
section
/-! DEFINITION. Bounded counters (R337 to R355): holdings, rebalances, and BCINIT, BCTAKE, BCGIVE, BCREAD and BCSTAT. -/

namespace Sys2Proof.Machine

/-! ## Holdings (R340 to R342) -/

/-- The units of all allowances. -/
def BCounter.allowed (b : BCounter) : Nat := b.holders.foldl (fun n h => n + h.allow) 0

/-- Units added to the home pool, which saturates (R342). -/
def BCounter.add (b : BCounter) (n : Nat) : BCounter := { b with pool := min (b.pool + n) (2 ^ 64 - 1) }

/-- A live counter by its record's address. -/
def State.bc? (s : State) (vf va : Nat) : Option BCounter := s.bcs.find? fun b => b.vf == vf && b.addr == va

/-- A live counter by its record's physical address. -/
def State.bcAt? (s : State) (pa : Nat) : Option BCounter := s.bcs.find? fun b => b.pa == pa

/-- Replace a counter. -/
def State.setBc (s : State) (b : BCounter) : State := { s with bcs := s.bcs.map fun x => if x.pa = b.pa then b else x }

/-- Change the holder on a core. -/
def BCounter.upd (b : BCounter) (core : Nat) (f : BcHolder → BcHolder) : BCounter :=
  { b with holders := b.holders.map fun h => if h.core = core then f h else h }

/-- The holder on a core. -/
def BCounter.holder? (b : BCounter) (core : Nat) : Option BcHolder := b.holders.find? fun h => h.core == core

/-- Whether a core's operation may stay in the core (R341, R342, R345). -/
def BcHolder.open (h : BcHolder) : Bool := h.entry && !h.drain

/-- Whether a take is queued or on its way (R344). -/
def BCounter.waiting (b : BCounter) : Bool :=
  !b.queue.isEmpty || b.trigs.any fun t => match t with | .take .. => true | _ => false

/-- Units that reach the home (R342, R344): while takes wait they start a rebalance. -/
def BCounter.give (b : BCounter) (n : Nat) : BCounter :=
  if b.waiting then { b with trigs := b.trigs ++ [.give n] } else b.add n

/-- The near-cache entries of a core's partition: counter and last use. -/
def State.bcEntries (s : State) (vf core : Nat) : List (Nat × Nat) :=
  (s.bcs.filter fun b => b.vf == vf).flatMap fun b =>
    (b.holders.filter fun h => h.core == core && h.entry).map fun h => (b.pa, h.used)

/-- Evict the least recently used entry of a partition that has 16 (R341): its allowance goes home as a give. -/
def State.bcEvict (s : State) (vf core : Nat) : State :=
  let es := s.bcEntries vf core
  if es.length < 16 then s
  else
    match es.foldl (fun (o : Option (Nat × Nat)) e => match o with
        | none => some e | some x => if e.2 < x.2 then some e else some x) none with
    | none => s
    | some e =>
      match s.bcAt? e.1 with
      | none => s
      | some b =>
        let n := match b.holder? core with | some h => h.allow | none => 0
        s.setBc ((b.upd core fun h => { h with entry := false, allow := 0, drain := false }).give n)

/-- A share reaches a holder (R341, R343): a nonzero one allots an entry; one that would carry the allowance beyond 32
    bits stays in the pool; DRAIN clears. -/
def State.bcShare (s : State) (pa share core : Nat) : State :=
  match s.bcAt? pa with
  | none => s
  | some b =>
    match b.holder? core with
    | none => s
    | some h =>
      if share == 0 || 2 ^ 32 ≤ h.allow + share then s.setBc (b.upd core fun h => { h with drain := false })
      else
        let s1 := if h.entry then s else s.bcEvict b.vf core
        match s1.bcAt? pa with
        | none => s1
        | some b =>
          { s1.setBc { (b.upd core fun h => { h with entry := true, drain := false, allow := h.allow + share, used := s1.fresh }) with
              pool := b.pool - share } with fresh := s1.fresh + 1 }

/-- Shares for every holder. -/
def State.bcShares (s : State) (pa share : Nat) : State :=
  match s.bcAt? pa with
  | none => s
  | some b => b.holders.foldl (fun s h => s.bcShare pa share h.core) s

/-! ## Rebalances (R343, R344, R347) -/

/-- Recall every allowance into the pool. -/
def BCounter.recallAll (b : BCounter) : BCounter :=
  { b.add b.allowed with holders := b.holders.map fun h => { h with allow := 0 } }

/-- Stage 1: half of every allowance, all of it for BCREAD; a requester that has sent its allowance is passed over. -/
def BCounter.recall (b : BCounter) (full : Bool) (but : Option Nat) : BCounter :=
  b.holders.foldl (fun b h =>
    if but == some h.core then b
    else
      let r := if full then h.allow else h.allow / 2
      (b.upd h.core fun h => { h with allow := h.allow - r }).add r) b

/-- Serve the queue, strictly oldest first: the counter, and who completes with which status (R350). -/
def BCounter.serve : Nat → BCounter → List (BcReq × Nat) → BCounter × List (BcReq × Nat)
  | 0, b, out => (b, out)
  | fuel + 1, b, out =>
    match b.queue with
    | [] => (b, out)
    | q :: r =>
      if q.amount ≤ b.pool then serve fuel { b with pool := b.pool - q.amount, queue := r } (out ++ [(q, 0)])
      else if q.amount ≤ b.pool + b.allowed then
        let b := b.recallAll
        serve fuel { b with pool := b.pool - q.amount, queue := r } (out ++ [(q, 0)])
      else if q.try_ then serve fuel { b with queue := r } (out ++ [(q, 1)])
      else
        -- the head blocks; a try take behind it is denied (R347)
        ({ b with queue := b.queue.filter fun x => !x.try_ },
          out ++ (b.queue.filter fun x => x.try_).map fun x => (x, 1))

/-- A reply to a terrace. -/
def State.bcReply (s : State) (ter addr v n : Nat) : State := s.updTer ter fun t => { t with reply := some (addr, v, n) }

/-- A total to a terrace that asked for it (R352). -/
def State.bcTell (s : State) (ter x : Nat) : State := s.updTer ter fun t => { t with total := some x }

/-- The record as the device writes it: HPOOL, NREBAL and QLEN (R338). -/
def State.bcRecord (s : State) (b : BCounter) : State :=
  s.pocWrite (b.pa + 4) (natBytes 4 b.pool ++ natBytes 4 b.nrebal ++ natBytes 4 b.queue.length)

/-- One rebalance, for one trigger. -/
def State.rebalance (s : State) (b : BCounter) (tr : BcTrig) : State :=
  let b := match tr with
    | .take q u => ({ (b.add u) with queue := b.queue ++ [q] }).recall false (some q.core)
    | .give u => (b.add u).recall false none
    | .read _ => b.recall true none
  let x := b.pool + b.allowed
  let (b, out) := b.serve b.queue.length []
  let s := out.foldl (fun s e => s.bcReply e.1.ter b.addr e.2 (if e.2 == 0 then e.1.amount else 0)) s
  let s := match tr with | .read t => s.bcTell t x | _ => s
  let b := { b with nrebal := (b.nrebal + 1) % 2 ^ 32, qlen := b.queue.length }
  let s := if b.queue.isEmpty then (s.setBc b).bcShares b.pa (if b.holders.isEmpty then 0 else b.pool / b.holders.length)
    else s.setBc { b with holders := b.holders.map fun h => if h.entry then { h with drain := true } else h }
  match s.bcAt? b.pa with
  | none => s
  | some b => s.bcRecord b

/-- The units that the triggers at the home carry are in its pool when a rebalance begins (DEDUCED, log entry 46). -/
def BCounter.absorb (b : BCounter) : BCounter :=
  { b.add (b.trigs.foldl (fun n t => match t with | .take _ u | .give u => n + u | .read _ => n) 0) with
    trigs := b.trigs.map fun t => match t with | .take q _ => .take q 0 | .give _ => .give 0 | .read u => .read u }

/-- REBALANCE (R343, R344): the home takes up the first of the triggers that have arrived. -/
def execRebalance (ctr : Nat) (s : State) : Host.Outcome State Fault Refusal :=
  match s.bcAt? ctr with
  | none => .fault .notEnabled
  | some b =>
    let b := b.absorb
    match b.trigs with
    | [] => .fault .notEnabled
    | tr :: rest =>
      let b := { b with trigs := rest }
      event true s ((s.setBc b).rebalance b tr)

/-! ## The record (R337, R348) -/

/-- The page of a record, with the checks of R348. -/
def State.bcPage (s : State) (c : Ctx) (va : Nat) : State × Except Trap Phys :=
  if va % 64 != 0 then (s, .error (.illegalOperand c.pc))
  else if !isGlobal va then (s, .error (.whole codeViolation va))
  else
    match s.reach c.t c.die (some c.t.core) ⟨false, false, c.sp.supervisor⟩ va with
    | (s1, .error e) => (s1, .error (.whole e.code va))
    | (s1, .ok q) =>
      let p := q.ph
      let home := (p.leaf.cls == clsUntracked || p.leaf.cls == clsUpdate) && !p.leaf.fmt && p.leaf.place == 0
        && (match p.owner with | .die _ => true | _ => false)
      if !home then (s, .error (.whole codeViolation va))
      else if c.t.divided then (s, .error (.illegalOperand c.pc))
      else (s1.enter c.t.vf c.die va q, .ok p)

/-- The record's address: Base of an s register. -/
def Ctx.bcAddr (c : Ctx) (a : Nat) : Nat := c.base (.s a) ((lowLane c.active).getD 0)

/-- An operation that needs its record's page, with its address. -/
def bcOp (a : Nat) (body : State → Ctx → Nat → Phys → Res) (s : State) (c : Ctx) : Res :=
  let va := c.bcAddr a
  match s.bcPage c va with
  | (s1, .error tr) => .trap s1 tr false
  | (s1, .ok p) => body s1 c va p

/-- A status written to the destination. -/
def bcDone (d : Dst) (st : Nat) (s : State) (c : Ctx) : Res :=
  .done (s.updTer c.uid fun t => t.writeDst d false c.active fun _ => [BitVec.ofNat 32 st]) none

/-- A local operation completes 12 cycles after its issue (R348). -/
def bcLocal (s : State) (c : Ctx) : Res := .wait (s.keep c 1 0) (.cycle (c.now + 12))

/-! ## BCINIT (R349) -/

/-- The holders a record lists. -/
def bcHolders (bs : List Byte) : List Nat := (List.range (fieldOf bs 0 1)).map fun h => fieldOf bs (16 + 2 * h) 2

/-- Whether a record's holder list is valid (R339). -/
def State.bcListOk (s : State) (vf die : Nat) (bs : List Byte) : Bool :=
  let hs := bcHolders bs
  fieldOf bs 0 1 ≤ 16 && hs.eraseDups.length == hs.length
    && (hs.all fun k => dieOf k == die && (s.part? k vf).isSome)
    && ((bs.drop 1).take 3 ++ bs.drop 48).all (· == 0)

/-- End a counter: what is queued or on its way completes with status 2, and a BCREAD finds no live counter. -/
def State.bcClose (s : State) (b : BCounter) : State :=
  let s := { s with bcs := s.bcs.filter fun x => x.pa != b.pa }
  let s := b.queue.foldl (fun s q => s.bcReply q.ter b.addr 2 0) s
  b.trigs.foldl (fun s t => match t with
    | .take q _ => s.bcReply q.ter b.addr 2 0
    | .read u => s.bcTell u (2 ^ 64 - 1)
    | .give _ => s) s

/-- Create a counter. -/
def State.bcCreate (s : State) (vf va : Nat) (p : Phys) (die slice t : Nat) (hs : List Nat) : State :=
  let n := hs.length
  let b : BCounter := ⟨vf, va, p.pa, die, slice, t, hs.map fun k => ⟨k, false, 0, false, 0⟩, [], 0, [], 0⟩
  let s := { s with bcs := s.bcs ++ [b] }.bcShares p.pa (t / n)
  match s.bcAt? p.pa with
  | none => s
  | some b => s.bcRecord b

/-- The counters whose home slice serves for a slice of a die, by their numbers before substitution (R337, R363). -/
def State.sliceCounters (s : State) (die slice : Nat) : List BCounter :=
  let at_ := substOf (s.die die).substSlice
  s.bcs.filter fun b => b.die == die && at_ b.slice == at_ slice

/-- Every open request of this module's terraces to a line is performed, in the order of issue: what was on its way to the
    line when its counter is created or closed comes before that (R338). -/
def State.settleLine (s : State) (pa : Nat) : State :=
  s.accs.foldl (fun s a =>
    let on := a.reqs.filter fun r => r.loc / 64 == pa / 64 && r.bound.isNone &&
      (match r.page with | some ph => (match ph.owner with | .die _ => true | _ => false) | none => false)
    let m := maskOf (on.map (·.lane))
    if on.isEmpty || a.parked then s
    else if a.kind.returning || (match a.kind with | .pref _ => true | _ => false) then s.loadReturn a m
    else s.storeAck a m) s

/-- BCINIT. -/
def execBcinit (d : Dst) (a : Nat) (b : Src) (s : State) : Host.Outcome State Fault Refusal :=
  issue (.bcinit d a b) (bcOp a fun s c va p =>
    let die := match p.owner with | .die k => k | _ => 0
    let slice := indexHash (s.tenant c.t.vf).asid va % 96
    let m := (s.settleLine p.pa).meetMem c.t.vf p.pa 64
    let s := m.1
    let bs := s.rdBytes p.pa 64
    let nh := fieldOf bs 0 1
    let t := c.uniAll b
    let live := s.bc? c.t.vf va
    if m.2 then .trap s (.whole 0x16 va) false
    else if 1 ≤ nh && !s.bcListOk c.t.vf die bs then bcDone d 3 s c
    else if live.isNone && 32 ≤ (s.sliceCounters die slice).length then bcDone d 4 s c
    else
      match live with
      | some b =>
        let s := s.bcClose b
        if nh == 0 then bcDone d 2 s c else bcDone d 1 (s.bcCreate c.t.vf va p die slice t (bcHolders bs)) c
      | none => if nh == 0 then bcDone d 0 s c else bcDone d 0 (s.bcCreate c.t.vf va p die slice t (bcHolders bs)) c) s

/-! ## BCTAKE and BCGIVE (R342, R350, R351, R354) -/

/-- The counter at which a terrace's take is queued or on its way. -/
def State.bcQueued (s : State) (ter : Nat) : Option BCounter :=
  s.bcs.find? fun b => (b.queue.any fun q => q.ter == ter)
    || b.trigs.any fun t => match t with | .take q _ => q.ter == ter | _ => false

/-- A withdrawal (R344, R354): a queued request is removed, which starts a rebalance, and one on its way leaves the units it
    carries. -/
def BCounter.withdraw (b : BCounter) (ter : Nat) : BCounter :=
  let held := !b.queue.isEmpty
  let b : BCounter := { b with
    queue := b.queue.filter fun q => q.ter != ter
    trigs := b.trigs.map fun t => match t with
      | .take q u => if q.ter == ter then BcTrig.give u else .take q u
      | t => t }
  if held then { b with trigs := b.trigs ++ [.give 0] } else b

/-- Withdraw whatever take a terrace has kept (R354). -/
def State.bcWithdraw (s : State) (t : Terrace) : State :=
  let s := match s.bcQueued t.uid with
    | some b => s.setBc (b.withdraw t.uid)
    | none => s
  match t.reply with
  | none => s
  | some (va, st, n) =>
    let s := s.updTer t.uid fun t => { t with reply := none }
    match s.bc? t.vf va with
    | some b => if st == 0 then s.setBc (b.give n) else s
    | none => s

/-- A new take (R342). -/
def bcTake (d : Dst) (n : Nat) (try_ : Bool) (s : State) (c : Ctx) (va : Nat) (_ : Phys) : Res :=
  if n == 0 then .trap s (.illegalOperand c.pc) false
  else
    match s.bc? c.t.vf va with
    | none => bcDone d 2 s c
    | some b =>
      let h := (b.holder? c.t.core).getD ⟨c.t.core, false, 0, false, 0⟩
      if h.open && n ≤ h.allow then
        bcLocal { s.setBc (b.upd c.t.core fun h => { h with allow := h.allow - n, used := s.fresh }) with fresh := s.fresh + 1 } c
      else
        let b := b.upd c.t.core fun h => { h with allow := 0 }
        .wait (s.setBc { b with trigs := b.trigs ++ [.take ⟨c.uid, c.t.core, n, try_⟩ h.allow] }) .counter

/-- BCTAKE. -/
def execBctake (d : Dst) (a : Nat) (b : Src) (s : State) : Host.Outcome State Fault Refusal :=
  issue (.bctake d a b) (fun s c =>
    let x := c.uniAll b
    let new := fun (s : State) => bcOp a (bcTake d (x % 2 ^ 31) (2 ^ 31 ≤ x)) s c
    match c.sp.kept, c.t.reply, s.bcQueued c.uid with
    | some (1, st), _, _ => bcDone d st s c
    | _, some (va, st, _), _ =>
      if va == c.bcAddr a then bcDone d st (s.updTer c.uid fun t => { t with reply := none }) c else new (s.bcWithdraw c.t)
    | _, none, some b => if b.addr == c.bcAddr a then .wait s .counter else new (s.bcWithdraw c.t)
    | _, none, none => new s) s

/-- BCGIVE. -/
def execBcgive (d : Dst) (a : Nat) (b : Src) (s : State) : Host.Outcome State Fault Refusal :=
  issue (.bcgive d a b) (fun s c =>
    match c.sp.kept with
    | some (1, st) => bcDone d st s c
    | _ =>
      bcOp a (fun s c va _ =>
        let n := c.uniAll b
        if n == 0 then bcDone d 0 s c
        else
          match s.bc? c.t.vf va with
          | none => bcDone d 2 s c
          | some k =>
            let h := (k.holder? c.t.core).getD ⟨c.t.core, false, 0, false, 0⟩
            if h.open && h.allow + n < 2 ^ 32 then
              bcLocal { s.setBc (k.upd c.t.core fun h => { h with allow := h.allow + n, used := s.fresh }) with fresh := s.fresh + 1 } c
            else if 2 ^ 63 ≤ k.pool + n then bcDone d 1 s c
            else bcDone d 0 (s.setBc (k.give n)) c) s c) s

/-! ## BCREAD and BCSTAT (R352, R353) -/

/-- A total written to the destination's pair. -/
def bcTotal (d : Dst) (x : Nat) (s : State) (c : Ctx) : Res :=
  .done (s.updTer c.uid fun t => t.writeDst d true c.active fun _ => words2 x) none

/-- BCREAD. -/
def execBcread (d : Dst) (a : Nat) (s : State) : Host.Outcome State Fault Refusal :=
  issue (.bcread d a) (fun s c =>
    match c.t.total, c.sp.kept with
    | some x, some (2, _) => bcTotal d x (s.updTer c.uid fun t => { t with total := none }) c
    | none, some (2, _) => .wait s .total
    | _, _ =>
      bcOp a (fun s c va _ =>
        match s.bc? c.t.vf va with
        | none => bcTotal d (2 ^ 64 - 1) s c
        | some b => .wait ((s.setBc { b with trigs := b.trigs ++ [.read c.uid] }).keep c 2 0) .total) s c) s

/-- BCSTAT. -/
def execBcstat (d : Dst) (a : Nat) (s : State) : Host.Outcome State Fault Refusal :=
  issue (.bcstat d a) (bcOp a fun s c va _ =>
    let put := fun (x y : Nat) =>
      Res.done (s.updTer c.uid fun t => t.writeDst d false c.active fun _ => [BitVec.ofNat 32 x, BitVec.ofNat 32 y]) none
    match s.bc? c.t.vf va with
    | none => put 0 0
    | some b =>
      let h := b.holder? c.t.core
      put (match h with | some h => h.allow | none => 0)
        ((if b.qlen != 0 then 2 ^ 31 else 0) + (if h.isSome then 2 ^ 30 else 0) + 2 ^ 29 + min b.qlen 0xFFFF)) s

end Sys2Proof.Machine
end

