-- ==== Sys2Proof/Machine/System.lean ====
section
/-! DEFINITION. System registers (R378 to R380), shootdown (R373, R374) and partitions (R360 to R362, R375 to R377). -/

namespace Sys2Proof.Machine

/-! ## System registers -/

/-- The violation of an instruction that the code may not issue, with the instruction's address (R373, R375, R378). -/
def forbidden (c : Ctx) : Trap := .whole codeViolation c.pc.toNat

/-- SY_PART of a partition (R380). -/
def Part.word (p : Part) : Nat :=
  p.granules.toNat + p.slots.toNat * 16 + p.lb * 256 + (p.lc - 1) % 16 * 4096 + p.pidx * 65536

/-- A system register as a split reads it (R379). -/
def State.sysReg (s : State) (c : Ctx) (n : Nat) : Nat :=
  let t := s.tenant c.t.vf
  match n with
  | 0x00 => t.tid % 65536 * 65536 + t.asid % 4096 * 16 + c.t.vf % 16
  | 0x01 => t.policy.toNat
  | 0x02 => match s.part? c.t.core c.t.vf with | some p => p.word | none => 0
  | 0x04 => t.ptroot.toNat
  | 0x08 => t.tvec.toNat
  | 0x09 => c.sp.tcause.toNat
  | 0x0A => c.sp.taddr.toNat
  | 0x0B => t.elog.toNat
  | 0x0C => t.vlog.toNat
  | 0x0D => t.ftpool.toNat
  | 0x10 => (s.dom (c.t.domain 0)).count
  | 0x11 => t.stage.toNat
  | _ => 0

/-- The registers non-supervisor code may read (R379). -/
def sysUser (n : Nat) : Bool := n == 0x00 || n == 0x01 || n == 0x02 || n == 0x10

/-- The registers supervisor code may write (R379), SY_XREQ apart. -/
def sysWritable (n : Nat) : Bool := [0x04, 0x08, 0x0B, 0x0C, 0x0D, 0x11].contains n

/-- A virtual function's register written (R379). -/
def Tenant.write (t : Tenant) (n : Nat) (x : DWord) : Tenant :=
  match n with
  | 0x04 => { t with ptroot := x }
  | 0x08 => { t with tvec := x }
  | 0x0B => { t with elog := x }
  | 0x0C => { t with vlog := x }
  | 0x0D => { t with ftpool := x }
  | 0x11 => { t with stage := x }
  | _ => t

/-- SYSRD (R378). -/
def execSysrd (d : Dst) (n : Nat) (s : State) : Host.Outcome State Fault Refusal :=
  issueWith (.sysrd d n) (fun _ c => if sysUser n || c.sp.supervisor then none else some (forbidden c)) (fun s c =>
    let x := s.sysReg c n
    .done (s.updTer c.uid fun t => t.writeDst d (sysReg64 n) c.active fun _ =>
      if sysReg64 n then words2 x else [BitVec.ofNat 32 x]) none) s

/-- SYSWR (R378). -/
def execSyswr (n : Nat) (a : Src) (s : State) : Host.Outcome State Fault Refusal :=
  issueWith (.syswr n a) (fun _ c => if sysWritable n && c.sp.supervisor then none else some (forbidden c)) (fun s c =>
    if c.active == 0 then .done s none
    else .done (s.setTenant c.t.vf ((s.tenant c.t.vf).write n (BitVec.ofNat 64 (c.src64 a ((lowLane c.active).getD 0))))) none) s

/-- SYSWR of SY_XREQ (R248): an early crossing of a domain of the terrace. -/
def execSyXreqWrite (a : Src) (s : State) : Host.Outcome State Fault Refusal :=
  issueWith (.syXreqWrite a) (fun _ c => if c.sp.supervisor then none else some (forbidden c)) (fun s c =>
    let x := c.uniAll a
    if 2 ≤ x then .trap s (.illegalOperand c.pc) false
    else if c.active == 0 then .done s none
    else .done (s.earlyCross (c.t.domain x)) none) s

/-! ## Shootdown (R373) -/

/-- Remove a virtual function's lines and translations whose page address a test selects, everywhere on the module, as
    SHOOT does. COMMUTE partials leave the cores unrounded: each stays the core's one running value (R180). -/
def State.purge (s : State) (vf : Nat) (f : Nat → Bool) : State :=
  let asid := (s.tenant vf).asid
  let line := fun (l : Line) => l.asid == asid && f (l.line * 64)
  let s := s.parts.foldl (fun s p => s.nearFlush p.core p.pidx line) s
  let s := { s with
    parts := s.parts.map fun p =>
      { p with lines := p.lines.filter fun l => !line l, ilines := p.ilines.filter fun l => !line l }
    ters := s.ters.map fun t =>
      if t.vf == vf then { t with splits := t.splits.map fun x => { x with buf := x.buf.filter fun l => !line l } } else t
    accs := s.accs.map fun a =>
      if a.vf == vf then { a with reqs := a.reqs.map fun r => if f r.ea then { r with noFill := true, shot := true } else r } else a }
  [0, 1, 2, 3].foldl (fun s d =>
    let s := s.l2Leave vf ((s.die d).l2.filter fun e => e.asid == asid && f (e.line * 64))
    let x := s.die d
    s.setDie d { x with
      tlb := x.tlb.filter fun e => !(e.asid == asid && (List.range 32).any fun i => f (e.granule * 2 ^ 21 + i * 65536))
      l2 := x.l2.filter fun e => !(e.asid == asid && f (e.line * 64)) }) s

/-- Whether the accesses SHOOT waits for are over: those that entries of the granules its range meets have translated. -/
def State.shotOver (s : State) (vf lo hi n : Nat) : Bool :=
  let hit := fun (ea : Nat) => isGlobal ea && lo / 2 ^ 21 ≤ ea / 2 ^ 21 && ea / 2 ^ 21 ≤ (hi - 1) / 2 ^ 21
  (s.accs.all fun a => a.vf != vf || n ≤ a.id || a.parked || a.reqs.all fun r => !hit r.ea)
    && s.asks.all fun a => a.vf != vf || n ≤ a.tag || !hit a.va

/-- The SHOOT of the module whose turn it is: the first that has arrived (R373). -/
def State.shootTurn (s : State) : Option (Nat × Nat) := (s.shoots.filter fun x => (s.ter? x.1).isSome).head?

/-- A SHOOT arrives at the module's Boulevard. -/
def State.shootArrive (s : State) (c : Ctx) : State :=
  if s.shoots.contains (c.uid, c.sid) then s else { s with shoots := s.shoots ++ [(c.uid, c.sid)] }

/-- SHOOT. -/
def execShoot (a : Nat) (b : Src) (s : State) : Host.Outcome State Fault Refusal :=
  issueWith (.shoot a b) (fun _ c => if c.sp.supervisor then none else some (forbidden c)) (fun s c =>
    let lo := c.base (.s a) ((lowLane c.active).getD 0)
    let n := c.uniAll b
    let hi := lo + n * 65536
    if lo % 65536 != 0 || n == 0 || 2 ^ 24 < n || 2 ^ 48 < hi || c.t.divided then .trap s (.illegalOperand c.pc) false
    else
      match c.sp.kept with
      | some (1, m) =>
        if s.shotOver c.t.vf lo hi m then .done { s with shoots := s.shoots.filter fun x => x != (c.uid, c.sid) } none
        else .wait s (.shot c.t.vf lo hi m)
      | _ =>
        if !s.released c.t 4 c.ord then .wait s (.released 4 c.ord)
        else if (s.shootArrive c).shootTurn != some (c.uid, c.sid) then .wait (s.shootArrive c) .turn
        else
          let s := s.shootArrive c
          let s1 := s.purge c.t.vf fun va => lo ≤ va && va < hi
          .wait (s1.keep c 1 s.fresh) (.shot c.t.vf lo hi s.fresh)) s

/-! ## Idleness (R362) -/

/-- The accumulator slots of a partition, as core × 4 + slot. -/
def Part.slotList (p : Part) : List Nat := ((List.range 4).filter fun n => p.slots.getLsbD n).map fun n => p.core * 4 + n

/-- Whether a virtual function's partition of a core is idle. -/
def State.partIdle (s : State) (vf core : Nat) : Bool :=
  (s.ters.all fun t => !(t.vf == vf && t.core == core)) && (s.accs.all fun a => !(a.vf == vf && a.core == core))
    && (s.cmds.all fun c => !(c.vf == vf && c.core == core) || c.fault.isSome)
    && (s.staged.all fun e => !(e.vf == vf && e.core == core && e.spill.isNone))
    && match s.part? core vf with
       | some p => p.slotList.all fun k => !(kget Prog.init s.progress k).act
       | none => true

/-- Whether a virtual function is idle on a die. -/
def State.dieIdle (s : State) (vf die : Nat) : Bool :=
  (s.launches.all fun l => !(l.vf == vf && (s.localDies l.d.rect).contains die))
    && (s.accs.all fun a => !(a.vf == vf && (dieOf a.core == die || a.reqs.any fun r => match r.page with
        | some p => p.owner == .die die | none => false)))
    && (List.range 256).all fun c => s.partIdle vf (die * 256 + c)

/-! ## PART (R375 to R377) -/

/-- The L1 set groups of a partition: those of a partition with granules. -/
def Part.groups (p : Part) : List Nat := if p.granules == 0 then [] else (List.range p.lc).map fun i => p.lb + i

/-- Lines of a partition leave its L1 and near cache; NEAR lines are written back (R360). -/
def State.emptyL1 (s : State) (core pidx : Nat) : State :=
  (s.nearFlush core pidx fun _ => true).updPart core pidx fun p => { p with lines := [], ilines := [] }

/-- A partition's allowances go back to their homes (R341, R360). -/
def State.allowancesBack (s : State) (vf core : Nat) : State :=
  { s with bcs := s.bcs.map fun b =>
      match b.holder? core with
      | some h => if b.vf == vf && h.entry then (b.upd core fun h => { h with entry := false, allow := 0, drain := false }).give h.allow else b
      | none => b }

/-- A slot that changes owner is zeroed, its row-progress register cleared (R360). -/
def State.zeroSlot (s : State) (k : Nat) : State :=
  { s with
    acc := s.acc.filter fun e => e.1 / 16384 != k
    progress := kdel s.progress k
    flaws := s.flaws.filter fun f => f != .slot (k / 4) (k % 4) }

/-- A core partition as it is assigned: counters and detector as after reset (R331, R360, R387). -/
def Part.fresh (core pidx vf : Nat) (g sl : BitVec 4) (lb lc : Nat) : Part :=
  { core := core, pidx := pidx, vf := vf, granules := g, slots := sl, lb := lb, lc := lc, quant := 0,
    counters := List.replicate 8 ⟨0, 0⟩, bank := List.replicate 8 0, slotState := List.replicate 4 SlotState.init,
    victims := [], missM := 0, missR := 0, windowCycles := 0, adm := 64, lines := [], near := [], ilines := [] }

/-! ## The next partition (R383, R384) -/

/-- Whether a partition has a resident terrace. -/
def State.resident (s : State) (core vf : Nat) : Bool := s.ters.any fun t => t.core == core && t.vf == vf

/-- The next partition of a core after a PIDX (R383). -/
def State.nextPart (s : State) (core pidx : Nat) : Option Nat :=
  ([pidx + 1, pidx + 2, pidx + 3].map (· % 4)).find? fun i =>
    match s.partAt? core i with | some p => s.resident core p.vf | none => false

/-- A partition gives its core up: the next one holds it after 48 cycles in which none does, or none holds it. -/
def State.giveCore (s : State) (core pidx : Nat) : State :=
  let k := s.core core
  s.setCore core { k with
    holder := none, ending := false, switching := (s.nextPart core pidx).map fun n => (n, k.now + 49) }

/-- A partition leaves its core (R360). One that still holds the core, or is to hold it next, gives it up. -/
def State.dropPart (s : State) (core pidx : Nat) : State :=
  let k := s.core core
  let s := { s with parts := s.parts.filter fun p => !(p.core == core && p.pidx == pidx) }
  if k.holder == some pidx || k.switching.map (·.1) == some pidx then s.giveCore core pidx else s

/-- KIND 0: a core partition. -/
def State.partCore (s : State) (vf pidx core b : Nat) : State × Nat :=
  let g := BitVec.ofNat 4 b
  let sl := BitVec.ofNat 4 (b / 16)
  let lb := bitsOf b 11 8
  let lcm := bitsOf b 15 12
  let others := s.parts.filter fun p => p.core == core && p.vf != vf
  let mine := s.part? core vf
  let new := Part.fresh core pidx vf g sl lb (lcm + 1)
  if b ≠ b % 65536 ∨ 16 < lb + lcm + 1 ∨ (g = 0 ∧ (lb ≠ 0 ∨ lcm ≠ 0)) ∨ s.unitOut (unitCore core) then (s, 3)
  else if others.any fun p => p.pidx == pidx || p.granules &&& g != 0 || p.slots &&& sl != 0
      || p.groups.any new.groups.contains then (s, 2)
  else if (match mine with | some p => p.pidx != pidx | none => false) then (s, 2)
  else if !s.partIdle vf core then (s, 1)
  else
    let old := match mine with | some p => p.slots | none => 0
    let changed := old ^^^ (if b == 0 then 0 else sl)
    let s := ((List.range 4).filter fun n => changed.getLsbD n).foldl (fun s n => s.zeroSlot (core * 4 + n)) s
    match mine with
    | none => if b == 0 then (s, 0) else ({ s with parts := s.parts ++ [new] }, 0)
    | some p =>
      if b == 0 then
        ((((s.emptyL1 core p.pidx).allowancesBack vf core).dropPart core p.pidx), 0)
      else
        let s := if p.groups == new.groups then s else s.emptyL1 core p.pidx
        (s.updPart core pidx fun p => { p with granules := g, slots := sl, lb := lb, lc := lcm + 1, adm := 64 }, 0)

/-- KIND 1: market banks. -/
def State.partMarket (s : State) (vf die b : Nat) : State × Nat :=
  let x := s.die die
  let named := (List.range 32).filter fun i => b.testBit i
  if named.any fun i => s.unitOut (unitMarket die i) then (s, 3)
  else if named.any fun i => match kget none x.banks i with | some v => v != vf | none => false then (s, 2)
  else if !s.dieIdle vf die then (s, 1)
  else
    (s.setDie die { x with banks := (List.range 32).foldl (fun m i =>
      if named.contains i then kset none m i (some vf)
      else if kget none m i == some vf then kset none m i none else m) x.banks }, 0)

/-- KIND 2: the L2 range. -/
def State.partL2 (s : State) (vf die b : Nat) : State × Nat :=
  let x := s.die die
  let gb := b % 64
  let gc := bitsOf b 14 8
  let old := kget (0, 0) x.l2range vf
  if b ≠ gb + gc * 256 ∨ 64 < gc ∨ 64 < gb + gc then (s, 3)
  else if x.l2range.any fun e => gc != 0 && e.1 != vf && gb < e.2.1 + e.2.2 && e.2.1 < gb + gc then (s, 2)
  else if !s.dieIdle vf die then (s, 1)
  else
    let new := if gc == 0 then (0, 0) else (gb, gc)
    let s := if new = old then s else s.l2Leave vf (x.l2.filter fun e => e.asid == (s.tenant vf).asid)
    let x := s.die die
    (s.setDie die { x with
      l2range := kset (0, 0) x.l2range vf new
      l2 := if new = old then x.l2 else x.l2.filter fun e => e.asid != (s.tenant vf).asid }, 0)

/-- KIND 3: home TLB ways. -/
def State.partWays (s : State) (vf die b : Nat) : State × Nat :=
  let x := s.die die
  if 65536 ≤ b then (s, 3)
  else if x.ways.any fun e => e.1 != vf && e.2 &&& b != 0 then (s, 2)
  else if !s.dieIdle vf die then (s, 1)
  else
    let lost := kget 0 x.ways vf &&& b != kget 0 x.ways vf
    (s.setDie die { x with
      ways := kset 0 x.ways vf b
      tlb := if lost then x.tlb.filter fun e => e.asid != (s.tenant vf).asid else x.tlb }, 0)

/-- A colour becomes shared: its frames are cached nowhere on the module (R372), so the lines of them that its one holder
    has in the L1s and in the L2 are written back and removed, and what its open requests bring is not kept. -/
def State.uncache (s : State) (vf colour : Nat) : State :=
  let hit := fun (pa : Nat) => s.frameColour pa == colour
  let s := s.parts.foldl (fun s p => s.nearFlush p.core p.pidx fun l => hit l.pa) s
  let s := { s with
    parts := s.parts.map fun p =>
      { p with lines := p.lines.filter fun l => !hit l.pa, ilines := p.ilines.filter fun l => !hit l.pa }
    accs := s.accs.map fun a =>
      { a with reqs := a.reqs.map fun r => if r.page.isSome && hit r.loc then { r with noFill := true, shot := true } else r } }
  [0, 1, 2, 3].foldl (fun s d =>
    let s := s.l2Leave vf ((s.die d).l2.filter fun e => hit e.pa)
    let x := s.die d
    s.setDie d { x with l2 := x.l2.filter fun e => !hit e.pa }) s

/-- KIND 4: the mask of a colour (R368, R377). A colour that becomes shared leaves the caches (R372). -/
def State.partColour (s : State) (unit b : Nat) : State × Nat :=
  let losers := (List.range 16).filter fun v => s.colourHolds unit v && !b.testBit v
  if unit == 0 || 65536 ≤ b then (s, 3)
  else if losers.any fun v => [0, 1, 2, 3].any fun d => !s.dieIdle v d then (s, 1)
  else
    let holder := ((List.range 16).find? fun v => s.colourHolds unit v).getD 0
    let s1 := { s with colours := kset 0 s.colours unit b }
    let s1 := if !s.colourShared unit && s1.colourShared unit then s1.uncache holder unit else s1
    (losers.foldl (fun s v => s.purge v fun _ => true) s1, 0)

/-- A PART command: command word and operand (R375 to R377). -/
def State.partCmd (s : State) (a b : Nat) : State × Nat :=
  let vf := bitsOf a 27 24
  let pidx := bitsOf a 23 22
  let die := bitsOf a 21 20
  let unit := a % 256
  if bitsOf a 19 8 != 0 then (s, 3)
  else
    match a / 2 ^ 28 with
    | 0 => s.partCore vf pidx (die * 256 + unit) b
    | 1 => if unit == 0 then s.partMarket vf die b else (s, 3)
    | 2 => if unit == 0 then s.partL2 vf die b else (s, 3)
    | 3 => if unit == 0 then s.partWays vf die b else (s, 3)
    | 4 => if bitsOf a 27 20 == 0 then s.partColour unit b else (s, 3)
    | _ => (s, 3)

/-- Whether a virtual function acts for the hypervisor (R380). -/
def State.manager (s : State) (vf : Nat) : Bool := (s.tenant vf).policy.getLsbD 3

/-- PART. -/
def execPart (d : Dst) (a b : Src) (s : State) : Host.Outcome State Fault Refusal :=
  issueWith (.part d a b) (fun s c => if c.sp.supervisor && s.manager c.t.vf then none else some (forbidden c)) (fun s c =>
    if c.t.divided then .trap s (.illegalOperand c.pc) false
    else
      let r := s.partCmd (c.uniAll a) (c.uniAll b)
      .done (r.1.updTer c.uid fun t => t.writeDst d false c.active fun _ => [BitVec.ofNat 32 r.2]) none) s

end Sys2Proof.Machine
end

