-- ==== Sys2Proof/Machine/Perf.lean ====
section
/-! DEFINITION. CNTRD, CNTCFG, CNTSV and CNTLD (R393 to R396). -/

namespace Sys2Proof.Machine

/-- A counter's value as code reads it: FABB and ENERGY read 0 without MGR (R391). -/
def State.cntValue (s : State) (vf : Nat) (c : Counter) : Nat :=
  if (cfgEvent c.config == evFabb || cfgEvent c.config == evEnergy) && !s.manager vf then 0 else c.value

/-- The eight counters of the issuing partition. -/
def State.counters8 (s : State) (c : Ctx) : List Counter :=
  match s.part? c.t.core c.t.vf with
  | some p => (List.range 8).map p.counter
  | none => []

/-- Set counter k: its configuration word, and its value where the new event says (R390, R395). -/
def Part.putCounter (p : Part) (k : Nat) (c : Counter) : Part :=
  ({ p with counters := p.counters.set k ⟨0, c.config⟩, bank := p.bank.set k 0 }).setCounter k c

/-- CNTRD (R394). -/
def execCntrd (d : Dst) (k : Nat) (s : State) : Host.Outcome State Fault Refusal :=
  issue (.cntrd d k) (fun s c =>
    let v := s.cntValue c.t.vf ((s.counters8 c).getD k ⟨0, 0⟩)
    .done (s.updTer c.uid fun t => t.writeDst d true c.active fun _ => words2 v) none) s

/-- The bits a configuration word may have set by software (R388, R395). -/
def cfgWritable (w : Word) : Bool := w &&& 0x3FFFFA00#32 == 0#32 && evAssigned (cfgEvent w)

/-- CNTCFG (R395): its own issue is not in the value it leaves (R389). -/
def execCntcfg (d : Dst) (a : Src) (k : Nat) (s : State) : Host.Outcome State Fault Refusal :=
  issue (.cntcfg d a k) (fun s c =>
    let w := BitVec.ofNat 32 (c.uniAll a)
    if !cfgWritable w then .trap s (.illegalOperand c.pc) false
    else if c.active == 0 then .done s none
    else
      let old := (s.counters8 c).getD k ⟨0, 0⟩
      let new : Counter := ⟨if cfgEvent w == cfgEvent old.config then old.value else 0, w &&& 0x5FF#32⟩
      .jump (s.updTer c.uid fun t => t.writeDst d false c.active fun _ => [old.config]) fun s =>
        match s.part? c.t.core c.t.vf with
        | some p => s.updPart c.t.core p.pidx fun p => p.putCounter k new
        | none => s) s

/-! ## Counter images (R396) -/

/-- The windows an image may lie in: the global one, the core scratchpad, cluster and market. -/
def imageWindow (va : Nat) : Bool := blockWindow va

/-- The address checks of CNTSV and CNTLD. -/
def imageCheck (c : Ctx) (va : Nat) : Option Trap :=
  if c.t.divided || va % 64 != 0 then some (.illegalOperand c.pc)
  else if !imageWindow va || !imageWindow (va + 127) then some (.whole codeViolation va)
  else none

/-- An entry of an image. -/
def imageEntry (v : Nat) (c : Counter) : Nat := v + c.config.toNat * 2 ^ 64

/-- CNTSV: eight aligned stores of the split, which it holds until they are acknowledged; staged words record n32 (R251). -/
def execCntsv (a : Nat) (s : State) : Host.Outcome State Fault Refusal :=
  issue (.cntsv a) (fun s c =>
    let va := c.base (.s a) ((lowLane c.active).getD 0)
    if c.t.divided then .trap s (.illegalOperand c.pc) false
    else if c.active == 0 then .done s none
    else
      match imageCheck c va with
      | some tr => .trap s tr false
      | none =>
        let cs := s.counters8 c
        let c0 := { c with sp := { c.sp with mode := c.sp.mode &&& 0xFE1F#16 } }
        let img := fun l => let x := cs.getD l ⟨0, 0⟩; imageEntry (s.cntValue c.t.vf x) x
        match memOp (.store 16 false) .none (List.range 8) c.active 16 (fun l => va + 16 * l) img (fun _ => 0) s c0 with
        | .done s2 v =>
          if s.accs.length < s2.accs.length then .hold s2 (.access ((s2.accs.getLast?.map (·.id)).getD 0)) else .done s2 v
        | .trap s2 tr n => .trap s2 { tr with fmask := none } n
        | r => r) s

/-- A counter from 16 bytes of an image, and whether the entry is acceptable. -/
def imageCounter (s : State) (vf x : Nat) : Counter × Bool :=
  let w := BitVec.ofNat 32 (x / 2 ^ 64)
  let ev := cfgEvent w
  let v := if (ev == evFabb || ev == evEnergy) && !s.manager vf then 0 else x % 2 ^ 48
  let keep := if cfgOvie w then w else w &&& 0xBFFFFFFF#32
  (⟨v, keep⟩, bitsOf x 63 48 == 0 && bitsOf x 127 96 == 0 && w &&& 0x3FFFFA00#32 == 0#32 && evAssigned ev)

/-- The counters of an image's 128 bytes, where every entry is acceptable. -/
def imageCounters (s : State) (vf x : Nat) : Option (List Counter) :=
  let es := (List.range 8).map fun k => imageCounter s vf (x / 2 ^ (128 * k) % 2 ^ 128)
  if es.all (·.2) then some (es.map (·.1)) else none

/-- CNTLD: eight aligned loads, then all counters at one instant. -/
def execCntld (a : Nat) (s : State) : Host.Outcome State Fault Refusal :=
  issue (.cntld a) (fun s c =>
    let va := c.base (.s a) ((lowLane c.active).getD 0)
    if c.t.divided then .trap s (.illegalOperand c.pc) false
    else if c.active == 0 then .done s none
    else
      match c.sp.kept with
      | some (3, x) =>
        if s.accs.any fun a => a.ter == c.uid && a.sid == c.sid && a.kind == .image then .wait s (.before s.fresh)
        else
          match imageCounters s c.t.vf x with
          | none => .trap s (.illegalOperand c.pc) false
          | some cs => .jump s fun s =>
            match s.part? c.t.core c.t.vf with
            | some p => s.updPart c.t.core p.pidx fun p =>
                (List.range 8).foldl (fun p k => p.putCounter k (cs.getD k ⟨0, 0⟩)) p
            | none => s
      | some (4, x) => .trap s (.whole (x % 256) (x / 256)) false
      | _ =>
        match imageCheck c va with
        | some tr => .trap s tr false
        | none =>
          match memOp .image .none (List.range 8) c.active 16 (fun l => va + 16 * l) (fun _ => 0) (fun _ => 0) s c with
          | .done s2 _ | .hold s2 _ => .wait (s2.keep c 3 0) (.before s2.fresh)
          | .trap _ tr _ => .trap s { tr with fmask := none } false
          | r => r) s

end Sys2Proof.Machine
end

