-- ==== Sys2Proof/Machine/Ready.lean ====
section
/-! DEFINITION. The waits at issue (R324): of the instructions whose entries have one, whether an issue now would wait. -/

namespace Sys2Proof.Machine

/-- The instructions that may wait at their issue: for an in-flight counter (R182), a slot or a round on it (R127, R266), a
    batch (R207), earlier accesses (R264), a register that a window access reaches (R323), or the gang (R272). -/
def tryExec (i : Instr) (s : State) : Option (Host.Outcome State Fault Refusal) :=
  match i with
  | .ldB d a b => some (execLdB d a b s)
  | .ldH d a b => some (execLdH d a b s)
  | .ldW d a b => some (execLdW d a b s)
  | .ldD d a b => some (execLdD d a b s)
  | .ldQ d a b => some (execLdQ d a b s)
  | .ldbyW d a b => some (execLdbyW d a b s)
  | .ldbyD d a b => some (execLdbyD d a b s)
  | .ldbyQ d a b => some (execLdbyQ d a b s)
  | .stB d a b => some (execStB d a b s)
  | .stH d a b => some (execStH d a b s)
  | .stW d a b => some (execStW d a b s)
  | .stD d a b => some (execStD d a b s)
  | .stQ d a b => some (execStQ d a b s)
  | .stbyW d a b => some (execStbyW d a b s)
  | .stbyD d a b => some (execStbyD d a b s)
  | .stbyQ d a b => some (execStbyQ d a b s)
  | .ldf d a b => some (execLdf d a b s)
  | .stf d a b => some (execStf d a b s)
  | .pref l a b => some (execPref l a b s)
  | .cp d a b sswz dswz rows => some (execCp d a b sswz dswz rows s)
  | .rqnt a b sat rnd newf => some (execRqnt a b sat rnd newf s)
  | .cps d => some (execCps d s)
  | .fence d sc => some (execFence d sc s)
  | .acq d sc => some (execAcq d sc s)
  | .rel d sc => some (execRel d sc s)
  | .lda d a dbl off => some (execLda d a dbl off s)
  | .stl d a dbl off => some (execStl d a dbl off s)
  | .amo d a b op => some (execAmo d a b op s)
  | .cas d a b => some (execCas d a b s)
  | .red a b op => some (execRed a b op s)
  | .collAllreduce d a r => some (execCollAllreduce d a r s)
  | .collReducescatter d a r => some (execCollReducescatter d a r s)
  | .collAllgather d a => some (execCollAllgather d a s)
  | .collBroadcast d a => some (execCollBroadcast d a s)
  | .collAlltoall d a => some (execCollAlltoall d a s)
  | .abarv d a => some (execAbarv d a s)
  | .abwait d a => some (execAbwait d a s)
  | .gset d a => some (execGset d a s)
  | .gwid d a => some (execGwid d a s)
  | .gview d => some (execGview d s)
  | .grank d a => some (execGrank d a s)
  | .sigdec err a b => some (execSigdec err a b s)
  | .mma n a b mr nc kb pa pb => some (execMma n a b mr nc kb pa pb s)
  | .mmas n d a b mr nc kb isel pa pb => some (execMmas n d a b mr nc kb isel pa pb s)
  | .mmac n a b mr nc kb pb => some (execMmac n a b mr nc kb pb s)
  | .macz n => some (execMacz n s)
  | .macrd d a n => some (execMacrd d a n s)
  | .macwr d a n => some (execMacwr d a n s)
  | .macld n a b => some (execMacld n a b s)
  | .macst n a b => some (execMacst n a b s)
  | .ackpt d a n => some (execAckpt d a n s)
  | .acrst d a n => some (execAcrst d a n s)
  | .mepi n a b mr nc tgt rnd sat fam bfmt => some (execMepi n a b mr nc tgt rnd sat fam bfmt s)
  | .attn n a b q dim chunks lc kw vw fold causal => some (execAttn n a b q dim chunks lc kw vw fold causal s)
  | .attc init fin n a => some (execAttc init fin n a s)
  | .kvap d a b => some (execKvap d a b s)
  | .kvtr d a b => some (execKvtr d a b s)
  | .kvrd d a b => some (execKvrd d a b s)
  | .cntsv a => some (execCntsv a s)
  | .cntld a => some (execCntld a s)
  | _ => none

/-- Whether the next instruction of a split waits at its issue (R324), as an issue of it in this state would show. -/
def State.waitsAtIssue (s : State) (core : Nat) (x : Nat × Nat) (i : Instr) : Bool :=
  match tryExec i { s.setCore core { s.core core with again := [] } with issue := [x] } with
  | some (.next t) => !(t.core core).again.isEmpty
  | _ => false

end Sys2Proof.Machine
end

