-- ==== Sys2Proof/Machine/World.lean ====
section
/-! DEFINITION. The core's clock: waits that end, readiness and the choice of the slots (R318 to R334), the detector
(R331, R332), pre-emption points (R411), the world switch (R382 to R386) and the overflow interrupt (R392). -/

namespace Sys2Proof.Machine

/-! ## Waits -/

/-- Whether what a split's instruction waits for has come. -/
def State.waitOver (s : State) (t : Terrace) : Wait → Bool
  | .path p n => t.inFlight p ≤ n
  | .released sc n => s.released t sc n
  | .returned sc n => s.returnedAll t sc n
  | .batch b => let cs := s.batchCmds t b; cs.isEmpty || cs.any fun c => c.fault.isSome
  | .quarter ph => match t.quarter.bind fun u => s.quarters.find? fun q => q.uid == u with
    | some q => ph < q.phase
    | none => true
  | .growth => match s.team? t.team with | some m => m.growers.all fun g => g.1 != t.uid | none => true
  | .alley x => !(s.alley x).empty && (match (s.popQueue x).head? with | some u => u == t.uid | none => true)
  | .allow x => match (s.alley x).record t.sender t.ter with
    | some i => sndAllow ((s.alley x).snd.getD i 0) != 0
    | none => true
  | .signal x thr => signalMet (s.rdNat x 8) thr
  | .barrier x tok => phasePassed (s.rdNat (x + 8) 4) tok
  | .crossing k n => n < (s.dom k).crossings || (k != t.domain 0 && k != t.domain 1) || t.parted.isSome
  | .cycle n => n ≤ s.now t.core
  | .counter => t.reply.isSome
  | .total => t.total.isSome
  | .copies k => !s.copyOpen t k
  | .before n => s.accs.all fun a => a.ter != t.uid || n ≤ a.id
  | .shot vf lo hi n => s.shotOver vf lo hi n
  | .outside tag => s.answers.any fun a => a.1 == tag
  | .turn => match s.shootTurn with | some x => x.1 == t.uid | none => true
  | .descriptor ter sid => (s.intakes.all fun i => i.who != some (ter, sid) || s.allGot i.gets)

/-! ## Candidates and readiness (R320 to R326, R333) -/

/-- Whether management has stopped a terrace's launch or is ending it (R410). -/
def State.halted (s : State) (t : Terrace) : Bool :=
  match s.launch? t.launch with | some l => l.halt != 0 | none => false

/-- Whether an access that keeps its split's next instruction back takes the split out of candidacy (R320): LDA's and CNTSV's
    entries say that they hold it (R235, R396); a load, an LDF or an atomic does not (log entry 41). -/
def entryHolds : Option Instr → Bool
  | some (.lda ..) | some (.cntsv _) | none => true
  | some _ => false

/-- Whether a split is a candidate (R320): neither held, stopped nor sleeping. -/
def State.candidate (s : State) (t : Terrace) (sp : Split) : Bool :=
  !sp.stopped && (match sp.hold with
    | .none => true
    | .sleep n => n ≤ s.now t.core
    | .access _ => !entryHolds sp.held
    | .wait _ | .tile => false)

/-- Whether the instruction at an address names a latch, or stands in a frame of the host or of a peer and has not been fetched
    yet. -/
def State.mayName (s : State) (t : Terrace) (sp : Split) (pc : DWord) : Bool :=
  s.namesAt t sp pc || ((s.peekBytes t sp pc.toNat).isNone && isGlobal pc.toNat &&
    (match (s.translate t.vf (dieOf t.core) none ⟨false, true, sp.supervisor⟩ pc.toNat).2 with
     | .ok p => (match p.owner with | .die _ => false | _ => true)
     | .error _ => false))

/-- Whether the instruction after a split's last issued one is a member of its chain (R50): that one may hold the split
    still. -/
def State.chained (s : State) (t : Terrace) (sp : Split) : Bool :=
  match sp.held with
  | some i => s.mayName t sp (sp.pc + BitVec.ofNat 64 (4 * (encode i).length))
  | none => !sp.window.isEmpty && s.mayName t sp sp.pc

/-- The split a slot is pinned to (R326): the last issued one, while its next instruction is a member of its chain. -/
def State.pinned (s : State) (p : Part) (k : Nat) : Option (Nat × Nat) :=
  match (p.slotState.getD k SlotState.init).last with
  | none => none
  | some (uid, sid) =>
    match s.ter? uid with
    | none => none
    | some t =>
      match t.split? sid with
      | none => none
      | some sp => if s.chained t sp then some (uid, sid) else none

/-- Whether a register's pending bit is set in a cycle (R322). -/
def Terrace.isPending (t : Terrace) (now : Nat) (r : PReg) : Bool :=
  t.pending.any fun p => p.reg == r && (match p.clearAt with | some c => now < c | none => true)

/-- The scoreboard's conditions (R323). -/
def scoreOk (t : Terrace) (sp : Split) (now : Nat) (i : Instr) : Bool :=
  ((readsOf sp.mode i ++ writesOf sp.mode i).all fun r => !t.isPending now r)
    && (latchesOf i).all fun k => (sp.window.getD (k - 1) ⟨false, false, [], 0⟩).ready ≤ now

/-- Load-class instructions (R324). -/
def loadClass : Instr → Bool
  | .ldB .. | .ldH .. | .ldW .. | .ldD .. | .ldQ .. | .ldbyW .. | .ldbyD .. | .ldbyQ .. | .lda .. | .ldf .. | .pref ..
  | .amo .. | .cas .. | .macld .. => true
  | _ => false

/-- The instruction words a split would issue next, where they stand in the instruction cache and decode. -/
def State.nextWords (s : State) (t : Terrace) (sp : Split) : Option (List Byte) :=
  fetchInstr (s.codeLines t sp) sp.supervisor (s.tenant t.vf).asid sp.pc.toNat

/-- Whether a split's next instruction passes every condition but admission (R327), the waits at issue among them (R324). A
    word that does not decode needs nothing: its trap is the issue. -/
def State.eligible (s : State) (q : SlotState) (t : Terrace) (sp : Split) : Bool :=
  let now := s.now t.core
  s.candidate t sp && sp.held.isNone && sp.avail ≤ now && (match s.nextWords t sp with
    | none => false
    | some bs => match decode bs with
      | .error _ => true
      | .ok (i, _) => scoreOk t sp now i && !(usesAlu i && now < q.aluUntil) && !s.waitsAtIssue t.core (t.uid, sp.sid) i)

/-- Whether a split's next instruction is load-class. -/
def State.nextLoad (s : State) (t : Terrace) (sp : Split) : Bool :=
  match s.nextWords t sp with
  | none => false
  | some bs => match decode bs with | .ok (i, _) => loadClass i | .error _ => false

/-- The splits of a slot for a partition, oldest first (R320): terraces in the order of their creation. -/
def State.slotSplits (s : State) (p : Part) (k : Nat) : List (Terrace × Split) :=
  (s.ters.filter fun t => t.core == p.core && t.vf == p.vf && t.ter / 16 == k).flatMap fun t =>
    (sortByLow t.splits).map fun x => (t, x)

/-! ## Pre-emption points (R411) -/

/-- Instructions that complete before pre-emption is taken. -/
def completesFirst : Instr → Bool
  | .launch .. | .shoot .. | .invl .. | .invlAll | .lda .. | .gset .. | .gwid .. | .kvap .. | .kvtr .. | .kvrd ..
  | .bcinit .. | .bcgive .. | .bcread .. | .bcstat .. | .part .. | .cntsv .. | .cntld .. | .cgbind .. => true
  | _ => false

/-- Whether an attention job has come to its fold (R159). -/
def State.folding (s : State) (uid : Nat) : Bool :=
  match s.job? uid with | some j => j.cards.isEmpty | none => false

/-- Instructions whose wait pre-emption ends: they issue again on resume (R411). -/
def waitStops : Instr → Bool
  | .waitp .. | .cpw .. | .apop .. | .apush .. | .qbar .. | .cross .. | .crossa .. | .crossw .. | .phase .. | .abwait ..
  | .sigwait .. | .rgrow .. | .bctake .. | .fence .. | .acq .. | .rel .. | .mma .. | .mmas .. | .mmac .. | .mepi ..
  | .macld .. | .macst .. | .ackpt .. | .acrst .. | .attc .. | .attn .. => true
  | _ => false

/-- Whether the tile instruction a split issued is inside a block step, or a MACST inside a row (R131): a step's later rows, or
    the answers to a row's writes, are still to come. -/
def State.midStep (s : State) (t : Terrace) (sp : Split) : Bool :=
  match sp.held with
  | some (.mma ..) | some (.mmas ..) | some (.mmac ..) =>
    s.progress.any fun e => e.2.uid == t.uid && e.2.act && !e.2.flt && e.2.row != 0 && [opcMma, opcMmas, opcMmac].contains e.2.opc
  | some (.macst ..) => s.progress.any fun e => e.2.uid == t.uid && e.2.act && !e.2.flt && e.2.opc == opcMacst && !e.2.acks.isEmpty
  | _ => false

/-- Whether pre-emption of a split is taken now: an instruction that waits in another way completes first. An access that
    holds its split stays open over a world switch (R385), unless its instruction completes first. -/
def State.stopsNow (s : State) (t : Terrace) (sp : Split) : Bool :=
  match sp.hold with
  | .none | .sleep _ => true
  | .access _ => match sp.held with | some i => !completesFirst i | none => true
  | .tile => !s.folding t.uid && !s.midStep t sp
  | .wait _ => match sp.held with | some i => waitStops i | none => true

/-- A pre-empted split (R411): a tile instruction stops at its step or row and issues again, an ATTN's cards are cancelled,
    and an instruction that waited issues again; its window is empty (R49). An open access holds its split still. The rest of
    a sleep is discarded (R336), but a world switch leaves it to count down (R385; log entry 29). -/
def State.stopSplit (s : State) (switch : Bool) (t : Terrace) (sp : Split) : State :=
  let s := if sp.hold == .tile then s.dropJob t.uid else s
  let open_ := match sp.hold with | .access _ => true | .sleep _ => switch | _ => false
  s.updTer t.uid fun u =>
    { (u.clearOwned sp.sid) with splits := u.splits.map fun x =>
        if x.sid = sp.sid then
          { x with window := [], members := 0, lastStore := false, stopping := false,
                   hold := if open_ then x.hold else .none
                   held := if open_ then x.held else none
                   read := none, list := none }
        else x }

/-! ## The slice (R382 to R386) -/

/-- The holding partition's slice ends (R383). -/
def State.endSlice (s : State) (core : Nat) : State :=
  let k := s.core core
  match k.holder with
  | none => s
  | some i =>
    if (s.nextPart core i).isSome then s.setCore core { k with ending := true }
    else s.setCore core { k with sliceStart := k.now + 1 }

/-- WSWITCH (R386). -/
def execWswitch (s : State) : Host.Outcome State Fault Refusal :=
  issue .wswitch (fun s c => .jump s fun s => s.endSlice c.t.core) s

/-- Whether a partition's quantum is over: it has held the core for QUANT cycles, this one the last (R383). -/
def State.quantumOver (s : State) (core : Nat) : Bool :=
  let k := s.core core
  match k.holder.bind (s.partAt? core) with
  | some p => 0 < p.quant && k.sliceStart + p.quant ≤ k.now + 1 && !k.ending && k.again.isEmpty && k.due.isEmpty
  | none => false

/-- The event QUANTUM_EXPIRY. -/
def execQuantumExpiry (core : Nat) (s : State) : Host.Outcome State Fault Refusal :=
  event (s.quantumOver core) s (s.endSlice core)

/-- Whether the holding partition gives the core up now: it has no resident terrace, or its slice has ended and every
    split has come to a point of R384. -/
def State.switchDue (s : State) (core : Nat) : Bool :=
  let k := s.core core
  match k.holder.bind (s.partAt? core) with
  | none => false
  | some p =>
    let mine := s.ters.filter fun t => t.core == core && t.vf == p.vf
    mine.isEmpty || (k.ending && ([0, 1, 2, 3].all fun i => (s.pinned p i).isNone)
      && mine.all fun t => t.splits.all fun x => s.stopsNow t x)

/-- Every split of a list of terraces is pre-empted by a world switch. -/
def State.stopAll (s : State) (ts : List Terrace) : State :=
  ts.foldl (fun s t => t.splits.foldl (fun s x => s.stopSplit true t x) s) s

/-- The event WORLD_SWITCH (R384): the partition held the core in this cycle, and none does in the 48 that follow. -/
def execWorldSwitch (core : Nat) (s : State) : Host.Outcome State Fault Refusal :=
  let k := s.core core
  match k.holder.bind (s.partAt? core) with
  | none => .fault .notEnabled
  | some p =>
    let mine := s.ters.filter fun t => t.core == core && t.vf == p.vf
    let s1 :=
      match s.nextPart core p.pidx with
      | some n =>
        (s.stopAll mine).setCore core { k with holder := none, ending := false, switching := some (n, k.now + 49) }
      | none =>
        if mine.isEmpty then s.setCore core { k with holder := none, ending := false }
        else s.setCore core { k with ending := false, sliceStart := k.now + 1 }
    event (s.switchDue core && s.issue.isEmpty && k.due.isEmpty) s s1

/-! ## The overflow interrupt (R392, R413) -/

/-- The split that takes a partition's interrupt: of the oldest terrace that has one neither held, pinned nor in a
    handler. A terrace whose take is queued at a counter's home takes none (R354). -/
def State.interruptee (s : State) (p : Part) : Option (Nat × Nat) :=
  let pins := [0, 1, 2, 3].map (s.pinned p)
  let ok := fun (t : Terrace) (x : Split) =>
    (match x.hold with | .none | .sleep _ => true | _ => false) && x.frame.isNone && !x.stopped && x.after.isNone
      && !x.stopping && !s.halted t && (s.bcQueued t.uid).isNone && !pins.contains (some (t.uid, x.sid))
  ((s.ters.filter fun t => t.core == p.core && t.vf == p.vf).flatMap fun t =>
    ((sortByLow t.splits).filter (ok t)).map fun x => (t.uid, x.sid)).head?

/-- Whether an interrupt of the holding partition is delivered now. -/
def State.interruptDue (s : State) (core : Nat) : Option (Part × Nat × Nat) :=
  let k := s.core core
  match k.holder.bind (s.partAt? core) with
  | none => none
  | some p =>
    if k.ending || !((List.range 8).any fun i => cfgPend (p.counter i).config) then none
    else (s.interruptee p).map fun x => (p, x.1, x.2)

/-- A partition's splits but one are pre-empted (R410): each stops where it is at a pre-emption point and in no chain, and
    the others when they come to one. -/
def State.preemptOthers (s : State) (p : Part) (uid sid : Nat) : State :=
  let pins := [0, 1, 2, 3].map (s.pinned p)
  (s.ters.filter fun t => t.core == p.core && t.vf == p.vf).foldl (fun s0 t =>
    (t.splits.filter fun x => (t.uid, x.sid) != (uid, sid)).foldl (fun s1 x =>
      if s.stopsNow t x && !pins.contains (some (t.uid, x.sid)) then s1.stopSplit false t x
      else s1.updSplit t.uid x.sid fun y => { y with stopping := true }) s0) s

/-- The event OVERFLOW_INTERRUPT: PEND clears, the partition's other splits are pre-empted, and the split traps at its
    instruction boundary. -/
def execOverflowInterrupt (core : Nat) (s : State) : Host.Outcome State Fault Refusal :=
  match s.interruptDue core with
  | none => .fault .notEnabled
  | some (p, uid, sid) =>
    let s1 := (s.preemptOthers p uid sid).updPart core p.pidx fun p =>
      { p with counters := p.counters.map fun c => { c with config := c.config &&& 0xBFFFFFFF#32 } }
    match (s1.ter? uid).bind fun t => t.split? sid with
    | none => .fault .notEnabled
    | some sp =>
      event (s.issue.isEmpty && (s.core core).due.isEmpty) s
        (s1.takeTrap uid sid false sp.pc 0 ⟨0x20, 0, false, true, none, sp.pc.toNat⟩ none (s.now core))

/-! ## Small events of the core -/

/-- The event SLEEP_END (R336). -/
def execSleepEnd (ter lane : Nat) (s : State) : Host.Outcome State Fault Refusal :=
  match (s.ter? ter).bind fun t => (t.splits.find? fun x => x.low == lane).map fun x => (t, x) with
  | none => .fault .notEnabled
  | some (t, sp) =>
    event (match sp.hold with | .sleep n => n ≤ s.now t.core | _ => false) s
      (s.updSplit ter sp.sid fun x => { x with hold := .none })

/-- The rungs of ADM, in descending order (R331). -/
def admRungs : List Nat := [64, 48, 32, 24, 16, 12, 8, 6, 4, 3, 2, 1]

/-- The rung below, and above. -/
def rungDown (a : Nat) : Nat := (admRungs.find? fun r => r < a).getD 1
def rungUp (a : Nat) : Nat := (admRungs.reverse.find? fun r => a < r).getD 64

/-- The end of a detector window (R332). -/
def Part.endWindow (p : Part) : Part :=
  { p with
    adm := if 64 ≤ p.missR && p.missM ≤ 4 * p.missR then rungDown p.adm
           else if p.missR ≤ 16 then rungUp p.adm else p.adm
    missM := 0, missR := 0, windowCycles := 0 }

/-- The event DETECTOR_WINDOW_END. -/
def execDetectorWindowEnd (core pidx : Nat) (s : State) : Host.Outcome State Fault Refusal :=
  match s.partAt? core pidx with
  | none => .fault .notEnabled
  | some p => event (2048 ≤ p.windowCycles) s (s.updPart core pidx Part.endWindow)

/-! ## The choice of a slot (R327 to R330) -/

/-- The first of a list of splits in ring order after a position (R320, R329). -/
def ringNext (pos : Option (Nat × Nat)) (xs : List (Terrace × Split)) : Option (Terrace × Split) :=
  let key := fun (x : Terrace × Split) => x.1.ter % 16 * 64 + x.2.low
  let least := fun (l : List (Terrace × Split)) => l.foldl (fun (b : Option (Terrace × Split)) x => match b with
    | none => some x | some y => if key x < key y then some x else some y) none
  match pos with
  | none => least xs
  | some (pl, lo) => match least (xs.filter fun x => pl * 64 + lo < key x) with
    | some x => some x
    | none => least xs

/-- What a slot would issue in a cycle, and the splits that were eligible. -/
def State.choice (s : State) (p : Part) (k : Nat) (ending : Bool) : Option (Terrace × Split) × List (Nat × Nat) :=
  let q := p.slotState.getD k SlotState.init
  let all := s.slotSplits p k
  let el := all.filter fun x => s.eligible q x.1 x.2
  let id := fun (x : Terrace × Split) => (x.1.uid, x.2.sid)
  match s.pinned p k with
  | some x => ((el.find? fun y => id y == x), [])
  | none =>
    let adm := ((all.filter fun x => s.candidate x.1 x.2).take p.adm).map id
    let urgent := fun (x : Terrace × Split) => 256 ≤ x.2.waited
    let ready := el.filter fun x => !s.nextLoad x.1 x.2 || urgent x || adm.contains (id x)
    -- a split that must stop issues nothing (R384, R410, R411)
    let ready := ready.filter fun x => !(ending || s.halted x.1 || x.2.stopping)
    let rr := match all with | x :: _ => s.isRr x.1 | [] => false
    let urg := ready.filter urgent
    let pick :=
      if rr then (if urg.isEmpty then ringNext q.ring ready else ringNext q.ring urg)
      else if !urg.isEmpty then urg.head?
      else
        match ready.find? fun x => some (id x) == q.greedy && some (id x) != q.yielded && q.run < 64 with
        | some x => some x
        | none => match ready.find? fun x => some (id x) != q.yielded with
          | some x => some x
          | none => ready.head?
    (pick, el.map id)

/-- Make the lines of an instruction the most recently used of a partition's instruction cache (R363). -/
def Part.useCode (p : Part) (asid pc len : Nat) : Part :=
  let used := fun (l : Line) => l.asid == asid && (l.line == pc / 64 || l.line == (pc + len - 1) / 64)
  { p with ilines := p.ilines.filter used ++ p.ilines.filter fun l => !used l }

/-- Choose for one slot of the holding partition: the chosen split is due; the wait counts rise in a
    free cycle, unless the slot chooses again in it. -/
def State.pickSlot (s : State) (p : Part) (again : Bool) (k : Nat) : State :=
  let q := p.slotState.getD k SlotState.init
  let now := s.now p.core
  let r := s.choice p k (s.core p.core).ending
  let free := (s.pinned p k).isNone && q.aluUntil ≤ now && !again
  let chosen := r.1.map fun x => (x.1.uid, x.2.sid)
  let s1 := if free then r.2.foldl (fun s x =>
      if some x = chosen then s else s.updSplit x.1 x.2 fun y => { y with waited := y.waited + 1 }) s else s
  match r.1 with
  | some x =>
    -- its lines are the most recently used of the instruction cache
    let len := ((s.nextWords x.1 x.2).getD []).length
    let s2 := s1.updPart p.core p.pidx fun q => q.useCode (s.tenant x.1.vf).asid x.2.pc.toNat len
    let k := s2.core p.core
    s2.setCore p.core { k with due := k.due ++ [(x.1.uid, x.2.sid)] }
  | none => s1

/-! ## Launches that management is ending (R410) -/

/-- Whether every split of a terrace is at a pre-emption point. -/
def State.atPoint (s : State) (t : Terrace) : Bool :=
  let pins := match s.part? t.core t.vf with | some p => [0, 1, 2, 3].map (s.pinned p) | none => []
  t.splits.all fun x => s.stopsNow t x && !pins.contains (some (t.uid, x.sid))

/-- A terrace that management ends (R299, R410): its launch is marked with error, and a take it has queued is
    withdrawn. -/
def State.endByMgmt (s : State) (t : Terrace) : State :=
  ((s.markError t.launch).bcWithdraw t).endTerrace { t with splits := [] }

/-- Splits that must stop do so at their pre-emption points: those of a launch that management has stopped, and those that
    an interrupt's delivery pre-empts. -/
def State.stopDue (s : State) : State :=
  s.ters.foldl (fun s0 t =>
    (t.splits.filter fun x => s.halted t || x.stopping).foldl (fun s1 x =>
      let pins := match s.part? t.core t.vf with | some p => [0, 1, 2, 3].map (s.pinned p) | none => []
      if s.stopsNow t x && !pins.contains (some (t.uid, x.sid)) then s1.stopSplit false t x else s1) s0) s

/-- The terraces of launches under end leave at their pre-emption points. -/
def State.sweep (s : State) : State :=
  s.ters.foldl (fun s t => match s.launch? t.launch with
    | some l => if l.halt == 2 && s.atPoint t then s.endByMgmt t else s
    | none => s) s.stopDue

/-- The splits of a partition whose instruction holds them in a wait that is over: it goes on. -/
def State.continuing (s : State) (p : Part) : List (Nat × Nat) :=
  (s.ters.filter fun t => t.core == p.core && t.vf == p.vf).flatMap fun t =>
    (t.splits.filter fun x => x.avail ≤ s.now p.core && (match x.hold with | .wait w => s.waitOver t w | _ => false)).map
      fun x => (t.uid, x.sid)

/-! ## The cycle -/

/-- Whether something of a core comes before its next cycle. -/
def State.cycleBlocked (s : State) (core : Nat) : Bool :=
  s.quantumOver core || s.switchDue core || (s.interruptDue core).isSome
    || (match (s.core core).holder.bind (s.partAt? core) with | some p => 2048 ≤ p.windowCycles | none => false)

/-- Flits that wait at a die for something of this module come to it again, unless a list is held here (R152). -/
def State.retryFab (s : State) : State :=
  if s.waitFab.isEmpty || !s.lists.isEmpty || s.ters.any fun t => t.splits.any fun x => x.list.isSome then s
  else { s with waitFab := [], agenda := s.agenda ++ s.waitFab.map fun e => fabEvent e.1 e.2 }

/-- An UNTRACKED line of a core's L1 may leave in any cycle (R11, R176): which, or none, is a free choice (DESIGN CHOICE,
    log entry 8). It enters no victim tag, since no fill drives it out (R331). -/
def State.mayEvict (s : State) (core : Nat) : State :=
  match (s.parts.filter fun p => p.core == core).flatMap fun p =>
      (p.lines.filter fun l => l.leaf.cls == clsUntracked).map fun l => (p.pidx, l) with
  | [] => s
  | ls =>
    let s1 : State := { s with tick := s.tick + 1 }
    match ls[Config.choose s.tick % (ls.length + 1)]? with
    | some x => s1.l1Drop core x.1 fun l => l == x.2
    | none => s1

/-- A sharer of a core may apply a write to an UPDATE line that stands at its slice in any cycle before the store's
    acknowledgement (R177): whether is a free choice (DESIGN CHOICE, log entry 8). -/
def State.mayApply (s : State) (core : Nat) : State :=
  if !(s.parts.any fun p => p.core == core && p.lines.any fun l => !l.due.isEmpty) then s
  else
    let s1 : State := { s with tick := s.tick + 1 }
    if Config.choose s.tick % 2 == 0 then s1
    else { s1 with parts := s1.parts.map fun p => if p.core = core then { p with lines := p.lines.map Line.apply } else p }

/-- Whether a split chosen in this cycle may still issue: no other agent has stopped it since. -/
def State.stillDue (s : State) (x : Nat × Nat) : Bool :=
  match (s.ter? x.1).bind fun t => (t.split? x.2).map fun sp => (t, sp) with
  | some (t, sp) => (match sp.hold with | .wait w => s.waitOver t w | _ => s.candidate t sp && !s.halted t && !sp.stopping)
  | none => false

/-- The next of the splits chosen in a core's cycle comes to issue. -/
def State.nextDue (s : State) (core : Nat) : State :=
  let k := s.core core
  match k.due with
  | [] => s
  | x :: rest =>
    let s1 := s.setCore core { k with due := rest }
    if s.stillDue x then { s1 with issue := [x] } else s1

/-- A core's next cycle: a switch that is over, a free core taken by the partition of its oldest terrace, the cycle's
    count, and the choices of the slots. -/
def State.nextCycle (s : State) (core : Nat) : State :=
  let s := (s.retryFab.sweep.mayEvict core).mayApply core
  let k := { s.core core with now := s.now core + 1, again := [] }
  let k := match k.switching with
    | some (n, c) => if c ≤ k.now then { k with holder := some n, switching := none, sliceStart := k.now } else k
    | none => match k.holder with
      | some _ => k
      | none => match (s.ters.find? fun t => t.core == core).bind fun t => s.part? core t.vf with
        | some p => { k with switching := some (p.pidx, k.now + 48) }
        | none => k
  let s1 := s.setCore core k
  match k.holder.bind (s1.partAt? core) with
  | none => s1
  | some p =>
    let s2 := (s1.count core p.pidx evCycles 1).updPart core p.pidx fun p => { p with windowCycles := p.windowCycles + 1 }
    match s2.partAt? core p.pidx with
    | none => s2
    | some p => ([0, 1, 2, 3].foldl (fun s i => s.pickSlot p false i)
        (s2.setCore core { s2.core core with due := s2.continuing p })).nextDue core

/-- The event CORE_CYCLE: the next split chosen in the cycle comes to issue; or another choice in the same cycle for slots whose
    choice began to wait; or the next cycle. -/
def execCoreCycle (core : Nat) (s : State) : Host.Outcome State Fault Refusal :=
  let k := s.core core
  if !k.due.isEmpty then event (core < 1024 && s.issue.isEmpty) s (s.nextDue core)
  else
  match k.holder.bind (s.partAt? core) with
  | some p =>
    if k.again.isEmpty then event (core < 1024 && s.issue.isEmpty && !s.cycleBlocked core) s (s.nextCycle core)
    else
      event (core < 1024 && s.issue.isEmpty) s
        ((k.again.foldl (fun s i => s.pickSlot p true i) (s.setCore core { k with again := [] })).nextDue core)
  | none => event (core < 1024 && s.issue.isEmpty && !s.cycleBlocked core) s (s.nextCycle core)

/-! ## Fetching (R27, R321, R363, R374) -/

/-- Enter a line into the L1 instruction cache; the least recently used of its set beyond 16 ways leaves. -/
def Part.fillI (p : Part) (l : Line) : Part :=
  let set := fun (x : Line) => l1iSet x.asid (x.line * 64) p.lb p.lc
  let rest := p.ilines.filter fun x => !(x.line == l.line && x.asid == l.asid)
  { p with ilines := l :: (((rest.filter fun x => set x == set l).take 15) ++ rest.filter fun x => set x != set l) }

/-- What a fetch of an instruction line comes to. -/
inductive Fetch1 where
  | ok (s : State)
  | fault (s : State) (code : Nat)
  | wait (s : State)

/-- Fetch the line of an address for a split. A line of a shared frame, of the host or of a peer is cached nowhere: the split
    alone holds it, for its next issue (R372). -/
def State.fetchCode (s : State) (t : Terrace) (sp : Split) (p : Part) (va : Nat) : Fetch1 :=
  let d := dieOf t.core
  let asid := (s.tenant t.vf).asid
  let line := va / 64
  let hold := fun (s : State) (ph : Phys) (v : Nat) (g : List OutRead) =>
    s.updSplit t.uid sp.sid fun x =>
      { x with gets := g, buf := ⟨line, asid, ph.pa / 64 * 64, ph.leaf, ph.owner, natBytes 64 v, none, []⟩ ::
          (x.buf.filter fun l => l.line != line).take 1 }
  if !isGlobal va then .fault s codeViolation
  else
    let s := s.meetInstr t.core p.pidx line
    match s.reach t d (some t.core) ⟨false, true, sp.supervisor⟩ (line * 64) with
    | (s1, .error x) => .fault s1 x.code
    | (s1, .ok q) =>
      let ph := q.ph
      match ph.owner with
      | .bad => .fault s codeEntry
      | .die _ =>
        let m := s1.meetPage t.core t.vf ph 64
        if m.2 then .fault m.1 0x16
        else
          let s2 := ((m.1.enter t.vf d va q).l2Touch t va ph false).1
          let s2 := s2.correct (s2.unitsOf (Eng.ofTer t sp.supervisor 0).access (engReq va ph.pa 64 (some ph) 0))
          let bs := s2.rdBytes ph.pa 64
          .ok (if ph.shared then hold s2 ph (bytesNat bs) sp.gets
            else s2.updPart t.core p.pidx fun p => p.fillI ⟨line, asid, ph.pa, ph.leaf, ph.owner, bs, none, []⟩)
      | _ =>
        match s1.outGet sp.gets (.core t.core) t.vf t.launch (line * 64) 64 ph with
        | (s2, _, .err code) => .fault s2 code
        | (s2, g, .val v) => .ok (hold s2 ph v (g.filter fun x => x.pa != ph.pa))
        | (s2, g, .wait) => .wait (s2.updSplit t.uid sp.sid fun x => { x with gets := g })

/-- A fetch of the line of an address for a split whose instruction word is at `pc`; a fault traps there. None while it waits
    for an answer. -/
def State.fetchLine (s : State) (t : Terrace) (sp : Split) (p : Part) (va : Nat) : Option State :=
  let pc := sp.pc.toNat
  -- with the instruction's word there, the page of its extension word is the one that faults (R27, R52)
  let word := fetchBytes (s.codeLines t sp) sp.supervisor (s.tenant t.vf).asid pc 4
  let chain := match word with | some bs => s.chainWord t sp (wordAt bs) 8 | none => false
  let head := match word with | some bs => if sp.memberWord (wordAt bs) then sp.head else sp.pc | none => sp.pc
  match s.fetchCode t sp p va with
  | .ok s1 => some s1
  | .wait s1 => if s1.fresh == s.fresh then none else some s1
  | .fault s1 code =>
    some (s1.takeTrap t.uid sp.sid chain head (if word.isSome then 8 else 4) ⟨code, 0, true, false, none, pc⟩ none (s.now t.core))

/-- The address whose line a split's fetch needs next. -/
def State.fetchNeed (s : State) (t : Terrace) (sp : Split) : Option (Part × Nat) :=
  match s.part? t.core t.vf with
  | none => none
  | some p =>
    let asid := (s.tenant t.vf).asid
    let pc := sp.pc.toNat
    let ls := s.codeLines t sp
    match fetchBytes ls sp.supervisor asid pc 4 with
    | none => some (p, pc)
    | some w =>
      if 128 ≤ (w.getD 3 0).toNat && (fetchBytes ls sp.supervisor asid (pc + 4) 4).isNone then some (p, pc + 4) else none

/-- The event INSTRUCTION_FETCH: a missing line of a candidate split. -/
def execInstructionFetch (ter lane : Nat) (s : State) : Host.Outcome State Fault Refusal :=
  match (s.ter? ter).bind fun t => (t.splits.find? fun x => x.low == lane).map fun x => (t, x) with
  | none => .fault .notEnabled
  | some (t, sp) =>
    match (s.fetchNeed t sp).bind fun n => s.fetchLine t sp n.1 n.2 with
    | none => .fault .notEnabled
    | some s1 => event (s.candidate t sp && sp.held.isNone) s s1

end Sys2Proof.Machine
end

