-- ==== Sys2Proof/Machine/Recovery.lean ====
section
/-! DEFINITION. TRET and ELOG (R402 to R405), parked reductions and the service terrace (R408, R409), what management
ends (R410), links that retrain or go down (R414), and freeze (R423). -/

namespace Sys2Proof.Machine

/-! ## Parked reductions (R244, R408, R409) -/

/-- The oldest parked request of a virtual function on a die. -/
def State.parkedOn (s : State) (vf die : Nat) : Option Access := s.accs.find? fun a => a.parked && a.vf == vf && dieOf a.core == die

/-- The context of an access whose instruction has issued, for a second try of a lane. -/
def State.accCtx (s : State) (a : Access) : Ctx :=
  let t := s.accTer a
  let sp : Split := { Split.start a.sid 0 a.lanes with mode := a.mode, rk := a.rk, rc := a.rc }
  { uid := a.ter, sid := a.sid, t := t, sp := sp, i := .nop, active := a.lanes, len := 0, now := s.now a.core,
    diecoord := s.dieCoord (dieOf a.core), qid := 0, member := false, headsChain := false, resumed := false, ord := a.id, rt := t,
    window := [] }

/-- Replay one lane of a parked access at its home; a lane that leaves the module is added to the list. -/
def State.replayLane (x : State × List Req) (id lane : Nat) : State × List Req :=
  let s := x.1
  match s.accs.find? fun a => a.id == id && a.parked with
  | none => x
  | some a =>
    match a.reqs.find? fun r => r.lane == lane with
    | none => x
    | some r =>
      let c := s.accCtx a
      let on := fun (s : State) => (s, x.2)
      let close := fun (s : State) => s.closeReqs a (1#32 <<< lane)
      let fail := fun (s : State) (code : Nat) =>
        close (((s.logRec a.vf (logBoth code) ⟨r.ea, 0, code, 0, a.core, a.terno, dieOf a.core, 0⟩).1).markError a.launch)
      match s.reach c.t (dieOf a.core) (some a.core) ⟨true, false, false⟩ r.ea with
      | (s1, .error e) => on (if e.code == codePage then s1 else fail s1 e.code)
      | (s1, .ok ph) =>
        match s1.pageLane c a.kind [] r ph with
        | (s2, .fault code) => on (fail s2 code)
        | (s2, .stay) => on s2
        | (s2, .done) => on (close s2)
        | (s2, .send q) => (s2, x.2 ++ [q])
        | (s2, .open q) => on (close (s2.ackReq a q))

/-- Replay a parked access in all its lanes. Those that leave the module go together, one request for each address (R240), and
    their acknowledgements come later, to the same place in the count (R182). -/
def State.replay (s : State) (id : Nat) : State :=
  match s.accs.find? fun a => a.id == id && a.parked with
  | none => s
  | some a =>
    let x := (a.reqs.map (·.lane)).foldl (fun x l => State.replayLane x id l) (s, [])
    if x.2.isEmpty then x.1
    else
      let y := x.1.sendAll (.core a.core) a.vf (modeType a.mode) a.kind x.2
      let b : Access := { a with id := y.1.fresh, reqs := y.2, parked := false }
      let s3 := { y.1 with fresh := y.1.fresh + 1, accs := y.1.accs ++ [b] }
      (s3.joinFlight a.ter a.id b.id).closeReqs (s3.accNow a) (maskOf (x.2.map (·.lane)))

/-- The split of a service terrace at its handler, for a request's address (R408). -/
def serviceSplit (sid fid : Nat) (tvec : DWord) (addr now : Nat) : Split :=
  let tr : Trap := ⟨0x21, 0, false, false, none, addr⟩
  let cause := causeWord tr false true
  let all : Lanes := 0xFFFFFFFF#32
  let fr : Frame :=
    { fid := fid, rpc := tvec, rmask := all, fmask := all, rmode := 0, rk := 0, rc := 0, cause := cause,
      addr := BitVec.ofNat 64 addr, rlen := 4, stack := [], redo := none, kept := none }
  { Split.start sid tvec all with avail := now + 1, frame := some fr, tcause := cause, taddr := BitVec.ofNat 64 addr }

/-- A service terrace's registers for a request's address: s0:s1 holds it, all others 0. -/
def serviceRegs (t : Terrace) (addr : Nat) : Terrace :=
  { t with v := [], vw := [], p := [], sw := 1#16,
           s := kset 0 (kset 0 [] 0 (BitVec.ofNat 32 addr)) 1 (BitVec.ofNat 32 (addr / 2 ^ 32)) }

/-- The address of a parked request. -/
def Access.addr (a : Access) : Nat := match a.reqs with | r :: _ => r.ea | [] => 0

/-- A service terrace enters the handler for the oldest parked request of its die, or ends when none remains. -/
def State.serviceNext (s : State) (uid : Nat) : State :=
  match s.ter? uid with
  | none => s
  | some t =>
    match s.parkedOn t.vf (dieOf t.core) with
    | none =>
      let t1 := { t with service := none, splits := [] }
      (s.setTer t1).endTerrace t1
    | some a =>
      let x := serviceSplit s.fresh (s.fresh + 1) (s.tenant t.vf).tvec a.addr (s.now t.core)
      { s.setTer { serviceRegs t a.addr with splits := [x], pending := [], service := some a.id } with fresh := s.fresh + 2 }

/-- The core of a die on which a service terrace finds room. -/
def State.serviceCore (s : State) (vf die : Nat) : Option Nat :=
  ((List.range 256).map fun c => die * 256 + c).find? fun k => s.room k vf false 1 4096

/-- The event SERVICE_TERRACE_START. With no handler the first request is a handler fault at once (R401). -/
def execServiceTerraceStart (vf die : Nat) (s : State) : Host.Outcome State Fault Refusal :=
  match s.parkedOn vf die, s.serviceCore vf die with
  | some a, some core =>
    if s.ters.any fun t => t.vf == vf && dieOf t.core == die && t.service.isSome then .fault .notEnabled
    else
      let tvec := (s.tenant vf).tvec
      if tvec == 0 then
        event true s (((s.logRec vf true ⟨a.addr, 0, 0x3F, 0x21, core, 0, die, 0⟩).1).abandon a.id)
      else
        let ps := s.freePlaces core vf false
        let place := ps.getD (Config.choose s.tick % max ps.length 1) 0
        let t0 : Terrace := { (s.accTer { a with ter := s.fresh, core := core, vf := vf, launch := 0 }) with
          ter := place, nregs := 32, service := some a.id }
        let x := serviceSplit (s.fresh + 1) (s.fresh + 2) tvec a.addr (s.now core)
        event true s { s with
          fresh := s.fresh + 3, tick := s.tick + 1, ters := s.ters ++ [{ serviceRegs t0 a.addr with splits := [x] }] }
  | _, _ => .fault .notEnabled

/-! ## TRET, EXIT and ELOG (R404, R405) -/

/-- TRET (R404, R408). -/
def execTret (s : State) : Host.Outcome State Fault Refusal :=
  issue .tret (fun s c =>
    match c.sp.frame with
    | none => .trap s (.illegalOperand c.pc) false
    | some f =>
      if c.sp.mask != f.fmask then .trap s (.illegalOperand c.pc) false
      else if !s.released c.t 1 c.ord then .wait s (.released 1 c.ord)
      else
        match c.t.service with
        | some id => .jump (s.replay id) fun s => s.serviceNext c.uid
        | none => .jump s fun s => s.updSplit c.uid c.sid fun x => x.tretTo f c.now) s

/-- Whether the end of the active lanes makes a split leave its handler (R404): no lane of FMASK remains. -/
def Ctx.leavesHandler (c : Ctx) : Bool :=
  match c.sp.frame with
  | none => false
  | some f => c.sp.mask &&& ~~~c.active == 0 && c.sp.stack.isEmpty
      && c.t.splits.all fun x => x.sid == c.sid || x.fid != some f.fid

/-- EXIT (R119, R122, R404): one that leaves its handler waits as TRET does. -/
def execExit (s : State) : Host.Outcome State Fault Refusal :=
  issue .exit (fun s c =>
    if c.leavesHandler && !s.released c.t 1 c.ord then .wait s (.released 1 c.ord)
    else .jump s fun s => s.exitLanes c.uid c.sid c.active c.now) s

/-- ELOG (R405). -/
def execElog (d : Dst) (s : State) : Host.Outcome State Fault Refusal :=
  issue (.elog d) (fun s c =>
    if c.active == 0 then .done s none
    else
      let sub := match c.sp.frame with | some f => f.cause.toNat % 256 | none => 0
      let addr := if c.sp.frame.isSome then c.sp.taddr.toNat else 0
      let r := s.logRec c.t.vf false (coreRec c.t 0x48 sub addr c.pc.toNat)
      let launch := match c.t.service.bind fun id => s.accs.find? fun a => a.id == id with
        | some a => a.launch
        | none => c.t.launch
      let n := match r.2 with | some q => BitVec.ofNat 32 q | none => 0xFFFFFFFF#32
      .done ((r.1.markError launch).updTer c.uid fun t => t.writeDst d false c.active fun _ => [n]) none) s

/-! ## Launches that management stops or ends (R410) -/

/-- STOP's effect: 0 stops a launch, 1 ends it, 2 lets it go on; an ended launch starts no further task. -/
def State.haltLaunch (s : State) (l : Launch) (how : Nat) : State :=
  let l1 := if l.halt == 2 then l else match how with
    | 0 => { l with halt := 1 }
    | 1 => { l with halt := 2, tasks := [] }
    | _ => { l with halt := 0 }
  let s := s.setLaunch l1
  let s := if how == 0 || l.halt == 1 then
      (s.ters.filter fun t => t.launch == l.id).foldl (fun s t =>
        if s.atPoint t then t.splits.foldl (fun s x => s.stopSplit false t x) s else s) s
    else s
  if l1.halt == 2 then (s.markError l.id).sweep else s

/-- Abandon the parked requests of a virtual function, or of one launch of it (R409). -/
def State.abortParked (s : State) (vf : Nat) (launch : Option Nat) : State :=
  let hit := fun (a : Access) => a.parked && a.vf == vf && (match launch with | some l => a.launch == l | none => true)
  let s1 := (s.accs.filter hit).foldl (fun s a => s.abandon a.id) s
  (s1.ters.filter fun t => match t.service with | some id => s1.accs.all fun a => a.id != id | none => false).foldl
    (fun s t => s.serviceNext t.uid) s1

/-! ## Error responses from outside the module -/

/-- An error response to one lane of an outstanding access (R193, R244): where the split waits for the access it traps
    with the others' end; that of a write that has gone out is logged and its launch marked (R12, log entry 41). -/
def State.accError (s : State) (a : Access) (r : Req) (code : Nat) : State :=
  let held : Bool := match s.ter? a.ter with
    | some t => t.splits.any fun x => x.hold == .access a.id
    | none => false
  if held then
    let a1 := { a with errs := a.errs ++ [(r.lane, code, r.ea)] }
    ((s.setAccess a1).closeReqs a1 (1#32 <<< r.lane)).afterReturn a1
  else
    let s := match a.kind with
      | .image => s.updSplit a.ter a.sid fun x => { x with kept := some (4, code + 256 * r.ea) }
      | _ => ((s.logRec a.vf (logBoth code) ⟨r.ea, 0, code, 0, a.core, a.terno, dieOf a.core, 0⟩).1).markError a.launch
    s.closeReqs a (1#32 <<< r.lane)

/-! ## Links (R414) -/

/-- Whether a die's traffic for a coordinate leaves by a port. -/
def usesPort (die port c : Nat) : Bool := portOf die c == port

/-- Whether a request of an access waits for an answer across a link. -/
def State.across (s : State) (die port : Nat) (a : Access) (r : Req) : Bool :=
  dieOf a.core == die && r.outside && (match r.page with
    | some p => (match p.owner with
      | .peer i j d => (s.dieOfCoord (peerCoord i j d)).isNone && usesPort die port (peerCoord i j d)
      | _ => false)
    | none => false)

/-- Whether an instruction reports the writes that a link going down has kept from what it waited for: a fence, a REL, an
    STL or a SIGDEC (R232, R236, R314). -/
def countsUndelivered : Instr → Bool
  | .fence .. | .rel .. | .stl .. | .sigdec .. => true
  | _ => false

/-- A posted write is abandoned (R232, R414): logged, returned, its launch marked; the fences that wait for it count it. -/
def State.undelivered (s : State) (a : Access) (r : Req) : State :=
  let s := ((s.logRec a.vf false ⟨r.ea, 0, 0x43, 0, a.core, a.terno, dieOf a.core, 2⟩).1).markError a.launch
  let s := s.updTer a.ter fun t => { t with splits := t.splits.map fun x => match x.hold with
    | .wait (.released sc n) => if a.id < n && r.target (t.effScope sc) && x.held.any countsUndelivered then
        { x with undel := (x.undel.1 + 1, if x.undel.1 == 0 then r.ea else x.undel.2) } else x
    | _ => x }
  match s.accs.find? fun b => b.id == a.id with
  | some b => s.closeReqs b (1#32 <<< r.lane)
  | none => s

/-- What becomes of one access when a link goes down. -/
def State.accDown (s : State) (die port : Nat) (a : Access) : State :=
  (a.reqs.filter (s.across die port a)).foldl (fun s r =>
    match s.accs.find? fun b => b.id == a.id with
    | none => s
    | some b => if b.kind.returning then s.accError b r 0x19 else s.undelivered b r) s

/-- What becomes of a request that belongs to no access: a write is abandoned, a read receives the response. -/
def State.askDown (s : State) (a : Ask) : State :=
  let s := { s with asks := s.asks.filter fun x => x.tag != a.tag }
  let s := if a.write then ((s.logRec a.vf false ⟨a.va, 0, 0x43, 0, 0, 0, a.die, 2⟩).1).markError a.launch else s
  if a.waits then { s with answers := s.answers ++ [(a.tag, if a.write then .val 0 else .err 0x19)] } else s

/-- A link is declared down (R414). -/
def State.linkDown (s : State) (die port : Nat) : State :=
  let x := s.die die
  let s := s.setDie die { x with ports := kset 0 x.ports port 2, retrain := kdel x.retrain port }
  let mine := fun (e : Outgoing) => e.die == die && usesPort die port e.flit.dst
  let s := { s with egress := s.egress.filter fun e => !mine e, spill := s.spill.filter fun e => !mine e.2 }
  let s := s.accs.foldl (fun s a => s.accDown die port a) s
  let s := (s.asks.filter fun a => a.die == die && a.dest != 65536 && (s.dieOfCoord a.dest).isNone && usesPort die port a.dest).foldl
    (fun s a => s.askDown a) s
  let s : State := { s with rounds := s.rounds.map fun r =>
    if r.die == die && (s.groups.any fun g => g.handle == r.handle && s.groupDown g die) then { r with failed := true } else r }
  (s.launches.filter fun l => (s.localDies l.d.rect).contains die
      && l.d.rect.any fun c => (s.dieAt c).isNone && usesPort die port (coordOf c)).foldl (fun s l => s.markError l.id) s

/-- The event LINK_RETRAINING. -/
def execLinkRetraining (die port : Nat) (s : State) : Host.Outcome State Fault Refusal :=
  let x := s.die die
  event (die < 4 && port < 8 && kget 0 x.ports port == 0) s
    (s.setDie die { x with ports := kset 0 x.ports port 1, retrain := kset 0 x.retrain port (x.samples + 1) })

/-- Whether 1 ms has passed since a port began to retrain. -/
def Die.lateLink (x : Die) (port : Nat) : Bool := 100 ≤ x.samples + 1 - kget 0 x.retrain port

/-- The flits that waited for a port cross it. -/
def State.drainPort (s : State) (die port : Nat) : State :=
  let mine := fun (e : Outgoing) => e.die == die && usesPort die port e.flit.dst
  (s.egress.filter mine).foldl (fun s e => s.emit e) { s with egress := s.egress.filter fun e => !mine e }

/-- The event LINK_RETRAINED. -/
def execLinkRetrained (die port : Nat) (s : State) : Host.Outcome State Fault Refusal :=
  let x := s.die die
  event (kget 0 x.ports port == 1 && !x.lateLink port) s
    ((s.setDie die { x with ports := kset 0 x.ports port 0, retrain := kdel x.retrain port }).drainPort die port)

/-- The event LINK_DECLARED_DOWN. -/
def execLinkDeclaredDown (die port : Nat) (s : State) : Host.Outcome State Fault Refusal :=
  let x := s.die die
  event (kget 0 x.ports port == 1 && x.lateLink port) s (s.linkDown die port)

/-- The event EGRESS_SPILL_DRAIN (R412): a die's oldest spilled flit whose link is up crosses it. -/
def execEgressSpillDrain (die : Nat) (s : State) : Host.Outcome State Fault Refusal :=
  match s.spill.find? fun e => e.2.die == die && kget 0 (s.die die).ports (portOf die e.2.flit.dst) == 0 with
  | none => .fault .notEnabled
  | some e => event true s ({ s with spill := s.spill.erase e }.emit e.2)

/-! ## Freeze (R423) and the loss of supply (R456) -/

/-- The event FREEZE_PIN. -/
def execFreezePin (s : State) : Host.Outcome State Fault Refusal := event (!s.dark) s s.freeze

/-- The event FREEZE_READOUT: the state is read out as it stands, and nothing changes. -/
def execFreezeReadout (die : Nat) (s : State) : Host.Outcome State Fault Refusal :=
  event (s.frozen && !s.dark && die < 4) s s

/-- The event SUPPLY_LOSS: every clock stops. -/
def execSupplyLoss (s : State) : Host.Outcome State Fault Refusal :=
  event true s { s with dark := true, dies := s.dies.map fun e => (e.1, { e.2 with drawn := 0, filler := 0 }) }

end Sys2Proof.Machine
end

