-- ==== Sys2Proof/Machine/Fabric.lean ====
section
/-! DEFINITION. What arrives over the fabric (R258, R369, R452, R453): requests, responses, collective packets and
management flits. -/

namespace Sys2Proof.Machine

/-! ## Requests at their home -/

/-- The physical address of a request in this module's own form; none where it lies on no die of the module. -/
def State.homePa (s : State) (pa : Nat) : Option Nat :=
  match ownerOf pa with
  | .die _ => some pa
  | .peer i j d => if i == s.posI && j == s.posJ then some (d * 2 ^ 37 + pa % 2 ^ 37) else none
  | _ => none

/-- The virtual function a fabric tenant identifier names here. -/
def State.vfOfTid (s : State) (tid : Nat) : Option Nat := (List.range 16).find? fun v => (s.tenant v).tid == tid

/-- The new value of an atomic at its home: codes 7 and 8 are a compare-and-swap and a signal's decrement (`cmp` its
    ERRF). -/
def homeAtomic (op ty old x cmp : Nat) : Option Nat :=
  if op == 8 then some (signalNext old x (cmp != 0))
  else if op == 7 then (if old == cmp then some x else none)
  else (AccKind.amo op).apply ty old x cmp

/-- The address and length of a request. -/
def opRange : FabOp → Nat × Nat
  | .read _ pa n => (pa, n)
  | .write _ pa bs => (pa, bs.length)
  | .amo _ pa op ty _ => (pa, if op == 8 then 8 else tyWidth ty / 8)
  | .cas _ pa w .. => (pa, w)
  | .list _ segs .. => ((segs.headD (0, 0)).1, 832)
  | _ => (0, 0)

/-- Whether a request writes. -/
def opWrites : FabOp → Bool
  | .write .. | .amo .. | .cas .. => true
  | .list _ _ _ new => !new.isEmpty
  | _ => false

/-- What the lanes of one atomic request leave at its home, in order (R240). -/
def homeFold (op ty old : Nat) (xs : List (Nat × Nat)) : Nat :=
  xs.foldl (fun v x => (homeAtomic op ty v x.2 x.1).getD v) old

/-- Whether a frame of this module is mapped COMMUTE, as its mapping record tells (R179, R371). -/
def State.commuteAt (s : State) (pa : Nat) : Bool :=
  match s.record pa with
  | none => false
  | some (v, _, piece) =>
    match (s.walk v (piece * 65536)).2 with
    | .ok w => (leafOf w.word).cls == clsCommute
    | .error _ => false

/-- A list in pieces at the home of its first line, as one operation (R152): what it was, or the code of the error response. -/
def State.serveList (s : State) (v : Nat) (segs : List (Nat × Nat)) (old new : List Byte) : State × Except Nat (List Byte) :=
  let ps := segs.filterMap fun g => (s.homePa g.1).map fun pa => (pa, g.2)
  if ps.length != segs.length || (ps.any fun p => !(s.admits v p.1 && s.admits v (p.1 + p.2 - 1))
      || (!new.isEmpty && (linesOf p.1 p.2).any fun l => s.liveRecord (l * 64))) then (s, .error codeViolation)
  else
    let m := if old.isEmpty && !new.isEmpty then (s, false)
      else ps.foldl (fun x p => let y := x.1.meetMem v p.1 p.2; (y.1, x.2 || y.2)) (s, false)
    let cur := ps.flatMap fun p => m.1.rdBytes p.1 p.2
    if m.2 then (m.1, .error 0x16)
    else if new.isEmpty || (!old.isEmpty && cur != old) then (m.1, .ok cur)
    else ((ps.foldl (fun (x : State × List Byte) p => (x.1.pocPut p.1 (x.2.take p.2), x.2.drop p.2)) (m.1, new)).1, .ok cur)

/-- A request from outside is made at its home: the bytes it answers, or the code of its error response. Steps 5 and 7
    of R369 are made under this module's tables, for the frames of its first and its last byte; no line it writes holds a live
    record (R338). A COMMUTE page takes no contribution from outside, and a load of it folds (R179, R180). -/
def State.serve (s : State) (vf : Option Nat) (op : FabOp) : State × Except Nat (List Byte) :=
  let (pa0, n) := opRange op
  match s.homePa pa0, vf with
  | some pa, some v =>
    match op with
    | .list _ segs old new => s.serveList v segs old new
    | _ =>
    if !(s.admits v pa && s.admits v (pa + n - 1))
        || (opWrites op && (s.commuteAt pa || (linesOf pa n).any fun l => s.liveRecord (l * 64))) then (s, .error codeViolation)
    else
      let lost := match op with | .write .. => (s, false) | _ => (s.meetParts v pa n).meetMem v pa n
      if lost.2 then (lost.1, .error 0x16)
      else
        let s := lost.1
        let old := s.rdNat pa n
        let put := fun (y : Nat) => (if y == old then s else s.pocPut pa (natBytes n y), Except.ok (natBytes n old))
        match op with
        | .write _ _ bs => (s.pocPut pa bs, .ok [])
        | .amo _ _ op ty xs => put (homeFold op ty old (xs.map fun x => (if op == 8 then ty else 0, x)))
        | .cas _ _ _ ops => put (homeFold 7 0 old ops)
        | _ => let s1 := s.foldRange pa n; (s1, .ok (natBytes n (s1.rdNat pa n)))
  | _, _ => (s, .error codeViolation)

/-- A refused request of outside is logged (R12): with the virtual function's records, or only the hypervisor's where it
    names none. A flit carries the virtual address; a request of the host has its physical one alone (log entry 33). -/
def State.logOutside (s : State) (vf : Option Nat) (die addr code source : Nat) : State :=
  let r : LogRec := ⟨addr, 0, code, 0, 0, 0, die, source⟩
  match vf with
  | some v => (s.logRec v (logBoth code) r).1
  | none => s.logHyper 0 r

/-- The answer to a request, from the die it came to; a refusal is logged. -/
def State.fabBack (s : State) (die : Nat) (f : FabFlit) (r : Except Nat (List Byte)) : State :=
  let back := fun (s : State) (op : FabOp) => s.crossFab die none ⟨1, 0, f.src, f.dst, f.tid, f.va, op, true⟩
  match r with
  | .ok bs => back s (.reply (opTag f.op) bs)
  | .error code => back (s.logOutside (s.vfOfTid f.tid) die f.va code 2) (.error (opTag f.op) code)

/-- A request for a list whose first line stands here and whose second piece another module owns (R152): this home holds the list,
    asks for that piece, or exchanges it where its own piece is what the request says, and writes its own once it is answered. -/
def State.listHome (s : State) (die : Nat) (f : FabFlit) (v n pa1 m pa : Nat) (old new : List Byte) : State :=
  let o := ownerOf pa1
  if !(s.admits v pa && s.admits v (pa + n - 1)) || (!new.isEmpty && (linesOf pa n).any fun l => s.liveRecord (l * 64)) then
    s.fabBack die f (.error codeViolation)
  else if s.ownerDown die o then s.fabBack die f (.error 0x19)
  else
    let x := s.meetMem v pa n
    if x.2 then x.1.fabBack die f (.error 0x16)
    else
      let swap := !old.isEmpty && !new.isEmpty && x.1.rdBytes pa n == old.take n
      let op := if swap then OutOp.cas [(bytesNat (old.drop n), bytesNat (new.drop n))]
        else if old.isEmpty && !new.isEmpty then .write (bytesNat (new.drop n)) else .read
      let y := x.1.askFor (.dev die) v 0 (f.va + n) m ⟨pa1, leafOf 0, o, false⟩ op true
      { y.1 with lists := y.1.lists ++ [⟨die, pa / 64, y.2, swap, f⟩] }

/-- Lists held for other modules whose second piece has been answered (R152). -/
def State.resumeLists (s : State) : State :=
  s.lists.foldl (fun s h =>
    match s.takeAnswer h.tag, h.flit.op with
    | some (s1, .err code), _ => { s1 with lists := s1.lists.erase h }.fabBack h.die h.flit (.error code)
    | some (s1, .val v), .list _ ((pa0, n) :: _) old new =>
      let s2 := { s1 with lists := s1.lists.erase h }
      let pa := (s2.homePa pa0).getD 0
      let rest := natBytes (832 - n) v
      let cur := s2.rdBytes pa n ++ (if old.isEmpty && !new.isEmpty then [] else rest)
      if (old.isEmpty && !new.isEmpty) || (h.swap && rest == old.drop n) then
        (s2.pocPut pa (new.take n)).fabBack h.die h.flit (.ok (if h.swap then old else cur))
      else s2.fabBack h.die h.flit (.ok cur)
    | _, _ => s) s

/-- A request delivered at a die of the module. -/
def State.fabServe (s : State) (die : Nat) (f : FabFlit) : State :=
  match f.op, s.vfOfTid f.tid with
  | .list _ [(pa0, n), (pa1, m)] old new, some v =>
    (match s.homePa pa0, s.homePa pa1 with
     | some pa, none => s.listHome die f v n pa1 m pa old new
     | _, _ => let r := s.serve (some v) f.op; r.1.fabBack die f r.2)
  | op, vf => let r := s.serve vf op; r.1.fabBack die f r.2

/-- Whether a request has to wait for a list that is held here: one that writes a byte of it, or accesses it as a list (R152). -/
def State.fabHeld (s : State) (f : FabFlit) : Bool :=
  let ranges := match f.op with
    | .list _ segs .. => segs
    | op => if opWrites op then [opRange op] else []
  ranges.any fun g => match s.homePa g.1 with
    | none => false
    | some pa =>
      let hit := fun (l : Nat) => pa < min (l * 64 + 832) ((l / 1024 + 1) * 65536) && l * 64 < pa + g.2
      (s.lists.any fun h => hit h.line) || s.ters.any fun t => t.splits.any fun x => x.held.isSome && x.list.any hit

/-- An upset that a packet meets in a fabric queue of a die: the packet fails (R416). -/
def State.queueUpset (s : State) (die : Nat) : Bool := s.flaws.contains (.fabric die)

/-- The upset is met: it is gone, and the outcome has its record (R12, R416). -/
def State.queueLoss (s : State) (die : Nat) (f : FabFlit) (addr code : Nat) : State :=
  let s := s.dropFlaw (.fabric die)
  match s.vfOfTid f.tid with
  | some v => (s.logRec v true ⟨addr, 0, code, 0, 0, 0, die, 3⟩).1
  | none => s.logHyper 0 ⟨addr, 0, code, 0, 0, 0, die, 3⟩

/-- A request that fails in a queue: it is not performed, and its sender receives the error response. -/
def State.fabLost (s : State) (die : Nat) (f : FabFlit) : State :=
  (s.queueLoss die f f.va 0x16).crossFab die none ⟨1, 0, f.src, f.dst, f.tid, f.va, .error (opTag f.op) 0x16, true⟩

/-- A flit of a kind that needs a route, at a die's switch (R453): without one it is dropped; one for this die has its effect
    here, and one for another die goes on. -/
def State.fabIn (s : State) (die : Nat) (f : FabFlit) (here : State → State) : State :=
  if f.dst == s.dieCoord die && s.routed f then here s else s.sendFab die none f

/-- The event FABRIC_REQUEST: a flit whose CHECK fails is retried, one for another die is forwarded. -/
def execFabricRequest (die : Nat) (f : FabFlit) (s : State) : Host.Outcome State Fault Refusal :=
  event (die < 4 && f.type == 0) s
    (if !f.checkOk then s
     else if s.queueUpset die then s.fabLost die f
     else s.fabIn die f fun s =>
       if s.fabHeld f then { s with waitFab := s.waitFab ++ [(die, f)] } else s.fabServe die f)

/-! ## Responses -/

/-- Change one lane's request of an access as it stands now. -/
def State.setReq (s : State) (a : Access) (lane : Nat) (f : Req → Req) : State :=
  let b := s.accNow a
  s.setAccess { b with reqs := b.reqs.map fun x => if x.lane = lane then f x else x }

/-- The error response to a lane, where its access is still open. -/
def State.laneError (s : State) (a : Access) (r : Req) (code : Nat) : State :=
  if (s.access? a.ter a.id).isSome then s.accError (s.accNow a) r code else s

/-- One lane of an answer of bytes: what a load reads, with the terrace's own staged bytes (R178); the old value of an atomic,
    the lanes at one address in ascending order (R240), performed here where the page is STAGED. `v` is the answer from `lo`
    on, and `last` the value an earlier lane at the same address has left. -/
def State.laneAnswer (s : State) (a : Access) (lo v : Nat) (last : Option Nat) (r : Req) (ph : Phys) : State × Option Nat :=
  let got := v / 2 ^ (8 * (r.loc - lo)) % 2 ^ (8 * r.len)
  let bind := fun (s : State) (x : Nat) => s.setReq a r.lane fun y => { y with bound := some x }
  let ty := modeType a.mode
  if a.kind.fetchesFirst ph.leaf then
    let old := overBytes (s.ownBytes a.ter r.loc r.len) r.len got
    match a.kind.apply ty old r.data r.cmp with
    | none => (bind s old, none)
    | some y =>
      match s.stageAs (s.accTer a) ty r.ea ph (natBytes r.len y) with
      | (s1, none) => (bind s1 old, none)
      | (s1, some code) => ((if code == 0x16 then s1 else s).laneError a r code, none)
  else
    match a.kind with
    | .amo _ | .cas | .red _ =>
      let old := last.getD got
      (bind s old, some ((a.kind.apply ty old r.data r.cmp).getD old))
    | .store .. | .stf | .stl _ | .sig => (bind s 0, none)
    | _ => (bind s (overBytes r.own r.len got), none)

/-- The range of bytes that a request of an access asks for, as its lanes tell: the whole line for one that the near cache takes
    (R239). -/
def accRange (k : AccKind) (rs : List Req) : Option (Nat × Nat × Bool) :=
  (rs.head?).bind fun r0 => r0.page.map fun ph =>
    let near := k.fetchesFirst ph.leaf && ph.leaf.place == 1
    let lo := if near then r0.loc / 64 * 64 else rs.foldl (fun m x => min m x.loc) r0.loc
    let hi := if near then lo + 64 else rs.foldl (fun m x => max m (x.loc + x.len)) (r0.loc + r0.len)
    (lo, hi - lo, near)

/-- An answer to the lanes of an access that share a tag. A line for the near cache is entered there, and the lanes then are
    its (R239). -/
def State.accAnswer (s : State) (a : Access) (rs : List Req) (got : Nat → Nat → Answer) : State :=
  match rs.head?, accRange a.kind rs with
  | some r0, some (lo, n, near) =>
    (match r0.page with
    | none => s
    | some ph =>
      match got lo n with
      | .err code => rs.foldl (fun s r => s.laneError a r code) s
      | .val v =>
        let s := s.borneOut a.vf (dieOf a.core) r0.ea
        match near, s.part? a.core a.vf with
        | true, some p =>
          rs.foldl (fun s r => s.setReq a r.lane fun x => { x with tag := 0 })
            (s.nearIn a.core p.pidx r0.ea ph (s.tenant a.vf).asid (natBytes 64 v))
        | _, _ =>
          (rs.foldl (fun (x : State × Option Nat) r => x.1.laneAnswer a lo v x.2 r (r.page.getD ph)) (s, none)).1)
  | _, _ => s

/-- An answer to a request that belongs to no access: an agent takes it, or it is an acknowledgement for nobody; a refusal that
    nobody takes is logged and marks the launch (R12, R193). -/
def State.askAnswer (s : State) (q : Ask) (got : Answer) : State :=
  let s := { s with asks := s.asks.filter fun x => x.tag != q.tag }
  let s := match got with | .val _ => s.borneOut q.vf q.die q.va | .err _ => s
  if q.waits then ({ s with answers := s.answers ++ [(q.tag, got)] }.resumeIntakes).resumeLists
  else
    match got with
    | .val _ => s
    | .err code => ((s.logRec q.vf (logBoth code) ⟨q.va, 0, code, 0, 0, 0, q.die, 2⟩).1).markError q.launch

/-- Whether a lane's request is one that a tag names, of the host or of another module. -/
def Req.tagged (r : Req) (hit : Nat → Bool) (host : Bool) : Bool :=
  hit r.tag && r.outside && (match r.page with | some p => (p.owner == .host) == host | none => false)

/-- The access that a tag names, with the lanes of its request. -/
def State.taggedAcc (s : State) (hit : Nat → Bool) (host : Bool) : Option (Access × List Req) :=
  (s.accs.find? fun a => a.reqs.any fun r => r.tagged hit host).map fun a =>
    let tag := ((a.reqs.find? fun r => r.tagged hit host).map (·.tag)).getD 0
    (a, a.reqs.filter fun r => r.tagged hit host && r.tag == tag)

/-- The request of another agent that a tag names. -/
def State.taggedAsk (s : State) (hit : Nat → Bool) (host : Bool) : Option Ask :=
  s.asks.find? fun q => hit q.tag && (q.dest == 65536) == host

/-- The range of bytes that the open request of a tag asks for. -/
def State.taggedRange (s : State) (hit : Nat → Bool) (host : Bool) : Option (Nat × Nat) :=
  match s.taggedAcc hit host with
  | some (a, rs) => (accRange a.kind rs).map fun x => (x.1, x.2.1)
  | none => (s.taggedAsk hit host).map fun q => (q.pa, q.len)

/-- An answer from outside reaches the open requests that a tag names, of an access or of another agent (R192, R193).
    `val` gives the value from the place and length of the range asked for. With no such request nothing happens. -/
def State.answered (s : State) (hit : Nat → Bool) (host : Bool) (val : Nat → Nat → Answer) : State :=
  match s.taggedAcc hit host with
  | some (a, rs) => s.accAnswer a rs val
  | none =>
    match s.taggedAsk hit host with
    | some q => s.askAnswer q (val q.pa q.len)
    | none => s

/-- A response delivered at a die of the module. -/
def State.fabAnswer (s : State) (die : Nat) (f : FabFlit) : State :=
  match f.op with
  | .reply tag bs => s.answered (· == tag) false fun _ _ => .val (bytesNat bs)
  | .error tag code => s.answered (· == tag) false fun _ _ => .err code
  | .tileRefused h k =>
    { s with rounds := s.rounds.map fun r =>
        if r.handle = h ∧ r.index = k ∧ r.die = die then { r with failed := true } else r }
  | _ => s

/-- A response that fails in a queue: its destination receives an error response (R416). -/
def State.fabRespLost (s : State) (die : Nat) (f : FabFlit) : State :=
  if f.dst == s.dieCoord die then (s.dropFlaw (.fabric die)).answered (· == opTag f.op) false fun _ _ => .err 0x16
  else (s.queueLoss die f f.va 0x42).sendFab die none { f with op := .error (opTag f.op) 0x16 }

/-- The event FABRIC_RESPONSE. -/
def execFabricResponse (die : Nat) (f : FabFlit) (s : State) : Host.Outcome State Fault Refusal :=
  event (die < 4 && f.type == 1) s
    (if !f.checkOk then s
     else if s.queueUpset die then s.fabRespLost die f
     else s.fabIn die f fun s => s.fabAnswer die f)

/-! ## Collective packets (R258) -/

/-- Whether a packet's sender is a rank of its group and its tenant the group's; the answer is the rank. -/
def State.packetRank (s : State) (f : FabFlit) (handle : Nat) : Option Nat :=
  (s.groups.find? fun g => g.handle == handle && (s.tenant g.vf).tid == f.tid).bind fun g =>
    (List.range g.ranks.length).find? fun i => g.ranks.getD i 65536 == f.src

/-- A packet that fails the check is dropped: logged in the tenant's violation log and the hypervisor's, with the handle
    in place of an address, and answered with an error response. -/
def State.packetDrop (s : State) (die : Nat) (f : FabFlit) (handle : Nat) : State :=
  let s := match s.vfOfTid f.tid with
    | some v => s.dropPacket v die handle
    | none => s.logHyper 0 ⟨handle, 0, 0x41, 0, 0, 0, die, 3⟩
  match refusalOf f 0x41 with
  | some b => s.crossFab die none b
  | none => s

/-- A packet that fails in a queue of a die (R416): it has its record, and the round it was for ends there with an error arrival,
    begun or not; the round of a packet on its way to another module fails at that module, as one whose tile disagrees. -/
def State.tileLost (s : State) (die : Nat) (f : FabFlit) (handle k rank kind red ty : Nat) : State :=
  let s := s.queueLoss die f handle 0x42
  if f.dst != s.dieCoord die then s.sendFab die none { f with op := .tile handle k rank kind red ty [] }
  else { s with
    rounds := s.rounds.map fun r =>
      if r.handle = handle ∧ r.index = k ∧ r.die = die then { r with failed := true } else r
    tiles := s.tiles ++ [⟨handle, k, lostTile die, kind, red, ty, []⟩] }

/-- The event COLLECTIVE_PACKET. -/
def execCollectivePacket (die : Nat) (f : FabFlit) (s : State) : Host.Outcome State Fault Refusal :=
  match f.op with
  | .tile handle k sender kind red ty bs =>
    event (die < 4 && f.type == 2) s
      (if !f.checkOk then s
       else if s.queueUpset die then s.tileLost die f handle k sender kind red ty
       else match s.packetRank f handle with
        | none => s.packetDrop die f handle
        | some rank =>
          s.fabIn die f fun s =>
            if s.tiles.any fun t => t.handle == handle && t.index == k && t.rank == rank then s
            else { s with tiles := s.tiles ++ [⟨handle, k, rank, kind, red, ty, bs⟩] })
  | _ => .fault .notEnabled

/-! ## Management flits (R453) -/

/-- Of two width requests the one of the higher rank key (R273). -/
def higher (a b : Option (Nat × Nat × Nat × Nat)) : Option (Nat × Nat × Nat × Nat) :=
  let key := fun (x : Nat × Nat × Nat × Nat) => (⟨x.1, x.2.1, x.2.2.1, 0, [], []⟩ : Writer)
  match a, b with
  | some x, some y => some (if (key x).lt (key y) then y else x)
  | some x, none | none, some x => some x
  | none, none => none

/-- Whether a management flit may be taken now: a second arrival from a module waits for the crossing to complete. -/
def State.mgmtDue (s : State) (f : FabFlit) : Bool :=
  match f.op with
  | .arrive k .. => !(s.dom k).arrived.contains (moduleOf f.src)
  | _ => true

/-- Whether a domain is one of a launch, or a gang, of this module. -/
def State.leads (s : State) (k : DomKey) : Bool :=
  match k with
  | .launch l => (s.launch? l).isSome
  | .gang g => (s.gang? g).isSome
  | _ => false

/-- A CGBIND of another module (R257): it is made here, and answered. -/
def State.bindFor (s : State) (f : FabFlit) (tag launch key : Nat) (ranks : List Nat) : State :=
  match s.launch? launch with
  | none => s
  | some l =>
    let x := s.bindGroup l f.src (some (moduleOf f.src)) key ranks
    x.1.sendMgmt l.vf f.src (.bound tag launch key x.2 ranks)

/-- What a management flit carries to a die. -/
def State.mgmtFlit (s : State) (f : FabFlit) : State :=
  match f.op with
  | .arrive k w parts =>
    if !s.leads k then s
    else
      let d := s.dom k
      s.setDom k { d with arrived := d.arrived ++ [moduleOf f.src], asked := higher d.asked w,
                          parts := d.parts ++ parts.map (s.entryOfPart k) }
  | .early k parts asks =>
    if !s.leads k then s
    else
      let d := s.dom k
      let m := moduleOf f.src
      let s1 := s.setDom k { d with called := d.called.filter (· != m), given := d.given ++ parts.map (s.entryOfPart k) }
      if asks then s1.callEarly k (some m) else s1
  | .bind tag launch key ranks => s.bindFor f tag launch key ranks
  | .tasksDone l n => { s with launches := s.launches.map fun x => if x.id = l then { x with remote := x.remote - n } else x }
  | .route (x, y, w, h) load =>
    let e := (f.tid, x, y, w, h)
    { s with routes := if load then s.routes ++ [e] else s.routes.erase e }
  | _ => s

/-- The event FABRIC_MANAGEMENT_FLIT: switches accept it only from a management path. -/
def execFabricManagementFlit (die : Nat) (f : FabFlit) (fromMgmt : Bool) (s : State) : Host.Outcome State Fault Refusal :=
  event (die < 4 && f.type == 4) s
    (if !f.checkOk || !fromMgmt then s
     else if s.queueUpset die then s.queueLoss die f 0 0x42
     else if f.dst != s.dieCoord die then s.crossFab die none f
     else if s.mgmtDue f then s.mgmtFlit f else { s with waitFab := s.waitFab ++ [(die, f)] })

end Sys2Proof.Machine
end

