-- ==== Sys2Proof/Machine/HostLink.lean ====
section
/-! DEFINITION. The host link (R448) and the launch queues (R449, R450), and the starts and completions of launches
(R292, R316). -/

namespace Sys2Proof.Machine

/-! ## Flits of the host link (R448) -/

/-- A flit's header, and its payload lines. -/
structure HostFlit where
  type : Nat
  lines : Nat
  tag : Nat
  vf : Nat
  addr : Nat
  payload : List Byte
deriving DecidableEq, Repr

/-- A flit of 256 bytes; none where its TYPE is reserved, LINES is above 3, or a reserved byte is not 0. Bits [7:4] of
    byte 4 are a reserved field and are ignored (R7). -/
def hostFlitOf (bs : List Byte) : Option HostFlit :=
  let b := byteAt bs
  if bs.length != 256 || 6 < b 0 || 3 < b 1 || [5, 6, 7].any (fun i => b i != 0) || (List.range 48).any (fun i => b (16 + i) != 0)
  then none
  else some ⟨b 0, b 1, fieldOf bs 2 2, b 4 % 16, fieldOf bs 8 8, (bs.drop 64).take (64 * b 1)⟩

/-- A flit arrives: a malformed one is discarded and recorded in the hypervisor's log with source 4. The spec gives that
    record no code. -/
def State.hostFlit (s : State) (die : Nat) (bs : List Byte) (type : Nat) (f : State → HostFlit → State) :
    Host.Outcome State Fault Refusal :=
  match hostFlitOf bs with
  | none =>
    event (die < 4) s ({ s with tick := s.tick + 1 }.logHyper 0 ⟨0, 0, (Config.freeByte s.tick).toNat, 0, 0, 0, die, 4⟩)
  | some h => event (die < 4 && h.type == type) s (f s h)

/-- A completion or an error response goes to the host die. -/
def State.hostReply (s : State) (die : Nat) (h : HostFlit) (r : Except Nat (List Byte)) : State :=
  match r with
  | .ok bs =>
    let whole := bs.length % 64 == 0
    let line := chunkBytes h.addr bs (h.addr / 64 * 64) 1
    { s with hostOut := s.hostOut ++ [⟨die, 2, (bs.length + 63) / 64, h.tag, h.vf, h.addr, if whole then bs else line,
        if whole then none else some ⟨h.addr, bs.length, 0, 0⟩⟩] }
  | .error code => { s with hostOut := s.hostOut ++ [⟨die, 5, 0, h.tag, h.vf, h.addr, [], some ⟨0, 0, code, 0⟩⟩] }

/-- The 256 bytes of a flit to the host die (R448). -/
def HostMsg.flit (m : HostMsg) : List Byte :=
  [BitVec.ofNat 8 m.type, BitVec.ofNat 8 m.lines] ++ natBytes 2 m.tag ++ natBytes 4 m.vf ++ natBytes 8 m.addr
    ++ List.replicate 48 0 ++ m.payload ++ List.replicate (192 - m.payload.length) 0

/-- A host request at its home, checked as an access of the named virtual function. -/
def State.hostServe (s : State) (die : Nat) (h : HostFlit) (op : FabOp) : State :=
  match s.serve (some h.vf) op with
  | (s1, .ok bs) => s1.hostReply die h (.ok bs)
  | (s1, .error code) => (s1.logOutside (some h.vf) die h.addr code 2).hostReply die h (.error code)

/-- The physical address of a flit's first line. -/
def HostFlit.base (h : HostFlit) : Nat := h.addr / 64 * 64

/-- The event HOST_READ: a read of LINES lines, of one where it names none. -/
def execHostRead (die : Nat) (flit : List Byte) (s : State) : Host.Outcome State Fault Refusal :=
  s.hostFlit die flit 0 fun s h => s.hostServe die h (.read h.tag h.base (64 * max 1 h.lines))

/-- A host write of whole lines, one line at a time. -/
def State.hostWrite (s : State) (die : Nat) (h : HostFlit) : State :=
  let pieces := (List.range h.lines).map fun i => FabOp.write h.tag (h.base + 64 * i) ((h.payload.drop (64 * i)).take 64)
  let r := pieces.foldl (fun (x : State × Except Nat (List Byte)) op => match x with
    | (s, .ok _) => s.serve (some h.vf) op
    | e => e) (s, .ok [])
  match r with
  | (s1, .ok _) => s1.hostReply die h (.ok [])
  | (s1, .error code) => (s1.logOutside (some h.vf) die h.addr code 2).hostReply die h (.error code)

/-- The event HOST_WRITE. -/
def execHostWrite (die : Nat) (flit : List Byte) (s : State) : Host.Outcome State Fault Refusal :=
  s.hostFlit die flit 1 fun s h => s.hostWrite die h

/-- The event HOST_ATOMIC: its payload has no layout in the spec, so what it asks for is a free value. -/
def execHostAtomic (die : Nat) (flit : List Byte) (s : State) : Host.Outcome State Fault Refusal :=
  s.hostFlit die flit 3 fun s h =>
    let (op, ty, x, cmp) := Config.hostAtomic h.payload
    s.hostServe die h (if op == 7 then .cas h.tag h.addr (tyWidth ty / 8) [(cmp, x)] else .amo h.tag h.addr op ty [x])

/-- A completion of the host die: each answers one flit of its request, in their order, with the lines that flit names; with the
    last the request is answered. A byte that its completions do not bring is a free value. -/
def State.hostCompletion (s : State) (h : HostFlit) : State :=
  let hit := fun (t : Nat) => t % 65536 == h.tag
  match s.taggedRange hit true with
  | none => s
  | some (pa, n) =>
    let x := kget (0, []) s.hostGot h.tag
    let got := x.2 ++ h.payload
    if x.1 + 1 < (hostChunks pa n).length then { s with hostGot := kset (0, []) s.hostGot h.tag (x.1 + 1, got) }
    else
      let all := got ++ freeBytes s.tick (pa % 64 + n - got.length)
      { s with hostGot := kset (0, []) s.hostGot h.tag (0, []), tick := s.tick + 1 }.answered hit true fun pa n =>
        .val (bytesNat ((all.drop (pa % 64)).take n))

/-- The event HOST_READ_COMPLETION: the answer of a request's bytes stands at its place in its lines. -/
def execHostReadCompletion (die : Nat) (flit : List Byte) (s : State) : Host.Outcome State Fault Refusal :=
  s.hostFlit die flit 2 fun s h => s.hostCompletion h

/-- The event HOST_ERROR_RESPONSE: the spec does not say which cause code it stands for. -/
def execHostErrorResponse (die : Nat) (flit : List Byte) (s : State) : Host.Outcome State Fault Refusal :=
  s.hostFlit die flit 5 fun s h =>
    { s with tick := s.tick + 1 }.answered (fun t => t % 65536 == h.tag) true fun _ _ => .err (Config.freeByte s.tick).toNat

/-- The event HOST_INTERRUPT: the flit crosses the link, and no rule gives it an effect on the device. -/
def execHostInterrupt (die : Nat) (flit : List Byte) (s : State) : Host.Outcome State Fault Refusal :=
  s.hostFlit die flit 6 fun s _ => s

/-! ## Launch queues (R449, R450) -/

/-- A doorbell of value T on a queue record. -/
def doorbellOk (cap head tail t : Nat) : Bool :=
  let d := (t + 2 ^ 32 - head) % 2 ^ 32
  d ≤ cap && (tail + 2 ^ 32 - head) % 2 ^ 32 ≤ d

/-- A doorbell: TAIL moves, or the refusal is logged. A function without a queue, or whose queue's record cannot be read,
    refuses every doorbell; the lost record is logged too, under its physical address, since the queue has no other (R417). -/
def State.doorbell (s : State) (die vf t : Nat) : State :=
  let refuse := fun (s : State) => (s.logRec vf false ⟨0, 0, 0x49, 0, 0, 0, die, 4⟩).1
  match (s.tenant vf).queue with
  | none => refuse s
  | some q =>
    let m := s.meetMem vf q 64
    let s := m.1
    if m.2 then refuse (s.logRec vf true ⟨q, 0, 0x16, 0, 0, 0, die, 4⟩).1
    else if doorbellOk (s.rdNat q 4) (s.rdNat (q + 4) 4) (s.rdNat (q + 8) 4) t then s.pocWriteNat (q + 8) 4 t
    else refuse s

/-- The event DOORBELL. -/
def execDoorbell (die : Nat) (flit : List Byte) (s : State) : Host.Outcome State Fault Refusal :=
  s.hostFlit die flit 4 fun s h => s.doorbell die h.vf (fieldOf h.payload 0 4)

/-- Whether a queue whose record can be read (R417) has an entry to consume, whose descriptor, where it is being read outside the module, has come. -/
def State.queueDue (s : State) (vf : Nat) : Bool :=
  (match (s.tenant vf).queue with
   | some q => !s.unsound q 64 && s.rdNat (q + 4) 4 != s.rdNat (q + 8) 4
   | none => false)
    && s.intakes.all fun i => i.vf != vf || !i.queued || s.allGot i.gets

/-- Consume one entry: acceptance to its end, and then HEAD moves on. A lost entry is logged and starts nothing. -/
def State.queueEntry (s : State) (vf : Nat) : State :=
  let q := (s.tenant vf).queue.getD 0
  let head := s.rdNat (q + 4) 4
  let at_ := q + 64 + 8 * (head % max 1 (s.rdNat q 4))
  let m := s.meetMem vf at_ 8
  let d := m.1.rdNat at_ 8
  let next := fun (s : State) => s.pocWriteNat (q + 4) 4 ((head + 1) % 2 ^ 32)
  if m.2 then next (m.1.logRec vf true ⟨at_, 0, 0x16, 0, 0, 0, 0, 4⟩).1
  else if d == 0 then next m.1
  else
    match m.1.accept vf none d none true with
    | (s1, some _) => next s1
    | (s1, none) => s1

/-- The event LAUNCH_QUEUE_ENTRY. -/
def execLaunchQueueEntry (vf : Nat) (s : State) : Host.Outcome State Fault Refusal :=
  event (vf < 16 && s.queueDue vf) s (s.queueEntry vf)

/-! ## Starts and completions -/

/-- The event TASK_START (R292): a stopped launch starts none (R410). -/
def execTaskStart (launch leaf : Nat) (s : State) : Host.Outcome State Fault Refusal :=
  match (s.launch? launch).bind fun l => if l.halt == 0 then s.taskStart l leaf else none with
  | none => .fault .notEnabled
  | some s1 => event true s s1

/-- The event LAUNCH_COMPLETION (R316). -/
def execLaunchCompletion (launch : Nat) (s : State) : Host.Outcome State Fault Refusal :=
  match s.launch? launch with
  | none => .fault .notEnabled
  | some l => event (s.launchOver l) s (s.complete l)

end Sys2Proof.Machine
end

