-- ==== Sys2Proof/Machine/Power.lean ====
section
/-! DEFINITION. STAGGER (R454) and power (R455, R456). Power stands in hundredths of a watt: a limit of n W per ms is n of
them in the 10 µs of a sample. -/

namespace Sys2Proof.Machine

/-- The time of a die in µs: its samples are 10 µs apart. -/
def Die.us (x : Die) : Nat := 10 * x.samples

/-- The end of a STAGGER's hold (R454), in µs. -/
def staggerEnd (s : State) (die stepUs nslot : Nat) : Nat :=
  let c := s.dieCoord die
  (s.die die).us + min (((c % 256 + 32 * (c / 256)) % nslot) * stepUs) 100000

/-- A die takes a STAGGER (R454): its hold, at the level it draws now. -/
def State.stagger1 (s : State) (die stepUs nslot : Nat) : State :=
  let x := s.die die
  s.setDie die { x with held := some (x.drawn, staggerEnd s die stepUs nslot) }

/-- The coordinates of a rectangle. -/
def rectCoords (r : Nat × Nat × Nat × Nat) : List Nat :=
  (List.range r.2.2.2).flatMap fun j => (List.range r.2.2.1).map fun i => r.1 + i + 256 * (r.2.1 + j)

/-- A STAGGER at a die's switch (R454): one that the die's own management path sends goes to every die of its rectangle, and
    one from another die is taken by the die that it is addressed to. -/
def State.staggerFlit (s : State) (die : Nat) (f : FabFlit) (rect : Nat × Nat × Nat × Nat) (stepUs nslot : Nat) : State :=
  if f.src == s.dieCoord die then
    (rectCoords rect).foldl (fun s c => match s.dieOfCoord c with
      | some d => s.stagger1 d stepUs nslot
      | none => s.crossFab die none { f with dst := c }) s
  else if f.dst == s.dieCoord die then s.stagger1 die stepUs nslot
  else s.crossFab die none f

/-- The event STAGGER: a flit of TYPE 3, which switches accept only from a management path (R453). -/
def execStagger (die : Nat) (f : FabFlit) (fromMgmt : Bool) (s : State) : Host.Outcome State Fault Refusal :=
  match f.op with
  | .stagger rect stepUs nslot =>
    event (die < 4 && f.type == 3 && 1 ≤ stepUs && stepUs ≤ 1000 && 1 ≤ nslot && nslot ≤ 1024) s
      (if !f.checkOk || !fromMgmt then s
       else if s.queueUpset die then s.queueLoss die f 0 0x42
       else s.staggerFlit die f rect stepUs nslot)
  | _ => .fault .notEnabled

/-- Whether a die's hold is over. -/
def Die.holdOver (x : Die) : Bool := match x.held with | some h => h.2 ≤ x.us | none => false

/-- The event STAGGER_HOLD_END. -/
def execStaggerHoldEnd (die : Nat) (s : State) : Host.Outcome State Fault Refusal :=
  let x := s.die die
  event (die < 4 && x.holdOver) s (s.setDie die { x with held := none })

/-- The applied limits of a power control word (R455). -/
def powRise (w : Word) : Nat := min (max (w.toNat / 65536) 1) 560
def powFall (w : Word) : Nat := min (max (w.toNat % 65536) 1) 50

/-- A sample of a die at a demand (R455, R456): work takes the demand up to the largest power allowed, filler draws what
    the fall limit asks for beyond it. -/
def Die.sample (x : Die) (demand : Nat) : Die :=
  let top := x.drawn + powRise x.power
  let top := match x.held with | some h => min top (max h.1 x.drawn) | none => top
  let work := min demand top
  let filler := min (x.drawn - powFall x.power - work) 56000
  { x with samples := x.samples + 1, drawn := work + filler, filler := filler,
           energy := (x.energy + work + filler) % 10000 }

/-- The millijoules that a sample completes: a hundredth of a watt over 10 µs is a ten-thousandth of one. -/
def Die.sampleMj (x : Die) (demand : Nat) : Nat := (x.energy + (x.sample demand).drawn) / 10000

/-- The event POWER_SAMPLE: a demand in hundredths of a watt. Before the hold of a STAGGER that is over and a link that has
    retrained for 1 ms, their own events come. -/
def execPowerSample (die demand : Nat) (s : State) : Host.Outcome State Fault Refusal :=
  let x := s.die die
  event (die < 4 && !x.holdOver && !(x.retrain.any fun e => kget 0 x.ports e.1 == 1 && x.lateLink e.1)) s
    ((s.setDie die (x.sample demand)).countDie die evEnergy (x.sampleMj demand))

end Sys2Proof.Machine
end

