-- ==== Sys2Proof/Machine/Mgmt.lean ====
section
/-! DEFINITION. The management path (R451): commands of the hypervisor that arrive over the sideband. Each is applied at
one instant, and its reply carries a status: 0 applied, 1 busy, 3 malformed. Commands that name no die are answered at
die 0. -/

namespace Sys2Proof.Machine

/-- A command's reply. -/
def State.replyWith (s : State) (die status : Nat) (bytes : List Byte) (units : List (Nat × Option Nat)) : State :=
  { s with replies := s.replies ++ [⟨die, status, bytes, units⟩] }

/-- A command with a status and no data. -/
def mgmt (die : Nat) (r : State × Nat) (s : State) : Host.Outcome State Fault Refusal :=
  event true s (r.1.replyWith die r.2 [] [])

/-- A command that is applied where its operands are well formed. -/
def mgmtIf (ok : Bool) (die : Nat) (s s' : State) : Host.Outcome State Fault Refusal :=
  mgmt die (if ok then (s', 0) else (s, 3)) s

/-- PART (R375 to R377). -/
def execMgmtPart (a b : Word) (s : State) : Host.Outcome State Fault Refusal :=
  mgmt 0 (s.partCmd a.toNat b.toNat) s

/-- QUANT (R382). -/
def execQuant (core pidx q : Nat) (s : State) : Host.Outcome State Fault Refusal :=
  mgmtIf (q ≤ 2 ^ 24 && (s.partAt? core pidx).isSome) (dieOf core) s (s.updPart core pidx fun p => { p with quant := q })

/-- FRAMES (R368). -/
def execFrames (die frame colour : Nat) (s : State) : Host.Outcome State Fault Refusal :=
  let x := s.die die
  mgmtIf (die < 4 && frame < 2097152 && colour < 256) die s (s.setDie die { x with frames := kset 0 x.frames frame colour })

/-- WDOG (R419). -/
def execWdog (us : Nat) (s : State) : Host.Outcome State Fault Refusal :=
  mgmtIf (1 ≤ us && us ≤ 1000) 0 s { s with wdogUs := us }

/-- LINK (R414): a down link returns as a new one; a link of another state that is to be in service stays as it is. -/
def execLink (die port : Nat) (up : Bool) (s : State) : Host.Outcome State Fault Refusal :=
  let x := s.die die
  let st := kget 0 x.ports port
  mgmtIf (die < 4 && port < 8) die s
    (if up then (if st == 2 then s.setDie die { x with ports := kset 0 x.ports port 0 } else s)
     else if st == 2 then s else s.linkDown die port)

/-- ABORT (R409). -/
def execAbort (vf : Nat) (launch : Option Nat) (s : State) : Host.Outcome State Fault Refusal :=
  mgmtIf (vf < 16) 0 s (s.abortParked vf launch)

/-- STOP (R410): 0 stops a launch, 1 ends it, 2 lets a stopped one go on. -/
def execStop (launch how : Nat) (s : State) : Host.Outcome State Fault Refusal :=
  match s.launch? launch with
  | none => mgmt 0 (s, 3) s
  | some l => mgmtIf (how ≤ 2) 0 s (s.haltLaunch l how)

/-- LOST (R417): the entry of a frame is cleared. -/
def execLost (die frame : Nat) (s : State) : Host.Outcome State Fault Refusal :=
  let x := s.die die
  mgmtIf (die < 4 && frame < 2097152) die s
    (s.setDie die { x with lost := x.lost.filter fun e => e.1 / 1024 != die * 2097152 + frame })

/-- QUEUE (R449): a record's physical address, in module memory and 64-byte aligned. -/
def execQueue (vf addr : Nat) (s : State) : Host.Outcome State Fault Refusal :=
  mgmtIf (vf < 16 && addr % 64 == 0 && (match ownerOf addr with | .die _ => addr < 2 ^ 39 | _ => false)) 0 s
    (s.setTenant vf { s.tenant vf with queue := some addr })

/-- POWER (R455). -/
def execPower (die : Nat) (w : Word) (s : State) : Host.Outcome State Fault Refusal :=
  mgmtIf (die < 4) die s (s.setDie die { s.die die with power := w })

/-- The hypervisor's log as LOGS reads it, in the format of R420: the header's HEAD, CAP and DROP, and CAP places of 32 bytes, of
    which place n mod CAP holds record n, a later one over an earlier. Nothing keeps a record out of it, so DROP is 0. How many
    places it has the spec does not say: free (log entry 50). -/
def State.hyperLog (s : State) : List Byte :=
  let cap := Config.hyperCap % (2 ^ 32 - 1) + 1
  let head := s.hlog.length
  natBytes 8 head ++ natBytes 4 cap ++ natBytes 4 0 ++ List.replicate 48 0
    ++ (List.range (min cap head)).flatMap (fun k => s.hlog.getD (k + (head - 1 - k) / cap * cap) (List.replicate 32 0))
    ++ List.replicate (32 * (cap - head)) 0

/-- The retirement log: each unit retired, with the slice or controller that serves for one of those kinds (R172, R418). -/
def State.retireLog (s : State) : List (Nat × Option Nat) :=
  s.retired.map fun u =>
    let d := unitDie u
    let n := u % 2 ^ 20 % 96
    (u, match u / 2 ^ 20 with
      | 1 => some (unitSlice d (substOf (s.die d).substSlice n))
      | 2 => some (unitCtl d (substOf (s.die d).substCtl n))
      | _ => none)

/-- LOGS: the hypervisor's log (R420) and the retirement log (R418). -/
def execLogs (die : Nat) (s : State) : Host.Outcome State Fault Refusal :=
  event true s (if die < 4 then s.replyWith die 0 s.hyperLog s.retireLog else s.replyWith die 3 [] [])

/-- FREEZE (R423). -/
def execFreeze (s : State) : Host.Outcome State Fault Refusal := mgmt 0 (s.freeze, 0) s

/-- The label of the identity key (R459): the ASCII bytes of "ND-M4 identity". -/
def identityLabel : List Byte :=
  [0x4E#8, 0x44#8, 0x2D#8, 0x4D#8, 0x34#8, 0x20#8, 0x69#8, 0x64#8, 0x65#8, 0x6E#8, 0x74#8, 0x69#8, 0x74#8, 0x79#8]

/-- A die's identity key (R459). -/
def identityKey (die : Nat) : List Byte := (sha512 (identityLabel ++ Config.pufResponse die)).take 32

/-- What QUOTE returns: the attestation log, and its signature with the caller's nonce. -/
def State.quoteBytes (s : State) (die : Nat) (nonce : List Byte) : List Byte :=
  let log := (s.die die).attest.flatten
  log ++ edSign [] (identityKey die) (nonce ++ log)

/-- QUOTE (R459). -/
def execQuote (die : Nat) (nonce : List Byte) (s : State) : Host.Outcome State Fault Refusal :=
  event true s
    (if die < 4 && nonce.length == 32 then s.replyWith die 0 (s.quoteBytes die nonce) [] else s.replyWith die 3 [] [])

/-- SYSREG (R379): a register that supervisor code may write and that holds one value for the module. -/
def execSysreg (vf reg : Nat) (value : DWord) (s : State) : Host.Outcome State Fault Refusal :=
  mgmtIf (vf < 16 && sysWritable reg) 0 s (s.setTenant vf ((s.tenant vf).write reg value))

end Sys2Proof.Machine
end

