-- ==== Sys2Proof/Machine/Boot.lean ====
section
/-! DEFINITION. Reset and boot (R457 to R460). -/

namespace Sys2Proof.Machine

/-! ## Boot images -/

/-- The reserved bytes and the magic number of an image, and its length. -/
def imageForm (bs : List Byte) : Bool :=
  112 ≤ bs.length && fieldOf bs 0 4 == 0x4E444D34 && byteAt bs 6 == 0 && byteAt bs 7 == 0
    && fieldOf bs 12 4 == bs.length - 112

/-- Whether PUBKEY's digest is the ROM's under KEYIX. -/
def imageKey (die : Nat) (bs : List Byte) : Bool :=
  byteAt bs 5 < 4 && sha512 ((bs.drop 16).take 32) == Config.romDigest die (byteAt bs 5)

/-- Whether SIG signs bytes 0 to 47 and BODY under PUBKEY. -/
def imageSig (bs : List Byte) : Bool :=
  edPhVerify ((bs.drop 16).take 32) (bs.take 48 ++ bs.drop 112) ((bs.drop 48).take 64)

/-- Whether a number names a unit of the device. -/
def unitExists (u : Nat) : Bool :=
  let i := u % 2 ^ 20
  match u / 2 ^ 20 with
  | 0 => i < 1024 | 1 | 2 => i < 384 | 3 => i < 12288 | 4 => i < 32 | 5 => i < 128 | 6 => i < 4 | 7 => i < 128 | _ => false

/-- Whether a configuration record is well formed (R460). -/
def recordOk (r : ConfigRecord) : Bool :=
  r.posI < 16 && r.posJ < 16
    && (r.harvest ++ r.retired ++ r.subst.flatMap fun e => [e.1, e.2]).all unitExists
    && r.subst.all (fun e => !r.harvest.contains e.2)
    && r.spill.length == 4
    && (List.range 4).all fun d => ownerOf (r.spill.getD d 0) == .die d && ownerOf (r.spill.getD d 0 + 2 ^ 24 - 1) == .die d

/-- The number of the check an image fails, in the order of R458 and R460; 0 for none. A die accepts stage 1 first, and
    each later stage after the one before it. -/
def imageFails (s : State) (die : Nat) (bs : List Byte) : Nat :=
  let stage := byteAt bs 4
  if !imageForm bs then 1
  else if !imageKey die bs then 2
  else if !imageSig bs then 3
  else if stage != (s.die die).boot + 1 then 4
  else if stage == 2 && !(match Config.configRecord (bs.drop 112) with | some r => recordOk r | none => false) then 5
  else 0

/-- The entry of an accepted image in the attestation log (R459). -/
def attestEntry (bs : List Byte) : List Byte :=
  natBytes 4 (byteAt bs 4) ++ natBytes 4 (fieldOf bs 8 4) ++ natBytes 8 0 ++ sha512 bs

/-- A die takes its part of the configuration record: position, harvest, substitutes, retired units and spill area. -/
def State.configure (s : State) (die : Nat) (r : ConfigRecord) : State :=
  let mine := fun (us : List Nat) => us.filter fun u => unitDie u == die
  let sub := fun (k : Nat) (m : List (Nat × Nat)) =>
    (r.subst.filter fun e => e.1 / 2 ^ 20 == k && unitDie e.1 == die).foldl
      (fun m e => kset (e.1 % 2 ^ 20 % 96) m (e.1 % 2 ^ 20 % 96) (e.2 % 2 ^ 20 % 96)) m
  let x := s.die die
  { s.setDie die { x with spillBase := r.spill.getD die 0, substSlice := sub 1 x.substSlice, substCtl := sub 2 x.substCtl } with
    posI := r.posI, posJ := r.posJ, harvested := s.harvested ++ mine r.harvest, retired := s.retired ++ mine r.retired }

/-- The event BOOT_IMAGE: an image is verified; a refused one leaves the die as it was, and the failing check is
    reported. -/
def execBootImage (die : Nat) (image : List Byte) (s : State) : Host.Outcome State Fault Refusal :=
  match imageFails s die image with
  | 0 =>
    let x := s.die die
    let stage := byteAt image 4
    let s1 := s.setDie die { x with boot := stage, attest := x.attest ++ [attestEntry image] }
    let s2 := match stage, Config.configRecord (image.drop 112) with
      | 2, some r => s1.configure die r
      | _, _ => s1
    event (die < 4) s (s2.replyWith die 0 [] [])
  | n => event (die < 4) s (s.replyWith die 3 [BitVec.ofNat 8 n] [])

/-! ## Reset -/

/-- A message on its way between the dies of the module. -/
def State.inner (s : State) : Instr → Bool
  | .fabricRequest _ f | .fabricResponse _ f | .collectivePacket _ f | .fabricManagementFlit _ f _ | .stagger _ f _ => (s.dieOfCoord f.src).isSome
  | _ => false

/-- The public keys of the dies' identities, which their ROMs report at every boot (R459). -/
def bootReports : List Reply := (List.range 4).map fun d => ⟨d, 0, edPublic (identityKey d), []⟩

/-- What a reset leaves: the reset state; the bytes of DRAM and host memory, what has left the module, the inputs that
    wait and the counter of free values stay, and the on-chip stores read as after power-on. The dies' ROMs boot, and report
    their public keys (R459). -/
def State.afterReset (s : State) : State :=
  { State.reset with
    wbuf := (s.mem.filter fun c => 2 ^ 55 ≤ c.1).map fun c => (c.1, memDefault)
    hostOut := s.hostOut, fabOut := s.fabOut, replies := s.replies ++ bootReports, agenda := s.agenda.filter fun i => !s.inner i,
    tick := s.tick + 1 }

/-- The event RESET: it comes at any time, and is the only way out of a freeze. -/
def execReset (s : State) : Host.Outcome State Fault Refusal := .next (commit s s.afterReset)

end Sys2Proof.Machine
end

