-- ==== Sys2Proof/Machine/Agents.lean ====
section
/-! DEFINITION. What step chooses from: the instruction a chosen split issues, and the events of the machine's agents. Which
of them moves next is free (R2, R11). -/

namespace Sys2Proof.Machine

/-- What a split on the issue list finds at its program counter. -/
inductive Fetched where
  /-- the split has ended, or its line has left the instruction cache since it was chosen -/
  | gone
  /-- a word that no instruction of the opcode map has, and the bytes it takes (R58) -/
  | bad (w : Word) (len : Nat)
  | word (i : Instr)
deriving DecidableEq, Repr

/-- The fetch of a split that was chosen to issue (R27, R321). An instruction that holds its split goes on, and is not
    fetched again (R374). -/
def State.fetched (s : State) (x : Nat × Nat) : Fetched :=
  match s.ter? x.1 with
  | none => .gone
  | some t =>
    match t.split? x.2 with
    | none => .gone
    | some sp =>
      match sp.held with
      | some i => .word i
      | none =>
        match s.nextWords t sp with
        | none => .gone
        | some bs => match decode bs with | .ok (i, _) => .word i | .error _ => .bad (wordAt bs) bs.length

/-- The issue of a word that is no instruction: the illegal-instruction trap (R58, R60). A word that names a latch is a
    member of its chain all the same. -/
def illegalWord (w : Word) (len : Nat) (s : State) : Host.Outcome State Fault Refusal :=
  match s.issuer .nop with
  | none => .fault .noIssuer
  | some c =>
    let c := { c with len := len, member := c.sp.memberWord w, headsChain := s.chainWord c.t c.sp w len }
    .next (s.finish c (.trap s (.illegalInstr c.pc) false))

/-! ## Events of the machine's own agents -/

/-- The masks of lanes in which an access may go on: those of one line of a load, of one address of an atomic, of the
    whole of a block, one lane of the rest (R192, R197, R240). -/
def Access.groups (a : Access) : List Lanes :=
  match a.kind with
  | .load .. | .lda .. | .image => a.reqs.map fun r => maskOf ((a.reqs.filter fun x => x.ea / 64 == r.ea / 64).map (·.lane))
  | .amo _ | .cas | .red _ => a.reqs.map fun r => maskOf ((a.reqs.filter fun x => x.ea == r.ea).map (·.lane))
  | _ => a.reqs.map fun r => 1#32 <<< r.lane

/-- Events of the memory side. -/
def State.memEvents (s : State) : List Instr :=
  (s.accs.flatMap fun a => a.groups.flatMap fun m => [.loadReturn a.ter a.id m, .storeAcknowledgement a.ter a.id m])
    ++ (s.parts.flatMap fun p => p.near.map fun l => .nearLineEviction p.core p.pidx (l.pa / 64))
    ++ (s.bcs.filter fun b => !b.trigs.isEmpty).map (fun b => .rebalance b.pa)
    ++ s.domains.map (fun e => .crossingCompletion e.1)
    ++ (s.accs.filter fun a => a.parked).map (fun a => .serviceTerraceStart a.vf (dieOf a.core))

/-- Events of the engines. -/
def State.engineEvents (s : State) : List Instr :=
  (s.cmds.flatMap fun c => [.copyEngineCommand c.id 0, .copyEngineCommand c.id 1, .requantisation c.id, .engineAlleyPush c.id])
    ++ ((s.ters.map (·.core)).eraseDups.flatMap fun c => [0, 1, 2, 3].flatMap fun k => [.blockStep c k, .rowBoundary c k])
    ++ (s.jobs.flatMap fun j => j.cards.map fun c => .jobCard j.uid c.card)
    ++ s.rounds.map (fun r => .collectiveRoundCompletion r.handle r.index r.die)

/-- Events of the distributors and the launch queues. -/
def State.launchEvents (s : State) : List Instr :=
  (s.launches.flatMap fun l => .launchCompletion l.id :: l.tasks.map fun e => .taskStart l.id e.1)
    ++ ((List.range 16).map fun v => .launchQueueEntry v)

/-- Events of the cores. -/
def State.coreEvents (s : State) : List Instr :=
  ((s.parts.map (·.core)).eraseDups.flatMap fun c => [.coreCycle c, .quantumExpiry c, .worldSwitch c, .overflowInterrupt c])
    ++ s.parts.map (fun p => .detectorWindowEnd p.core p.pidx)
    ++ s.ters.flatMap fun t => t.splits.flatMap fun x => [.instructionFetch t.uid x.low, .sleepEnd t.uid x.low]

/-- Events of a die's edges. A sample's demand is a free value. -/
def State.edgeEvents (s : State) : List Instr :=
  [0, 1, 2, 3].flatMap fun d =>
    [.powerSample d (Config.freeWord s.tick).toNat, .staggerHoldEnd d, .egressSpillDrain d]
      ++ (s.die d).retrain.map fun e => .linkDeclaredDown d e.1

/-- The events whose occurrence the state may allow. Errors, messages and commands come from outside, in the agenda. -/
def State.candidates (s : State) : List Instr :=
  s.coreEvents ++ s.memEvents ++ s.engineEvents ++ s.launchEvents ++ s.edgeEvents

/-! ## An instruction placed where the next step fetches it -/

/-- A split at a program counter, with every lane. -/
def freshSplit (sid : Nat) (pc : DWord) : Split := .start sid pc 0xFFFFFFFF#32

/-- A terrace on core 0 with that split, every register 0. -/
def freshTerrace (uid : Nat) (sp : Split) : Terrace := { Terrace.blank uid 0 0 0 0 with nregs := 32, splits := [sp] }

/-- The address of a placed instruction: the first line of the global window. -/
def placedPc : DWord := 0x100000000#64

/-- The instruction line of a placed instruction. -/
def placedLine (asid : Nat) (bs : List Byte) : Line :=
  ⟨2 ^ 26, asid, 0, leafOf 0xF, .die 0, bs ++ List.replicate (64 - bs.length) 0, none, []⟩

end Sys2Proof.Machine
end

