-- ==== Sys2Proof/Machine/Alu.lean ====
section
/-! DEFINITION. Integer, address and logic instructions (R88 to R98). -/

namespace Sys2Proof.Machine

/-- The template of R86 on integer values: Op is exact, Finish wraps or saturates. -/
def aluInt (d : Dst) (a b : Src) (m : Option Mods) (op : Int → Int → Int) (s : State) (c : Ctx) : Res :=
  let w := modsWord m
  c.resultTy s d c.ty fun l =>
    finishInt c.ty (c.sat || w.sat)
      (op (intA w (intOf c.ty (c.srcTy c.ty a l))) (intB w (intOf c.ty (c.srcTy c.ty b l))))

/-- The template on bit patterns (R88, R94). -/
def aluBits (d : Dst) (a b : Src) (op : Nat → Nat → Nat) (s : State) (c : Ctx) : Res :=
  c.resultTy s d c.ty fun l => op (c.srcTy c.ty a l) (c.srcTy c.ty b l) % 2 ^ tyWidth c.ty

/-- A one-source instruction on bit patterns. -/
def aluUnary (d : Dst) (a : Src) (op : Nat → Nat → Nat) (s : State) (c : Ctx) : Res :=
  c.resultTy s d c.ty fun l => op (tyWidth c.ty) (c.srcTy c.ty a l) % 2 ^ tyWidth c.ty

/-- A one-source instruction on integer values (R94). -/
def aluUnaryInt (d : Dst) (a : Src) (m : Option Mods) (op : Int → Int) (s : State) (c : Ctx) : Res :=
  let w := modsWord m
  c.resultTy s d c.ty fun l =>
    finishInt c.ty (c.sat || w.sat) (op (intA w (intOf c.ty (c.srcTy c.ty a l))))

/-- A shift (R91): `op` takes the width, the pattern and the count. -/
def aluShift (d : Dst) (a b : Src) (op : Nat → Nat → Nat → Nat) (s : State) (c : Ctx) : Res :=
  c.resultTy s d c.ty fun l => op (tyWidth c.ty) (c.srcTy c.ty a l) (c.src b l % 256)

/-- Division truncated towards zero with the defined results of R90. -/
def divInt (ty : Nat) (x y : Int) : Int :=
  if y == 0 then (if x < 0 then tyMin ty else tyMax ty) else Int.tdiv x y

/-- The remainder of R90. -/
def remInt (x y : Int) : Int := if y == 0 then x else x - y * Int.tdiv x y

/-- SHL, SHR, SAR and ROL on a w-bit pattern (R91). -/
def shlBits (w v n : Nat) : Nat := if w ≤ n then 0 else v * 2 ^ n % 2 ^ w
def shrBits (w v n : Nat) : Nat := if w ≤ n then 0 else v / 2 ^ n
def sarBits (w v n : Nat) : Nat := wrapTo w (signExt w v / (2 ^ min n w : Nat))
def rolBits (w v n : Nat) : Nat := (v * 2 ^ (n % w)) % 2 ^ w + v / 2 ^ (w - n % w)

/-- BFX (R92). -/
def bfxBits (ty v b : Nat) : Nat :=
  let w := tyWidth ty
  let pos := b % 64
  let len := min (b / 256 % 64) (if w == 64 then 64 else 32)
  let x : Int := if tySigned ty then signExt w v else v
  let f := wrapTo len (x / (2 ^ pos : Nat))
  if len == 0 then 0 else if tySigned ty then wrapTo w (signExt len f) else f % 2 ^ w

/-- BFI (R92): d with a field replaced by the low bits of a. -/
def bfiBits (w d v b : Nat) : Nat :=
  let pos := b % 64
  let len := b / 256 % 64
  let mask := (2 ^ len - 1) * 2 ^ pos % 2 ^ w
  (d &&& (2 ^ w - 1 - mask)) ||| (v * 2 ^ pos &&& mask)

/-- Number of one bits of a w-bit pattern. -/
def popcBits (w v : Nat) : Nat := ((List.range w).filter fun i => v.testBit i).length

/-- Number of leading zeros of a w-bit pattern. -/
def clzBits (w v : Nat) : Nat := if v == 0 then w else w - 1 - Nat.log2 v

/-- A w-bit pattern reversed. -/
def brevBits (w v : Nat) : Nat :=
  (List.range w).foldl (fun r i => if v.testBit i then r + 2 ^ (w - 1 - i) else r) 0

/-- ADD (R88). -/
def execAdd (d : Dst) (a b : Src) (m : Option Mods) (s : State) : Host.Outcome State Fault Refusal :=
  issue (.add d a b m) (aluInt d a b m (· + ·)) s

/-- SUB (R88). -/
def execSub (d : Dst) (a b : Src) (m : Option Mods) (s : State) : Host.Outcome State Fault Refusal :=
  issue (.sub d a b m) (aluInt d a b m (· - ·)) s

/-- ADDC (R89). -/
def execAddc (d : Dst) (a b : Src) (m : Option Mods) (s : State) : Host.Outcome State Fault Refusal :=
  issue (.addc d a b m) (fun s c =>
    let w := modsWord m
    let r := fun l => intA w (intOf c.ty (c.srcTy c.ty a l)) + intB w (intOf c.ty (c.srcTy c.ty b l)) + c.carryIn l
    c.resultTy (c.writePred s 7 fun l => carryOut c.ty (r l)) d c.ty fun l => finishInt c.ty (c.sat || w.sat) (r l)) s

/-- SUBB (R89). -/
def execSubb (d : Dst) (a b : Src) (m : Option Mods) (s : State) : Host.Outcome State Fault Refusal :=
  issue (.subb d a b m) (fun s c =>
    let w := modsWord m
    let r := fun l => intA w (intOf c.ty (c.srcTy c.ty a l)) - intB w (intOf c.ty (c.srcTy c.ty b l)) - c.carryIn l
    c.resultTy (c.writePred s 7 fun l => borrowOut (r l)) d c.ty fun l => finishInt c.ty (c.sat || w.sat) (r l)) s

/-- MULLO (R88). -/
def execMullo (d : Dst) (a b : Src) (m : Option Mods) (s : State) : Host.Outcome State Fault Refusal :=
  issue (.mullo d a b m) (aluInt d a b m (· * ·)) s

/-- MULHI (R88). -/
def execMulhi (d : Dst) (a b : Src) (m : Option Mods) (s : State) : Host.Outcome State Fault Refusal :=
  issue (.mulhi d a b m) (fun s c =>
    aluInt d a b m (fun x y => x * y / (2 ^ tyWidth c.ty : Nat)) s c) s

/-- MAD (R88): d is read as TYPE before it is written. -/
def execMad (d : Dst) (a b : Src) (m : Option Mods) (s : State) : Host.Outcome State Fault Refusal :=
  issue (.mad d a b m) (fun s c =>
    let w := modsWord m
    c.resultTy s d c.ty fun l =>
      finishInt c.ty (c.sat || w.sat)
        (intA w (intOf c.ty (c.srcTy c.ty a l)) * intB w (intOf c.ty (c.srcTy c.ty b l))
          + intOf c.ty (c.srcTy c.ty (dstSrc d) l))) s

/-- DIV (R90). -/
def execDiv (d : Dst) (a b : Src) (m : Option Mods) (s : State) : Host.Outcome State Fault Refusal :=
  issue (.div d a b m) (fun s c => aluInt d a b m (divInt c.ty) s c) s

/-- REM (R90). -/
def execRem (d : Dst) (a b : Src) (m : Option Mods) (s : State) : Host.Outcome State Fault Refusal :=
  issue (.rem d a b m) (aluInt d a b m remInt) s

/-- MIN (R88). -/
def execMin (d : Dst) (a b : Src) (m : Option Mods) (s : State) : Host.Outcome State Fault Refusal :=
  issue (.min d a b m) (aluInt d a b m min) s

/-- MAX (R88). -/
def execMax (d : Dst) (a b : Src) (m : Option Mods) (s : State) : Host.Outcome State Fault Refusal :=
  issue (.max d a b m) (aluInt d a b m max) s

/-- AND (R88). -/
def execAnd (d : Dst) (a b : Src) (m : Option Mods) (s : State) : Host.Outcome State Fault Refusal :=
  issue (.and d a b m) (aluBits d a b (· &&& ·)) s

/-- OR (R88). -/
def execOr (d : Dst) (a b : Src) (m : Option Mods) (s : State) : Host.Outcome State Fault Refusal :=
  issue (.or d a b m) (aluBits d a b (· ||| ·)) s

/-- XOR (R88). -/
def execXor (d : Dst) (a b : Src) (m : Option Mods) (s : State) : Host.Outcome State Fault Refusal :=
  issue (.xor d a b m) (aluBits d a b (· ^^^ ·)) s

/-- ANDN (R88): x AND NOT y. -/
def execAndn (d : Dst) (a b : Src) (m : Option Mods) (s : State) : Host.Outcome State Fault Refusal :=
  issue (.andn d a b m) (aluBits d a b fun x y => x ^^^ (x &&& y)) s

/-- SHL (R91). -/
def execShl (d : Dst) (a b : Src) (m : Option Mods) (s : State) : Host.Outcome State Fault Refusal :=
  issue (.shl d a b m) (aluShift d a b shlBits) s

/-- SHR (R91). -/
def execShr (d : Dst) (a b : Src) (m : Option Mods) (s : State) : Host.Outcome State Fault Refusal :=
  issue (.shr d a b m) (aluShift d a b shrBits) s

/-- SAR (R91). -/
def execSar (d : Dst) (a b : Src) (m : Option Mods) (s : State) : Host.Outcome State Fault Refusal :=
  issue (.sar d a b m) (aluShift d a b sarBits) s

/-- ROL (R91). -/
def execRol (d : Dst) (a b : Src) (m : Option Mods) (s : State) : Host.Outcome State Fault Refusal :=
  issue (.rol d a b m) (aluShift d a b rolBits) s

/-- BFX (R92). -/
def execBfx (d : Dst) (a b : Src) (m : Option Mods) (s : State) : Host.Outcome State Fault Refusal :=
  issue (.bfx d a b m) (fun s c => c.resultTy s d c.ty fun l => bfxBits c.ty (c.srcTy c.ty a l) (c.src b l)) s

/-- BFI (R92). -/
def execBfi (d : Dst) (a b : Src) (m : Option Mods) (s : State) : Host.Outcome State Fault Refusal :=
  issue (.bfi d a b m) (fun s c => c.resultTy s d c.ty fun l =>
    bfiBits (tyWidth c.ty) (c.srcTy c.ty (dstSrc d) l) (c.srcTy c.ty a l) (c.src b l)) s

/-- SEL (R96): bit patterns, a where the predicate selects it. Under a TYPE of 8 or 16 bits the whole 32-bit register is copied:
    R96 gives the width of the 64-bit types alone (DESIGN CHOICE, log entry 47). -/
def execSel (d : Dst) (a b : Src) (neg : Bool) (p : Nat) (s : State) : Host.Outcome State Fault Refusal :=
  issue (.sel d a b neg p) (fun s c =>
    let get := fun (x : Src) l => if ty64 c.ty then c.src64 x l else c.src x l
    c.result s d (ty64 c.ty) fun l => if (c.rt.pget p).getLsbD l != neg then get a l else get b l) s

/-- CMP (R97). -/
def execCmp (cond p : Nat) (a b : Src) (m : Option Mods) (s : State) : Host.Outcome State Fault Refusal :=
  issue (.cmp cond p a b m) (fun s c =>
    let w := modsWord m
    .done (c.writePred s p fun l =>
      cmpInt cond (intA w (intOf c.ty (c.srcTy c.ty a l))) (intB w (intOf c.ty (c.srcTy c.ty b l)))) none) s

/-- LEA (R93). -/
def execLea (d : Dst) (a b : Src) (m : Option Mods) (s : State) : Host.Outcome State Fault Refusal :=
  issue (.lea d a b m) (fun s c => c.result s d true fun l =>
    wrapTo 64 ((c.src64 a l : Int) + signExt 32 (c.src b l) * (tyWidth c.ty / 8 : Nat))) s

/-- ABS (R94). -/
def execAbs (d : Dst) (a : Src) (m : Option Mods) (s : State) : Host.Outcome State Fault Refusal :=
  issue (.abs d a m) (aluUnaryInt d a m fun x => x.natAbs) s

/-- NEG (R94). -/
def execNeg (d : Dst) (a : Src) (m : Option Mods) (s : State) : Host.Outcome State Fault Refusal :=
  issue (.neg d a m) (aluUnaryInt d a m fun x => -x) s

/-- NOT (R94). -/
def execNot (d : Dst) (a : Src) (m : Option Mods) (s : State) : Host.Outcome State Fault Refusal :=
  issue (.not d a m) (aluUnary d a fun w v => 2 ^ w - 1 - v) s

/-- POPC (R94). -/
def execPopc (d : Dst) (a : Src) (m : Option Mods) (s : State) : Host.Outcome State Fault Refusal :=
  issue (.popc d a m) (aluUnary d a popcBits) s

/-- CLZ (R94). -/
def execClz (d : Dst) (a : Src) (m : Option Mods) (s : State) : Host.Outcome State Fault Refusal :=
  issue (.clz d a m) (aluUnary d a clzBits) s

/-- BREV (R94). -/
def execBrev (d : Dst) (a : Src) (m : Option Mods) (s : State) : Host.Outcome State Fault Refusal :=
  issue (.brev d a m) (aluUnary d a brevBits) s

/-- MOV (R94): the bit pattern, 64 bits for a 64-bit TYPE, else 32. -/
def execMov (d : Dst) (a : Src) (m : Option Mods) (s : State) : Host.Outcome State Fault Refusal :=
  issue (.mov d a m) (fun s c =>
    c.result s d (ty64 c.ty) fun l => if ty64 c.ty then c.src64 a l else c.src a l) s

/-- MOVI (R95). -/
def execMovi (d : Dst) (w : Word) (s : State) : Host.Outcome State Fault Refusal :=
  issue (.movi d w) (fun s c => c.result s d false fun _ => w.toNat) s

/-- MOVH (R95): the odd register of the pair; the even one stays. -/
def execMovh (d : Dst) (w : Word) (s : State) : Host.Outcome State Fault Refusal :=
  issue (.movh d w) (fun s c =>
    c.result s d true fun l => w.toNat * 2 ^ 32 + c.src (dstSrc d) l) s

/-- PSET (R98). -/
def execPset (p : Nat) (a : Src) (lanes : Bool) (s : State) : Host.Outcome State Fault Refusal :=
  issue (.pset p a lanes) (fun s c =>
    .done (c.writePred s p fun l => (c.src a l).testBit (if lanes then l else 0)) none) s

end Sys2Proof.Machine
end

