-- ==== Sys2Proof/Machine/Control.lean ====
section
/-! DEFINITION. Branches, the mode word, merge markers, the end of lanes, YIELD, SLEEP and TRAP (R115 to R124, R335,
R336, R402, R403). -/

namespace Sys2Proof.Machine

/-- A control transfer to outcome groups in their order (R116): the divergence-overflow trap, before any effect, or
    the division of the state after the instruction's own effect. -/
def branch (s s' : State) (c : Ctx) (groups : List (Lanes × DWord)) : Res :=
  let gs := dropEmpty groups
  if divergeOverflow c.t c.sp gs then .trap s (.simple 0x03 c.pc) false
  else .jump s' fun s => s.diverge c.uid c.sid gs

/-- The target of a B-class instruction (R120). -/
def Ctx.target (c : Ctx) (off : Word) : DWord := c.pc + off.signExtend 64

/-- Distinct targets in ascending order, each with its lanes (R116). -/
def targetGroups (lanes : List Nat) (tgt : Nat → Nat) : List (Lanes × DWord) :=
  let ts := (lanes.map tgt).eraseDups.mergeSort (fun a b => a ≤ b)
  ts.map fun x => (maskOf (lanes.filter fun l => tgt l == x), BitVec.ofNat 64 x)

/-- JMPR and RET (R121). -/
def jumpTo (a : Src) (s : State) (c : Ctx) : Res :=
  let tgt := fun l => c.src64 a l
  match c.lanes.find? fun l => tgt l % 4 != 0 with
  | some l => .trap s ⟨0x14, 0, true, false, none, tgt l⟩ false
  | none => branch s s c (targetGroups c.lanes tgt ++ [(c.sp.mask &&& ~~~c.active, c.nextPc)])

/-- BRA (R120). -/
def execBra (off : Word) (s : State) : Host.Outcome State Fault Refusal :=
  issue (.bra off) (fun s c =>
    branch s s c [(c.active, c.target off), (c.sp.mask &&& ~~~c.active, c.nextPc)]) s

/-- BRP (R120): the taken lanes are the active lanes the predicate selects. -/
def execBrp (p : Nat) (neg : Bool) (off : Word) (s : State) : Host.Outcome State Fault Refusal :=
  issue (.brp p neg off) (fun s c =>
    let pr := c.rt.pget p
    let taken := c.active &&& (if neg then ~~~pr else pr)
    branch s s c [(taken, c.target off), (c.sp.mask &&& ~~~taken, c.nextPc)]) s

/-- CALL (R120): the link pair, then the branch. -/
def execCall (d : Dst) (off : Word) (s : State) : Host.Outcome State Fault Refusal :=
  issue (.call d off) (fun s c =>
    let link := c.nextPc.toNat
    branch s (s.updTer c.uid fun t => t.writeDst d true c.active fun _ => words2 link) c
      [(c.active, c.target off), (c.sp.mask &&& ~~~c.active, c.nextPc)]) s

/-- JMPR (R121). -/
def execJmpr (a : Src) (s : State) : Host.Outcome State Fault Refusal := issue (.jmpr a) (jumpTo a) s

/-- RET (R121). -/
def execRet (a : Src) (s : State) : Host.Outcome State Fault Refusal := issue (.ret a) (jumpTo a) s

/-- MODE (R39, R123). -/
def execMode (w : BitVec 16) (s : State) : Host.Outcome State Fault Refusal :=
  issue (.mode w) (fun s c => .done (s.updSplit c.uid c.sid fun x => { x with mode := w }) none) s

/-- NOP (R122). -/
def execNop (s : State) : Host.Outcome State Fault Refusal := issue .nop (fun s _ => .done s none) s

/-- NOP.merge (R117, R118). -/
def execNopMerge (s : State) : Host.Outcome State Fault Refusal :=
  issue .nopMerge (fun s c =>
    .jump s fun s => (s.updSplit c.uid c.sid fun sp => markerLoop c.pc 9 sp).releaseAll c.uid c.now) s

/-- The effect of YIELD on its slot's policy (R335). -/
def State.yieldNow (s : State) (c : Ctx) : State :=
  match s.part? c.t.core c.t.vf with
  | none => s
  | some p =>
    let k := c.t.ter / 16
    s.updPart c.t.core p.pidx fun p =>
      let q := p.slotState.getD k SlotState.init
      { p with slotState := p.slotState.set k { q with yielded := some (c.uid, c.sid) } }

/-- YIELD (R335). -/
def execYield (s : State) : Host.Outcome State Fault Refusal :=
  issue .yield (fun s c => .jump s fun s => s.yieldNow c) s

/-- SLEEP (R336). -/
def execSleep (a : Src) (s : State) : Host.Outcome State Fault Refusal :=
  issue (.sleep a) (fun s c =>
    let n := min (c.uniAll a) 1048576
    if n == 0 then .jump s fun s => s.yieldNow c
    else .jump s fun s => s.updSplit c.uid c.sid fun x => { x with hold := .sleep (c.now + n + 1) }) s

/-- TRAP (R403). -/
def execTrap (n : Nat) (s : State) : Host.Outcome State Fault Refusal :=
  issue (.trap n) (fun s c =>
    if c.active == 0 then .done s none
    else .trap s ⟨0x30, n, false, true, some c.active, c.pc.toNat⟩ true) s

end Sys2Proof.Machine
end

