-- ==== Sys2Proof/Machine/Lanes.lean ====
section
/-! DEFINITION. Cross-lane instructions (R109 to R114). -/

namespace Sys2Proof.Machine

/-- The value a cross-lane move carries: a pair for a 64-bit TYPE, else 32 bits (R110). -/
def Ctx.moved (c : Ctx) (a : Src) (l : Nat) : Nat := if ty64 c.ty then c.src64 a l else c.src a l

/-- SHFL (R110): `pick` gives the source lane from the lane and the operand b. -/
def shfl (d : Dst) (a b : Src) (pick : Nat → Nat → Int) (s : State) (c : Ctx) : Res :=
  c.result s d (ty64 c.ty) fun l =>
    let j := pick l (c.src b l)
    if 0 ≤ j && j < 32 && c.active.getLsbD j.toNat then c.moved a j.toNat else c.moved a l

/-- SHFL.idx (R110). -/
def execShflIdx (d : Dst) (a b : Src) (m : Option Mods) (s : State) : Host.Outcome State Fault Refusal :=
  issue (.shflIdx d a b m) (shfl d a b fun _ x => (x % 32 : Nat)) s

/-- SHFL.up (R110). -/
def execShflUp (d : Dst) (a b : Src) (m : Option Mods) (s : State) : Host.Outcome State Fault Refusal :=
  issue (.shflUp d a b m) (shfl d a b fun l x => (l : Int) - (x % 64 : Nat)) s

/-- SHFL.down (R110). -/
def execShflDown (d : Dst) (a b : Src) (m : Option Mods) (s : State) : Host.Outcome State Fault Refusal :=
  issue (.shflDown d a b m) (shfl d a b fun l x => (l : Int) + (x % 64 : Nat)) s

/-- SHFL.xor (R110). -/
def execShflXor (d : Dst) (a b : Src) (m : Option Mods) (s : State) : Host.Outcome State Fault Refusal :=
  issue (.shflXor d a b m) (shfl d a b fun l x => (l ^^^ (x % 32) : Nat)) s

/-- BCAST (R111): lane j, or the lowest active lane where j is not active. -/
def execBcast (d : Dst) (a b : Src) (m : Option Mods) (s : State) : Host.Outcome State Fault Refusal :=
  issue (.bcast d a b m) (fun s c =>
    let j := c.uni b % 32
    let j := if c.active.getLsbD j then j else (lowLane c.active).getD 0
    c.result s d (ty64 c.ty) fun _ => c.moved a j) s

/-- A VOTE member (R112): one result from the values of the active lanes. -/
def vote (d : Dst) (a : Src) (f : Ctx → (Nat → Nat) → Nat) (s : State) (c : Ctx) : Res :=
  let r := f c (c.src a)
  c.result s d false fun _ => r

/-- VOTE.any (R112). -/
def execVoteAny (d : Dst) (a : Src) (s : State) : Host.Outcome State Fault Refusal :=
  issue (.voteAny d a) (vote d a fun c f => (c.lanes.any fun l => f l != 0).toNat) s

/-- VOTE.all (R112). -/
def execVoteAll (d : Dst) (a : Src) (s : State) : Host.Outcome State Fault Refusal :=
  issue (.voteAll d a) (vote d a fun c f => (c.lanes.all fun l => f l != 0).toNat) s

/-- VOTE.ballot (R112). -/
def execVoteBallot (d : Dst) (a : Src) (s : State) : Host.Outcome State Fault Refusal :=
  issue (.voteBallot d a) (vote d a fun c f => (laneBits c.lanes fun l => f l != 0).toNat) s

/-- VOTE.uni (R112). -/
def execVoteUni (d : Dst) (a : Src) (s : State) : Host.Outcome State Fault Refusal :=
  issue (.voteUni d a) (vote d a fun c f =>
    match c.lanes with
    | [] => 1
    | l0 :: ls => (ls.all fun l => f l == f l0).toNat) s

/-! ## Reductions (R113, R114) -/

/-- The running values of an integer add, min or max over the active lanes: exact, one for each lane. -/
def runInt (op : Nat) (x0 : Int) (xs : List Int) : List Int :=
  (xs.foldl (fun (r : List Int × Int) x =>
    let y := match op with | 0 => r.2 + x | 1 => min r.2 x | _ => max r.2 x
    (y :: r.1, y)) ([x0], x0)).1.reverse

/-- The running values of and, or and xor on bit patterns. -/
def runBits (op : Nat) (x0 : Nat) (xs : List Nat) : List Nat :=
  (xs.foldl (fun (r : List Nat × Nat) x =>
    let y := match op with | 3 => r.2 &&& x | 4 => r.2 ||| x | _ => r.2 ^^^ x
    (y :: r.1, y)) ([x0], x0)).1.reverse

/-- The running values of a floating-point add, min or max, as bits of TYPE: the k-th sum rounds with draw
    (0, k − 1). -/
def runFp (c : Ctx) (op : Nat) (x0 : Xr) (xs : List Xr) : List Nat :=
  let ty := c.ty
  let bits := fun x => roundToType ty 0 0 false x
  (xs.foldl (fun (r : List Nat × Nat × Xr) x =>
    let b := match op with
      | 0 => roundToType ty c.rnd (c.draw 0 r.2.1) c.sat (Xr.add c.rdn r.2.2 x)
      | 1 => bits (Xr.minmax false r.2.2 x)
      | _ => bits (Xr.minmax true r.2.2 x)
    (b :: r.1, r.2.1 + 1, valueOf ty b)) ([bits x0], 0, x0)).1.reverse

/-- The running values over the active lanes in ascending order, as bit patterns of TYPE. -/
def Ctx.running (c : Ctx) (op : Nat) (a : Src) : List Nat :=
  match c.lanes with
  | [] => []
  | l0 :: ls =>
    if 3 ≤ op then runBits op (c.srcTy c.ty a l0) (ls.map (c.srcTy c.ty a))
    else if tyInt c.ty then
      (runInt op (intOf c.ty (c.srcTy c.ty a l0)) (ls.map fun l => intOf c.ty (c.srcTy c.ty a l))).map
        (finishInt c.ty c.sat)
    else runFp c op (c.val a l0) (ls.map (c.val a))

/-- The identity an exclusive scan gives its first lane (R114), as a bit pattern of TYPE. -/
def scanIdentity (ty op : Nat) : Nat :=
  match op with
  | 1 => if tyInt ty then wrapTo (tyWidth ty) (tyMax ty) else roundToType ty 0 0 false (.inf false)
  | 2 => if tyInt ty then wrapTo (tyWidth ty) (tyMin ty) else roundToType ty 0 0 false (.inf true)
  | 3 => 2 ^ tyWidth ty - 1
  | _ => 0

/-- Whether a reduction rounds under SR (R68): one of a floating-point type, whose min and max pass through Finish (R100). -/
def Ctx.reduceSr (c : Ctx) : Bool := c.srMode && !tyInt c.ty

/-- LRED (R113). -/
def execLred (d : Dst) (a : Src) (o : Nat) (s : State) : Host.Outcome State Fault Refusal :=
  issue (.lred d a o) (fun s c =>
    let r := (c.running o a).getLastD 0
    c.resultTy (c.advance s c.reduceSr) d c.ty fun _ => r) s

/-- LSCAN (R114). -/
def execLscan (d : Dst) (a : Src) (excl : Bool) (o : Nat) (s : State) : Host.Outcome State Fault Refusal :=
  issue (.lscan d a excl o) (fun s c =>
    let run := c.running o a
    let vals := if excl then scanIdentity c.ty o :: run else run
    let tab := c.lanes.zip vals
    c.resultTy (c.advance s c.reduceSr) d c.ty fun l => kget 0 tab l) s

end Sys2Proof.Machine
end

