-- ==== Sys2Proof/Machine/Dispatch.lean ====
section
/-! DEFINITION. The meaning of every instruction and event: one arm a constructor. -/

namespace Sys2Proof.Machine

/-- What an instruction or event does. -/
def exec (i : Instr) (s : State) : Host.Outcome State Fault Refusal :=
  match i with
  | .add d a b m => Sys2Proof.Machine.execAdd d a b m s
  | .addc d a b m => Sys2Proof.Machine.execAddc d a b m s
  | .sub d a b m => Sys2Proof.Machine.execSub d a b m s
  | .subb d a b m => Sys2Proof.Machine.execSubb d a b m s
  | .mullo d a b m => Sys2Proof.Machine.execMullo d a b m s
  | .mulhi d a b m => Sys2Proof.Machine.execMulhi d a b m s
  | .mad d a b m => Sys2Proof.Machine.execMad d a b m s
  | .div d a b m => Sys2Proof.Machine.execDiv d a b m s
  | .rem d a b m => Sys2Proof.Machine.execRem d a b m s
  | .min d a b m => Sys2Proof.Machine.execMin d a b m s
  | .max d a b m => Sys2Proof.Machine.execMax d a b m s
  | .and d a b m => Sys2Proof.Machine.execAnd d a b m s
  | .or d a b m => Sys2Proof.Machine.execOr d a b m s
  | .xor d a b m => Sys2Proof.Machine.execXor d a b m s
  | .andn d a b m => Sys2Proof.Machine.execAndn d a b m s
  | .shl d a b m => Sys2Proof.Machine.execShl d a b m s
  | .shr d a b m => Sys2Proof.Machine.execShr d a b m s
  | .sar d a b m => Sys2Proof.Machine.execSar d a b m s
  | .rol d a b m => Sys2Proof.Machine.execRol d a b m s
  | .bfx d a b m => Sys2Proof.Machine.execBfx d a b m s
  | .bfi d a b m => Sys2Proof.Machine.execBfi d a b m s
  | .sel d a b neg p => Sys2Proof.Machine.execSel d a b neg p s
  | .cmp c p a b m => Sys2Proof.Machine.execCmp c p a b m s
  | .lea d a b m => Sys2Proof.Machine.execLea d a b m s
  | .abs d a m => Sys2Proof.Machine.execAbs d a m s
  | .neg d a m => Sys2Proof.Machine.execNeg d a m s
  | .not d a m => Sys2Proof.Machine.execNot d a m s
  | .popc d a m => Sys2Proof.Machine.execPopc d a m s
  | .clz d a m => Sys2Proof.Machine.execClz d a m s
  | .brev d a m => Sys2Proof.Machine.execBrev d a m s
  | .mov d a m => Sys2Proof.Machine.execMov d a m s
  | .movi d w => Sys2Proof.Machine.execMovi d w s
  | .movh d w => Sys2Proof.Machine.execMovh d w s
  | .pset p a lanes => Sys2Proof.Machine.execPset p a lanes s
  | .fadd d a b m => Sys2Proof.Machine.execFadd d a b m s
  | .fsub d a b m => Sys2Proof.Machine.execFsub d a b m s
  | .fmul d a b m => Sys2Proof.Machine.execFmul d a b m s
  | .fma d a b m => Sys2Proof.Machine.execFma d a b m s
  | .fmin d a b m => Sys2Proof.Machine.execFmin d a b m s
  | .fmax d a b m => Sys2Proof.Machine.execFmax d a b m s
  | .fcmp c p a b m => Sys2Proof.Machine.execFcmp c p a b m s
  | .fdiv d a b m => Sys2Proof.Machine.execFdiv d a b m s
  | .frcp d a m => Sys2Proof.Machine.execFrcp d a m s
  | .frsq d a m => Sys2Proof.Machine.execFrsq d a m s
  | .fsqrt d a m => Sys2Proof.Machine.execFsqrt d a m s
  | .fexp2 d a m => Sys2Proof.Machine.execFexp2 d a m s
  | .flog2 d a m => Sys2Proof.Machine.execFlog2 d a m s
  | .fsin d a m => Sys2Proof.Machine.execFsin d a m s
  | .fcos d a m => Sys2Proof.Machine.execFcos d a m s
  | .ftanh d a m => Sys2Proof.Machine.execFtanh d a m s
  | .frint d a m => Sys2Proof.Machine.execFrint d a m s
  | .fclass d a m => Sys2Proof.Machine.execFclass d a m s
  | .cvt d a t m => Sys2Proof.Machine.execCvt d a t m s
  | .qpack d a f m => Sys2Proof.Machine.execQpack d a f m s
  | .qunpk d a f m => Sys2Proof.Machine.execQunpk d a f m s
  | .srnd d a t m => Sys2Proof.Machine.execSrnd d a t m s
  | .rng d => Sys2Proof.Machine.execRng d s
  | .rngst d => Sys2Proof.Machine.execRngst d s
  | .rngld a => Sys2Proof.Machine.execRngld a s
  | .shflIdx d a b m => Sys2Proof.Machine.execShflIdx d a b m s
  | .shflUp d a b m => Sys2Proof.Machine.execShflUp d a b m s
  | .shflDown d a b m => Sys2Proof.Machine.execShflDown d a b m s
  | .shflXor d a b m => Sys2Proof.Machine.execShflXor d a b m s
  | .bcast d a b m => Sys2Proof.Machine.execBcast d a b m s
  | .voteAny d a => Sys2Proof.Machine.execVoteAny d a s
  | .voteAll d a => Sys2Proof.Machine.execVoteAll d a s
  | .voteBallot d a => Sys2Proof.Machine.execVoteBallot d a s
  | .voteUni d a => Sys2Proof.Machine.execVoteUni d a s
  | .lred d a o => Sys2Proof.Machine.execLred d a o s
  | .lscan d a excl o => Sys2Proof.Machine.execLscan d a excl o s
  | .bra off => Sys2Proof.Machine.execBra off s
  | .brp p neg off => Sys2Proof.Machine.execBrp p neg off s
  | .call d off => Sys2Proof.Machine.execCall d off s
  | .jmpr a => Sys2Proof.Machine.execJmpr a s
  | .mode w => Sys2Proof.Machine.execMode w s
  | .nop => Sys2Proof.Machine.execNop s
  | .nopMerge => Sys2Proof.Machine.execNopMerge s
  | .ret a => Sys2Proof.Machine.execRet a s
  | .exit => Sys2Proof.Machine.execExit s
  | .yield => Sys2Proof.Machine.execYield s
  | .sleep a => Sys2Proof.Machine.execSleep a s
  | .leave => Sys2Proof.Machine.execLeave s
  | .qbar => Sys2Proof.Machine.execQbar s
  | .trap n => Sys2Proof.Machine.execTrap n s
  | .tret => Sys2Proof.Machine.execTret s
  | .elog d => Sys2Proof.Machine.execElog d s
  | .join a b => Sys2Proof.Machine.execJoin a b s
  | .launch d a => Sys2Proof.Machine.execLaunch d a s
  | .ldB d a b => Sys2Proof.Machine.execLdB d a b s
  | .ldH d a b => Sys2Proof.Machine.execLdH d a b s
  | .ldW d a b => Sys2Proof.Machine.execLdW d a b s
  | .ldD d a b => Sys2Proof.Machine.execLdD d a b s
  | .ldQ d a b => Sys2Proof.Machine.execLdQ d a b s
  | .ldbyW d a b => Sys2Proof.Machine.execLdbyW d a b s
  | .ldbyD d a b => Sys2Proof.Machine.execLdbyD d a b s
  | .ldbyQ d a b => Sys2Proof.Machine.execLdbyQ d a b s
  | .stB d a b => Sys2Proof.Machine.execStB d a b s
  | .stH d a b => Sys2Proof.Machine.execStH d a b s
  | .stW d a b => Sys2Proof.Machine.execStW d a b s
  | .stD d a b => Sys2Proof.Machine.execStD d a b s
  | .stQ d a b => Sys2Proof.Machine.execStQ d a b s
  | .stbyW d a b => Sys2Proof.Machine.execStbyW d a b s
  | .stbyD d a b => Sys2Proof.Machine.execStbyD d a b s
  | .stbyQ d a b => Sys2Proof.Machine.execStbyQ d a b s
  | .ldf d a b => Sys2Proof.Machine.execLdf d a b s
  | .stf d a b => Sys2Proof.Machine.execStf d a b s
  | .pref l a b => Sys2Proof.Machine.execPref l a b s
  | .invl a b => Sys2Proof.Machine.execInvl a b s
  | .invlAll => Sys2Proof.Machine.execInvlAll s
  | .waitp path a => Sys2Proof.Machine.execWaitp path a s
  | .cp d a b sswz dswz rows => Sys2Proof.Machine.execCp d a b sswz dswz rows s
  | .cps d => Sys2Proof.Machine.execCps d s
  | .cpw a => Sys2Proof.Machine.execCpw a s
  | .rqnt a b sat rnd newf => Sys2Proof.Machine.execRqnt a b sat rnd newf s
  | .fence d sc => Sys2Proof.Machine.execFence d sc s
  | .acq d sc => Sys2Proof.Machine.execAcq d sc s
  | .rel d sc => Sys2Proof.Machine.execRel d sc s
  | .lda d a dbl off => Sys2Proof.Machine.execLda d a dbl off s
  | .stl d a dbl off => Sys2Proof.Machine.execStl d a dbl off s
  | .amo d a b op => Sys2Proof.Machine.execAmo d a b op s
  | .cas d a b => Sys2Proof.Machine.execCas d a b s
  | .red a b op => Sys2Proof.Machine.execRed a b op s
  | .cross d => Sys2Proof.Machine.execCross d s
  | .crossa d => Sys2Proof.Machine.execCrossa d s
  | .crossw d => Sys2Proof.Machine.execCrossw d s
  | .phase d => Sys2Proof.Machine.execPhase d s
  | .cgbind d a => Sys2Proof.Machine.execCgbind d a s
  | .collAllreduce d a r => Sys2Proof.Machine.execCollAllreduce d a r s
  | .collReducescatter d a r => Sys2Proof.Machine.execCollReducescatter d a r s
  | .collAllgather d a => Sys2Proof.Machine.execCollAllgather d a s
  | .collBroadcast d a => Sys2Proof.Machine.execCollBroadcast d a s
  | .collAlltoall d a => Sys2Proof.Machine.execCollAlltoall d a s
  | .abinit d a => Sys2Proof.Machine.execAbinit d a s
  | .abarv d a => Sys2Proof.Machine.execAbarv d a s
  | .abwait d a => Sys2Proof.Machine.execAbwait d a s
  | .gset d a => Sys2Proof.Machine.execGset d a s
  | .gwid d a => Sys2Proof.Machine.execGwid d a s
  | .gview d => Sys2Proof.Machine.execGview d s
  | .grank d a => Sys2Proof.Machine.execGrank d a s
  | .rgrow a => Sys2Proof.Machine.execRgrow a s
  | .rshrink a => Sys2Proof.Machine.execRshrink a s
  | .aopen a => Sys2Proof.Machine.execAopen a s
  | .apop d a => Sys2Proof.Machine.execApop d a s
  | .atry d a => Sys2Proof.Machine.execAtry d a s
  | .apush a b => Sys2Proof.Machine.execApush a b s
  | .sigdec err a b => Sys2Proof.Machine.execSigdec err a b s
  | .sigwait d a b => Sys2Proof.Machine.execSigwait d a b s
  | .mma n a b mr nc kb pa pb => Sys2Proof.Machine.execMma n a b mr nc kb pa pb s
  | .mmas n d a b mr nc kb isel pa pb => Sys2Proof.Machine.execMmas n d a b mr nc kb isel pa pb s
  | .mmac n a b mr nc kb pb => Sys2Proof.Machine.execMmac n a b mr nc kb pb s
  | .macld n a b => Sys2Proof.Machine.execMacld n a b s
  | .macst n a b => Sys2Proof.Machine.execMacst n a b s
  | .macrd d a n => Sys2Proof.Machine.execMacrd d a n s
  | .macwr d a n => Sys2Proof.Machine.execMacwr d a n s
  | .mepi n a b mr nc tgt rnd sat fam bfmt => Sys2Proof.Machine.execMepi n a b mr nc tgt rnd sat fam bfmt s
  | .macz n => Sys2Proof.Machine.execMacz n s
  | .mprog d n => Sys2Proof.Machine.execMprog d n s
  | .ackpt d a n => Sys2Proof.Machine.execAckpt d a n s
  | .acrst d a n => Sys2Proof.Machine.execAcrst d a n s
  | .attn n a b q dim chunks lc kw vw fold causal => Sys2Proof.Machine.execAttn n a b q dim chunks lc kw vw fold causal s
  | .attc init fin n a => Sys2Proof.Machine.execAttc init fin n a s
  | .kvap d a b => Sys2Proof.Machine.execKvap d a b s
  | .kvtr d a b => Sys2Proof.Machine.execKvtr d a b s
  | .kvrd d a b => Sys2Proof.Machine.execKvrd d a b s
  | .cntrd d k => Sys2Proof.Machine.execCntrd d k s
  | .cntcfg d a k => Sys2Proof.Machine.execCntcfg d a k s
  | .cntsv a => Sys2Proof.Machine.execCntsv a s
  | .cntld a => Sys2Proof.Machine.execCntld a s
  | .wswitch => Sys2Proof.Machine.execWswitch s
  | .bcinit d a b => Sys2Proof.Machine.execBcinit d a b s
  | .bctake d a b => Sys2Proof.Machine.execBctake d a b s
  | .bcgive d a b => Sys2Proof.Machine.execBcgive d a b s
  | .bcread d a => Sys2Proof.Machine.execBcread d a s
  | .bcstat d a => Sys2Proof.Machine.execBcstat d a s
  | .sysrd d n => Sys2Proof.Machine.execSysrd d n s
  | .syswr n a => Sys2Proof.Machine.execSyswr n a s
  | .syXreqWrite a => Sys2Proof.Machine.execSyXreqWrite a s
  | .shoot a b => Sys2Proof.Machine.execShoot a b s
  | .part d a b => Sys2Proof.Machine.execPart d a b s
  | .loadReturn ter id m => Sys2Proof.Machine.execLoadReturn ter id m s
  | .storeAcknowledgement ter id m => Sys2Proof.Machine.execStoreAcknowledgement ter id m s
  | .overflowInterrupt core => Sys2Proof.Machine.execOverflowInterrupt core s
  | .quantumExpiry core => Sys2Proof.Machine.execQuantumExpiry core s
  | .worldSwitch core => Sys2Proof.Machine.execWorldSwitch core s
  | .sleepEnd ter lane => Sys2Proof.Machine.execSleepEnd ter lane s
  | .detectorWindowEnd core pidx => Sys2Proof.Machine.execDetectorWindowEnd core pidx s
  | .crossingCompletion dom => Sys2Proof.Machine.execCrossingCompletion dom s
  | .copyEngineCommand cmd rows => Sys2Proof.Machine.execCopyEngineCommand cmd rows s
  | .engineAlleyPush cmd => Sys2Proof.Machine.execEngineAlleyPush cmd s
  | .requantisation cmd => Sys2Proof.Machine.execRequantisation cmd s
  | .blockStep core slot => Sys2Proof.Machine.execBlockStep core slot s
  | .jobCard ter card => Sys2Proof.Machine.execJobCard ter card s
  | .watchdogExpiry ter card => Sys2Proof.Machine.execWatchdogExpiry ter card s
  | .collectiveRoundCompletion handle round die => Sys2Proof.Machine.execCollectiveRoundCompletion handle round die s
  | .taskStart launch leaf => Sys2Proof.Machine.execTaskStart launch leaf s
  | .launchCompletion launch => Sys2Proof.Machine.execLaunchCompletion launch s
  | .rebalance ctr => Sys2Proof.Machine.execRebalance ctr s
  | .nearLineEviction core pidx line => Sys2Proof.Machine.execNearLineEviction core pidx line s
  | .serviceTerraceStart vf die => Sys2Proof.Machine.execServiceTerraceStart vf die s
  | .linkRetraining die port => Sys2Proof.Machine.execLinkRetraining die port s
  | .linkDeclaredDown die port => Sys2Proof.Machine.execLinkDeclaredDown die port s
  | .fabricRequest die f => Sys2Proof.Machine.execFabricRequest die f s
  | .fabricResponse die f => Sys2Proof.Machine.execFabricResponse die f s
  | .collectivePacket die f => Sys2Proof.Machine.execCollectivePacket die f s
  | .fabricManagementFlit die f fromMgmt => Sys2Proof.Machine.execFabricManagementFlit die f fromMgmt s
  | .stagger die f fromMgmt => Sys2Proof.Machine.execStagger die f fromMgmt s
  | .staggerHoldEnd die => Sys2Proof.Machine.execStaggerHoldEnd die s
  | .egressSpillDrain die => Sys2Proof.Machine.execEgressSpillDrain die s
  | .powerSample die demand => Sys2Proof.Machine.execPowerSample die demand s
  | .supplyLoss => Sys2Proof.Machine.execSupplyLoss s
  | .hostRead die flit => Sys2Proof.Machine.execHostRead die flit s
  | .hostWrite die flit => Sys2Proof.Machine.execHostWrite die flit s
  | .hostAtomic die flit => Sys2Proof.Machine.execHostAtomic die flit s
  | .hostReadCompletion die flit => Sys2Proof.Machine.execHostReadCompletion die flit s
  | .hostErrorResponse die flit => Sys2Proof.Machine.execHostErrorResponse die flit s
  | .hostInterrupt die flit => Sys2Proof.Machine.execHostInterrupt die flit s
  | .doorbell die flit => Sys2Proof.Machine.execDoorbell die flit s
  | .launchQueueEntry vf => Sys2Proof.Machine.execLaunchQueueEntry vf s
  | .mgmtPart a b => Sys2Proof.Machine.execMgmtPart a b s
  | .quant core pidx q => Sys2Proof.Machine.execQuant core pidx q s
  | .frames die frame colour => Sys2Proof.Machine.execFrames die frame colour s
  | .wdog us => Sys2Proof.Machine.execWdog us s
  | .link die port up => Sys2Proof.Machine.execLink die port up s
  | .abort vf launch => Sys2Proof.Machine.execAbort vf launch s
  | .stop launch how => Sys2Proof.Machine.execStop launch how s
  | .lost die frame => Sys2Proof.Machine.execLost die frame s
  | .queue vf addr => Sys2Proof.Machine.execQueue vf addr s
  | .power die w => Sys2Proof.Machine.execPower die w s
  | .logs die => Sys2Proof.Machine.execLogs die s
  | .freeze => Sys2Proof.Machine.execFreeze s
  | .quote die nonce => Sys2Proof.Machine.execQuote die nonce s
  | .sysreg vf reg value => Sys2Proof.Machine.execSysreg vf reg value s
  | .freezePin => Sys2Proof.Machine.execFreezePin s
  | .reset => Sys2Proof.Machine.execReset s
  | .bootImage die image => Sys2Proof.Machine.execBootImage die image s
  | .coreCycle core => Sys2Proof.Machine.execCoreCycle core s
  | .rowBoundary core slot => Sys2Proof.Machine.execRowBoundary core slot s
  | .linkRetrained die port => Sys2Proof.Machine.execLinkRetrained die port s
  | .freezeReadout die => Sys2Proof.Machine.execFreezeReadout die s
  | .instructionFetch ter lane => Sys2Proof.Machine.execInstructionFetch ter lane s

end Sys2Proof.Machine
end

