-- ==== Sys2Proof/Machine/Step.lean ====
section
/-! DEFINITION. One step of a module: a chosen instruction issues, else an input or an internal message is taken, else one
of the agents that can move does. -/

namespace Sys2Proof.Machine

/-- The oldest chosen split issues. -/
def State.issueStep (s : State) (x : Nat × Nat) : Host.Outcome State Fault Refusal :=
  match s.fetched x with
  | .gone => .next s.popIssue
  | .bad w n => illegalWord w n s
  | .word i => exec i s

/-- What arrives is taken; what has no occurrence in the state is dropped. -/
def State.take (s : State) (i : Instr) (rest : List Instr) : Host.Outcome State Fault Refusal :=
  match exec i { s with agenda := rest } with
  | .fault _ => .next { s with agenda := rest }
  | r => r

/-- A frozen module or one without supply takes nothing but a reset, or, frozen, the read-out (R423, R456). -/
def State.haltedStep (s : State) : Host.Outcome State Fault Refusal :=
  match s.agenda with
  | [] => .fault .frozen
  | i :: rest => match i with
    | .reset | .freezeReadout _ => s.take i rest
    | _ => .next { s with agenda := rest }

/-- Whether an event has an occurrence in a state. -/
def State.occurs (s : State) (i : Instr) : Bool := match exec i s with | .next _ => true | _ => false

/-- The events that can occur. -/
def State.enabled (s : State) : List Instr := s.candidates.filter s.occurs

/-- One of the agents that can move does. -/
def State.agentStep (s : State) : Host.Outcome State Fault Refusal :=
  let s1 := { s with tick := s.tick + 1 }
  let es := s1.enabled
  match es[Config.pick s.tick % es.length]? with
  | some i => exec i s1
  | none => .fault .idle

/-- One step. -/
def step (s : State) : Host.Outcome State Fault Refusal :=
  if s.frozen || s.dark then s.haltedStep
  else match s.issue with
    | x :: _ => s.issueStep x
    | [] => match s.agenda with
      | i :: rest => s.take i rest
      | [] => s.agentStep

/-- The state with an instruction placed where the next step fetches it: a terrace on core 0 at it, whose partition holds
    the core and whose instruction cache holds its line, is the one chosen to issue (log entry 7). -/
def State.withFetchWord (s : State) (nbits w : Nat) : State :=
  let p : Part := { Part.fresh 0 0 0 15 15 0 4 with ilines := [placedLine (s.tenant 0).asid (tableBytes nbits w)] }
  { s with
    ters := freshTerrace s.fresh (freshSplit (s.fresh + 1) placedPc) :: s.ters
    parts := p :: s.parts
    cores := kset Core.init s.cores 0 { s.core 0 with holder := some 0 }
    issue := [(s.fresh, s.fresh + 1)], fresh := s.fresh + 2, frozen := false, dark := false }

end Sys2Proof.Machine
end

