-- ==== Sys2Proof/Safety.lean ====
section
/-! DEFINITION. What counts as a safe state and a safe step, in the terms the statements use: the canonical forms that the
stores keep, an instruction at its issue, and what a step that only passes an instruction leaves as it was. -/

namespace Sys2Proof.Machine

/-! ## Every step -/

/-- Memory is in its canonical form, and no write of a step is left unmade. -/
def State.Tidy (s : State) : Prop := Memory.wf s.mem = true ∧ s.wbuf = []

/-- Every step keeps a property. -/
def Keeps (P : State → Prop) : Prop := ∀ s t, P s → step s = .next t → P t

/-! ## An instruction at its issue -/

/-- An instruction is at its issue: `c` is the split chosen to issue it, its form is one that TYPE allows (R58), its
    operands can be used (R59), its terrace's function holds a partition of the core (R361), no stored bit is upset, and no write is left unmade. -/
structure State.Issues (s : State) (i : Instr) (c : Ctx) : Prop where
  issuer : s.issuer i = some c
  form : issueFormOk i c.ty = true
  operands : operandsOk c.t c.sp i = true
  home : (s.part? c.t.core c.t.vf).isSome = true
  sound : s.flaws = []
  tidy : s.wbuf = []

/-! ## What a step leaves as it was -/

/-- A terrace's register files: v registers and wide marks, s registers and wide marks, predicates. -/
def Terrace.regs (t : Terrace) : List (Nat × Word) × List (Nat × Lanes) × List (Nat × Word) × BitVec 16 × List (Nat × Lanes) :=
  (t.v, t.vw, t.s, t.sw, t.p)

/-- A terrace without its register files, its pending bits and its splits. -/
def Terrace.others (t : Terrace) : Terrace := { t with v := [], vw := [], s := [], sw := 0, p := [], pending := [], splits := [] }

/-- A split without its window: what another split's issue may empty (R326). -/
def Split.bare (x : Split) : Split := { x with window := [] }

/-- A terrace whose splits are bare. -/
def Terrace.bare (t : Terrace) : Terrace := { t with splits := t.splits.map Split.bare }

/-- A partition without what every issue counts: its performance counters and what its issue slots keep. -/
def Part.bare (p : Part) : Part := { p with counters := [], bank := [], slotState := [] }

/-- A split's mode word, generator, serialisation stack and trap frame. -/
def Split.status (x : Split) : BitVec 16 × DWord × DWord × List StackEntry × Option Frame := (x.mode, x.rk, x.rc, x.stack, x.frame)

/-- The machine without a terrace and without what every issue counts: the issue list, the performance counters, what
    the issue slots keep, and the windows of splits. -/
def State.apart (s : State) (uid : Nat) : State :=
  { s with
    issue := []
    ters := (s.ters.filter fun t => t.uid != uid).map Terrace.bare
    parts := s.parts.map Part.bare }

/-- An instruction of the context `c` has issued between two states and has changed nothing but its terrace `w` and its
    split `y`: memory, every other terrace and all that the machine holds beside them are as before; the terrace has the
    registers of `w` and is otherwise as before; the split stands at `pc` with the lanes `mask` and the status of `y`. -/
structure Stands (s t : State) (c : Ctx) (w : Terrace) (y : Split) (pc : DWord) (mask : Lanes) : Prop where
  apart : t.apart c.uid = s.apart c.uid
  issued : t.issue = s.issue.tail
  here : ∃ u x, t.ter? c.uid = some u ∧ u.split? c.sid = some x ∧ u.regs = w.regs ∧ u.others = c.t.others
    ∧ x.pc = pc ∧ x.mask = mask ∧ x.hold = .none ∧ x.status = y.status
    ∧ ∀ k, k ≠ c.sid → (u.split? k).map Split.bare = (c.t.split? k).map Split.bare

/-- Such an instruction has passed: its split stands after it, with the lanes that rejoin there (R404), else its own. -/
abbrev Passes (s t : State) (c : Ctx) (w : Terrace) (y : Split) : Prop :=
  Stands s t c w y c.nextPc (c.sp.after.getD c.sp.mask)

/-- The step's answer is a next state with a property. -/
def Answers (o : Host.Outcome State Fault Refusal) (P : State → Prop) : Prop := ∃ t, o = .next t ∧ P t

/-! ## How an issued instruction goes on -/

/-- It completes: its terrace has the registers of `w`, its split the status of `y`, and nothing else changes. -/
def Completes (i : Instr) (s : State) (c : Ctx) (w : Terrace) (y : Split) : Prop :=
  Answers (exec i s) fun t => Passes s t c w y

/-- It completes with the effect `s1` on the machine, to which the end of every instruction adds what
    Obligations.EndOfInstruction says. -/
def Ends (i : Instr) (s : State) (c : Ctx) (s1 : State) : Prop := ∃ vals, exec i s = .next (s.finish c (.done s1 vals))

/-- It issues with the effect `s1` and holds its split until an event completes it. -/
def Holds (i : Instr) (s : State) (c : Ctx) (s1 : State) (h : Hold) : Prop := exec i s = .next (s.finish c (.hold s1 h))

/-- It waits at its issue, with the effect `s1`. -/
def Waits (i : Instr) (s : State) (c : Ctx) (s1 : State) (w : Wait) : Prop := exec i s = .next (s.finish c (.wait s1 w))

/-- It completes with the effect `s1`, and then its split is placed. -/
def Jumps (i : Instr) (s : State) (c : Ctx) (s1 : State) (place : State → State) : Prop :=
  exec i s = .next (s.finish c (.jump s1 place))

/-- It traps after the effect `s1`. -/
def Traps (i : Instr) (s : State) (c : Ctx) (s1 : State) (tr : Trap) : Prop :=
  ∃ counted, exec i s = .next (s.finish c (.trap s1 tr counted))

/-- An event occurs: what it writes lands with it, and the errors it met are recorded (R416). -/
def Occurs (i : Instr) (s s1 : State) : Prop := exec i s = .next (commit s (s1.noted s))

/-! ## Results in registers -/

/-- The issuing terrace with a result in a destination: the value of each active lane in one register, or in a pair. -/
def Ctx.put (c : Ctx) (d : Dst) (wide : Bool) (f : Nat → Nat) : Terrace :=
  c.t.writeDst d wide c.active fun l => resWords wide (f l)

/-- The issuing split after a draw of its generator: C advances where the instruction draws and a lane is active (R68). -/
def Ctx.stepped (c : Ctx) (draws : Bool) : Split :=
  if draws && c.active != 0 then { c.sp with rc := c.sp.rc + 1 } else c.sp

end Sys2Proof.Machine
end

