-- ==== Sys2Proof/Certificates/Slice0/Obligations.lean ====
section
/-! DEFINITION. The statements about the model. `s.Issues i c` says that an instruction is at its issue with its checks
passed (Safety.lean); Completes, Ends, Holds, Jumps, Traps and Occurs say how it goes on. -/

namespace Sys2Proof.Machine

/-! ## Shared forms -/

/-- The integer value of an operand after Modify (R45). -/
def Ctx.xInt (c : Ctx) (m : Option Mods) (a : Src) (l : Nat) : Int := intA (modsWord m) (intOf c.ty (c.srcTy c.ty a l))
def Ctx.yInt (c : Ctx) (m : Option Mods) (b : Src) (l : Nat) : Int := intB (modsWord m) (intOf c.ty (c.srcTy c.ty b l))

/-- The exact value of an operand after Modify (R45). -/
def Ctx.xXr (c : Ctx) (m : Option Mods) (a : Src) (l : Nat) : Xr := xrA (modsWord m) (c.val a l)
def Ctx.yXr (c : Ctx) (m : Option Mods) (b : Src) (l : Nat) : Xr := xrB (modsWord m) (c.val b l)

/-- Finish of an exact integer result in TYPE (R45, R64). -/
def Ctx.int (c : Ctx) (m : Option Mods) (r : Nat → Int) (l : Nat) : Nat :=
  extendTy c.ty (finishInt c.ty (c.sat || (modsWord m).sat) (r l))

/-- Finish of an exact floating-point result in TYPE, rounded once with draw (l, 0) (R45, R68). -/
def Ctx.fp (c : Ctx) (m : Option Mods) (v : Nat → Xr) (l : Nat) : Nat :=
  finishXr (modsWord m) c.ty c.rnd (c.draw l 0) c.sat (v l)

/-- An instruction completes with an exact integer result. -/
def IntRuns (i : Instr) (s : State) (c : Ctx) (d : Dst) (m : Option Mods) (r : Nat → Int) : Prop :=
  s.Issues i c → Completes i s c (c.put d (ty64 c.ty) (c.int m r)) c.sp

/-- An instruction completes with the bit pattern whose bit k in lane l is given. -/
def BitsRun (i : Instr) (s : State) (c : Ctx) (d : Dst) (bit : Nat → Nat → Bool) : Prop :=
  s.Issues i c → ∃ r : Nat → Nat, Completes i s c (c.put d (ty64 c.ty) fun l => extendTy c.ty (r l)) c.sp
    ∧ ∀ l, r l < 2 ^ tyWidth c.ty ∧ ∀ k, k < tyWidth c.ty → (r l).testBit k = bit l k

/-- An instruction completes with a number in TYPE. -/
def NatRuns (i : Instr) (s : State) (c : Ctx) (d : Dst) (r : Nat → Nat) : Prop :=
  s.Issues i c → Completes i s c (c.put d (ty64 c.ty) fun l => extendTy c.ty (r l)) c.sp

/-- An instruction completes with a value in one register, or in a pair. -/
def ValueRuns (i : Instr) (s : State) (c : Ctx) (d : Dst) (wide : Bool) (r : Nat → Nat) : Prop :=
  s.Issues i c → Completes i s c (c.put d wide r) c.sp

/-- An instruction completes and writes a predicate in its active lanes. -/
def PredRuns (i : Instr) (s : State) (c : Ctx) (p : Nat) (f : Nat → Bool) : Prop :=
  s.Issues i c → ∃ q : Lanes, Completes i s c { c.t with p := kset 0 c.t.p p q } c.sp
    ∧ ∀ l, l < 32 → q.getLsbD l = if c.active.getLsbD l then f l else (c.t.pget p).getLsbD l

/-- A floating-point instruction of TYPE completes; C advances under SR (R68). -/
def FpRuns (i : Instr) (s : State) (c : Ctx) (d : Dst) (m : Option Mods) (v : Nat → Xr) : Prop :=
  s.Issues i c → Completes i s c (c.put d (ty64 c.ty) (c.fp m v)) (c.stepped c.srMode)

/-- An instruction's value moves to the lane from the lane that `pick` names, where that is an active one (R110). -/
def MoveRuns (i : Instr) (s : State) (c : Ctx) (d : Dst) (a : Src) (pick : Nat → Int) : Prop :=
  ValueRuns i s c d (ty64 c.ty) fun l =>
    if 0 ≤ pick l ∧ pick l < 32 ∧ c.active.getLsbD (pick l).toNat then c.moved a (pick l).toNat else c.moved a l

/-- The integer of the bits above `lo` as the sign says. -/
def bitOfExt (signed : Bool) (w v k : Nat) : Bool := if k < w then v.testBit k else signed && v.testBit (w - 1)

/-! ### Memory instructions -/

/-- A memory instruction as its lanes begin it: what it does, its destination, the lanes that make an access, the bytes of
    each, and each lane's address and operands. -/
structure MemForm where
  kind : AccKind
  dst : Dst
  lanes : List Nat
  len : Nat
  ea : Nat → Nat
  data : Nat → Nat
  cmp : Nat → Nat

/-- A load of w bytes (R192, R195), and a store (R192, R195). -/
def Ctx.loadForm (c : Ctx) (w : Nat) (bypass : Bool) (d : Dst) (a b : Src) : MemForm :=
  ⟨.load w (w ≤ 2 && tySigned c.ty) bypass, d, c.loadLanes d, w, c.addr a b, fun _ => 0, fun _ => 0⟩
def Ctx.storeForm (c : Ctx) (w : Nat) (bypass : Bool) (d a b : Src) : MemForm :=
  ⟨.store w bypass, .none, c.lanes, w, c.addr a b, c.storeVal d w, fun _ => 0⟩

/-- The loads, stores and atomics (R190, R195, R236, R242, R243). -/
def Ctx.memForm (c : Ctx) : Instr → Option MemForm
  | .ldB d a b => some (c.loadForm 1 false d a b)
  | .ldH d a b => some (c.loadForm 2 false d a b)
  | .ldW d a b => some (c.loadForm 4 false d a b)
  | .ldD d a b => some (c.loadForm 8 false d a b)
  | .ldQ d a b => some (c.loadForm 16 false d a b)
  | .ldbyW d a b => some (c.loadForm 4 true d a b)
  | .ldbyD d a b => some (c.loadForm 8 true d a b)
  | .ldbyQ d a b => some (c.loadForm 16 true d a b)
  | .stB d a b => some (c.storeForm 1 false d a b)
  | .stH d a b => some (c.storeForm 2 false d a b)
  | .stW d a b => some (c.storeForm 4 false d a b)
  | .stD d a b => some (c.storeForm 8 false d a b)
  | .stQ d a b => some (c.storeForm 16 false d a b)
  | .stbyW d a b => some (c.storeForm 4 true d a b)
  | .stbyD d a b => some (c.storeForm 8 true d a b)
  | .stbyQ d a b => some (c.storeForm 16 true d a b)
  | .stl d a dbl off =>
    let w := if dbl then 8 else 4
    some ⟨.stl w, .none, c.lanes, w, c.offAddr a off, c.storeVal d w, fun _ => 0⟩
  | .amo d a b op => some ⟨.amo op, d, c.lanes, c.elemBytes, c.base a, c.srcTy c.ty b, fun _ => 0⟩
  | .cas d a b => some ⟨.cas, d, c.lanes, c.elemBytes, c.base a, c.srcTy c.ty b, c.srcTy c.ty (dstSrc d)⟩
  | .red a b op => some ⟨.red op, .none, c.lanes, c.elemBytes, c.base a, c.srcTy c.ty b, fun _ => 0⟩
  | _ => none

/-- A scope that the code may use now (R215, R272). -/
def State.scopeFree (s : State) (c : Ctx) (sc : Nat) : Prop :=
  (sc = 7 → s.sysScope c.t.vf = true) ∧ (sc = 5 → s.gated c.t = false)

/-- What an atomic, a CAS, a RED and an STL need before their lanes begin (R215, R236, R272). -/
def State.mayBegin (s : State) (c : Ctx) : Instr → Prop
  | .amo .. | .cas .. | .red .. => s.scopeFree c c.scope
  | .stl .. => s.scopeFree c c.scope ∧ c.sp.undel.1 = 0 ∧ s.released c.t c.scope c.ord = true
  | _ => True

/-- The lanes of a memory instruction, begun one after another in ascending order (R193). -/
def MemForm.run (f : MemForm) (s : State) (c : Ctx) : Lanes32 :=
  f.lanes.foldl (fun (x : Lanes32) l => x.add l (f.ea l) (x.s.lane c f.kind x.seen l (f.ea l) f.len (f.data l) (f.cmp l)))
    ⟨s, [], [], [], [], [], false⟩

/-- The path an access counts on: that of its lowest lane (R181). -/
def MemForm.path (f : MemForm) (x : Lanes32) (l : Nat) : Nat :=
  match (x.reqs ++ x.out).find? fun r => r.lane == l with
  | some r => pathOf (f.ea l) r.page
  | none => if isGlobal (f.ea l) then 0 else pathOf (f.ea l) none

/-- The requests of its lanes that leave the module, sent: those that go together in one (R192, R240). -/
def MemForm.sent (f : MemForm) (x : Lanes32) (c : Ctx) : State × List Req := x.s.sendAll (.core c.t.core) c.t.vf c.ty f.kind x.out

/-- The access of its lanes, registered with the faults of others that its trap will report; it counts on the path of lane l. -/
def MemForm.opened (f : MemForm) (x : Lanes32) (c : Ctx) (l : Nat) (counts : Bool) (errs : List (Nat × Nat × Nat)) : State :=
  (f.sent x c).1.openAccess c f.kind f.dst c.active (f.path x l) (x.reqs ++ (f.sent x c).2) false counts errs

/-- Every access of the instruction is aligned and lies in a window of the core or the die, at `loc l` (R163 to R169). -/
def MemForm.onChip (f : MemForm) (s : State) (c : Ctx) (loc : Nat → Nat) : Prop :=
  ∀ l ∈ f.lanes, f.ea l % f.len = 0 ∧ s.chipAt c.t l (f.ea l) f.len = some (.loc (loc l))

/-- Nothing of the terrace is outstanding, and its in-flight counters have room (R181). -/
def State.clear (s : State) (c : Ctx) : Prop := (∀ a ∈ s.accs, a.ter ≠ c.uid) ∧ ∀ p, c.t.inFlight p < 255

/-- A copy command without the bytes it keeps as they stood at its issue (R226). -/
def Cmd.plain (m : Cmd) : Cmd := { m with seen := [] }

/-- A memory instruction has passed its issue between two states: but for memory, the outstanding accesses, the number
    taken for it, what copy commands keep of the bytes it overwrites, its terrace's pending bits and in-flight instructions,
    the machine is as before. -/
structure Passed (s t : State) (c : Ctx) : Prop where
  apart : t.apart c.uid = { s.apart c.uid with mem := t.mem, accs := t.accs, fresh := t.fresh, cmds := t.cmds }
  commands : t.cmds.map Cmd.plain = s.cmds.map Cmd.plain
  here : ∃ u x, t.ter? c.uid = some u ∧ u.split? c.sid = some x ∧ u.regs = c.t.regs
    ∧ { u.others with flight := [] } = { c.t.others with flight := [] }
    ∧ x.pc = c.nextPc ∧ x.mask = c.sp.after.getD c.sp.mask ∧ x.hold = .none ∧ x.status = c.sp.status

/-- The value of an atomic's location after some of its lanes (R240, R241, R243). -/
def MemForm.after (f : MemForm) (c : Ctx) (ls : List Nat) (v : Nat) : Nat :=
  ls.foldl (fun v l => match f.kind.apply c.ty v (f.data l) (f.cmp l) with
    | some x => x % 2 ^ (8 * f.len)
    | none => v) v

/-- A result of words in the active lanes of a destination. -/
def State.give (s : State) (c : Ctx) (d : Dst) (ws : List Word) : State :=
  s.updTer c.uid fun t => t.writeDst d false c.active fun _ => ws

/-- The list an instruction names can be read, in the parts that one page each holds, and its bytes are `raw` (R151,
    R152). -/
def ListReads (s : State) (c : Ctx) (write : Bool) (va : Nat) (s1 : State) (ps : List ListPart) (raw : List Byte) : Prop :=
  ∃ s0 gets, va % 64 = 0 ∧ (c.scope = 7 → s.sysScope c.t.vf = true) ∧ s.gated c.t = false
    ∧ s.listParts c write va = (s0, .ok ps) ∧ (write = true → s.released c.t c.scope c.ord = true)
    ∧ (∀ p ∈ ps, s0.engBusy (Eng.ofTer c.t c.sp.supervisor s0.fresh) true p.q.ph.pa p.len = false)
    ∧ s0.listBusy c ps = false ∧ s0.listRead c va ps = (s1, gets, .bytes raw)

/-- The record of a bounded counter that an instruction names can be used (R348): at an aligned address of the global window
    that an undivided terrace may read, on an UNTRACKED or UPDATE page of die `k` without FMT, placed HOME, at `pa`. -/
structure RecordReady (s : State) (c : Ctx) (va pa k : Nat) : Prop where
  aligned : va % 64 = 0
  window : isGlobal va = true
  whole : c.t.divided = false
  page : ∃ s1 q, s.reach c.t c.die (some c.t.core) ⟨false, false, c.sp.supervisor⟩ va = (s1, .ok q)
    ∧ (q.ph.leaf.cls = clsUntracked ∨ q.ph.leaf.cls = clsUpdate) ∧ q.ph.leaf.fmt = false ∧ q.ph.leaf.place = 0
    ∧ q.ph.owner = .die k ∧ q.ph.pa = pa

/-- An instruction answers a next state in which its destination holds the words and its split stands after it. -/
def Gives (i : Instr) (s : State) (c : Ctx) (d : Dst) (wide : Bool) (ws : List Word) : Prop :=
  Answers (exec i s) fun t => ∃ u x, t.ter? c.uid = some u ∧ u.split? c.sid = some x
    ∧ u.regs = (c.t.writeDst d wide c.active fun _ => ws).regs ∧ x.pc = c.nextPc ∧ x.hold = .none

/-- An instruction answers a next state in which its core's allowance of a counter has changed, and it completes 12 cycles
    after its issue (R348). -/
def AllowanceBecomes (i : Instr) (s : State) (c : Ctx) (va : Nat) (allow : Nat) : Prop :=
  Answers (exec i s) fun t => ∃ u x k, t.ter? c.uid = some u ∧ u.split? c.sid = some x ∧ u.regs = c.t.regs
    ∧ x.hold = .wait (.cycle (c.now + 12)) ∧ x.kept = some (1, 0)
    ∧ t.bc? c.t.vf va = some k ∧ (k.holder? c.t.core).map (·.allow) = some allow

end Sys2Proof.Machine

open Sys2Proof Sys2Proof.Machine

/-! ## The machine -/

/-- Reset leaves memory in its canonical form, with no write under way. -/
def Obligations.ResetTidy : Prop := State.Tidy State.reset

/-- Every step keeps memory in its canonical form and leaves no write under way. -/
def Obligations.StepKeepsTidy : Prop := Keeps State.Tidy

/-- Every well-formed instruction's encoding decodes to it, whatever follows it in memory (R26 to R35, R57). -/
def Obligations.DecodeEncode : Prop :=
  ∀ (i : Instr) (rest : List Byte), WellFormed i = true →
    decode (encodeBytes i ++ rest) = .ok (i, 4 * (encode i).length)

/-- Whatever decodes is a well-formed instruction, and the bytes read are its encoding: each word has one meaning. -/
def Obligations.EncodeDecode : Prop :=
  ∀ (bs : List Byte) (i : Instr) (n : Nat), decode bs = .ok (i, n) →
    WellFormed i = true ∧ n = 4 * (encode i).length ∧ bs.take n = encodeBytes i

/-- Words of the spec's own examples, some of each family, decode to the instructions they stand for; the second number is the
    extension word. -/
def Obligations.WorkedWords : Prop :=
  ∀ x ∈ ([
    (0x810101FF, 0x80, .add (.v 1) (.v 1) (.imm 0x00000080) none),
    (0xA30A0506, 0xF44, .fma (.v 10) (.v 5) (.v 6) (some ⟨false, false, true, false, false, false, 0x3D⟩)),
    (0x2904020A, 0x0, .cvt (.v 4) (.v 2) 10 none),
    (0xB30302FF, 0x1, .shflXor (.v 3) (.v 2) (.imm 0x00000001) none),
    (0xB9000000, 0xFFFFFFD8, .brp 0 false 0xffffffd8),
    (0x4205E001, 0x0, .ldW (.v 5) (.s 0) (.v 1)),
    (0xCA0904FF, 0x80000, .stW (.v 9) (.v 4) (.imm 0x00080000)),
    (0xD5E8E4EC, 0x30030000, .cp 8 4 12 0 3 4),
    (0x58FF0003, 0x0, .fence .none 3),
    (0xDB05E001, 0x0, .amo (.v 5) (.s 0) (.v 1) 0),
    (0x6000E800, 0x0, .collAllreduce (.acc 0) 8 0),
    (0xE2E3FF01, 0x3, .gwid (.s 3) (.imm 0x00000003)),
    (0xE500FFE5, 0x80, .apush (.imm 0x00000080) (.s 5)),
    (0xE7E4E2FF, 0x0, .sigwait (.s 4) 2 (.imm 0x00000000)),
    (0xE801E0E4, 0xFFFF, .mma 1 0 4 128 128 4 false false),
    (0xEF01E8EC, 0x18BFFF, .mepi 1 8 12 128 128 2 6 false 0 0),
    (0xF100E0E4, 0x96883FFF, .attn 0 0 4 128 128 16 5 1 1 false true),
    (0x73E6E2E8, 0x0, .kvap (.s 6) 2 8),
    (0xF9E3E0FF, 0x80000008, .bctake (.s 3) 0 (.imm 0x80000008)),
    (0xF6FFFF09, 0x102, .cntcfg .none (.imm 0x00000102) 1),
    (0x7D04E400, 0x0, .syswr 4 (.s 4)),
    (0xFE00E4FF, 0x10, .shoot 4 (.imm 0x00000010))] : List (Nat × Nat × Instr)),
    decodeTableWord 64 (x.1 + x.2.1 * 2 ^ 32) = some x.2.2

/-- In a module that is neither frozen nor dark, the split chosen to issue runs the instruction that its bytes decode to; one
    whose instruction holds it in a wait goes on with that instruction (R27, R321, R374). -/
def Obligations.StepRunsDecoded : Prop :=
  ∀ (s : State) (x : Nat × Nat) (rest : List (Nat × Nat)) (t : Terrace) (sp : Split) (i : Instr),
    s.frozen = false → s.dark = false → s.issue = x :: rest → s.ter? x.1 = some t → t.split? x.2 = some sp →
      (∀ bs n, sp.held = none → s.nextWords t sp = some bs → decode bs = .ok (i, n) → step s = exec i s ∧ WellFormed i = true)
      ∧ (sp.held = some i → step s = exec i s)

/-- Bytes that are no instruction end in the illegal-instruction trap at their address; a word that names a latch is a member
    of its chain all the same (R50, R58, R60). -/
def Sys2Proof.Clause.StepTakesIllegalWord : Prop :=
  ∀ (s : State) (x : Nat × Nat) (rest : List (Nat × Nat)) (w : Word) (n : Nat) (c : Ctx),
    s.frozen = false → s.dark = false → s.issue = x :: rest → s.fetched x = .bad w n → s.issuer .nop = some c →
      let c' := { c with len := n, member := c.sp.memberWord w, headsChain := s.chainWord c.t c.sp w n }
      step s = .next (s.finish c' (.trap s ⟨0x01, 0, false, false, none, c.pc.toNat⟩ false))

/-- A frozen module, or one without supply, moves only by a reset, or while frozen by its read-out, and whatever else
    arrives is dropped (R423, R456). -/
def Obligations.FrozenMovesNot : Prop :=
  ∀ s : State, s.frozen = true ∨ s.dark = true →
    (s.agenda = [] → step s = .fault .frozen)
    ∧ ∀ i rest, s.agenda = i :: rest →
        ((∀ d, i ≠ .freezeReadout d) → i ≠ .reset → step s = .next { s with agenda := rest })
        ∧ (i = .reset → step s = .next (commit { s with agenda := rest } (State.afterReset { s with agenda := rest })))
        ∧ ((∃ d, i = .freezeReadout d) → s.wbuf = [] → step s = .next { s with agenda := rest })

/-- What the spec states of the module right after reset. -/
def Obligations.ResetValues : Prop :=
  let s := State.reset
  s.frozen = false ∧ s.dark = false ∧ s.ters = [] ∧ s.launches = [] ∧ s.teams = [] ∧ s.bcs = [] ∧ s.retired = []
    ∧ s.wdogUs = 50 ∧ s.parts = [] ∧ s.progress = []
    ∧ (∀ k, s.prog k = Prog.init) ∧ (∀ d, (s.die d).power = 0x00640019#32 ∧ (s.die d).boot = 0 ∧ (s.die d).attest = [])
    ∧ (∀ v, (s.tenant v).policy = 0 ∧ (s.tenant v).tvec = 0 ∧ (s.tenant v).elog = 0 ∧ (s.tenant v).vlog = 0
        ∧ (s.tenant v).ftpool = 0 ∧ (s.tenant v).stage = 0 ∧ (s.tenant v).ptroot = 0)

/-- Every instruction word that a split issues has a next state: none is refused and none stops the machine. -/
def Obligations.EveryIssueAnswers : Prop :=
  ∀ (i : Instr) (s : State) (c : Ctx), isWord i = true → s.issuer i = some c → Answers (exec i s) fun _ => True

/-- A form that TYPE does not allow ends in the illegal-instruction trap before any effect (R58, R60). -/
def Sys2Proof.Clause.IllegalFormTraps : Prop :=
  ∀ (i : Instr) (s : State) (c : Ctx), isWord i = true → s.issuer i = some c → c.resumed = false →
    issueFormOk i c.ty = false → Traps i s c s ⟨0x01, 0, false, false, none, c.pc.toNat⟩

/-- An instruction whose operands cannot be used ends in the illegal-operand trap before any effect (R59, R60). SYSRD,
    SYSWR, SHOOT and PART check the right to issue them first. -/
def Sys2Proof.Clause.IllegalOperandTraps : Prop :=
  ∀ (i : Instr) (s : State) (c : Ctx), isWord i = true → s.issuer i = some c → c.resumed = false →
    issueFormOk i c.ty = true → operandsOk c.t c.sp i = false →
    (match i with
     | .sysrd .. | .syswr .. | .syXreqWrite .. | .shoot .. | .part .. => True
     | _ => Traps i s c s ⟨0x02, 0, false, false, none, c.pc.toNat⟩)

/-- Bytes that are no instruction, a form that TYPE does not allow and operands that cannot be used end in their traps (R58 to
    R60). -/
def Obligations.IllegalInstructions : Prop := Clause.StepTakesIllegalWord ∧ Clause.IllegalFormTraps ∧ Clause.IllegalOperandTraps

/-! ## Memory and registers -/

/-- A byte written reads back, and a write leaves every other byte as it was; both outlast the step's end. -/
def Obligations.MemoryReadBack : Prop :=
  ∀ (s : State) (x : Nat) (bs : List Byte), s.wbuf = [] →
    let t := commit s (s.wrBytes x bs)
    (∀ k, k < bs.length → t.rdByte (x + k) = bs.getD k 0)
    ∧ (∀ y, y < x ∨ x + bs.length ≤ y → t.rdByte y = s.rdByte y)
    ∧ t.rdBytes x bs.length = bs

/-- A result goes to a v destination in the active lanes and nowhere else, to an s destination from the lowest active lane,
    and marks its pair wide exactly when it is 64 bits (R54, R189). -/
def Sys2Proof.Clause.DestinationWritten : Prop :=
  ∀ (t : Terrace) (m : Lanes) (wide : Bool) (f : Nat → Nat),
    (∀ n l k j, k < 32 → l < 32 → let u := t.writeDst (.v n) wide m fun l => resWords wide (f l)
      (m.getLsbD l = true → u.vget n l = BitVec.ofNat 32 (f l) ∧ (wide = true → u.vget (n + 1) l = BitVec.ofNat 32 (f l / 2 ^ 32)))
      ∧ ((m.getLsbD k = false ∨ (j ≠ n ∧ (wide = false ∨ j ≠ n + 1))) → u.vget j k = t.vget j k)
      ∧ (n % 2 = 0 → m.getLsbD l = true → u.vwide n l = wide)
      ∧ u.s = t.s ∧ u.p = t.p)
    ∧ (∀ n l j, lowLane m = some l → let u := t.writeDst (.s n) wide m fun l => resWords wide (f l)
      u.sget n = BitVec.ofNat 32 (f l) ∧ (wide = true → u.sget (n + 1) = BitVec.ofNat 32 (f l / 2 ^ 32))
      ∧ ((j ≠ n ∧ (wide = false ∨ j ≠ n + 1)) → u.sget j = t.sget j)
      ∧ (n % 2 = 0 → n < 16 → u.swide n = wide)
      ∧ u.v = t.v ∧ u.p = t.p)
    ∧ (∀ n, lowLane m = none → t.writeDst (.s n) wide m (fun l => resWords wide (f l)) = t)
    ∧ t.writeDst .none wide m (fun l => resWords wide (f l)) = t

/-- The guard of the mode word selects the active lanes among those of the split (R40). -/
def Sys2Proof.Clause.GuardSelectsLanes : Prop :=
  ∀ (t : Terrace) (sp : Split) (l : Nat), l < 32 →
    (activeOf t sp).getLsbD l =
      (sp.mask.getLsbD l && (!sp.mode.getLsbD 4 || ((t.pget (sp.mode.toNat % 8)).getLsbD l != sp.mode.getLsbD 3)))

/-- Which lanes are active, and what a result writes (R40, R54, R189). -/
def Obligations.GuardAndDestination : Prop := Clause.DestinationWritten ∧ Clause.GuardSelectsLanes

/-- What the end of every completed instruction adds to its effect, which is `s1` with the records of the errors it met
    (R416): the bytes written land, the split moves past it and waits for nothing, and but for the issue list, the
    performance counters, the pending bits and what the issue slots keep all stands as in `s1`. -/
def Sys2Proof.Clause.EndOfInstruction : Prop :=
  ∀ (s s0 : State) (c : Ctx) (vals : Option (Bool × List DWord)) (w : Terrace) (y : Split),
    let s1 := s0.noted s
    s1.flaws = [] → (s1.part? c.t.core c.t.vf).isSome = true → s1.ter? c.uid = some w → w.split? c.sid = some y →
    let t := s.finish c (.done s0 vals)
    t.apart c.uid = (commit s s1).apart c.uid ∧ t.issue = s1.issue.tail
    ∧ ∃ u x, t.ter? c.uid = some u ∧ u.split? c.sid = some x ∧ u.regs = w.regs ∧ u.others = w.others
        ∧ x.pc = c.nextPc ∧ x.mask = y.after.getD y.mask ∧ x.hold = .none ∧ x.status = y.status
        ∧ ∀ k, k ≠ c.sid → (u.split? k).map Split.bare = (w.split? k).map Split.bare

/-- An instruction that holds its split stands where it is until an event completes it. -/
def Sys2Proof.Clause.HeldInstruction : Prop :=
  ∀ (s s0 : State) (c : Ctx) (h : Hold) (w : Terrace) (y : Split),
    let s1 := s0.noted s
    (s1.part? c.t.core c.t.vf).isSome = true → s1.ter? c.uid = some w → w.split? c.sid = some y →
    let t := s.finish c (.hold s0 h)
    t.apart c.uid = (commit s s1).apart c.uid ∧ t.issue = s1.issue.tail
    ∧ ∃ u x, t.ter? c.uid = some u ∧ u.split? c.sid = some x ∧ u.regs = w.regs ∧ u.others = w.others
        ∧ x.pc = y.pc ∧ x.mask = y.mask ∧ x.hold = h ∧ x.held = some c.i ∧ x.status = y.status
        ∧ ∀ k, k ≠ c.sid → (u.split? k).map Split.bare = (w.split? k).map Split.bare

/-- An instruction that waits stands where it is, with what it will write pending, until the wait is over (R320, R322). -/
def Sys2Proof.Clause.WaitingInstruction : Prop :=
  ∀ (s s0 : State) (c : Ctx) (k : Wait) (w : Terrace) (y : Split),
    let s1 := s0.noted s
    (s1.part? c.t.core c.t.vf).isSome = true → s1.ter? c.uid = some w → w.split? c.sid = some y →
    let t := s.finish c (.wait s0 k)
    t.apart c.uid = (commit s s1).apart c.uid ∧ t.issue = s1.issue.tail
    ∧ ∃ u x, t.ter? c.uid = some u ∧ u.split? c.sid = some x ∧ u.regs = w.regs ∧ u.others = w.others
        ∧ x.pc = y.pc ∧ x.mask = y.mask ∧ x.hold = .wait k ∧ x.held = some c.i ∧ x.status = y.status
        ∧ (c.resumed = false → ∀ r ∈ writesOf c.sp.mode c.i, ⟨r, none, c.sid⟩ ∈ u.pending)
        ∧ ∀ k, k ≠ c.sid → (u.split? k).map Split.bare = (w.split? k).map Split.bare

/-- An instruction that does not issue yet leaves its split a candidate where it stands, and everything else as it was but
    that its slot chooses again (R324). -/
def Sys2Proof.Clause.StayingInstruction : Prop :=
  ∀ (s : State) (c : Ctx) (w : Terrace) (y : Split),
    c.resumed = false → s.wbuf = [] → s.ter? c.uid = some w → w.split? c.sid = some y →
    let t := s.finish c .stay
    t.apart c.uid = { s.apart c.uid with cores := t.cores } ∧ t.issue = s.issue.tail
    ∧ (∀ k, k ≠ c.t.core → t.core k = s.core k)
    ∧ ∃ u x, t.ter? c.uid = some u ∧ u.split? c.sid = some x ∧ u.regs = w.regs ∧ u.others = w.others
        ∧ x.pc = y.pc ∧ x.mask = y.mask ∧ x.hold = y.hold ∧ x.held = y.held ∧ x.window = y.window ∧ x.status = y.status
        ∧ u.pending = w.pending ∧ ∀ k, k ≠ c.sid → u.split? k = w.split? k

/-- What the end of an issued instruction adds to its effect, and what a held one, a waiting one and one that does not issue
    yet leave. -/
def Obligations.EndOfIssue : Prop :=
  Clause.EndOfInstruction ∧ Clause.HeldInstruction ∧ Clause.WaitingInstruction ∧ Clause.StayingInstruction

/-! ## Integer instructions -/

/-- Finish of an integer result: modulo 2^w, or saturated to the range of TYPE (R64). -/
def Obligations.IntegerFinish : Prop :=
  ∀ (ty : Nat) (r : Int), tyInt ty = true →
    let w := tyWidth ty
    let lo : Int := if tySigned ty then -(2 ^ (w - 1)) else 0
    let hi : Int := if tySigned ty then 2 ^ (w - 1) - 1 else 2 ^ w - 1
    finishInt ty false r < 2 ^ w ∧ finishInt ty true r < 2 ^ w
    ∧ ((2 ^ w : Nat) : Int) ∣ intOf ty (finishInt ty false r) - r
    ∧ lo ≤ intOf ty (finishInt ty false r) ∧ intOf ty (finishInt ty false r) ≤ hi
    ∧ intOf ty (finishInt ty true r) = max lo (min r hi)

/-- The exact results of the integer instructions, each wrapped or saturated once (R86, R88, R90, R94). -/
def Obligations.IntegerArithmetic : Prop :=
  ∀ (s : State) (c : Ctx) (d : Dst) (a b : Src) (m : Option Mods),
    let x := c.xInt m a
    let y := c.yInt m b
    IntRuns (.add d a b m) s c d m (fun l => x l + y l)
    ∧ IntRuns (.sub d a b m) s c d m (fun l => x l - y l)
    ∧ IntRuns (.mullo d a b m) s c d m (fun l => x l * y l)
    ∧ IntRuns (.mulhi d a b m) s c d m (fun l => x l * y l / ((2 ^ tyWidth c.ty : Nat) : Int))
    ∧ IntRuns (.mad d a b m) s c d m (fun l => x l * y l + intOf c.ty (c.srcTy c.ty (dstSrc d) l))
    ∧ IntRuns (.div d a b m) s c d m (fun l =>
        if y l = 0 then (if x l < 0 then tyMin c.ty else tyMax c.ty) else (x l).tdiv (y l))
    ∧ IntRuns (.rem d a b m) s c d m (fun l => if y l = 0 then x l else x l - y l * (x l).tdiv (y l))
    ∧ IntRuns (.min d a b m) s c d m (fun l => if x l ≤ y l then x l else y l)
    ∧ IntRuns (.max d a b m) s c d m (fun l => if x l ≤ y l then y l else x l)
    ∧ IntRuns (.abs d a m) s c d m (fun l => if x l < 0 then -x l else x l)
    ∧ IntRuns (.neg d a m) s c d m (fun l => -x l)

/-- ADDC and SUBB take their carry from p7 and leave the carry or borrow there, in the active lanes; a TYPE that is neither
    n32 nor n64 is the illegal-instruction trap (R89). -/
def Obligations.CarryChain : Prop :=
  ∀ (s : State) (c : Ctx) (d : Dst) (a b : Src) (m : Option Mods),
    let x := c.xInt m a
    let y := c.yInt m b
    let k := fun l => if (c.rt.pget 7).getLsbD l then (1 : Int) else 0
    let run := fun (i : Instr) (r : Nat → Int) (out : Nat → Bool) =>
      s.Issues i c → ∃ q : Lanes,
        Completes i s c (({ c.t with p := kset 0 c.t.p 7 q } : Terrace).writeDst d (ty64 c.ty) c.active fun l =>
          resWords (ty64 c.ty) (c.int m r l)) c.sp
        ∧ ∀ l, l < 32 → q.getLsbD l = if c.active.getLsbD l then out l else (c.t.pget 7).getLsbD l
    run (.addc d a b m) (fun l => x l + y l + k l) (fun l => decide (tyMax c.ty < x l + y l + k l))
    ∧ run (.subb d a b m) (fun l => x l - y l - k l) (fun l => decide (x l - y l - k l < 0))
    ∧ ∀ i ∈ [Instr.addc d a b m, .subb d a b m], s.issuer i = some c → c.resumed = false → c.ty ≠ 0 → c.ty ≠ 6 →
        Traps i s c s ⟨0x01, 0, false, false, none, c.pc.toNat⟩

/-- The bits of the logic, shift and bit-field instructions (R88, R91, R92, R94). -/
def Obligations.BitOperations : Prop :=
  ∀ (s : State) (c : Ctx) (d : Dst) (a b : Src) (m : Option Mods),
    let w := tyWidth c.ty
    let x := c.srcTy c.ty a
    let y := c.srcTy c.ty b
    let n := fun l => c.src b l % 256
    let pos := fun l => c.src b l % 64
    let len := fun l => min (c.src b l / 256 % 64) (if w = 64 then 64 else 32)
    BitsRun (.and d a b m) s c d (fun l k => (x l).testBit k && (y l).testBit k)
    ∧ BitsRun (.or d a b m) s c d (fun l k => (x l).testBit k || (y l).testBit k)
    ∧ BitsRun (.xor d a b m) s c d (fun l k => (x l).testBit k != (y l).testBit k)
    ∧ BitsRun (.andn d a b m) s c d (fun l k => (x l).testBit k && !(y l).testBit k)
    ∧ BitsRun (.not d a m) s c d (fun l k => !(x l).testBit k)
    ∧ BitsRun (.shl d a b m) s c d (fun l k => decide (n l ≤ k) && (x l).testBit (k - n l))
    ∧ BitsRun (.shr d a b m) s c d (fun l k => (x l).testBit (k + n l))
    ∧ BitsRun (.sar d a b m) s c d (fun l k => (x l).testBit (min (k + n l) (w - 1)))
    ∧ BitsRun (.rol d a b m) s c d (fun l k => (x l).testBit ((k + w - n l % w) % w))
    ∧ BitsRun (.bfx d a b m) s c d (fun l k =>
        if tySigned c.ty then decide (len l ≠ 0) && bitOfExt true w (x l) (min k (len l - 1) + pos l)
        else decide (k < len l) && bitOfExt false w (x l) (k + pos l))
    ∧ BitsRun (.bfi d a b m) s c d (fun l k =>
        if pos l ≤ k ∧ k < pos l + c.src b l / 256 % 64 then (x l).testBit (k - pos l)
        else (c.srcTy c.ty (dstSrc d) l).testBit k)
    ∧ BitsRun (.brev d a m) s c d (fun l k => (x l).testBit (w - 1 - k))
    ∧ NatRuns (.popc d a m) s c d (fun l => ((List.range w).filter fun k => (x l).testBit k).length)
    ∧ NatRuns (.clz d a m) s c d (fun l => if x l = 0 then w else w - 1 - Nat.log2 (x l))

/-- The moves: SEL, LEA, MOV, MOVI and MOVH (R93 to R96). -/
def Sys2Proof.Clause.Moves : Prop :=
  ∀ (s : State) (c : Ctx) (d : Dst) (a b : Src) (m : Option Mods) (neg : Bool) (p : Nat) (w : Word),
    ValueRuns (.sel d a b neg p) s c d (ty64 c.ty)
        (fun l => if (c.rt.pget p).getLsbD l = neg then c.moved b l else c.moved a l)
    ∧ ValueRuns (.lea d a b m) s c d true (fun l =>
        (BitVec.ofNat 64 (c.src64 a l) + (BitVec.ofNat 32 (c.src b l)).signExtend 64 * BitVec.ofNat 64 (tyWidth c.ty / 8)).toNat)
    ∧ ValueRuns (.mov d a m) s c d (ty64 c.ty) (c.moved a)
    ∧ ValueRuns (.movi d w) s c d false (fun _ => w.toNat)
    ∧ ValueRuns (.movh d w) s c d true (fun l => w.toNat * 2 ^ 32 + c.src (dstSrc d) l)

/-- CMP, FCMP and PSET write their predicate in the active lanes and leave its other lanes (R97, R98, R101). -/
def Sys2Proof.Clause.PredicateWrites : Prop :=
  ∀ (s : State) (c : Ctx) (cond p : Nat) (a b : Src) (m : Option Mods) (lanes : Bool),
    let x := c.xInt m a
    let y := c.yInt m b
    let u := c.xXr m a
    let v := c.yXr m b
    let un := fun l => (u l).isNan || (v l).isNan
    let k := fun l => Xr.cmp (u l) (v l)
    PredRuns (.cmp cond p a b m) s c p (fun l => match cond with
      | 0 => decide (x l = y l) | 1 => decide (x l ≠ y l) | 2 => decide (x l < y l) | 3 => decide (x l ≤ y l)
      | 4 => decide (y l < x l) | _ => decide (y l ≤ x l))
    ∧ PredRuns (.fcmp cond p a b m) s c p (fun l => match cond with
      | 0 => !un l && decide (k l = 0) | 1 => un l || decide (k l ≠ 0) | 2 => !un l && decide (k l < 0)
      | 3 => !un l && decide (k l ≤ 0) | 4 => !un l && decide (0 < k l) | 5 => !un l && decide (0 ≤ k l)
      | 6 => un l | _ => !un l)
    ∧ PredRuns (.pset p a lanes) s c p (fun l => (c.src a l).testBit (if lanes then l else 0))

/-- The moves and the predicate writes (R93 to R98, R101). That SEL and PSET accept every TYPE, and that SEL copies 32 bits
    under an 8- or 16-bit one, is the model's choice (log entry 47). -/
def Obligations.MovesAndPredicates : Prop := Clause.Moves ∧ Clause.PredicateWrites

/-! ## Floating point, conversion, generator -/

/-- The floating-point instructions: the exact value, rounded once (R99, R100, R102). -/
def Obligations.FloatArithmetic : Prop :=
  ∀ (s : State) (c : Ctx) (d : Dst) (a b : Src) (m : Option Mods),
    let x := c.xXr m a
    let y := c.yXr m b
    FpRuns (.fadd d a b m) s c d m (fun l => Xr.add c.rdn (x l) (y l))
    ∧ FpRuns (.fsub d a b m) s c d m (fun l => Xr.add c.rdn (x l) (y l).neg)
    ∧ FpRuns (.fmul d a b m) s c d m (fun l => Xr.mul (x l) (y l))
    ∧ FpRuns (.fma d a b m) s c d m (fun l => Xr.add c.rdn (Xr.mul (x l) (y l)) (c.val (dstSrc d) l))
    ∧ FpRuns (.fmin d a b m) s c d m (fun l => Xr.minmax false (x l) (y l))
    ∧ FpRuns (.fmax d a b m) s c d m (fun l => Xr.minmax true (x l) (y l))
    ∧ FpRuns (.fdiv d a b m) s c d m (fun l => Xr.div (x l) (y l))
    ∧ FpRuns (.frcp d a m) s c d m (fun l => Xr.rcp (x l))
    ∧ FpRuns (.frsq d a m) s c d m (fun l => Xr.rsqrt (x l))
    ∧ FpRuns (.fsqrt d a m) s c d m (fun l => Xr.sqrt (x l))
    ∧ FpRuns (.fexp2 d a m) s c d m (fun l => Xr.exp2 (x l))
    ∧ FpRuns (.flog2 d a m) s c d m (fun l => Xr.log2 (x l))
    ∧ FpRuns (.fsin d a m) s c d m (fun l => Xr.sin (x l))
    ∧ FpRuns (.fcos d a m) s c d m (fun l => Xr.cos (x l))
    ∧ FpRuns (.ftanh d a m) s c d m (fun l => Xr.tanh (x l))

/-- FRINT, FCLASS, and the conversions CVT, SRND, QPACK and QUNPK (R102 to R107). -/
def Sys2Proof.Clause.Conversions : Prop :=
  ∀ (s : State) (c : Ctx) (d : Dst) (a : Src) (t f : Nat) (m : Option Mods),
    let w := modsWord m
    let x := c.xXr m a
    let bits := if f < 4 then 4 else 8
    (s.Issues (.frint d a m) c → Completes (.frint d a m) s c (c.put d (ty64 c.ty) fun l =>
        finishXr w c.ty c.rnd (c.draw l 1) c.sat (integral c.rnd (c.draw l 0) (x l))) (c.stepped c.srMode))
    ∧ ValueRuns (.fclass d a m) s c d false (fun l =>
        let e := c.srcTy c.ty a l
        let z := (tyFmt c.ty).signBit
        classMask (tyFmt c.ty) ((e / z % 2 == 1 && !w.absa) != w.nega) (e % z))
    ∧ (s.Issues (.cvt d a t m) c → Completes (.cvt d a t m) s c (c.put d (ty64 t) fun l => extendTy t
        (finishXr w t c.rnd (c.draw l 0) c.sat (if tyInt c.ty then .ofInt (c.xInt m a l) else x l)))
        (c.stepped (c.srMode && !(tyInt c.ty && tyInt t))))
    ∧ (s.Issues (.srnd d a t m) c → Completes (.srnd d a t m) s c (c.put d (ty64 c.ty) fun l =>
        roundToType c.ty 0 0 false (valueOf t (finishXr w t 5 (c.draw l 0) c.sat (x l)))) (c.stepped true))
    ∧ (s.Issues (.qpack d a f m) c → ∃ r : Nat → Nat, Completes (.qpack d a f m) s c (c.put d false r) (c.stepped c.srMode)
        ∧ ∀ l k, k < 32 / bits → r l / 2 ^ (bits * k) % 2 ^ bits =
            (let j := 32 / bits * (l / (32 / bits)) + k
             if c.active.getLsbD j then roundToSet (elemFmt f) (modExp w) c.rnd (c.draw j 0) (c.sat || w.sat) (c.val a j) % 2 ^ bits
             else 0))
    ∧ (s.Issues (.qunpk d a f m) c → Completes (.qunpk d a f m) s c (c.put d (ty64 c.ty) (c.fp m fun l =>
        let code := c.src a l / 2 ^ (bits * (l % (32 / bits))) % 2 ^ bits
        if f < 4 then family4 f code else valueOf (fmtType f) code)) (c.stepped c.srMode))

/-- RNG draws, RNGST stores and RNGLD loads the split's generator (R68, R108). -/
def Sys2Proof.Clause.Generator : Prop :=
  ∀ (s : State) (c : Ctx) (d : Dst) (a : Src),
    (s.Issues (.rng d) c → Completes (.rng d) s c (c.put d false fun l => c.draw l 0) (c.stepped true))
    ∧ (s.Issues (.rngst d) c → Completes (.rngst d) s c
        (c.t.writeDst d false c.active fun _ => words2 c.sp.rk.toNat ++ words2 c.sp.rc.toNat) c.sp)
    ∧ (s.Issues (.rngld a) c → Completes (.rngld a) s c c.t (match lowLane c.active with
        | none => c.sp
        | some l => { c.sp with
            rk := BitVec.ofNat 64 (c.group a 0 l + c.group a 1 l * 2 ^ 32)
            rc := BitVec.ofNat 64 (c.group a 2 l + c.group a 3 l * 2 ^ 32) }))

/-- The conversions and the generator (R68, R102 to R108). That a CVT between integer types rounds by a draw under SR and
    leaves C is the model's choice (log entry 48). -/
def Obligations.ConversionsAndGenerator : Prop := Clause.Conversions ∧ Clause.Generator

/-! ## Lanes -/

/-- SHFL and BCAST move values among the active lanes (R110, R111). -/
def Obligations.LaneMoves : Prop :=
  ∀ (s : State) (c : Ctx) (d : Dst) (a b : Src) (m : Option Mods),
    let n := fun l => c.src b l
    MoveRuns (.shflIdx d a b m) s c d a (fun l => ((n l % 32 : Nat) : Int))
    ∧ MoveRuns (.shflUp d a b m) s c d a (fun l => (l : Int) - ((n l % 64 : Nat) : Int))
    ∧ MoveRuns (.shflDown d a b m) s c d a (fun l => (l : Int) + ((n l % 64 : Nat) : Int))
    ∧ MoveRuns (.shflXor d a b m) s c d a (fun l => ((l ^^^ (n l % 32) : Nat) : Int))
    ∧ ValueRuns (.bcast d a b m) s c d (ty64 c.ty) (fun _ =>
        let j := c.uni b % 32
        c.moved a (if c.active.getLsbD j then j else (lowLane c.active).getD 0))

/-- VOTE, and LRED and LSCAN over the running values of the active lanes (R112 to R114). That C advances for a floating-point
    minimum or maximum under SR is the model's reading (log entry 18). -/
def Obligations.VotesAndReductions : Prop :=
  ∀ (s : State) (c : Ctx) (d : Dst) (a : Src) (o : Nat) (excl : Bool),
    let x := c.src a
    let red := c.srMode && !tyInt c.ty
    ValueRuns (.voteAny d a) s c d false (fun _ => if ∃ l ∈ c.lanes, x l ≠ 0 then 1 else 0)
    ∧ ValueRuns (.voteAll d a) s c d false (fun _ => if ∀ l ∈ c.lanes, x l ≠ 0 then 1 else 0)
    ∧ ValueRuns (.voteUni d a) s c d false (fun _ => if ∀ l ∈ c.lanes, ∀ k ∈ c.lanes, x l = x k then 1 else 0)
    ∧ (s.Issues (.voteBallot d a) c → ∃ q : Lanes, Completes (.voteBallot d a) s c (c.put d false fun _ => q.toNat) c.sp
        ∧ ∀ l, l < 32 → q.getLsbD l = (c.active.getLsbD l && x l != 0))
    ∧ (s.Issues (.lred d a o) c → Completes (.lred d a o) s c
        (c.put d (ty64 c.ty) fun _ => extendTy c.ty ((c.running o a).getLastD 0)) (c.stepped red))
    ∧ (s.Issues (.lscan d a excl o) c → Completes (.lscan d a excl o) s c
        (c.put d (ty64 c.ty) fun l => extendTy c.ty
          (kget 0 (c.lanes.zip (if excl then scanIdentity c.ty o :: c.running o a else c.running o a)) l)) (c.stepped red))

/-- The running values of integer reductions: the exact sum, least, greatest, and the bits of and, or and xor, over the
    active lanes up to each (R113). -/
def Obligations.RunningValues : Prop :=
  ∀ (c : Ctx) (a : Src) (k : Nat), tyInt c.ty = true → k < c.lanes.length →
    let ls := c.lanes.take (k + 1)
    let v := fun l => intOf c.ty (c.srcTy c.ty a l)
    let x := fun l => c.srcTy c.ty a l
    let fin := finishInt c.ty c.sat
    (c.running 0 a).getD k 0 = fin (ls.map v).sum
    ∧ (∃ l ∈ ls, (c.running 1 a).getD k 0 = fin (v l) ∧ ∀ j ∈ ls, v l ≤ v j)
    ∧ (∃ l ∈ ls, (c.running 2 a).getD k 0 = fin (v l) ∧ ∀ j ∈ ls, v j ≤ v l)
    ∧ (∀ n, ((c.running 3 a).getD k 0).testBit n = ls.all fun l => (x l).testBit n)
    ∧ (∀ n, ((c.running 4 a).getD k 0).testBit n = ls.any fun l => (x l).testBit n)
    ∧ (∀ n, ((c.running 5 a).getD k 0).testBit n = decide ((ls.filter fun l => (x l).testBit n).length % 2 = 1))

/-! ## Control flow -/

/-- MODE, NOP and the reads of the device's registers change nothing but their destination or the mode word (R39, R122,
    R128, R145, R284, R378, R379, R394). -/
def Obligations.ModeNopAndReads : Prop :=
  ∀ (s : State) (c : Ctx) (d : Dst) (a : Src) (w : BitVec 16) (n v : Nat),
    (s.Issues (.mode w) c → Completes (.mode w) s c c.t { c.sp with mode := w })
    ∧ (s.Issues .nop c → Completes .nop s c c.t c.sp)
    ∧ (s.Issues (.sysrd d n) c → (sysUser n = true ∨ c.sp.supervisor = true) →
        Completes (.sysrd d n) s c (c.put d (sysReg64 n) fun _ => s.sysReg c n) c.sp)
    ∧ (s.Issues (.cntrd d n) c → Completes (.cntrd d n) s c
        (c.put d true fun _ => s.cntValue c.t.vf ((s.counters8 c).getD n ⟨0, 0⟩)) c.sp)
    ∧ (s.Issues (.mprog d n) c → s.slotHeld c.t n = true → Completes (.mprog d n) s c
        (c.put d false fun _ => progWord (s.prog (c.t.slot n)) c.t.apx) c.sp)
    ∧ (s.Issues (.macrd v a n) c → s.slotHeld c.t n = true → s.roundBusy (c.t.slot n) = false → s.claimed c.t n = false →
        c.uni a ≤ 127 → Completes (.macrd v a n) s c
          (c.t.writeDst (.v v) false c.active fun l => (List.range 4).map fun j => s.accGet (c.t.slot n) (c.uni a) (32 * j + l)) c.sp)
    ∧ (s.Issues (.gview d) c → s.gated c.t = false →
        Completes (.gview d) s c (c.t.writeDst d false c.active fun _ => s.viewWords c.t) c.sp)
    ∧ (s.Issues (.grank d a) c → s.gated c.t = false → Completes (.grank d a) s c (c.put d false fun _ =>
        match c.t.gang.bind s.gang? with | some g => g.members.getD (c.uni a) 0xFFFFFFFF | none => 0xFFFFFFFF) c.sp)

/-- The split of a transfer whose lanes all go to one address stands there, with those lanes; CALL's link is the address
    after it (R116, R120, R121). -/
def Obligations.BranchesTogether : Prop :=
  ∀ (s : State) (c : Ctx) (d : Dst) (a : Src) (off : Word) (p : Nat) (neg : Bool) (x : Nat),
    let aim := c.pc + off.signExtend 64
    let pr := c.rt.pget p
    let taken := c.active &&& (if neg then ~~~pr else pr)
    let go := fun (i : Instr) (w : Terrace) (pc : DWord) => Answers (exec i s) fun t => Stands s t c w c.sp pc c.sp.mask
    c.sp.mask ≠ 0 →
    (s.Issues (.bra off) c → c.active = c.sp.mask → go (.bra off) c.t aim)
    ∧ (s.Issues (.brp p neg off) c → taken = c.sp.mask → go (.brp p neg off) c.t aim)
    ∧ (s.Issues (.brp p neg off) c → taken = 0 → go (.brp p neg off) c.t c.nextPc)
    ∧ (s.Issues (.call d off) c → c.active = c.sp.mask → go (.call d off) (c.put d true fun _ => c.nextPc.toNat) aim)
    ∧ (s.Issues (.jmpr a) c → c.active = c.sp.mask → x % 4 = 0 → (∀ l ∈ c.lanes, c.src64 a l = x) →
        go (.jmpr a) c.t (BitVec.ofNat 64 x))
    ∧ (s.Issues (.ret a) c → c.active = c.sp.mask → x % 4 = 0 → (∀ l ∈ c.lanes, c.src64 a l = x) →
        go (.ret a) c.t (BitVec.ofNat 64 x))

/-- A transfer that divides its split (R116): while the terrace has room it becomes two splits, the taken lanes going on as
    the split itself; in a terrace of four splits the lanes that wait go on its stack; beyond eight entries it traps. That the
    entries of a handler's frame count is the model's reading (log entry 16), and that a BRP to the next instruction divides
    its choice (log entry 39). -/
def Obligations.BranchDivides : Prop :=
  ∀ (s : State) (c : Ctx) (off : Word) (p : Nat) (neg : Bool),
    let i := Instr.brp p neg off
    let aim := c.pc + off.signExtend 64
    let pr := c.rt.pget p
    let taken := c.active &&& (if neg then ~~~pr else pr)
    let rest := c.sp.mask &&& ~~~taken
    let depth := c.sp.stack.length + (match c.sp.frame with | some f => f.stack.length | none => 0)
    s.Issues i c → taken ≠ 0 → rest ≠ 0 →
    (c.t.splits.length ≤ 3 → c.t.split? s.fresh = none → Answers (exec i s) fun t =>
      ∃ u x z, t.ter? c.uid = some u ∧ u.split? c.sid = some x ∧ u.split? s.fresh = some z
        ∧ x.pc = aim ∧ x.mask = taken ∧ z.pc = c.nextPc ∧ z.mask = rest ∧ z.stack = [] ∧ x.stack = c.sp.stack
        ∧ (x.mode, x.rk, x.rc) = (c.sp.mode, c.sp.rk, c.sp.rc) ∧ (z.mode, z.rk, z.rc) = (c.sp.mode, c.sp.rk, c.sp.rc)
        ∧ u.regs = c.t.regs ∧ u.splits.length = c.t.splits.length + 1)
    ∧ (4 ≤ c.t.splits.length → depth + 1 ≤ 8 → Answers (exec i s) fun t =>
      ∃ u x, t.ter? c.uid = some u ∧ u.split? c.sid = some x ∧ x.pc = aim ∧ x.mask = taken
        ∧ x.stack = ⟨false, c.nextPc, rest, c.sp.mode, c.sp.rk, c.sp.rc⟩ :: c.sp.stack
        ∧ u.regs = c.t.regs ∧ u.splits.length = c.t.splits.length)
    ∧ (4 ≤ c.t.splits.length → 8 < depth + 1 → Traps i s c s ⟨0x03, 0, false, false, none, c.pc.toNat⟩)

/-- NOP.merge (R117, R118): the next entry of the stack runs while the lanes that reached the marker wait; with no stack the
    split stops there until the terrace's other splits have; a terrace's only split goes on. -/
def Sys2Proof.Clause.MergeMarker : Prop :=
  ∀ (s : State) (c : Ctx), s.Issues .nopMerge c → c.sp.after = none →
    (∀ e r, c.sp.stack = e :: r → e.waiting = false → (∀ o ∈ c.t.splits, o.stopped = false) →
      Answers (exec .nopMerge s) fun t =>
        ∃ u x, t.ter? c.uid = some u ∧ u.split? c.sid = some x ∧ x.pc = e.pc ∧ x.mask = e.mask ∧ x.stopped = false
          ∧ (x.mode, x.rk, x.rc) = (e.mode, e.rk, e.rc)
          ∧ x.stack = ⟨true, c.pc, c.sp.mask, c.sp.mode, c.sp.rk, c.sp.rc⟩ :: r ∧ u.regs = c.t.regs)
    ∧ (c.sp.stack = [] → c.sp.frame = none → (∃ o ∈ c.t.splits, o.sid ≠ c.sid ∧ o.stopped = false ∧ o.frame = none) →
      (∀ o ∈ c.t.splits, o.frame = none) →
      Answers (exec .nopMerge s) fun t =>
        ∃ u x, t.ter? c.uid = some u ∧ u.split? c.sid = some x ∧ x.pc = c.pc ∧ x.mask = c.sp.mask ∧ x.stopped = true
          ∧ u.regs = c.t.regs)
    ∧ (c.sp.stack = [] → c.sp.frame = none → c.t.splits = [c.sp] → Answers (exec .nopMerge s) fun t =>
        ∃ u x, t.ter? c.uid = some u ∧ u.splits = [x] ∧ x.pc = c.pc + 4 ∧ x.mask = c.sp.mask ∧ x.stopped = false
          ∧ x.status = c.sp.status ∧ u.regs = c.t.regs)

/-- EXIT ends the active lanes (R119, R122): the others go on after it; a split with none left goes on as its stack's top
    entry, or ceases to exist. -/
def Sys2Proof.Clause.ExitEndsLanes : Prop :=
  ∀ (s : State) (c : Ctx), s.Issues .exit c → c.sp.after = none → c.sp.frame = none →
    let left := c.sp.mask &&& ~~~c.active
    (left ≠ 0 → Answers (exec .exit s) fun t => Stands s t c c.t c.sp c.nextPc left)
    ∧ (∀ e r, left = 0 → c.sp.stack = e :: r → e.waiting = false → (∀ o ∈ c.t.splits, o.stopped = false) →
      Answers (exec .exit s) fun t =>
        ∃ u x, t.ter? c.uid = some u ∧ u.split? c.sid = some x ∧ x.pc = e.pc ∧ x.mask = e.mask ∧ x.stack = r
          ∧ (x.mode, x.rk, x.rc) = (e.mode, e.rk, e.rc) ∧ u.regs = c.t.regs)
    ∧ (left = 0 → c.sp.stack = [] → (∃ o ∈ c.t.splits, o.sid ≠ c.sid ∧ o.stopped = false ∧ o.frame = none) →
      (∀ o ∈ c.t.splits, o.frame = none) → Answers (exec .exit s) fun t =>
        ∃ u, t.ter? c.uid = some u ∧ u.split? c.sid = none ∧ u.regs = c.t.regs)

/-- NOP.merge and EXIT (R117 to R119, R122). -/
def Obligations.MergeAndExit : Prop := Clause.MergeMarker ∧ Clause.ExitEndsLanes

/-- YIELD keeps its split from its slot's next choice, and SLEEP its split for its count of cycles (R335, R336). -/
def Obligations.YieldAndSleep : Prop :=
  ∀ (s : State) (c : Ctx) (a : Src),
    let n := min (c.uniAll a) 1048576
    let yields := fun (i : Instr) => Answers (exec i s) fun t => Passes s t c c.t c.sp
      ∧ ∀ p, t.part? c.t.core c.t.vf = some p →
          (p.slotState.getD (c.t.ter / 16) SlotState.init).yielded = some (c.uid, c.sid)
    c.t.ter < 64 →
    (s.Issues .yield c → yields .yield)
    ∧ (s.Issues (.sleep a) c → n = 0 → yields (.sleep a))
    ∧ (s.Issues (.sleep a) c → n ≠ 0 → Answers (exec (.sleep a) s) fun t =>
        t.apart c.uid = s.apart c.uid ∧ ∃ u x, t.ter? c.uid = some u ∧ u.split? c.sid = some x ∧ u.regs = c.t.regs
          ∧ x.pc = c.nextPc ∧ x.hold = .sleep (c.now + n + 1) ∧ x.status = c.sp.status)

/-! ## Traps and the return from them -/

/-- Taking a trap (R397, R399): the frame saves where and with which lanes and status the split goes on, the cause and
    the address are set, and the faulted lanes enter the handler at SY_TVEC with MODE 0 and an empty stack. -/
def Sys2Proof.Clause.TrapEntry : Prop :=
  ∀ (s : State) (i : Instr) (c : Ctx) (tr : Trap) (counted : Bool),
    s.Issues i c → c.sp.frame = none → (s.tenant c.t.vf).tvec ≠ 0 →
    let t := s.finish c (.trap s tr counted)
    ∃ u x f, t.ter? c.uid = some u ∧ u.split? c.sid = some x ∧ x.frame = some f
      ∧ u.regs = c.t.regs ∧ u.others = c.t.others
      ∧ x.pc = (s.tenant c.t.vf).tvec ∧ x.mask = tr.fmask.getD c.sp.mask ∧ x.mode = 0 ∧ x.stack = []
      ∧ x.tcause = f.cause ∧ x.taddr = f.addr ∧ x.window = [] ∧ (x.rk, x.rc) = (c.sp.rk, c.sp.rc)
      ∧ f.rpc = (if tr.after then c.nextPc else if c.headsChain then (if c.member then c.sp.head else c.pc) else c.pc)
      ∧ f.rmask = c.sp.after.getD 0 ||| c.sp.mask ∧ f.fmask = tr.fmask.getD c.sp.mask
      ∧ (f.rmode, f.rk, f.rc) = (c.sp.mode, c.sp.rk, c.sp.rc) ∧ f.stack = c.sp.stack
      ∧ f.cause.toNat % 256 = tr.code % 256 ∧ f.cause.toNat / 2 ^ 16 % 256 = tr.sub % 256
      ∧ (tr.code < 256 → f.cause.getLsbD 15 = tr.fetch ∧ f.cause.getLsbD 14 = c.headsChain ∧ f.cause.getLsbD 13 = tr.after
          ∧ f.cause.getLsbD 12 = c.t.service.isSome)
      ∧ f.addr = BitVec.ofNat 64 tr.addr

/-- A trap is logged: with no log of its tenant set up, its record goes to the hypervisor's log, and nothing else of the
    machine changes (R12, R399, R420). -/
def Sys2Proof.Clause.TrapLogged : Prop :=
  ∀ (s : State) (i : Instr) (c : Ctx) (tr : Trap) (counted : Bool),
    s.Issues i c → c.sp.frame = none → (s.tenant c.t.vf).tvec ≠ 0 → (s.tenant c.t.vf).elog = 0 → (s.tenant c.t.vf).vlog = 0 →
    let t := s.finish c (.trap s tr counted)
    t.apart c.uid = { s.apart c.uid with
      fresh := s.fresh + 1
      hlog := s.hlog ++ [s.recordBytes c.t.vf ⟨tr.addr, c.pc.toNat, tr.code, tr.sub, c.t.core, c.t.ter, c.die, 0⟩ s.hlog.length] }

/-- What a trap leaves in its frame and its split, and its record (R12, R397, R399, R420). That the handler starts with an empty
    stack, and that the outer one stays in the frame, is the model's reading (log entry 16). -/
def Obligations.TrapEntryAndLog : Prop := Clause.TrapEntry ∧ Clause.TrapLogged

/-- TRAP takes the software trap with its number, after it has completed; with no active lane it does nothing (R403). -/
def Sys2Proof.Clause.SoftwareTrap : Prop :=
  ∀ (s : State) (c : Ctx) (n : Nat), s.Issues (.trap n) c →
    (c.active ≠ 0 → Traps (.trap n) s c s ⟨0x30, n, false, true, some c.active, c.pc.toNat⟩)
    ∧ (c.active = 0 → Completes (.trap n) s c c.t c.sp)

/-- TRET leaves the handler (R404): status, generator and stack are the frame's; after an AFTER trap or one in a chain
    every lane goes on at the saved address, else the faulted lanes run the instruction again and the others rejoin. -/
def Sys2Proof.Clause.TrapReturn : Prop :=
  ∀ (s : State) (c : Ctx) (f : Frame),
    s.Issues .tret c → c.sp.frame = some f → c.sp.mask = f.fmask → s.released c.t 1 c.ord = true → c.t.service = none →
    Answers (exec .tret s) fun t => t.apart c.uid = s.apart c.uid
      ∧ ∃ u x, t.ter? c.uid = some u ∧ u.split? c.sid = some x ∧ u.regs = c.t.regs ∧ x.frame = none ∧ x.pc = f.rpc
        ∧ (x.mode, x.rk, x.rc, x.stack) = (f.rmode, f.rk, f.rc, f.stack) ∧ x.window = [] ∧ x.hold = .none
        ∧ (x.mask, x.after) = (if f.afterBit || f.chainBit || f.fmask == f.rmask then (f.rmask, none) else (f.fmask, some f.rmask))

/-- What TRET needs: a handler, and all the lanes of the frame; else it traps (R404). -/
def Sys2Proof.Clause.TrapReturnRefused : Prop :=
  ∀ (s : State) (c : Ctx), s.Issues .tret c →
    (c.sp.frame = none ∨ ∃ f, c.sp.frame = some f ∧ c.sp.mask ≠ f.fmask) →
    Traps .tret s c s ⟨0x02, 0, false, false, none, c.pc.toNat⟩

/-- TRAP and TRET (R403, R404). That TRET restores the stack from the frame is the model's reading (log entry 16). -/
def Obligations.SoftwareTrapAndReturn : Prop := Clause.SoftwareTrap ∧ Clause.TrapReturn ∧ Clause.TrapReturnRefused

/-- Code without the right to it ends in the access violation with the instruction's address, before any effect: a system
    register it may not read or write, SHOOT, and PART without MGR (R373, R375, R378). -/
def Sys2Proof.Clause.PrivilegeTraps : Prop :=
  ∀ (s : State) (c : Ctx) (i : Instr), s.issuer i = some c → c.resumed = false → issueFormOk i c.ty = true →
    (match i with
     | .sysrd _ n => sysUser n = false ∧ c.sp.frame = none
     | .syswr n _ => sysWritable n = false ∨ c.sp.frame = none
     | .syXreqWrite _ | .shoot _ _ => c.sp.frame = none
     | .part _ _ _ => c.sp.frame = none ∨ (s.tenant c.t.vf).policy.getLsbD 3 = false
     | _ => False) →
    Traps i s c s ⟨0x11, 0, false, false, none, c.pc.toNat⟩

/-- Supervisor code writes a system register of its virtual function from the lowest active lane, and no other (R378,
    R379). -/
def Sys2Proof.Clause.SystemRegisterWritten : Prop :=
  ∀ (s : State) (c : Ctx) (n : Nat) (a : Src) (l : Nat),
    s.Issues (.syswr n a) c → sysWritable n = true → c.sp.frame.isSome = true → lowLane c.active = some l →
    c.t.vf ∈ s.tenants.map (·.1) →
    Ends (.syswr n a) s c (s.setTenant c.t.vf ((s.tenant c.t.vf).write n (BitVec.ofNat 64 (c.src64 a l))))
    ∧ Answers (exec (.syswr n a) s) fun t =>
        t.tenant c.t.vf = (s.tenant c.t.vf).write n (BitVec.ofNat 64 (c.src64 a l))
        ∧ ∀ v, v ≠ c.t.vf → t.tenant v = s.tenant v

/-- Who may write a system register, and what the write does (R373, R375, R378, R379). That SYSRD and SYSWR check the right
    before their operands is the model's reading (log entry 30). -/
def Obligations.PrivilegeAndSystemWrites : Prop := Clause.PrivilegeTraps ∧ Clause.SystemRegisterWritten

/-! ## Memory instructions -/

/-- LD, ST, LDBY, STBY, STL, AMO, CAS and RED whose lanes all begin (R192, R193, R242): the access is registered, counted
    on the path of its lowest lane, and the split goes on; a load or atomic that another module or the host answers keeps the
    split's next instruction back (log entry 41). -/
def Sys2Proof.Clause.MemoryInstructionsIssue : Prop :=
  ∀ (i : Instr) (s : State) (c : Ctx) (f : MemForm) (l : Nat) (r : List Nat),
    s.Issues i c → c.memForm i = some f → f.lanes = l :: r → s.mayBegin c i → s.ownRegBusy c f.lanes f.ea f.len = false →
    let x := f.run s c
    x.stay = false → x.faults = [] → c.t.inFlight (f.path x l) < 255 →
    (if f.kind.holds x.reqs x.out = true then Holds i s c (f.opened x c l true []) (.access (f.sent x c).1.fresh)
     else Ends i s c (f.opened x c l true []))

/-- A memory instruction with no active lane does nothing (R193). -/
def Sys2Proof.Clause.MemoryInstructionsIdle : Prop :=
  ∀ (i : Instr) (s : State) (c : Ctx) (f : MemForm),
    s.Issues i c → c.memForm i = some f → f.lanes = [] → s.mayBegin c i → Completes i s c c.t c.sp

/-- How a load, a store and an atomic begin (R192, R193, R242). -/
def Obligations.MemoryInstructions : Prop := Clause.MemoryInstructionsIssue ∧ Clause.MemoryInstructionsIdle

/-- Lanes that cannot make their access trap together, and the others of the instruction go on (R193): a misaligned
    address is cause 0x14, an address outside every window 0x11. Where others wait for an answer from outside the module, the
    trap follows it (log entry 41). RED's failures of translation are other (R244). -/
def Obligations.AccessFaults : Prop :=
  ∀ (i : Instr) (s : State) (c : Ctx) (f : MemForm),
    (∀ l, f.ea l % f.len ≠ 0 → s.lane c f.kind [] l (f.ea l) f.len (f.data l) (f.cmp l) = (s, .fault 0x14))
    ∧ (∀ l, f.ea l % f.len = 0 → f.kind.block = false → isGlobal (f.ea l) = false → s.chipAt c.t l (f.ea l) f.len = none →
        s.lane c f.kind [] l (f.ea l) f.len (f.data l) (f.cmp l) = (s, .fault 0x11))
    ∧ (s.Issues i c → c.memForm i = some f → s.mayBegin c i → s.ownRegBusy c f.lanes f.ea f.len = false →
        let x := f.run s c
        ∀ e r, x.stay = false → x.faults = e :: r → (∀ op, f.kind ≠ .red op) →
          let whole : Option Lanes := some (maskOf (x.faults.map (·.1)))
          let tr : Trap := ⟨e.2.1, 0, false, false, whole, e.2.2⟩
          let first := f.lanes.find? fun l => !(x.faults.map (·.1)).contains l
          (first = none → f.kind.holds x.reqs x.out = false → Traps i s c (x.s.logLanes c.t c.pc.toNat r) tr)
          ∧ (∀ l, first = some l → f.kind.holds x.reqs x.out = false →
              Traps i s c ((f.opened x c l false []).logLanes c.t c.pc.toNat r) tr)
          ∧ (∀ l, first = some l → f.kind.holds x.reqs x.out = true →
              Holds i s c (f.opened x c l false x.faults) (.access (f.sent x c).1.fresh)))

/-- A store to a window of the core or the die writes each active lane's bytes there, the higher lane's over a lower's, and
    changes no other byte and no register (R190, R192, R194). -/
def Obligations.OnChipStores : Prop :=
  ∀ (i : Instr) (s : State) (c : Ctx) (f : MemForm) (loc : Nat → Nat),
    s.Issues i c → c.memForm i = some f → (match f.kind with | .store .. | .stl _ => True | _ => False) → s.mayBegin c i →
    f.onChip s c loc → s.clear c → Answers (exec i s) fun t =>
      Passed s t c ∧ t.accs = s.accs
      ∧ (∀ y, (∀ l ∈ f.lanes, y < loc l ∨ loc l + f.len ≤ y) → t.rdByte y = s.rdByte y)
      ∧ ∀ l ∈ f.lanes, (∀ k ∈ f.lanes, l < k → loc k + f.len ≤ loc l ∨ loc l + f.len ≤ loc k) → t.rdNat (loc l) f.len = f.data l

/-- A load from a window of the core or the die is outstanding after its issue, with one request for each lane, and changes
    no byte and no register (R181, R192). -/
def Obligations.OnChipLoads : Prop :=
  ∀ (i : Instr) (s : State) (c : Ctx) (f : MemForm) (loc : Nat → Nat),
    s.Issues i c → c.memForm i = some f → (match f.kind with | .load .. => True | _ => False) →
    f.onChip s c loc → f.lanes ≠ [] → (∀ p, c.t.inFlight p < 255) → Answers (exec i s) fun t =>
      Passed s t c ∧ (∀ y, t.rdByte y = s.rdByte y)
      ∧ ∃ a : Access, t.accs = s.accs ++ [a] ∧ (a.id, a.ter, a.kind, a.dst) = (s.fresh, c.uid, f.kind, f.dst)
          ∧ a.reqs = f.lanes.map fun l => ⟨l, f.ea l, loc l, f.len, none, none, 0, 0, none, 0, false, [], false⟩

/-- Atomics whose lanes all go to one location of a window are performed there at issue, lane after lane in ascending
    order (R238, R240): the location holds the last value, each lane of AMO and CAS will receive the value it found, and no
    other byte changes. -/
def Obligations.OnChipAtomics : Prop :=
  ∀ (i : Instr) (s : State) (c : Ctx) (f : MemForm) (x : Nat),
    s.Issues i c → c.memForm i = some f → f.kind.atomic = true → s.scopeFree c c.scope →
    f.onChip s c (fun _ => x) → f.lanes ≠ [] → s.clear c → Answers (exec i s) fun t =>
      Passed s t c
      ∧ t.rdNat x f.len = f.after c f.lanes (s.rdNat x f.len)
      ∧ (∀ y, (y < x ∨ x + f.len ≤ y) → t.rdByte y = s.rdByte y)
      ∧ (if f.kind.returning = true then
          ∃ a : Access, t.accs = s.accs ++ [a] ∧ (a.id, a.ter, a.kind, a.dst) = (s.fresh, c.uid, f.kind, f.dst)
            ∧ a.reqs.map (fun r => (r.lane, r.bound)) = f.lanes.map fun l =>
                (l, some (f.after c (f.lanes.filter fun k => k < l) (s.rdNat x f.len)))
         else t.accs = s.accs)

/-- What LOAD_RETURN and STORE_ACKNOWLEDGEMENT do (R182, R192, R194): a load's lane receives the bytes at its place, sign-
    extended as its TYPE says; a store's bytes stand at their physical address, and no other byte changes; where other cores share
    its UPDATE line it ends once they have applied it (R177; when is the model's choice, log entry 8). -/
def Obligations.AccessesComplete : Prop :=
  ∀ (s : State) (a : Access) (m : Lanes),
    (s.access? a.ter a.id = some a → s.mayComplete a m = true →
      ((a.kind.returning = true ∨ ∃ level, a.kind = .pref level) → Occurs (.loadReturn a.ter a.id m) s (s.loadReturn a m))
      ∧ ((match a.kind with | .store .. | .stf | .stl _ | .red _ | .sig => True | _ => False) →
          Occurs (.storeAcknowledgement a.ter a.id m) s (s.storeStep a m)))
    ∧ (∀ (r : Req) (t : Terrace) (w : Nat) (sg by_ : Bool),
        s.access? a.ter a.id = some a → s.mayComplete a (1#32 <<< r.lane) = true → r.lane < 32 →
        a.kind = .load w sg by_ → a.reqs = [r] → r.page = none → r.reg = none → r.bound = none → r.len = w → w ∈ [1, 2, 4, 8, 16] →
        a.errs = [] → a.low = none → (∀ b ∈ s.accs, b.id = a.id → b = a) → s.flaws = [] → s.wbuf = [] → s.ter? a.ter = some t →
        let v := s.rdNat r.loc w
        let ws := if w ≤ 2 ∧ sg = true then [BitVec.ofInt 32 (signExt (8 * w) v)] else if w ≤ 4 then [BitVec.ofNat 32 v] else wordsOf (w / 4) v
        Answers (exec (.loadReturn a.ter a.id (1#32 <<< r.lane)) s) fun t' =>
          t'.access? a.ter a.id = none ∧ (∀ y, t'.rdByte y = s.rdByte y)
          ∧ ∃ u, t'.ter? a.ter = some u ∧ u.regs = (t.writeDst a.dst (decide (8 ≤ w)) (1#32 <<< r.lane) fun _ => ws).regs)
    ∧ (∀ (r : Req) (ph : Phys) (d w : Nat) (by_ : Bool),
        s.access? a.ter a.id = some a → s.mayComplete a (1#32 <<< r.lane) = true → r.lane < 32 →
        a.kind = .store w by_ → a.reqs = [r] → r.page = some ph → ph.owner = .die d → ph.leaf.cls ≠ clsCommute →
        a.errs = [] → s.flaws = [] → s.wbuf = [] → (∀ p, s.part? a.core a.vf = some p → p.nearLine ph.pa = none) →
        r.bound = none → s.sharedAfar a r = false → Answers (exec (.storeAcknowledgement a.ter a.id (1#32 <<< r.lane)) s) fun t' =>
          t'.access? a.ter a.id = none
          ∧ (∀ k, k < r.len → t'.rdByte (ph.pa + k) = BitVec.ofNat 8 (r.data / 256 ^ k))
          ∧ ∀ y, y < ph.pa ∨ ph.pa + r.len ≤ y → t'.rdByte y = s.rdByte y)
    ∧ (∀ (r : Req) (ph : Phys) (d w : Nat) (by_ : Bool),
        s.access? a.ter a.id = some a → s.mayComplete a (1#32 <<< r.lane) = true → r.lane < 32 →
        a.kind = .store w by_ → a.reqs = [r] → r.page = some ph → ph.owner = .die d → a.errs = [] → s.flaws = [] → s.wbuf = [] →
        (∀ p, s.part? a.core a.vf = some p → p.nearLine ph.pa = none) →
        (s.sharedAfar a r = true → Answers (exec (.storeAcknowledgement a.ter a.id (1#32 <<< r.lane)) s) fun t' =>
          (t'.access? a.ter a.id = none ∨ ∃ b, t'.access? a.ter a.id = some b ∧ b.reqs = [{ r with bound := some 0 }])
          ∧ (∀ k, k < r.len → t'.rdByte (ph.pa + k) = BitVec.ofNat 8 (r.data / 256 ^ k))
          ∧ ∀ y, y < ph.pa ∨ ph.pa + r.len ≤ y → t'.rdByte y = s.rdByte y)
        ∧ (r.sent = true → Answers (exec (.storeAcknowledgement a.ter a.id (1#32 <<< r.lane)) s) fun t' =>
          t'.access? a.ter a.id = none ∧ (∀ y, t'.rdByte y = s.rdByte y)
          ∧ ∀ p ∈ t'.parts, ∀ l ∈ p.lines, ∀ e ∈ l.due, e.1 ≠ a.id))

/-- LDF and STF of a whole terrace read and write one block for the lowest active lane (R197, R198); LDF and LDA hold their
    split until they have returned (R76, R235). PREF counts one access (R199); with no page to read it does nothing. -/
def Obligations.BlocksAndPrefetches : Prop :=
  ∀ (s : State) (c : Ctx) (d : Dst) (x a b : Src) (off : Option Word) (dbl : Bool) (level l : Nat),
    lowLane c.active = some l →
    let begins := fun (i : Instr) (f : MemForm) (fin : State → State) =>
      s.ownRegBusy c f.lanes f.ea f.len = false →
      let y := f.run s c
      y.stay = false → y.faults = [] → c.t.inFlight (f.path y (f.lanes.headD 0)) < 255 →
        let s2 := f.opened y c (f.lanes.headD 0) true []
        (if f.kind.holds y.reqs y.out = true then Holds i s c s2 (.access (f.sent y c).1.fresh) else Ends i s c (fin s2))
    (s.Issues (.ldf d a b) c → c.t.divided = false →
      begins (.ldf d a b) ⟨.ldf, d, [l], 64, c.addr a b, fun _ => 0, fun _ => 0⟩ fun s2 => c.advance s2 c.srMode)
    ∧ (s.Issues (.stf x a b) c → c.t.divided = false → controlOk (c.group x 3 31) = true →
      begins (.stf x a b) ⟨.stf, .none, [l], 64, c.addr a b, fun _ => bytesNat (c.stfBlock x (c.group x 3 31)), fun _ => 0⟩
        fun s2 => c.advance s2 c.srMode)
    ∧ (s.Issues (.lda d a dbl off) c → s.scopeFree c c.scope →
      let w := if dbl then 8 else 4
      begins (.lda d a dbl off)
        ⟨.lda w (decide (2 ≤ c.t.effScope c.scope)), d, c.loadLanes d, w, c.offAddr a off, fun _ => 0, fun _ => 0⟩
        fun s2 => s2.acquire c.t c.scope)
    ∧ (s.Issues (.pref level a b) c →
        let reads := fun k => isGlobal (c.addr a b k) = true ∧
          match (s.reach c.t c.die none ⟨false, false, c.sp.supervisor⟩ (c.addr a b k)).2 with
          | .ok q => q.ph.owner ≠ .host
          | .error _ => True
        let r := c.lanes.foldl (fun (x : State × List Req) l =>
          let y := x.1.prefLane c level (x.2.map (·.ea)) l (c.addr a b l)
          (y.1, x.2 ++ y.2.toList)) (s, [])
        ((∀ k ∈ c.lanes, ¬ reads k) → Completes (.pref level a b) s c c.t c.sp)
        ∧ ((∃ k ∈ c.lanes, reads k) → c.t.inFlight 0 < 255 →
          Ends (.pref level a b) s c (r.1.openAccess c (.pref level) .none c.active 0 r.2 false true [])))

/-! ## Fences, copies and crossings -/

/-- FENCE, ACQ and REL with nothing left to wait for (R231, R232): an acquire removes lines from the core's L1; the number
    of undelivered writes is the status, or the link-down trap where nothing takes it. WAITP and INVL (R200, R201). -/
def Obligations.FencesAndRemovals : Prop :=
  ∀ (s : State) (c : Ctx) (d : Dst) (a b : Src) (sc path : Nat) (p : Part),
    let n := c.sp.undel.1
    let st := BitVec.ofNat 32 (if n = 0 then 0 else 2 ^ 31 + min n 0xFFFF)
    let ended := fun (i : Instr) (s1 : State) =>
      let s2 := s1.updSplit c.uid c.sid fun x => { x with undel := (0, 0) }
      (n = 0 ∨ d ≠ .none → Ends i s c (s2.give c d [st]))
      ∧ (n ≠ 0 → d = .none → Traps i s c s2 ⟨0x19, 0, false, true, none, c.sp.undel.2⟩)
    (s.Issues (.fence d sc) c → s.scopeFree c sc → s.released c.t sc c.ord = true → s.returnedAll c.t sc c.ord = true →
      ended (.fence d sc) (s.acquire c.t sc))
    ∧ (s.Issues (.acq d sc) c → s.scopeFree c sc → s.returnedAll c.t sc c.ord = true → ended (.acq d sc) (s.acquire c.t sc))
    ∧ (s.Issues (.rel d sc) c → s.scopeFree c sc → s.released c.t sc c.ord = true → ended (.rel d sc) s)
    ∧ (s.Issues (.rel d sc) c → s.scopeFree c sc → s.released c.t sc c.ord = false → Waits (.rel d sc) s c s (.released sc c.ord))
    ∧ (s.Issues (.waitp path a) c → c.t.inFlight path ≤ c.uniAll a → Completes (.waitp path a) s c c.t c.sp)
    ∧ (s.Issues (.waitp path a) c → c.uniAll a < c.t.inFlight path →
        Waits (.waitp path a) s c s (.path path (c.uniAll a)))
    ∧ (s.part? c.t.core c.t.vf = some p →
        let ls := ((c.lanes.map fun l => c.addr a b l).filter isGlobal).map (· / 64)
        let hit := fun (l : Line) => l.asid == (s.tenant c.t.vf).asid && ls.contains l.line
        let all := fun (_ : Line) => true
        (s.Issues (.invl a b) c → Ends (.invl a b) s c
          (((s.nearFlush c.t.core p.pidx hit).l1Drop c.t.core p.pidx hit).noKeep c.t.core c.t.vf fun r =>
            r.page.isSome && ls.contains (r.ea / 64)))
        ∧ (s.Issues .invlAll c → Ends .invlAll s c
          (((s.nearFlush c.t.core p.pidx all).l1Drop c.t.core p.pidx all).noKeep c.t.core c.t.vf fun _ => true)))

/-- CP and RQNT hand a command to the copy engine, counted on the copy path and in the open batch; CPS seals the batch
    and CPW passes when the batches up to its number hold no command (R202, R203, R207 to R209). -/
def Obligations.CopyInstructions : Prop :=
  ∀ (s : State) (c : Ctx) (d a b sswz dswz rows rnd newf : Nat) (sat : Bool) (q : Dst) (x : Src),
    let r := fun n => (c.rt.sget n).toNat
    let dst := c.src64 (.s d) 0
    let src := c.src64 (.s a) 0
    let cp := Instr.cp d a b sswz dswz rows
    let rqnt := Instr.rqnt a b sat rnd newf
    let row := fun (base stride i : Nat) => (base + i * stride) % 2 ^ 64
    (s.Issues cp c → c.active = 0 → Completes cp s c c.t c.sp)
    ∧ (s.Issues cp c → c.active ≠ 0 → r b % 16 = 0 → r b ≠ 0 → r b ≤ 1048576 → dst % 16 = 0 → src % 16 = 0 →
        r (d + 2) % 16 = 0 → r (a + 2) % 16 = 0 → (r (d + 2) = 0 ∨ r b ≤ r (d + 2)) →
        (∀ i, i < rows → s.rangeOk c.t (row src (r (a + 2)) i) (r b) = true ∧ s.rangeOk c.t (row dst (r (d + 2)) i) (r b) = true) →
        (r (d + 3) = 0 ∨ ∃ y, s.alleyAt c.t (r (d + 3)) = .ok y ∧ ((s.alley y).record c.t.sender c.t.ter).isSome = true) →
        (s.gated c.t = false ∨ ∀ i, i < rows →
          s.stagedRange c.t c.sp.supervisor (c.t.domain 1) (row dst (r (d + 2)) i) (r b) = false) →
        c.t.inFlight 3 < 255 →
        Ends cp s c (s.issueCmd c (.cp dst (r (d + 2)) src (r (a + 2)) (r b) rows sswz dswz) (r (d + 3))))
    ∧ (s.Issues cp c → c.active ≠ 0 → (r b % 16 ≠ 0 ∨ r b = 0 ∨ 1048576 < r b ∨ dst % 16 ≠ 0 ∨ src % 16 ≠ 0
          ∨ r (d + 2) % 16 ≠ 0 ∨ r (a + 2) % 16 ≠ 0 ∨ (r (d + 2) ≠ 0 ∧ r (d + 2) < r b)) →
        Traps cp s c s ⟨0x02, 0, false, false, none, c.pc.toNat⟩)
    ∧ (s.Issues rqnt c → c.active = 0 → Completes rqnt s c c.t c.sp)
    ∧ (s.Issues rqnt c → c.active ≠ 0 → src % 64 = 0 → r b ≤ 16777216 → c.t.inFlight 3 < 255 →
        let rn := if rnd = 6 then c.rnd else rnd
        Ends rqnt s c (c.advance (s.issueCmd c (.rqnt src (r b) newf rn (sat || c.sat)) 0) (rn == 5)))
    ∧ (s.Issues (.cps q) c → s.unsettled c.t < 16 →
        let n := if (c.t.lastBatch + 1) % 2 ^ 32 = 0 then 1 else (c.t.lastBatch + 1) % 2 ^ 32
        Ends (.cps q) s c (s.updTer c.uid fun t =>
          ({ t with openBatch := [], lastBatch := n, sealedBatches :=
              (t.sealedBatches.filter fun e => !s.complete1 e.2) ++ [(n, t.openBatch)] } : Terrace).writeDst q false c.active
            fun _ => [BitVec.ofNat 32 n]))
    ∧ (s.Issues (.cpw x) c → c.t.lastBatch ≠ 0 → c.uniAll x ≠ 0 →
        (c.t.lastBatch + 2 ^ 32 - c.uniAll x) % 2 ^ 32 < 2 ^ 31 → s.batchCmds c.t (c.uniAll x) = [] →
        Completes (.cpw x) s c c.t c.sp)

/-- Arrivals and departures (R252 to R254): CROSSA counts an arrival and gives its number; CROSS and PHASE arrive and then
    wait; a departure, once the crossing has completed, takes the lines away and gives its status, a conflict that nothing
    takes being the stage-conflict trap. -/
def Obligations.Crossings : Prop :=
  ∀ (s : State) (c : Ctx) (d : Dst) (ph : Bool),
    let k := c.t.domain (if ph then 0 else 1)
    let a := c.t.arrivals k
    let x := s.dom k
    let i := if ph then Instr.phase d else .cross d
    let arrived := (s.setDom k { x with started := max x.started (a + 1) }).updTer c.uid fun t =>
      { t.setArrivals k (a + 1) with parted := if ph then t.parted else none }
    let may := c.t.divided = false ∧ a ≤ x.crossings ∧ s.copyOpen c.t k = false ∧ s.released c.t (domScope k) c.ord = true
    let departs := fun (i : Instr) (n : Nat) => (ph = true ∨ c.t.parted = none) → n ≠ 0 → n ≤ x.crossings →
      s.returnedAll c.t (domScope k) c.ord = true →
      let st := crossStatus x.nconf (c.t.earlySeen k < x.early)
      let s1 := (s.updTer c.uid fun t => t.seeEarly k x.early).acquire c.t (domScope k)
      (x.nconf = 0 ∨ d ≠ .none → Ends i s c (s1.give c d [BitVec.ofNat 32 st]))
      ∧ (x.nconf ≠ 0 → d = .none → Traps i s c s1 ⟨0x1A, 0, false, true, none, c.pc.toNat⟩)
    (ph = false → s.Issues (.crossa d) c → may → Ends (.crossa d) s c (arrived.give c d [BitVec.ofNat 32 a]))
    ∧ (s.Issues i c → c.sp.kept = none → may → x.crossings ≤ a →
        Waits i s c (arrived.keep c 1 (a + 1)) (.crossing k a))
    ∧ (∀ w n, s.Issues i c → c.t.divided = false → c.sp.kept = some (w, n) → departs i n)
    ∧ (ph = false → s.Issues (.crossw d) c → c.t.divided = false → departs (.crossw d) a)
    ∧ (ph = false → s.Issues (.crossw d) c → c.t.divided = false → c.t.parted = none → a = 0 →
        Completes (.crossw d) s c (c.put d false fun _ => 0) c.sp)

/-- GSET and GWID (R273, R282, R283): GSET gives the status of its binding; GWID leaves its request with the terrace. -/
def Sys2Proof.Clause.GangInstructions : Prop :=
  ∀ (s : State) (c : Ctx) (d : Dst) (a : Src),
    let w := c.uni a
    let va := c.base a ((lowLane c.active).getD ((lowLane c.sp.mask).getD 0))
    let st := if c.t.gang = none then 2 else if w = 0 ∨ 64 < w then 1 else 0
    s.gated c.t = false →
    (s.Issues (.gset d a) c → a = .zero → ∀ s1 n, s.gset c none = (s1, .status n) →
        Ends (.gset d a) s c (s1.give c d [BitVec.ofNat 32 n]))
    ∧ (s.Issues (.gset d a) c → a ≠ .zero → va % 256 = 0 → isGlobal va = true → ∀ s1 s2 ph n,
        s.translate c.t.vf c.die (some c.t.core) ⟨true, false, c.sp.supervisor⟩ va = (s1, .ok ph) →
        (ph.leaf.cls = clsUntracked ∨ ph.leaf.cls = clsUpdate) → ph.leaf.fmt = false → s1.gset c (some va) = (s2, .status n) →
        Ends (.gset d a) s c (s2.give c d [BitVec.ofNat 32 n]))
    ∧ (s.Issues (.gset d a) c → a ≠ .zero → (va % 256 ≠ 0 ∨ isGlobal va = false) →
        Traps (.gset d a) s c s ⟨0x11, 0, false, false, none, va⟩)
    ∧ (s.Issues (.gwid d a) c → Ends (.gwid d a) s c
        ((if st = 0 then s.updTer c.uid fun t => { t with widthReq := some (w, t.gangArr) } else s).give c d [BitVec.ofNat 32 st]))

/-- Quarters and register growth (R301 to R306). -/
def Sys2Proof.Clause.QuartersAndGrowth : Prop :=
  ∀ (s : State) (c : Ctx) (a b : Src),
    let q := c.uniAll a
    let m := c.uniAll b
    let n := c.uniAll a
    let base := s.baseRegs c.t
    let mine := s.quarters.filter fun x => x.launch == c.t.launch && x.die == c.die
    let bad : Trap := ⟨0x02, 0, false, false, none, c.pc.toNat⟩
    (s.Issues (.join a b) c → c.t.divided = false → c.t.quarter = none → q ≠ 0xFFFFFFFF → 1 ≤ m → m ≤ 65535 →
        ((mine.find? fun x => x.id.toNat == q) = none → mine.length < 1024 →
          Ends (.join a b) s c (({ s with
            fresh := s.fresh + 1, quarters := s.quarters ++ [(⟨s.fresh, BitVec.ofNat 32 q, c.t.launch, c.die, m, 1, 0, 0⟩ : Quarter)] }).updTer
              c.uid fun t => { t with quarter := some s.fresh }))
        ∧ ∀ x, (mine.find? fun x => x.id.toNat == q) = some x →
          (x.m = m → x.j ≠ x.m → Ends (.join a b) s c
            ((s.updQuarter x.uid fun x => { x with j := x.j + 1 }).updTer c.uid fun t => { t with quarter := some x.uid }))
          ∧ ((x.m ≠ m ∨ x.j = x.m) → Traps (.join a b) s c s bad))
    ∧ (s.Issues .leave c → c.t.divided = false → Ends .leave s c (s.leaveQuarter c.t))
    ∧ (s.Issues .leave c → c.t.divided = true → Traps .leave s c s bad)
    ∧ (s.Issues .qbar c → c.t.divided = false → c.t.quarter = none → s.released c.t 1 c.ord = true → s.returnedAll c.t 1 c.ord = true →
        Completes .qbar s c c.t c.sp)
    ∧ (∀ u x ph, s.Issues .qbar c → c.t.divided = false → c.t.quarter = some u → (s.quarters.find? fun q => q.uid == u) = some x →
        (c.t.arrived = none → s.released c.t 2 c.ord = true →
          (Quarter.settle { x with a := x.a + 1 }).phase ≤ x.phase →
          Waits .qbar s c ((s.updQuarter u fun q => Quarter.settle { q with a := q.a + 1 }).updTer c.uid fun t =>
            { t with arrived := some x.phase }) (.quarter x.phase))
        ∧ (c.t.arrived = some ph → ph < x.phase → s.returnedAll c.t 2 c.ord = true →
          Ends .qbar s c ((s.acquire c.t 2).updTer c.uid fun t => { t with arrived := none })))
    ∧ (s.Issues (.rgrow a) c → c.t.divided = false → n % 8 = 0 → n ≤ s.maxRegs c.t →
        (n ≤ c.t.nregs → Completes (.rgrow a) s c c.t c.sp)
        ∧ (c.t.nregs < n → base < c.t.nregs → Ends (.rgrow a) s c
          ((s.updTeam c.t.team fun m => { m with pool := m.pool - (n - c.t.nregs) / 8 }).updTer c.uid fun t => t.growTo n)))
    ∧ (s.Issues (.rshrink a) c → c.t.divided = false → n % 8 = 0 → base ≤ n →
        (c.t.nregs ≤ n → Completes (.rshrink a) s c c.t c.sp)
        ∧ (n < c.t.nregs → Ends (.rshrink a) s c
          (((s.updTer c.uid fun t => { t with nregs := n }).updTeam c.t.team fun m =>
            { m with pool := m.pool + (c.t.nregs - n) / 8, places := if n = base then m.places + 1 else m.places }).grantPlaces
              c.t.team)))

/-- The instructions of gangs, quarters and register growth (R273, R282, R283, R301 to R306). -/
def Obligations.GangsQuartersGrowth : Prop := Clause.GangInstructions ∧ Clause.QuartersAndGrowth

/-! ## Alleys, signals, barrier objects and collectives -/

/-- AOPEN, APOP, ATRY and APUSH (R308 to R310): the handle at an alley's head leaves it for the oldest waiter, and a push
    uses one entry of its sender's allowance. -/
def Obligations.Alleys : Prop :=
  ∀ (s : State) (c : Ctx) (d : Dst) (a b : Src) (x : Nat),
    let y := s.alley x
    let q := if (s.popQueue x).contains c.uid then s.popQueue x else s.popQueue x ++ [c.uid]
    let p := (s.setPopQueue x (q.filter (· != c.uid))).alleyPop x
    s.alleyAt c.t (c.uniAll a) = .ok x →
    (s.Issues (.aopen a) c → (y.record c.t.sender c.t.ter).isSome = true → Completes (.aopen a) s c c.t c.sp)
    ∧ (∀ i, s.Issues (.aopen a) c → y.record c.t.sender c.t.ter = none →
        ((List.range 8).find? fun i => !sndUsed (y.snd.getD i 0)) = some i →
        Ends (.aopen a) s c ((s.setAlley x (Alley.settle { y with snd := y.snd.set i (mkSnd 0 c.t.sender c.t.ter) })).updTer c.uid
          fun t => { t with opened := x :: t.opened }))
    ∧ (s.Issues (.apop d a) c → c.sp.kept = none → q.head? = some c.uid → y.empty = false →
        (p.2.returnedAll c.t 3 c.ord = true → Ends (.apop d a) s c ((p.2.acquire c.t 3).give c d [p.1])))
    ∧ (s.Issues (.apop d a) c → c.sp.kept = none → (q.head? ≠ some c.uid ∨ y.empty = true) →
        Waits (.apop d a) s c (s.setPopQueue x q) (.alley x))
    ∧ (s.Issues (.atry d a) c → c.sp.kept = none → y.empty = true → Ends (.atry d a) s c (s.give c d [0, 0]))
    ∧ (s.Issues (.atry d a) c → c.sp.kept = none → y.empty = false → (s.alleyPop x).2.returnedAll c.t 3 c.ord = true →
        Ends (.atry d a) s c (((s.alleyPop x).2.acquire c.t 3).give c d [(s.alleyPop x).1, 1]))
    ∧ (∀ i, s.Issues (.apush a b) c → y.record c.t.sender c.t.ter = some i → s.released c.t 3 c.ord = true →
        (sndAllow (y.snd.getD i 0) ≠ 0 → Ends (.apush a b) s c (s.alleyPush x i (BitVec.ofNat 32 (c.uniAll b))))
        ∧ (sndAllow (y.snd.getD i 0) = 0 → Waits (.apush a b) s c s (.allow x)))
    ∧ (s.Issues (.apush a b) c → y.record c.t.sender c.t.ter = none →
        Traps (.apush a b) s c s ⟨0x02, 0, false, false, none, c.pc.toNat⟩)

/-- SIGDEC's decrement is an outstanding access on its signal's page, and SIGWAIT gives the signal's value once it meets the
    threshold (R312 to R315). -/
def Sys2Proof.Clause.Signals : Prop :=
  ∀ (s : State) (c : Ctx) (err : Bool) (d : Dst) (a : Nat) (b : Src) (s1 : State) (ph : Phys) (k : Nat),
    let va := c.src64 (.s a) 0
    let dec := Instr.sigdec err a b
    let wt := Instr.sigwait d a b
    let path := pathOf va (some ph)
    (s.Issues dec c → c.active = 0 → Completes dec s c c.t c.sp)
    ∧ (s.Issues wt c → c.active = 0 → Completes wt s c c.t c.sp)
    ∧ (s.Issues dec c → c.active ≠ 0 → c.sp.undel.1 = 0 →
        s.signalAt c.t.vf c.die (some c.t) ⟨true, false, c.sp.supervisor⟩ va = (s1, .ok ph) → ph.owner = .die k →
        s.released c.t 7 c.ord = true → c.t.inFlight path < 255 → (s1.meetMem c.t.vf ph.pa 8).2 = false →
        Ends dec s c ((s1.meetMem c.t.vf ph.pa 8).1.openAccess c .sig .none c.active path
          [⟨(lowLane c.active).getD 0, va, ph.pa, 8, none, some ph, c.uniAll b, err.toNat, none, 0, false, [], false⟩] false true []))
    ∧ (s.Issues wt c → c.active ≠ 0 → c.sp.kept = none →
        s.signalAt c.t.vf c.die (some c.t) ⟨false, false, c.sp.supervisor⟩ va = (s1, .ok ph) → ph.owner = .die k →
        let m := s1.meetMem c.t.vf ph.pa 8
        let v := m.1.rdNat ph.pa 8
        m.2 = false →
        (signalMet v (c.uniAll b) = true → m.1.returnedAll c.t 7 c.ord = true →
          Ends wt s c ((m.1.acquire c.t 7).updTer c.uid fun t => t.writeDst d true c.active fun _ => words2 v))
        ∧ (signalMet v (c.uniAll b) = false → Waits wt s c m.1 (.signal ph.pa (c.uniAll b))))
    ∧ (∀ v n e, v < 2 ^ 64 → signalNext v n e =
        (v % 2 ^ 63 - n) + if 2 ^ 63 ≤ v ∨ v % 2 ^ 63 < n ∨ e = true then 2 ^ 63 else 0)

/-- Barrier objects (R260 to R262): ABINIT writes the object, ABARV arrives and gives the phase it arrived in, ABWAIT
    passes when the object has left the phase. -/
def Sys2Proof.Clause.BarrierObjects : Prop :=
  ∀ (s : State) (c : Ctx) (n : Nat) (d : Dst) (x a : Src) (loc : Nat),
    s.barrierAt c.t (c.uniAll a) = .ok loc →
    (s.Issues (.abinit n a) c → let v := (c.rt.sget n).toNat
      (1 ≤ v → v ≤ 65535 → Ends (.abinit n a) s c ((s.wrNat loc 16 v).healChip loc 16))
      ∧ ((v = 0 ∨ 65535 < v) → Traps (.abinit n a) s c s ⟨0x02, 0, false, false, none, c.pc.toNat⟩))
    ∧ (s.Issues (.abarv d a) c → s.scopeFree c c.scope → s.released c.t c.scope c.ord = true → s.meetChip loc 16 = false →
        let ph := s.rdNat (loc + 8) 4
        let k := (s.rdNat (loc + 4) 4 + 1) % 2 ^ 32
        Ends (.abarv d a) s c ((if k = s.rdNat loc 4 then (s.wrNat (loc + 4) 4 0).wrNat (loc + 8) 4 ((ph + 1) % 2 ^ 32)
          else s.wrNat (loc + 4) 4 k).give c d [BitVec.ofNat 32 ph]))
    ∧ (s.Issues (.abwait x a) c → s.scopeFree c c.scope → s.meetChip loc 16 = false →
        (phasePassed (s.rdNat (loc + 8) 4) (c.uniAll x) = true → s.returnedAll c.t c.scope c.ord = true →
          Ends (.abwait x a) s c (s.acquire c.t c.scope))
        ∧ (phasePassed (s.rdNat (loc + 8) 4) (c.uniAll x) = false →
          Waits (.abwait x a) s c s (.barrier loc (c.uniAll x))))

/-- Signals and barrier objects (R260 to R262, R312 to R315). -/
def Obligations.SignalsAndBarriers : Prop := Clause.Signals ∧ Clause.BarrierObjects

/-- CGBIND gives a handle or the status of its group record, and a COLL issues its member's part of a round (R256, R257,
    R263, R264). -/
def Obligations.GroupsAndCollectives : Prop :=
  ∀ (s : State) (c : Ctx) (n a red : Nat) (x : Src) (tile : Tile),
    let va := match x with | .imm w => w.toNat | x => c.base x ((lowLane c.active).getD ((lowLane c.sp.mask).getD 0))
    let e := Eng.ofTer c.t c.sp.supervisor s.fresh
    let gives := fun (s1 : State) (v : Nat) => Ends (.cgbind n x) s c (s1.give c (.s n) [BitVec.ofNat 32 v])
    let colls := fun (i : Instr) (kind red : Nat) =>
      s.Issues i c → c.t.divided = false →
        (c.active = 0 → Completes i s c c.t c.sp)
        ∧ (c.active ≠ 0 → (∀ k, tile = .acc k → s.slotHeld c.t k = true ∧ s.roundBusy (c.t.slot k) = false ∧ s.claimed c.t k = false) →
          (∀ args, s.collArgs c tile kind red a = some args → s.released c.t 2 c.ord = true → Ends i s c (s.collIssue c.t args))
          ∧ (s.collArgs c tile kind red a = none → Traps i s c s ⟨0x02, 0, false, false, none, c.pc.toNat⟩))
    (s.Issues (.cgbind n x) c →
      (va % 16 ≠ 0 → gives s 0x80000001)
      ∧ ∀ s1 g hd, va % 16 = 0 → s.recordBytesOf e c.sp.gets va 8 = some (s1, g, .bytes hd) →
        let k := fieldOf hd 8 2
        ((k = 0 ∨ 1024 < k) → gives s1 0x80000001)
        ∧ ∀ s2 g2 r, k ≠ 0 → k ≤ 1024 → s1.recordBytesOf e g (va + 16) k = some (s2, g2, .bytes r) →
          (groupOf (hd ++ r) = none → gives s2 0x80000001)
          ∧ ∀ key ranks, groupOf (hd ++ r) = some (key, ranks) →
            gives (s2.cgbind c key ranks).1 (s2.cgbind c key ranks).2)
    ∧ colls (.collAllreduce tile a red) 0 red ∧ colls (.collReducescatter tile a red) 1 red
    ∧ colls (.collAllgather tile a) 2 0 ∧ colls (.collBroadcast tile a) 3 0 ∧ colls (.collAlltoall tile a) 4 0

/-! ## Accumulators, attention and key-value lists -/

/-- The instructions of the matrix engine (R126 to R141): each claims its slot and holds its split until its last block
    step; a handle that an operand pops has left its alley. That the class of the first B block settles MMAS's groups before the
    claim, and that both handles are popped or none, is the model's reading (log entry 25). -/
def Obligations.MatrixInstructions : Prop :=
  ∀ (s : State) (c : Ctx) (n d a b mr nc kb isel : Nat) (pa pb : Bool),
    let mma := Instr.mma n a b mr nc kb pa pb
    let mmas := Instr.mmas n d a b mr nc kb isel pa pb
    let mmac := Instr.mmac n a b mr nc kb pb
    let pat := patternOf c.rt d isel
    let groups := fun (k : Nat) => k = 60 ∨ ∃ va, s.firstB c n a b pa pb = some va ∧
      ((∃ cls, s.peekClass c va = .ok s cls ∧ k = max 15 (classCap cls / 2))
        ∨ ∃ s1 code ad, s.peekClass c va = .fault s1 code ad ∧ k = 15)
    let runs := fun (i : Instr) (opc : Nat) (pa : Bool) (saved : List Nat) =>
      (s.resumes c.t n opc = true → Holds i s c (s.claimSlots c [n] opc saved none none) .tile)
      ∧ (s.resumes c.t n opc = false → pa = false → pb = false → Holds i s c (s.claimSlots c [n] opc saved none none) .tile)
      ∧ (∀ x h, s.resumes c.t n opc = false → pa = true → pb = false → s.popLook c a 0 = .handle x h → h % 64 = 0 →
          s.returnedAll c.t 3 c.ord = true →
          Holds i s c (((s.takePop c.uid x).acquire c.t 3).claimSlots c [n] opc saved (some h) none) .tile)
      ∧ (∀ x h, s.resumes c.t n opc = false → pa = false → pb = true → s.popLook c b 0 = .handle x h → h % 64 = 0 →
          s.returnedAll c.t 3 c.ord = true →
          Holds i s c (((s.takePop c.uid x).acquire c.t 3).claimSlots c [n] opc saved none (some h)) .tile)
      ∧ (∀ x h y k, s.resumes c.t n opc = false → pa = true → pb = true → s.popLook c a 0 = .handle x h →
          s.popLook c b (if c.rt.sVal a = c.rt.sVal b then 1 else 0) = .handle y k → h % 64 = 0 → k % 64 = 0 →
          s.returnedAll c.t 3 c.ord = true → Holds i s c
            ((((s.takePop c.uid x).takePop c.uid y).acquire c.t 3).claimSlots c [n] opc saved (some h) (some k)) .tile)
    c.t.divided = false → s.slotHeld c.t n = true → s.roundBusy (c.t.slot n) = false → s.claimed c.t n = false →
    (∀ i ∈ [mma, mmas, mmac], s.Issues i c → c.active = 0 → Completes i s c c.t c.sp)
    ∧ (c.active ≠ 0 → quadOk c.rt b pb = true →
      (s.Issues mma c → quadOk c.rt a pa = true → runs mma 0x68 pa [])
      ∧ (∀ k, s.Issues mmas c → quadOk c.rt a pa = true → groups k → (∀ g, g < k → (keptOf pat g).1 < (keptOf pat g).2) →
          runs mmas 0x69 pa pat)
      ∧ (∀ bs, s.Issues mmac c → c.rt.sPair a % 64 = 0 → c.rt.sVal (a + 3) % 32 = 0 → 0x80000 ≤ c.rt.sVal (a + 3) →
          c.rt.sVal (a + 3) + 32 ≤ 0x100000 →
          s.tileRead (tileEng c.t c.sp s.fresh) false 0 (c.rt.sVal (a + 3)) 32 = .ok s bs → shapeOk bs kb = true →
          runs mmac 0x6A false (bs.map (·.toNat))))

/-- The other instructions of accumulator slots (R142 to R149, R161): MACZ clears its slot, MACWR writes a row's elements
    of the active lanes, and the copies, MEPI and ATTC claim their slots and hold their split until their last row. That MACLD and MACST keep the
    lowest active lane for a lane-private slice is the model's choice (log entry 45). -/
def Obligations.SlotInstructions : Prop :=
  ∀ (s : State) (c : Ctx) (n v a bx mr nc tgt rnd fam bfmt : Nat) (sat init fin : Bool) (x y : Src),
    let slot := c.t.slot n
    let bad : Trap := ⟨0x02, 0, false, false, none, c.pc.toNat⟩
    let free := fun (k : Nat) => s.slotHeld c.t k = true ∧ s.roundBusy (c.t.slot k) = false ∧ s.claimed c.t k = false
    let va := macAddr c.t a x
    let mepi := Instr.mepi n a bx mr nc tgt rnd sat fam bfmt
    let size := tgtSize tgt
    let dst := c.rt.sPair a
    let stride := c.rt.sVal (a + 2)
    let one := fun (q : Nat) => q = 0xFFFFFFFF ∨ q % 4 = 0
    let geo := c.rt.sVal (a + 2)
    let stats := c.rt.sVal (a + 1)
    let dim := bitsOf geo 22 15 + 1
    free n →
    (s.Issues (.macz n) c → c.t.divided = false → c.active ≠ 0 → Ends (.macz n) s c
        { s.setProg slot Prog.init with
          acc := s.acc.filter fun e => !(slot * 16384 ≤ e.1 && e.1 < slot * 16384 + 16384), flaws := [] })
    ∧ (s.Issues (.macwr v y n) c → c.uni y ≤ 127 → Answers (exec (.macwr v y n) s) fun t =>
        t.apart c.uid = { s.apart c.uid with acc := t.acc } ∧ (∃ u, t.ter? c.uid = some u ∧ u.regs = c.t.regs)
        ∧ ∀ i j, j < 128 → t.accGet slot i j =
            if i = c.uni y ∧ c.active.getLsbD (j % 32) = true then c.rt.vget (v + j / 32) (j % 32) else s.accGet slot i j)
    ∧ (s.Issues (.macwr v y n) c → 127 < c.uni y → Traps (.macwr v y n) s c s bad)
    ∧ (c.t.divided = false → c.active ≠ 0 →
      let low := (lowLane c.active).getD 0
      (s.Issues (.macld n a x) c → va % 64 = 0 →
        Holds (.macld n a x) s c (s.claimSlots c [n] 0x6B [low] none none) .tile)
      ∧ (s.Issues (.macst n a x) c → va % 64 = 0 → s.storeGated c va 65536 = false →
        Holds (.macst n a x) s c (s.claimSlots c [n] 0x6C [low] none none) .tile)
      ∧ (∀ i ∈ [Instr.ackpt x y n, .acrst x y n], s.Issues i c →
          let len := c.uni x
          let p := c.uni y
          ((0x80000 ≤ p ∧ p < 0x100000) ∨ (0x200000 ≤ p ∧ p < 0x400000)) → p % 64 = 0 → len % 64 = 0 → len ≠ 0 → len ≤ 65536 →
            Holds i s c (s.claimSlots c [n] 0x70 [len, p] none none) .tile)
      ∧ (∀ vec, s.Issues mepi c → dst % size = 0 → stride % size = 0 → one (c.rt.sVal bx) → one (c.rt.sVal (bx + 1)) →
          (c.rt.sVal (a + 3) = 0 ∨ ∃ z, s.alleyAt c.t (c.rt.sVal (a + 3)) = .ok z ∧
            ((s.alley z).record c.t.sender c.t.ter).isSome = true) →
          ((s.vecOf c (c.rt.sVal bx) mr).andThen fun s r =>
            (s.vecOf c (c.rt.sVal (bx + 1)) nc).andThen fun s k => .ok s (r ++ k)) = .ok s vec →
          (∀ i, i < mr → s.storeGated c ((dst + i * stride) % 2 ^ 64) (nc * size) = false) →
          Holds mepi s c (s.claimSlots c [n] 0x6F vec none none) .tile)
      ∧ (s.Issues (.attc init fin n a) c → geo < 2 ^ 23 → (dim ≤ 128 ∨ n ≠ 3) → areaWindow stats 1 = true → stats % 8 = 0 →
          (∀ k ∈ slotsFor n dim, free k) →
          Holds (.attc init fin n a) s c (s.claimSlots c (slotsFor n dim) 0x72 [] none none) .tile))

/-- KVAP, KVTR and KVRD over a list on this module (R151 to R155), and ATTN, which starts its job cards and holds its
    split (R156, R157). -/
def Obligations.ListsAndAttention : Prop :=
  ∀ (s : State) (c : Ctx) (d : Dst) (n a b q dim chunks lc kw vw : Nat) (fold causal : Bool) (x : Src) (s1 : State)
      (ps : List ListPart) (raw : List Byte),
    let kvap := Instr.kvap d a b
    let kvtr := Instr.kvtr d a b
    let kvrd := Instr.kvrd d a x
    let attn := Instr.attn n a b q dim chunks lc kw vw fold causal
    let va := c.src64 (.s a) 0
    let f : AttnForm := ⟨n, a, b, q, dim, chunks, chunkLen lc, kw, vw, fold, causal⟩
    let area := c.rt.sVal (b + 3)
    let put := fun (s : State) (r : Nat × Option (List Byte)) =>
      (match r.2 with | some new => s.putList c ps new | none => s).give c d [BitVec.ofNat 32 r.1]
    let slice := fun (p : ListPart) (bs : List Byte) => bytesNat ((bs.drop p.off).take p.len)
    let whole := (wholeAway ps).isSome
    let exchanges := fun (i : Instr) (new : List Byte) => ∀ p, ps.find? ListPart.away = some p →
      ((∀ tag, c.sp.kept ≠ some (2, tag)) →
        let y := if whole then s1.askFor (.core c.t.core) c.t.vf c.t.launch va 832 p.q.ph (.list (s1.listSegs ps) raw new) true
          else s1.askFor (.core c.t.core) c.t.vf c.t.launch (va + p.off) p.len p.q.ph (.cas [(slice p raw, slice p new)]) true
        Waits i s c ((y.1.updSplit c.uid c.sid fun z => { z with kept := some (2, y.2) }).holdList c ps) (.outside y.2))
      ∧ ∀ tag s2 v, c.sp.kept = some (2, tag) → s1.takeAnswer tag = some (s2, .val v) →
          v ≠ (if whole then bytesNat raw else slice p raw) →
        Waits i s c (s2.updSplit c.uid c.sid fun z => { z with kept := none, gets := [] }) (.cycle (c.now + 1))
    let append := kvAppend raw (c.src64 (.s b) 0) (c.rt.sget (b + 2)).toNat (c.rt.sget (b + 3)).toNat
    let cut := kvTruncate raw (c.src64 (.s b) 0)
    (∀ i ∈ [kvap, kvtr], s.Issues i c → c.t.divided = false → c.active = 0 → Completes i s c c.t c.sp)
    ∧ (c.t.divided = false → c.active ≠ 0 → ListReads s c true va s1 ps raw →
        ((∀ p ∈ ps, p.away = false) →
          (s.Issues kvap c → Ends kvap s c (put s1 append)) ∧ (s.Issues kvtr c → Ends kvtr s c (put s1 cut)))
        ∧ (∀ new, s.Issues kvap c → append.2 = some new → exchanges kvap new)
        ∧ (∀ new, s.Issues kvtr c → cut.2 = some new → exchanges kvtr new))
    ∧ (s.Issues kvrd c → c.active = 0 → Completes kvrd s c c.t c.sp)
    ∧ (∀ o, s.Issues kvrd c → c.active ≠ 0 → kvOffset (c.uni x) = some o → ListReads s c false va s1 ps raw →
        Ends kvrd s c ((s1.acquire c.t c.scope).give c d ((List.range 8).map fun j => BitVec.ofNat 32 (fieldOf raw (o + 4 * j) 4))))
    ∧ (s.Issues kvrd c → c.active ≠ 0 → 32 < c.uni x → Traps kvrd s c s ⟨0x02, 0, false, false, none, c.pc.toNat⟩)
    ∧ (∀ l, s.Issues attn c → c.t.divided = false → c.active ≠ 0 → (fold = false ∨ dim ≤ 128 ∨ n ≠ 3) →
        (∀ g, c.t.gang.bind s.gang? = some g → g.lc = lc) → c.rt.sPair a % 64 = 0 → c.rt.sVal (a + 2) % 64 = 0 → area % 64 = 0 →
        areaWindow area f.areaBytes = true →
        (∀ k ∈ f.slots, s.slotHeld c.t k = true ∧ s.roundBusy (c.t.slot k) = false ∧ s.claimed c.t k = false) →
        ListReads s c false (c.rt.sPair b) s1 ps raw → parseKv raw = some l → (∀ e ∈ l.exts, 64 * (f.nk + f.nv) ≤ e.stride) →
        ∃ s2, Holds attn s c s2 .tile ∧ ∃ j : Job, s2.jobs = s1.jobs ++ [j] ∧ (j.uid, j.sid, j.e) = (c.uid, c.sid, l.e)
          ∧ j.cards.map (·.card) = List.range ((chunks + 3) / 4))

/-! ## System instructions -/

/-- SYSWR of SY_XREQ, SHOOT, PART, ELOG and LAUNCH (R248, R317, R373, R375, R405). -/
def Obligations.SystemInstructions : Prop :=
  ∀ (s : State) (c : Ctx) (d : Dst) (a b : Src) (n m : Nat),
    let xreq := Instr.syXreqWrite a
    let shoot := Instr.shoot n b
    let part := Instr.part d a b
    let lo := c.base (.s n) ((lowLane c.active).getD 0)
    let hi := lo + c.uniAll b * 65536
    let whole := lo % 65536 = 0 ∧ 1 ≤ c.uniAll b ∧ c.uniAll b ≤ 2 ^ 24 ∧ hi ≤ 2 ^ 48 ∧ c.t.divided = false
    let parted := s.partCmd (c.uniAll a) (c.uniAll b)
    let parent := if c.t.launch = 0 then none else some c.t.launch
    let s0 := if c.resumed = true then s else { s with intakes := s.intakes.filter fun i => i.who != some (c.uid, c.sid) }
    let acc := s0.accept c.t.vf parent (c.base a ((lowLane c.active).getD 0)) (some (c.uid, c.sid)) false
    let come := s.shootArrive c
    let sub := match c.sp.frame with | some f => f.cause.toNat % 256 | none => 0
    let addr := if c.sp.frame.isSome then c.sp.taddr.toNat else 0
    let log := s.logRec c.t.vf false (coreRec c.t 0x48 sub addr c.pc.toNat)
    (s.Issues xreq c → c.sp.frame.isSome = true → c.uniAll a < 2 → c.active ≠ 0 →
        Ends xreq s c (s.earlyCross (c.t.domain (c.uniAll a))))
    ∧ (s.Issues xreq c → c.sp.frame.isSome = true → c.uniAll a < 2 → c.active = 0 → Completes xreq s c c.t c.sp)
    ∧ (s.Issues shoot c → c.sp.frame.isSome = true → whole → c.sp.kept = none → s.released c.t 4 c.ord = true →
        (come.shootTurn = some (c.uid, c.sid) → Waits shoot s c
          ((come.purge c.t.vf fun va => lo ≤ va && va < hi).keep c 1 come.fresh) (.shot c.t.vf lo hi come.fresh))
        ∧ (come.shootTurn ≠ some (c.uid, c.sid) → Waits shoot s c come .turn))
    ∧ (s.Issues shoot c → c.sp.frame.isSome = true → whole → c.sp.kept = some (1, m) → s.shotOver c.t.vf lo hi m = true →
        Ends shoot s c { s with shoots := s.shoots.filter fun x => x != (c.uid, c.sid) })
    ∧ (s.Issues part c → c.sp.frame.isSome = true → s.manager c.t.vf = true → c.t.divided = false →
        Ends part s c (parted.1.give c d [BitVec.ofNat 32 parted.2]))
    ∧ (s.Issues (.elog d) c → c.active = 0 → Completes (.elog d) s c c.t c.sp)
    ∧ (s.Issues (.elog d) c → c.active ≠ 0 → c.t.service = none → Ends (.elog d) s c
        ((log.1.markError c.t.launch).give c d [match log.2 with | some q => BitVec.ofNat 32 q | none => 0xFFFFFFFF]))
    ∧ (s.Issues (.launch d a) c → c.active = 0 → Completes (.launch d a) s c c.t c.sp)
    ∧ (s.Issues (.launch d a) c → c.active ≠ 0 → s.released c.t 6 c.ord = true →
        (∀ st, acc.2 = some st → Ends (.launch d a) s c (acc.1.give c d [BitVec.ofNat 32 st]))
        ∧ (acc.2 = none → Waits (.launch d a) s c acc.1 (.descriptor c.uid c.sid)))

/-- CNTCFG, CNTSV, CNTLD and WSWITCH (R386, R393 to R396). -/
def Obligations.CounterInstructions : Prop :=
  ∀ (s : State) (c : Ctx) (d : Dst) (a : Src) (k n x : Nat),
    let w := BitVec.ofNat 32 (c.uniAll a)
    let old := (s.counters8 c).getD k ⟨0, 0⟩
    let new : Counter := ⟨if cfgEvent w = cfgEvent old.config then old.value else 0, w &&& 0x5FF#32⟩
    let cfg := Instr.cntcfg d a k
    let va := c.base (.s n) ((lowLane c.active).getD 0)
    let place := fun (f : Part → Part) (s : State) =>
      match s.part? c.t.core c.t.vf with | some p => s.updPart c.t.core p.pidx f | none => s
    let img := fun l => let e := (s.counters8 c).getD l ⟨0, 0⟩; s.cntValue c.t.vf e + e.config.toNat * 2 ^ 64
    let sv : MemForm := ⟨.store 16 false, .none, List.range 8, 16, fun l => va + 16 * l, img, fun _ => 0⟩
    let ld : MemForm := ⟨.image, .none, List.range 8, 16, fun l => va + 16 * l, fun _ => 0, fun _ => 0⟩
    (s.Issues cfg c → cfgWritable w = true → c.active = 0 → Completes cfg s c c.t c.sp)
    ∧ (s.Issues cfg c → cfgWritable w = true → c.active ≠ 0 →
        Jumps cfg s c (s.give c d [old.config]) (place fun p => p.putCounter k new))
    ∧ (s.Issues cfg c → cfgWritable w = false → Traps cfg s c s ⟨0x02, 0, false, false, none, c.pc.toNat⟩)
    ∧ (s.Issues (.cntsv n) c → c.active ≠ 0 → imageCheck c va = none → s.ownRegBusy c sv.lanes sv.ea 16 = false →
        let c0 := { c with sp := { c.sp with mode := c.sp.mode &&& 0xFE1F#16 } }
        let y := sv.run s c0
        y.stay = false → y.faults = [] → c.t.inFlight (sv.path y 0) < 255 → y.s.accs = s.accs →
        let s2 := sv.opened y c0 0 true []
        (y.reqs ++ y.out ≠ [] → Holds (.cntsv n) s c s2 (.access (sv.sent y c0).1.fresh))
        ∧ (y.reqs ++ y.out = [] → Ends (.cntsv n) s c s2))
    ∧ (s.Issues (.cntld n) c → c.active ≠ 0 → c.sp.kept = none → imageCheck c va = none →
        s.ownRegBusy c ld.lanes ld.ea 16 = false →
        let y := ld.run s c
        y.stay = false → y.faults = [] → c.t.inFlight (ld.path y 0) < 255 →
        let s2 := ld.opened y c 0 true []
        Waits (.cntld n) s c (s2.keep c 3 0) (.before s2.fresh))
    ∧ (∀ cs, s.Issues (.cntld n) c → c.t.divided = false → c.active ≠ 0 → c.sp.kept = some (3, x) →
        (∀ e ∈ s.accs, ¬ (e.ter = c.uid ∧ e.sid = c.sid ∧ e.kind = .image)) → imageCounters s c.t.vf x = some cs →
        Jumps (.cntld n) s c s (place fun p => (List.range 8).foldl (fun p k => p.putCounter k (cs.getD k ⟨0, 0⟩)) p))
    ∧ (∀ i ∈ [Instr.cntsv n, .cntld n], s.Issues i c →
        (c.t.divided = false → c.active = 0 → Completes i s c c.t c.sp)
        ∧ (c.t.divided = true → Traps i s c s ⟨0x02, 0, false, false, none, c.pc.toNat⟩))
    ∧ (s.Issues .wswitch c → Jumps .wswitch s c s fun s => s.endSlice c.t.core)

/-- Bounded counters (R349 to R353): a take that the core's allowance covers is made there, another goes to the home, and a
    reply that has come ends it; gives, totals and the state of the core's entry. That a request reaches its counter's home at
    its issue is the model's reading (log entry 28). -/
def Obligations.BoundedCounters : Prop :=
  ∀ (s : State) (c : Ctx) (d : Dst) (a : Nat) (b : Src) (s1 : State) (ph : Phys),
    let va := c.bcAddr a
    let take := Instr.bctake d a b
    let give := Instr.bcgive d a b
    let n := c.uniAll b
    let put := fun (s : State) (st : Nat) => s.give c d [BitVec.ofNat 32 st]
    let used := fun (s : State) (k : BCounter) (f : BcHolder → BcHolder) =>
      { s.setBc (k.upd c.t.core fun h => { f h with used := s.fresh }) with fresh := s.fresh + 1 }
    let page := s.bcPage c va = (s1, .ok ph)
    (∀ st, s.Issues take c → c.sp.kept = some (1, st) → Ends take s c (put s st))
    ∧ (∀ st m, s.Issues take c → c.sp.kept = none → c.t.reply = some (va, st, m) →
        Ends take s c (put (s.updTer c.uid fun t => { t with reply := none }) st))
    ∧ (s.Issues take c → c.sp.kept = none → c.t.reply = none → s.bcQueued c.uid = none → page → n % 2 ^ 31 ≠ 0 →
        (s1.bc? c.t.vf va = none → Ends take s c (put s1 2))
        ∧ ∀ k h, s1.bc? c.t.vf va = some k → k.holder? c.t.core = some h →
          (h.open = true → n % 2 ^ 31 ≤ h.allow → Waits take s c
            ((used s1 k fun h => { h with allow := h.allow - n % 2 ^ 31 }).keep c 1 0) (.cycle (c.now + 12)))
          ∧ (h.open = false ∨ h.allow < n % 2 ^ 31 → Waits take s c
            (s1.setBc { (k.upd c.t.core fun h => { h with allow := 0 }) with
              trigs := k.trigs ++ [.take ⟨c.uid, c.t.core, n % 2 ^ 31, decide (2 ^ 31 ≤ n)⟩ h.allow] }) .counter))
    ∧ (∀ k, s.Issues take c → c.sp.kept = none → c.t.reply = none → s.bcQueued c.uid = none → page → n % 2 ^ 31 ≠ 0 →
        s1.bc? c.t.vf va = some k → k.holder? c.t.core = none → Waits take s c
          (s1.setBc { k with trigs := k.trigs ++ [.take ⟨c.uid, c.t.core, n % 2 ^ 31, decide (2 ^ 31 ≤ n)⟩ 0] }) .counter)
    ∧ (∀ st, s.Issues give c → c.sp.kept = some (1, st) → Ends give s c (put s st))
    ∧ (s.Issues give c → c.sp.kept = none → page →
        (n = 0 → Ends give s c (put s1 0))
        ∧ (n ≠ 0 → s1.bc? c.t.vf va = none → Ends give s c (put s1 2))
        ∧ ∀ k, n ≠ 0 → s1.bc? c.t.vf va = some k →
          (∀ h, k.holder? c.t.core = some h → h.open = true → h.allow + n < 2 ^ 32 → Waits give s c
            ((used s1 k fun h => { h with allow := h.allow + n }).keep c 1 0) (.cycle (c.now + 12)))
          ∧ ((∀ h, k.holder? c.t.core = some h → h.open = false ∨ 2 ^ 32 ≤ h.allow + n) →
            (k.pool + n < 2 ^ 63 → Ends give s c (put (s1.setBc (k.give n)) 0))
            ∧ (2 ^ 63 ≤ k.pool + n → Ends give s c (put s1 1))))
    ∧ (s.Issues (.bcread d a) c →
        (∀ v x, c.sp.kept = some (2, v) → c.t.total = some x → Ends (.bcread d a) s c
          ((s.updTer c.uid fun t => { t with total := none }).updTer c.uid fun t => t.writeDst d true c.active fun _ => words2 x))
        ∧ (c.sp.kept = none → page → s1.bc? c.t.vf va = none → Ends (.bcread d a) s c
          (s1.updTer c.uid fun t => t.writeDst d true c.active fun _ => words2 (2 ^ 64 - 1)))
        ∧ ∀ k, c.sp.kept = none → page → s1.bc? c.t.vf va = some k → Waits (.bcread d a) s c
          ((s1.setBc { k with trigs := k.trigs ++ [.read c.uid] }).keep c 2 0) .total)
    ∧ (s.Issues (.bcstat d a) c → page →
        (s1.bc? c.t.vf va = none → Ends (.bcstat d a) s c (s1.give c d [0, 0]))
        ∧ ∀ k, s1.bc? c.t.vf va = some k → Ends (.bcstat d a) s c (s1.give c d
          [BitVec.ofNat 32 (match k.holder? c.t.core with | some h => h.allow | none => 0),
           BitVec.ofNat 32 ((if k.qlen ≠ 0 then 2 ^ 31 else 0) + (if (k.holder? c.t.core).isSome then 2 ^ 30 else 0) + 2 ^ 29
             + min k.qlen 0xFFFF)]))
    ∧ (s.Issues (.bcinit d a b) c → page → ∀ s2 k, ph.owner = .die k →
        (s1.settleLine ph.pa).meetMem c.t.vf ph.pa 64 = (s2, false) →
        let bs := s2.rdBytes ph.pa 64
        let nh := fieldOf bs 0 1
        let slice := indexHash (s1.tenant c.t.vf).asid va % 96
        let held := (s2.sliceCounters k slice).length
        (nh ≠ 0 → s2.bcListOk c.t.vf k bs = false → Ends (.bcinit d a b) s c (put s2 3))
        ∧ ((nh = 0 ∨ s2.bcListOk c.t.vf k bs = true) → s2.bc? c.t.vf va = none →
            (32 ≤ held → Ends (.bcinit d a b) s c (put s2 4))
            ∧ (held < 32 → nh = 0 → Ends (.bcinit d a b) s c (put s2 0))
            ∧ (held < 32 → nh ≠ 0 → Ends (.bcinit d a b) s c (put (s2.bcCreate c.t.vf va ph k slice n (bcHolders bs)) 0)))
        ∧ ∀ old, s2.bc? c.t.vf va = some old →
          (nh = 0 → Ends (.bcinit d a b) s c (put (s2.bcClose old) 2))
          ∧ (nh ≠ 0 → s2.bcListOk c.t.vf k bs = true →
            Ends (.bcinit d a b) s c (put ((s2.bcClose old).bcCreate c.t.vf va ph k slice n (bcHolders bs)) 1)))

/-- The status of BCINIT, in the order of its table (R349). -/
def Sys2Proof.Machine.State.initStatus (s : State) (vf va k : Nat) (bs : List Byte) : Nat :=
  let nh := fieldOf bs 0 1
  let slice := indexHash (s.tenant vf).asid va % 96
  if nh ≠ 0 ∧ s.bcListOk vf k bs = false then 3
  else if s.bc? vf va = none then (if 32 ≤ (s.sliceCounters k slice).length then 4 else 0)
  else if nh = 0 then 2 else 1

/-- BCINIT, BCTAKE, BCGIVE, BCREAD and BCSTAT on a record that can be used answer a next state with their effect (R348 to
    R353): BCINIT gives its status where its line is intact and no access to it is open; a take or give that the core's
    allowance covers changes it and completes after 12 cycles; one whose reply has come, or that finds no live counter,
    completes. That the home is reached at issue is the model's reading (log entry 28). -/
def Obligations.BoundedCountersComplete : Prop :=
  ∀ (s : State) (c : Ctx) (d : Dst) (a : Nat) (b : Src) (pa k : Nat),
    let va := c.bcAddr a
    let n := c.uniAll b
    let take := Instr.bctake d a b
    let give := Instr.bcgive d a b
    let live := s.bc? c.t.vf va
    let word := fun (x : Nat) => [BitVec.ofNat 32 x]
    RecordReady s c va pa k →
    (s.Issues (.bcinit d a b) c → s.lostRange pa 64 = false → (∀ x ∈ s.accs, ∀ r ∈ x.reqs, r.loc / 64 ≠ pa / 64) →
        Gives (.bcinit d a b) s c d false (word (s.initStatus c.t.vf va k (s.rdBytes pa 64))))
    ∧ (∀ st, s.Issues take c → c.sp.kept = some (1, st) → Gives take s c d false (word st))
    ∧ (s.Issues take c → c.sp.kept = none →
        (∀ st m, c.t.reply = some (va, st, m) → Gives take s c d false (word st))
        ∧ (c.t.reply = none → s.bcQueued c.uid = none → n % 2 ^ 31 ≠ 0 →
          (live = none → Gives take s c d false (word 2))
          ∧ ∀ x h, live = some x → x.holder? c.t.core = some h → h.open = true → n % 2 ^ 31 ≤ h.allow →
            AllowanceBecomes take s c va (h.allow - n % 2 ^ 31)))
    ∧ (∀ st, s.Issues give c → c.sp.kept = some (1, st) → Gives give s c d false (word st))
    ∧ (s.Issues give c → c.sp.kept = none →
        (n = 0 → Gives give s c d false (word 0))
        ∧ (n ≠ 0 → live = none → Gives give s c d false (word 2))
        ∧ ∀ x, n ≠ 0 → live = some x →
          (∀ h, x.holder? c.t.core = some h → h.open = true → h.allow + n < 2 ^ 32 →
            AllowanceBecomes give s c va (h.allow + n))
          ∧ ((∀ h, x.holder? c.t.core = some h → h.open = false ∨ 2 ^ 32 ≤ h.allow + n) →
            Gives give s c d false (word (if x.pool + n < 2 ^ 63 then 0 else 1))))
    ∧ (s.Issues (.bcread d a) c →
        (∀ v x, c.sp.kept = some (2, v) → c.t.total = some x → Gives (.bcread d a) s c d true (words2 x))
        ∧ (c.sp.kept = none → live = none → Gives (.bcread d a) s c d true (words2 (2 ^ 64 - 1))))
    ∧ (s.Issues (.bcstat d a) c →
        (live = none → Gives (.bcstat d a) s c d false [0, 0])
        ∧ ∀ x, live = some x → Gives (.bcstat d a) s c d false
          [BitVec.ofNat 32 (match x.holder? c.t.core with | some h => h.allow | none => 0),
           BitVec.ofNat 32 ((if x.qlen ≠ 0 then 2 ^ 31 else 0) + (if (x.holder? c.t.core).isSome then 2 ^ 30 else 0) + 2 ^ 29
             + min x.qlen 0xFFFF)])

/-! ## Events -/

/-- The events of the engines, the homes and the distributors happen where their conditions hold: a step of a copy command
    or a requantisation, a pushed handle, a block step or row, a job card or its watchdog, a round's end, a rebalance, the
    eviction of a NEAR line, a task's start, a launch's completion (R158, R204, R210, R239, R265, R292, R316, R343, R419). -/
def Obligations.EngineEvents : Prop :=
  ∀ (s s1 : State) (id core k u card h n die pidx line leaf : Nat),
    (∀ c, s.cmd? id = some c → c.fault = none → c.next < c.total → s.served c = true → ∀ rows, 1 ≤ rows →
        (s.copyRow c).isSome = true → Occurs (.copyEngineCommand id rows) s (s.copySteps id rows))
    ∧ (∀ c a da b db m n x y, s.cmd? id = some c → c.kind = .cp a da b db m n x y → c.fault = none →
        s.ackHere (c.acks.map (·.1)) = true → Occurs (.copyEngineCommand id 0) s (s.acked c))
    ∧ (∀ c a m x sat rnd, s.cmd? id = some c → c.kind = .rqnt a m x rnd sat → c.fault = none → c.next < c.total →
        s.served c = true → s.rqntStep c = some s1 → Occurs (.requantisation id) s s1)
    ∧ (∀ c, s.cmd? id = some c → c.fault = none → c.total ≤ c.next → c.alley ≠ 0 → s.enginePush c = some s1 →
        Occurs (.engineAlleyPush id) s s1)
    ∧ (∀ t sp i, k < 4 → s.tileOn (core * 4 + k) = some (t, sp, i) → t.core = core →
        (s.blockStep (core * 4 + k) t sp i = some s1 → s.engineTurn (core * 4 + k) = true → Occurs (.blockStep core k) s s1)
        ∧ (s.rowStep (core * 4 + k) t sp i = some s1 → Occurs (.rowBoundary core k) s s1)
        ∧ (∀ n a b mr nc tgt rnd sat fam bfmt, i = .mepi n a b mr nc tgt rnd sat fam bfmt → t.slot n = core * 4 + k →
            s.job? t.uid = none → t.sVal (a + 3) = 0 → mr ≤ (s.prog (core * 4 + k)).row → (s.prog (core * 4 + k)).acks = [] →
            let sr := (if rnd = 6 then modeRnd sp.mode else rnd) = 5
            Occurs (.rowBoundary core k) s
              ((if sr then s.updSplit t.uid sp.sid fun x => { x with rc := x.rc + 1 } else s).tileDone t sp [core * 4 + k])))
    ∧ (∀ j c, s.job? u = some j → (j.cards.find? fun c => c.card == card) = some c → s.cardServed j card = true →
        (s.jobCard j card = some s1 → Occurs (.jobCard u card) s s1)
        ∧ ((s.jobSplit j).isSome = true → Occurs (.watchdogExpiry u card) s (s.watchdog j c)))
    ∧ (∀ g r, (s.groups.find? fun g => g.handle == h) = some g →
        (s.rounds.find? fun r => r.handle == h && r.index == n && r.die == die) = some r →
        (r.failed = true ∨ (s.roundTiles g n).isSome = true) → Occurs (.collectiveRoundCompletion h n die) s (s.endRound g r))
    ∧ (∀ b tr rest, s.bcAt? id = some b → b.absorb.trigs = tr :: rest →
        let x := { b.absorb with trigs := rest }
        Occurs (.rebalance id) s ((s.setBc x).rebalance x tr))
    ∧ (∀ p l, s.partAt? core pidx = some p → (p.near.find? fun l => l.pa / 64 == line) = some l →
        Occurs (.nearLineEviction core pidx line) s (s.nearOut core pidx l))
    ∧ (∀ l, s.launch? id = some l → l.halt = 0 → s.taskStart l leaf = some s1 → Occurs (.taskStart id leaf) s s1)
    ∧ (∀ l, s.launch? id = some l → s.launchOver l = true → Occurs (.launchCompletion id) s (s.complete l))

/-- CROSSING_COMPLETION (R250, R254): once every participant has arrived, the domain's count and its crossings rise by one,
    and its staged writes of that crossing are held no more. A parked request starts its service terrace (R408). -/
def Obligations.CrossingCompletes : Prop :=
  ∀ (s : State) (k : DomKey) (v die core : Nat) (a : Access),
    (s.crossDue k = true → Occurs (.crossingCompletion k) s (s.completeCrossing k))
    ∧ (s.crossDue k = false → exec (.crossingCompletion k) s = .fault .notEnabled)
    ∧ ((∀ g, k ≠ .gang g) → (s.dom k).landing = .idle → (s.dom k).calls = 0 →
        (∀ e ∈ s.crossEntries k, isAway (e.pa * 64) = false ∧ ∀ x, e.spill = some x → isAway x.1 = false) →
        let n := (s.dom k).crossings
        let t := s.completeCrossing k
        (t.dom k).crossings = n + 1
        ∧ (t.dom k).count = ((s.dom k).count + 1) % 2 ^ 32
        ∧ ∀ e ∈ t.staged, ¬ (e.dom = k ∧ (e.after ≤ n ∨ e.ter ∉ (s.participants k).map (·.uid))))
    ∧ (s.parkedOn v die = some a → s.serviceCore v die = some core → (∀ t ∈ s.ters, ¬ (t.vf = v ∧ dieOf t.core = die ∧ t.service.isSome = true)) →
        (s.tenant v).tvec ≠ 0 → s.ter? s.fresh = none → Answers (exec (.serviceTerraceStart v die) s) fun t =>
          ∃ u x, t.ters = s.ters ++ [u] ∧ u.splits = [x] ∧ u.core = core ∧ u.service = some a.id ∧ u.nregs = 32
            ∧ x.pc = (s.tenant v).tvec ∧ x.mask = 0xFFFFFFFF ∧ x.tcause.toNat % 256 = 0x21
            ∧ u.sget 0 = BitVec.ofNat 32 a.addr ∧ u.sget 1 = BitVec.ofNat 32 (a.addr / 2 ^ 32))

/-- The events of a core (R321, R331, R332, R336, R383, R384, R392): its cycle, its fetches, the end of a sleep, of a
    detector window, of a quantum and of a world switch, and the overflow interrupt. That one delivery clears every PEND bit of
    the partition is the model's reading (log entry 29). -/
def Obligations.CoreEvents : Prop :=
  ∀ (s : State) (core pidx uid lane : Nat) (t : Terrace) (x : Split) (p : Part),
    let k := s.core core
    let found := (s.ter? uid).bind fun t => (t.splits.find? fun x => x.low == lane).map fun x => (t, x)
    (core < 1024 → s.issue = [] → k.due = [] → k.again = [] → s.cycleBlocked core = false →
        Occurs (.coreCycle core) s (s.nextCycle core))
    ∧ (core < 1024 → s.issue = [] → k.due ≠ [] → Occurs (.coreCycle core) s (s.nextDue core))
    ∧ (∀ va s1, found = some (t, x) → s.fetchNeed t x = some (p, va) → s.candidate t x = true →
        s.fetchLine t x p va = some s1 → Occurs (.instructionFetch uid lane) s s1)
    ∧ (∀ n, found = some (t, x) → x.hold = .sleep n → n ≤ s.now t.core →
        Occurs (.sleepEnd uid lane) s (s.updSplit uid x.sid fun x => { x with hold := .none }))
    ∧ (s.partAt? core pidx = some p → 2048 ≤ p.windowCycles →
        Occurs (.detectorWindowEnd core pidx) s (s.updPart core pidx Part.endWindow))
    ∧ (let q := p.endWindow
      q.missM = 0 ∧ q.missR = 0 ∧ q.windowCycles = 0
      ∧ (64 ≤ p.missR → p.missM ≤ 4 * p.missR → q.adm = rungDown p.adm)
      ∧ (p.missR ≤ 16 → q.adm = rungUp p.adm)
      ∧ (16 < p.missR → (p.missR < 64 ∨ 4 * p.missR < p.missM) → q.adm = p.adm))
    ∧ (s.quantumOver core = true → Occurs (.quantumExpiry core) s (s.endSlice core))
    ∧ (∀ n, s.switchDue core = true → s.issue = [] → k.due = [] → k.holder.bind (s.partAt? core) = some p → s.nextPart core p.pidx = some n →
        Answers (exec (.worldSwitch core) s) fun t =>
          (t.core core).holder = none ∧ (t.core core).switching = some (n, k.now + 49))
    ∧ (∀ sid, s.interruptDue core = some (p, uid, sid) → s.issue = [] → k.due = [] →
        let s1 := (s.preemptOthers p uid sid).updPart core p.pidx fun p =>
          { p with counters := p.counters.map fun c => { c with config := c.config &&& 0xBFFFFFFF#32 } }
        s1.ter? uid = some t → t.split? sid = some x →
        Occurs (.overflowInterrupt core) s
          (s1.takeTrap uid sid false x.pc 0 ⟨0x20, 0, false, true, none, x.pc.toNat⟩ none (s.now core)))

/-- The events of links, fabric, power and supply (R7, R258, R412, R414, R452 to R456). -/
def Sys2Proof.Clause.EdgeEvents : Prop :=
  ∀ (s : State) (die port demand : Nat) (f : FabFlit) (fromMgmt : Bool),
    let x := s.die die
    let take := fun (upset : State) (g : State → State) => if f.checkOk = false then s else if s.queueUpset die = true then upset
      else if f.dst = s.dieCoord die ∧ s.routed f = true then g s else s.sendFab die none f
    die < 4 →
    (port < 8 → kget 0 x.ports port = 0 → Occurs (.linkRetraining die port) s
        (s.setDie die { x with ports := kset 0 x.ports port 1, retrain := kset 0 x.retrain port (x.samples + 1) }))
    ∧ (kget 0 x.ports port = 1 → x.lateLink port = false → Occurs (.linkRetrained die port) s
        ((s.setDie die { x with ports := kset 0 x.ports port 0, retrain := kdel x.retrain port }).drainPort die port))
    ∧ (kget 0 x.ports port = 1 → x.lateLink port = true → Occurs (.linkDeclaredDown die port) s (s.linkDown die port))
    ∧ (∀ e, (s.spill.find? fun e => e.2.die == die && kget 0 x.ports (portOf die e.2.flit.dst) == 0) = some e →
        Occurs (.egressSpillDrain die) s ({ s with spill := s.spill.erase e }.emit e.2))
    ∧ (f.type = 0 → Occurs (.fabricRequest die f) s (take (s.fabLost die f) fun s => s.fabServe die f))
    ∧ (f.type = 1 → Occurs (.fabricResponse die f) s (take (s.fabRespLost die f) fun s => s.fabAnswer die f))
    ∧ (∀ h n r kd rd ty bs, f.op = .tile h n r kd rd ty bs → f.type = 2 → f.checkOk = true → s.queueUpset die = false →
        s.packetRank f h = none →
        Occurs (.collectivePacket die f) s (s.packetDrop die f h))
    ∧ (∀ h n r kd rd ty bs rank, f.op = .tile h n r kd rd ty bs → f.type = 2 → f.checkOk = true →
        s.queueUpset die = false → s.packetRank f h = some rank →
        f.dst = s.dieCoord die → s.routed f = true → (∀ e ∈ s.tiles, ¬ (e.handle = h ∧ e.index = n ∧ e.rank = rank)) →
        Occurs (.collectivePacket die f) s { s with tiles := s.tiles ++ [⟨h, n, rank, kd, rd, ty, bs⟩] })
    ∧ (f.type = 4 → (fromMgmt = false ∨ f.checkOk = false) → Occurs (.fabricManagementFlit die f fromMgmt) s s)
    ∧ (f.type = 4 → f.checkOk = true → s.queueUpset die = false → Occurs (.fabricManagementFlit die f true) s
        (if f.dst ≠ s.dieCoord die then s.crossFab die none f
         else if s.mgmtDue f = true then s.mgmtFlit f else { s with waitFab := s.waitFab ++ [(die, f)] }))
    ∧ (∀ rect stepUs nslot, f.op = .stagger rect stepUs nslot → f.type = 3 → 1 ≤ stepUs → stepUs ≤ 1000 → 1 ≤ nslot →
        nslot ≤ 1024 →
        let c := s.dieCoord die
        ((fromMgmt = false ∨ f.checkOk = false) → Occurs (.stagger die f fromMgmt) s s)
        ∧ (f.checkOk = true → s.queueUpset die = false → f.dst = c → f.src ≠ c →
            Occurs (.stagger die f true) s (s.setDie die { x with
              held := some (x.drawn, 10 * x.samples + min ((c % 256 + 32 * (c / 256)) % nslot * stepUs) 100000) }))
        ∧ (f.checkOk = true → s.queueUpset die = false → f.src = c → Occurs (.stagger die f true) s
            ((rectCoords rect).foldl (fun s c => match s.dieOfCoord c with
              | some d => s.stagger1 d stepUs nslot
              | none => s.crossFab die none { f with dst := c }) s)))
    ∧ (∀ l e, x.held = some (l, e) → e ≤ 10 * x.samples → Occurs (.staggerHoldEnd die) s (s.setDie die { x with held := none }))
    ∧ (x.holdOver = false → x.retrain = [] → Occurs (.powerSample die demand) s
        ((s.setDie die (x.sample demand)).countDie die evEnergy (x.sampleMj demand)))
    ∧ Occurs .supplyLoss s { s with dark := true, dies := s.dies.map fun e => (e.1, { e.2 with drawn := 0, filler := 0 }) }

/-- The power of a die's samples (R455, R456): it rises and falls within the applied limits, the filler draws at most 560 W,
    and the work gets what it asks for where the limits allow it. -/
def Sys2Proof.Clause.PowerLimits : Prop :=
  ∀ (x : Die) (demand : Nat),
    let y := x.sample demand
    y.drawn ≤ x.drawn + powRise x.power ∧ y.filler ≤ 56000 ∧ y.drawn - y.filler ≤ demand
    ∧ (y.filler < 56000 → x.drawn - powFall x.power ≤ y.drawn)
    ∧ (x.held = none → demand ≤ x.drawn + powRise x.power → x.drawn - powFall x.power ≤ demand → y.drawn = demand ∧ y.filler = 0)
    ∧ (∀ l e, x.held = some (l, e) → x.drawn ≤ l → y.drawn ≤ l)
    ∧ y.samples = x.samples + 1 ∧ 1 ≤ powRise x.power ∧ powRise x.power ≤ 560 ∧ 1 ≤ powFall x.power ∧ powFall x.power ≤ 50

/-- The events of a die's edges, and the power of its samples (R7, R258, R412, R414, R452 to R456). What ENERGY counts, and for
    which partitions, is the model's reading (log entry 32). -/
def Obligations.EdgesAndPower : Prop := Clause.EdgeEvents ∧ Clause.PowerLimits

/-- The flits of the host link (R448 to R450): a well-formed one has its effect, a malformed one is discarded and recorded
    in the hypervisor's log alone; a launch queue's entry is consumed. That a completion binds by its TAG is the model's reading
    (log entry 32), and the cause of a host's error response a free byte (log entry 9). -/
def Obligations.HostEvents : Prop :=
  ∀ (s : State) (die vf : Nat) (bs : List Byte) (h : HostFlit),
    let at_ := Config.hostAtomic h.payload
    die < 4 →
    (hostFlitOf bs = some h →
      (h.type = 0 → Occurs (.hostRead die bs) s (s.hostServe die h (.read h.tag h.base (64 * max 1 h.lines))))
      ∧ (h.type = 1 → Occurs (.hostWrite die bs) s (s.hostWrite die h))
      ∧ (h.type = 3 → Occurs (.hostAtomic die bs) s (s.hostServe die h
          (if at_.1 = 7 then .cas h.tag h.addr (tyWidth at_.2.1 / 8) [(at_.2.2.2, at_.2.2.1)]
           else .amo h.tag h.addr at_.1 at_.2.1 [at_.2.2.1])))
      ∧ (h.type = 2 →
          (s.taggedRange (fun t => t % 65536 == h.tag) true = none → Occurs (.hostReadCompletion die bs) s s)
          ∧ ∀ pa n, s.taggedRange (fun t => t % 65536 == h.tag) true = some (pa, n) → s.hostGot = [] →
            (hostChunks pa n).length ≤ 1 → pa % 64 + n ≤ h.payload.length → Occurs (.hostReadCompletion die bs) s
              ({ s with tick := s.tick + 1 }.answered (fun t => t % 65536 == h.tag) true fun pa n =>
                .val (bytesNat ((h.payload.drop (pa % 64)).take n))))
      ∧ (h.type = 4 → Occurs (.doorbell die bs) s (s.doorbell die h.vf (fieldOf h.payload 0 4)))
      ∧ (h.type = 5 → Occurs (.hostErrorResponse die bs) s
          ({ s with tick := s.tick + 1 }.answered (fun t => t % 65536 == h.tag) true fun _ _ => .err (Config.freeByte s.tick).toNat))
      ∧ (h.type = 6 → Occurs (.hostInterrupt die bs) s s))
    ∧ (hostFlitOf bs = none → ∀ i ∈ [Instr.hostRead die bs, .hostWrite die bs, .hostAtomic die bs, .hostReadCompletion die bs,
        .doorbell die bs, .hostErrorResponse die bs, .hostInterrupt die bs], Answers (exec i s) fun t =>
          ∃ r, t = commit s { s with tick := s.tick + 1, hlog := s.hlog ++ [r] })
    ∧ (∀ b, b ∈ bs.take 1 → 7 ≤ b.toNat → hostFlitOf bs = none)
    ∧ (vf < 16 → s.queueDue vf = true → Occurs (.launchQueueEntry vf) s (s.queueEntry vf))
    ∧ (∀ cap hd tl t, doorbellOk cap hd tl t = true ↔
        (t + 2 ^ 32 - hd) % 2 ^ 32 ≤ cap ∧ (tl + 2 ^ 32 - hd) % 2 ^ 32 ≤ (t + 2 ^ 32 - hd) % 2 ^ 32)

/-- Every management command answers with a status (R451), 0 where it is applied and 3 where its operands are malformed,
    and then changes nothing else (R368, R375, R379, R382, R409, R410, R414, R417 to R420, R423, R449, R455, R459). -/
def Obligations.ManagementCommands : Prop :=
  ∀ (s : State) (a b : Word) (core pidx q die frame colour us port vf n how addr reg : Nat) (w : Word) (value : DWord)
      (nonce : List Byte) (up : Bool) (lid : Option Nat),
    let x := s.die die
    let ok := fun (i : Instr) (d : Nat) (s1 : State) => Occurs i s (s1.replyWith d 0 [] [])
    let bad := fun (i : Instr) (d : Nat) => Occurs i s (s.replyWith d 3 [] [])
    let cmd := fun (i : Instr) (d : Nat) (good : Prop) (s1 : State) => (good → ok i d s1) ∧ (¬ good → bad i d)
    Occurs (.mgmtPart a b) s ((s.partCmd a.toNat b.toNat).1.replyWith 0 (s.partCmd a.toNat b.toNat).2 [] [])
    ∧ cmd (.quant core pidx q) (dieOf core) (q ≤ 2 ^ 24 ∧ (s.partAt? core pidx).isSome = true)
        (s.updPart core pidx fun p => { p with quant := q })
    ∧ cmd (.frames die frame colour) die (die < 4 ∧ frame < 2097152 ∧ colour < 256)
        (s.setDie die { x with frames := kset 0 x.frames frame colour })
    ∧ cmd (.wdog us) 0 (1 ≤ us ∧ us ≤ 1000) { s with wdogUs := us }
    ∧ cmd (.link die port up) die (die < 4 ∧ port < 8)
        (if up = true then (if kget 0 x.ports port = 2 then s.setDie die { x with ports := kset 0 x.ports port 0 } else s)
         else if kget 0 x.ports port = 2 then s else s.linkDown die port)
    ∧ cmd (.abort vf lid) 0 (vf < 16) (s.abortParked vf lid)
    ∧ (∀ l, s.launch? n = some l → cmd (.stop n how) 0 (how ≤ 2) (s.haltLaunch l how))
    ∧ (s.launch? n = none → bad (.stop n how) 0)
    ∧ cmd (.lost die frame) die (die < 4 ∧ frame < 2097152)
        (s.setDie die { x with lost := x.lost.filter fun e => e.1 / 1024 != die * 2097152 + frame })
    ∧ cmd (.queue vf addr) 0 (vf < 16 ∧ addr % 64 = 0 ∧ addr < 2 ^ 39 ∧ ∃ d, ownerOf addr = .die d)
        (s.setTenant vf { s.tenant vf with queue := addr })
    ∧ cmd (.power die w) die (die < 4) (s.setDie die { x with power := w })
    ∧ cmd (.sysreg vf reg value) 0 (vf < 16 ∧ sysWritable reg = true) (s.setTenant vf ((s.tenant vf).write reg value))
    ∧ (die < 4 → Occurs (.logs die) s (s.replyWith die 0 s.hyperLog s.retireLog))
    ∧ (4 ≤ die → bad (.logs die) die)
    ∧ (die < 4 → nonce.length = 32 → Occurs (.quote die nonce) s (s.replyWith die 0 (s.quoteBytes die nonce) []))
    ∧ ((4 ≤ die ∨ nonce.length ≠ 32) → bad (.quote die nonce) die)
    ∧ ok .freeze 0 s.freeze

/-- Boot, freeze and reset (R423, R457 to R459): an image is accepted after the five checks in their order, and a refused
    one leaves its die as it was; the freeze pin stops the module; a reset ends every state but what DRAM and the host hold. -/
def Obligations.BootAndReset : Prop :=
  ∀ (s : State) (die : Nat) (bs : List Byte),
    (die < 4 → imageFails s die bs = 0 → Answers (exec (.bootImage die bs) s) fun t =>
        (t.die die).boot = byteAt bs 4 ∧ (t.die die).boot = (s.die die).boot + 1
        ∧ (t.die die).attest = (s.die die).attest ++ [attestEntry bs] ∧ t.replies = s.replies ++ [⟨die, 0, [], []⟩])
    ∧ (∀ n, die < 4 → imageFails s die bs = n + 1 →
        Occurs (.bootImage die bs) s (s.replyWith die 3 [BitVec.ofNat 8 (n + 1)] []))
    ∧ (s.dark = false → Occurs .freezePin s s.freeze)
    ∧ (s.frozen = true → s.dark = false → die < 4 → Occurs (.freezeReadout die) s s)
    ∧ (s.wbuf = [] → Answers (exec .reset s) fun t =>
        { t with mem := [], hostOut := [], fabOut := [], replies := [], agenda := [], tick := 0 } = State.reset
        ∧ (t.hostOut, t.fabOut, t.replies) = (s.hostOut, s.fabOut, s.replies ++ bootReports)
        ∧ ∀ y, t.rdByte y = if y < 2 ^ 55 then s.rdByte y else 0)
end

