-- ==== Sys2Proof/Laws/Maps.lean ====
section
/-! SUPPORT. The laws of the sparse maps: what a read answers after a write, and that every write keeps the canonical
form. -/

namespace Sys2Proof.Machine

variable {β : Type}

theorem kget_kdel (d : β) (m : List (Nat × β)) (x y : Nat) : kget d (kdel m x) y = if y = x then d else kget d m y := by
  induction m with
  | nil => simp [kdel, kget]
  | cons e r ih =>
    obtain ⟨k, v⟩ := e
    simp only [kdel]
    by_cases hk : k = x
    · subst hk; simp only [if_true, kget]
      rw [ih]; by_cases hy : y = k
      · simp [hy]
      · simp [hy, Ne.symm hy]
    · simp only [hk, if_false, kget]
      rw [ih]; by_cases hy : k = y
      · subst hy; simp [hk]
      · simp [hy]

theorem kget_kins (d : β) (m : List (Nat × β)) (x y : Nat) (w : β) :
    kget d (kins x w (kdel m x)) y = if y = x then w else kget d m y := by
  have key : ∀ l : List (Nat × β), (∀ e ∈ l, e.1 ≠ x) → kget d (kins x w l) y = if y = x then w else kget d l y := by
    intro l hl
    induction l with
    | nil =>
      simp only [kins, kget]
      by_cases hy : y = x
      · simp [hy]
      · simp [hy, Ne.symm hy]
    | cons e r ih =>
      obtain ⟨k, v⟩ := e
      have hk : k ≠ x := hl (k, v) (by simp)
      simp only [kins]
      split
      · simp only [kget]; by_cases hy : y = x
        · simp [hy]
        · simp [hy, Ne.symm hy]
      · simp only [kget]
        rw [ih fun e he => hl e (by simp [he])]
        by_cases hy : k = y
        · subst hy; simp [hk]
        · simp [hy]
  have hd : ∀ e ∈ kdel m x, e.1 ≠ x := by
    induction m with
    | nil => simp [kdel]
    | cons e r ih =>
      obtain ⟨k, v⟩ := e
      simp only [kdel]
      split
      · exact ih
      · intro e he
        rcases List.mem_cons.1 he with rfl | he
        · assumption
        · exact ih e he
  rw [key _ hd, kget_kdel]
  by_cases hy : y = x <;> simp [hy]

/-- A read after a write: the written key answers the value, every other key what it answered before. -/
theorem kget_kset [DecidableEq β] (d : β) (m : List (Nat × β)) (x y : Nat) (w : β) :
    kget d (kset d m x w) y = if y = x then w else kget d m y := by
  unfold kset
  split
  · rename_i h; rw [kget_kdel, h]
  · exact kget_kins d m x y w

@[simp] theorem kget_kset_same [DecidableEq β] (d : β) (m : List (Nat × β)) (x : Nat) (w : β) :
    kget d (kset d m x w) x = w := by simp [kget_kset]

theorem kget_kset_other [DecidableEq β] (d : β) (m : List (Nat × β)) {x y : Nat} (w : β) (h : y ≠ x) :
    kget d (kset d m x w) y = kget d m y := by simp [kget_kset, h]

/-- Every key of a list lies above a bound. -/
def kabove (b : Nat) (m : List (Nat × β)) : Prop := ∀ e ∈ m, b < e.1

theorem kwf_cons [DecidableEq β] (d : β) (k : Nat) (v : β) (r : List (Nat × β)) :
    kwf d ((k, v) :: r) = true ↔ v ≠ d ∧ kabove k r ∧ kwf d r = true := by
  induction r generalizing k v with
  | nil => simp [kwf, kabove]
  | cons e r ih =>
    obtain ⟨k', v'⟩ := e
    rw [kwf, Bool.and_eq_true, Bool.and_eq_true, ih]
    simp only [decide_eq_true_eq, kabove, List.mem_cons]
    constructor
    · rintro ⟨⟨h1, h2⟩, h3, h4, h5⟩
      refine ⟨h2, ?_, h3, h4, h5⟩
      rintro e (rfl | he)
      · exact h1
      · exact Nat.lt_trans h1 (h4 e he)
    · rintro ⟨h1, h2, h3, h4, h5⟩
      exact ⟨⟨h2 (k', v') (.inl rfl), h1⟩, h3, h4, h5⟩

theorem kabove_kdel {b : Nat} {m : List (Nat × β)} (h : kabove b m) (x : Nat) : kabove b (kdel m x) := by
  induction m with
  | nil => simpa [kdel] using h
  | cons e r ih =>
    obtain ⟨k, v⟩ := e
    have hr : kabove b r := fun e he => h e (by simp [he])
    simp only [kdel]; split
    · exact ih hr
    · intro e he
      rcases List.mem_cons.1 he with rfl | he
      · exact h _ (by simp)
      · exact ih hr e he

theorem kwf_kdel [DecidableEq β] (d : β) {m : List (Nat × β)} (h : kwf d m = true) (x : Nat) : kwf d (kdel m x) = true := by
  induction m with
  | nil => rfl
  | cons e r ih =>
    obtain ⟨k, v⟩ := e
    obtain ⟨h1, h2, h3⟩ := (kwf_cons d k v r).1 h
    simp only [kdel]; split
    · exact ih h3
    · exact (kwf_cons d k v _).2 ⟨h1, kabove_kdel h2 x, ih h3⟩

theorem kabove_kins {b x : Nat} {w : β} {m : List (Nat × β)} (h : kabove b m) (hx : b < x) : kabove b (kins x w m) := by
  induction m with
  | nil => intro e he; simp [kins] at he; subst he; exact hx
  | cons e r ih =>
    obtain ⟨k, v⟩ := e
    have hr : kabove b r := fun e he => h e (by simp [he])
    simp only [kins]; split
    · intro e he
      rcases List.mem_cons.1 he with rfl | he
      · exact hx
      · exact h e he
    · intro e he
      rcases List.mem_cons.1 he with rfl | he
      · exact h _ (by simp)
      · exact ih hr e he

theorem kwf_kins [DecidableEq β] (d : β) {m : List (Nat × β)} {x : Nat} {w : β} (h : kwf d m = true) (hw : w ≠ d)
    (hx : ∀ e ∈ m, e.1 ≠ x) : kwf d (kins x w m) = true := by
  induction m with
  | nil => simp [kins, kwf, hw]
  | cons e r ih =>
    obtain ⟨k, v⟩ := e
    obtain ⟨h1, h2, h3⟩ := (kwf_cons d k v r).1 h
    have hk : k ≠ x := hx (k, v) (by simp)
    simp only [kins]; split
    · rename_i hlt
      refine (kwf_cons d x w _).2 ⟨hw, ?_, h⟩
      intro e he
      rcases List.mem_cons.1 he with rfl | he
      · exact hlt
      · exact Nat.lt_trans hlt (h2 e he)
    · rename_i hlt
      exact (kwf_cons d k v _).2 ⟨h1, kabove_kins h2 (by omega), ih h3 fun e he => hx e (by simp [he])⟩

theorem kdel_keys (m : List (Nat × β)) (x : Nat) : ∀ e ∈ kdel m x, e.1 ≠ x := by
  induction m with
  | nil => simp [kdel]
  | cons e r ih =>
    obtain ⟨k, v⟩ := e
    simp only [kdel]; split
    · exact ih
    · intro e he
      rcases List.mem_cons.1 he with rfl | he
      · assumption
      · exact ih e he

/-- A write keeps the canonical form. -/
theorem kwf_kset [DecidableEq β] (d : β) {m : List (Nat × β)} (h : kwf d m = true) (x : Nat) (w : β) :
    kwf d (kset d m x w) = true := by
  unfold kset; split
  · exact kwf_kdel d h x
  · rename_i hw; exact kwf_kins d (kwf_kdel d h x) hw (kdel_keys m x)

/-- A selection of the entries keeps the canonical form. -/
theorem kwf_filter [DecidableEq β] (d : β) {m : List (Nat × β)} (h : kwf d m = true) (f : Nat × β → Bool) :
    kwf d (m.filter f) = true := by
  induction m with
  | nil => rfl
  | cons e r ih =>
    obtain ⟨k, v⟩ := e
    obtain ⟨h1, h2, h3⟩ := (kwf_cons d k v r).1 h
    rw [List.filter_cons]; split
    · exact (kwf_cons d k v _).2 ⟨h1, fun e he => h2 e (List.mem_filter.1 he).1, ih h3⟩
    · exact ih h3

end Sys2Proof.Machine
end

