-- ==== Sys2Proof/Laws/State.lean ====
section
/-! SUPPORT. What each update of the state leaves alone: one lemma for each field and update. -/

namespace Sys2Proof.Machine

/-! ## wrByte -/

@[simp] theorem State.wrByte_mem (s : State) (x : Nat) (b : Byte) : (s.wrByte x b).mem = s.mem := rfl
@[simp] theorem State.wrByte_ters (s : State) (x : Nat) (b : Byte) : (s.wrByte x b).ters = s.ters := rfl
@[simp] theorem State.wrByte_teams (s : State) (x : Nat) (b : Byte) : (s.wrByte x b).teams = s.teams := rfl
@[simp] theorem State.wrByte_ended (s : State) (x : Nat) (b : Byte) : (s.wrByte x b).ended = s.ended := rfl
@[simp] theorem State.wrByte_launches (s : State) (x : Nat) (b : Byte) : (s.wrByte x b).launches = s.launches := rfl
@[simp] theorem State.wrByte_quarters (s : State) (x : Nat) (b : Byte) : (s.wrByte x b).quarters = s.quarters := rfl
@[simp] theorem State.wrByte_poppers (s : State) (x : Nat) (b : Byte) : (s.wrByte x b).poppers = s.poppers := rfl
@[simp] theorem State.wrByte_partials (s : State) (x : Nat) (b : Byte) : (s.wrByte x b).partials = s.partials := rfl
@[simp] theorem State.wrByte_accs (s : State) (x : Nat) (b : Byte) : (s.wrByte x b).accs = s.accs := rfl
@[simp] theorem State.wrByte_staged (s : State) (x : Nat) (b : Byte) : (s.wrByte x b).staged = s.staged := rfl
@[simp] theorem State.wrByte_domains (s : State) (x : Nat) (b : Byte) : (s.wrByte x b).domains = s.domains := rfl
@[simp] theorem State.wrByte_gangs (s : State) (x : Nat) (b : Byte) : (s.wrByte x b).gangs = s.gangs := rfl
@[simp] theorem State.wrByte_groups (s : State) (x : Nat) (b : Byte) : (s.wrByte x b).groups = s.groups := rfl
@[simp] theorem State.wrByte_colls (s : State) (x : Nat) (b : Byte) : (s.wrByte x b).colls = s.colls := rfl
@[simp] theorem State.wrByte_rounds (s : State) (x : Nat) (b : Byte) : (s.wrByte x b).rounds = s.rounds := rfl
@[simp] theorem State.wrByte_tiles (s : State) (x : Nat) (b : Byte) : (s.wrByte x b).tiles = s.tiles := rfl
@[simp] theorem State.wrByte_bcs (s : State) (x : Nat) (b : Byte) : (s.wrByte x b).bcs = s.bcs := rfl
@[simp] theorem State.wrByte_shoots (s : State) (x : Nat) (b : Byte) : (s.wrByte x b).shoots = s.shoots := rfl
@[simp] theorem State.wrByte_cmds (s : State) (x : Nat) (b : Byte) : (s.wrByte x b).cmds = s.cmds := rfl
@[simp] theorem State.wrByte_flaws (s : State) (x : Nat) (b : Byte) : (s.wrByte x b).flaws = s.flaws := rfl
@[simp] theorem State.wrByte_hostOut (s : State) (x : Nat) (b : Byte) : (s.wrByte x b).hostOut = s.hostOut := rfl
@[simp] theorem State.wrByte_hostGot (s : State) (x : Nat) (b : Byte) : (s.wrByte x b).hostGot = s.hostGot := rfl
@[simp] theorem State.wrByte_answers (s : State) (x : Nat) (b : Byte) : (s.wrByte x b).answers = s.answers := rfl
@[simp] theorem State.wrByte_asks (s : State) (x : Nat) (b : Byte) : (s.wrByte x b).asks = s.asks := rfl
@[simp] theorem State.wrByte_intakes (s : State) (x : Nat) (b : Byte) : (s.wrByte x b).intakes = s.intakes := rfl
@[simp] theorem State.wrByte_fabOut (s : State) (x : Nat) (b : Byte) : (s.wrByte x b).fabOut = s.fabOut := rfl
@[simp] theorem State.wrByte_egress (s : State) (x : Nat) (b : Byte) : (s.wrByte x b).egress = s.egress := rfl
@[simp] theorem State.wrByte_spill (s : State) (x : Nat) (b : Byte) : (s.wrByte x b).spill = s.spill := rfl
@[simp] theorem State.wrByte_waitFab (s : State) (x : Nat) (b : Byte) : (s.wrByte x b).waitFab = s.waitFab := rfl
@[simp] theorem State.wrByte_lists (s : State) (x : Nat) (b : Byte) : (s.wrByte x b).lists = s.lists := rfl
@[simp] theorem State.wrByte_routes (s : State) (x : Nat) (b : Byte) : (s.wrByte x b).routes = s.routes := rfl
@[simp] theorem State.wrByte_replies (s : State) (x : Nat) (b : Byte) : (s.wrByte x b).replies = s.replies := rfl
@[simp] theorem State.wrByte_wdogUs (s : State) (x : Nat) (b : Byte) : (s.wrByte x b).wdogUs = s.wdogUs := rfl
@[simp] theorem State.wrByte_unitErrs (s : State) (x : Nat) (b : Byte) : (s.wrByte x b).unitErrs = s.unitErrs := rfl
@[simp] theorem State.wrByte_retired (s : State) (x : Nat) (b : Byte) : (s.wrByte x b).retired = s.retired := rfl
@[simp] theorem State.wrByte_harvested (s : State) (x : Nat) (b : Byte) : (s.wrByte x b).harvested = s.harvested := rfl
@[simp] theorem State.wrByte_cores (s : State) (x : Nat) (b : Byte) : (s.wrByte x b).cores = s.cores := rfl
@[simp] theorem State.wrByte_parts (s : State) (x : Nat) (b : Byte) : (s.wrByte x b).parts = s.parts := rfl
@[simp] theorem State.wrByte_acc (s : State) (x : Nat) (b : Byte) : (s.wrByte x b).acc = s.acc := rfl
@[simp] theorem State.wrByte_progress (s : State) (x : Nat) (b : Byte) : (s.wrByte x b).progress = s.progress := rfl
@[simp] theorem State.wrByte_jobs (s : State) (x : Nat) (b : Byte) : (s.wrByte x b).jobs = s.jobs := rfl
@[simp] theorem State.wrByte_tenants (s : State) (x : Nat) (b : Byte) : (s.wrByte x b).tenants = s.tenants := rfl
@[simp] theorem State.wrByte_colours (s : State) (x : Nat) (b : Byte) : (s.wrByte x b).colours = s.colours := rfl
@[simp] theorem State.wrByte_dies (s : State) (x : Nat) (b : Byte) : (s.wrByte x b).dies = s.dies := rfl
@[simp] theorem State.wrByte_hlog (s : State) (x : Nat) (b : Byte) : (s.wrByte x b).hlog = s.hlog := rfl
@[simp] theorem State.wrByte_errored (s : State) (x : Nat) (b : Byte) : (s.wrByte x b).errored = s.errored := rfl
@[simp] theorem State.wrByte_frozen (s : State) (x : Nat) (b : Byte) : (s.wrByte x b).frozen = s.frozen := rfl
@[simp] theorem State.wrByte_dark (s : State) (x : Nat) (b : Byte) : (s.wrByte x b).dark = s.dark := rfl
@[simp] theorem State.wrByte_posI (s : State) (x : Nat) (b : Byte) : (s.wrByte x b).posI = s.posI := rfl
@[simp] theorem State.wrByte_posJ (s : State) (x : Nat) (b : Byte) : (s.wrByte x b).posJ = s.posJ := rfl
@[simp] theorem State.wrByte_issue (s : State) (x : Nat) (b : Byte) : (s.wrByte x b).issue = s.issue := rfl
@[simp] theorem State.wrByte_agenda (s : State) (x : Nat) (b : Byte) : (s.wrByte x b).agenda = s.agenda := rfl
@[simp] theorem State.wrByte_tick (s : State) (x : Nat) (b : Byte) : (s.wrByte x b).tick = s.tick := rfl
@[simp] theorem State.wrByte_fresh (s : State) (x : Nat) (b : Byte) : (s.wrByte x b).fresh = s.fresh := rfl

/-! ## updTer -/

@[simp] theorem State.updTer_mem (s : State) (u : Nat) (f : Terrace → Terrace) : (s.updTer u f).mem = s.mem := rfl
@[simp] theorem State.updTer_wbuf (s : State) (u : Nat) (f : Terrace → Terrace) : (s.updTer u f).wbuf = s.wbuf := rfl
@[simp] theorem State.updTer_teams (s : State) (u : Nat) (f : Terrace → Terrace) : (s.updTer u f).teams = s.teams := rfl
@[simp] theorem State.updTer_ended (s : State) (u : Nat) (f : Terrace → Terrace) : (s.updTer u f).ended = s.ended := rfl
@[simp] theorem State.updTer_launches (s : State) (u : Nat) (f : Terrace → Terrace) : (s.updTer u f).launches = s.launches := rfl
@[simp] theorem State.updTer_quarters (s : State) (u : Nat) (f : Terrace → Terrace) : (s.updTer u f).quarters = s.quarters := rfl
@[simp] theorem State.updTer_poppers (s : State) (u : Nat) (f : Terrace → Terrace) : (s.updTer u f).poppers = s.poppers := rfl
@[simp] theorem State.updTer_partials (s : State) (u : Nat) (f : Terrace → Terrace) : (s.updTer u f).partials = s.partials := rfl
@[simp] theorem State.updTer_accs (s : State) (u : Nat) (f : Terrace → Terrace) : (s.updTer u f).accs = s.accs := rfl
@[simp] theorem State.updTer_staged (s : State) (u : Nat) (f : Terrace → Terrace) : (s.updTer u f).staged = s.staged := rfl
@[simp] theorem State.updTer_domains (s : State) (u : Nat) (f : Terrace → Terrace) : (s.updTer u f).domains = s.domains := rfl
@[simp] theorem State.updTer_gangs (s : State) (u : Nat) (f : Terrace → Terrace) : (s.updTer u f).gangs = s.gangs := rfl
@[simp] theorem State.updTer_groups (s : State) (u : Nat) (f : Terrace → Terrace) : (s.updTer u f).groups = s.groups := rfl
@[simp] theorem State.updTer_colls (s : State) (u : Nat) (f : Terrace → Terrace) : (s.updTer u f).colls = s.colls := rfl
@[simp] theorem State.updTer_rounds (s : State) (u : Nat) (f : Terrace → Terrace) : (s.updTer u f).rounds = s.rounds := rfl
@[simp] theorem State.updTer_tiles (s : State) (u : Nat) (f : Terrace → Terrace) : (s.updTer u f).tiles = s.tiles := rfl
@[simp] theorem State.updTer_bcs (s : State) (u : Nat) (f : Terrace → Terrace) : (s.updTer u f).bcs = s.bcs := rfl
@[simp] theorem State.updTer_shoots (s : State) (u : Nat) (f : Terrace → Terrace) : (s.updTer u f).shoots = s.shoots := rfl
@[simp] theorem State.updTer_cmds (s : State) (u : Nat) (f : Terrace → Terrace) : (s.updTer u f).cmds = s.cmds := rfl
@[simp] theorem State.updTer_flaws (s : State) (u : Nat) (f : Terrace → Terrace) : (s.updTer u f).flaws = s.flaws := rfl
@[simp] theorem State.updTer_hostOut (s : State) (u : Nat) (f : Terrace → Terrace) : (s.updTer u f).hostOut = s.hostOut := rfl
@[simp] theorem State.updTer_hostGot (s : State) (u : Nat) (f : Terrace → Terrace) : (s.updTer u f).hostGot = s.hostGot := rfl
@[simp] theorem State.updTer_answers (s : State) (u : Nat) (f : Terrace → Terrace) : (s.updTer u f).answers = s.answers := rfl
@[simp] theorem State.updTer_asks (s : State) (u : Nat) (f : Terrace → Terrace) : (s.updTer u f).asks = s.asks := rfl
@[simp] theorem State.updTer_intakes (s : State) (u : Nat) (f : Terrace → Terrace) : (s.updTer u f).intakes = s.intakes := rfl
@[simp] theorem State.updTer_fabOut (s : State) (u : Nat) (f : Terrace → Terrace) : (s.updTer u f).fabOut = s.fabOut := rfl
@[simp] theorem State.updTer_egress (s : State) (u : Nat) (f : Terrace → Terrace) : (s.updTer u f).egress = s.egress := rfl
@[simp] theorem State.updTer_spill (s : State) (u : Nat) (f : Terrace → Terrace) : (s.updTer u f).spill = s.spill := rfl
@[simp] theorem State.updTer_waitFab (s : State) (u : Nat) (f : Terrace → Terrace) : (s.updTer u f).waitFab = s.waitFab := rfl
@[simp] theorem State.updTer_lists (s : State) (u : Nat) (f : Terrace → Terrace) : (s.updTer u f).lists = s.lists := rfl
@[simp] theorem State.updTer_routes (s : State) (u : Nat) (f : Terrace → Terrace) : (s.updTer u f).routes = s.routes := rfl
@[simp] theorem State.updTer_replies (s : State) (u : Nat) (f : Terrace → Terrace) : (s.updTer u f).replies = s.replies := rfl
@[simp] theorem State.updTer_wdogUs (s : State) (u : Nat) (f : Terrace → Terrace) : (s.updTer u f).wdogUs = s.wdogUs := rfl
@[simp] theorem State.updTer_unitErrs (s : State) (u : Nat) (f : Terrace → Terrace) : (s.updTer u f).unitErrs = s.unitErrs := rfl
@[simp] theorem State.updTer_retired (s : State) (u : Nat) (f : Terrace → Terrace) : (s.updTer u f).retired = s.retired := rfl
@[simp] theorem State.updTer_harvested (s : State) (u : Nat) (f : Terrace → Terrace) : (s.updTer u f).harvested = s.harvested := rfl
@[simp] theorem State.updTer_cores (s : State) (u : Nat) (f : Terrace → Terrace) : (s.updTer u f).cores = s.cores := rfl
@[simp] theorem State.updTer_parts (s : State) (u : Nat) (f : Terrace → Terrace) : (s.updTer u f).parts = s.parts := rfl
@[simp] theorem State.updTer_acc (s : State) (u : Nat) (f : Terrace → Terrace) : (s.updTer u f).acc = s.acc := rfl
@[simp] theorem State.updTer_progress (s : State) (u : Nat) (f : Terrace → Terrace) : (s.updTer u f).progress = s.progress := rfl
@[simp] theorem State.updTer_jobs (s : State) (u : Nat) (f : Terrace → Terrace) : (s.updTer u f).jobs = s.jobs := rfl
@[simp] theorem State.updTer_tenants (s : State) (u : Nat) (f : Terrace → Terrace) : (s.updTer u f).tenants = s.tenants := rfl
@[simp] theorem State.updTer_colours (s : State) (u : Nat) (f : Terrace → Terrace) : (s.updTer u f).colours = s.colours := rfl
@[simp] theorem State.updTer_dies (s : State) (u : Nat) (f : Terrace → Terrace) : (s.updTer u f).dies = s.dies := rfl
@[simp] theorem State.updTer_hlog (s : State) (u : Nat) (f : Terrace → Terrace) : (s.updTer u f).hlog = s.hlog := rfl
@[simp] theorem State.updTer_errored (s : State) (u : Nat) (f : Terrace → Terrace) : (s.updTer u f).errored = s.errored := rfl
@[simp] theorem State.updTer_frozen (s : State) (u : Nat) (f : Terrace → Terrace) : (s.updTer u f).frozen = s.frozen := rfl
@[simp] theorem State.updTer_dark (s : State) (u : Nat) (f : Terrace → Terrace) : (s.updTer u f).dark = s.dark := rfl
@[simp] theorem State.updTer_posI (s : State) (u : Nat) (f : Terrace → Terrace) : (s.updTer u f).posI = s.posI := rfl
@[simp] theorem State.updTer_posJ (s : State) (u : Nat) (f : Terrace → Terrace) : (s.updTer u f).posJ = s.posJ := rfl
@[simp] theorem State.updTer_issue (s : State) (u : Nat) (f : Terrace → Terrace) : (s.updTer u f).issue = s.issue := rfl
@[simp] theorem State.updTer_agenda (s : State) (u : Nat) (f : Terrace → Terrace) : (s.updTer u f).agenda = s.agenda := rfl
@[simp] theorem State.updTer_tick (s : State) (u : Nat) (f : Terrace → Terrace) : (s.updTer u f).tick = s.tick := rfl
@[simp] theorem State.updTer_fresh (s : State) (u : Nat) (f : Terrace → Terrace) : (s.updTer u f).fresh = s.fresh := rfl

/-! ## setTer -/

@[simp] theorem State.setTer_mem (s : State) (t : Terrace) : (s.setTer t).mem = s.mem := rfl
@[simp] theorem State.setTer_wbuf (s : State) (t : Terrace) : (s.setTer t).wbuf = s.wbuf := rfl
@[simp] theorem State.setTer_teams (s : State) (t : Terrace) : (s.setTer t).teams = s.teams := rfl
@[simp] theorem State.setTer_ended (s : State) (t : Terrace) : (s.setTer t).ended = s.ended := rfl
@[simp] theorem State.setTer_launches (s : State) (t : Terrace) : (s.setTer t).launches = s.launches := rfl
@[simp] theorem State.setTer_quarters (s : State) (t : Terrace) : (s.setTer t).quarters = s.quarters := rfl
@[simp] theorem State.setTer_poppers (s : State) (t : Terrace) : (s.setTer t).poppers = s.poppers := rfl
@[simp] theorem State.setTer_partials (s : State) (t : Terrace) : (s.setTer t).partials = s.partials := rfl
@[simp] theorem State.setTer_accs (s : State) (t : Terrace) : (s.setTer t).accs = s.accs := rfl
@[simp] theorem State.setTer_staged (s : State) (t : Terrace) : (s.setTer t).staged = s.staged := rfl
@[simp] theorem State.setTer_domains (s : State) (t : Terrace) : (s.setTer t).domains = s.domains := rfl
@[simp] theorem State.setTer_gangs (s : State) (t : Terrace) : (s.setTer t).gangs = s.gangs := rfl
@[simp] theorem State.setTer_groups (s : State) (t : Terrace) : (s.setTer t).groups = s.groups := rfl
@[simp] theorem State.setTer_colls (s : State) (t : Terrace) : (s.setTer t).colls = s.colls := rfl
@[simp] theorem State.setTer_rounds (s : State) (t : Terrace) : (s.setTer t).rounds = s.rounds := rfl
@[simp] theorem State.setTer_tiles (s : State) (t : Terrace) : (s.setTer t).tiles = s.tiles := rfl
@[simp] theorem State.setTer_bcs (s : State) (t : Terrace) : (s.setTer t).bcs = s.bcs := rfl
@[simp] theorem State.setTer_shoots (s : State) (t : Terrace) : (s.setTer t).shoots = s.shoots := rfl
@[simp] theorem State.setTer_cmds (s : State) (t : Terrace) : (s.setTer t).cmds = s.cmds := rfl
@[simp] theorem State.setTer_flaws (s : State) (t : Terrace) : (s.setTer t).flaws = s.flaws := rfl
@[simp] theorem State.setTer_hostOut (s : State) (t : Terrace) : (s.setTer t).hostOut = s.hostOut := rfl
@[simp] theorem State.setTer_hostGot (s : State) (t : Terrace) : (s.setTer t).hostGot = s.hostGot := rfl
@[simp] theorem State.setTer_answers (s : State) (t : Terrace) : (s.setTer t).answers = s.answers := rfl
@[simp] theorem State.setTer_asks (s : State) (t : Terrace) : (s.setTer t).asks = s.asks := rfl
@[simp] theorem State.setTer_intakes (s : State) (t : Terrace) : (s.setTer t).intakes = s.intakes := rfl
@[simp] theorem State.setTer_fabOut (s : State) (t : Terrace) : (s.setTer t).fabOut = s.fabOut := rfl
@[simp] theorem State.setTer_egress (s : State) (t : Terrace) : (s.setTer t).egress = s.egress := rfl
@[simp] theorem State.setTer_spill (s : State) (t : Terrace) : (s.setTer t).spill = s.spill := rfl
@[simp] theorem State.setTer_waitFab (s : State) (t : Terrace) : (s.setTer t).waitFab = s.waitFab := rfl
@[simp] theorem State.setTer_lists (s : State) (t : Terrace) : (s.setTer t).lists = s.lists := rfl
@[simp] theorem State.setTer_routes (s : State) (t : Terrace) : (s.setTer t).routes = s.routes := rfl
@[simp] theorem State.setTer_replies (s : State) (t : Terrace) : (s.setTer t).replies = s.replies := rfl
@[simp] theorem State.setTer_wdogUs (s : State) (t : Terrace) : (s.setTer t).wdogUs = s.wdogUs := rfl
@[simp] theorem State.setTer_unitErrs (s : State) (t : Terrace) : (s.setTer t).unitErrs = s.unitErrs := rfl
@[simp] theorem State.setTer_retired (s : State) (t : Terrace) : (s.setTer t).retired = s.retired := rfl
@[simp] theorem State.setTer_harvested (s : State) (t : Terrace) : (s.setTer t).harvested = s.harvested := rfl
@[simp] theorem State.setTer_cores (s : State) (t : Terrace) : (s.setTer t).cores = s.cores := rfl
@[simp] theorem State.setTer_parts (s : State) (t : Terrace) : (s.setTer t).parts = s.parts := rfl
@[simp] theorem State.setTer_acc (s : State) (t : Terrace) : (s.setTer t).acc = s.acc := rfl
@[simp] theorem State.setTer_progress (s : State) (t : Terrace) : (s.setTer t).progress = s.progress := rfl
@[simp] theorem State.setTer_jobs (s : State) (t : Terrace) : (s.setTer t).jobs = s.jobs := rfl
@[simp] theorem State.setTer_tenants (s : State) (t : Terrace) : (s.setTer t).tenants = s.tenants := rfl
@[simp] theorem State.setTer_colours (s : State) (t : Terrace) : (s.setTer t).colours = s.colours := rfl
@[simp] theorem State.setTer_dies (s : State) (t : Terrace) : (s.setTer t).dies = s.dies := rfl
@[simp] theorem State.setTer_hlog (s : State) (t : Terrace) : (s.setTer t).hlog = s.hlog := rfl
@[simp] theorem State.setTer_errored (s : State) (t : Terrace) : (s.setTer t).errored = s.errored := rfl
@[simp] theorem State.setTer_frozen (s : State) (t : Terrace) : (s.setTer t).frozen = s.frozen := rfl
@[simp] theorem State.setTer_dark (s : State) (t : Terrace) : (s.setTer t).dark = s.dark := rfl
@[simp] theorem State.setTer_posI (s : State) (t : Terrace) : (s.setTer t).posI = s.posI := rfl
@[simp] theorem State.setTer_posJ (s : State) (t : Terrace) : (s.setTer t).posJ = s.posJ := rfl
@[simp] theorem State.setTer_issue (s : State) (t : Terrace) : (s.setTer t).issue = s.issue := rfl
@[simp] theorem State.setTer_agenda (s : State) (t : Terrace) : (s.setTer t).agenda = s.agenda := rfl
@[simp] theorem State.setTer_tick (s : State) (t : Terrace) : (s.setTer t).tick = s.tick := rfl
@[simp] theorem State.setTer_fresh (s : State) (t : Terrace) : (s.setTer t).fresh = s.fresh := rfl

/-! ## updSplit -/

@[simp] theorem State.updSplit_mem (s : State) (u k : Nat) (f : Split → Split) : (s.updSplit u k f).mem = s.mem := rfl
@[simp] theorem State.updSplit_wbuf (s : State) (u k : Nat) (f : Split → Split) : (s.updSplit u k f).wbuf = s.wbuf := rfl
@[simp] theorem State.updSplit_teams (s : State) (u k : Nat) (f : Split → Split) : (s.updSplit u k f).teams = s.teams := rfl
@[simp] theorem State.updSplit_ended (s : State) (u k : Nat) (f : Split → Split) : (s.updSplit u k f).ended = s.ended := rfl
@[simp] theorem State.updSplit_launches (s : State) (u k : Nat) (f : Split → Split) : (s.updSplit u k f).launches = s.launches := rfl
@[simp] theorem State.updSplit_quarters (s : State) (u k : Nat) (f : Split → Split) : (s.updSplit u k f).quarters = s.quarters := rfl
@[simp] theorem State.updSplit_poppers (s : State) (u k : Nat) (f : Split → Split) : (s.updSplit u k f).poppers = s.poppers := rfl
@[simp] theorem State.updSplit_partials (s : State) (u k : Nat) (f : Split → Split) : (s.updSplit u k f).partials = s.partials := rfl
@[simp] theorem State.updSplit_accs (s : State) (u k : Nat) (f : Split → Split) : (s.updSplit u k f).accs = s.accs := rfl
@[simp] theorem State.updSplit_staged (s : State) (u k : Nat) (f : Split → Split) : (s.updSplit u k f).staged = s.staged := rfl
@[simp] theorem State.updSplit_domains (s : State) (u k : Nat) (f : Split → Split) : (s.updSplit u k f).domains = s.domains := rfl
@[simp] theorem State.updSplit_gangs (s : State) (u k : Nat) (f : Split → Split) : (s.updSplit u k f).gangs = s.gangs := rfl
@[simp] theorem State.updSplit_groups (s : State) (u k : Nat) (f : Split → Split) : (s.updSplit u k f).groups = s.groups := rfl
@[simp] theorem State.updSplit_colls (s : State) (u k : Nat) (f : Split → Split) : (s.updSplit u k f).colls = s.colls := rfl
@[simp] theorem State.updSplit_rounds (s : State) (u k : Nat) (f : Split → Split) : (s.updSplit u k f).rounds = s.rounds := rfl
@[simp] theorem State.updSplit_tiles (s : State) (u k : Nat) (f : Split → Split) : (s.updSplit u k f).tiles = s.tiles := rfl
@[simp] theorem State.updSplit_bcs (s : State) (u k : Nat) (f : Split → Split) : (s.updSplit u k f).bcs = s.bcs := rfl
@[simp] theorem State.updSplit_shoots (s : State) (u k : Nat) (f : Split → Split) : (s.updSplit u k f).shoots = s.shoots := rfl
@[simp] theorem State.updSplit_cmds (s : State) (u k : Nat) (f : Split → Split) : (s.updSplit u k f).cmds = s.cmds := rfl
@[simp] theorem State.updSplit_flaws (s : State) (u k : Nat) (f : Split → Split) : (s.updSplit u k f).flaws = s.flaws := rfl
@[simp] theorem State.updSplit_hostOut (s : State) (u k : Nat) (f : Split → Split) : (s.updSplit u k f).hostOut = s.hostOut := rfl
@[simp] theorem State.updSplit_hostGot (s : State) (u k : Nat) (f : Split → Split) : (s.updSplit u k f).hostGot = s.hostGot := rfl
@[simp] theorem State.updSplit_answers (s : State) (u k : Nat) (f : Split → Split) : (s.updSplit u k f).answers = s.answers := rfl
@[simp] theorem State.updSplit_asks (s : State) (u k : Nat) (f : Split → Split) : (s.updSplit u k f).asks = s.asks := rfl
@[simp] theorem State.updSplit_intakes (s : State) (u k : Nat) (f : Split → Split) : (s.updSplit u k f).intakes = s.intakes := rfl
@[simp] theorem State.updSplit_fabOut (s : State) (u k : Nat) (f : Split → Split) : (s.updSplit u k f).fabOut = s.fabOut := rfl
@[simp] theorem State.updSplit_egress (s : State) (u k : Nat) (f : Split → Split) : (s.updSplit u k f).egress = s.egress := rfl
@[simp] theorem State.updSplit_spill (s : State) (u k : Nat) (f : Split → Split) : (s.updSplit u k f).spill = s.spill := rfl
@[simp] theorem State.updSplit_waitFab (s : State) (u k : Nat) (f : Split → Split) : (s.updSplit u k f).waitFab = s.waitFab := rfl
@[simp] theorem State.updSplit_lists (s : State) (u k : Nat) (f : Split → Split) : (s.updSplit u k f).lists = s.lists := rfl
@[simp] theorem State.updSplit_routes (s : State) (u k : Nat) (f : Split → Split) : (s.updSplit u k f).routes = s.routes := rfl
@[simp] theorem State.updSplit_replies (s : State) (u k : Nat) (f : Split → Split) : (s.updSplit u k f).replies = s.replies := rfl
@[simp] theorem State.updSplit_wdogUs (s : State) (u k : Nat) (f : Split → Split) : (s.updSplit u k f).wdogUs = s.wdogUs := rfl
@[simp] theorem State.updSplit_unitErrs (s : State) (u k : Nat) (f : Split → Split) : (s.updSplit u k f).unitErrs = s.unitErrs := rfl
@[simp] theorem State.updSplit_retired (s : State) (u k : Nat) (f : Split → Split) : (s.updSplit u k f).retired = s.retired := rfl
@[simp] theorem State.updSplit_harvested (s : State) (u k : Nat) (f : Split → Split) : (s.updSplit u k f).harvested = s.harvested := rfl
@[simp] theorem State.updSplit_cores (s : State) (u k : Nat) (f : Split → Split) : (s.updSplit u k f).cores = s.cores := rfl
@[simp] theorem State.updSplit_parts (s : State) (u k : Nat) (f : Split → Split) : (s.updSplit u k f).parts = s.parts := rfl
@[simp] theorem State.updSplit_acc (s : State) (u k : Nat) (f : Split → Split) : (s.updSplit u k f).acc = s.acc := rfl
@[simp] theorem State.updSplit_progress (s : State) (u k : Nat) (f : Split → Split) : (s.updSplit u k f).progress = s.progress := rfl
@[simp] theorem State.updSplit_jobs (s : State) (u k : Nat) (f : Split → Split) : (s.updSplit u k f).jobs = s.jobs := rfl
@[simp] theorem State.updSplit_tenants (s : State) (u k : Nat) (f : Split → Split) : (s.updSplit u k f).tenants = s.tenants := rfl
@[simp] theorem State.updSplit_colours (s : State) (u k : Nat) (f : Split → Split) : (s.updSplit u k f).colours = s.colours := rfl
@[simp] theorem State.updSplit_dies (s : State) (u k : Nat) (f : Split → Split) : (s.updSplit u k f).dies = s.dies := rfl
@[simp] theorem State.updSplit_hlog (s : State) (u k : Nat) (f : Split → Split) : (s.updSplit u k f).hlog = s.hlog := rfl
@[simp] theorem State.updSplit_errored (s : State) (u k : Nat) (f : Split → Split) : (s.updSplit u k f).errored = s.errored := rfl
@[simp] theorem State.updSplit_frozen (s : State) (u k : Nat) (f : Split → Split) : (s.updSplit u k f).frozen = s.frozen := rfl
@[simp] theorem State.updSplit_dark (s : State) (u k : Nat) (f : Split → Split) : (s.updSplit u k f).dark = s.dark := rfl
@[simp] theorem State.updSplit_posI (s : State) (u k : Nat) (f : Split → Split) : (s.updSplit u k f).posI = s.posI := rfl
@[simp] theorem State.updSplit_posJ (s : State) (u k : Nat) (f : Split → Split) : (s.updSplit u k f).posJ = s.posJ := rfl
@[simp] theorem State.updSplit_issue (s : State) (u k : Nat) (f : Split → Split) : (s.updSplit u k f).issue = s.issue := rfl
@[simp] theorem State.updSplit_agenda (s : State) (u k : Nat) (f : Split → Split) : (s.updSplit u k f).agenda = s.agenda := rfl
@[simp] theorem State.updSplit_tick (s : State) (u k : Nat) (f : Split → Split) : (s.updSplit u k f).tick = s.tick := rfl
@[simp] theorem State.updSplit_fresh (s : State) (u k : Nat) (f : Split → Split) : (s.updSplit u k f).fresh = s.fresh := rfl

/-! ## updPart -/

@[simp] theorem State.updPart_mem (s : State) (c p : Nat) (f : Part → Part) : (s.updPart c p f).mem = s.mem := rfl
@[simp] theorem State.updPart_wbuf (s : State) (c p : Nat) (f : Part → Part) : (s.updPart c p f).wbuf = s.wbuf := rfl
@[simp] theorem State.updPart_ters (s : State) (c p : Nat) (f : Part → Part) : (s.updPart c p f).ters = s.ters := rfl
@[simp] theorem State.updPart_teams (s : State) (c p : Nat) (f : Part → Part) : (s.updPart c p f).teams = s.teams := rfl
@[simp] theorem State.updPart_ended (s : State) (c p : Nat) (f : Part → Part) : (s.updPart c p f).ended = s.ended := rfl
@[simp] theorem State.updPart_launches (s : State) (c p : Nat) (f : Part → Part) : (s.updPart c p f).launches = s.launches := rfl
@[simp] theorem State.updPart_quarters (s : State) (c p : Nat) (f : Part → Part) : (s.updPart c p f).quarters = s.quarters := rfl
@[simp] theorem State.updPart_poppers (s : State) (c p : Nat) (f : Part → Part) : (s.updPart c p f).poppers = s.poppers := rfl
@[simp] theorem State.updPart_partials (s : State) (c p : Nat) (f : Part → Part) : (s.updPart c p f).partials = s.partials := rfl
@[simp] theorem State.updPart_accs (s : State) (c p : Nat) (f : Part → Part) : (s.updPart c p f).accs = s.accs := rfl
@[simp] theorem State.updPart_staged (s : State) (c p : Nat) (f : Part → Part) : (s.updPart c p f).staged = s.staged := rfl
@[simp] theorem State.updPart_domains (s : State) (c p : Nat) (f : Part → Part) : (s.updPart c p f).domains = s.domains := rfl
@[simp] theorem State.updPart_gangs (s : State) (c p : Nat) (f : Part → Part) : (s.updPart c p f).gangs = s.gangs := rfl
@[simp] theorem State.updPart_groups (s : State) (c p : Nat) (f : Part → Part) : (s.updPart c p f).groups = s.groups := rfl
@[simp] theorem State.updPart_colls (s : State) (c p : Nat) (f : Part → Part) : (s.updPart c p f).colls = s.colls := rfl
@[simp] theorem State.updPart_rounds (s : State) (c p : Nat) (f : Part → Part) : (s.updPart c p f).rounds = s.rounds := rfl
@[simp] theorem State.updPart_tiles (s : State) (c p : Nat) (f : Part → Part) : (s.updPart c p f).tiles = s.tiles := rfl
@[simp] theorem State.updPart_bcs (s : State) (c p : Nat) (f : Part → Part) : (s.updPart c p f).bcs = s.bcs := rfl
@[simp] theorem State.updPart_shoots (s : State) (c p : Nat) (f : Part → Part) : (s.updPart c p f).shoots = s.shoots := rfl
@[simp] theorem State.updPart_cmds (s : State) (c p : Nat) (f : Part → Part) : (s.updPart c p f).cmds = s.cmds := rfl
@[simp] theorem State.updPart_flaws (s : State) (c p : Nat) (f : Part → Part) : (s.updPart c p f).flaws = s.flaws := rfl
@[simp] theorem State.updPart_hostOut (s : State) (c p : Nat) (f : Part → Part) : (s.updPart c p f).hostOut = s.hostOut := rfl
@[simp] theorem State.updPart_hostGot (s : State) (c p : Nat) (f : Part → Part) : (s.updPart c p f).hostGot = s.hostGot := rfl
@[simp] theorem State.updPart_answers (s : State) (c p : Nat) (f : Part → Part) : (s.updPart c p f).answers = s.answers := rfl
@[simp] theorem State.updPart_asks (s : State) (c p : Nat) (f : Part → Part) : (s.updPart c p f).asks = s.asks := rfl
@[simp] theorem State.updPart_intakes (s : State) (c p : Nat) (f : Part → Part) : (s.updPart c p f).intakes = s.intakes := rfl
@[simp] theorem State.updPart_fabOut (s : State) (c p : Nat) (f : Part → Part) : (s.updPart c p f).fabOut = s.fabOut := rfl
@[simp] theorem State.updPart_egress (s : State) (c p : Nat) (f : Part → Part) : (s.updPart c p f).egress = s.egress := rfl
@[simp] theorem State.updPart_spill (s : State) (c p : Nat) (f : Part → Part) : (s.updPart c p f).spill = s.spill := rfl
@[simp] theorem State.updPart_waitFab (s : State) (c p : Nat) (f : Part → Part) : (s.updPart c p f).waitFab = s.waitFab := rfl
@[simp] theorem State.updPart_lists (s : State) (c p : Nat) (f : Part → Part) : (s.updPart c p f).lists = s.lists := rfl
@[simp] theorem State.updPart_routes (s : State) (c p : Nat) (f : Part → Part) : (s.updPart c p f).routes = s.routes := rfl
@[simp] theorem State.updPart_replies (s : State) (c p : Nat) (f : Part → Part) : (s.updPart c p f).replies = s.replies := rfl
@[simp] theorem State.updPart_wdogUs (s : State) (c p : Nat) (f : Part → Part) : (s.updPart c p f).wdogUs = s.wdogUs := rfl
@[simp] theorem State.updPart_unitErrs (s : State) (c p : Nat) (f : Part → Part) : (s.updPart c p f).unitErrs = s.unitErrs := rfl
@[simp] theorem State.updPart_retired (s : State) (c p : Nat) (f : Part → Part) : (s.updPart c p f).retired = s.retired := rfl
@[simp] theorem State.updPart_harvested (s : State) (c p : Nat) (f : Part → Part) : (s.updPart c p f).harvested = s.harvested := rfl
@[simp] theorem State.updPart_cores (s : State) (c p : Nat) (f : Part → Part) : (s.updPart c p f).cores = s.cores := rfl
@[simp] theorem State.updPart_acc (s : State) (c p : Nat) (f : Part → Part) : (s.updPart c p f).acc = s.acc := rfl
@[simp] theorem State.updPart_progress (s : State) (c p : Nat) (f : Part → Part) : (s.updPart c p f).progress = s.progress := rfl
@[simp] theorem State.updPart_jobs (s : State) (c p : Nat) (f : Part → Part) : (s.updPart c p f).jobs = s.jobs := rfl
@[simp] theorem State.updPart_tenants (s : State) (c p : Nat) (f : Part → Part) : (s.updPart c p f).tenants = s.tenants := rfl
@[simp] theorem State.updPart_colours (s : State) (c p : Nat) (f : Part → Part) : (s.updPart c p f).colours = s.colours := rfl
@[simp] theorem State.updPart_dies (s : State) (c p : Nat) (f : Part → Part) : (s.updPart c p f).dies = s.dies := rfl
@[simp] theorem State.updPart_hlog (s : State) (c p : Nat) (f : Part → Part) : (s.updPart c p f).hlog = s.hlog := rfl
@[simp] theorem State.updPart_errored (s : State) (c p : Nat) (f : Part → Part) : (s.updPart c p f).errored = s.errored := rfl
@[simp] theorem State.updPart_frozen (s : State) (c p : Nat) (f : Part → Part) : (s.updPart c p f).frozen = s.frozen := rfl
@[simp] theorem State.updPart_dark (s : State) (c p : Nat) (f : Part → Part) : (s.updPart c p f).dark = s.dark := rfl
@[simp] theorem State.updPart_posI (s : State) (c p : Nat) (f : Part → Part) : (s.updPart c p f).posI = s.posI := rfl
@[simp] theorem State.updPart_posJ (s : State) (c p : Nat) (f : Part → Part) : (s.updPart c p f).posJ = s.posJ := rfl
@[simp] theorem State.updPart_issue (s : State) (c p : Nat) (f : Part → Part) : (s.updPart c p f).issue = s.issue := rfl
@[simp] theorem State.updPart_agenda (s : State) (c p : Nat) (f : Part → Part) : (s.updPart c p f).agenda = s.agenda := rfl
@[simp] theorem State.updPart_tick (s : State) (c p : Nat) (f : Part → Part) : (s.updPart c p f).tick = s.tick := rfl
@[simp] theorem State.updPart_fresh (s : State) (c p : Nat) (f : Part → Part) : (s.updPart c p f).fresh = s.fresh := rfl

/-! ## count -/

@[simp] theorem State.count_mem (s : State) (c p e n : Nat) : (s.count c p e n).mem = s.mem := rfl
@[simp] theorem State.count_wbuf (s : State) (c p e n : Nat) : (s.count c p e n).wbuf = s.wbuf := rfl
@[simp] theorem State.count_ters (s : State) (c p e n : Nat) : (s.count c p e n).ters = s.ters := rfl
@[simp] theorem State.count_teams (s : State) (c p e n : Nat) : (s.count c p e n).teams = s.teams := rfl
@[simp] theorem State.count_ended (s : State) (c p e n : Nat) : (s.count c p e n).ended = s.ended := rfl
@[simp] theorem State.count_launches (s : State) (c p e n : Nat) : (s.count c p e n).launches = s.launches := rfl
@[simp] theorem State.count_quarters (s : State) (c p e n : Nat) : (s.count c p e n).quarters = s.quarters := rfl
@[simp] theorem State.count_poppers (s : State) (c p e n : Nat) : (s.count c p e n).poppers = s.poppers := rfl
@[simp] theorem State.count_partials (s : State) (c p e n : Nat) : (s.count c p e n).partials = s.partials := rfl
@[simp] theorem State.count_accs (s : State) (c p e n : Nat) : (s.count c p e n).accs = s.accs := rfl
@[simp] theorem State.count_staged (s : State) (c p e n : Nat) : (s.count c p e n).staged = s.staged := rfl
@[simp] theorem State.count_domains (s : State) (c p e n : Nat) : (s.count c p e n).domains = s.domains := rfl
@[simp] theorem State.count_gangs (s : State) (c p e n : Nat) : (s.count c p e n).gangs = s.gangs := rfl
@[simp] theorem State.count_groups (s : State) (c p e n : Nat) : (s.count c p e n).groups = s.groups := rfl
@[simp] theorem State.count_colls (s : State) (c p e n : Nat) : (s.count c p e n).colls = s.colls := rfl
@[simp] theorem State.count_rounds (s : State) (c p e n : Nat) : (s.count c p e n).rounds = s.rounds := rfl
@[simp] theorem State.count_tiles (s : State) (c p e n : Nat) : (s.count c p e n).tiles = s.tiles := rfl
@[simp] theorem State.count_bcs (s : State) (c p e n : Nat) : (s.count c p e n).bcs = s.bcs := rfl
@[simp] theorem State.count_shoots (s : State) (c p e n : Nat) : (s.count c p e n).shoots = s.shoots := rfl
@[simp] theorem State.count_cmds (s : State) (c p e n : Nat) : (s.count c p e n).cmds = s.cmds := rfl
@[simp] theorem State.count_flaws (s : State) (c p e n : Nat) : (s.count c p e n).flaws = s.flaws := rfl
@[simp] theorem State.count_hostOut (s : State) (c p e n : Nat) : (s.count c p e n).hostOut = s.hostOut := rfl
@[simp] theorem State.count_hostGot (s : State) (c p e n : Nat) : (s.count c p e n).hostGot = s.hostGot := rfl
@[simp] theorem State.count_answers (s : State) (c p e n : Nat) : (s.count c p e n).answers = s.answers := rfl
@[simp] theorem State.count_asks (s : State) (c p e n : Nat) : (s.count c p e n).asks = s.asks := rfl
@[simp] theorem State.count_intakes (s : State) (c p e n : Nat) : (s.count c p e n).intakes = s.intakes := rfl
@[simp] theorem State.count_fabOut (s : State) (c p e n : Nat) : (s.count c p e n).fabOut = s.fabOut := rfl
@[simp] theorem State.count_egress (s : State) (c p e n : Nat) : (s.count c p e n).egress = s.egress := rfl
@[simp] theorem State.count_spill (s : State) (c p e n : Nat) : (s.count c p e n).spill = s.spill := rfl
@[simp] theorem State.count_waitFab (s : State) (c p e n : Nat) : (s.count c p e n).waitFab = s.waitFab := rfl
@[simp] theorem State.count_lists (s : State) (c p e n : Nat) : (s.count c p e n).lists = s.lists := rfl
@[simp] theorem State.count_routes (s : State) (c p e n : Nat) : (s.count c p e n).routes = s.routes := rfl
@[simp] theorem State.count_replies (s : State) (c p e n : Nat) : (s.count c p e n).replies = s.replies := rfl
@[simp] theorem State.count_wdogUs (s : State) (c p e n : Nat) : (s.count c p e n).wdogUs = s.wdogUs := rfl
@[simp] theorem State.count_unitErrs (s : State) (c p e n : Nat) : (s.count c p e n).unitErrs = s.unitErrs := rfl
@[simp] theorem State.count_retired (s : State) (c p e n : Nat) : (s.count c p e n).retired = s.retired := rfl
@[simp] theorem State.count_harvested (s : State) (c p e n : Nat) : (s.count c p e n).harvested = s.harvested := rfl
@[simp] theorem State.count_cores (s : State) (c p e n : Nat) : (s.count c p e n).cores = s.cores := rfl
@[simp] theorem State.count_acc (s : State) (c p e n : Nat) : (s.count c p e n).acc = s.acc := rfl
@[simp] theorem State.count_progress (s : State) (c p e n : Nat) : (s.count c p e n).progress = s.progress := rfl
@[simp] theorem State.count_jobs (s : State) (c p e n : Nat) : (s.count c p e n).jobs = s.jobs := rfl
@[simp] theorem State.count_tenants (s : State) (c p e n : Nat) : (s.count c p e n).tenants = s.tenants := rfl
@[simp] theorem State.count_colours (s : State) (c p e n : Nat) : (s.count c p e n).colours = s.colours := rfl
@[simp] theorem State.count_dies (s : State) (c p e n : Nat) : (s.count c p e n).dies = s.dies := rfl
@[simp] theorem State.count_hlog (s : State) (c p e n : Nat) : (s.count c p e n).hlog = s.hlog := rfl
@[simp] theorem State.count_errored (s : State) (c p e n : Nat) : (s.count c p e n).errored = s.errored := rfl
@[simp] theorem State.count_frozen (s : State) (c p e n : Nat) : (s.count c p e n).frozen = s.frozen := rfl
@[simp] theorem State.count_dark (s : State) (c p e n : Nat) : (s.count c p e n).dark = s.dark := rfl
@[simp] theorem State.count_posI (s : State) (c p e n : Nat) : (s.count c p e n).posI = s.posI := rfl
@[simp] theorem State.count_posJ (s : State) (c p e n : Nat) : (s.count c p e n).posJ = s.posJ := rfl
@[simp] theorem State.count_issue (s : State) (c p e n : Nat) : (s.count c p e n).issue = s.issue := rfl
@[simp] theorem State.count_agenda (s : State) (c p e n : Nat) : (s.count c p e n).agenda = s.agenda := rfl
@[simp] theorem State.count_tick (s : State) (c p e n : Nat) : (s.count c p e n).tick = s.tick := rfl
@[simp] theorem State.count_fresh (s : State) (c p e n : Nat) : (s.count c p e n).fresh = s.fresh := rfl

/-! ## setCore -/

@[simp] theorem State.setCore_mem (s : State) (c : Nat) (k : Core) : (s.setCore c k).mem = s.mem := rfl
@[simp] theorem State.setCore_wbuf (s : State) (c : Nat) (k : Core) : (s.setCore c k).wbuf = s.wbuf := rfl
@[simp] theorem State.setCore_ters (s : State) (c : Nat) (k : Core) : (s.setCore c k).ters = s.ters := rfl
@[simp] theorem State.setCore_teams (s : State) (c : Nat) (k : Core) : (s.setCore c k).teams = s.teams := rfl
@[simp] theorem State.setCore_ended (s : State) (c : Nat) (k : Core) : (s.setCore c k).ended = s.ended := rfl
@[simp] theorem State.setCore_launches (s : State) (c : Nat) (k : Core) : (s.setCore c k).launches = s.launches := rfl
@[simp] theorem State.setCore_quarters (s : State) (c : Nat) (k : Core) : (s.setCore c k).quarters = s.quarters := rfl
@[simp] theorem State.setCore_poppers (s : State) (c : Nat) (k : Core) : (s.setCore c k).poppers = s.poppers := rfl
@[simp] theorem State.setCore_partials (s : State) (c : Nat) (k : Core) : (s.setCore c k).partials = s.partials := rfl
@[simp] theorem State.setCore_accs (s : State) (c : Nat) (k : Core) : (s.setCore c k).accs = s.accs := rfl
@[simp] theorem State.setCore_staged (s : State) (c : Nat) (k : Core) : (s.setCore c k).staged = s.staged := rfl
@[simp] theorem State.setCore_domains (s : State) (c : Nat) (k : Core) : (s.setCore c k).domains = s.domains := rfl
@[simp] theorem State.setCore_gangs (s : State) (c : Nat) (k : Core) : (s.setCore c k).gangs = s.gangs := rfl
@[simp] theorem State.setCore_groups (s : State) (c : Nat) (k : Core) : (s.setCore c k).groups = s.groups := rfl
@[simp] theorem State.setCore_colls (s : State) (c : Nat) (k : Core) : (s.setCore c k).colls = s.colls := rfl
@[simp] theorem State.setCore_rounds (s : State) (c : Nat) (k : Core) : (s.setCore c k).rounds = s.rounds := rfl
@[simp] theorem State.setCore_tiles (s : State) (c : Nat) (k : Core) : (s.setCore c k).tiles = s.tiles := rfl
@[simp] theorem State.setCore_bcs (s : State) (c : Nat) (k : Core) : (s.setCore c k).bcs = s.bcs := rfl
@[simp] theorem State.setCore_shoots (s : State) (c : Nat) (k : Core) : (s.setCore c k).shoots = s.shoots := rfl
@[simp] theorem State.setCore_cmds (s : State) (c : Nat) (k : Core) : (s.setCore c k).cmds = s.cmds := rfl
@[simp] theorem State.setCore_flaws (s : State) (c : Nat) (k : Core) : (s.setCore c k).flaws = s.flaws := rfl
@[simp] theorem State.setCore_hostOut (s : State) (c : Nat) (k : Core) : (s.setCore c k).hostOut = s.hostOut := rfl
@[simp] theorem State.setCore_hostGot (s : State) (c : Nat) (k : Core) : (s.setCore c k).hostGot = s.hostGot := rfl
@[simp] theorem State.setCore_answers (s : State) (c : Nat) (k : Core) : (s.setCore c k).answers = s.answers := rfl
@[simp] theorem State.setCore_asks (s : State) (c : Nat) (k : Core) : (s.setCore c k).asks = s.asks := rfl
@[simp] theorem State.setCore_intakes (s : State) (c : Nat) (k : Core) : (s.setCore c k).intakes = s.intakes := rfl
@[simp] theorem State.setCore_fabOut (s : State) (c : Nat) (k : Core) : (s.setCore c k).fabOut = s.fabOut := rfl
@[simp] theorem State.setCore_egress (s : State) (c : Nat) (k : Core) : (s.setCore c k).egress = s.egress := rfl
@[simp] theorem State.setCore_spill (s : State) (c : Nat) (k : Core) : (s.setCore c k).spill = s.spill := rfl
@[simp] theorem State.setCore_waitFab (s : State) (c : Nat) (k : Core) : (s.setCore c k).waitFab = s.waitFab := rfl
@[simp] theorem State.setCore_lists (s : State) (c : Nat) (k : Core) : (s.setCore c k).lists = s.lists := rfl
@[simp] theorem State.setCore_routes (s : State) (c : Nat) (k : Core) : (s.setCore c k).routes = s.routes := rfl
@[simp] theorem State.setCore_replies (s : State) (c : Nat) (k : Core) : (s.setCore c k).replies = s.replies := rfl
@[simp] theorem State.setCore_wdogUs (s : State) (c : Nat) (k : Core) : (s.setCore c k).wdogUs = s.wdogUs := rfl
@[simp] theorem State.setCore_unitErrs (s : State) (c : Nat) (k : Core) : (s.setCore c k).unitErrs = s.unitErrs := rfl
@[simp] theorem State.setCore_retired (s : State) (c : Nat) (k : Core) : (s.setCore c k).retired = s.retired := rfl
@[simp] theorem State.setCore_harvested (s : State) (c : Nat) (k : Core) : (s.setCore c k).harvested = s.harvested := rfl
@[simp] theorem State.setCore_parts (s : State) (c : Nat) (k : Core) : (s.setCore c k).parts = s.parts := rfl
@[simp] theorem State.setCore_acc (s : State) (c : Nat) (k : Core) : (s.setCore c k).acc = s.acc := rfl
@[simp] theorem State.setCore_progress (s : State) (c : Nat) (k : Core) : (s.setCore c k).progress = s.progress := rfl
@[simp] theorem State.setCore_jobs (s : State) (c : Nat) (k : Core) : (s.setCore c k).jobs = s.jobs := rfl
@[simp] theorem State.setCore_tenants (s : State) (c : Nat) (k : Core) : (s.setCore c k).tenants = s.tenants := rfl
@[simp] theorem State.setCore_colours (s : State) (c : Nat) (k : Core) : (s.setCore c k).colours = s.colours := rfl
@[simp] theorem State.setCore_dies (s : State) (c : Nat) (k : Core) : (s.setCore c k).dies = s.dies := rfl
@[simp] theorem State.setCore_hlog (s : State) (c : Nat) (k : Core) : (s.setCore c k).hlog = s.hlog := rfl
@[simp] theorem State.setCore_errored (s : State) (c : Nat) (k : Core) : (s.setCore c k).errored = s.errored := rfl
@[simp] theorem State.setCore_frozen (s : State) (c : Nat) (k : Core) : (s.setCore c k).frozen = s.frozen := rfl
@[simp] theorem State.setCore_dark (s : State) (c : Nat) (k : Core) : (s.setCore c k).dark = s.dark := rfl
@[simp] theorem State.setCore_posI (s : State) (c : Nat) (k : Core) : (s.setCore c k).posI = s.posI := rfl
@[simp] theorem State.setCore_posJ (s : State) (c : Nat) (k : Core) : (s.setCore c k).posJ = s.posJ := rfl
@[simp] theorem State.setCore_issue (s : State) (c : Nat) (k : Core) : (s.setCore c k).issue = s.issue := rfl
@[simp] theorem State.setCore_agenda (s : State) (c : Nat) (k : Core) : (s.setCore c k).agenda = s.agenda := rfl
@[simp] theorem State.setCore_tick (s : State) (c : Nat) (k : Core) : (s.setCore c k).tick = s.tick := rfl
@[simp] theorem State.setCore_fresh (s : State) (c : Nat) (k : Core) : (s.setCore c k).fresh = s.fresh := rfl

/-! ## setDie -/

@[simp] theorem State.setDie_mem (s : State) (d : Nat) (x : Die) : (s.setDie d x).mem = s.mem := rfl
@[simp] theorem State.setDie_wbuf (s : State) (d : Nat) (x : Die) : (s.setDie d x).wbuf = s.wbuf := rfl
@[simp] theorem State.setDie_ters (s : State) (d : Nat) (x : Die) : (s.setDie d x).ters = s.ters := rfl
@[simp] theorem State.setDie_teams (s : State) (d : Nat) (x : Die) : (s.setDie d x).teams = s.teams := rfl
@[simp] theorem State.setDie_ended (s : State) (d : Nat) (x : Die) : (s.setDie d x).ended = s.ended := rfl
@[simp] theorem State.setDie_launches (s : State) (d : Nat) (x : Die) : (s.setDie d x).launches = s.launches := rfl
@[simp] theorem State.setDie_quarters (s : State) (d : Nat) (x : Die) : (s.setDie d x).quarters = s.quarters := rfl
@[simp] theorem State.setDie_poppers (s : State) (d : Nat) (x : Die) : (s.setDie d x).poppers = s.poppers := rfl
@[simp] theorem State.setDie_partials (s : State) (d : Nat) (x : Die) : (s.setDie d x).partials = s.partials := rfl
@[simp] theorem State.setDie_accs (s : State) (d : Nat) (x : Die) : (s.setDie d x).accs = s.accs := rfl
@[simp] theorem State.setDie_staged (s : State) (d : Nat) (x : Die) : (s.setDie d x).staged = s.staged := rfl
@[simp] theorem State.setDie_domains (s : State) (d : Nat) (x : Die) : (s.setDie d x).domains = s.domains := rfl
@[simp] theorem State.setDie_gangs (s : State) (d : Nat) (x : Die) : (s.setDie d x).gangs = s.gangs := rfl
@[simp] theorem State.setDie_groups (s : State) (d : Nat) (x : Die) : (s.setDie d x).groups = s.groups := rfl
@[simp] theorem State.setDie_colls (s : State) (d : Nat) (x : Die) : (s.setDie d x).colls = s.colls := rfl
@[simp] theorem State.setDie_rounds (s : State) (d : Nat) (x : Die) : (s.setDie d x).rounds = s.rounds := rfl
@[simp] theorem State.setDie_tiles (s : State) (d : Nat) (x : Die) : (s.setDie d x).tiles = s.tiles := rfl
@[simp] theorem State.setDie_bcs (s : State) (d : Nat) (x : Die) : (s.setDie d x).bcs = s.bcs := rfl
@[simp] theorem State.setDie_shoots (s : State) (d : Nat) (x : Die) : (s.setDie d x).shoots = s.shoots := rfl
@[simp] theorem State.setDie_cmds (s : State) (d : Nat) (x : Die) : (s.setDie d x).cmds = s.cmds := rfl
@[simp] theorem State.setDie_flaws (s : State) (d : Nat) (x : Die) : (s.setDie d x).flaws = s.flaws := rfl
@[simp] theorem State.setDie_hostOut (s : State) (d : Nat) (x : Die) : (s.setDie d x).hostOut = s.hostOut := rfl
@[simp] theorem State.setDie_hostGot (s : State) (d : Nat) (x : Die) : (s.setDie d x).hostGot = s.hostGot := rfl
@[simp] theorem State.setDie_answers (s : State) (d : Nat) (x : Die) : (s.setDie d x).answers = s.answers := rfl
@[simp] theorem State.setDie_asks (s : State) (d : Nat) (x : Die) : (s.setDie d x).asks = s.asks := rfl
@[simp] theorem State.setDie_intakes (s : State) (d : Nat) (x : Die) : (s.setDie d x).intakes = s.intakes := rfl
@[simp] theorem State.setDie_fabOut (s : State) (d : Nat) (x : Die) : (s.setDie d x).fabOut = s.fabOut := rfl
@[simp] theorem State.setDie_egress (s : State) (d : Nat) (x : Die) : (s.setDie d x).egress = s.egress := rfl
@[simp] theorem State.setDie_spill (s : State) (d : Nat) (x : Die) : (s.setDie d x).spill = s.spill := rfl
@[simp] theorem State.setDie_waitFab (s : State) (d : Nat) (x : Die) : (s.setDie d x).waitFab = s.waitFab := rfl
@[simp] theorem State.setDie_lists (s : State) (d : Nat) (x : Die) : (s.setDie d x).lists = s.lists := rfl
@[simp] theorem State.setDie_routes (s : State) (d : Nat) (x : Die) : (s.setDie d x).routes = s.routes := rfl
@[simp] theorem State.setDie_replies (s : State) (d : Nat) (x : Die) : (s.setDie d x).replies = s.replies := rfl
@[simp] theorem State.setDie_wdogUs (s : State) (d : Nat) (x : Die) : (s.setDie d x).wdogUs = s.wdogUs := rfl
@[simp] theorem State.setDie_unitErrs (s : State) (d : Nat) (x : Die) : (s.setDie d x).unitErrs = s.unitErrs := rfl
@[simp] theorem State.setDie_retired (s : State) (d : Nat) (x : Die) : (s.setDie d x).retired = s.retired := rfl
@[simp] theorem State.setDie_harvested (s : State) (d : Nat) (x : Die) : (s.setDie d x).harvested = s.harvested := rfl
@[simp] theorem State.setDie_cores (s : State) (d : Nat) (x : Die) : (s.setDie d x).cores = s.cores := rfl
@[simp] theorem State.setDie_parts (s : State) (d : Nat) (x : Die) : (s.setDie d x).parts = s.parts := rfl
@[simp] theorem State.setDie_acc (s : State) (d : Nat) (x : Die) : (s.setDie d x).acc = s.acc := rfl
@[simp] theorem State.setDie_progress (s : State) (d : Nat) (x : Die) : (s.setDie d x).progress = s.progress := rfl
@[simp] theorem State.setDie_jobs (s : State) (d : Nat) (x : Die) : (s.setDie d x).jobs = s.jobs := rfl
@[simp] theorem State.setDie_tenants (s : State) (d : Nat) (x : Die) : (s.setDie d x).tenants = s.tenants := rfl
@[simp] theorem State.setDie_colours (s : State) (d : Nat) (x : Die) : (s.setDie d x).colours = s.colours := rfl
@[simp] theorem State.setDie_hlog (s : State) (d : Nat) (x : Die) : (s.setDie d x).hlog = s.hlog := rfl
@[simp] theorem State.setDie_errored (s : State) (d : Nat) (x : Die) : (s.setDie d x).errored = s.errored := rfl
@[simp] theorem State.setDie_frozen (s : State) (d : Nat) (x : Die) : (s.setDie d x).frozen = s.frozen := rfl
@[simp] theorem State.setDie_dark (s : State) (d : Nat) (x : Die) : (s.setDie d x).dark = s.dark := rfl
@[simp] theorem State.setDie_posI (s : State) (d : Nat) (x : Die) : (s.setDie d x).posI = s.posI := rfl
@[simp] theorem State.setDie_posJ (s : State) (d : Nat) (x : Die) : (s.setDie d x).posJ = s.posJ := rfl
@[simp] theorem State.setDie_issue (s : State) (d : Nat) (x : Die) : (s.setDie d x).issue = s.issue := rfl
@[simp] theorem State.setDie_agenda (s : State) (d : Nat) (x : Die) : (s.setDie d x).agenda = s.agenda := rfl
@[simp] theorem State.setDie_tick (s : State) (d : Nat) (x : Die) : (s.setDie d x).tick = s.tick := rfl
@[simp] theorem State.setDie_fresh (s : State) (d : Nat) (x : Die) : (s.setDie d x).fresh = s.fresh := rfl

/-! ## setTenant -/

@[simp] theorem State.setTenant_mem (s : State) (v : Nat) (t : Tenant) : (s.setTenant v t).mem = s.mem := rfl
@[simp] theorem State.setTenant_wbuf (s : State) (v : Nat) (t : Tenant) : (s.setTenant v t).wbuf = s.wbuf := rfl
@[simp] theorem State.setTenant_ters (s : State) (v : Nat) (t : Tenant) : (s.setTenant v t).ters = s.ters := rfl
@[simp] theorem State.setTenant_teams (s : State) (v : Nat) (t : Tenant) : (s.setTenant v t).teams = s.teams := rfl
@[simp] theorem State.setTenant_ended (s : State) (v : Nat) (t : Tenant) : (s.setTenant v t).ended = s.ended := rfl
@[simp] theorem State.setTenant_launches (s : State) (v : Nat) (t : Tenant) : (s.setTenant v t).launches = s.launches := rfl
@[simp] theorem State.setTenant_quarters (s : State) (v : Nat) (t : Tenant) : (s.setTenant v t).quarters = s.quarters := rfl
@[simp] theorem State.setTenant_poppers (s : State) (v : Nat) (t : Tenant) : (s.setTenant v t).poppers = s.poppers := rfl
@[simp] theorem State.setTenant_partials (s : State) (v : Nat) (t : Tenant) : (s.setTenant v t).partials = s.partials := rfl
@[simp] theorem State.setTenant_accs (s : State) (v : Nat) (t : Tenant) : (s.setTenant v t).accs = s.accs := rfl
@[simp] theorem State.setTenant_staged (s : State) (v : Nat) (t : Tenant) : (s.setTenant v t).staged = s.staged := rfl
@[simp] theorem State.setTenant_domains (s : State) (v : Nat) (t : Tenant) : (s.setTenant v t).domains = s.domains := rfl
@[simp] theorem State.setTenant_gangs (s : State) (v : Nat) (t : Tenant) : (s.setTenant v t).gangs = s.gangs := rfl
@[simp] theorem State.setTenant_groups (s : State) (v : Nat) (t : Tenant) : (s.setTenant v t).groups = s.groups := rfl
@[simp] theorem State.setTenant_colls (s : State) (v : Nat) (t : Tenant) : (s.setTenant v t).colls = s.colls := rfl
@[simp] theorem State.setTenant_rounds (s : State) (v : Nat) (t : Tenant) : (s.setTenant v t).rounds = s.rounds := rfl
@[simp] theorem State.setTenant_tiles (s : State) (v : Nat) (t : Tenant) : (s.setTenant v t).tiles = s.tiles := rfl
@[simp] theorem State.setTenant_bcs (s : State) (v : Nat) (t : Tenant) : (s.setTenant v t).bcs = s.bcs := rfl
@[simp] theorem State.setTenant_shoots (s : State) (v : Nat) (t : Tenant) : (s.setTenant v t).shoots = s.shoots := rfl
@[simp] theorem State.setTenant_cmds (s : State) (v : Nat) (t : Tenant) : (s.setTenant v t).cmds = s.cmds := rfl
@[simp] theorem State.setTenant_flaws (s : State) (v : Nat) (t : Tenant) : (s.setTenant v t).flaws = s.flaws := rfl
@[simp] theorem State.setTenant_hostOut (s : State) (v : Nat) (t : Tenant) : (s.setTenant v t).hostOut = s.hostOut := rfl
@[simp] theorem State.setTenant_hostGot (s : State) (v : Nat) (t : Tenant) : (s.setTenant v t).hostGot = s.hostGot := rfl
@[simp] theorem State.setTenant_answers (s : State) (v : Nat) (t : Tenant) : (s.setTenant v t).answers = s.answers := rfl
@[simp] theorem State.setTenant_asks (s : State) (v : Nat) (t : Tenant) : (s.setTenant v t).asks = s.asks := rfl
@[simp] theorem State.setTenant_intakes (s : State) (v : Nat) (t : Tenant) : (s.setTenant v t).intakes = s.intakes := rfl
@[simp] theorem State.setTenant_fabOut (s : State) (v : Nat) (t : Tenant) : (s.setTenant v t).fabOut = s.fabOut := rfl
@[simp] theorem State.setTenant_egress (s : State) (v : Nat) (t : Tenant) : (s.setTenant v t).egress = s.egress := rfl
@[simp] theorem State.setTenant_spill (s : State) (v : Nat) (t : Tenant) : (s.setTenant v t).spill = s.spill := rfl
@[simp] theorem State.setTenant_waitFab (s : State) (v : Nat) (t : Tenant) : (s.setTenant v t).waitFab = s.waitFab := rfl
@[simp] theorem State.setTenant_lists (s : State) (v : Nat) (t : Tenant) : (s.setTenant v t).lists = s.lists := rfl
@[simp] theorem State.setTenant_routes (s : State) (v : Nat) (t : Tenant) : (s.setTenant v t).routes = s.routes := rfl
@[simp] theorem State.setTenant_replies (s : State) (v : Nat) (t : Tenant) : (s.setTenant v t).replies = s.replies := rfl
@[simp] theorem State.setTenant_wdogUs (s : State) (v : Nat) (t : Tenant) : (s.setTenant v t).wdogUs = s.wdogUs := rfl
@[simp] theorem State.setTenant_unitErrs (s : State) (v : Nat) (t : Tenant) : (s.setTenant v t).unitErrs = s.unitErrs := rfl
@[simp] theorem State.setTenant_retired (s : State) (v : Nat) (t : Tenant) : (s.setTenant v t).retired = s.retired := rfl
@[simp] theorem State.setTenant_harvested (s : State) (v : Nat) (t : Tenant) : (s.setTenant v t).harvested = s.harvested := rfl
@[simp] theorem State.setTenant_cores (s : State) (v : Nat) (t : Tenant) : (s.setTenant v t).cores = s.cores := rfl
@[simp] theorem State.setTenant_parts (s : State) (v : Nat) (t : Tenant) : (s.setTenant v t).parts = s.parts := rfl
@[simp] theorem State.setTenant_acc (s : State) (v : Nat) (t : Tenant) : (s.setTenant v t).acc = s.acc := rfl
@[simp] theorem State.setTenant_progress (s : State) (v : Nat) (t : Tenant) : (s.setTenant v t).progress = s.progress := rfl
@[simp] theorem State.setTenant_jobs (s : State) (v : Nat) (t : Tenant) : (s.setTenant v t).jobs = s.jobs := rfl
@[simp] theorem State.setTenant_colours (s : State) (v : Nat) (t : Tenant) : (s.setTenant v t).colours = s.colours := rfl
@[simp] theorem State.setTenant_dies (s : State) (v : Nat) (t : Tenant) : (s.setTenant v t).dies = s.dies := rfl
@[simp] theorem State.setTenant_hlog (s : State) (v : Nat) (t : Tenant) : (s.setTenant v t).hlog = s.hlog := rfl
@[simp] theorem State.setTenant_errored (s : State) (v : Nat) (t : Tenant) : (s.setTenant v t).errored = s.errored := rfl
@[simp] theorem State.setTenant_frozen (s : State) (v : Nat) (t : Tenant) : (s.setTenant v t).frozen = s.frozen := rfl
@[simp] theorem State.setTenant_dark (s : State) (v : Nat) (t : Tenant) : (s.setTenant v t).dark = s.dark := rfl
@[simp] theorem State.setTenant_posI (s : State) (v : Nat) (t : Tenant) : (s.setTenant v t).posI = s.posI := rfl
@[simp] theorem State.setTenant_posJ (s : State) (v : Nat) (t : Tenant) : (s.setTenant v t).posJ = s.posJ := rfl
@[simp] theorem State.setTenant_issue (s : State) (v : Nat) (t : Tenant) : (s.setTenant v t).issue = s.issue := rfl
@[simp] theorem State.setTenant_agenda (s : State) (v : Nat) (t : Tenant) : (s.setTenant v t).agenda = s.agenda := rfl
@[simp] theorem State.setTenant_tick (s : State) (v : Nat) (t : Tenant) : (s.setTenant v t).tick = s.tick := rfl
@[simp] theorem State.setTenant_fresh (s : State) (v : Nat) (t : Tenant) : (s.setTenant v t).fresh = s.fresh := rfl

/-! ## popIssue -/

@[simp] theorem State.popIssue_mem (s : State) : (s.popIssue).mem = s.mem := rfl
@[simp] theorem State.popIssue_wbuf (s : State) : (s.popIssue).wbuf = s.wbuf := rfl
@[simp] theorem State.popIssue_ters (s : State) : (s.popIssue).ters = s.ters := rfl
@[simp] theorem State.popIssue_teams (s : State) : (s.popIssue).teams = s.teams := rfl
@[simp] theorem State.popIssue_ended (s : State) : (s.popIssue).ended = s.ended := rfl
@[simp] theorem State.popIssue_launches (s : State) : (s.popIssue).launches = s.launches := rfl
@[simp] theorem State.popIssue_quarters (s : State) : (s.popIssue).quarters = s.quarters := rfl
@[simp] theorem State.popIssue_poppers (s : State) : (s.popIssue).poppers = s.poppers := rfl
@[simp] theorem State.popIssue_partials (s : State) : (s.popIssue).partials = s.partials := rfl
@[simp] theorem State.popIssue_accs (s : State) : (s.popIssue).accs = s.accs := rfl
@[simp] theorem State.popIssue_staged (s : State) : (s.popIssue).staged = s.staged := rfl
@[simp] theorem State.popIssue_domains (s : State) : (s.popIssue).domains = s.domains := rfl
@[simp] theorem State.popIssue_gangs (s : State) : (s.popIssue).gangs = s.gangs := rfl
@[simp] theorem State.popIssue_groups (s : State) : (s.popIssue).groups = s.groups := rfl
@[simp] theorem State.popIssue_colls (s : State) : (s.popIssue).colls = s.colls := rfl
@[simp] theorem State.popIssue_rounds (s : State) : (s.popIssue).rounds = s.rounds := rfl
@[simp] theorem State.popIssue_tiles (s : State) : (s.popIssue).tiles = s.tiles := rfl
@[simp] theorem State.popIssue_bcs (s : State) : (s.popIssue).bcs = s.bcs := rfl
@[simp] theorem State.popIssue_shoots (s : State) : (s.popIssue).shoots = s.shoots := rfl
@[simp] theorem State.popIssue_cmds (s : State) : (s.popIssue).cmds = s.cmds := rfl
@[simp] theorem State.popIssue_flaws (s : State) : (s.popIssue).flaws = s.flaws := rfl
@[simp] theorem State.popIssue_hostOut (s : State) : (s.popIssue).hostOut = s.hostOut := rfl
@[simp] theorem State.popIssue_hostGot (s : State) : (s.popIssue).hostGot = s.hostGot := rfl
@[simp] theorem State.popIssue_answers (s : State) : (s.popIssue).answers = s.answers := rfl
@[simp] theorem State.popIssue_asks (s : State) : (s.popIssue).asks = s.asks := rfl
@[simp] theorem State.popIssue_intakes (s : State) : (s.popIssue).intakes = s.intakes := rfl
@[simp] theorem State.popIssue_fabOut (s : State) : (s.popIssue).fabOut = s.fabOut := rfl
@[simp] theorem State.popIssue_egress (s : State) : (s.popIssue).egress = s.egress := rfl
@[simp] theorem State.popIssue_spill (s : State) : (s.popIssue).spill = s.spill := rfl
@[simp] theorem State.popIssue_waitFab (s : State) : (s.popIssue).waitFab = s.waitFab := rfl
@[simp] theorem State.popIssue_lists (s : State) : (s.popIssue).lists = s.lists := rfl
@[simp] theorem State.popIssue_routes (s : State) : (s.popIssue).routes = s.routes := rfl
@[simp] theorem State.popIssue_replies (s : State) : (s.popIssue).replies = s.replies := rfl
@[simp] theorem State.popIssue_wdogUs (s : State) : (s.popIssue).wdogUs = s.wdogUs := rfl
@[simp] theorem State.popIssue_unitErrs (s : State) : (s.popIssue).unitErrs = s.unitErrs := rfl
@[simp] theorem State.popIssue_retired (s : State) : (s.popIssue).retired = s.retired := rfl
@[simp] theorem State.popIssue_harvested (s : State) : (s.popIssue).harvested = s.harvested := rfl
@[simp] theorem State.popIssue_cores (s : State) : (s.popIssue).cores = s.cores := rfl
@[simp] theorem State.popIssue_parts (s : State) : (s.popIssue).parts = s.parts := rfl
@[simp] theorem State.popIssue_acc (s : State) : (s.popIssue).acc = s.acc := rfl
@[simp] theorem State.popIssue_progress (s : State) : (s.popIssue).progress = s.progress := rfl
@[simp] theorem State.popIssue_jobs (s : State) : (s.popIssue).jobs = s.jobs := rfl
@[simp] theorem State.popIssue_tenants (s : State) : (s.popIssue).tenants = s.tenants := rfl
@[simp] theorem State.popIssue_colours (s : State) : (s.popIssue).colours = s.colours := rfl
@[simp] theorem State.popIssue_dies (s : State) : (s.popIssue).dies = s.dies := rfl
@[simp] theorem State.popIssue_hlog (s : State) : (s.popIssue).hlog = s.hlog := rfl
@[simp] theorem State.popIssue_errored (s : State) : (s.popIssue).errored = s.errored := rfl
@[simp] theorem State.popIssue_frozen (s : State) : (s.popIssue).frozen = s.frozen := rfl
@[simp] theorem State.popIssue_dark (s : State) : (s.popIssue).dark = s.dark := rfl
@[simp] theorem State.popIssue_posI (s : State) : (s.popIssue).posI = s.posI := rfl
@[simp] theorem State.popIssue_posJ (s : State) : (s.popIssue).posJ = s.posJ := rfl
@[simp] theorem State.popIssue_agenda (s : State) : (s.popIssue).agenda = s.agenda := rfl
@[simp] theorem State.popIssue_tick (s : State) : (s.popIssue).tick = s.tick := rfl
@[simp] theorem State.popIssue_fresh (s : State) : (s.popIssue).fresh = s.fresh := rfl

/-! ## commit -/

@[simp] theorem commit_ters (s u : State) : (commit s u).ters = u.ters := rfl
@[simp] theorem commit_teams (s u : State) : (commit s u).teams = u.teams := rfl
@[simp] theorem commit_ended (s u : State) : (commit s u).ended = u.ended := rfl
@[simp] theorem commit_launches (s u : State) : (commit s u).launches = u.launches := rfl
@[simp] theorem commit_quarters (s u : State) : (commit s u).quarters = u.quarters := rfl
@[simp] theorem commit_poppers (s u : State) : (commit s u).poppers = u.poppers := rfl
@[simp] theorem commit_partials (s u : State) : (commit s u).partials = u.partials := rfl
@[simp] theorem commit_accs (s u : State) : (commit s u).accs = u.accs := rfl
@[simp] theorem commit_staged (s u : State) : (commit s u).staged = u.staged := rfl
@[simp] theorem commit_domains (s u : State) : (commit s u).domains = u.domains := rfl
@[simp] theorem commit_gangs (s u : State) : (commit s u).gangs = u.gangs := rfl
@[simp] theorem commit_groups (s u : State) : (commit s u).groups = u.groups := rfl
@[simp] theorem commit_colls (s u : State) : (commit s u).colls = u.colls := rfl
@[simp] theorem commit_rounds (s u : State) : (commit s u).rounds = u.rounds := rfl
@[simp] theorem commit_tiles (s u : State) : (commit s u).tiles = u.tiles := rfl
@[simp] theorem commit_bcs (s u : State) : (commit s u).bcs = u.bcs := rfl
@[simp] theorem commit_shoots (s u : State) : (commit s u).shoots = u.shoots := rfl
@[simp] theorem commit_cmds (s u : State) : (commit s u).cmds = u.cmds := rfl
@[simp] theorem commit_flaws (s u : State) : (commit s u).flaws = u.flaws := rfl
@[simp] theorem commit_hostOut (s u : State) : (commit s u).hostOut = u.hostOut := rfl
@[simp] theorem commit_hostGot (s u : State) : (commit s u).hostGot = u.hostGot := rfl
@[simp] theorem commit_answers (s u : State) : (commit s u).answers = u.answers := rfl
@[simp] theorem commit_asks (s u : State) : (commit s u).asks = u.asks := rfl
@[simp] theorem commit_intakes (s u : State) : (commit s u).intakes = u.intakes := rfl
@[simp] theorem commit_fabOut (s u : State) : (commit s u).fabOut = u.fabOut := rfl
@[simp] theorem commit_egress (s u : State) : (commit s u).egress = u.egress := rfl
@[simp] theorem commit_spill (s u : State) : (commit s u).spill = u.spill := rfl
@[simp] theorem commit_waitFab (s u : State) : (commit s u).waitFab = u.waitFab := rfl
@[simp] theorem commit_lists (s u : State) : (commit s u).lists = u.lists := rfl
@[simp] theorem commit_routes (s u : State) : (commit s u).routes = u.routes := rfl
@[simp] theorem commit_replies (s u : State) : (commit s u).replies = u.replies := rfl
@[simp] theorem commit_wdogUs (s u : State) : (commit s u).wdogUs = u.wdogUs := rfl
@[simp] theorem commit_unitErrs (s u : State) : (commit s u).unitErrs = u.unitErrs := rfl
@[simp] theorem commit_retired (s u : State) : (commit s u).retired = u.retired := rfl
@[simp] theorem commit_harvested (s u : State) : (commit s u).harvested = u.harvested := rfl
@[simp] theorem commit_cores (s u : State) : (commit s u).cores = u.cores := rfl
@[simp] theorem commit_parts (s u : State) : (commit s u).parts = u.parts := rfl
@[simp] theorem commit_acc (s u : State) : (commit s u).acc = u.acc := rfl
@[simp] theorem commit_progress (s u : State) : (commit s u).progress = u.progress := rfl
@[simp] theorem commit_jobs (s u : State) : (commit s u).jobs = u.jobs := rfl
@[simp] theorem commit_tenants (s u : State) : (commit s u).tenants = u.tenants := rfl
@[simp] theorem commit_colours (s u : State) : (commit s u).colours = u.colours := rfl
@[simp] theorem commit_dies (s u : State) : (commit s u).dies = u.dies := rfl
@[simp] theorem commit_hlog (s u : State) : (commit s u).hlog = u.hlog := rfl
@[simp] theorem commit_errored (s u : State) : (commit s u).errored = u.errored := rfl
@[simp] theorem commit_frozen (s u : State) : (commit s u).frozen = u.frozen := rfl
@[simp] theorem commit_dark (s u : State) : (commit s u).dark = u.dark := rfl
@[simp] theorem commit_posI (s u : State) : (commit s u).posI = u.posI := rfl
@[simp] theorem commit_posJ (s u : State) : (commit s u).posJ = u.posJ := rfl
@[simp] theorem commit_issue (s u : State) : (commit s u).issue = u.issue := rfl
@[simp] theorem commit_agenda (s u : State) : (commit s u).agenda = u.agenda := rfl
@[simp] theorem commit_tick (s u : State) : (commit s u).tick = u.tick := rfl
@[simp] theorem commit_fresh (s u : State) : (commit s u).fresh = u.fresh := rfl
@[simp] theorem commit_wbuf (s u : State) : (commit s u).wbuf = [] := rfl

/-! ## countVf -/

@[simp] theorem State.countVf_mem (s : State) (c v e n : Nat) : (s.countVf c v e n).mem = s.mem := by
  unfold State.countVf; split; rfl; split <;> rfl
@[simp] theorem State.countVf_wbuf (s : State) (c v e n : Nat) : (s.countVf c v e n).wbuf = s.wbuf := by
  unfold State.countVf; split; rfl; split <;> rfl
@[simp] theorem State.countVf_ters (s : State) (c v e n : Nat) : (s.countVf c v e n).ters = s.ters := by
  unfold State.countVf; split; rfl; split <;> rfl
@[simp] theorem State.countVf_teams (s : State) (c v e n : Nat) : (s.countVf c v e n).teams = s.teams := by
  unfold State.countVf; split; rfl; split <;> rfl
@[simp] theorem State.countVf_ended (s : State) (c v e n : Nat) : (s.countVf c v e n).ended = s.ended := by
  unfold State.countVf; split; rfl; split <;> rfl
@[simp] theorem State.countVf_launches (s : State) (c v e n : Nat) : (s.countVf c v e n).launches = s.launches := by
  unfold State.countVf; split; rfl; split <;> rfl
@[simp] theorem State.countVf_quarters (s : State) (c v e n : Nat) : (s.countVf c v e n).quarters = s.quarters := by
  unfold State.countVf; split; rfl; split <;> rfl
@[simp] theorem State.countVf_poppers (s : State) (c v e n : Nat) : (s.countVf c v e n).poppers = s.poppers := by
  unfold State.countVf; split; rfl; split <;> rfl
@[simp] theorem State.countVf_partials (s : State) (c v e n : Nat) : (s.countVf c v e n).partials = s.partials := by
  unfold State.countVf; split; rfl; split <;> rfl
@[simp] theorem State.countVf_accs (s : State) (c v e n : Nat) : (s.countVf c v e n).accs = s.accs := by
  unfold State.countVf; split; rfl; split <;> rfl
@[simp] theorem State.countVf_staged (s : State) (c v e n : Nat) : (s.countVf c v e n).staged = s.staged := by
  unfold State.countVf; split; rfl; split <;> rfl
@[simp] theorem State.countVf_domains (s : State) (c v e n : Nat) : (s.countVf c v e n).domains = s.domains := by
  unfold State.countVf; split; rfl; split <;> rfl
@[simp] theorem State.countVf_gangs (s : State) (c v e n : Nat) : (s.countVf c v e n).gangs = s.gangs := by
  unfold State.countVf; split; rfl; split <;> rfl
@[simp] theorem State.countVf_groups (s : State) (c v e n : Nat) : (s.countVf c v e n).groups = s.groups := by
  unfold State.countVf; split; rfl; split <;> rfl
@[simp] theorem State.countVf_colls (s : State) (c v e n : Nat) : (s.countVf c v e n).colls = s.colls := by
  unfold State.countVf; split; rfl; split <;> rfl
@[simp] theorem State.countVf_rounds (s : State) (c v e n : Nat) : (s.countVf c v e n).rounds = s.rounds := by
  unfold State.countVf; split; rfl; split <;> rfl
@[simp] theorem State.countVf_tiles (s : State) (c v e n : Nat) : (s.countVf c v e n).tiles = s.tiles := by
  unfold State.countVf; split; rfl; split <;> rfl
@[simp] theorem State.countVf_bcs (s : State) (c v e n : Nat) : (s.countVf c v e n).bcs = s.bcs := by
  unfold State.countVf; split; rfl; split <;> rfl
@[simp] theorem State.countVf_shoots (s : State) (c v e n : Nat) : (s.countVf c v e n).shoots = s.shoots := by
  unfold State.countVf; split; rfl; split <;> rfl
@[simp] theorem State.countVf_cmds (s : State) (c v e n : Nat) : (s.countVf c v e n).cmds = s.cmds := by
  unfold State.countVf; split; rfl; split <;> rfl
@[simp] theorem State.countVf_flaws (s : State) (c v e n : Nat) : (s.countVf c v e n).flaws = s.flaws := by
  unfold State.countVf; split; rfl; split <;> rfl
@[simp] theorem State.countVf_hostOut (s : State) (c v e n : Nat) : (s.countVf c v e n).hostOut = s.hostOut := by
  unfold State.countVf; split; rfl; split <;> rfl
@[simp] theorem State.countVf_hostGot (s : State) (c v e n : Nat) : (s.countVf c v e n).hostGot = s.hostGot := by
  unfold State.countVf; split; rfl; split <;> rfl
@[simp] theorem State.countVf_answers (s : State) (c v e n : Nat) : (s.countVf c v e n).answers = s.answers := by
  unfold State.countVf; split; rfl; split <;> rfl
@[simp] theorem State.countVf_asks (s : State) (c v e n : Nat) : (s.countVf c v e n).asks = s.asks := by
  unfold State.countVf; split; rfl; split <;> rfl
@[simp] theorem State.countVf_intakes (s : State) (c v e n : Nat) : (s.countVf c v e n).intakes = s.intakes := by
  unfold State.countVf; split; rfl; split <;> rfl
@[simp] theorem State.countVf_fabOut (s : State) (c v e n : Nat) : (s.countVf c v e n).fabOut = s.fabOut := by
  unfold State.countVf; split; rfl; split <;> rfl
@[simp] theorem State.countVf_egress (s : State) (c v e n : Nat) : (s.countVf c v e n).egress = s.egress := by
  unfold State.countVf; split; rfl; split <;> rfl
@[simp] theorem State.countVf_spill (s : State) (c v e n : Nat) : (s.countVf c v e n).spill = s.spill := by
  unfold State.countVf; split; rfl; split <;> rfl
@[simp] theorem State.countVf_waitFab (s : State) (c v e n : Nat) : (s.countVf c v e n).waitFab = s.waitFab := by
  unfold State.countVf; split; rfl; split <;> rfl
@[simp] theorem State.countVf_lists (s : State) (c v e n : Nat) : (s.countVf c v e n).lists = s.lists := by
  unfold State.countVf; split; rfl; split <;> rfl
@[simp] theorem State.countVf_routes (s : State) (c v e n : Nat) : (s.countVf c v e n).routes = s.routes := by
  unfold State.countVf; split; rfl; split <;> rfl
@[simp] theorem State.countVf_replies (s : State) (c v e n : Nat) : (s.countVf c v e n).replies = s.replies := by
  unfold State.countVf; split; rfl; split <;> rfl
@[simp] theorem State.countVf_wdogUs (s : State) (c v e n : Nat) : (s.countVf c v e n).wdogUs = s.wdogUs := by
  unfold State.countVf; split; rfl; split <;> rfl
@[simp] theorem State.countVf_unitErrs (s : State) (c v e n : Nat) : (s.countVf c v e n).unitErrs = s.unitErrs := by
  unfold State.countVf; split; rfl; split <;> rfl
@[simp] theorem State.countVf_retired (s : State) (c v e n : Nat) : (s.countVf c v e n).retired = s.retired := by
  unfold State.countVf; split; rfl; split <;> rfl
@[simp] theorem State.countVf_harvested (s : State) (c v e n : Nat) : (s.countVf c v e n).harvested = s.harvested := by
  unfold State.countVf; split; rfl; split <;> rfl
@[simp] theorem State.countVf_cores (s : State) (c v e n : Nat) : (s.countVf c v e n).cores = s.cores := by
  unfold State.countVf; split; rfl; split <;> rfl
@[simp] theorem State.countVf_acc (s : State) (c v e n : Nat) : (s.countVf c v e n).acc = s.acc := by
  unfold State.countVf; split; rfl; split <;> rfl
@[simp] theorem State.countVf_progress (s : State) (c v e n : Nat) : (s.countVf c v e n).progress = s.progress := by
  unfold State.countVf; split; rfl; split <;> rfl
@[simp] theorem State.countVf_jobs (s : State) (c v e n : Nat) : (s.countVf c v e n).jobs = s.jobs := by
  unfold State.countVf; split; rfl; split <;> rfl
@[simp] theorem State.countVf_tenants (s : State) (c v e n : Nat) : (s.countVf c v e n).tenants = s.tenants := by
  unfold State.countVf; split; rfl; split <;> rfl
@[simp] theorem State.countVf_colours (s : State) (c v e n : Nat) : (s.countVf c v e n).colours = s.colours := by
  unfold State.countVf; split; rfl; split <;> rfl
@[simp] theorem State.countVf_dies (s : State) (c v e n : Nat) : (s.countVf c v e n).dies = s.dies := by
  unfold State.countVf; split; rfl; split <;> rfl
@[simp] theorem State.countVf_hlog (s : State) (c v e n : Nat) : (s.countVf c v e n).hlog = s.hlog := by
  unfold State.countVf; split; rfl; split <;> rfl
@[simp] theorem State.countVf_errored (s : State) (c v e n : Nat) : (s.countVf c v e n).errored = s.errored := by
  unfold State.countVf; split; rfl; split <;> rfl
@[simp] theorem State.countVf_frozen (s : State) (c v e n : Nat) : (s.countVf c v e n).frozen = s.frozen := by
  unfold State.countVf; split; rfl; split <;> rfl
@[simp] theorem State.countVf_dark (s : State) (c v e n : Nat) : (s.countVf c v e n).dark = s.dark := by
  unfold State.countVf; split; rfl; split <;> rfl
@[simp] theorem State.countVf_posI (s : State) (c v e n : Nat) : (s.countVf c v e n).posI = s.posI := by
  unfold State.countVf; split; rfl; split <;> rfl
@[simp] theorem State.countVf_posJ (s : State) (c v e n : Nat) : (s.countVf c v e n).posJ = s.posJ := by
  unfold State.countVf; split; rfl; split <;> rfl
@[simp] theorem State.countVf_issue (s : State) (c v e n : Nat) : (s.countVf c v e n).issue = s.issue := by
  unfold State.countVf; split; rfl; split <;> rfl
@[simp] theorem State.countVf_agenda (s : State) (c v e n : Nat) : (s.countVf c v e n).agenda = s.agenda := by
  unfold State.countVf; split; rfl; split <;> rfl
@[simp] theorem State.countVf_tick (s : State) (c v e n : Nat) : (s.countVf c v e n).tick = s.tick := by
  unfold State.countVf; split; rfl; split <;> rfl
@[simp] theorem State.countVf_fresh (s : State) (c v e n : Nat) : (s.countVf c v e n).fresh = s.fresh := by
  unfold State.countVf; split; rfl; split <;> rfl

end Sys2Proof.Machine
end

