-- ==== Sys2Proof/Laws/Memory.lean ====
section
/-! SUPPORT. The laws of memory: reads after writes within a step and across its end, and the canonical form. -/

namespace Sys2Proof.Machine

/-! ## Within a step -/

theorem State.rdByte_wrByte (s : State) (x y : Nat) (b : Byte) :
    (s.wrByte x b).rdByte y = if y = x then b else s.rdByte y := by
  unfold State.rdByte State.wrByte
  simp only [wfind]
  by_cases h : x = y
  · simp [h]
  · simp [h, Ne.symm h]

@[simp] theorem State.rdByte_wrByte_same (s : State) (x : Nat) (b : Byte) : (s.wrByte x b).rdByte x = b := by
  simp [State.rdByte_wrByte]

/-- A byte after a write of bytes: the byte written there, or what stood there. -/
theorem State.rdByte_wrBytes (s : State) (x y : Nat) (bs : List Byte) :
    (s.wrBytes x bs).rdByte y = if x ≤ y ∧ y < x + bs.length then bs.getD (y - x) 0 else s.rdByte y := by
  induction bs generalizing s x with
  | nil =>
    have : ¬ (x ≤ y ∧ y < x + ([] : List Byte).length) := by simp
    rw [if_neg this]; rfl
  | cons b r ih =>
    rw [State.wrBytes, ih]
    by_cases h1 : x + 1 ≤ y ∧ y < x + 1 + r.length
    · have h2 : x ≤ y ∧ y < x + (b :: r).length := by simp; omega
      rw [if_pos h1, if_pos h2]
      obtain ⟨n, rfl⟩ : ∃ n, y = x + 1 + n := ⟨y - (x + 1), by omega⟩
      have e1 : x + 1 + n - (x + 1) = n := by omega
      have e2 : x + 1 + n - x = n + 1 := by omega
      rw [e1, e2]; rfl
    · rw [if_neg h1, State.rdByte_wrByte]
      by_cases h3 : y = x
      · subst h3
        have h2 : y ≤ y ∧ y < y + (b :: r).length := by simp
        rw [if_pos rfl, if_pos h2]; simp
      · have h2 : ¬ (x ≤ y ∧ y < x + (b :: r).length) := by simp at h1 ⊢; omega
        rw [if_neg h3, if_neg h2]

/-! ## The end of a step -/

theorem kget_applyWrites (m : List Host.Cell) (ws : List (Nat × Byte)) (x : Nat) :
    kget memDefault (applyWrites m ws) x = (wfind x ws).getD (kget memDefault m x) := by
  induction ws with
  | nil => rfl
  | cons c r ih =>
    obtain ⟨k, v⟩ := c
    have h : applyWrites m ((k, v) :: r) = kset memDefault (applyWrites m r) k v := rfl
    rw [h, kget_kset, ih, wfind]
    by_cases hk : k = x
    · simp [hk]
    · simp [hk, Ne.symm hk]

theorem kwf_applyWrites {m : List Host.Cell} (h : kwf memDefault m = true) (ws : List (Nat × Byte)) :
    kwf memDefault (applyWrites m ws) = true := by
  induction ws with
  | nil => exact h
  | cons c r ih => exact kwf_kset memDefault ih c.1 c.2

@[simp] theorem applyWrites_nil (m : List Host.Cell) : applyWrites m [] = m := rfl

/-- The end of a step leaves memory in its canonical form. -/
theorem commit_wf {s : State} (h : Memory.wf s.mem = true) (u : State) : Memory.wf (commit s u).mem = true :=
  kwf_applyWrites h u.wbuf

/-- The end of a step that wrote on the memory it began with changes no byte: each reads as the step left it. -/
theorem rdByte_commit {s u : State} (h : u.mem = s.mem) (x : Nat) : (commit s u).rdByte x = u.rdByte x := by
  unfold State.rdByte
  simp only [commit, wfind, Option.getD_none]
  rw [kget_applyWrites, h]

/-- A step that has written nothing leaves memory as it was. -/
theorem commit_mem_of_quiet {s u : State} (h : u.wbuf = []) : (commit s u).mem = s.mem := by
  simp [commit, h]

/-! ## Little-endian numbers -/

@[simp] theorem natBytes_length (n x : Nat) : (natBytes n x).length = n := by
  induction n generalizing x with
  | zero => rfl
  | succ n ih => simp [natBytes, ih]

/-- The bytes of a number give the number back, as far as they reach. -/
theorem bytesNat_natBytes (n x : Nat) : bytesNat (natBytes n x) = x % 256 ^ n := by
  induction n generalizing x with
  | zero => simp [natBytes, bytesNat, Nat.mod_one]
  | succ n ih =>
    rw [natBytes, bytesNat, ih, Nat.pow_succ, Nat.mul_comm (256 ^ n), Nat.mod_mul]
    simp

end Sys2Proof.Machine
end

