-- ==== Sys2Proof/Laws/Parts.lean ====
section
/-! SUPPORT. Terraces, splits and partitions by number after an update of one of them. -/

namespace Sys2Proof.Machine

/-! ## Terraces -/

theorem find?_map_upd {α : Type} (l : List α) (key : α → Nat) (f : α → α) (hf : ∀ x, key (f x) = key x) (u v : Nat) :
    (l.map fun x => if key x = u then f x else x).find? (fun x => key x == v)
      = if v = u then (l.find? fun x => key x == u).map f else l.find? fun x => key x == v := by
  induction l with
  | nil => simp
  | cons a l ih =>
    simp only [List.map_cons, List.find?_cons]
    by_cases ha : key a = u
    · by_cases hv : v = u
      · subst hv; simp [ha, hf]
      · have h1 : (key (f a) == v) = false := by rw [hf, ha]; simpa using Ne.symm hv
        have h2 : (key a == v) = false := by rw [ha]; simpa using Ne.symm hv
        simp only [ha, if_true, h1, ih, hv, if_false]
        rw [show (u == v) = false by simpa using Ne.symm hv]
    · by_cases hv : v = u
      · subst hv
        have h1 : (key a == v) = false := by simpa using ha
        simp only [ha, if_false, h1, ih, if_true]
      · simp only [ha, if_false, ih, hv]

theorem State.ter?_updTer (s : State) (u v : Nat) (f : Terrace → Terrace) (hf : ∀ t, (f t).uid = t.uid) :
    (s.updTer u f).ter? v = if v = u then (s.ter? u).map f else s.ter? v :=
  find?_map_upd s.ters Terrace.uid f hf u v

theorem State.ter?_uid {s : State} {u : Nat} {t : Terrace} (h : s.ter? u = some t) : t.uid = u := by
  have := List.find?_some h
  simpa using this

theorem State.ter?_updTer_same {s : State} {u : Nat} {t : Terrace} (h : s.ter? u = some t) (f : Terrace → Terrace)
    (hf : ∀ t, (f t).uid = t.uid) : (s.updTer u f).ter? u = some (f t) := by
  rw [State.ter?_updTer s u u f hf, if_pos rfl, h]; rfl

theorem State.ter?_updTer_other (s : State) {u v : Nat} (h : v ≠ u) (f : Terrace → Terrace)
    (hf : ∀ t, (f t).uid = t.uid) : (s.updTer u f).ter? v = s.ter? v := by
  rw [State.ter?_updTer s u v f hf, if_neg h]

@[simp] theorem State.ter?_updPart (s : State) (c p u : Nat) (f : Part → Part) : (s.updPart c p f).ter? u = s.ter? u := rfl
@[simp] theorem State.ter?_popIssue (s : State) (u : Nat) : s.popIssue.ter? u = s.ter? u := rfl
@[simp] theorem State.ter?_commit (s s' : State) (u : Nat) : (commit s s').ter? u = s'.ter? u := rfl
@[simp] theorem State.ter?_countVf (s : State) (c v e n u : Nat) : (s.countVf c v e n).ter? u = s.ter? u := by
  unfold State.ter?; rw [State.countVf_ters]

/-! ## Splits -/

theorem Terrace.split?_map (t : Terrace) (u v : Nat) (f : Split → Split) (hf : ∀ x, (f x).sid = x.sid) :
    ({ t with splits := t.splits.map fun y => if y.sid = u then f y else y } : Terrace).split? v
      = if v = u then (t.split? u).map f else t.split? v :=
  find?_map_upd t.splits Split.sid f hf u v

theorem Terrace.split?_sid {t : Terrace} {u : Nat} {x : Split} (h : t.split? u = some x) : x.sid = u := by
  have := List.find?_some h
  simpa using this

/-- A terrace after a change of one split, where it stands. -/
theorem State.ter?_updSplit (s : State) (u k v : Nat) (f : Split → Split) :
    (s.updSplit u k f).ter? v = if v = u then
        (s.ter? u).map fun t => { t with splits := t.splits.map fun y => if y.sid = k then f y else y }
      else s.ter? v :=
  State.ter?_updTer s u v _ fun _ => rfl

/-! ## The machine without a terrace -/

end Sys2Proof.Machine
end

