-- ==== Sys2Proof/Laws/Registers.lean ====
section
/-! SUPPORT. The laws of the register files: what a register reads after a result is written, and that a write changes
nothing else of its terrace. -/

namespace Sys2Proof.Machine

/-! ## Masks -/

theorem mem_lanesOf (m : Lanes) (l : Nat) : l ∈ lanesOf m ↔ l < 32 ∧ m.getLsbD l = true := by
  simp [lanesOf]

theorem lowLane_mem {m : Lanes} {l : Nat} (h : lowLane m = some l) : l < 32 ∧ m.getLsbD l = true := by
  unfold lowLane at h
  exact (mem_lanesOf m l).1 (List.mem_of_head? h)

/-! ## One register -/

theorem Terrace.vget_vput (t : Terrace) (n l : Nat) (w : Word) {m k : Nat} (hl : l < 32) (hk : k < 32) :
    (t.vput n l w).vget m k = if m = n ∧ k = l then w else t.vget m k := by
  unfold Terrace.vget Terrace.vput
  simp only [kget_kset]
  by_cases h : m = n ∧ k = l
  · obtain ⟨rfl, rfl⟩ := h; simp
  · have : ¬ m * 32 + k = n * 32 + l := by omega
    simp [h, this]

@[simp] theorem Terrace.vget_vmark (t : Terrace) (n l : Nat) (b : Bool) (m k : Nat) :
    (t.vmark n l b).vget m k = t.vget m k := rfl

@[simp] theorem Terrace.sget_smark (t : Terrace) (n : Nat) (b : Bool) (m : Nat) : (t.smark n b).sget m = t.sget m := rfl

theorem Terrace.sget_sput (t : Terrace) (n : Nat) (w : Word) (m : Nat) :
    (t.sput n w).sget m = if m = n then w else t.sget m := by
  unfold Terrace.sget Terrace.sput
  simp [kget_kset]

theorem Terrace.pget_pset (t : Terrace) (n : Nat) (m v : Lanes) (k : Nat) :
    (t.pset n m v).pget k = if k = n then (t.pget n &&& ~~~m) ||| (v &&& m) else t.pget k := by
  unfold Terrace.pset
  simp only [Terrace.pget, kget_kset]

/-! ## A group of registers -/

theorem Terrace.vwrite_frame (t : Terrace) (wide : Bool) (n l : Nat) (ws : List Word) :
    ∃ v vw, t.vwrite wide n l ws = { t with v := v, vw := vw } := by
  induction ws generalizing t n with
  | nil => exact ⟨t.v, t.vw, rfl⟩
  | cons w ws ih =>
    obtain ⟨v, vw, h⟩ := ih ((t.vput n l w).vmark n l wide) (n + 1)
    exact ⟨v, vw, by rw [Terrace.vwrite, h]; rfl⟩

theorem Terrace.swrite_frame (t : Terrace) (wide : Bool) (n : Nat) (ws : List Word) :
    ∃ r w, t.swrite wide n ws = { t with s := r, sw := w } := by
  induction ws generalizing t n with
  | nil => exact ⟨t.s, t.sw, rfl⟩
  | cons w ws ih =>
    obtain ⟨r, x, h⟩ := ih ((t.sput n w).smark n wide) (n + 1)
    exact ⟨r, x, by rw [Terrace.swrite, h]; rfl⟩

/-- A lane of a register after a group is written in a lane. -/
theorem Terrace.vget_vwrite (t : Terrace) (wide : Bool) (n l : Nat) (ws : List Word) {m k : Nat} (hl : l < 32)
    (hk : k < 32) :
    (t.vwrite wide n l ws).vget m k = if k = l ∧ n ≤ m ∧ m < n + ws.length then ws.getD (m - n) 0 else t.vget m k := by
  induction ws generalizing t n with
  | nil =>
    have : ¬ (k = l ∧ n ≤ m ∧ m < n + ([] : List Word).length) := by
      rintro ⟨_, h1, h2⟩; exact absurd h2 (by simpa using h1)
    rw [if_neg this]; rfl
  | cons w ws ih =>
    rw [Terrace.vwrite, ih]
    by_cases h1 : k = l ∧ n + 1 ≤ m ∧ m < n + 1 + ws.length
    · have h2 : k = l ∧ n ≤ m ∧ m < n + (w :: ws).length := by simp; omega
      rw [if_pos h1, if_pos h2]
      obtain ⟨j, rfl⟩ : ∃ j, m = n + 1 + j := ⟨m - (n + 1), by omega⟩
      have e1 : n + 1 + j - (n + 1) = j := by omega
      have e2 : n + 1 + j - n = j + 1 := by omega
      rw [e1, e2]; rfl
    · rw [if_neg h1, Terrace.vget_vmark, Terrace.vget_vput t n l w hl hk]
      by_cases h3 : m = n ∧ k = l
      · obtain ⟨rfl, rfl⟩ := h3
        have h2 : k = k ∧ m ≤ m ∧ m < m + (w :: ws).length := by simp
        rw [if_pos ⟨rfl, rfl⟩, if_pos h2]; simp
      · have h2 : ¬ (k = l ∧ n ≤ m ∧ m < n + (w :: ws).length) := by simp at h1 ⊢; omega
        rw [if_neg h3, if_neg h2]

/-- An s register after a group is written. -/
theorem Terrace.sget_swrite (t : Terrace) (wide : Bool) (n : Nat) (ws : List Word) (m : Nat) :
    (t.swrite wide n ws).sget m = if n ≤ m ∧ m < n + ws.length then ws.getD (m - n) 0 else t.sget m := by
  induction ws generalizing t n with
  | nil =>
    have : ¬ (n ≤ m ∧ m < n + ([] : List Word).length) := by simp
    rw [if_neg this]; rfl
  | cons w ws ih =>
    rw [Terrace.swrite, ih]
    by_cases h1 : n + 1 ≤ m ∧ m < n + 1 + ws.length
    · have h2 : n ≤ m ∧ m < n + (w :: ws).length := by simp; omega
      rw [if_pos h1, if_pos h2]
      obtain ⟨j, rfl⟩ : ∃ j, m = n + 1 + j := ⟨m - (n + 1), by omega⟩
      have e1 : n + 1 + j - (n + 1) = j := by omega
      have e2 : n + 1 + j - n = j + 1 := by omega
      rw [e1, e2]; rfl
    · rw [if_neg h1, Terrace.sget_smark, Terrace.sget_sput]
      by_cases h3 : m = n
      · subst h3
        have h2 : m ≤ m ∧ m < m + (w :: ws).length := by simp
        rw [if_pos rfl, if_pos h2]; simp
      · have h2 : ¬ (n ≤ m ∧ m < n + (w :: ws).length) := by simp at h1 ⊢; omega
        rw [if_neg h3, if_neg h2]

/-! ## A destination -/

/-- Writing a destination changes the v and s files and their wide marks only. -/
theorem Terrace.writeDst_frame (t : Terrace) (d : Dst) (wide : Bool) (m : Lanes) (f : Nat → List Word) :
    ∃ v vw r w, t.writeDst d wide m f = { t with v := v, vw := vw, s := r, sw := w } := by
  cases d with
  | none => exact ⟨t.v, t.vw, t.s, t.sw, rfl⟩
  | s n =>
    simp only [Terrace.writeDst]
    split
    · exact ⟨t.v, t.vw, t.s, t.sw, rfl⟩
    · rename_i l _
      obtain ⟨r, w, h⟩ := t.swrite_frame wide n (f l)
      exact ⟨t.v, t.vw, r, w, by rw [h]⟩
  | v n =>
    simp only [Terrace.writeDst]
    have key : ∀ (ls : List Nat) (t : Terrace), ∃ v vw,
        ls.foldl (fun t l => t.vwrite wide n l (f l)) t = { t with v := v, vw := vw } := by
      intro ls
      induction ls with
      | nil => intro t; exact ⟨t.v, t.vw, rfl⟩
      | cons l ls ih =>
        intro t
        obtain ⟨v, vw, h⟩ := t.vwrite_frame wide n l (f l)
        obtain ⟨v', vw', h'⟩ := ih (t.vwrite wide n l (f l))
        exact ⟨v', vw', by rw [List.foldl_cons, h', h]⟩
    obtain ⟨v, vw, h⟩ := key (lanesOf m) t
    exact ⟨v, vw, t.s, t.sw, by rw [h]⟩

theorem Terrace.writeDst_p (t : Terrace) (d : Dst) (wide : Bool) (m : Lanes) (f : Nat → List Word) :
    (t.writeDst d wide m f).p = t.p := by
  obtain ⟨_, _, _, _, h⟩ := t.writeDst_frame d wide m f; rw [h]

theorem Terrace.writeDst_uid (t : Terrace) (d : Dst) (wide : Bool) (m : Lanes) (f : Nat → List Word) :
    (t.writeDst d wide m f).uid = t.uid := by
  obtain ⟨_, _, _, _, h⟩ := t.writeDst_frame d wide m f; rw [h]

theorem Terrace.writeDst_splits (t : Terrace) (d : Dst) (wide : Bool) (m : Lanes) (f : Nat → List Word) :
    (t.writeDst d wide m f).splits = t.splits := by
  obtain ⟨_, _, _, _, h⟩ := t.writeDst_frame d wide m f; rw [h]

/-- A lane of a v register after a v group is written: the group's word where the lane is in the mask. -/
theorem Terrace.vget_writeDst_v (t : Terrace) (n : Nat) (wide : Bool) (m : Lanes) (f : Nat → List Word) {r k : Nat}
    (hk : k < 32) :
    (t.writeDst (.v n) wide m f).vget r k =
      if m.getLsbD k = true ∧ n ≤ r ∧ r < n + (f k).length then (f k).getD (r - n) 0 else t.vget r k := by
  simp only [Terrace.writeDst]
  have key : ∀ (ls : List Nat) (t : Terrace), (∀ l ∈ ls, l < 32) → ls.Nodup →
      (ls.foldl (fun t l => t.vwrite wide n l (f l)) t).vget r k =
        if k ∈ ls ∧ n ≤ r ∧ r < n + (f k).length then (f k).getD (r - n) 0 else t.vget r k := by
    intro ls
    induction ls with
    | nil => intro t _ _; simp
    | cons l ls ih =>
      intro t hb hn
      have hl : l < 32 := hb l (by simp)
      rw [List.foldl_cons, ih _ (fun x hx => hb x (by simp [hx])) (List.nodup_cons.1 hn).2,
        Terrace.vget_vwrite t wide n l (f l) hl hk]
      by_cases h1 : k = l
      · subst h1
        have : k ∉ ls := (List.nodup_cons.1 hn).1
        simp [this]
      · simp [h1]
  have hnd : (lanesOf m).Nodup := List.Pairwise.filter _ List.nodup_range
  rw [key _ t (fun l hl => ((mem_lanesOf m l).1 hl).1) hnd]
  simp [mem_lanesOf, hk]

/-- An s register after an s group is written: the group's word of the lowest lane of the mask. -/
theorem Terrace.sget_writeDst_s (t : Terrace) (n : Nat) (wide : Bool) (m : Lanes) (f : Nat → List Word) (r : Nat) :
    (t.writeDst (.s n) wide m f).sget r = match lowLane m with
      | none => t.sget r
      | some l => if n ≤ r ∧ r < n + (f l).length then (f l).getD (r - n) 0 else t.sget r := by
  simp only [Terrace.writeDst]
  cases lowLane m with
  | none => rfl
  | some l => exact t.sget_swrite wide n (f l) r

theorem Terrace.sget_writeDst_v (t : Terrace) (n : Nat) (wide : Bool) (m : Lanes) (f : Nat → List Word) (r : Nat) :
    (t.writeDst (.v n) wide m f).sget r = t.sget r := by
  simp only [Terrace.writeDst]
  generalize lanesOf m = ls
  induction ls generalizing t with
  | nil => rfl
  | cons l ls ih =>
    obtain ⟨v, vw, h⟩ := t.vwrite_frame wide n l (f l)
    rw [List.foldl_cons, ih, h]; rfl

theorem Terrace.vget_writeDst_s (t : Terrace) (n : Nat) (wide : Bool) (m : Lanes) (f : Nat → List Word) (r k : Nat) :
    (t.writeDst (.s n) wide m f).vget r k = t.vget r k := by
  simp only [Terrace.writeDst]
  cases lowLane m with
  | none => rfl
  | some l =>
    obtain ⟨a, b, h⟩ := t.swrite_frame wide n (f l)
    show (t.swrite wide n (f l)).vget r k = _
    rw [h]; rfl

end Sys2Proof.Machine
end

