-- ==== Sys2Proof/Laws/Issue.lean ====
section
/-! SUPPORT. What an issue comes to: the context it reads, and everything that the end of an instruction does beside its
own effect. -/

namespace Sys2Proof.Machine

/-! ## The context -/

/-- What the context of an issue says of the state. -/
theorem State.issuer_spec {s : State} {i : Instr} {c : Ctx} (h : s.issuer i = some c) :
    s.issue.head? = some (c.uid, c.sid) ∧ s.ter? c.uid = some c.t ∧ c.t.split? c.sid = some c.sp ∧ c.i = i
      ∧ c.now = s.now c.t.core ∧ c.len = 4 * (encode i).length := by
  unfold State.issuer at h
  split at h
  · cases h
  · rename_i uid sid rest hi
    unfold State.ctxOf at h
    split at h
    · cases h
    · rename_i t ht
      split at h
      · cases h
      · rename_i sp hsp
        cases h
        simp [hi, ht, hsp]

/-! ## The frame of an issue -/

theorem Part.setCounter_frame (p : Part) (k : Nat) (x : Counter) :
    ∃ a b, p.setCounter k x = { p with counters := a, bank := b } := by
  unfold Part.setCounter
  split
  · exact ⟨_, _, rfl⟩
  · exact ⟨_, p.bank, rfl⟩

theorem Part.count_frame (p : Part) (ev n : Nat) : ∃ a b, p.count ev n = { p with counters := a, bank := b } := by
  unfold Part.count
  generalize List.range 8 = l
  induction l generalizing p with
  | nil => exact ⟨p.counters, p.bank, rfl⟩
  | cons k l ih =>
    simp only [List.foldl_cons]
    by_cases h : (cfgEn (p.counter k).config && cfgEvent (p.counter k).config == ev) = true
    · obtain ⟨a, b, h1⟩ := p.setCounter_frame k ((p.counter k).add n)
      obtain ⟨a', b', h2⟩ := ih (p.setCounter k ((p.counter k).add n))
      rw [if_pos h]
      exact ⟨a', b', by rw [h2, h1]⟩
    · rw [if_neg h]; exact ih p

theorem State.apart_updPart (s : State) (c p u : Nat) (f : Part → Part) (hf : ∀ x, (f x).bare = x.bare) :
    (s.updPart c p f).apart u = s.apart u := by
  have h : (s.updPart c p f).parts.map Part.bare = s.parts.map Part.bare := by
    simp only [State.updPart, List.map_map]
    apply List.map_congr_left
    intro x _
    simp only [Function.comp]
    split
    · exact hf x
    · rfl
  unfold State.apart
  rw [h]; rfl

theorem State.apart_count (s : State) (c p e n u : Nat) : (s.count c p e n).apart u = s.apart u := by
  apply State.apart_updPart
  intro x
  obtain ⟨a, b, h⟩ := x.count_frame e n
  rw [h]; rfl

theorem State.apart_countVf (s : State) (c v e n u : Nat) : (s.countVf c v e n).apart u = s.apart u := by
  unfold State.countVf
  split
  · rfl
  · split
    · rfl
    · exact s.apart_count _ _ _ _ u

theorem filter_map_upd {α : Type} (l : List α) (key : α → Nat) (f : α → α) (hf : ∀ x, key (f x) = key x) (u : Nat) :
    (l.map fun x => if key x = u then f x else x).filter (fun x => key x != u) = l.filter fun x => key x != u := by
  induction l with
  | nil => rfl
  | cons a l ih =>
    rw [List.map_cons, List.filter_cons, List.filter_cons, ih]
    by_cases ha : key a = u
    · have h1 : (key (f a) != u) = false := by rw [hf, ha]; simp
      have h2 : (key a != u) = false := by rw [ha]; simp
      simp only [ha, if_true, h1]; simp
    · simp only [ha, if_false]

theorem State.apart_updTer (s : State) (u : Nat) (f : Terrace → Terrace) (hf : ∀ t, (f t).uid = t.uid) :
    (s.updTer u f).apart u = s.apart u := by
  have h : (s.updTer u f).ters.filter (fun t => t.uid != u) = s.ters.filter fun t => t.uid != u :=
    filter_map_upd s.ters Terrace.uid f hf u
  unfold State.apart
  rw [h]; rfl

/-- A change of a split that keeps it bare is seen by no other terrace. -/
theorem State.apart_updSplit (s : State) (o k u : Nat) (f : Split → Split) (hf : o ≠ u → ∀ x, (f x).bare = x.bare) :
    (s.updSplit o k f).apart u = s.apart u := by
  by_cases ho : o = u
  · subst ho; exact s.apart_updTer o _ fun _ => rfl
  · have hb : ∀ t : Terrace, ({ t with splits := t.splits.map fun y => if y.sid = k then f y else y } : Terrace).bare = t.bare := by
      intro t
      have : (t.splits.map fun y => if y.sid = k then f y else y).map Split.bare = t.splits.map Split.bare := by
        rw [List.map_map]
        apply List.map_congr_left
        intro x _
        simp only [Function.comp]
        split
        · exact hf ho x
        · rfl
      unfold Terrace.bare
      rw [this]
    have h : ((s.updSplit o k f).ters.filter fun t => t.uid != u).map Terrace.bare
        = (s.ters.filter fun t => t.uid != u).map Terrace.bare := by
      simp only [State.updSplit, State.updTer]
      induction s.ters with
      | nil => rfl
      | cons a l ih =>
        rw [List.map_cons, List.filter_cons, List.filter_cons]
        by_cases ha : a.uid = o
        · subst ha
          have h2 : (a.uid != u) = true := by simpa using ho
          simp only [if_true, h2, List.map_cons, ih]
          rw [hb a]
        · simp only [ha, if_false]
          split
          · rw [List.map_cons, List.map_cons, ih]
          · exact ih
    unfold State.apart
    rw [h]; rfl

theorem State.apart_popIssue (s : State) (u : Nat) : s.popIssue.apart u = s.apart u := rfl

/-! ## The end of an instruction -/

theorem State.part?_updPart (s : State) (c p k v : Nat) (f : Part → Part) (hc : ∀ x, (f x).core = x.core)
    (hv : ∀ x, (f x).vf = x.vf) : ((s.updPart c p f).part? k v).isSome = (s.part? k v).isSome := by
  simp only [State.part?, State.updPart]
  rw [Bool.eq_iff_iff]
  simp only [List.find?_isSome, List.mem_map, Bool.and_eq_true, beq_iff_eq]
  constructor
  · rintro ⟨y, ⟨x, hx, rfl⟩, h⟩
    refine ⟨x, hx, ?_⟩
    split at h
    · rwa [hc, hv] at h
    · exact h
  · rintro ⟨x, hx, h⟩
    refine ⟨_, ⟨x, hx, rfl⟩, ?_⟩
    split
    · rwa [hc, hv]
    · exact h

theorem State.part?_countVf (s : State) (c v e n k w : Nat) :
    ((s.countVf c v e n).part? k w).isSome = (s.part? k w).isSome := by
  unfold State.countVf
  split
  · rfl
  · split
    · rfl
    · unfold State.count
      apply State.part?_updPart
      · intro x; obtain ⟨a, b, h⟩ := x.count_frame e n; rw [h]
      · intro x; obtain ⟨a, b, h⟩ := x.count_frame e n; rw [h]

/-- A terrace after a change of a split of it or of another terrace. -/
theorem State.updSplit_here {s : State} {u : Nat} {t : Terrace} (h : s.ter? u = some t) (o k : Nat) (f : Split → Split)
    (hf : ∀ x, (f x).sid = x.sid) :
    ∃ w, (s.updSplit o k f).ter? u = some w ∧ w.regs = t.regs ∧ w.others = t.others
      ∧ ∀ j, w.split? j = if u = o ∧ j = k then (t.split? j).map f else t.split? j := by
  rw [State.ter?_updSplit]
  by_cases ho : u = o
  · subst ho
    rw [if_pos rfl, h]
    refine ⟨_, rfl, rfl, rfl, fun j => ?_⟩
    rw [Terrace.split?_map t k j f hf]
    by_cases hj : j = k
    · subst hj; simp
    · simp [hj]
  · rw [if_neg ho, h]
    exact ⟨t, rfl, rfl, rfl, fun j => by simp [ho]⟩

/-- What the issue's bookkeeping leaves of a state: the issuing split waits no longer and is held no longer, windows of
    other splits may be empty, and nothing else of a terrace changes. -/
theorem State.noteIssue_spec {s : State} {c : Ctx} {t : Terrace} (h : s.ter? c.uid = some t)
    (hp : (s.part? c.t.core c.t.vf).isSome = true) :
    (s.noteIssue c).apart c.uid = s.apart c.uid ∧ (s.noteIssue c).issue = s.issue ∧
      ∃ w, (s.noteIssue c).ter? c.uid = some w ∧ w.regs = t.regs ∧ w.others = t.others
        ∧ w.split? c.sid = (t.split? c.sid).map (fun x => { x with waited := 0, hold := .none })
        ∧ ∀ j, j ≠ c.sid → (w.split? j).map Split.bare = (t.split? j).map Split.bare := by
  obtain ⟨p, hp⟩ := Option.isSome_iff_exists.1 hp
  unfold State.noteIssue
  rw [hp]
  -- the window of the split that issued last
  have step1 : ∀ (o : Option (Nat × Nat)),
      let s1 : State := match o with
        | some o => if o = (c.uid, c.sid) then s else s.updSplit o.1 o.2 fun x => { x with window := [] }
        | none => s
      s1.apart c.uid = s.apart c.uid ∧ s1.issue = s.issue ∧
      ∃ w, s1.ter? c.uid = some w ∧ w.regs = t.regs ∧ w.others = t.others ∧ w.split? c.sid = t.split? c.sid
        ∧ ∀ j, j ≠ c.sid → (w.split? j).map Split.bare = (t.split? j).map Split.bare := by
    intro o
    match o with
    | none => exact ⟨rfl, rfl, t, h, rfl, rfl, rfl, fun _ _ => rfl⟩
    | some o =>
      by_cases ho : o = (c.uid, c.sid)
      · simp only [ho, if_true]
        exact ⟨trivial, trivial, t, h, rfl, rfl, rfl, fun _ _ => rfl⟩
      · simp only [ho, if_false]
        refine ⟨State.apart_updSplit s o.1 o.2 c.uid _ fun _ _ => rfl, rfl, ?_⟩
        obtain ⟨w, h1, h2, h3, h4⟩ := State.updSplit_here h o.1 o.2 (fun x => { x with window := [] }) fun _ => rfl
        refine ⟨w, h1, h2, h3, ?_, ?_⟩
        · rw [h4, if_neg]
          rintro ⟨a, b⟩; exact ho (by rw [Prod.ext_iff]; exact ⟨a.symm, b.symm⟩)
        · intro j _
          rw [h4]; split
          · rw [Option.map_map]; rfl
          · rfl
  obtain ⟨a1, a2, w, b1, b2, b3, b4, b5⟩ := step1 (p.slotState.getD (c.t.ter / 16) SlotState.init).last
  dsimp only at a1 a2 b1 ⊢
  refine ⟨?_, ?_, ?_⟩
  · refine Eq.trans (State.apart_updSplit _ _ _ _ _ fun h => absurd rfl h) ?_
    refine Eq.trans ?_ a1
    apply State.apart_updPart
    intro x; rfl
  · exact a2
  · obtain ⟨w', h1, h2, h3, h4⟩ := State.updSplit_here (u := c.uid) (t := w) (b1 : State.ter? (State.updPart _ c.t.core p.pidx _) c.uid = some w) c.uid c.sid
      (fun x => { x with waited := 0, hold := .none }) fun _ => rfl
    refine ⟨w', h1, h2.trans b2, h3.trans b3, ?_, ?_⟩
    · rw [h4, if_pos ⟨rfl, rfl⟩, b4]
    · intro j hj
      rw [h4, if_neg (by simp [hj])]
      exact b5 j hj

/-- What the record of an issue leaves of a state: as `noteIssue_spec` says, and of an instruction that goes on after a wait
    nothing but pending bits changes. -/
theorem State.issued_spec {s : State} {c : Ctx} {t : Terrace} (h : s.ter? c.uid = some t)
    (hp : (s.part? c.t.core c.t.vf).isSome = true) :
    (s.issued c).apart c.uid = s.apart c.uid ∧ (s.issued c).issue = s.issue ∧
      ∃ w, (s.issued c).ter? c.uid = some w ∧ w.regs = t.regs ∧ w.others = t.others
        ∧ w.split? c.sid = (t.split? c.sid).map (fun x => if c.resumed then x else { x with waited := 0, hold := .none })
        ∧ ∀ j, j ≠ c.sid → (w.split? j).map Split.bare = (t.split? j).map Split.bare := by
  unfold State.issued
  by_cases hr : c.resumed = true
  · simp only [hr, if_true]
    exact ⟨State.apart_updTer s c.uid _ fun _ => rfl, rfl, t.clearOwned c.sid, State.ter?_updTer_same h _ fun _ => rfl, rfl, rfl,
      by simp [Terrace.clearOwned, Terrace.split?], fun _ _ => rfl⟩
  · simp only [hr]
    have q : ((s.countVf c.t.core c.t.vf evInstr 1).part? c.t.core c.t.vf).isSome = true := by
      rw [State.part?_countVf]; exact hp
    obtain ⟨a, b, e⟩ := State.noteIssue_spec (c := c) ((State.ter?_countVf ..).trans h) q
    exact ⟨a.trans (State.apart_countVf ..), b.trans (State.countVf_issue ..), e⟩

/-- In a sound state no error is met, and none is recorded. -/
theorem State.noted_sound {s s0 : State} (h : s0.flaws = []) : s.noted s0 = s := by unfold State.noted; rw [h]; rfl

/-- What leaves the list of upsets as it was has met none. -/
theorem State.noted_of_flaws {s s0 : State} (h : s.flaws = s0.flaws) : s.noted s0 = s := by
  have : (s0.flaws.filter fun f => !s0.flaws.contains f) = [] := by simp
  unfold State.noted; rw [h, this]; simp

/-- An instruction that has completed with an effect `s0`, `s1` with the records of the errors it met, its terrace `w` and its split `y` in it: all it does beside is
    to move the split on and to count. -/
theorem State.finish_done {s s0 s1 : State} {c : Ctx} {w : Terrace} {y : Split} (vals : Option (Bool × List DWord))
    (hr : s0.noted s = s1) (hf : s1.flaws = []) (hp : (s1.part? c.t.core c.t.vf).isSome = true) (hw : s1.ter? c.uid = some w)
    (hy : w.split? c.sid = some y) :
    (s.finish c (.done s0 vals)).apart c.uid = (commit s s1).apart c.uid
      ∧ (s.finish c (.done s0 vals)).issue = s1.issue.tail
      ∧ ∃ u x, (s.finish c (.done s0 vals)).ter? c.uid = some u ∧ u.split? c.sid = some x ∧ u.regs = w.regs
        ∧ u.others = w.others ∧ x.pc = c.nextPc ∧ x.mask = y.after.getD y.mask ∧ x.hold = .none ∧ x.status = y.status
        ∧ ∀ k, k ≠ c.sid → (u.split? k).map Split.bare = (w.split? k).map Split.bare := by
  have hh : s1.healRegs c = s1 := by unfold State.healRegs; rw [hf]; rfl
  -- the pending bits
  let s2 : State := s1.updTer c.uid fun t => match latency c.i c.ty with
    | some n => t.setPending c.now (writesOf c.sp.mode c.i) (some (c.now + n)) 0
    | none => t
  obtain ⟨w2, e1, e2, e3, e4⟩ : ∃ w2, s2.ter? c.uid = some w2 ∧ w2.regs = w.regs ∧ w2.others = w.others
      ∧ w2.splits = w.splits := by
    have hk : ∀ t : Terrace, (match latency c.i c.ty with
        | some n => t.setPending c.now (writesOf c.sp.mode c.i) (some (c.now + n)) 0
        | none => t).uid = t.uid := by intro t; split <;> rfl
    refine ⟨_, State.ter?_updTer_same hw _ hk, ?_⟩
    split <;> exact ⟨rfl, rfl, rfl⟩
  have p2 : s2.apart c.uid = s1.apart c.uid := State.apart_updTer s1 c.uid _ (by intro t; split <;> rfl)
  -- the split moves on
  let s3 : State := s2.updSplit c.uid c.sid fun sp => sp.retire c vals
  obtain ⟨w3, f1, f2, f3, f4⟩ := State.updSplit_here e1 c.uid c.sid (fun sp => sp.retire c vals) fun _ => rfl
  have p3 : s3.apart c.uid = s1.apart c.uid := by
    rw [State.apart_updSplit _ _ _ _ _ fun h => absurd rfl h, p2]
  have q3 : (s3.part? c.t.core c.t.vf).isSome = true := hp
  have t3 : s3.ter? c.uid = some w3 := f1
  obtain ⟨g1, g2, u, g3, g4, g5, g6, g7⟩ := State.issued_spec t3 q3
  have hfin : s.finish c (.done s0 vals) = commit s ((s3.issued c).popIssue) := by
    simp only [State.finish, hr, hh]; rfl
  rw [hfin]
  have hi3 : s3.issue = s1.issue := by simp only [s3, s2, State.updSplit_issue, State.updTer_issue]
  have hb : (s3.issued c).wbuf = s1.wbuf := by
    have := congrArg State.wbuf (g1.trans p3); exact this
  have hwj : ∀ j, w2.split? j = w.split? j := fun j => by unfold Terrace.split?; rw [e4]
  refine ⟨?_, ?_, u, if c.resumed then y.retire c vals else { (y.retire c vals) with waited := 0, hold := .none }, g3, ?_, ?_, ?_,
    by split <;> rfl, by split <;> (show (match y.after with | some m => m | none => y.mask) = _; cases y.after <;> rfl),
    by split <;> rfl, by split <;> rfl, ?_⟩
  · have h := g1.trans p3
    have e : ∀ r : State, (commit s r).apart c.uid = { r.apart c.uid with mem := applyWrites s.mem r.wbuf, wbuf := [] } :=
      fun r => rfl
    rw [e, e, State.apart_popIssue, h, State.popIssue_wbuf, hb]
  · show (s3.issued c).issue.tail = _
    rw [g2, hi3]
  · rw [g6, f4, if_pos ⟨rfl, rfl⟩, hwj, hy]; rfl
  · rw [g4, f2, e2]
  · rw [g5, f3, e3]
  · intro k hk
    rw [g7 k hk, f4, if_neg (by simp [hk]), hwj]

/-! ## Instructions at their issue -/

/-- An instruction that issues with its checks passed has its effect. -/
theorem issueWith_eq {i : Instr} {own : State → Ctx → Option Trap} {body : State → Ctx → Res} {s : State} {c : Ctx}
    (h : s.Issues i c) (ho : own s c = none) : issueWith i own body s = .next (s.finish c (body s c)) := by
  have hi := (s.issuer_spec h.issuer).2.2.2.1
  unfold issueWith
  rw [h.issuer]
  dsimp only
  split
  · rfl
  · rw [hi, h.form, h.operands, ho]
    simp only [guarded, h.sound]
    rfl

theorem issue_eq {i : Instr} {body : State → Ctx → Res} {s : State} {c : Ctx} (h : s.Issues i c) :
    issue i body s = .next (s.finish c (body s c)) := issueWith_eq h rfl

/-- An instruction passes when its effect is a done one that leaves all but its terrace and its split as it was. -/
theorem State.passes {s s1 : State} {i : Instr} {c : Ctx} {w : Terrace} {y : Split} (vals : Option (Bool × List DWord))
    (h : s.Issues i c) (hs : s1.apart c.uid = s.apart c.uid) (hi : s1.issue = s.issue)
    (hp : s1.parts = s.parts) (hw : s1.ter? c.uid = some w) (ho : w.others = c.t.others) (hy : w.split? c.sid = some y)
    (ha : y.after = c.sp.after) (hm : y.mask = c.sp.mask)
    (hk : ∀ k, k ≠ c.sid → (w.split? k).map Split.bare = (c.t.split? k).map Split.bare) :
    Passes s (s.finish c (.done s1 vals)) c w y := by
  have hf : s1.flaws = [] := (congrArg State.flaws hs).trans h.sound
  have hb : s1.wbuf = [] := (congrArg State.wbuf hs).trans h.tidy
  have hm1 : s1.mem = s.mem := by have := congrArg State.mem hs; exact this
  obtain ⟨g1, g2, u, x, g3, g4, g5, g6, g7, g8, g9, g10, g11⟩ := State.finish_done (s := s) vals (State.noted_sound h.sound) hf
    (by unfold State.part?; rw [hp]; exact h.home) hw hy
  refine ⟨?_, g2.trans (by rw [hi]), u, x, g3, g4, g5, g6.trans ho, g7, ?_, g9, g10, fun k hne => (g11 k hne).trans (hk k hne)⟩
  · rw [g1]
    have e : (commit s s1).apart c.uid = { s1.apart c.uid with mem := applyWrites s.mem s1.wbuf, wbuf := [] } := rfl
    rw [e, hs, hb]
    have : s.apart c.uid = { s.apart c.uid with mem := s.mem, wbuf := s.wbuf } := rfl
    rw [this, h.tidy]; rfl
  · rw [g8, ha, hm]

/-- Registers written by an instruction that changes nothing else. -/
theorem State.passes_regs {s : State} {i : Instr} {c : Ctx} (vals : Option (Bool × List DWord)) (h : s.Issues i c)
    (f : Terrace → Terrace) (hu : ∀ t, (f t).uid = t.uid) (ho : (f c.t).others = c.t.others)
    (hsp : (f c.t).splits = c.t.splits) : Passes s (s.finish c (.done (s.updTer c.uid f) vals)) c (f c.t) c.sp := by
  obtain ⟨_, e2, e3, _, _, _⟩ := s.issuer_spec h.issuer
  have hj : ∀ j, (f c.t).split? j = c.t.split? j := fun j => by unfold Terrace.split?; rw [hsp]
  exact State.passes vals h (State.apart_updTer s c.uid f hu) rfl rfl (State.ter?_updTer_same e2 f hu) ho
    (by rw [hj]; exact e3) rfl rfl fun k _ => by rw [hj]

/-- A destination written by an instruction that changes nothing else. -/
theorem State.passes_dst {s : State} {i : Instr} {c : Ctx} (vals : Option (Bool × List DWord)) (h : s.Issues i c) (d : Dst)
    (wide : Bool) (m : Lanes) (f : Nat → List Word) :
    Passes s (s.finish c (.done (s.updTer c.uid fun t => t.writeDst d wide m f) vals)) c (c.t.writeDst d wide m f) c.sp := by
  refine State.passes_regs vals h (fun t => t.writeDst d wide m f) (fun t => t.writeDst_uid d wide m f) ?_
    (c.t.writeDst_splits d wide m f)
  obtain ⟨_, _, _, _, e⟩ := c.t.writeDst_frame d wide m f
  rw [e]; rfl

/-- An instruction with no effect passes. -/
theorem State.passes_none {s : State} {i : Instr} {c : Ctx} (vals : Option (Bool × List DWord)) (h : s.Issues i c) :
    Passes s (s.finish c (.done s vals)) c c.t c.sp := by
  obtain ⟨_, e2, e3, _, _, _⟩ := s.issuer_spec h.issuer
  exact State.passes vals h rfl rfl rfl e2 rfl e3 rfl rfl fun _ _ => rfl

/-- A change of the status of the issuing split alone. -/
theorem State.passes_split {s : State} {i : Instr} {c : Ctx} (vals : Option (Bool × List DWord)) (h : s.Issues i c)
    (f : Split → Split) (hf : ∀ x, (f x).sid = x.sid) (ha : (f c.sp).after = c.sp.after) (hm : (f c.sp).mask = c.sp.mask) :
    Passes s (s.finish c (.done (s.updSplit c.uid c.sid f) vals)) c c.t (f c.sp) := by
  obtain ⟨_, e2, e3, _, _, _⟩ := s.issuer_spec h.issuer
  obtain ⟨w, g1, g2, g3, g4⟩ := State.updSplit_here e2 c.uid c.sid f hf
  have hp := State.passes (s1 := s.updSplit c.uid c.sid f) vals h
    (State.apart_updSplit s _ _ _ f fun h => absurd rfl h) rfl rfl g1 g3
    (by rw [g4, if_pos ⟨rfl, rfl⟩, e3]; rfl) ha hm (fun k hk => by rw [g4, if_neg (by simp [hk])])
  refine ⟨hp.apart, hp.issued, ?_⟩
  obtain ⟨u, x, a, b, d, e⟩ := hp.here
  exact ⟨u, x, a, b, d.trans g2, e⟩

/-! ## Every issue keeps the state tidy -/

theorem State.finish_tidy {s : State} (h : Memory.wf s.mem = true) (c : Ctx) (r : Res) : (s.finish c r).Tidy :=
  ⟨commit_wf h _, rfl⟩

theorem issueWith_tidy {i : Instr} {own : State → Ctx → Option Trap} {body : State → Ctx → Res} {s t : State}
    (h : s.Tidy) (hs : issueWith i own body s = .next t) : t.Tidy := by
  unfold issueWith at hs
  split at hs
  · cases hs
  · repeat' split at hs
    all_goals (cases hs; exact State.finish_tidy h.1 _ _)

theorem issue_tidy {i : Instr} {body : State → Ctx → Res} {s t : State} (h : s.Tidy) (hs : issue i body s = .next t) :
    t.Tidy := issueWith_tidy h hs

theorem event_tidy {ok : Bool} {s s' t : State} (h : s.Tidy) (hs : event ok s s' = .next t) : t.Tidy := by
  unfold event at hs
  split at hs
  · cases hs; exact ⟨commit_wf h.1 _, rfl⟩
  · cases hs

/-- An issue that has an issuer answers a next state. -/
theorem issue_answers {i : Instr} {body : State → Ctx → Res} {s : State} {c : Ctx} (h : s.issuer i = some c) :
    ∃ t, issue i body s = .next t := by
  unfold issue issueWith
  rw [h]
  dsimp only
  repeat' split
  all_goals exact ⟨_, rfl⟩

end Sys2Proof.Machine
end

