-- ==== Sys2Proof/Laws/Results.lean ====
section
/-! SUPPORT. Instructions whose effect is a result in registers, a predicate, or a step of the generator. -/

namespace Sys2Proof.Machine

/-- A write of a destination takes its words in the lanes of the mask only. -/
theorem Terrace.writeDst_congr (t : Terrace) (d : Dst) (wide : Bool) (m : Lanes) (f g : Nat → List Word)
    (h : ∀ l, l ∈ lanesOf m → f l = g l) : t.writeDst d wide m f = t.writeDst d wide m g := by
  cases d with
  | none => rfl
  | v n =>
    simp only [Terrace.writeDst]
    revert h
    generalize lanesOf m = ls
    intro h
    induction ls generalizing t with
    | nil => rfl
    | cons a ls ih =>
      rw [List.foldl_cons, List.foldl_cons, h a (List.mem_cons_self ..)]
      exact ih _ fun l hl => h l (List.mem_cons_of_mem _ hl)
  | s n =>
    simp only [Terrace.writeDst]
    cases hl : lowLane m with
    | none => rfl
    | some l =>
      have : l ∈ lanesOf m := List.mem_of_head? hl
      simp only [h l this]

theorem resWords_ofNat (wide : Bool) (x : Nat) : resWords wide (BitVec.ofNat 64 x).toNat = resWords wide x := by
  have h1 : BitVec.ofNat 32 (x % 2 ^ 64) = BitVec.ofNat 32 x := by
    apply BitVec.eq_of_toNat_eq; simp only [BitVec.toNat_ofNat]; omega
  have h2 : BitVec.ofNat 32 (x % 2 ^ 64 / 2 ^ 32) = BitVec.ofNat 32 (x / 2 ^ 32) := by
    apply BitVec.eq_of_toNat_eq; simp only [BitVec.toNat_ofNat]; omega
  cases wide <;> simp only [resWords, words2, BitVec.toNat_ofNat, if_true, h1, h2, Bool.false_eq_true, if_false]

/-- A result stands in the destination in the active lanes. -/
theorem Ctx.result_eq (c : Ctx) (s : State) (d : Dst) (wide : Bool) (f : Nat → Nat) :
    c.result s d wide f
      = .done (s.updTer c.uid fun t => t.writeDst d wide c.active fun l => resWords wide (f l)) (some (wide, c.latchVals f)) := by
  unfold Ctx.result
  simp only
  congr 2
  funext t
  apply Terrace.writeDst_congr
  intro l hl
  obtain ⟨h1, h2⟩ := (mem_lanesOf _ _).1 hl
  have : (c.latchVals f).getD l 0 = BitVec.ofNat 64 (f l) := by
    unfold Ctx.latchVals
    rw [List.getD_eq_getElem?_getD, List.getElem?_map, List.getElem?_range h1]
    simp only [Option.map_some, Option.getD_some, h2, if_true]
  rw [this, resWords_ofNat]

/-- An instruction whose effect is a result completes with it. -/
theorem completes_result {i : Instr} {body : State → Ctx → Res} {s : State} {c : Ctx} {d : Dst} {wide : Bool}
    {f : Nat → Nat} (h : s.Issues i c) (hx : exec i s = issue i body s) (hb : body s c = c.result s d wide f) :
    Completes i s c (c.put d wide f) c.sp := by
  refine ⟨_, hx.trans (issue_eq h), ?_⟩
  rw [hb, Ctx.result_eq]
  exact State.passes_dst _ h d wide c.active _

/-- A change of the registers of the issuing terrace and of the status of its split, and of nothing else. -/
theorem State.passes_both {s : State} {i : Instr} {c : Ctx} (vals : Option (Bool × List DWord)) (h : s.Issues i c)
    (g : Split → Split) (hg : ∀ x, (g x).sid = x.sid) (ha : (g c.sp).after = c.sp.after) (hm : (g c.sp).mask = c.sp.mask)
    (f : Terrace → Terrace) (hu : ∀ t, (f t).uid = t.uid) (hs : ∀ t, (f t).splits = t.splits)
    (ho : ∀ t, (f t).others = t.others) (hr : ∀ t u : Terrace, t.regs = u.regs → (f t).regs = (f u).regs) :
    Passes s (s.finish c (.done ((s.updSplit c.uid c.sid g).updTer c.uid f) vals)) c (f c.t) (g c.sp) := by
  obtain ⟨_, e2, e3, _, _, _⟩ := s.issuer_spec h.issuer
  obtain ⟨w, g1, g2, g3, g4⟩ := State.updSplit_here e2 c.uid c.sid g hg
  have hj : ∀ j, (f w).split? j = w.split? j := fun j => by unfold Terrace.split?; rw [hs]
  have hp := State.passes (s1 := (s.updSplit c.uid c.sid g).updTer c.uid f) vals h
    ((State.apart_updTer _ c.uid f hu).trans (State.apart_updSplit s _ _ _ g fun h => absurd rfl h)) rfl rfl
    (State.ter?_updTer_same g1 f hu) ((ho w).trans g3)
    (by rw [hj, g4, if_pos ⟨rfl, rfl⟩, e3]; rfl) ha hm (fun k hk => by rw [hj, g4, if_neg (by simp [hk])])
  refine ⟨hp.apart, hp.issued, ?_⟩
  obtain ⟨u, x, a, b, d, e⟩ := hp.here
  exact ⟨u, x, a, b, d.trans (hr _ _ g2), e⟩

end Sys2Proof.Machine
end

