-- ==== Sys2Proof/Laws/Outcomes.lean ====
section
/-! SUPPORT. How an issued instruction goes on, from what its meaning answers; and the operations that many meanings share. -/

namespace Sys2Proof.Machine

variable {i : Instr} {body : State → Ctx → Res} {s s1 : State} {c : Ctx}

/-! ## From the answer of a meaning -/

theorem ends_of (h : s.Issues i c) (hx : exec i s = issue i body s) (hb : ∃ vals, body s c = .done s1 vals) :
    Ends i s c s1 :=
  let ⟨vals, hb⟩ := hb
  ⟨vals, by rw [hx, issue_eq h, hb]⟩

theorem holds_of {k : Hold} (h : s.Issues i c) (hx : exec i s = issue i body s) (hb : body s c = .hold s1 k) :
    Holds i s c s1 k := by
  rw [Holds, hx, issue_eq h, hb]

theorem waits_of {k : Wait} (h : s.Issues i c) (hx : exec i s = issue i body s) (hb : body s c = .wait s1 k) :
    Waits i s c s1 k := by
  rw [Waits, hx, issue_eq h, hb]

theorem traps_of {tr : Trap} (h : s.Issues i c) (hx : exec i s = issue i body s)
    (hb : ∃ counted, body s c = .trap s1 tr counted) : Traps i s c s1 tr :=
  let ⟨b, hb⟩ := hb
  ⟨b, by rw [hx, issue_eq h, hb]⟩

theorem jumps_of {f : State → State} (h : s.Issues i c) (hx : exec i s = issue i body s)
    (hb : body s c = .jump s1 f) : Jumps i s c s1 f := by
  rw [Jumps, hx, issue_eq h, hb]

theorem completes_of (h : s.Issues i c) (hx : exec i s = issue i body s) (hb : ∃ vals, body s c = .done s vals) :
    Completes i s c c.t c.sp :=
  let ⟨vals, hb⟩ := hb
  ⟨_, by rw [hx, issue_eq h, hb], State.passes_none vals h⟩

/-- An event whose condition holds occurs. -/
theorem occurs_of {ok : Bool} (hx : exec i s = event ok s s1) (h : ok = true) : Occurs i s s1 := by
  rw [Occurs, hx, event, if_pos h]

/-- A slot instruction whose slots are held, idle and unclaimed goes on to its body. -/
theorem withSlots_eq {ns : List Nat} (h : ∀ k ∈ ns, s.slotHeld c.t k = true ∧ s.roundBusy (c.t.slot k) = false
    ∧ s.claimed c.t k = false) : withSlots ns body s c = body s c := by
  have h1 : ns.find? (fun n => !s.slotHeld c.t n) = none := by
    rw [List.find?_eq_none]; intro x hx; simp [(h x hx).1]
  have h2 : ns.any (fun n => s.roundBusy (c.t.slot n) || s.claimed c.t n) = false := by
    rw [List.any_eq_false]; intro x hx; simp [(h x hx).2]
  unfold withSlots
  simp only [h1, h2]
  simp

/-- A tile instruction of an undivided terrace with an active lane goes on to its body. -/
theorem tile_eq (hd : c.t.divided = false) (ha : c.active ≠ 0) : tile body s c = body s c := by
  have ha' : ¬ c.active = 0#32 := ha
  simp [tile, hd, ha']

/-- A bounded counter's operation whose page passes. -/
theorem bcOp_eq {a : Nat} {use : State → Ctx → Nat → Phys → Res} {ph : Phys}
    (h : s.bcPage c (c.bcAddr a) = (s1, .ok ph)) : bcOp a use s c = use s1 c (c.bcAddr a) ph := by
  unfold bcOp
  simp only [h]

/-- A scope's checks pass. -/
theorem sysScope_free {sc : Nat} (h : sc = 7 → s.sysScope c.t.vf = true) : (sc == 7 && !s.sysScope c.t.vf) = false := by
  by_cases e : sc = 7
  · simp [e, h e]
  · simp [e]

theorem gangScope_free {sc : Nat} (h : sc = 5 → s.gated c.t = false) : (sc == 5 && s.gated c.t) = false := by
  by_cases e : sc = 5
  · simp [e, h e]
  · simp [e]

/-- A memory instruction whose lanes all begin: its access is registered and counted. -/
theorem memOp_runs {k : AccKind} {dst : Dst} {lanes : List Nat} {all : Lanes} {len l : Nat} {ea data cmp : Nat → Nat}
    {r : List Nat} (hl : lanes = l :: r) (hb : s.ownRegBusy c lanes ea len = false) :
    let x := lanes.foldl (fun (x : Lanes32) l => x.add l (ea l) (x.s.lane c k x.seen l (ea l) len (data l) (cmp l)))
      ⟨s, [], [], [], [], [], false⟩
    let path := match (x.reqs ++ x.out).find? fun r => r.lane == l with
      | some r => pathOf (ea l) r.page
      | none => if isGlobal (ea l) then 0 else pathOf (ea l) none
    x.stay = false → x.faults = [] → c.t.inFlight path < 255 →
    memOp k dst lanes all len ea data cmp s c =
      (let sent := x.s.sendAll (.core c.t.core) c.t.vf c.ty k x.out
       let s2 := sent.1.openAccess c k dst all path (x.reqs ++ sent.2) false true []
       if k.holds x.reqs x.out then .hold s2 (.access sent.1.fresh) else .done s2 none) := by
  intro x path hw hf hp
  have h0 : lanes.isEmpty = false := by rw [hl]; rfl
  have h1 : (lanes.find? fun l => !([] : List (Nat × Nat × Nat)).any fun f => f.1 == l) = some l := by rw [hl]; simp
  have h2 : ¬ 255 ≤ c.t.inFlight path := Nat.not_le.2 hp
  unfold memOp
  rw [if_neg (by simp [h0]), if_neg (by simp [hb])]
  change (if x.stay = true then _ else _) = _
  rw [hw, if_neg Bool.false_ne_true]
  simp only [show (lanes.foldl (fun (x : Lanes32) l => x.add l (ea l) (x.s.lane c k x.seen l (ea l) len (data l) (cmp l)))
      ⟨s, [], [], [], [], [], false⟩) = x from rfl, hf]
  simp only [List.filter_nil, List.foldl_nil, h1, List.isEmpty_nil]
  change (if ((true && true) && decide (255 ≤ c.t.inFlight path)) = true then _ else _) = _
  rw [if_neg (by simp [h2])]
  simp [-List.find?_append]
  rfl

/-- A memory instruction with no lane does nothing. -/
theorem memOp_idle {k : AccKind} {dst : Dst} {all : Lanes} {len : Nat} {ea data cmp : Nat → Nat} :
    memOp k dst [] all len ea data cmp s c = .done s none := rfl

/-! ## Domains -/

theorem find?_set (k : DomKey) (d : Domain) (l : List (DomKey × Domain)) (hl : (l.any fun e => e.1 == k) = true) :
    ((l.map fun e => if (e.1 == k) = true then (k, d) else e).find? fun e => e.1 == k) = some (k, d) := by
  induction l with
  | nil => simp at hl
  | cons e l ih =>
    simp only [List.map_cons, List.find?_cons]
    by_cases he : (e.1 == k) = true
    · simp [he]
    · simp only [List.any_cons, Bool.or_eq_true] at hl
      simpa [he] using ih (hl.resolve_left he)

/-- A domain set reads back. -/
@[simp] theorem State.dom_setDom (s : State) (k : DomKey) (d : Domain) : (s.setDom k d).dom k = d := by
  unfold State.setDom
  by_cases h : (s.domains.any fun e => e.1 == k) = true
  · rw [if_pos h]; simp only [State.dom, find?_set k d _ h]
  · rw [if_neg h]; simp [State.dom]

@[simp] theorem State.dom_updTer (s : State) (u : Nat) (f : Terrace → Terrace) (k : DomKey) :
    (s.updTer u f).dom k = s.dom k := rfl

end Sys2Proof.Machine
end

