-- ==== Sys2Proof/Laws/PerInstr.lean ====
section
/-! SUPPORT. One lemma per instruction: the fields of a well-formed instruction fit their places in the word (R26), so
that packing them loses nothing. -/

open Sys2Proof.Machine

namespace Sys2Proof.Laws.FieldsFit

/-- The opcode and the three fields of a well-formed instruction's word are below their bounds. -/
def Statement (i : Instr) : Prop :=
  WellFormed i = true →
    (encodeFields i).op < 128 ∧ (encodeFields i).d < 256 ∧ (encodeFields i).a < 256 ∧ (encodeFields i).b < 256

theorem src_fits {x w k} (h : opdOk (.src x w k) = true) : encSrc x < 256 := by
  cases x <;> simp [opdOk, srcRange] at h <;> simp [encSrc] <;> omega

theorem sReg_fits {n w k} (h : opdOk (.src (.s n) w k) = true) : 224 + n < 256 := by
  simp [opdOk, srcRange] at h; omega

theorem sDst_fits {n w k} (h : opdOk (.dst (.s n) w k) = true) : 224 + n < 256 := by
  simp [opdOk, dstAccepts] at h; omega

theorem vReg_fits {n w k} (h : opdOk (.src (.v n) w k) = true) : n < 256 := by
  simp [opdOk, srcRange] at h; omega

theorem vDst_fits {n w k} (h : opdOk (.dst (.v n) w k) = true) : n < 256 := by
  simp [opdOk, dstAccepts] at h; omega

theorem dst_fits {x w k} (h : opdOk (.dst x w k) = true) : encDst x < 256 := by
  cases x <;> cases k <;> simp [opdOk, dstAccepts] at h <;> simp [encDst] <;> omega

theorem both_fits {x w} (h : opdOk (.both x w) = true) : encDst x < 256 := by
  cases x <;> simp [opdOk, dstAccepts] at h <;> simp [encDst] <;> omega

theorem parts {i} (h : WellFormed i = true) : isWord i = true ∧ (opds i).all opdOk = true ∧ fieldsOk i = true := by
  simp only [WellFormed, formOk, Bool.and_eq_true] at h
  exact ⟨h.1.1.1.1.1, h.1.1.1.1.2, h.2⟩

theorem noWord {i} (hw : isWord i = false) : Statement i :=
  fun h => absurd ((parts h).1.symm.trans hw) (by decide)

theorem fields {i} (h : WellFormed i = true) : fieldsOk i = true := (parts h).2.2

theorem opd {i} (h : WellFormed i = true) (k : Nat) {o : Opd} (ho : (opds i)[k]? = some o) : opdOk o = true :=
  List.all_eq_true.mp (parts h).2.1 o (List.mem_of_getElem? ho)

/-- The operands of a collective operation on a tile and a group record. -/
def tileOpds (d : Tile) (a : Nat) : List Opd :=
  (match d with | .acc _ => [] | .s n => [.src (.s n) .one .sReg]) ++ [quad a]

/-- A tile field's own check. -/
def tileOk (d : Tile) : Bool := match d with | .acc n => decide (n < 4) | .s _ => true

theorem opd_append {i d a} (h : WellFormed i = true) (ho : opds i = tileOpds d a) :
    ∀ o ∈ tileOpds d a, opdOk o = true := ho ▸ List.all_eq_true.mp (parts h).2.1

theorem quad_fits (d : Tile) (a : Nat) (h : ∀ o ∈ tileOpds d a, opdOk o = true) : 224 + a < 256 :=
  sReg_fits (h (quad a) (List.mem_append_right _ (List.mem_singleton.mpr rfl)))

theorem tile_fits (d : Tile) (a : Nat) (h : ∀ o ∈ tileOpds d a, opdOk o = true)
    (hf : tileOk d = true) : encTile d < 256 := by
  cases d with
  | acc n => exact Nat.lt_trans (of_decide_eq_true hf) (by decide)
  | s n => exact sReg_fits (h (.src (.s n) .one .sReg) (List.mem_append_left _ (List.mem_singleton.mpr rfl)))

theorem and_parts {a b : Bool} (h : (a && b) = true) : a = true ∧ b = true := Bool.and_eq_true a b ▸ h

theorem wide_fits {x} {c : Bool} (h : opdOk (if c then .src x .two .sZeroImm else .src x .one .uni) = true) :
    encSrc x < 256 := by cases c <;> exact src_fits h

theorem low {n : Nat} (h : Nat.ble (n + 1) 128 = true) : n < 128 := Nat.le_of_ble_eq_true h

theorem small {n : Nat} (h : Nat.ble (n + 1) 256 = true) : n < 256 := Nat.le_of_ble_eq_true h

theorem add (d : Dst) (a : Src) (b : Src) (m : Option Mods) : Statement (.add d a b m) :=
  fun h => ⟨low rfl, dst_fits (opd h 0 rfl), src_fits (opd h 1 rfl), src_fits (opd h 2 rfl)⟩

theorem addc (d : Dst) (a : Src) (b : Src) (m : Option Mods) : Statement (.addc d a b m) :=
  fun h => ⟨low rfl, dst_fits (opd h 0 rfl), src_fits (opd h 1 rfl), src_fits (opd h 2 rfl)⟩

theorem sub (d : Dst) (a : Src) (b : Src) (m : Option Mods) : Statement (.sub d a b m) :=
  fun h => ⟨low rfl, dst_fits (opd h 0 rfl), src_fits (opd h 1 rfl), src_fits (opd h 2 rfl)⟩

theorem subb (d : Dst) (a : Src) (b : Src) (m : Option Mods) : Statement (.subb d a b m) :=
  fun h => ⟨low rfl, dst_fits (opd h 0 rfl), src_fits (opd h 1 rfl), src_fits (opd h 2 rfl)⟩

theorem mullo (d : Dst) (a : Src) (b : Src) (m : Option Mods) : Statement (.mullo d a b m) :=
  fun h => ⟨low rfl, dst_fits (opd h 0 rfl), src_fits (opd h 1 rfl), src_fits (opd h 2 rfl)⟩

theorem mulhi (d : Dst) (a : Src) (b : Src) (m : Option Mods) : Statement (.mulhi d a b m) :=
  fun h => ⟨low rfl, dst_fits (opd h 0 rfl), src_fits (opd h 1 rfl), src_fits (opd h 2 rfl)⟩

theorem mad (d : Dst) (a : Src) (b : Src) (m : Option Mods) : Statement (.mad d a b m) :=
  fun h => ⟨low rfl, both_fits (opd h 0 rfl), src_fits (opd h 1 rfl), src_fits (opd h 2 rfl)⟩

theorem div (d : Dst) (a : Src) (b : Src) (m : Option Mods) : Statement (.div d a b m) :=
  fun h => ⟨low rfl, dst_fits (opd h 0 rfl), src_fits (opd h 1 rfl), src_fits (opd h 2 rfl)⟩

theorem rem (d : Dst) (a : Src) (b : Src) (m : Option Mods) : Statement (.rem d a b m) :=
  fun h => ⟨low rfl, dst_fits (opd h 0 rfl), src_fits (opd h 1 rfl), src_fits (opd h 2 rfl)⟩

theorem min (d : Dst) (a : Src) (b : Src) (m : Option Mods) : Statement (.min d a b m) :=
  fun h => ⟨low rfl, dst_fits (opd h 0 rfl), src_fits (opd h 1 rfl), src_fits (opd h 2 rfl)⟩

theorem max (d : Dst) (a : Src) (b : Src) (m : Option Mods) : Statement (.max d a b m) :=
  fun h => ⟨low rfl, dst_fits (opd h 0 rfl), src_fits (opd h 1 rfl), src_fits (opd h 2 rfl)⟩

theorem and (d : Dst) (a : Src) (b : Src) (m : Option Mods) : Statement (.and d a b m) :=
  fun h => ⟨low rfl, dst_fits (opd h 0 rfl), src_fits (opd h 1 rfl), src_fits (opd h 2 rfl)⟩

theorem or (d : Dst) (a : Src) (b : Src) (m : Option Mods) : Statement (.or d a b m) :=
  fun h => ⟨low rfl, dst_fits (opd h 0 rfl), src_fits (opd h 1 rfl), src_fits (opd h 2 rfl)⟩

theorem xor (d : Dst) (a : Src) (b : Src) (m : Option Mods) : Statement (.xor d a b m) :=
  fun h => ⟨low rfl, dst_fits (opd h 0 rfl), src_fits (opd h 1 rfl), src_fits (opd h 2 rfl)⟩

theorem andn (d : Dst) (a : Src) (b : Src) (m : Option Mods) : Statement (.andn d a b m) :=
  fun h => ⟨low rfl, dst_fits (opd h 0 rfl), src_fits (opd h 1 rfl), src_fits (opd h 2 rfl)⟩

theorem shl (d : Dst) (a : Src) (b : Src) (m : Option Mods) : Statement (.shl d a b m) :=
  fun h => ⟨low rfl, dst_fits (opd h 0 rfl), src_fits (opd h 1 rfl), src_fits (opd h 2 rfl)⟩

theorem shr (d : Dst) (a : Src) (b : Src) (m : Option Mods) : Statement (.shr d a b m) :=
  fun h => ⟨low rfl, dst_fits (opd h 0 rfl), src_fits (opd h 1 rfl), src_fits (opd h 2 rfl)⟩

theorem sar (d : Dst) (a : Src) (b : Src) (m : Option Mods) : Statement (.sar d a b m) :=
  fun h => ⟨low rfl, dst_fits (opd h 0 rfl), src_fits (opd h 1 rfl), src_fits (opd h 2 rfl)⟩

theorem rol (d : Dst) (a : Src) (b : Src) (m : Option Mods) : Statement (.rol d a b m) :=
  fun h => ⟨low rfl, dst_fits (opd h 0 rfl), src_fits (opd h 1 rfl), src_fits (opd h 2 rfl)⟩

theorem bfx (d : Dst) (a : Src) (b : Src) (m : Option Mods) : Statement (.bfx d a b m) :=
  fun h => ⟨low rfl, dst_fits (opd h 0 rfl), src_fits (opd h 1 rfl), src_fits (opd h 2 rfl)⟩

theorem bfi (d : Dst) (a : Src) (b : Src) (m : Option Mods) : Statement (.bfi d a b m) :=
  fun h => ⟨low rfl, both_fits (opd h 0 rfl), src_fits (opd h 1 rfl), src_fits (opd h 2 rfl)⟩

theorem sel (d : Dst) (a : Src) (b : Src) (neg : Bool) (p : Nat) : Statement (.sel d a b neg p) :=
  fun h => ⟨low rfl, dst_fits (opd h 0 rfl), src_fits (opd h 1 rfl), src_fits (opd h 2 rfl)⟩

theorem cmp (c : Nat) (p : Nat) (a : Src) (b : Src) (m : Option Mods) : Statement (.cmp c p a b m) := by
  intro h
  have q := fields h
  have r := opd h 2 rfl
  simp [fieldsOk, opdOk] at q r
  refine ⟨low rfl, ?_, src_fits (opd h 0 rfl), src_fits (opd h 1 rfl)⟩
  all_goals (dsimp only [encodeFields]; omega)

theorem lea (d : Dst) (a : Src) (b : Src) (m : Option Mods) : Statement (.lea d a b m) :=
  fun h => ⟨low rfl, dst_fits (opd h 0 rfl), src_fits (opd h 1 rfl), src_fits (opd h 2 rfl)⟩

theorem abs (d : Dst) (a : Src) (m : Option Mods) : Statement (.abs d a m) :=
  fun h => ⟨low rfl, dst_fits (opd h 0 rfl), src_fits (opd h 1 rfl), small rfl⟩

theorem neg (d : Dst) (a : Src) (m : Option Mods) : Statement (.neg d a m) :=
  fun h => ⟨low rfl, dst_fits (opd h 0 rfl), src_fits (opd h 1 rfl), small rfl⟩

theorem not (d : Dst) (a : Src) (m : Option Mods) : Statement (.not d a m) :=
  fun h => ⟨low rfl, dst_fits (opd h 0 rfl), src_fits (opd h 1 rfl), small rfl⟩

theorem popc (d : Dst) (a : Src) (m : Option Mods) : Statement (.popc d a m) :=
  fun h => ⟨low rfl, dst_fits (opd h 0 rfl), src_fits (opd h 1 rfl), small rfl⟩

theorem clz (d : Dst) (a : Src) (m : Option Mods) : Statement (.clz d a m) :=
  fun h => ⟨low rfl, dst_fits (opd h 0 rfl), src_fits (opd h 1 rfl), small rfl⟩

theorem brev (d : Dst) (a : Src) (m : Option Mods) : Statement (.brev d a m) :=
  fun h => ⟨low rfl, dst_fits (opd h 0 rfl), src_fits (opd h 1 rfl), small rfl⟩

theorem mov (d : Dst) (a : Src) (m : Option Mods) : Statement (.mov d a m) :=
  fun h => ⟨low rfl, dst_fits (opd h 0 rfl), src_fits (opd h 1 rfl), small rfl⟩

theorem movi (d : Dst) (w : Word) : Statement (.movi d w) :=
  fun h => ⟨low rfl, dst_fits (opd h 0 rfl), small rfl, small rfl⟩

theorem movh (d : Dst) (w : Word) : Statement (.movh d w) :=
  fun h => ⟨low rfl, both_fits (opd h 0 rfl), small rfl, small rfl⟩

theorem pset (p : Nat) (a : Src) (lanes : Bool) : Statement (.pset p a lanes) := by
  intro h
  have r := opd h 1 rfl
  have := Bool.toNat_le lanes
  simp [opdOk] at r
  refine ⟨low rfl, ?_, src_fits (opd h 0 rfl), ?_⟩
  all_goals (dsimp only [encodeFields]; omega)

theorem fadd (d : Dst) (a : Src) (b : Src) (m : Option Mods) : Statement (.fadd d a b m) :=
  fun h => ⟨low rfl, dst_fits (opd h 0 rfl), src_fits (opd h 1 rfl), src_fits (opd h 2 rfl)⟩

theorem fsub (d : Dst) (a : Src) (b : Src) (m : Option Mods) : Statement (.fsub d a b m) :=
  fun h => ⟨low rfl, dst_fits (opd h 0 rfl), src_fits (opd h 1 rfl), src_fits (opd h 2 rfl)⟩

theorem fmul (d : Dst) (a : Src) (b : Src) (m : Option Mods) : Statement (.fmul d a b m) :=
  fun h => ⟨low rfl, dst_fits (opd h 0 rfl), src_fits (opd h 1 rfl), src_fits (opd h 2 rfl)⟩

theorem fma (d : Dst) (a : Src) (b : Src) (m : Option Mods) : Statement (.fma d a b m) :=
  fun h => ⟨low rfl, both_fits (opd h 0 rfl), src_fits (opd h 1 rfl), src_fits (opd h 2 rfl)⟩

theorem fmin (d : Dst) (a : Src) (b : Src) (m : Option Mods) : Statement (.fmin d a b m) :=
  fun h => ⟨low rfl, dst_fits (opd h 0 rfl), src_fits (opd h 1 rfl), src_fits (opd h 2 rfl)⟩

theorem fmax (d : Dst) (a : Src) (b : Src) (m : Option Mods) : Statement (.fmax d a b m) :=
  fun h => ⟨low rfl, dst_fits (opd h 0 rfl), src_fits (opd h 1 rfl), src_fits (opd h 2 rfl)⟩

theorem fcmp (c : Nat) (p : Nat) (a : Src) (b : Src) (m : Option Mods) : Statement (.fcmp c p a b m) := by
  intro h
  have q := fields h
  have r := opd h 2 rfl
  simp [fieldsOk, opdOk] at q r
  refine ⟨low rfl, ?_, src_fits (opd h 0 rfl), src_fits (opd h 1 rfl)⟩
  all_goals (dsimp only [encodeFields]; omega)

theorem fdiv (d : Dst) (a : Src) (b : Src) (m : Option Mods) : Statement (.fdiv d a b m) :=
  fun h => ⟨low rfl, dst_fits (opd h 0 rfl), src_fits (opd h 1 rfl), src_fits (opd h 2 rfl)⟩

theorem frcp (d : Dst) (a : Src) (m : Option Mods) : Statement (.frcp d a m) :=
  fun h => ⟨low rfl, dst_fits (opd h 0 rfl), src_fits (opd h 1 rfl), small rfl⟩

theorem frsq (d : Dst) (a : Src) (m : Option Mods) : Statement (.frsq d a m) :=
  fun h => ⟨low rfl, dst_fits (opd h 0 rfl), src_fits (opd h 1 rfl), small rfl⟩

theorem fsqrt (d : Dst) (a : Src) (m : Option Mods) : Statement (.fsqrt d a m) :=
  fun h => ⟨low rfl, dst_fits (opd h 0 rfl), src_fits (opd h 1 rfl), small rfl⟩

theorem fexp2 (d : Dst) (a : Src) (m : Option Mods) : Statement (.fexp2 d a m) :=
  fun h => ⟨low rfl, dst_fits (opd h 0 rfl), src_fits (opd h 1 rfl), small rfl⟩

theorem flog2 (d : Dst) (a : Src) (m : Option Mods) : Statement (.flog2 d a m) :=
  fun h => ⟨low rfl, dst_fits (opd h 0 rfl), src_fits (opd h 1 rfl), small rfl⟩

theorem fsin (d : Dst) (a : Src) (m : Option Mods) : Statement (.fsin d a m) :=
  fun h => ⟨low rfl, dst_fits (opd h 0 rfl), src_fits (opd h 1 rfl), small rfl⟩

theorem fcos (d : Dst) (a : Src) (m : Option Mods) : Statement (.fcos d a m) :=
  fun h => ⟨low rfl, dst_fits (opd h 0 rfl), src_fits (opd h 1 rfl), small rfl⟩

theorem ftanh (d : Dst) (a : Src) (m : Option Mods) : Statement (.ftanh d a m) :=
  fun h => ⟨low rfl, dst_fits (opd h 0 rfl), src_fits (opd h 1 rfl), small rfl⟩

theorem frint (d : Dst) (a : Src) (m : Option Mods) : Statement (.frint d a m) :=
  fun h => ⟨low rfl, dst_fits (opd h 0 rfl), src_fits (opd h 1 rfl), small rfl⟩

theorem fclass (d : Dst) (a : Src) (m : Option Mods) : Statement (.fclass d a m) :=
  fun h => ⟨low rfl, dst_fits (opd h 0 rfl), src_fits (opd h 1 rfl), small rfl⟩

theorem cvt (d : Dst) (a : Src) (t : Nat) (m : Option Mods) : Statement (.cvt d a t m) := by
  intro h
  have q := fields h
  simp [fieldsOk] at q
  refine ⟨low rfl, dst_fits (opd h 0 rfl), src_fits (opd h 1 rfl), ?_⟩
  all_goals (dsimp only [encodeFields]; omega)

theorem qpack (d : Dst) (a : Src) (f : Nat) (m : Option Mods) : Statement (.qpack d a f m) := by
  intro h
  have q := fields h
  simp [fieldsOk] at q
  refine ⟨low rfl, dst_fits (opd h 0 rfl), src_fits (opd h 1 rfl), ?_⟩
  all_goals (dsimp only [encodeFields]; omega)

theorem qunpk (d : Dst) (a : Src) (f : Nat) (m : Option Mods) : Statement (.qunpk d a f m) := by
  intro h
  have q := fields h
  simp [fieldsOk] at q
  refine ⟨low rfl, dst_fits (opd h 0 rfl), src_fits (opd h 1 rfl), ?_⟩
  all_goals (dsimp only [encodeFields]; omega)

theorem srnd (d : Dst) (a : Src) (t : Nat) (m : Option Mods) : Statement (.srnd d a t m) := by
  intro h
  have q := fields h
  simp [fieldsOk] at q
  refine ⟨low rfl, dst_fits (opd h 0 rfl), src_fits (opd h 1 rfl), ?_⟩
  all_goals (dsimp only [encodeFields]; omega)

theorem rng (d : Dst) : Statement (.rng d) :=
  fun h => ⟨low rfl, dst_fits (opd h 0 rfl), small rfl, small rfl⟩

theorem rngst (d : Dst) : Statement (.rngst d) :=
  fun h => ⟨low rfl, dst_fits (opd h 0 rfl), small rfl, small rfl⟩

theorem rngld (a : Src) : Statement (.rngld a) :=
  fun h => ⟨low rfl, small rfl, src_fits (opd h 0 rfl), small rfl⟩

theorem shflIdx (d : Dst) (a : Src) (b : Src) (m : Option Mods) : Statement (.shflIdx d a b m) :=
  fun h => ⟨low rfl, dst_fits (opd h 0 rfl), src_fits (opd h 1 rfl), src_fits (opd h 2 rfl)⟩

theorem shflUp (d : Dst) (a : Src) (b : Src) (m : Option Mods) : Statement (.shflUp d a b m) :=
  fun h => ⟨low rfl, dst_fits (opd h 0 rfl), src_fits (opd h 1 rfl), src_fits (opd h 2 rfl)⟩

theorem shflDown (d : Dst) (a : Src) (b : Src) (m : Option Mods) : Statement (.shflDown d a b m) :=
  fun h => ⟨low rfl, dst_fits (opd h 0 rfl), src_fits (opd h 1 rfl), src_fits (opd h 2 rfl)⟩

theorem shflXor (d : Dst) (a : Src) (b : Src) (m : Option Mods) : Statement (.shflXor d a b m) :=
  fun h => ⟨low rfl, dst_fits (opd h 0 rfl), src_fits (opd h 1 rfl), src_fits (opd h 2 rfl)⟩

theorem bcast (d : Dst) (a : Src) (b : Src) (m : Option Mods) : Statement (.bcast d a b m) :=
  fun h => ⟨low rfl, dst_fits (opd h 0 rfl), src_fits (opd h 1 rfl), src_fits (opd h 2 rfl)⟩

theorem voteAny (d : Dst) (a : Src) : Statement (.voteAny d a) :=
  fun h => ⟨low rfl, dst_fits (opd h 0 rfl), src_fits (opd h 1 rfl), small rfl⟩

theorem voteAll (d : Dst) (a : Src) : Statement (.voteAll d a) :=
  fun h => ⟨low rfl, dst_fits (opd h 0 rfl), src_fits (opd h 1 rfl), small rfl⟩

theorem voteBallot (d : Dst) (a : Src) : Statement (.voteBallot d a) :=
  fun h => ⟨low rfl, dst_fits (opd h 0 rfl), src_fits (opd h 1 rfl), small rfl⟩

theorem voteUni (d : Dst) (a : Src) : Statement (.voteUni d a) :=
  fun h => ⟨low rfl, dst_fits (opd h 0 rfl), src_fits (opd h 1 rfl), small rfl⟩

theorem lred (d : Dst) (a : Src) (o : Nat) : Statement (.lred d a o) := by
  intro h
  have q := fields h
  simp [fieldsOk] at q
  refine ⟨low rfl, dst_fits (opd h 0 rfl), src_fits (opd h 1 rfl), ?_⟩
  all_goals (dsimp only [encodeFields]; omega)

theorem lscan (d : Dst) (a : Src) (excl : Bool) (o : Nat) : Statement (.lscan d a excl o) := by
  intro h
  have q := fields h
  have := Bool.toNat_le excl
  simp [fieldsOk] at q
  refine ⟨low rfl, dst_fits (opd h 0 rfl), src_fits (opd h 1 rfl), ?_⟩
  all_goals (dsimp only [encodeFields]; omega)

theorem bra (off : Word) : Statement (.bra off) :=
  fun _ => ⟨low rfl, small rfl, small rfl, small rfl⟩

theorem brp (p : Nat) (neg : Bool) (off : Word) : Statement (.brp p neg off) := by
  intro h
  have q := fields h
  have r := opd h 0 rfl
  have := Bool.toNat_le neg
  simp [fieldsOk, opdOk] at q r
  refine ⟨low rfl, ?_, small rfl, small rfl⟩
  all_goals (dsimp only [encodeFields]; omega)

theorem call (d : Dst) (off : Word) : Statement (.call d off) :=
  fun h => ⟨low rfl, dst_fits (opd h 0 rfl), small rfl, small rfl⟩

theorem jmpr (a : Src) : Statement (.jmpr a) :=
  fun h => ⟨low rfl, small rfl, src_fits (opd h 0 rfl), small rfl⟩

theorem mode (w : BitVec 16) : Statement (.mode w) := by
  intro h
  have q := fields h
  simp [fieldsOk] at q
  refine ⟨low rfl, small rfl, ?_, ?_⟩
  all_goals (dsimp only [encodeFields]; omega)

theorem nop : Statement .nop :=
  fun _ => ⟨low rfl, small rfl, small rfl, small rfl⟩

theorem nopMerge : Statement .nopMerge :=
  fun _ => ⟨low rfl, small rfl, small rfl, small rfl⟩

theorem ret (a : Src) : Statement (.ret a) :=
  fun h => ⟨low rfl, small rfl, src_fits (opd h 0 rfl), small rfl⟩

theorem exit : Statement .exit :=
  fun _ => ⟨low rfl, small rfl, small rfl, small rfl⟩

theorem yield : Statement .yield :=
  fun _ => ⟨low rfl, small rfl, small rfl, small rfl⟩

theorem sleep (a : Src) : Statement (.sleep a) :=
  fun h => ⟨low rfl, small rfl, src_fits (opd h 0 rfl), small rfl⟩

theorem leave : Statement .leave :=
  fun _ => ⟨low rfl, small rfl, small rfl, small rfl⟩

theorem qbar : Statement .qbar :=
  fun _ => ⟨low rfl, small rfl, small rfl, small rfl⟩

theorem trap (n : Nat) : Statement (.trap n) := by
  intro h
  have q := fields h
  simp [fieldsOk] at q
  refine ⟨low rfl, ?_, small rfl, small rfl⟩
  all_goals (dsimp only [encodeFields]; omega)

theorem tret : Statement .tret :=
  fun _ => ⟨low rfl, small rfl, small rfl, small rfl⟩

theorem elog (d : Dst) : Statement (.elog d) :=
  fun h => ⟨low rfl, dst_fits (opd h 0 rfl), small rfl, small rfl⟩

theorem join (a : Src) (b : Src) : Statement (.join a b) :=
  fun h => ⟨low rfl, small rfl, src_fits (opd h 0 rfl), src_fits (opd h 1 rfl)⟩

theorem launch (d : Dst) (a : Src) : Statement (.launch d a) :=
  fun h => ⟨low rfl, dst_fits (opd h 0 rfl), src_fits (opd h 1 rfl), small rfl⟩

theorem ldB (d : Dst) (a : Src) (b : Src) : Statement (.ldB d a b) :=
  fun h => ⟨low rfl, dst_fits (opd h 0 rfl), src_fits (opd h 1 rfl), src_fits (opd h 2 rfl)⟩

theorem ldH (d : Dst) (a : Src) (b : Src) : Statement (.ldH d a b) :=
  fun h => ⟨low rfl, dst_fits (opd h 0 rfl), src_fits (opd h 1 rfl), src_fits (opd h 2 rfl)⟩

theorem ldW (d : Dst) (a : Src) (b : Src) : Statement (.ldW d a b) :=
  fun h => ⟨low rfl, dst_fits (opd h 0 rfl), src_fits (opd h 1 rfl), src_fits (opd h 2 rfl)⟩

theorem ldD (d : Dst) (a : Src) (b : Src) : Statement (.ldD d a b) :=
  fun h => ⟨low rfl, dst_fits (opd h 0 rfl), src_fits (opd h 1 rfl), src_fits (opd h 2 rfl)⟩

theorem ldQ (d : Dst) (a : Src) (b : Src) : Statement (.ldQ d a b) :=
  fun h => ⟨low rfl, dst_fits (opd h 0 rfl), src_fits (opd h 1 rfl), src_fits (opd h 2 rfl)⟩

theorem ldbyW (d : Dst) (a : Src) (b : Src) : Statement (.ldbyW d a b) :=
  fun h => ⟨low rfl, dst_fits (opd h 0 rfl), src_fits (opd h 1 rfl), src_fits (opd h 2 rfl)⟩

theorem ldbyD (d : Dst) (a : Src) (b : Src) : Statement (.ldbyD d a b) :=
  fun h => ⟨low rfl, dst_fits (opd h 0 rfl), src_fits (opd h 1 rfl), src_fits (opd h 2 rfl)⟩

theorem ldbyQ (d : Dst) (a : Src) (b : Src) : Statement (.ldbyQ d a b) :=
  fun h => ⟨low rfl, dst_fits (opd h 0 rfl), src_fits (opd h 1 rfl), src_fits (opd h 2 rfl)⟩

theorem stB (d : Src) (a : Src) (b : Src) : Statement (.stB d a b) :=
  fun h => ⟨low rfl, src_fits (opd h 0 rfl), src_fits (opd h 1 rfl), src_fits (opd h 2 rfl)⟩

theorem stH (d : Src) (a : Src) (b : Src) : Statement (.stH d a b) :=
  fun h => ⟨low rfl, src_fits (opd h 0 rfl), src_fits (opd h 1 rfl), src_fits (opd h 2 rfl)⟩

theorem stW (d : Src) (a : Src) (b : Src) : Statement (.stW d a b) :=
  fun h => ⟨low rfl, src_fits (opd h 0 rfl), src_fits (opd h 1 rfl), src_fits (opd h 2 rfl)⟩

theorem stD (d : Src) (a : Src) (b : Src) : Statement (.stD d a b) :=
  fun h => ⟨low rfl, src_fits (opd h 0 rfl), src_fits (opd h 1 rfl), src_fits (opd h 2 rfl)⟩

theorem stQ (d : Src) (a : Src) (b : Src) : Statement (.stQ d a b) :=
  fun h => ⟨low rfl, src_fits (opd h 0 rfl), src_fits (opd h 1 rfl), src_fits (opd h 2 rfl)⟩

theorem stbyW (d : Src) (a : Src) (b : Src) : Statement (.stbyW d a b) :=
  fun h => ⟨low rfl, src_fits (opd h 0 rfl), src_fits (opd h 1 rfl), src_fits (opd h 2 rfl)⟩

theorem stbyD (d : Src) (a : Src) (b : Src) : Statement (.stbyD d a b) :=
  fun h => ⟨low rfl, src_fits (opd h 0 rfl), src_fits (opd h 1 rfl), src_fits (opd h 2 rfl)⟩

theorem stbyQ (d : Src) (a : Src) (b : Src) : Statement (.stbyQ d a b) :=
  fun h => ⟨low rfl, src_fits (opd h 0 rfl), src_fits (opd h 1 rfl), src_fits (opd h 2 rfl)⟩

theorem ldf (d : Dst) (a : Src) (b : Src) : Statement (.ldf d a b) :=
  fun h => ⟨low rfl, dst_fits (opd h 0 rfl), src_fits (opd h 1 rfl), src_fits (opd h 2 rfl)⟩

theorem stf (d : Src) (a : Src) (b : Src) : Statement (.stf d a b) :=
  fun h => ⟨low rfl, src_fits (opd h 0 rfl), src_fits (opd h 1 rfl), src_fits (opd h 2 rfl)⟩

theorem pref (l : Nat) (a : Src) (b : Src) : Statement (.pref l a b) := by
  intro h
  have q := fields h
  simp [fieldsOk] at q
  refine ⟨low rfl, ?_, src_fits (opd h 0 rfl), src_fits (opd h 1 rfl)⟩
  all_goals (dsimp only [encodeFields]; omega)

theorem invl (a : Src) (b : Src) : Statement (.invl a b) :=
  fun h => ⟨low rfl, small rfl, src_fits (opd h 0 rfl), src_fits (opd h 1 rfl)⟩

theorem invlAll : Statement .invlAll :=
  fun _ => ⟨low rfl, small rfl, small rfl, small rfl⟩

theorem waitp (path : Nat) (a : Src) : Statement (.waitp path a) := by
  intro h
  have q := fields h
  simp [fieldsOk] at q
  refine ⟨low rfl, ?_, src_fits (opd h 0 rfl), small rfl⟩
  all_goals (dsimp only [encodeFields]; omega)

theorem cp (d : Nat) (a : Nat) (b : Nat) (sswz : Nat) (dswz : Nat) (rows : Nat) : Statement (.cp d a b sswz dswz rows) :=
  fun h => ⟨low rfl, sReg_fits (opd h 0 rfl), sReg_fits (opd h 1 rfl), sReg_fits (opd h 2 rfl)⟩

theorem cps (d : Dst) : Statement (.cps d) :=
  fun h => ⟨low rfl, dst_fits (opd h 0 rfl), small rfl, small rfl⟩

theorem cpw (a : Src) : Statement (.cpw a) :=
  fun h => ⟨low rfl, small rfl, src_fits (opd h 0 rfl), small rfl⟩

theorem rqnt (a : Nat) (b : Nat) (sat : Bool) (rnd : Nat) (newf : Nat) : Statement (.rqnt a b sat rnd newf) :=
  fun h => ⟨low rfl, small rfl, sReg_fits (opd h 0 rfl), sReg_fits (opd h 1 rfl)⟩

theorem fence (d : Dst) (s : Nat) : Statement (.fence d s) := by
  intro h
  have q := fields h
  simp [fieldsOk] at q
  refine ⟨low rfl, dst_fits (opd h 0 rfl), small rfl, ?_⟩
  all_goals (dsimp only [encodeFields]; omega)

theorem acq (d : Dst) (s : Nat) : Statement (.acq d s) := by
  intro h
  have q := fields h
  simp [fieldsOk] at q
  refine ⟨low rfl, dst_fits (opd h 0 rfl), small rfl, ?_⟩
  all_goals (dsimp only [encodeFields]; omega)

theorem rel (d : Dst) (s : Nat) : Statement (.rel d s) := by
  intro h
  have q := fields h
  simp [fieldsOk] at q
  refine ⟨low rfl, dst_fits (opd h 0 rfl), small rfl, ?_⟩
  all_goals (dsimp only [encodeFields]; omega)

theorem lda (d : Dst) (a : Src) (dbl : Bool) (off : Option Word) : Statement (.lda d a dbl off) := by
  intro h
  have := Bool.toNat_le dbl
  refine ⟨low rfl, dst_fits (opd h 0 rfl), src_fits (opd h 1 rfl), ?_⟩
  all_goals (dsimp only [encodeFields]; omega)

theorem stl (d : Src) (a : Src) (dbl : Bool) (off : Option Word) : Statement (.stl d a dbl off) := by
  intro h
  have := Bool.toNat_le dbl
  refine ⟨low rfl, src_fits (opd h 0 rfl), src_fits (opd h 1 rfl), ?_⟩
  all_goals (dsimp only [encodeFields]; omega)

theorem amo (d : Dst) (a : Src) (b : Src) (op : Nat) : Statement (.amo d a b op) :=
  fun h => ⟨low rfl, dst_fits (opd h 0 rfl), src_fits (opd h 1 rfl), src_fits (opd h 2 rfl)⟩

theorem cas (d : Dst) (a : Src) (b : Src) : Statement (.cas d a b) :=
  fun h => ⟨low rfl, both_fits (opd h 0 rfl), src_fits (opd h 1 rfl), src_fits (opd h 2 rfl)⟩

theorem red (a : Src) (b : Src) (op : Nat) : Statement (.red a b op) :=
  fun h => ⟨low rfl, small rfl, src_fits (opd h 0 rfl), src_fits (opd h 1 rfl)⟩

theorem cross (d : Dst) : Statement (.cross d) :=
  fun h => ⟨low rfl, dst_fits (opd h 0 rfl), small rfl, small rfl⟩

theorem crossa (d : Dst) : Statement (.crossa d) :=
  fun h => ⟨low rfl, dst_fits (opd h 0 rfl), small rfl, small rfl⟩

theorem crossw (d : Dst) : Statement (.crossw d) :=
  fun h => ⟨low rfl, dst_fits (opd h 0 rfl), small rfl, small rfl⟩

theorem phase (d : Dst) : Statement (.phase d) :=
  fun h => ⟨low rfl, dst_fits (opd h 0 rfl), small rfl, small rfl⟩

theorem cgbind (d : Nat) (a : Src) : Statement (.cgbind d a) :=
  fun h => ⟨low rfl, sDst_fits (opd h 0 rfl), src_fits (opd h 1 rfl), small rfl⟩

theorem collAllreduce (d : Tile) (a : Nat) (r : Nat) : Statement (.collAllreduce d a r) := fun h =>
  have q : decide (r < 3) = true ∧ tileOk d = true := and_parts (fields h)
  ⟨low rfl, tile_fits d a (opd_append h rfl) q.2, quad_fits d a (opd_append h rfl),
    by have := of_decide_eq_true q.1; dsimp only [encodeFields]; omega⟩

theorem collReducescatter (d : Tile) (a : Nat) (r : Nat) : Statement (.collReducescatter d a r) := fun h =>
  have q : decide (r < 3) = true ∧ tileOk d = true := and_parts (fields h)
  ⟨low rfl, tile_fits d a (opd_append h rfl) q.2, quad_fits d a (opd_append h rfl),
    by have := of_decide_eq_true q.1; dsimp only [encodeFields]; omega⟩

theorem collAllgather (d : Tile) (a : Nat) : Statement (.collAllgather d a) := fun h =>
  ⟨low rfl, tile_fits d a (opd_append h rfl) (fields h), quad_fits d a (opd_append h rfl), small rfl⟩

theorem collBroadcast (d : Tile) (a : Nat) : Statement (.collBroadcast d a) := fun h =>
  ⟨low rfl, tile_fits d a (opd_append h rfl) (fields h), quad_fits d a (opd_append h rfl), small rfl⟩

theorem collAlltoall (d : Tile) (a : Nat) : Statement (.collAlltoall d a) := fun h =>
  ⟨low rfl, tile_fits d a (opd_append h rfl) (fields h), quad_fits d a (opd_append h rfl), small rfl⟩

theorem abinit (d : Nat) (a : Src) : Statement (.abinit d a) :=
  fun h => ⟨low rfl, sReg_fits (opd h 0 rfl), src_fits (opd h 1 rfl), small rfl⟩

theorem abarv (d : Dst) (a : Src) : Statement (.abarv d a) :=
  fun h => ⟨low rfl, dst_fits (opd h 0 rfl), src_fits (opd h 1 rfl), small rfl⟩

theorem abwait (d : Src) (a : Src) : Statement (.abwait d a) :=
  fun h => ⟨low rfl, src_fits (opd h 0 rfl), src_fits (opd h 1 rfl), small rfl⟩

theorem gset (d : Dst) (a : Src) : Statement (.gset d a) :=
  fun h => ⟨low rfl, dst_fits (opd h 0 rfl), src_fits (opd h 1 rfl), small rfl⟩

theorem gwid (d : Dst) (a : Src) : Statement (.gwid d a) :=
  fun h => ⟨low rfl, dst_fits (opd h 0 rfl), src_fits (opd h 1 rfl), small rfl⟩

theorem gview (d : Dst) : Statement (.gview d) :=
  fun h => ⟨low rfl, dst_fits (opd h 0 rfl), small rfl, small rfl⟩

theorem grank (d : Dst) (a : Src) : Statement (.grank d a) :=
  fun h => ⟨low rfl, dst_fits (opd h 0 rfl), src_fits (opd h 1 rfl), small rfl⟩

theorem rgrow (a : Src) : Statement (.rgrow a) :=
  fun h => ⟨low rfl, small rfl, src_fits (opd h 0 rfl), small rfl⟩

theorem rshrink (a : Src) : Statement (.rshrink a) :=
  fun h => ⟨low rfl, small rfl, src_fits (opd h 0 rfl), small rfl⟩

theorem aopen (a : Src) : Statement (.aopen a) :=
  fun h => ⟨low rfl, small rfl, src_fits (opd h 0 rfl), small rfl⟩

theorem apop (d : Dst) (a : Src) : Statement (.apop d a) :=
  fun h => ⟨low rfl, dst_fits (opd h 0 rfl), src_fits (opd h 1 rfl), small rfl⟩

theorem atry (d : Dst) (a : Src) : Statement (.atry d a) :=
  fun h => ⟨low rfl, dst_fits (opd h 0 rfl), src_fits (opd h 1 rfl), small rfl⟩

theorem apush (a : Src) (b : Src) : Statement (.apush a b) :=
  fun h => ⟨low rfl, small rfl, src_fits (opd h 0 rfl), src_fits (opd h 1 rfl)⟩

theorem sigdec (err : Bool) (a : Nat) (b : Src) : Statement (.sigdec err a b) := by
  intro h
  have := Bool.toNat_le err
  refine ⟨low rfl, ?_, sReg_fits (opd h 0 rfl), src_fits (opd h 1 rfl)⟩
  all_goals (dsimp only [encodeFields]; omega)

theorem sigwait (d : Dst) (a : Nat) (b : Src) : Statement (.sigwait d a b) :=
  fun h => ⟨low rfl, dst_fits (opd h 0 rfl), sReg_fits (opd h 1 rfl), src_fits (opd h 2 rfl)⟩

theorem mma (n : Nat) (a : Nat) (b : Nat) (mr : Nat) (nc : Nat) (kb : Nat) (pa : Bool) (pb : Bool) : Statement (.mma n a b mr nc kb pa pb) := by
  intro h
  have q := fields h
  simp [fieldsOk] at q
  refine ⟨low rfl, ?_, sReg_fits (opd h 0 rfl), sReg_fits (opd h 1 rfl)⟩
  all_goals (dsimp only [encodeFields]; omega)

theorem mmas (n : Nat) (d : Nat) (a : Nat) (b : Nat) (mr : Nat) (nc : Nat) (kb : Nat) (isel : Nat) (pa : Bool) (pb : Bool) : Statement (.mmas n d a b mr nc kb isel pa pb) :=
  fun h => ⟨low rfl, vReg_fits (opd h 0 rfl), sReg_fits (opd h 1 rfl), sReg_fits (opd h 2 rfl)⟩

theorem mmac (n : Nat) (a : Nat) (b : Nat) (mr : Nat) (nc : Nat) (kb : Nat) (pb : Bool) : Statement (.mmac n a b mr nc kb pb) := by
  intro h
  have q := fields h
  simp [fieldsOk] at q
  refine ⟨low rfl, ?_, sReg_fits (opd h 0 rfl), sReg_fits (opd h 1 rfl)⟩
  all_goals (dsimp only [encodeFields]; omega)

theorem macld (n : Nat) (a : Nat) (b : Src) : Statement (.macld n a b) := by
  intro h
  have q := fields h
  simp [fieldsOk] at q
  refine ⟨low rfl, ?_, sReg_fits (opd h 0 rfl), src_fits (opd h 1 rfl)⟩
  all_goals (dsimp only [encodeFields]; omega)

theorem macst (n : Nat) (a : Nat) (b : Src) : Statement (.macst n a b) := by
  intro h
  have q := fields h
  simp [fieldsOk] at q
  refine ⟨low rfl, ?_, sReg_fits (opd h 0 rfl), src_fits (opd h 1 rfl)⟩
  all_goals (dsimp only [encodeFields]; omega)

theorem macrd (d : Nat) (a : Src) (n : Nat) : Statement (.macrd d a n) := by
  intro h
  have q := fields h
  simp [fieldsOk] at q
  refine ⟨low rfl, vDst_fits (opd h 0 rfl), src_fits (opd h 1 rfl), ?_⟩
  all_goals (dsimp only [encodeFields]; omega)

theorem macwr (d : Nat) (a : Src) (n : Nat) : Statement (.macwr d a n) := by
  intro h
  have q := fields h
  simp [fieldsOk] at q
  refine ⟨low rfl, vReg_fits (opd h 0 rfl), src_fits (opd h 1 rfl), ?_⟩
  all_goals (dsimp only [encodeFields]; omega)

theorem mepi (n : Nat) (a : Nat) (b : Nat) (mr : Nat) (nc : Nat) (tgt : Nat) (rnd : Nat) (sat : Bool) (fam : Nat) (bfmt : Nat) : Statement (.mepi n a b mr nc tgt rnd sat fam bfmt) := by
  intro h
  have q := fields h
  simp [fieldsOk] at q
  refine ⟨low rfl, ?_, sReg_fits (opd h 0 rfl), sReg_fits (opd h 1 rfl)⟩
  all_goals (dsimp only [encodeFields]; omega)

theorem macz (n : Nat) : Statement (.macz n) := by
  intro h
  have q := fields h
  simp [fieldsOk] at q
  refine ⟨low rfl, small rfl, small rfl, ?_⟩
  all_goals (dsimp only [encodeFields]; omega)

theorem mprog (d : Dst) (n : Nat) : Statement (.mprog d n) := by
  intro h
  have q := fields h
  simp [fieldsOk] at q
  refine ⟨low rfl, dst_fits (opd h 0 rfl), small rfl, ?_⟩
  all_goals (dsimp only [encodeFields]; omega)

theorem ackpt (d : Src) (a : Src) (n : Nat) : Statement (.ackpt d a n) := by
  intro h
  have q := fields h
  simp [fieldsOk] at q
  refine ⟨low rfl, src_fits (opd h 0 rfl), src_fits (opd h 1 rfl), ?_⟩
  all_goals (dsimp only [encodeFields]; omega)

theorem acrst (d : Src) (a : Src) (n : Nat) : Statement (.acrst d a n) := by
  intro h
  have q := fields h
  simp [fieldsOk] at q
  refine ⟨low rfl, src_fits (opd h 0 rfl), src_fits (opd h 1 rfl), ?_⟩
  all_goals (dsimp only [encodeFields]; omega)

theorem attn (n : Nat) (a : Nat) (b : Nat) (q : Nat) (dim : Nat) (chunks : Nat) (lc : Nat) (kw : Nat) (vw : Nat) (fold : Bool) (causal : Bool) : Statement (.attn n a b q dim chunks lc kw vw fold causal) := by
  intro h
  have q := fields h
  simp [fieldsOk] at q
  refine ⟨low rfl, ?_, sReg_fits (opd h 0 rfl), sReg_fits (opd h 1 rfl)⟩
  all_goals (dsimp only [encodeFields]; omega)

theorem attc (init : Bool) (fin : Bool) (n : Nat) (a : Nat) : Statement (.attc init fin n a) := by
  intro h
  have q := fields h
  have := Bool.toNat_le init
  have := Bool.toNat_le fin
  simp [fieldsOk] at q
  refine ⟨low rfl, ?_, sReg_fits (opd h 0 rfl), small rfl⟩
  all_goals (dsimp only [encodeFields]; omega)

theorem kvap (d : Dst) (a : Nat) (b : Nat) : Statement (.kvap d a b) :=
  fun h => ⟨low rfl, dst_fits (opd h 0 rfl), sReg_fits (opd h 1 rfl), sReg_fits (opd h 2 rfl)⟩

theorem kvtr (d : Dst) (a : Nat) (b : Nat) : Statement (.kvtr d a b) :=
  fun h => ⟨low rfl, dst_fits (opd h 0 rfl), sReg_fits (opd h 1 rfl), sReg_fits (opd h 2 rfl)⟩

theorem kvrd (d : Dst) (a : Nat) (b : Src) : Statement (.kvrd d a b) :=
  fun h => ⟨low rfl, dst_fits (opd h 0 rfl), sReg_fits (opd h 1 rfl), src_fits (opd h 2 rfl)⟩

theorem cntrd (d : Dst) (k : Nat) : Statement (.cntrd d k) := by
  intro h
  have q := fields h
  simp [fieldsOk] at q
  refine ⟨low rfl, dst_fits (opd h 0 rfl), small rfl, ?_⟩
  all_goals (dsimp only [encodeFields]; omega)

theorem cntcfg (d : Dst) (a : Src) (k : Nat) : Statement (.cntcfg d a k) := by
  intro h
  have q := fields h
  simp [fieldsOk] at q
  refine ⟨low rfl, dst_fits (opd h 0 rfl), src_fits (opd h 1 rfl), ?_⟩
  all_goals (dsimp only [encodeFields]; omega)

theorem cntsv (a : Nat) : Statement (.cntsv a) :=
  fun h => ⟨low rfl, small rfl, sReg_fits (opd h 0 rfl), small rfl⟩

theorem cntld (a : Nat) : Statement (.cntld a) :=
  fun h => ⟨low rfl, small rfl, sReg_fits (opd h 0 rfl), small rfl⟩

theorem wswitch : Statement .wswitch :=
  fun _ => ⟨low rfl, small rfl, small rfl, small rfl⟩

theorem bcinit (d : Dst) (a : Nat) (b : Src) : Statement (.bcinit d a b) :=
  fun h => ⟨low rfl, dst_fits (opd h 0 rfl), sReg_fits (opd h 1 rfl), src_fits (opd h 2 rfl)⟩

theorem bctake (d : Dst) (a : Nat) (b : Src) : Statement (.bctake d a b) :=
  fun h => ⟨low rfl, dst_fits (opd h 0 rfl), sReg_fits (opd h 1 rfl), src_fits (opd h 2 rfl)⟩

theorem bcgive (d : Dst) (a : Nat) (b : Src) : Statement (.bcgive d a b) :=
  fun h => ⟨low rfl, dst_fits (opd h 0 rfl), sReg_fits (opd h 1 rfl), src_fits (opd h 2 rfl)⟩

theorem bcread (d : Dst) (a : Nat) : Statement (.bcread d a) :=
  fun h => ⟨low rfl, dst_fits (opd h 0 rfl), sReg_fits (opd h 1 rfl), small rfl⟩

theorem bcstat (d : Dst) (a : Nat) : Statement (.bcstat d a) :=
  fun h => ⟨low rfl, dst_fits (opd h 0 rfl), sReg_fits (opd h 1 rfl), small rfl⟩

theorem sysrd (d : Dst) (n : Nat) : Statement (.sysrd d n) := by
  intro h
  have q := fields h
  simp [fieldsOk, sysRegAssigned] at q
  refine ⟨low rfl, dst_fits (opd h 0 rfl), small rfl, ?_⟩
  all_goals (dsimp only [encodeFields]; omega)

theorem syswr (n : Nat) (a : Src) : Statement (.syswr n a) := by
  intro h
  have q := fields h
  simp [fieldsOk, sysRegAssigned] at q
  refine ⟨low rfl, ?_, wide_fits (c := sysReg64 n) (opd h 0 rfl), small rfl⟩
  all_goals (dsimp only [encodeFields]; omega)

theorem syXreqWrite (a : Src) : Statement (.syXreqWrite a) :=
  fun h => ⟨low rfl, small rfl, src_fits (opd h 0 rfl), small rfl⟩

theorem shoot (a : Nat) (b : Src) : Statement (.shoot a b) :=
  fun h => ⟨low rfl, small rfl, sReg_fits (opd h 0 rfl), src_fits (opd h 1 rfl)⟩

theorem part (d : Dst) (a : Src) (b : Src) : Statement (.part d a b) :=
  fun h => ⟨low rfl, dst_fits (opd h 0 rfl), src_fits (opd h 1 rfl), src_fits (opd h 2 rfl)⟩

theorem loadReturn (ter : Nat) (id : Nat) (m : Lanes) : Statement (.loadReturn ter id m) := noWord rfl

theorem storeAcknowledgement (ter : Nat) (id : Nat) (m : Lanes) : Statement (.storeAcknowledgement ter id m) := noWord rfl

theorem overflowInterrupt (core : Nat) : Statement (.overflowInterrupt core) := noWord rfl

theorem quantumExpiry (core : Nat) : Statement (.quantumExpiry core) := noWord rfl

theorem worldSwitch (core : Nat) : Statement (.worldSwitch core) := noWord rfl

theorem sleepEnd (ter : Nat) (lane : Nat) : Statement (.sleepEnd ter lane) := noWord rfl

theorem detectorWindowEnd (core : Nat) (pidx : Nat) : Statement (.detectorWindowEnd core pidx) := noWord rfl

theorem crossingCompletion (dom : DomKey) : Statement (.crossingCompletion dom) := noWord rfl

theorem copyEngineCommand (cmd : Nat) (rows : Nat) : Statement (.copyEngineCommand cmd rows) := noWord rfl

theorem engineAlleyPush (cmd : Nat) : Statement (.engineAlleyPush cmd) := noWord rfl

theorem requantisation (cmd : Nat) : Statement (.requantisation cmd) := noWord rfl

theorem blockStep (core : Nat) (slot : Nat) : Statement (.blockStep core slot) := noWord rfl

theorem jobCard (ter : Nat) (card : Nat) : Statement (.jobCard ter card) := noWord rfl

theorem watchdogExpiry (ter : Nat) (card : Nat) : Statement (.watchdogExpiry ter card) := noWord rfl

theorem collectiveRoundCompletion (handle : Nat) (round : Nat) (die : Nat) : Statement (.collectiveRoundCompletion handle round die) := noWord rfl

theorem taskStart (launch : Nat) (leaf : Nat) : Statement (.taskStart launch leaf) := noWord rfl

theorem launchCompletion (launch : Nat) : Statement (.launchCompletion launch) := noWord rfl

theorem rebalance (ctr : Nat) : Statement (.rebalance ctr) := noWord rfl

theorem nearLineEviction (core : Nat) (pidx : Nat) (line : Nat) : Statement (.nearLineEviction core pidx line) := noWord rfl

theorem serviceTerraceStart (vf : Nat) (die : Nat) : Statement (.serviceTerraceStart vf die) := noWord rfl

theorem linkRetraining (die : Nat) (port : Nat) : Statement (.linkRetraining die port) := noWord rfl

theorem linkDeclaredDown (die : Nat) (port : Nat) : Statement (.linkDeclaredDown die port) := noWord rfl

theorem fabricRequest (die : Nat) (f : FabFlit) : Statement (.fabricRequest die f) := noWord rfl

theorem fabricResponse (die : Nat) (f : FabFlit) : Statement (.fabricResponse die f) := noWord rfl

theorem collectivePacket (die : Nat) (f : FabFlit) : Statement (.collectivePacket die f) := noWord rfl

theorem fabricManagementFlit (die : Nat) (f : FabFlit) (fromMgmt : Bool) : Statement (.fabricManagementFlit die f fromMgmt) := noWord rfl

theorem stagger (die : Nat) (f : FabFlit) (fromMgmt : Bool) : Statement (.stagger die f fromMgmt) := noWord rfl

theorem staggerHoldEnd (die : Nat) : Statement (.staggerHoldEnd die) := noWord rfl

theorem egressSpillDrain (die : Nat) : Statement (.egressSpillDrain die) := noWord rfl

theorem powerSample (die : Nat) (demand : Nat) : Statement (.powerSample die demand) := noWord rfl

theorem supplyLoss : Statement .supplyLoss := noWord rfl

theorem hostRead (die : Nat) (flit : List Byte) : Statement (.hostRead die flit) := noWord rfl

theorem hostWrite (die : Nat) (flit : List Byte) : Statement (.hostWrite die flit) := noWord rfl

theorem hostAtomic (die : Nat) (flit : List Byte) : Statement (.hostAtomic die flit) := noWord rfl

theorem hostReadCompletion (die : Nat) (flit : List Byte) : Statement (.hostReadCompletion die flit) := noWord rfl

theorem hostErrorResponse (die : Nat) (flit : List Byte) : Statement (.hostErrorResponse die flit) := noWord rfl

theorem hostInterrupt (die : Nat) (flit : List Byte) : Statement (.hostInterrupt die flit) := noWord rfl

theorem doorbell (die : Nat) (flit : List Byte) : Statement (.doorbell die flit) := noWord rfl

theorem launchQueueEntry (vf : Nat) : Statement (.launchQueueEntry vf) := noWord rfl

theorem mgmtPart (a : Word) (b : Word) : Statement (.mgmtPart a b) := noWord rfl

theorem quant (core : Nat) (pidx : Nat) (q : Nat) : Statement (.quant core pidx q) := noWord rfl

theorem frames (die : Nat) (frame : Nat) (colour : Nat) : Statement (.frames die frame colour) := noWord rfl

theorem wdog (us : Nat) : Statement (.wdog us) := noWord rfl

theorem link (die : Nat) (port : Nat) (up : Bool) : Statement (.link die port up) := noWord rfl

theorem abort (vf : Nat) (launch : Option Nat) : Statement (.abort vf launch) := noWord rfl

theorem stop (launch : Nat) (how : Nat) : Statement (.stop launch how) := noWord rfl

theorem lost (die : Nat) (frame : Nat) : Statement (.lost die frame) := noWord rfl

theorem queue (vf : Nat) (addr : Nat) : Statement (.queue vf addr) := noWord rfl

theorem power (die : Nat) (w : Word) : Statement (.power die w) := noWord rfl

theorem logs (die : Nat) : Statement (.logs die) := noWord rfl

theorem freeze : Statement .freeze := noWord rfl

theorem quote (die : Nat) (nonce : List Byte) : Statement (.quote die nonce) := noWord rfl

theorem sysreg (vf : Nat) (reg : Nat) (value : DWord) : Statement (.sysreg vf reg value) := noWord rfl

theorem freezePin : Statement .freezePin := noWord rfl

theorem reset : Statement .reset := noWord rfl

theorem bootImage (die : Nat) (image : List Byte) : Statement (.bootImage die image) := noWord rfl

theorem coreCycle (core : Nat) : Statement (.coreCycle core) := noWord rfl

theorem rowBoundary (core : Nat) (slot : Nat) : Statement (.rowBoundary core slot) := noWord rfl

theorem linkRetrained (die : Nat) (port : Nat) : Statement (.linkRetrained die port) := noWord rfl

theorem freezeReadout (die : Nat) : Statement (.freezeReadout die) := noWord rfl

theorem instructionFetch (ter : Nat) (lane : Nat) : Statement (.instructionFetch ter lane) := noWord rfl

end Sys2Proof.Laws.FieldsFit
end

