-- ==== Sys2Proof/Tests/Slice0.lean ====
section
/-! SUPPORT. Tests: ill-formed instructions are refused, words written from the encoding tables decode, single steps on small
states give what the spec's rules and worked examples say, and for every statement with hypotheses a state that meets them
(the `wit` theorems). -/

open Sys2Proof.Machine

namespace Sys2Proof.Tests

set_option Elab.async false

/-! ## Benches -/

/-- An instruction at its issue whose context has a property. -/
def meets (s : State) (i : Instr) (P : Ctx → Prop) [DecidablePred P] : Bool :=
  match s.issuer i with
  | some c => issueFormOk i c.ty && operandsOk c.t c.sp i && (s.part? c.t.core c.t.vf).isSome && s.flaws.isEmpty
      && s.wbuf.isEmpty && decide (P c)
  | none => false

theorem of_meets {s : State} {i : Instr} {P : Ctx → Prop} [DecidablePred P] (h : meets s i P = true) :
    ∃ c, s.Issues i c ∧ P c := by
  unfold meets at h
  split at h
  · rename_i c hc
    simp only [Bool.and_eq_true, decide_eq_true_eq, List.isEmpty_iff] at h
    obtain ⟨⟨⟨⟨⟨h1, h2⟩, h3⟩, h4⟩, h5⟩, h6⟩ := h
    exact ⟨c, ⟨hc, h1, h2, h3, h4, h5⟩, h6⟩
  · cases h

theorem all_meets {s : State} {is : List Instr} (h : (is.all fun i => meets s i fun _ => True) = true) :
    ∀ i ∈ is, ∃ c, s.Issues i c := fun i hi =>
  let ⟨c, hc, _⟩ := of_meets (List.all_eq_true.mp h i hi)
  ⟨c, hc⟩

/-- An instruction whose issuing context has a property, its checks aside. -/
def reaches (s : State) (i : Instr) (P : Ctx → Prop) [DecidablePred P] : Bool :=
  match s.issuer i with
  | some c => decide (P c)
  | none => false

theorem of_reaches {s : State} {i : Instr} {P : Ctx → Prop} [DecidablePred P] (h : reaches s i P = true) :
    ∃ c, s.issuer i = some c ∧ P c := by
  unfold reaches at h
  split at h
  · exact ⟨_, ‹_›, of_decide_eq_true h⟩
  · cases h

/-- A terrace about to issue, in a team with 64 KiB of scratchpad and room to grow. -/
def bench : State :=
  { State.reset.withFetchWord 64 0 with teams := [⟨0, 0, 0, 0, 0, 0x10000, 8, 64, [], true, 0⟩] }

/-- Its split, changed. -/
def withSplit (f : Split → Split) (s : State) : State := s.updSplit 1 2 f

/-- Its terrace, changed. -/
def withTer (f : Terrace → Terrace) (s : State) : State := s.updTer 1 f

/-- The bench in a mode. -/
def benchIn (w : BitVec 16) : State := withSplit (fun x => { x with mode := w }) bench

/-- With a value in an s register, in an s pair, and lane by lane in a v register. -/
def withS (n v : Nat) (s : State) : State := withTer (fun t => t.sput n (BitVec.ofNat 32 v)) s
def withPair (n v : Nat) (s : State) : State := withTer (fun t => t.writeDst (.s n) true 1#32 fun _ => words2 v) s
def withV (n : Nat) (f : Nat → Nat) (s : State) : State :=
  withTer (fun t => t.writeDst (.v n) false 0xFFFFFFFF#32 fun l => [BitVec.ofNat 32 (f l)]) s

/-- With bytes written. -/
def withMem (x n v : Nat) (s : State) : State := commit s (s.wrNat x n v)

/-- With guard p0, whose lanes are given: those lanes are active. -/
def withGuard (lanes : Lanes) (s : State) : State :=
  withTer (fun t => { t with p := kset 0 t.p 0 lanes }) (withSplit (fun x => { x with mode := x.mode ||| 0x10#16 }) s)

/-- With a handler of its tenant. -/
def withTvec (s : State) : State := s.setTenant 0 { s.tenant 0 with tvec := 0x2000#64 }

/-- A trap frame of all lanes. -/
def frame : Frame := ⟨7, 0x100000100#64, 0xFFFFFFFF#32, 0xFFFFFFFF#32, 0x20#16, 1, 2, 0x11#32, 0, 4, [], none, none⟩

/-- In a trap handler. -/
def inHandler (s : State) : State := withSplit (fun x => { x with frame := some frame }) s

/-- With a page: virtual addresses from 2^32 on stand at physical address 0x40000000 of die 0, by a leaf with these bits. -/
def pagedAs (bits : Nat) (s : State) : State :=
  withMem 0x11020 8 (2 ^ 56 + 0x80000000 + bits) (withMem 0x10000 8 0x11131
    { s.setTenant 0 { s.tenant 0 with ptroot := 0x10000#64 } with
      colours := [(1, 1)]
      dies := [(0, { Die.init with frames := [(1, 1), (0x4000, 1)] })] })

/-- With a page of class UNTRACKED that user code may read and write. -/
def paged (s : State) : State := pagedAs 0xD s

/-- What an instruction does where it answers a next state. -/
def run (i : Instr) (s : State) : State := match exec i s with | .next t => t | _ => s

/-- The bench's terrace after it. -/
def terOf (s : State) : Terrace := (s.ter? 1).getD (freshTerrace 0 (freshSplit 0 0))

/-- The bench's split after it. -/
def splitOf (s : State) : Split := ((terOf s).split? 2).getD (freshSplit 0 0)

/-! ## Ill-formed instructions -/

/-- Each check of R58 that the word decides refuses an instruction: an event is no word, register numbers and their
    alignment (R30, R31), the kind of a field (R32, R189), one extension word at most, modifiers (R43, R44), and the fields'
    own limits (R57). -/
theorem test_ill_formed : ∀ i ∈ ([
    .reset, .add (.v 224) (.v 0) (.v 0) none, .add (.s 16) (.v 0) (.v 0) none, .movh (.v 1) 0, .ldQ (.v 2) (.s 0) .zero,
    .bcast (.v 0) (.v 1) (.v 2) none, .ldW (.v 0) .laneid .zero, .sel (.v 0) (.imm 1) (.v 2) false 0,
    .add (.v 0) (.imm 1) (.imm 2) none, .add (.v 0) (.latch 0) (.v 1) none, .add (.v 0) (.latch 8) (.v 1) none] : List Instr),
    WellFormed i = false := by decide +kernel

theorem test_ill_formed_fields : ∀ i ∈ ([
    .and (.v 0) (.v 1) (.v 2) (some ⟨true, false, false, false, false, false, 0⟩),
    .add (.v 0) (.imm 1) (.v 2) (some ⟨false, false, true, false, false, false, 0⟩),
    .cmp 6 0 (.v 0) (.v 1) none, .pset 8 (.v 0) false, .cvt (.v 0) (.v 2) 14 none, .qpack (.v 0) (.v 1) 4 none,
    .bra 2, .pref 3 (.s 0) .zero, .waitp 5 (.s 0), .cp 0 4 8 0 0 0, .cp 0 4 8 0 0 4097, .fence .none 8,
    .amo (.v 0) (.s 0) (.v 1) 7, .red (.s 0) (.v 1) 6, .mma 4 0 4 1 1 1 false false, .mma 0 0 4 129 1 1 false false,
    .mma 0 2 4 1 1 1 false false, .attn 1 0 4 1 1 1 0 0 0 false false, .cntrd (.v 0) 8, .sysrd (.s 0) 3,
    .syswr 0x12 (.s 0), .collAllgather (.acc 4) 0] : List Instr), WellFormed i = false := by decide +kernel

/-! ## Words of the encoding tables -/

/-- Words and extension words: the worked examples of the spec, else the fields of R26 put together by hand. -/
theorem test_decode_1 : ∀ x ∈ ([
    (0x810101ff, 0x80, .add (.v 1) (.v 1) (.imm 0x00000080) none),
    (0x02080405, 0x0, .addc (.v 8) (.v 4) (.v 5) none), (0x03080405, 0x0, .sub (.v 8) (.v 4) (.v 5) none),
    (0x04080405, 0x0, .subb (.v 8) (.v 4) (.v 5) none), (0x05ff0506, 0x0, .mullo .none (.v 5) (.v 6) none),
    (0x06080405, 0x0, .mulhi (.v 8) (.v 4) (.v 5) none),
    (0x87030102, 0x8, .mad (.v 3) (.v 1) (.v 2) (some { sat := false, clamp := false, nega := false, negb := true, absa := false, absb := false, scale := 0x00#6 })),
    (0x08080405, 0x0, .div (.v 8) (.v 4) (.v 5) none), (0x09080405, 0x0, .rem (.v 8) (.v 4) (.v 5) none),
    (0x0a080405, 0x0, .min (.v 8) (.v 4) (.v 5) none), (0x0b080405, 0x0, .max (.v 8) (.v 4) (.v 5) none),
    (0x0c080405, 0x0, .and (.v 8) (.v 4) (.v 5) none), (0x0d080405, 0x0, .or (.v 8) (.v 4) (.v 5) none),
    (0x0e080405, 0x0, .xor (.v 8) (.v 4) (.v 5) none), (0x0f080405, 0x0, .andn (.v 8) (.v 4) (.v 5) none),
    (0x9001efff, 0x3, .shl (.v 1) (.s 15) (.imm 0x00000003) none),
    (0x11080405, 0x0, .shr (.v 8) (.v 4) (.v 5) none), (0x12080405, 0x0, .sar (.v 8) (.v 4) (.v 5) none),
    (0x13080405, 0x0, .rol (.v 8) (.v 4) (.v 5) none), (0x14080405, 0x0, .bfx (.v 8) (.v 4) (.v 5) none),
    (0x15080405, 0x0, .bfi (.v 8) (.v 4) (.v 5) none), (0x96040506, 0x2, .sel (.v 4) (.v 5) (.v 6) false 2),
    (0x1708f1f0, 0x0, .cmp 1 0 (.latch 1) .zero none),
    (0x98e2e0ff, 0x8, .lea (.s 2) (.s 0) (.imm 0x00000008) none), (0x19080400, 0x0, .abs (.v 8) (.v 4) none),
    (0x19080401, 0x0, .neg (.v 8) (.v 4) none), (0x19080402, 0x0, .not (.v 8) (.v 4) none),
    (0x19080403, 0x0, .popc (.v 8) (.v 4) none), (0x19080404, 0x0, .clz (.v 8) (.v 4) none),
    (0x19080405, 0x0, .brev (.v 8) (.v 4) none), (0x190af006, 0x0, .mov (.v 10) .zero none),
    (0x9a080000, 0x12345678, .movi (.v 8) 0x12345678#32), (0x9b080000, 0x12345678, .movh (.v 8) 0x12345678#32),
    (0x9c03ff01, 0xf0, .pset 3 (.imm 0x000000f0) true), (0x20080405, 0x0, .fadd (.v 8) (.v 4) (.v 5) none),
    (0x21080405, 0x0, .fsub (.v 8) (.v 4) (.v 5) none)] : List (Nat × Nat × Instr)),
    decodeTableWord 64 (x.1 + x.2.1 * 2 ^ 32) = some x.2.2 := by decide +kernel

/-- Words and extension words: the worked examples of the spec, else the fields of R26 put together by hand. -/
theorem test_decode_2 : ∀ x ∈ ([
    (0x22ff0506, 0x0, .fmul .none (.v 5) (.v 6) none),
    (0xa30a0506, 0xf44, .fma (.v 10) (.v 5) (.v 6) (some { sat := false, clamp := false, nega := true, negb := false, absa := false, absb := false, scale := 0x3d#6 })),
    (0x24080405, 0x0, .fmin (.v 8) (.v 4) (.v 5) none), (0x25080405, 0x0, .fmax (.v 8) (.v 4) (.v 5) none),
    (0x26090405, 0x0, .fcmp 1 1 (.v 4) (.v 5) none), (0x27080405, 0x0, .fdiv (.v 8) (.v 4) (.v 5) none),
    (0x28080400, 0x0, .frcp (.v 8) (.v 4) none), (0x28080401, 0x0, .frsq (.v 8) (.v 4) none),
    (0x28080402, 0x0, .fsqrt (.v 8) (.v 4) none), (0x28080403, 0x0, .fexp2 (.v 8) (.v 4) none),
    (0x28080404, 0x0, .flog2 (.v 8) (.v 4) none), (0x28080405, 0x0, .fsin (.v 8) (.v 4) none),
    (0x28080406, 0x0, .fcos (.v 8) (.v 4) none), (0x28080407, 0x0, .ftanh (.v 8) (.v 4) none),
    (0x28080408, 0x0, .frint (.v 8) (.v 4) none), (0x28080409, 0x0, .fclass (.v 8) (.v 4) none),
    (0x2904020a, 0x0, .cvt (.v 4) (.v 2) 10 none), (0x2a080210, 0x0, .qpack (.v 8) (.v 2) 16 none),
    (0x2b090810, 0x0, .qunpk (.v 9) (.v 8) 16 none), (0x2c080409, 0x0, .srnd (.v 8) (.v 4) 9 none),
    (0x2d140000, 0x0, .rng (.v 20)), (0x2d100001, 0x0, .rngst (.v 16)), (0x2d001002, 0x0, .rngld (.v 16)),
    (0x30080405, 0x0, .shflIdx (.v 8) (.v 4) (.v 5) none), (0x31080405, 0x0, .shflUp (.v 8) (.v 4) (.v 5) none),
    (0x32080405, 0x0, .shflDown (.v 8) (.v 4) (.v 5) none),
    (0xb30302ff, 0x1, .shflXor (.v 3) (.v 2) (.imm 0x00000001) none),
    (0x340804e4, 0x0, .bcast (.v 8) (.v 4) (.s 4) none), (0x35080400, 0x0, .voteAny (.v 8) (.v 4)),
    (0x35080401, 0x0, .voteAll (.v 8) (.v 4)), (0x35030202, 0x0, .voteBallot (.v 3) (.v 2)),
    (0x35080403, 0x0, .voteUni (.v 8) (.v 4)), (0x36070600, 0x0, .lred (.v 7) (.v 6) 0),
    (0x37080401, 0x0, .lscan (.v 8) (.v 4) false 1), (0xb8000000, 0x20, .bra 0x20#32),
    (0xb9000000, 0xffffffd8, .brp 0 false 0xffffffd8)] : List (Nat × Nat × Instr)),
    decodeTableWord 64 (x.1 + x.2.1 * 2 ^ 32) = some x.2.2 := by decide +kernel

/-- Words and extension words: the worked examples of the spec, else the fields of R26 put together by hand. -/
theorem test_decode_3 : ∀ x ∈ ([
    (0xbaee0000, 0x40, .call (.s 14) 0x00000040), (0x3b001400, 0x0, .jmpr (.v 20)),
    (0x3c000000, 0x0, .mode 0x0000#16), (0x3d000000, 0x0, .nop), (0x3d010000, 0x0, .nopMerge),
    (0x3d000401, 0x0, .ret (.v 4)), (0x3d000002, 0x0, .exit), (0x3d000003, 0x0, .yield),
    (0x3d00e404, 0x0, .sleep (.s 4)), (0x3d000005, 0x0, .leave), (0x3d000006, 0x0, .qbar),
    (0x3d010007, 0x0, .trap 1), (0x3d000008, 0x0, .tret), (0x3d080009, 0x0, .elog (.v 8)),
    (0x3e00e4e4, 0x0, .join (.s 4) (.s 4)), (0x3f08e000, 0x0, .launch (.v 8) (.s 0)),
    (0x4008e005, 0x0, .ldB (.v 8) (.s 0) (.v 5)), (0x4108e005, 0x0, .ldH (.v 8) (.s 0) (.v 5)),
    (0x4205e001, 0x0, .ldW (.v 5) (.s 0) (.v 1)), (0x4308e005, 0x0, .ldD (.v 8) (.s 0) (.v 5)),
    (0x4408e005, 0x0, .ldQ (.v 8) (.s 0) (.v 5)), (0x4508e005, 0x0, .ldbyW (.v 8) (.s 0) (.v 5)),
    (0x4608e005, 0x0, .ldbyD (.v 8) (.s 0) (.v 5)), (0x4714e0f0, 0x0, .ldbyQ (.v 20) (.s 0) .zero),
    (0x4804e005, 0x0, .stB (.v 4) (.s 0) (.v 5)), (0x4904e005, 0x0, .stH (.v 4) (.s 0) (.v 5)),
    (0xca0904ff, 0x80000, .stW (.v 9) (.v 4) (.imm 0x00080000)), (0x4b04e005, 0x0, .stD (.v 4) (.s 0) (.v 5)),
    (0x4c04e005, 0x0, .stQ (.v 4) (.s 0) (.v 5)), (0x4d04e005, 0x0, .stbyW (.v 4) (.s 0) (.v 5)),
    (0x4e04e005, 0x0, .stbyD (.v 4) (.s 0) (.v 5)), (0x4f04e005, 0x0, .stbyQ (.v 4) (.s 0) (.v 5)),
    (0x5010e0f0, 0x0, .ldf (.v 16) (.s 0) .zero), (0x5110e0e6, 0x0, .stf (.v 16) (.s 0) (.s 6)),
    (0x5201e001, 0x0, .pref 1 (.s 0) (.v 1)), (0x5300e005, 0x0, .invl (.s 0) (.v 5))] : List (Nat × Nat × Instr)),
    decodeTableWord 64 (x.1 + x.2.1 * 2 ^ 32) = some x.2.2 := by decide +kernel

/-- Words and extension words: the worked examples of the spec, else the fields of R26 put together by hand. -/
theorem test_decode_4 : ∀ x ∈ ([
    (0x53010000, 0x0, .invlAll), (0x5400ea00, 0x0, .waitp 0 (.s 10)), (0xd5e8e4ec, 0x30030000, .cp 8 4 12 0 3 4),
    (0x56e30000, 0x0, .cps (.s 3)), (0x5600e301, 0x0, .cpw (.s 3)), (0xd700e2e6, 0x10, .rqnt 2 6 false 0 16),
    (0x58ff0003, 0x0, .fence .none 3), (0x58ff000b, 0x0, .acq .none 3), (0x58ff0013, 0x0, .rel .none 3),
    (0x5905e202, 0x0, .lda (.v 5) (.s 2) false none),
    (0xda01e202, 0x8, .stl (.v 1) (.s 2) false (some 0x00000008)), (0xdb05e001, 0x0, .amo (.v 5) (.s 0) (.v 1) 0),
    (0x5c06e207, 0x0, .cas (.v 6) (.s 2) (.v 7)), (0xdd00e003, 0x0, .red (.s 0) (.v 3) 0),
    (0x5ee30000, 0x0, .cross (.s 3)), (0x5eff0001, 0x0, .crossa .none), (0x5ee40002, 0x0, .crossw (.s 4)),
    (0x5e020003, 0x0, .phase (.v 2)), (0x5fe7e200, 0x0, .cgbind 7 (.s 2)),
    (0x6000e800, 0x0, .collAllreduce (.acc 0) 8 0), (0x6001e011, 0x0, .collReducescatter (.acc 1) 0 2),
    (0x60e6e402, 0x0, .collAllgather (.s 6) 4), (0x6000e003, 0x0, .collBroadcast (.acc 0) 0),
    (0x6000e004, 0x0, .collAlltoall (.acc 0) 0), (0x61e6e500, 0x0, .abinit 6 (.s 5)),
    (0x61e7e501, 0x0, .abarv (.s 7) (.s 5)), (0x61e7e502, 0x0, .abwait (.s 7) (.s 5)),
    (0x62ffe000, 0x0, .gset .none (.s 0)), (0xe2e3ff01, 0x3, .gwid (.s 3) (.imm 0x00000003)),
    (0x62e20002, 0x0, .gview (.s 2)), (0x6205e403, 0x0, .grank (.v 5) (.s 4)),
    (0xe300ff00, 0x40, .rgrow (.imm 0x00000040)), (0x6300e301, 0x0, .rshrink (.s 3)),
    (0xe400ff00, 0x80, .aopen (.imm 0x00000080)), (0xe4e4ff01, 0x80, .apop (.s 4) (.imm 0x00000080)),
    (0x6406e902, 0x0, .atry (.v 6) (.s 9))] : List (Nat × Nat × Instr)),
    decodeTableWord 64 (x.1 + x.2.1 * 2 ^ 32) = some x.2.2 := by decide +kernel

/-- Words and extension words: the worked examples of the spec, else the fields of R26 put together by hand. -/
theorem test_decode_5 : ∀ x ∈ ([
    (0xe500ffe5, 0x80, .apush (.imm 0x00000080) (.s 5)), (0xe600e2ff, 0x1, .sigdec false 2 (.imm 0x00000001)),
    (0xe7e4e2ff, 0x0, .sigwait (.s 4) 2 (.imm 0x00000000)), (0xe801e0e4, 0xffff, .mma 1 0 4 128 128 4 false false),
    (0xe90ce0e4, 0x4007fff, .mmas 0 12 0 4 128 128 2 1 false false),
    (0xea01e0e4, 0xcfbf, .mmac 1 0 4 64 32 4 false), (0x6b02e0f0, 0x0, .macld 2 0 .zero),
    (0x6c01e0e0, 0x0, .macst 1 0 (.s 0)), (0x6d08e301, 0x0, .macrd 8 (.s 3) 1),
    (0x6e08e401, 0x0, .macwr 8 (.s 4) 1), (0xef01e8ec, 0x18bfff, .mepi 1 8 12 128 128 2 6 false 0 0),
    (0x70000020, 0x0, .macz 2), (0x70e50011, 0x0, .mprog (.s 5) 1), (0x70e3e232, 0x0, .ackpt (.s 3) (.s 2) 3),
    (0x70e3e233, 0x0, .acrst (.s 3) (.s 2) 3), (0xf100e0e4, 0x96883fff, .attn 0 0 4 128 128 16 5 1 1 false true),
    (0x720ce800, 0x0, .attc true true 0 8), (0x73e6e2e8, 0x0, .kvap (.s 6) 2 8),
    (0x74e6e2e4, 0x0, .kvtr (.s 6) 2 4), (0xf510e2ff, 0x1, .kvrd (.v 16) 2 (.imm 0x00000001)),
    (0x760a0001, 0x0, .cntrd (.v 10) 1), (0x7614e60a, 0x0, .cntcfg (.v 20) (.s 6) 2), (0x7600e410, 0x0, .cntsv 4),
    (0x7600e218, 0x0, .cntld 2), (0x77000000, 0x0, .wswitch),
    (0xf8e2e0ff, 0x18, .bcinit (.s 2) 0 (.imm 0x00000018)), (0xf9e3e0ff, 0x8, .bctake (.s 3) 0 (.imm 0x00000008)),
    (0xfae3e0ff, 0x6, .bcgive (.s 3) 0 (.imm 0x00000006)), (0x7be6e000, 0x0, .bcread (.s 6) 0),
    (0x7be4e001, 0x0, .bcstat (.s 4) 0), (0x7ce30001, 0x0, .sysrd (.s 3) 1), (0x7d04e400, 0x0, .syswr 4 (.s 4)),
    (0xfd12ff00, 0x1, .syXreqWrite (.imm 0x00000001)), (0x7e00e4e6, 0x0, .shoot 4 (.s 6)),
    (0x7f08e4e4, 0x0, .part (.v 8) (.s 4) (.s 4))] : List (Nat × Nat × Instr)),
    decodeTableWord 64 (x.1 + x.2.1 * 2 ^ 32) = some x.2.2 := by decide +kernel

/-! ## Every instruction word at its issue -/

/-- The integer instructions at their issue. -/
theorem issues_integer : ∀ i ∈ ([
    .add (.v 8) (.v 4) (.v 4) none, .addc (.v 8) (.v 4) (.v 4) none, .sub (.v 8) (.v 4) (.v 4) none,
    .subb (.v 8) (.v 4) (.v 4) none, .mullo (.v 8) (.v 4) (.v 4) none, .mulhi (.v 8) (.v 4) (.v 4) none,
    .mad (.v 8) (.v 4) (.v 4) none, .div (.v 8) (.v 4) (.v 4) none, .rem (.v 8) (.v 4) (.v 4) none,
    .min (.v 8) (.v 4) (.v 4) none, .max (.v 8) (.v 4) (.v 4) none, .and (.v 8) (.v 4) (.v 4) none,
    .or (.v 8) (.v 4) (.v 4) none, .xor (.v 8) (.v 4) (.v 4) none, .andn (.v 8) (.v 4) (.v 4) none,
    .shl (.v 8) (.v 4) (.v 4) none, .shr (.v 8) (.v 4) (.v 4) none, .sar (.v 8) (.v 4) (.v 4) none,
    .rol (.v 8) (.v 4) (.v 4) none, .bfx (.v 8) (.v 4) (.v 4) none, .bfi (.v 8) (.v 4) (.v 4) none,
    .sel (.v 8) (.v 4) (.v 4) false 1, .cmp 1 1 (.v 4) (.v 4) none, .lea (.v 8) (.v 4) (.v 4) none,
    .neg (.v 8) (.v 4) none, .not (.v 8) (.v 4) none, .popc (.v 8) (.v 4) none, .clz (.v 8) (.v 4) none,
    .brev (.v 8) (.v 4) none, .mov (.v 8) (.v 4) none, .movi (.v 8) 0x20#32, .movh (.v 8) 0x20#32,
    .pset 1 (.v 4) false] : List Instr), ∃ c, State.Issues bench i c :=
  all_meets (by decide +kernel)

/-- The signed instructions at their issue. -/
theorem issues_signed : ∀ i ∈ ([
    .abs (.v 8) (.v 4) none] : List Instr), ∃ c, State.Issues (benchIn 0x20#16) i c :=
  all_meets (by decide +kernel)

/-- The float instructions at their issue. -/
theorem issues_float : ∀ i ∈ ([
    .fadd (.v 8) (.v 4) (.v 4) none, .fsub (.v 8) (.v 4) (.v 4) none, .fmul (.v 8) (.v 4) (.v 4) none,
    .fma (.v 8) (.v 4) (.v 4) none, .fmin (.v 8) (.v 4) (.v 4) none, .fmax (.v 8) (.v 4) (.v 4) none,
    .fcmp 1 1 (.v 4) (.v 4) none, .fdiv (.v 8) (.v 4) (.v 4) none, .frcp (.v 8) (.v 4) none,
    .frsq (.v 8) (.v 4) none, .fsqrt (.v 8) (.v 4) none, .fexp2 (.v 8) (.v 4) none, .flog2 (.v 8) (.v 4) none,
    .fsin (.v 8) (.v 4) none, .fcos (.v 8) (.v 4) none, .ftanh (.v 8) (.v 4) none, .frint (.v 8) (.v 4) none,
    .fclass (.v 8) (.v 4) none, .qpack (.v 8) (.v 4) 1 none, .qunpk (.v 8) (.v 4) 1 none,
    .srnd (.v 8) (.v 4) 9 none, .ldf (.v 8) (.s 0) (.s 4), .stf (.v 8) (.s 0) (.s 4), .collAllreduce (.acc 0) 0 1,
    .collReducescatter (.acc 0) 0 1] : List Instr), ∃ c, State.Issues (benchIn 0x100#16) i c :=
  all_meets (by decide +kernel)

/-- The lanes and control instructions at their issue. -/
theorem issues_lanes_and_control : ∀ i ∈ ([
    .cvt (.v 8) (.v 4) 0 none, .rng (.v 8), .rngst (.v 8), .rngld (.v 4), .shflIdx (.v 8) (.v 4) (.v 4) none,
    .shflUp (.v 8) (.v 4) (.v 4) none, .shflDown (.v 8) (.v 4) (.v 4) none, .shflXor (.v 8) (.v 4) (.v 4) none,
    .bcast (.v 8) (.v 4) (.s 4) none, .voteAny (.v 8) (.v 4), .voteAll (.v 8) (.v 4), .voteBallot (.v 8) (.v 4),
    .voteUni (.v 8) (.v 4), .lred (.v 8) (.v 4) 1, .lscan (.v 8) (.v 4) false 1, .bra 0x20#32,
    .brp 1 false 0x20#32, .call (.v 8) 0x20#32, .jmpr (.v 4), .mode 0x20#16, .nop, .nopMerge, .ret (.v 4), .exit,
    .yield, .sleep (.s 4), .leave, .qbar, .trap 1, .tret, .elog (.v 8), .join (.s 4) (.s 4), .launch (.v 8) (.s 0)] : List Instr), ∃ c, State.Issues bench i c :=
  all_meets (by decide +kernel)

/-- The memory instructions at their issue. -/
theorem issues_memory : ∀ i ∈ ([
    .ldB (.v 8) (.s 0) (.v 4), .ldH (.v 8) (.s 0) (.v 4), .ldW (.v 8) (.s 0) (.v 4), .ldD (.v 8) (.s 0) (.v 4),
    .ldQ (.v 8) (.s 0) (.v 4), .ldbyW (.v 8) (.s 0) (.v 4), .ldbyD (.v 8) (.s 0) (.v 4),
    .ldbyQ (.v 8) (.s 0) (.v 4), .stB (.v 4) (.s 0) (.v 4), .stH (.v 4) (.s 0) (.v 4), .stW (.v 4) (.s 0) (.v 4),
    .stD (.v 4) (.s 0) (.v 4), .stQ (.v 4) (.s 0) (.v 4), .stbyW (.v 4) (.s 0) (.v 4), .stbyD (.v 4) (.s 0) (.v 4),
    .stbyQ (.v 4) (.s 0) (.v 4), .pref 1 (.s 0) (.v 4), .invl (.s 0) (.v 4), .invlAll, .waitp 1 (.s 4),
    .cp 0 0 0 1 1 4, .cps (.v 8), .cpw (.s 4), .rqnt 0 0 false 1 1, .fence (.v 8) 1, .acq (.v 8) 1, .rel (.v 8) 1,
    .lda (.v 8) (.s 0) false none, .stl (.v 4) (.s 0) false none, .amo (.v 8) (.s 0) (.v 4) 1,
    .cas (.v 8) (.s 0) (.v 4), .red (.s 0) (.v 4) 1, .cross (.v 8), .crossa (.v 8), .crossw (.v 8), .phase (.v 8),
    .cgbind 0 (.s 0)] : List Instr), ∃ c, State.Issues bench i c :=
  all_meets (by decide +kernel)

/-- The units instructions at their issue. -/
theorem issues_units : ∀ i ∈ ([
    .collAllgather (.acc 0) 0, .collBroadcast (.acc 0) 0, .collAlltoall (.acc 0) 0, .abinit 0 (.s 4),
    .abarv (.v 8) (.s 4), .abwait (.s 0) (.s 4), .gset (.v 8) (.v 4), .gwid (.v 8) (.s 4), .gview (.v 8),
    .grank (.v 8) (.s 4), .rgrow (.s 4), .rshrink (.s 4), .aopen (.s 4), .apop (.v 8) (.s 4), .atry (.v 8) (.s 4),
    .apush (.s 4) (.s 4), .sigdec false 0 (.s 4), .sigwait (.v 8) 0 (.s 4), .mma 1 0 0 2 2 2 false false,
    .mmas 1 8 0 0 2 2 2 1 false false, .mmac 1 0 0 2 2 2 false, .macld 1 0 (.s 0), .macst 1 0 (.s 0),
    .macrd 8 (.s 4) 1, .macwr 8 (.s 4) 1, .mepi 1 0 0 2 2 1 1 false 1 1, .macz 1, .mprog (.v 8) 1,
    .ackpt (.s 4) (.s 4) 1, .acrst (.s 4) (.s 4) 1, .attn 1 0 0 4 4 2 1 1 1 false false, .attc false false 1 0,
    .kvap (.v 8) 0 0, .kvtr (.v 8) 0 0, .kvrd (.v 8) 0 (.s 4), .cntrd (.v 8) 1, .cntcfg (.v 8) (.s 4) 1, .cntsv 0,
    .cntld 0, .wswitch, .bcinit (.v 8) 0 (.s 4), .bctake (.v 8) 0 (.s 4), .bcgive (.v 8) 0 (.s 4),
    .bcread (.v 8) 0, .bcstat (.v 8) 0, .sysrd (.v 8) 1, .syswr 1 (.s 0), .syXreqWrite (.s 4), .shoot 0 (.s 4),
    .part (.v 8) (.s 4) (.s 4)] : List Instr), ∃ c, State.Issues bench i c :=
  all_meets (by decide +kernel)

/-! ## Single steps -/

/-- R88, R64: an unsigned sum wraps; a signed one saturates under SAT. -/
theorem test_add_wraps :
    (terOf (run (.add (.v 8) (.v 4) (.v 5) none) (withV 4 (fun _ => 0xFFFFFFFF) (withV 5 (fun l => l + 1) bench)))).vget 8 2
      = 2#32 := by decide +kernel

theorem test_add_saturates :
    (terOf (run (.add (.v 8) (.v 4) (.v 5) (some ⟨true, false, false, false, false, false, 0⟩))
      (withV 4 (fun _ => 0x7FFFFFFF) (withV 5 (fun _ => 1) (benchIn 0x20#16))))).vget 8 0 = 0x7FFFFFFF#32 := by decide +kernel

/-- R89: the carry out of lane 0 is set, that of lane 1 is not. -/
theorem test_addc_carry :
    ((terOf (run (.addc (.v 8) (.v 4) (.v 4) none) (withV 4 (fun l => if l = 0 then 0x80000000 else 1) bench))).pget 7).toNat % 4
      = 1 := by decide +kernel

/-- R90: division by zero gives the greatest value; the remainder gives the dividend. -/
theorem test_div_by_zero :
    (terOf (run (.div (.v 8) (.v 4) (.v 5) none) (withV 4 (fun _ => 7) (benchIn 0x20#16)))).vget 8 3 = 0x7FFFFFFF#32
    ∧ (terOf (run (.rem (.v 8) (.v 4) (.v 5) none) (withV 4 (fun _ => 7) (benchIn 0x20#16)))).vget 8 3 = 7#32 := by
  decide +kernel

/-- R91: an arithmetic shift by more than the width fills with the sign. -/
theorem test_sar_far :
    (terOf (run (.sar (.v 8) (.v 4) (.v 5) none) (withV 4 (fun _ => 0x80000000) (withV 5 (fun _ => 200) bench)))).vget 8 0
      = 0xFFFFFFFF#32 := by decide +kernel

/-- R99: the folds of 6 / 3.5 and 6 / 2.75 in the worked step, rounded by RNE. -/
theorem test_fdiv_worked :
    let s := withV 4 (fun _ => 0x40C00000) (withV 5 (fun l => if l = 0 then 0x40600000 else 0x40300000) (benchIn 0x100#16))
    let t := terOf (run (.fdiv (.v 8) (.v 4) (.v 5) none) s)
    t.vget 8 0 = 0x3FDB6DB7#32 ∧ t.vget 8 1 = 0x400BA2E9#32 := by decide +kernel

/-- R102: Exp2 of -3 is 0.125 exactly. -/
theorem test_fexp2_exact :
    (terOf (run (.fexp2 (.v 8) (.v 4) none) (withV 4 (fun _ => 0xC0400000) (benchIn 0x100#16)))).vget 8 0 = 0x3E000000#32 := by
  decide +kernel

/-- R106: the worked group 1.0, -2.5, 300.0, 1000.0 packs as 0x7E79C238; R107: lane 2 unpacks as 288.0. -/
theorem test_qpack_worked :
    let s := withV 2 (fun l => match l % 4 with | 0 => 0x3F800000 | 1 => 0xC0200000 | 2 => 0x43960000 | _ => 0x447A0000)
      (benchIn 0x100#16)
    (terOf (run (.qpack (.v 8) (.v 2) 0x10 none) s)).vget 8 1 = 0x7E79C238#32 := by decide +kernel

theorem test_qunpk_worked :
    (terOf (run (.qunpk (.v 9) (.v 8) 0x10 none) (withV 8 (fun _ => 0x7E79C238) (benchIn 0x100#16)))).vget 9 2 = 0x43900000#32 := by
  decide +kernel

/-- R95: MOVH fills the odd register and keeps the even one. -/
theorem test_movh :
    let t := terOf (run (.movh (.s 4) 0x12345678#32) (withS 4 9 bench))
    t.sget 5 = 0x12345678#32 ∧ t.sget 4 = 9#32 := by decide +kernel

/-- R40, R54: an inactive lane of a v destination keeps its value. -/
theorem test_guarded_move :
    let t := terOf (run (.movi (.v 8) 5#32) (withGuard 2#32 bench))
    t.vget 8 1 = 5#32 ∧ t.vget 8 0 = 0#32 := by decide +kernel

/-- R110: lane 31 has no lane below it to take from, and keeps its own value. -/
theorem test_shfl_down_edge :
    let t := terOf (run (.shflDown (.v 8) (.v 4) (.imm 1) none) (withV 4 (fun l => l) bench))
    t.vget 8 30 = 31#32 ∧ t.vget 8 31 = 31#32 := by decide +kernel

/-- R112: the ballot of the odd lanes. -/
theorem test_ballot :
    (terOf (run (.voteBallot (.s 4) (.v 4)) (withV 4 (fun l => l % 2) bench))).sget 4 = 0xAAAAAAAA#32 := by decide +kernel

/-- R114: an exclusive running sum begins with 0. -/
theorem test_lscan_exclusive :
    let t := terOf (run (.lscan (.v 8) (.v 4) true 0) (withV 4 (fun l => l + 1) bench))
    t.vget 8 0 = 0#32 ∧ t.vget 8 3 = 6#32 := by decide +kernel

/-- R116, R120: a branch that some lanes take divides the split. -/
theorem test_brp_divides :
    let t := terOf (run (.brp 0 false 0x20#32) (withTer (fun t => { t with p := kset 0 t.p 0 0xFF#32 }) bench))
    t.splits.length = 2 ∧ (t.split? 2).map (·.mask) = some 0xFF#32 ∧ (t.split? 2).map (·.pc) = some 0x100000020#64 := by
  decide +kernel

/-- R192, R169: the last lane's store to the scratchpad stands there at once. -/
theorem test_store_scratchpad :
    let s := withV 4 (fun l => 0x80000 + 4 * l) (withV 9 (fun l => 100 + l) bench)
    (run (.stW (.v 9) (.v 4) (.imm 0)) s).rdNat (2 ^ 60 + 124) 4 = 131 := by decide +kernel

/-- R192: a byte load extends the sign where TYPE is signed. -/
theorem test_load_byte_signed :
    let s := run (.ldB (.v 8) (.s 0) .zero) (withS 0 0x80000 (withMem (2 ^ 60) 1 0x80 (benchIn 0x20#16)))
    (terOf (run (.loadReturn 1 3 0xFFFFFFFF#32) s)).vget 8 0 = 0xFFFFFF80#32 := by decide +kernel

/-- R166, R167: the word of lane 3 of v12 in terrace 5, which the team does not hold, is a violation. -/
theorem test_register_window_misses :
    (splitOf (run (.ldW (.v 8) (.s 0) .zero) (withTvec (withS 0 0x0022860C bench)))).tcause.toNat % 256 = 0x11 := by decide +kernel

/-- R240: an atomic add of every lane to one word. -/
theorem test_amo_adds :
    let s := withV 4 (fun _ => 0x80000) (withV 9 (fun _ => 2) bench)
    (run (.amo (.v 8) (.v 4) (.v 9) 0) s).rdNat (2 ^ 60) 4 = 64 := by decide +kernel

/-- R403, R399: TRAP's number is the sub-code, and the frame's address is the instruction after it. -/
theorem test_trap :
    let x := splitOf (run (.trap 0x5A) (withTvec bench))
    x.tcause.toNat = 0x005A2030 ∧ x.pc = 0x2000#64 ∧ x.frame.map (·.rpc) = some 0x100000004#64 := by decide +kernel

/-- R404: TRET goes back to the frame's address with its mode word and generator. -/
theorem test_tret :
    let x := splitOf (run .tret (inHandler bench))
    x.pc = 0x100000100#64 ∧ x.mode = 0x20#16 ∧ x.rc = 2#64 ∧ x.frame = none := by decide +kernel

/-- R308, R310: an empty alley gives ATRY nothing. -/
theorem test_atry_empty :
    let t := terOf (run (.atry (.v 6) (.imm 0x80000)) (withMem (2 ^ 60) 4 8 (withV 7 (fun _ => 9) bench)))
    t.vget 6 0 = 0#32 ∧ t.vget 7 0 = 0#32 := by decide +kernel

/-- R262: the last arrival of a barrier object of two moves it to its next phase. -/
theorem test_abarv_last :
    let t := run (.abarv (.s 7) (.imm 0x80000)) (withMem (2 ^ 60) 8 (2 + 1 * 2 ^ 32) bench)
    (terOf t).sget 7 = 0#32 ∧ t.rdNat (2 ^ 60 + 8) 4 = 1 ∧ t.rdNat (2 ^ 60 + 4) 4 = 0 := by decide +kernel

/-- R314: a decrement below zero leaves 0 and sets ERR. -/
theorem test_signal_below_zero : signalNext 1 1 false = 0 ∧ signalNext 0 1 false = 2 ^ 63 := by decide +kernel

/-- R143: MACZ clears its slot, and the others keep theirs. -/
theorem test_macz :
    let s := run (.macz 2) { bench with acc := [(16384, 5), (2 * 16384, 7)] }
    s.accGet 2 0 0 = 0#32 ∧ s.accGet 1 0 0 = 5#32 := by decide +kernel

/-- R378, R379: user code may not write a system register. -/
theorem test_syswr_user :
    (splitOf (run (.syswr 4 (.s 4)) (withTvec bench))).tcause.toNat % 256 = 0x11 := by decide +kernel

theorem test_syswr_handler :
    ((run (.syswr 8 (.s 4)) (inHandler (withPair 4 0x123400000000 bench))).tenant 0).tvec = 0x123400000000#64 := by
  decide +kernel

/-- R393: CNTCFG gives the old configuration word and zeroes the counter of a new event. -/
theorem test_cntcfg :
    let t := run (.cntcfg (.v 20) (.imm 0x0102) 1) bench
    (terOf t).vget 20 0 = 0#32 ∧ ((t.partAt? 0 0).map fun p => (p.counters.getD 1 ⟨1, 0⟩).config) = some 0x102#32 := by
  decide +kernel

/-- R60: bytes that are no instruction end in the illegal-instruction trap. -/
theorem test_illegal_word :
    (match step (withTvec bench) with | .next t => (splitOf t).tcause.toNat % 256 | _ => 0) = 1 := by decide +kernel

/-- R455: a die's draw rises by at most its limit, 100 W after reset, and the filler holds a fall to 25 W. -/
theorem test_power_limits :
    (Die.init.sample 1000000).drawn = powRise 0x00640019#32
    ∧ (({ Die.init with drawn := 50000 } : Die).sample 0).drawn = 50000 - powFall 0x00640019#32 := by decide +kernel

/-! ## The statements' hypotheses are met -/

/-- StepKeepsTidy. -/
theorem wit_StepKeepsTidy : State.Tidy bench ∧ ∃ t, step bench = .next t := by
  refine ⟨⟨by decide +kernel, by decide +kernel⟩, ?_⟩
  have h : (match step bench with | .next _ => true | _ => false) = true := by decide +kernel
  cases hs : step bench with
  | next t => exact ⟨t, rfl⟩
  | fault f => rw [hs] at h; cases h
  | refused r => rw [hs] at h; cases h

/-- DecodeEncode and EncodeDecode. -/
theorem wit_DecodeEncode : WellFormed (.brp 0 true 0x20#32) = true := by decide +kernel
theorem wit_EncodeDecode : decode (tableBytes 64 0x01080405) = .ok (.add (.v 8) (.v 4) (.v 5) none, 4) := by rfl

/-- StepRunsDecoded: the placed instruction is fetched; a held one goes on. -/
theorem wit_StepRunsDecoded :
    let s := State.reset.withFetchWord 64 0x01080405
    let t := terOf s
    s.frozen = false ∧ s.dark = false ∧ s.issue = (1, 2) :: [] ∧ s.ter? 1 = some t ∧ t.split? 2 = some (splitOf s)
      ∧ (splitOf s).held = none ∧ (s.nextWords t (splitOf s)).map (fun bs => match decode bs with | .ok x => some x | .error _ => none)
        = some (some (.add (.v 8) (.v 4) (.v 5) none, 4)) := by
  decide +kernel
theorem wit_StepRunsHeld :
    let s := withSplit (fun x => { x with held := some .qbar }) bench
    s.frozen = false ∧ s.dark = false ∧ s.issue = (1, 2) :: [] ∧ s.ter? 1 = some (terOf s) ∧ (terOf s).split? 2 = some (splitOf s)
      ∧ (splitOf s).held = some .qbar := by decide +kernel

/-- FrozenMovesNot: nothing, an event that is dropped, a reset, a read-out. -/
theorem wit_FrozenMovesNot :
    let s := fun l => ({ State.reset with frozen := true, agenda := l } : State)
    (s []).agenda = [] ∧ (s [.supplyLoss]).agenda = [.supplyLoss] ∧ (s [.reset]).agenda = [.reset]
      ∧ (s [.freezeReadout 0]).agenda = [.freezeReadout 0] ∧ (s [.freezeReadout 0]).wbuf = [] ∧ (s []).frozen = true := by
  decide +kernel

/-- EveryIssueAnswers. -/
theorem wit_EveryIssueAnswers : isWord .exit = true ∧ ∃ c, bench.issuer .exit = some c ∧ True :=
  ⟨by decide, of_reaches (by decide +kernel)⟩

/-- StepTakesIllegalWord: the word 0. -/
theorem wit_StepTakesIllegalWord :
    bench.frozen = false ∧ bench.dark = false ∧ bench.issue = [(1, 2)] ∧ bench.fetched (1, 2) = .bad 0#32 4
      ∧ (bench.issuer .nop).isSome = true := by decide +kernel

/-- IllegalFormTraps: FADD in an integer TYPE; IllegalOperandTraps: a register the terrace does not hold. -/
theorem wit_IllegalFormTraps : ∃ c, bench.issuer (.fadd (.v 8) (.v 4) (.v 5) none) = some c ∧
    (c.resumed = false ∧ issueFormOk (.fadd (.v 8) (.v 4) (.v 5) none) c.ty = false) := of_reaches (by decide +kernel)
theorem wit_IllegalOperandTraps : ∃ c, bench.issuer (.add (.v 8) (.v 4) (.v 200) none) = some c ∧
    (c.resumed = false ∧ issueFormOk (.add (.v 8) (.v 4) (.v 200) none) c.ty = true
      ∧ operandsOk c.t c.sp (.add (.v 8) (.v 4) (.v 200) none) = false) := of_reaches (by decide +kernel)

/-- CarryChain's trap: TYPE i32. -/
theorem wit_CarryChain_type : ∃ c, (benchIn 0x20#16).issuer (.addc (.v 8) (.v 4) (.v 5) none) = some c ∧
    (c.resumed = false ∧ c.ty ≠ 0 ∧ c.ty ≠ 6) := of_reaches (by decide +kernel)

/-- MemoryReadBack. -/
theorem wit_MemoryReadBack : bench.wbuf = [] := rfl

/-- DestinationWritten: with an active lane, and with none. -/
theorem wit_DestinationWritten : lowLane 0x80000000#32 = some 31 ∧ lowLane 0#32 = none := by decide +kernel

/-- EndOfInstruction, HeldInstruction, WaitingInstruction and StayingInstruction. -/
theorem wit_EndOfIssue : ∃ c, bench.Issues .nop c ∧ (c.resumed = false ∧ (bench.part? c.t.core c.t.vf).isSome = true
    ∧ (bench.ter? c.uid).isSome = true ∧ ((bench.ter? c.uid).bind fun w => w.split? c.sid).isSome = true) :=
  of_meets (by decide +kernel)

/-- IntegerFinish. -/
theorem wit_IntegerFinish : tyInt 0 = true ∧ tyInt 7 = true := by decide

/-- RunningValues: the last of 32 lanes. -/
theorem wit_RunningValues : ∃ c, bench.Issues (.lred (.v 8) (.v 4) 0) c ∧ (tyInt c.ty = true ∧ 31 < c.lanes.length) :=
  of_meets (by decide +kernel)

/-- ModeNopAndReads, its clauses with conditions. -/
theorem wit_sysrd : ∃ c, bench.Issues (.sysrd (.s 4) 0) c ∧ sysUser 0 = true := of_meets (by decide +kernel)
theorem wit_sysrd_supervisor : ∃ c, (inHandler bench).Issues (.sysrd (.s 4) 4) c ∧ c.sp.supervisor = true :=
  of_meets (by decide +kernel)
theorem wit_mprog : ∃ c, bench.Issues (.mprog (.s 4) 3) c ∧ bench.slotHeld c.t 3 = true := of_meets (by decide +kernel)
theorem wit_macrd : ∃ c, (withS 3 127 bench).Issues (.macrd 8 (.s 3) 1) c ∧
    ((withS 3 127 bench).slotHeld c.t 1 = true ∧ (withS 3 127 bench).roundBusy (c.t.slot 1) = false
      ∧ (withS 3 127 bench).claimed c.t 1 = false ∧ c.uni (.s 3) ≤ 127) := of_meets (by decide +kernel)
theorem wit_gview : ∃ c, bench.Issues (.gview (.s 2)) c ∧ bench.gated c.t = false := of_meets (by decide +kernel)
theorem wit_grank : ∃ c, bench.Issues (.grank (.v 8) (.s 4)) c ∧ bench.gated c.t = false := of_meets (by decide +kernel)

/-- BranchesTogether: no guard; a predicate that all lanes hold, and one that none holds; an address all lanes name. -/
theorem wit_branch_all : ∃ c, bench.Issues (.bra 0x20#32) c ∧ (c.sp.mask ≠ 0 ∧ c.active = c.sp.mask) := of_meets (by decide +kernel)
theorem wit_branch_taken : ∃ c, bench.Issues (.brp 0 true 0x20#32) c ∧ c.active &&& ~~~c.rt.pget 0 = c.sp.mask :=
  of_meets (by decide +kernel)
theorem wit_branch_none : ∃ c, bench.Issues (.brp 0 false 0x20#32) c ∧ c.active &&& c.rt.pget 0 = 0 := of_meets (by decide +kernel)
theorem wit_call : ∃ c, bench.Issues (.call (.s 14) 0x20#32) c ∧ c.active = c.sp.mask := of_meets (by decide +kernel)
theorem wit_jump : ∀ i ∈ [Instr.jmpr (.s 4), .ret (.s 4)], ∃ c, (withPair 4 0x100000040 bench).Issues i c ∧
    (c.active = c.sp.mask ∧ 0x100000040 % 4 = 0 ∧ ∀ l ∈ c.lanes, c.src64 (.s 4) l = 0x100000040) := by
  intro i hi
  simp only [List.mem_cons, List.not_mem_nil, or_false] at hi
  rcases hi with rfl | rfl <;> exact of_meets (by decide +kernel)

/-- A terrace with p0 in lanes 0 to 7, and the same with more splits or a deeper stack. -/
def parting (s : State) : State := withTer (fun t => { t with p := kset 0 t.p 0 0xFF#32 }) s
def fourSplits (s : State) : State :=
  withTer (fun t => { t with splits := t.splits ++ [{ freshSplit 11 0 with mask := 0 }, { freshSplit 12 0 with mask := 0 },
    { freshSplit 13 0 with mask := 0 }] }) s
def entry (waiting : Bool) : StackEntry := ⟨waiting, 0x100000080#64, 0xF#32, 0x20#16, 3, 4⟩

theorem wit_divides_split : ∃ c, (parting bench).Issues (.brp 0 false 0x20#32) c ∧
    (c.active &&& c.rt.pget 0 ≠ 0 ∧ c.sp.mask &&& ~~~(c.active &&& c.rt.pget 0) ≠ 0 ∧ c.t.splits.length ≤ 3
      ∧ c.t.split? (parting bench).fresh = none) := of_meets (by decide +kernel)
theorem wit_divides_stack : ∃ c, (fourSplits (parting bench)).Issues (.brp 0 false 0x20#32) c ∧
    (c.active &&& c.rt.pget 0 ≠ 0 ∧ c.sp.mask &&& ~~~(c.active &&& c.rt.pget 0) ≠ 0 ∧ 4 ≤ c.t.splits.length
      ∧ c.sp.stack.length + 1 ≤ 8 ∧ c.sp.frame = none) := of_meets (by decide +kernel)
theorem wit_divides_beyond :
    ∃ c, (withSplit (fun x => { x with stack := List.replicate 8 (entry false) }) (fourSplits (parting bench))).Issues
      (.brp 0 false 0x20#32) c ∧ (c.active &&& c.rt.pget 0 ≠ 0 ∧ c.sp.mask &&& ~~~(c.active &&& c.rt.pget 0) ≠ 0
        ∧ 4 ≤ c.t.splits.length ∧ 8 < c.sp.stack.length + 1) := of_meets (by decide +kernel)

/-- MergeMarker and ExitEndsLanes: an entry of the stack to go on with, another split that runs, the only split. -/
def stacked (s : State) : State := withSplit (fun x => { x with stack := [entry false], mask := 0xF0#32 }) s
def twoSplits (s : State) : State :=
  withTer (fun t => { t with splits := t.splits ++ [{ freshSplit 11 0 with mask := 0xFF#32 }] })
    (withSplit (fun x => { x with mask := 0xFF00#32 }) s)
theorem wit_merge_stack : ∃ c, (stacked bench).Issues .nopMerge c ∧ (c.sp.after = none ∧ c.sp.stack = entry false :: []
    ∧ (entry false).waiting = false ∧ ∀ o ∈ c.t.splits, o.stopped = false) := of_meets (by decide +kernel)
theorem wit_merge_stop : ∃ c, (twoSplits bench).Issues .nopMerge c ∧ (c.sp.after = none ∧ c.sp.stack = [] ∧ c.sp.frame = none
    ∧ (∃ o ∈ c.t.splits, o.sid ≠ c.sid ∧ o.stopped = false ∧ o.frame = none) ∧ ∀ o ∈ c.t.splits, o.frame = none) :=
  of_meets (by decide +kernel)
theorem wit_merge_only : ∃ c, bench.Issues .nopMerge c ∧ (c.sp.after = none ∧ c.sp.stack = [] ∧ c.sp.frame = none
    ∧ c.t.splits = [c.sp]) := of_meets (by decide +kernel)
theorem wit_exit_some : ∃ c, (withGuard 0xF#32 bench).Issues .exit c ∧ (c.sp.after = none ∧ c.sp.frame = none
    ∧ c.sp.mask &&& ~~~c.active ≠ 0) := of_meets (by decide +kernel)
theorem wit_exit_stack : ∃ c, (stacked bench).Issues .exit c ∧ (c.sp.after = none ∧ c.sp.frame = none
    ∧ c.sp.mask &&& ~~~c.active = 0 ∧ c.sp.stack = entry false :: [] ∧ ∀ o ∈ c.t.splits, o.stopped = false) :=
  of_meets (by decide +kernel)
theorem wit_exit_last : ∃ c, (twoSplits bench).Issues .exit c ∧ (c.sp.after = none ∧ c.sp.frame = none
    ∧ c.sp.mask &&& ~~~c.active = 0 ∧ c.sp.stack = []
    ∧ (∃ o ∈ c.t.splits, o.sid ≠ c.sid ∧ o.stopped = false ∧ o.frame = none) ∧ ∀ o ∈ c.t.splits, o.frame = none) :=
  of_meets (by decide +kernel)

/-- YieldAndSleep. -/
theorem wit_yield : ∃ c, bench.Issues .yield c ∧ c.t.ter < 64 := of_meets (by decide +kernel)
theorem wit_sleep_none : ∃ c, bench.Issues (.sleep (.imm 0)) c ∧ (c.t.ter < 64 ∧ min (c.uniAll (.imm 0)) 1048576 = 0) :=
  of_meets (by decide +kernel)
theorem wit_sleep_some : ∃ c, bench.Issues (.sleep (.imm 0x7FFFFFFF)) c ∧
    (c.t.ter < 64 ∧ min (c.uniAll (.imm 0x7FFFFFFF)) 1048576 ≠ 0) := of_meets (by decide +kernel)

/-- TrapEntry and TrapLogged. -/
theorem wit_TrapEntry : ∃ c, (withTvec bench).Issues (.trap 1) c ∧ (c.sp.frame = none ∧ ((withTvec bench).tenant c.t.vf).tvec ≠ 0
    ∧ ((withTvec bench).tenant c.t.vf).elog = 0 ∧ ((withTvec bench).tenant c.t.vf).vlog = 0) := of_meets (by decide +kernel)

/-- SoftwareTrap, TrapReturn, TrapReturnRefused. -/
theorem wit_trap_active : ∃ c, bench.Issues (.trap 255) c ∧ c.active ≠ 0 := of_meets (by decide +kernel)
theorem wit_trap_idle : ∃ c, (withGuard 0#32 bench).Issues (.trap 255) c ∧ c.active = 0 := of_meets (by decide +kernel)
theorem wit_tret : ∃ c, (inHandler bench).Issues .tret c ∧ (c.sp.frame = some frame ∧ c.sp.mask = frame.fmask
    ∧ (inHandler bench).released c.t 1 c.ord = true ∧ c.t.service = none) := of_meets (by decide +kernel)
theorem wit_tret_outside : ∃ c, bench.Issues .tret c ∧ c.sp.frame = none := of_meets (by decide +kernel)
theorem wit_tret_part : ∃ c, (withSplit (fun x => { x with mask := 1#32 }) (inHandler bench)).Issues .tret c ∧
    (c.sp.frame = some frame ∧ c.sp.mask ≠ frame.fmask) := of_meets (by decide +kernel)

/-- PrivilegeTraps and SystemRegisterWritten. -/
theorem wit_privilege_read : ∃ c, bench.issuer (.sysrd (.s 4) 4) = some c ∧
    (c.resumed = false ∧ issueFormOk (.sysrd (.s 4) 4) c.ty = true ∧ sysUser 4 = false ∧ c.sp.frame = none) := of_reaches (by decide +kernel)
theorem wit_privilege_write : ∃ c, (inHandler bench).issuer (.syswr 0 (.s 4)) = some c ∧
    (c.resumed = false ∧ issueFormOk (.syswr 0 (.s 4)) c.ty = true ∧ sysWritable 0 = false) := of_reaches (by decide +kernel)
theorem wit_privilege_shoot : ∃ c, bench.issuer (.shoot 4 (.s 6)) = some c ∧
    (c.resumed = false ∧ issueFormOk (.shoot 4 (.s 6)) c.ty = true ∧ c.sp.frame = none) := of_reaches (by decide +kernel)
theorem wit_privilege_part : ∃ c, (inHandler bench).issuer (.part (.v 8) (.s 4) (.s 5)) = some c ∧
    (c.resumed = false ∧ issueFormOk (.part (.v 8) (.s 4) (.s 5)) c.ty = true ∧ ((inHandler bench).tenant c.t.vf).policy.getLsbD 3 = false) :=
  of_reaches (by decide +kernel)
theorem wit_SystemRegisterWritten : ∃ c, (inHandler bench).Issues (.syswr 8 (.s 4)) c ∧
    (sysWritable 8 = true ∧ c.sp.frame.isSome = true ∧ lowLane c.active = some 0
      ∧ c.t.vf ∈ (inHandler bench).tenants.map (·.1)) := of_meets (by decide +kernel)

/-- A page of another module at 2^32, and the list's bytes as its home answered. -/
def afar : State :=
  withSplit (fun x => { x with gets := [⟨2 ^ 54 + 0x40000000, 832, 5, some (.val 0)⟩] }) (withS 6 1 (withS 7 64 (withPair 0 (2 ^ 32)
    (pagedAs (2 ^ 55 + 0xD) (bench.setTenant 0 { bench.tenant 0 with policy := 2#32 })))))

/-- MemoryInstructionsIssue: a store to the scratchpad, a load from it, an atomic, and a load through a page. -/
def begins (s : State) (i : Instr) (c : Ctx) : Bool :=
  match c.memForm i with
  | some f =>
    let x := f.run s c
    f.lanes ≠ [] && !s.ownRegBusy c f.lanes f.ea f.len && !x.stay && x.faults.isEmpty
      && c.t.inFlight (f.path x (f.lanes.headD 0)) < 255 && c.scope < 5
  | none => false
def atScratch : State := withS 0 0x80000 bench
def atPage : State := withPair 0 (2 ^ 32) (paged bench)
theorem wit_MemoryIssue_chip : ∀ i ∈ [Instr.stW (.v 9) (.s 0) .zero, .ldW (.v 9) (.s 0) (.imm 4), .amo (.v 9) (.s 0) (.v 8) 0,
    .cas (.v 9) (.s 0) (.v 8), .red (.s 0) (.v 8) 0], ∃ c, atScratch.Issues i c ∧ begins atScratch i c = true := by
  intro i hi
  simp only [List.mem_cons, List.not_mem_nil, or_false] at hi
  rcases hi with rfl | rfl | rfl | rfl | rfl <;> exact of_meets (by decide +kernel)
theorem wit_MemoryIssue_page : ∃ c, atPage.Issues (.ldQ (.v 8) (.s 0) .zero) c ∧ begins atPage (.ldQ (.v 8) (.s 0) .zero) c = true :=
  of_meets (by decide +kernel)
theorem wit_MemoryIssue_stl : ∃ c, atScratch.Issues (.stl (.v 8) (.s 0) false (some 8)) c ∧
    (begins atScratch (.stl (.v 8) (.s 0) false (some 8)) c = true ∧ c.sp.undel.1 = 0 ∧ atScratch.released c.t c.scope c.ord = true) :=
  of_meets (by decide +kernel)

/-- A load of another module's page keeps its split's next instruction back. -/
def holding (s : State) (i : Instr) (c : Ctx) : Bool :=
  match c.memForm i with
  | some f => let x := f.run s c; f.kind.holds x.reqs x.out
  | none => false
theorem wit_MemoryIssue_holds : ∃ c, afar.Issues (.ldW (.v 9) (.s 0) .zero) c ∧ (begins afar (.ldW (.v 9) (.s 0) .zero) c = true
    ∧ holding afar (.ldW (.v 9) (.s 0) .zero) c = true) := of_meets (by decide +kernel)

/-- MemoryInstructionsIdle. -/
theorem wit_MemoryIdle : ∃ c, (withGuard 0 bench).Issues (.stW (.v 9) (.s 0) .zero) c ∧
    (c.memForm (.stW (.v 9) (.s 0) .zero)).map (·.lanes) = some [] := of_meets (by decide +kernel)

/-- AccessFaults: a misaligned address, an address outside every window, lanes that fault beside lanes that do not, and an
    instruction whose lanes all fault. -/
theorem wit_AccessFaults_misaligned : ∃ c, (withS 0 0x80002 bench).Issues (.ldW (.v 9) (.s 0) .zero) c ∧
    (c.memForm (.ldW (.v 9) (.s 0) .zero)).map (fun f => decide (f.ea 0 % f.len ≠ 0)) = some true := of_meets (by decide +kernel)
theorem wit_AccessFaults_outside : ∃ c, (withS 0 0x20000 bench).Issues (.ldW (.v 9) (.s 0) .zero) c ∧
    (c.memForm (.ldW (.v 9) (.s 0) .zero)).map (fun f => decide (f.ea 0 % f.len = 0) && !f.kind.block && !isGlobal (f.ea 0)
      && (bench.chipAt c.t 0 (f.ea 0) f.len).isNone) = some true := of_meets (by decide +kernel)
def faulting (s : State) (i : Instr) (all : Bool) (c : Ctx) : Bool :=
  match c.memForm i with
  | some f =>
    let x := f.run s c
    !s.ownRegBusy c f.lanes f.ea f.len && !x.stay && !x.faults.isEmpty
      && (f.lanes.all fun l => (x.faults.map (·.1)).contains l) == all
  | none => false
theorem wit_AccessFaults_all : ∃ c, (withS 0 0x80002 bench).Issues (.stW (.v 9) (.s 0) .zero) c ∧
    faulting (withS 0 0x80002 bench) (.stW (.v 9) (.s 0) .zero) true c = true := of_meets (by decide +kernel)
theorem wit_AccessFaults_some : ∃ c, (withV 4 (fun l => 0x80000 + l) bench).Issues (.stW (.v 9) (.v 4) .zero) c ∧
    faulting (withV 4 (fun l => 0x80000 + l) bench) (.stW (.v 9) (.v 4) .zero) false c = true := of_meets (by decide +kernel)

/-- Its even lanes go to another module, the odd ones are misaligned. -/
def partly : State := withTer (fun t => t.writeDst (.v 4) true 0xFFFFFFFF#32 fun l => words2 (2 ^ 32 + 4 * l + l % 2)) afar
theorem wit_AccessFaults_held : ∃ c, partly.Issues (.ldW (.v 9) (.v 4) .zero) c ∧
    (faulting partly (.ldW (.v 9) (.v 4) .zero) false c = true ∧ holding partly (.ldW (.v 9) (.v 4) .zero) c = true) :=
  of_meets (by decide +kernel)

/-- OnChipStores, OnChipLoads, OnChipAtomics: accesses of the scratchpad, distinct ones and all to one word. -/
def chipForm (s : State) (i : Instr) (loc : Nat → Nat) (c : Ctx) : Bool :=
  match c.memForm i with
  | some f => f.lanes ≠ [] && (f.lanes.all fun l => f.ea l % f.len == 0 && s.chipAt c.t l (f.ea l) f.len == some (.loc (loc l)))
      && (s.accs.all fun a => a.ter != c.uid) && c.t.flight.isEmpty && c.scope < 5
  | none => false
def spread : State := withV 4 (fun l => 0x80000 + 4 * l) bench
theorem wit_OnChipStores : ∀ i ∈ [Instr.stW (.v 9) (.v 4) .zero, .stl (.v 9) (.v 4) false none], ∃ c, spread.Issues i c ∧
    chipForm spread i (fun l => 2 ^ 60 + 4 * l) c = true := by
  intro i hi
  simp only [List.mem_cons, List.not_mem_nil, or_false] at hi
  rcases hi with rfl | rfl <;> exact of_meets (by decide +kernel)
theorem wit_OnChipLoads : ∃ c, spread.Issues (.ldW (.v 9) (.v 4) .zero) c ∧
    chipForm spread (.ldW (.v 9) (.v 4) .zero) (fun l => 2 ^ 60 + 4 * l) c = true := of_meets (by decide +kernel)
theorem wit_OnChipAtomics : ∀ i ∈ [Instr.amo (.v 9) (.s 0) (.v 8) 6, .cas (.v 9) (.s 0) (.v 8), .red (.s 0) (.v 8) 5],
    ∃ c, atScratch.Issues i c ∧ chipForm atScratch i (fun _ => 2 ^ 60) c = true := by
  intro i hi
  simp only [List.mem_cons, List.not_mem_nil, or_false] at hi
  rcases hi with rfl | rfl | rfl <;> exact of_meets (by decide +kernel)

/-- AccessesComplete: the outstanding load of the scratchpad and the outstanding store through a page, of one lane each. -/
def oneLane (s : State) : State := withGuard 0x80000000#32 s
def loading : State := run (.ldW (.v 9) (.s 0) .zero) (oneLane atScratch)
def storing : State := run (.stW (.v 9) (.s 0) .zero) (oneLane atPage)
def completable (s : State) (a : Access) : Bool :=
  s.access? a.ter a.id == some a && s.mayComplete a 0x80000000#32 && a.errs.isEmpty && s.flaws.isEmpty && s.wbuf.isEmpty
theorem wit_AccessesComplete_load : loading.accs.length = 1 ∧ loading.accs.all (fun a =>
    completable loading a && (match a.kind, a.reqs with
      | .load 4 _ _, [r] => r.lane == 31 && r.page.isNone && r.reg.isNone && r.bound.isNone && r.len == 4
      | _, _ => false) && (loading.ter? a.ter).isSome) = true := by decide +kernel
theorem wit_AccessesComplete_store : storing.accs.length = 1 ∧ storing.accs.all (fun a =>
    completable storing a && (match a.kind, a.reqs with
      | .store _ _, [r] => r.lane == 31 && (match r.page with
          | some ph => ph.owner == .die 0 && (storing.part? a.core a.vf).all fun p => (p.nearLine ph.pa).isNone
          | none => false)
      | _, _ => false)) = true := by decide +kernel

/-- The same on an UPDATE page whose line another core shares, before and after the slice has its bytes. -/
def sharing : State :=
  let s := run (.stW (.v 9) (.s 0) .zero) (oneLane (withPair 0 (2 ^ 32) (pagedAs 0x1D bench)))
  { s with parts := s.parts ++ [{ Part.fresh 1 0 0 15 15 0 4 with lines :=
      [⟨0x4000000, 0, 0x40000000, ⟨1, 0x4000, 0, 0, 0, false, 0, 1, true, true, false, true⟩, .die 0, List.replicate 64 0, none, []⟩] }] }
theorem wit_AccessesComplete_shared : sharing.accs.length = 1 ∧ sharing.accs.all (fun a =>
    completable sharing a && (match a.kind, a.reqs with
      | .store _ _, [r] => r.lane == 31 && sharing.sharedAfar a r && (match r.page with
          | some ph => ph.owner == .die 0 && (sharing.part? a.core a.vf).all fun p => (p.nearLine ph.pa).isNone
          | none => false)
      | _, _ => false)) = true := by decide +kernel
theorem test_update_sharer : (match sharing.accs with
    | [a] => let s := sharing.storeSend a 0x80000000#32
      let due := fun (s : State) => (s.parts.flatMap (·.lines)).map fun l => (l.due.length, l.bytes.take 4)
      let t := match s.accs with | [b] => s.storeAck b 0x80000000#32 | _ => s
      due s == [(1, List.replicate 4 0)] && s.accs.length == 1 && (s.accs.flatMap (·.reqs)).all Req.sent
        && (due t).map (·.1) == [0] && t.accs.isEmpty
    | _ => false) = true := by decide +kernel

/-- BlocksAndPrefetches: LDF, STF, LDA, and PREF of a page and of the scratchpad. -/
def startsAt (s : State) (f : MemForm) (c : Ctx) : Bool :=
  let y := f.run s c
  !s.ownRegBusy c f.lanes f.ea f.len && !y.stay && y.faults.isEmpty && c.t.inFlight (f.path y (f.lanes.headD 0)) < 255
    && !y.reqs.any Req.away
def narrow : State := withPair 0 (2 ^ 32) (withSplit (fun x => { x with mode := 0x100#16 }) (pagedAs 0x10D bench))
theorem wit_ldf : ∃ c, narrow.Issues (.ldf (.v 8) (.s 0) .zero) c ∧ (lowLane c.active = some 0 ∧ c.t.divided = false
    ∧ startsAt narrow ⟨.ldf, .v 8, [0], 64, c.addr (.s 0) .zero, fun _ => 0, fun _ => 0⟩ c = true) := of_meets (by decide +kernel)
theorem wit_stf : ∃ c, narrow.Issues (.stf (.v 8) (.s 0) .zero) c ∧ (lowLane c.active = some 0 ∧ c.t.divided = false
    ∧ controlOk (c.group (.v 8) 3 31) = true
    ∧ startsAt narrow ⟨.stf, .none, [0], 64, c.addr (.s 0) .zero, fun _ => bytesNat (c.stfBlock (.v 8) (c.group (.v 8) 3 31)),
        fun _ => 0⟩ c = true) := of_meets (by decide +kernel)
theorem wit_lda : ∃ c, atPage.Issues (.lda (.v 8) (.s 0) true none) c ∧ (lowLane c.active = some 0 ∧ c.scope < 5
    ∧ (let f : MemForm := ⟨.lda 8 (decide (2 ≤ c.t.effScope c.scope)), .v 8, c.loadLanes (.v 8), 8, c.offAddr (.s 0) none, fun _ => 0, fun _ => 0⟩
       startsAt atPage f c = true ∧ (f.run atPage c).reqs ≠ [] ∧ (f.run atPage c).s.accs = atPage.accs)) :=
  of_meets (by decide +kernel)
theorem wit_pref_page : ∃ c, atPage.Issues (.pref 1 (.s 0) .zero) c ∧ (lowLane c.active = some 0 ∧ c.t.inFlight 0 < 255
    ∧ isGlobal (c.addr (.s 0) .zero 0) = true
    ∧ (match (atPage.reach c.t c.die none ⟨false, false, c.sp.supervisor⟩ (c.addr (.s 0) .zero 0)).2 with
       | .ok q => decide (q.ph.owner ≠ .host)
       | .error _ => false) = true) := of_meets (by decide +kernel)
theorem wit_pref_none : ∃ c, atScratch.Issues (.pref 1 (.s 0) .zero) c ∧ (lowLane c.active = some 0
    ∧ ∀ k ∈ c.lanes, isGlobal (c.addr (.s 0) .zero k) = false) := of_meets (by decide +kernel)

/-- FencesAndRemovals: nothing outstanding; a store outstanding; undelivered writes. -/
theorem wit_fence : ∃ c, bench.Issues (.fence (.s 3) 4) c ∧ (bench.released c.t 4 c.ord = true ∧ bench.returnedAll c.t 4 c.ord = true
    ∧ c.sp.undel.1 = 0) := of_meets (by decide +kernel)
def undelivered : State := withSplit (fun x => { x with undel := (3, 0x123) }) bench
theorem wit_fence_undelivered : ∃ c, undelivered.Issues (.fence .none 4) c ∧ (undelivered.released c.t 4 c.ord = true
    ∧ undelivered.returnedAll c.t 4 c.ord = true ∧ c.sp.undel.1 ≠ 0) := of_meets (by decide +kernel)
theorem wit_acq : ∃ c, bench.Issues (.acq .none 4) c ∧ bench.returnedAll c.t 4 c.ord = true := of_meets (by decide +kernel)
theorem wit_rel : ∃ c, bench.Issues (.rel .none 4) c ∧ bench.released c.t 4 c.ord = true := of_meets (by decide +kernel)
def again (s : State) : State := { s with issue := [(1, 2)] }
theorem wit_rel_waits : ∃ c, (again storing).Issues (.rel .none 4) c ∧ (again storing).released c.t 4 c.ord = false :=
  of_meets (by decide +kernel)
theorem wit_waitp : ∃ c, bench.Issues (.waitp 0 (.imm 0)) c ∧ c.t.inFlight 0 ≤ c.uniAll (.imm 0) := of_meets (by decide +kernel)
theorem wit_waitp_waits : ∃ c, (again storing).Issues (.waitp 0 (.imm 0)) c ∧ c.uniAll (.imm 0) < c.t.inFlight 0 :=
  of_meets (by decide +kernel)
theorem wit_invl : ∃ c, bench.Issues (.invl (.s 0) .zero) c ∧ (bench.part? c.t.core c.t.vf).isSome = true :=
  of_meets (by decide +kernel)

/-- A launch with base count 24 and largest count 64 that the bench's terrace and team belong to. -/
def launchRec : Launch :=
  ⟨5, 0, ⟨0x100000000, 0x100000000#64, 0, 0, 0, 1, 1, 0, 0, 1, 1, 1, 0, 1, 1, 3, 8, 8, 0, false, 0, 64, 0, 0, 0⟩,
    [], [(0, 0)], [], [], [], 0, 0⟩
def launched (s : State) : State :=
  withTer (fun t => { t with launch := 5 })
    { s with launches := [launchRec], teams := s.teams.map fun m => { m with launch := 5 } }

/-- CopyInstructions: a copy of two rows within the scratchpad, and what keeps it from issuing. -/
def copying (n : Nat) : State :=
  withS 0 0x80000 (withS 1 0 (withS 2 64 (withS 4 0x80800 (withS 5 0 (withS 6 64 (withS 8 n bench))))))
def copyOk (s : State) (c : Ctx) : Bool :=
  let r := fun n => (c.rt.sget n).toNat
  r 8 % 16 == 0 && r 8 != 0 && r 8 ≤ 1048576 && c.src64 (.s 0) 0 % 16 == 0 && c.src64 (.s 4) 0 % 16 == 0
    && r 2 % 16 == 0 && r 6 % 16 == 0 && r 8 ≤ r 2 && r 3 == 0 && !s.gated c.t && c.t.inFlight 3 < 255
    && (List.range 2).all fun i => s.rangeOk c.t (c.src64 (.s 0) 0 + i * r 2) (r 8) && s.rangeOk c.t (c.src64 (.s 4) 0 + i * r 6) (r 8)
theorem wit_cp : ∃ c, (copying 64).Issues (.cp 0 4 8 0 0 2) c ∧ (c.active ≠ 0 ∧ copyOk (copying 64) c = true) :=
  of_meets (by decide +kernel)
theorem wit_cp_idle : ∃ c, (withGuard 0 bench).Issues (.cp 0 4 8 0 0 2) c ∧ c.active = 0 := of_meets (by decide +kernel)
theorem wit_cp_refused : ∃ c, (copying 65).Issues (.cp 0 4 8 0 0 2) c ∧ (c.active ≠ 0 ∧ (c.rt.sget 8).toNat % 16 ≠ 0) :=
  of_meets (by decide +kernel)
theorem wit_rqnt : ∃ c, (copying 16777216).Issues (.rqnt 4 8 false 6 16) c ∧ (c.active ≠ 0 ∧ c.src64 (.s 4) 0 % 64 = 0
    ∧ (c.rt.sget 8).toNat ≤ 16777216 ∧ c.t.inFlight 3 < 255) := of_meets (by decide +kernel)
theorem wit_rqnt_idle : ∃ c, (withGuard 0 bench).Issues (.rqnt 4 8 false 6 16) c ∧ c.active = 0 := of_meets (by decide +kernel)
theorem wit_cps : ∃ c, bench.Issues (.cps (.s 3)) c ∧ bench.unsettled c.t < 16 := of_meets (by decide +kernel)
def sealed : State := withS 3 1 (withTer (fun t => { t with lastBatch := 1 }) bench)
theorem wit_cpw : ∃ c, sealed.Issues (.cpw (.s 3)) c ∧ (c.t.lastBatch ≠ 0 ∧ c.uniAll (.s 3) ≠ 0
    ∧ (c.t.lastBatch + 2 ^ 32 - c.uniAll (.s 3)) % 2 ^ 32 < 2 ^ 31 ∧ sealed.batchCmds c.t (c.uniAll (.s 3)) = []) :=
  of_meets (by decide +kernel)

/-- Crossings: an arrival; a terrace that waits; a departure without and with conflicts; before any arrival. -/
def mayArrive (s : State) (k : DomKey) (c : Ctx) : Bool :=
  !c.t.divided && c.t.arrivals k ≤ (s.dom k).crossings && !s.copyOpen c.t k && s.released c.t (domScope k) c.ord
theorem wit_crossa : ∃ c, bench.Issues (.crossa (.s 3)) c ∧ mayArrive bench (c.t.domain 1) c = true := of_meets (by decide +kernel)
theorem wit_cross_waits : ∃ c, bench.Issues (.cross (.s 3)) c ∧ (c.sp.kept = none ∧ mayArrive bench (c.t.domain 1) c = true
    ∧ (bench.dom (c.t.domain 1)).crossings ≤ c.t.arrivals (c.t.domain 1)) := of_meets (by decide +kernel)
theorem wit_phase_waits : ∃ c, bench.Issues (.phase (.v 3)) c ∧ (c.sp.kept = none ∧ mayArrive bench (c.t.domain 0) c = true
    ∧ (bench.dom (c.t.domain 0)).crossings ≤ c.t.arrivals (c.t.domain 0)) := of_meets (by decide +kernel)
def crossed (nconf : Nat) : State :=
  withTer (fun t => { t with crossArr := 1 }) (withSplit (fun x => { x with kept := some (1, 1) })
    (bench.setDom (.solo 1) { bench.dom (.solo 1) with count := 1, crossings := 1, nconf := nconf, started := 1 }))
theorem wit_cross_departs : ∃ c, (crossed 0).Issues (.cross (.s 3)) c ∧ (c.t.divided = false ∧ c.sp.kept = some (1, 1)
    ∧ c.t.parted = none ∧ 1 ≤ ((crossed 0).dom (c.t.domain 1)).crossings
    ∧ (crossed 0).returnedAll c.t (domScope (c.t.domain 1)) c.ord = true ∧ ((crossed 0).dom (c.t.domain 1)).nconf = 0) :=
  of_meets (by decide +kernel)
theorem wit_cross_conflict : ∃ c, (crossed 2).Issues (.cross .none) c ∧ (c.t.divided = false ∧ c.sp.kept = some (1, 1)
    ∧ c.t.parted = none ∧ 1 ≤ ((crossed 2).dom (c.t.domain 1)).crossings
    ∧ (crossed 2).returnedAll c.t (domScope (c.t.domain 1)) c.ord = true ∧ ((crossed 2).dom (c.t.domain 1)).nconf ≠ 0) :=
  of_meets (by decide +kernel)
theorem wit_crossw_departs : ∃ c, (crossed 0).Issues (.crossw (.s 3)) c ∧ (c.t.divided = false ∧ c.t.parted = none
    ∧ c.t.arrivals (c.t.domain 1) ≠ 0 ∧ c.t.arrivals (c.t.domain 1) ≤ ((crossed 0).dom (c.t.domain 1)).crossings
    ∧ (crossed 0).returnedAll c.t (domScope (c.t.domain 1)) c.ord = true) := of_meets (by decide +kernel)
theorem wit_crossw_none : ∃ c, bench.Issues (.crossw (.s 3)) c ∧ (c.t.divided = false ∧ c.t.parted = none
    ∧ c.t.arrivals (c.t.domain 1) = 0) := of_meets (by decide +kernel)

/-- GangInstructions: an unbinding, a binding of an entry at a page, addresses that cannot hold one, a request for a width. -/
theorem wit_gset_none : ∃ c, bench.Issues (.gset (.s 3) .zero) c ∧ (bench.gated c.t = false
    ∧ (match bench.gset c none with | (_, .status _) => true | _ => false) = true) := of_meets (by decide +kernel)
theorem wit_gset_entry : ∃ c, atPage.Issues (.gset (.s 3) (.s 0)) c ∧ (atPage.gated c.t = false ∧ c.base (.s 0) 0 % 256 = 0
    ∧ isGlobal (c.base (.s 0) 0) = true
    ∧ (match atPage.translate c.t.vf c.die (some c.t.core) ⟨true, false, c.sp.supervisor⟩ (c.base (.s 0) 0) with
       | (s1, .ok ph) => ph.leaf.cls == clsUntracked && !ph.leaf.fmt
           && (match s1.gset c (some (c.base (.s 0) 0)) with | (_, .status _) => true | _ => false)
       | _ => false) = true) := of_meets (by decide +kernel)
theorem wit_gset_misplaced : ∃ c, (withPair 0 (2 ^ 32 + 64) bench).Issues (.gset (.s 3) (.s 0)) c ∧
    (bench.gated c.t = false ∧ c.base (.s 0) 0 % 256 ≠ 0) := of_meets (by decide +kernel)
theorem wit_gset_window : ∃ c, atScratch.Issues (.gset (.s 3) (.s 0)) c ∧
    (atScratch.gated c.t = false ∧ isGlobal (c.base (.s 0) 0) = false) := of_meets (by decide +kernel)
theorem wit_gwid : ∃ c, bench.Issues (.gwid (.s 3) (.imm 64)) c ∧ bench.gated c.t = false := of_meets (by decide +kernel)

/-- QuartersAndGrowth. -/
def quarter (m j a phase : Nat) : Quarter := ⟨9, 7#32, 0, 0, m, j, a, phase⟩
def quartered (m j a phase : Nat) (s : State) : State := { s with quarters := [quarter m j a phase] }
def inQuarter (s : State) : State := withTer (fun t => { t with quarter := some 9 }) s
def joins (s : State) (c : Ctx) : Bool :=
  !c.t.divided && c.t.quarter.isNone && c.uniAll (.s 4) != 0xFFFFFFFF && 1 ≤ c.uniAll (.imm 65535) && c.uniAll (.imm 65535) ≤ 65535
    && c.uniAll (.s 4) == 7
    && (s.quarters.filter fun x => x.launch == c.t.launch && x.die == c.die).length < 1024
theorem wit_join_new : ∃ c, (withS 4 7 bench).Issues (.join (.s 4) (.imm 65535)) c ∧ joins (withS 4 7 bench) c = true :=
  of_meets (by decide +kernel)
theorem wit_join_member : ∃ c, (quartered 65535 65534 0 0 (withS 4 7 bench)).Issues (.join (.s 4) (.imm 65535)) c ∧
    joins (quartered 65535 65534 0 0 (withS 4 7 bench)) c = true := of_meets (by decide +kernel)
theorem wit_join_full : ∃ c, (quartered 65535 65535 0 0 (withS 4 7 bench)).Issues (.join (.s 4) (.imm 65535)) c ∧
    joins (quartered 65535 65535 0 0 (withS 4 7 bench)) c = true := of_meets (by decide +kernel)
theorem wit_leave : ∃ c, bench.Issues .leave c ∧ c.t.divided = false := of_meets (by decide +kernel)
theorem wit_leave_divided : ∃ c, (twoSplits bench).Issues .leave c ∧ c.t.divided = true := of_meets (by decide +kernel)
theorem wit_qbar_alone : ∃ c, bench.Issues .qbar c ∧ (c.t.divided = false ∧ c.t.quarter = none ∧ bench.released c.t 1 c.ord = true
    ∧ bench.returnedAll c.t 1 c.ord = true) := of_meets (by decide +kernel)
theorem wit_qbar_waits : ∃ c, (inQuarter (quartered 2 2 0 0 bench)).Issues .qbar c ∧ (c.t.divided = false ∧ c.t.quarter = some 9
    ∧ c.t.arrived = none ∧ (inQuarter (quartered 2 2 0 0 bench)).released c.t 2 c.ord = true
    ∧ (Quarter.settle { quarter 2 2 0 0 with a := 1 }).phase ≤ 0) := of_meets (by decide +kernel)
def departing : State := withTer (fun t => { t with arrived := some 0 }) (inQuarter (quartered 2 2 0 1 bench))
theorem wit_qbar_departs : ∃ c, departing.Issues .qbar c ∧ (c.t.divided = false ∧ c.t.quarter = some 9 ∧ c.t.arrived = some 0
    ∧ 0 < (quarter 2 2 0 1).phase ∧ departing.returnedAll c.t 2 c.ord = true) := of_meets (by decide +kernel)
theorem wit_rgrow_none : ∃ c, (launched bench).Issues (.rgrow (.imm 24)) c ∧ (c.t.divided = false ∧ c.uniAll (.imm 24) % 8 = 0
    ∧ c.uniAll (.imm 24) ≤ (launched bench).maxRegs c.t ∧ c.uniAll (.imm 24) ≤ c.t.nregs) := of_meets (by decide +kernel)
theorem wit_rgrow : ∃ c, (launched bench).Issues (.rgrow (.imm 64)) c ∧ (c.t.divided = false ∧ c.uniAll (.imm 64) % 8 = 0
    ∧ c.uniAll (.imm 64) ≤ (launched bench).maxRegs c.t ∧ c.t.nregs < c.uniAll (.imm 64)
    ∧ (launched bench).baseRegs c.t < c.t.nregs) := of_meets (by decide +kernel)
theorem wit_rshrink_none : ∃ c, (launched bench).Issues (.rshrink (.imm 40)) c ∧ (c.t.divided = false
    ∧ c.uniAll (.imm 40) % 8 = 0 ∧ (launched bench).baseRegs c.t ≤ c.uniAll (.imm 40) ∧ c.t.nregs ≤ c.uniAll (.imm 40)) :=
  of_meets (by decide +kernel)
theorem wit_rshrink : ∃ c, (launched bench).Issues (.rshrink (.imm 24)) c ∧ (c.t.divided = false ∧ c.uniAll (.imm 24) % 8 = 0
    ∧ (launched bench).baseRegs c.t ≤ c.uniAll (.imm 24) ∧ c.uniAll (.imm 24) < c.t.nregs) := of_meets (by decide +kernel)

/-- Alleys: an alley of 8 in the scratchpad, empty or with one handle, with no sender, or this one and its allowance. -/
def alleyed (tail snd : Nat) : State := withMem (2 ^ 60 + 64) 4 0x40 (withMem (2 ^ 60) 64 (8 + tail * 2 ^ 64 + snd * 2 ^ 128) bench)
def alleyRead (s : State) (c : Ctx) : Bool := match s.alleyAt c.t 0x80000 with | .ok x => x == 2 ^ 60 | _ => false
def popsNow (s : State) (c : Ctx) : Bool :=
  alleyRead s c && c.sp.kept.isNone && (s.popQueue (2 ^ 60)).isEmpty && (s.alleyPop (2 ^ 60)).2.returnedAll c.t 3 c.ord
    && c.uniAll (.imm 0x80000) == 0x80000
theorem wit_aopen_again : ∃ c, (alleyed 0 0x8000).Issues (.aopen (.imm 0x80000)) c ∧ (alleyRead (alleyed 0 0x8000) c = true
    ∧ (((alleyed 0 0x8000).alley (2 ^ 60)).record c.t.sender c.t.ter).isSome = true) := of_meets (by decide +kernel)
theorem wit_aopen : ∃ c, (alleyed 0 0).Issues (.aopen (.imm 0x80000)) c ∧ (alleyRead (alleyed 0 0) c = true
    ∧ ((alleyed 0 0).alley (2 ^ 60)).record c.t.sender c.t.ter = none
    ∧ ((List.range 8).find? fun i => !sndUsed (((alleyed 0 0).alley (2 ^ 60)).snd.getD i 0)) = some 0) := of_meets (by decide +kernel)
theorem wit_apop : ∃ c, (alleyed 1 0x8000).Issues (.apop (.s 4) (.imm 0x80000)) c ∧ (popsNow (alleyed 1 0x8000) c = true
    ∧ ((alleyed 1 0x8000).alley (2 ^ 60)).empty = false) := of_meets (by decide +kernel)
theorem wit_apop_waits : ∃ c, (alleyed 0 0x8000).Issues (.apop (.s 4) (.imm 0x80000)) c ∧ (alleyRead (alleyed 0 0x8000) c = true
    ∧ c.sp.kept = none ∧ ((alleyed 0 0x8000).alley (2 ^ 60)).empty = true) := of_meets (by decide +kernel)
theorem wit_atry_empty : ∃ c, (alleyed 0 0x8000).Issues (.atry (.s 4) (.imm 0x80000)) c ∧ (alleyRead (alleyed 0 0x8000) c = true
    ∧ c.sp.kept = none ∧ ((alleyed 0 0x8000).alley (2 ^ 60)).empty = true) := of_meets (by decide +kernel)
theorem wit_atry : ∃ c, (alleyed 1 0x8000).Issues (.atry (.s 4) (.imm 0x80000)) c ∧ (popsNow (alleyed 1 0x8000) c = true
    ∧ ((alleyed 1 0x8000).alley (2 ^ 60)).empty = false) := of_meets (by decide +kernel)
theorem wit_apush : ∃ c, (alleyed 0 0x18000).Issues (.apush (.imm 0x80000) (.s 5)) c ∧ (alleyRead (alleyed 0 0x18000) c = true
    ∧ ((alleyed 0 0x18000).alley (2 ^ 60)).record c.t.sender c.t.ter = some 0 ∧ (alleyed 0 0x18000).released c.t 3 c.ord = true
    ∧ sndAllow (((alleyed 0 0x18000).alley (2 ^ 60)).snd.getD 0 0) ≠ 0) := of_meets (by decide +kernel)
theorem wit_apush_waits : ∃ c, (alleyed 0 0x8000).Issues (.apush (.imm 0x80000) (.s 5)) c ∧ (alleyRead (alleyed 0 0x8000) c = true
    ∧ ((alleyed 0 0x8000).alley (2 ^ 60)).record c.t.sender c.t.ter = some 0 ∧ (alleyed 0 0x8000).released c.t 3 c.ord = true
    ∧ sndAllow (((alleyed 0 0x8000).alley (2 ^ 60)).snd.getD 0 0) = 0) := of_meets (by decide +kernel)
theorem wit_apush_unopened : ∃ c, (alleyed 0 0).Issues (.apush (.imm 0x80000) (.s 5)) c ∧ (alleyRead (alleyed 0 0) c = true
    ∧ ((alleyed 0 0).alley (2 ^ 60)).record c.t.sender c.t.ter = none) := of_meets (by decide +kernel)

/-- Signals: a decrement, and waits that are met and not. -/
def signalOf (s : State) (write : Bool) (c : Ctx) : Bool :=
  match s.signalAt c.t.vf c.die (some c.t) ⟨write, false, c.sp.supervisor⟩ (c.src64 (.s 0) 0) with
  | (s1, .ok ph) => ph.owner == .die 0 && !(s1.meetMem c.t.vf ph.pa 8).2
  | _ => false
def counted (n : Nat) : State := withMem 0x40000000 8 n atPage
theorem wit_sigdec : ∃ c, (counted 3).Issues (.sigdec false 0 (.imm 1)) c ∧ (c.active ≠ 0 ∧ c.sp.undel.1 = 0
    ∧ signalOf (counted 3) true c = true ∧ (counted 3).released c.t 7 c.ord = true ∧ c.t.inFlight 0 < 255) := of_meets (by decide +kernel)
theorem wit_sigwait : ∃ c, (counted 3).Issues (.sigwait (.s 4) 0 (.imm 3)) c ∧ (c.active ≠ 0 ∧ c.sp.kept = none
    ∧ signalOf (counted 3) false c = true ∧ signalMet ((counted 3).rdNat 0x40000000 8) (c.uniAll (.imm 3)) = true
    ∧ (counted 3).returnedAll c.t 7 c.ord = true) := of_meets (by decide +kernel)
theorem wit_sigwait_waits : ∃ c, (counted 3).Issues (.sigwait (.s 4) 0 (.imm 2)) c ∧ (c.active ≠ 0 ∧ c.sp.kept = none
    ∧ signalOf (counted 3) false c = true ∧ signalMet ((counted 3).rdNat 0x40000000 8) (c.uniAll (.imm 2)) = false) :=
  of_meets (by decide +kernel)
theorem wit_signal_idle : ∀ i ∈ [Instr.sigdec true 0 (.imm 1), .sigwait (.s 4) 0 (.imm 0)], ∃ c, (withGuard 0 bench).Issues i c ∧
    c.active = 0 := by
  intro i hi
  simp only [List.mem_cons, List.not_mem_nil, or_false] at hi
  rcases hi with rfl | rfl <;> exact of_meets (by decide +kernel)

/-- BarrierObjects: an object of two at the start of the scratchpad, in phase 0 or 1. -/
def barred (v : Nat) : State := withMem (2 ^ 60) 16 v bench
def objectAt (s : State) (c : Ctx) : Bool :=
  (match s.barrierAt c.t 0x80000 with | .ok x => x == 2 ^ 60 | _ => false) && c.scope < 5 && c.uniAll (.imm 0x80000) == 0x80000
    && !s.meetChip (2 ^ 60) 16
theorem wit_abinit : ∃ c, (withS 6 65535 bench).Issues (.abinit 6 (.imm 0x80000)) c ∧ (objectAt bench c = true
    ∧ 1 ≤ (c.rt.sget 6).toNat ∧ (c.rt.sget 6).toNat ≤ 65535) := of_meets (by decide +kernel)
theorem wit_abinit_none : ∃ c, bench.Issues (.abinit 6 (.imm 0x80000)) c ∧ (objectAt bench c = true ∧ (c.rt.sget 6).toNat = 0) :=
  of_meets (by decide +kernel)
theorem wit_abarv : ∃ c, (barred 2).Issues (.abarv (.s 7) (.imm 0x80000)) c ∧ (objectAt (barred 2) c = true
    ∧ (barred 2).released c.t c.scope c.ord = true) := of_meets (by decide +kernel)
theorem wit_abwait : ∃ c, (barred (2 + 2 ^ 64)).Issues (.abwait (.s 7) (.imm 0x80000)) c ∧ (objectAt (barred (2 + 2 ^ 64)) c = true
    ∧ phasePassed ((barred (2 + 2 ^ 64)).rdNat (2 ^ 60 + 8) 4) (c.uniAll (.s 7)) = true
    ∧ (barred (2 + 2 ^ 64)).returnedAll c.t c.scope c.ord = true) := of_meets (by decide +kernel)
theorem wit_abwait_waits : ∃ c, (barred 2).Issues (.abwait (.s 7) (.imm 0x80000)) c ∧ (objectAt (barred 2) c = true
    ∧ phasePassed ((barred 2).rdNat (2 ^ 60 + 8) 4) (c.uniAll (.s 7)) = false) := of_meets (by decide +kernel)

/-- GroupsAndCollectives: a record at a page, read whole and valid; an empty one; a misaligned one; the parts of a round. -/
def recorded (bytes : Nat) : State := withMem 0x40000000 18 bytes (launched atPage)
def records (s : State) (c : Ctx) : Option (Nat × Option (Nat × List Nat)) :=
  let e := Eng.ofTer c.t c.sp.supervisor s.fresh
  match s.recordBytesOf e c.sp.gets (c.base (.s 0) 0) 8 with
  | some (s1, g, .bytes hd) => match s1.recordBytesOf e g (c.base (.s 0) 0 + 16) (fieldOf hd 8 2) with
    | some (_, _, .bytes r) => some (fieldOf hd 8 2, groupOf (hd ++ r))
    | _ => none
  | _ => none
theorem wit_cgbind : ∃ c, (recorded (9 + 2 ^ 64)).Issues (.cgbind 7 (.s 0)) c ∧ (c.base (.s 0) 0 % 16 = 0
    ∧ records (recorded (9 + 2 ^ 64)) c = some (1, some (9, [0]))) := of_meets (by decide +kernel)
theorem wit_cgbind_invalid : ∃ c, (recorded (2 ^ 64)).Issues (.cgbind 7 (.s 0)) c ∧ (c.base (.s 0) 0 % 16 = 0
    ∧ records (recorded (2 ^ 64)) c = some (1, none)) := of_meets (by decide +kernel)
theorem wit_cgbind_empty : ∃ c, (recorded 9).Issues (.cgbind 7 (.s 0)) c ∧ (c.base (.s 0) 0 % 16 = 0
    ∧ (records (recorded 9) c).map (·.1) = some 0) := of_meets (by decide +kernel)
theorem wit_cgbind_misaligned : ∃ c, bench.Issues (.cgbind 7 (.imm 0x80008)) c ∧ (0x80008 % 16 ≠ 0) := of_meets (by decide +kernel)
def grouped : State :=
  withS 0 0x55 (withS 1 0x80000 { launched (benchIn 0x100#16) with groups := [⟨0x55, 5, 0, 9, [0], []⟩] })
def collReady (s : State) (tile : Tile) (kind red : Nat) (c : Ctx) : Bool :=
  !c.t.divided && c.active != 0 && s.slotHeld c.t 0 && !s.roundBusy (c.t.slot 0) && !s.claimed c.t 0
    && s.released c.t 2 c.ord && (s.collArgs c tile kind red 0).isSome
def groupedTile : State := withS 2 64 (withS 3 0x80C00 (withS 6 0x80800 grouped))
theorem wit_coll : ∀ x ∈ [(Instr.collAllreduce (.acc 0) 0 0, 0, 0), (.collReducescatter (.acc 0) 0 1, 1, 1),
    (.collBroadcast (.acc 0) 0, 3, 0)], ∃ c, grouped.Issues x.1 c ∧ collReady grouped (.acc 0) x.2.1 x.2.2 c = true := by
  intro i hi
  simp only [List.mem_cons, List.not_mem_nil, or_false] at hi
  rcases hi with rfl | rfl | rfl <;> exact of_meets (by decide +kernel)
theorem wit_coll_tile : ∀ x ∈ [(Instr.collAllgather (.s 6) 0, 2), (.collAlltoall (.s 6) 0, 4)],
    ∃ c, groupedTile.Issues x.1 c ∧ collReady groupedTile (.s 6) x.2 0 c = true := by
  intro i hi
  simp only [List.mem_cons, List.not_mem_nil, or_false] at hi
  rcases hi with rfl | rfl <;> exact of_meets (by decide +kernel)
theorem wit_coll_refused : ∃ c, bench.Issues (.collBroadcast (.acc 0) 0) c ∧ (c.t.divided = false ∧ c.active ≠ 0
    ∧ bench.slotHeld c.t 0 = true ∧ bench.collArgs c (.acc 0) 3 0 0 = none) := of_meets (by decide +kernel)
theorem wit_coll_idle : ∃ c, (withGuard 0 bench).Issues (.collBroadcast (.acc 0) 0) c ∧ (c.t.divided = false ∧ c.active = 0) :=
  of_meets (by decide +kernel)

/-- MatrixInstructions: a first issue with no handle, with one of each operand, and with two of one alley; a resumed one. -/
def slotFree (s : State) (n : Nat) (c : Ctx) : Bool :=
  !c.t.divided && s.slotHeld c.t n && !s.roundBusy (c.t.slot n) && !s.claimed c.t n
def handled (q : Nat) : State := withS q 0x80000 (withMem (2 ^ 60 + 68) 4 0x80 (alleyed 2 0))
def handleAt (s : State) (q k : Nat) (c : Ctx) : Bool :=
  match s.popLook c q k with | .handle x h => x == 2 ^ 60 && h % 64 == 0 && s.returnedAll c.t 3 c.ord | _ => false
theorem wit_mma : ∃ c, bench.Issues (.mma 1 0 4 128 128 4 false false) c ∧ (slotFree bench 1 c = true ∧ c.active ≠ 0
    ∧ quadOk c.rt 0 false = true ∧ quadOk c.rt 4 false = true ∧ bench.resumes c.t 1 0x68 = false) := of_meets (by decide +kernel)
theorem wit_mma_a : ∃ c, (handled 0).Issues (.mma 1 0 4 128 128 4 true false) c ∧ (slotFree (handled 0) 1 c = true ∧ c.active ≠ 0
    ∧ quadOk c.rt 0 true = true ∧ quadOk c.rt 4 false = true ∧ (handled 0).resumes c.t 1 0x68 = false
    ∧ handleAt (handled 0) 0 0 c = true) := of_meets (by decide +kernel)
theorem wit_mma_b : ∃ c, (handled 4).Issues (.mma 1 0 4 128 128 4 false true) c ∧ (slotFree (handled 4) 1 c = true ∧ c.active ≠ 0
    ∧ quadOk c.rt 0 false = true ∧ quadOk c.rt 4 true = true ∧ (handled 4).resumes c.t 1 0x68 = false
    ∧ handleAt (handled 4) 4 0 c = true) := of_meets (by decide +kernel)
def bothHandled : State := withS 4 0x80000 (handled 0)
theorem wit_mma_both : ∃ c, bothHandled.Issues (.mma 1 0 4 128 128 4 true true) c ∧ (slotFree bothHandled 1 c = true ∧ c.active ≠ 0
    ∧ c.rt.sVal 0 = c.rt.sVal 4 ∧ bothHandled.resumes c.t 1 0x68 = false ∧ handleAt bothHandled 0 0 c = true
    ∧ handleAt bothHandled 4 1 c = true) := of_meets (by decide +kernel)
def resumed (n opc : Nat) : State :=
  { bench with progress := [(n, { Prog.init with act := true, opc := opc, uid := 1 })] }
theorem wit_mma_resumes : ∃ c, (resumed 1 0x68).Issues (.mma 1 0 4 128 128 4 false false) c ∧
    (slotFree (resumed 1 0x68) 1 c = true ∧ (resumed 1 0x68).resumes c.t 1 0x68 = true) := of_meets (by decide +kernel)
def patterned : State := withV 12 (fun _ => 0x44444444) bench
theorem wit_mmas : ∃ c, patterned.Issues (.mmas 0 12 0 4 128 128 2 3 false false) c ∧ (slotFree patterned 0 c = true ∧ c.active ≠ 0
    ∧ (∀ g, g < 60 → (keptOf (patternOf c.rt 12 3) g).1 < (keptOf (patternOf c.rt 12 3) g).2)
    ∧ patterned.resumes c.t 0 0x69 = false) := of_meets (by decide +kernel)
/-- A pattern whose first 15 groups alone are in order, over a B block of the 16-bit class and over one that is not there. -/
def fewGroups (x : Nat) : State :=
  withS 4 x (withMem (2 ^ 60) 1 0x20 (withV 12 (fun l => if l == 24 || l == 25 then 0x44444444 else 0) bench))
def fewGroupsOk (s : State) (c : Ctx) : Bool :=
  slotFree s 0 c && c.active != 0 && s.firstB c 0 0 4 false false == some (c.rt.sVal 4) && !patternBad (patternOf c.rt 12 3) 15
    && !s.resumes c.t 0 0x69
theorem wit_mmas_class : ∃ c, (fewGroups 0x80000).Issues (.mmas 0 12 0 4 128 128 2 3 false false) c ∧ (fewGroupsOk (fewGroups 0x80000) c = true
    ∧ (match (fewGroups 0x80000).peekClass c (c.rt.sVal 4) with
       | .ok s1 cls => s1 == fewGroups 0x80000 && max 15 (classCap cls / 2) == 15
       | _ => false) = true) := of_meets (by decide +kernel)
theorem wit_mmas_fault : ∃ c, (fewGroups 0).Issues (.mmas 0 12 0 4 128 128 2 3 false false) c ∧ (fewGroupsOk (fewGroups 0) c = true
    ∧ (match (fewGroups 0).peekClass c (c.rt.sVal 4) with | .fault .. => true | _ => false) = true) := of_meets (by decide +kernel)
def shaped : State :=
  withS 3 0x80000 (withMem (2 ^ 60) 32 (1 + 2 ^ 16 + 2 ^ 32 + 2 * 2 ^ 48 + 2 * 2 ^ 56 + 2 ^ 64 + 2 ^ 72 + 2 ^ 80 + 2 ^ 88 + 2 ^ 96
    + 64 * 2 ^ 128) bench)
theorem wit_mmac : ∃ c, shaped.Issues (.mmac 1 0 4 64 32 4 false) c ∧ (slotFree shaped 1 c = true ∧ c.active ≠ 0
    ∧ c.rt.sPair 0 % 64 = 0 ∧ c.rt.sVal 3 % 32 = 0 ∧ 0x80000 ≤ c.rt.sVal 3 ∧ c.rt.sVal 3 + 32 ≤ 0x100000
    ∧ (match shaped.tileRead (tileEng c.t c.sp shaped.fresh) false 0 (c.rt.sVal 3) 32 with
       | .ok s1 bs => s1 == shaped && shapeOk bs 4
       | _ => false) = true) := of_meets (by decide +kernel)

/-- SlotInstructions. -/
theorem wit_macz : ∃ c, bench.Issues (.macz 3) c ∧ (slotFree bench 3 c = true ∧ c.active ≠ 0) := of_meets (by decide +kernel)
theorem wit_macwr : ∃ c, bench.Issues (.macwr 8 (.imm 127) 3) c ∧ (slotFree bench 3 c = true ∧ c.uni (.imm 127) ≤ 127) :=
  of_meets (by decide +kernel)
theorem wit_macwr_beyond : ∃ c, bench.Issues (.macwr 8 (.imm 128) 3) c ∧ (slotFree bench 3 c = true ∧ 127 < c.uni (.imm 128)) :=
  of_meets (by decide +kernel)
theorem wit_macld : ∃ c, bench.Issues (.macld 3 0 (.imm 64)) c ∧ (slotFree bench 3 c = true ∧ c.active ≠ 0
    ∧ macAddr c.t 0 (.imm 64) % 64 = 0) := of_meets (by decide +kernel)
theorem wit_macst : ∃ c, bench.Issues (.macst 3 0 (.imm 64)) c ∧ (slotFree bench 3 c = true ∧ c.active ≠ 0
    ∧ macAddr c.t 0 (.imm 64) % 64 = 0 ∧ bench.storeGated c (macAddr c.t 0 (.imm 64)) 65536 = false) := of_meets (by decide +kernel)
def areas (p len : Nat) : State := withS 3 p (withS 2 len bench)
theorem wit_ackpt : ∃ c, (areas 0x3FFFC0 65536).Issues (.ackpt (.s 3) (.s 2) 3) c ∧ (slotFree (areas 0x3FFFC0 65536) 3 c = true
    ∧ c.active ≠ 0 ∧ 0x200000 ≤ c.uni (.s 3) ∧ c.uni (.s 3) < 0x400000 ∧ c.uni (.s 3) % 64 = 0 ∧ c.uni (.s 2) % 64 = 0
    ∧ c.uni (.s 2) ≠ 0 ∧ c.uni (.s 2) ≤ 65536) := of_meets (by decide +kernel)
theorem wit_acrst : ∃ c, (areas 0x80000 64).Issues (.acrst (.s 3) (.s 2) 3) c ∧ (slotFree (areas 0x80000 64) 3 c = true
    ∧ c.active ≠ 0 ∧ 0x80000 ≤ c.uni (.s 3) ∧ c.uni (.s 3) < 0x100000 ∧ c.uni (.s 3) % 64 = 0 ∧ c.uni (.s 2) % 64 = 0
    ∧ c.uni (.s 2) ≠ 0) := of_meets (by decide +kernel)
def epilogue : State := withS 12 0xFFFFFFFF (withS 13 0x80000 bench)
theorem wit_mepi : ∃ c, epilogue.Issues (.mepi 1 8 12 128 128 2 6 false 0 0) c ∧ (slotFree epilogue 1 c = true ∧ c.active ≠ 0
    ∧ c.rt.sPair 8 % tgtSize 2 = 0 ∧ c.rt.sVal 10 % tgtSize 2 = 0 ∧ c.rt.sVal 12 = 0xFFFFFFFF ∧ c.rt.sVal 13 % 4 = 0 ∧ c.rt.sVal 11 = 0
    ∧ (match (epilogue.vecOf c (c.rt.sVal 12) 128).andThen fun s r =>
          (s.vecOf c (c.rt.sVal 13) 128).andThen fun s k => .ok s (r ++ k) with
       | .ok s1 vec => s1 == epilogue && vec.length == 256
       | _ => false) = true ∧ c.t.gang = none) := of_meets (by decide +kernel)
def folding : State := withS 9 0x80008 bench
theorem wit_attc : ∃ c, folding.Issues (.attc true true 3 8) c ∧ (slotFree folding 3 c = true ∧ c.active ≠ 0
    ∧ c.rt.sVal 10 < 2 ^ 23 ∧ bitsOf (c.rt.sVal 10) 22 15 + 1 ≤ 128 ∧ areaWindow (c.rt.sVal 9) 1 = true ∧ c.rt.sVal 9 % 8 = 0
    ∧ slotsFor 3 (bitsOf (c.rt.sVal 10) 22 15 + 1) = [3]) := of_meets (by decide +kernel)

/-- ListsAndAttention: an empty list at a page of this module, and one at a page of another module whose bytes have come. -/
def listed (s : State) (write : Bool) (va : Nat) (c : Ctx) (away : Bool := false) : Bool :=
  va % 64 == 0 && c.scope < 5 && !s.gated c.t && s.released c.t c.scope c.ord && !c.t.divided && c.active != 0
    && (match s.listParts c write va with
      | (s0, .ok ps) => (ps.all fun p => !s0.engBusy (Eng.ofTer c.t c.sp.supervisor s0.fresh) true p.q.ph.pa p.len) && !s0.listBusy c ps
          && (ps.any ListPart.away == away)
          && (match s0.listRead c va ps with | (_, _, .bytes raw) => (parseKv raw).isSome | _ => false)
      | _ => false)
theorem wit_kvap : ∃ c, atPage.Issues (.kvap (.s 8) 0 4) c ∧ listed atPage true (c.src64 (.s 0) 0) c = true := of_meets (by decide +kernel)
theorem wit_kvtr : ∃ c, atPage.Issues (.kvtr (.s 8) 0 4) c ∧ listed atPage true (c.src64 (.s 0) 0) c = true := of_meets (by decide +kernel)
theorem wit_kvrd : ∃ c, atPage.Issues (.kvrd (.v 8) 0 (.imm 32)) c ∧ (listed atPage false (c.src64 (.s 0) 0) c = true
    ∧ kvOffset (c.uni (.imm 32)) = some 816) := of_meets (by decide +kernel)
theorem wit_kvrd_beyond : ∃ c, atPage.Issues (.kvrd (.v 8) 0 (.imm 33)) c ∧ 32 < c.uni (.imm 33) := of_meets (by decide +kernel)
def exchanged (v : Nat) : State :=
  { withSplit (fun x => { x with kept := some (2, 9) }) afar with answers := [(9, .val v)] }
theorem wit_kvap_away : ∃ c, afar.Issues (.kvap (.s 8) 0 4) c ∧ (listed afar true (c.src64 (.s 0) 0) c true = true
    ∧ c.sp.kept = none ∧ (kvAppend (List.replicate 832 0) (c.src64 (.s 4) 0) (c.rt.sget 6).toNat (c.rt.sget 7).toNat).2.isSome = true) :=
  of_meets (by decide +kernel)
theorem wit_kvtr_away : ∃ c, (exchanged 1).Issues (.kvtr (.s 8) 0 4) c ∧ (listed (exchanged 1) true (c.src64 (.s 0) 0) c true = true
    ∧ c.sp.kept = some (2, 9) ∧ ((exchanged 1).takeAnswer 9).map (·.2) = some (.val 1)
    ∧ (kvTruncate (List.replicate 832 0) (c.src64 (.s 4) 0)).2.isSome = true) := of_meets (by decide +kernel)
theorem wit_kv_idle : ∀ i ∈ [Instr.kvap (.s 8) 0 4, .kvtr (.s 8) 0 4], ∃ c, (withGuard 0 bench).Issues i c ∧
    (c.t.divided = false ∧ c.active = 0) := by
  intro i hi
  simp only [List.mem_cons, List.not_mem_nil, or_false] at hi
  rcases hi with rfl | rfl <;> exact of_meets (by decide +kernel)
theorem wit_kvrd_idle : ∃ c, (withGuard 0 bench).Issues (.kvrd (.v 8) 0 (.imm 33)) c ∧ c.active = 0 := of_meets (by decide +kernel)
def attending : State := withPair 4 (2 ^ 32) (withS 7 0x80000 (paged bench))
theorem wit_attn : ∃ c, attending.Issues (.attn 0 0 4 128 128 1 5 1 1 false true) c ∧
    (listed attending false (c.rt.sPair 4) c = true ∧ c.t.gang = none ∧ c.rt.sPair 0 % 64 = 0 ∧ c.rt.sVal 2 % 64 = 0
    ∧ c.rt.sVal 7 % 64 = 0 ∧ areaWindow (c.rt.sVal 7) (AttnForm.areaBytes ⟨0, 0, 4, 128, 128, 1, chunkLen 5, 1, 1, false, true⟩) = true
    ∧ AttnForm.slots ⟨0, 0, 4, 128, 128, 1, chunkLen 5, 1, 1, false, true⟩ = []) := of_meets (by decide +kernel)

/-- SystemInstructions. -/
def manager : State := inHandler (bench.setTenant 0 { bench.tenant 0 with policy := 8#32 })
theorem wit_xreq : ∃ c, (inHandler bench).Issues (.syXreqWrite (.imm 1)) c ∧ (c.sp.frame.isSome = true
    ∧ c.uniAll (.imm 1) < 2 ∧ c.active ≠ 0) := of_meets (by decide +kernel)
theorem wit_xreq_idle : ∃ c, (inHandler (withGuard 0 bench)).Issues (.syXreqWrite (.imm 1)) c ∧ (c.sp.frame.isSome = true
    ∧ c.uniAll (.imm 1) < 2 ∧ c.active = 0) := of_meets (by decide +kernel)
def shooting (kept : Option (Nat × Nat)) : State :=
  withSplit (fun x => { x with kept := kept }) (inHandler (withPair 4 (2 ^ 32) bench))
def wholePages (c : Ctx) : Bool :=
  c.base (.s 4) 0 % 65536 == 0 && 1 ≤ c.uniAll (.imm 16) && c.uniAll (.imm 16) ≤ 2 ^ 24
    && c.base (.s 4) 0 + c.uniAll (.imm 16) * 65536 ≤ 2 ^ 48 && !c.t.divided && c.sp.frame.isSome && lowLane c.active == some 0
theorem wit_shoot : ∃ c, (shooting none).Issues (.shoot 4 (.imm 16)) c ∧ (wholePages c = true ∧ c.sp.kept = none
    ∧ (shooting none).released c.t 4 c.ord = true ∧ ((shooting none).shootArrive c).shootTurn = some (c.uid, c.sid)) :=
  of_meets (by decide +kernel)
def crowded : State := { shooting none with shoots := [(1, 7)] }
theorem wit_shoot_turn : ∃ c, crowded.Issues (.shoot 4 (.imm 16)) c ∧ (wholePages c = true ∧ c.sp.kept = none
    ∧ crowded.released c.t 4 c.ord = true ∧ (crowded.shootArrive c).shootTurn ≠ some (c.uid, c.sid)) := of_meets (by decide +kernel)
theorem wit_shoot_over : ∃ c, (shooting (some (1, 3))).Issues (.shoot 4 (.imm 16)) c ∧ (wholePages c = true ∧ c.sp.kept = some (1, 3)
    ∧ (shooting (some (1, 3))).shotOver c.t.vf (2 ^ 32) (2 ^ 32 + 16 * 65536) 3 = true) := of_meets (by decide +kernel)
theorem wit_part : ∃ c, manager.Issues (.part (.v 8) (.s 4) (.s 5)) c ∧ (c.sp.frame.isSome = true ∧ manager.manager c.t.vf = true
    ∧ c.t.divided = false) := of_meets (by decide +kernel)
theorem wit_elog : ∃ c, bench.Issues (.elog (.v 8)) c ∧ (c.active ≠ 0 ∧ c.t.service = none) := of_meets (by decide +kernel)
theorem wit_elog_idle : ∃ c, (withGuard 0 bench).Issues (.elog .none) c ∧ c.active = 0 := of_meets (by decide +kernel)
def launching (s : State) (c : Ctx) : Option Nat :=
  (s.accept c.t.vf none (c.base (.s 0) 0) (some (c.uid, c.sid)) false).2
theorem wit_launch : ∃ c, atPage.Issues (.launch (.s 3) (.s 0)) c ∧ (c.active ≠ 0 ∧ atPage.released c.t 6 c.ord = true
    ∧ lowLane c.active = some 0 ∧ c.t.launch = 0 ∧ atPage.intakes = [] ∧ launching atPage c = some 1) := of_meets (by decide +kernel)
theorem wit_launch_waits : ∃ c, afar.Issues (.launch (.s 3) (.s 0)) c ∧ (c.active ≠ 0 ∧ afar.released c.t 6 c.ord = true
    ∧ lowLane c.active = some 0 ∧ c.t.launch = 0 ∧ afar.intakes = [] ∧ launching afar c = none) := of_meets (by decide +kernel)
theorem wit_launch_idle : ∃ c, (withGuard 0 bench).Issues (.launch (.s 3) (.s 0)) c ∧ c.active = 0 := of_meets (by decide +kernel)

/-- CounterInstructions: images in the scratchpad and at a page. -/
theorem wit_cntcfg : ∃ c, bench.Issues (.cntcfg (.v 20) (.imm 0x102) 7) c ∧ (c.active ≠ 0
    ∧ cfgWritable (BitVec.ofNat 32 (c.uniAll (.imm 0x102))) = true) := of_meets (by decide +kernel)
theorem wit_cntcfg_idle : ∃ c, (withGuard 0 bench).Issues (.cntcfg (.v 20) (.imm 0x102) 7) c ∧ (c.active = 0
    ∧ cfgWritable (BitVec.ofNat 32 (c.uniAll (.imm 0x102))) = true) := of_meets (by decide +kernel)
theorem wit_cntcfg_refused : ∃ c, bench.Issues (.cntcfg (.v 20) (.imm 0x200) 7) c ∧
    cfgWritable (BitVec.ofNat 32 (c.uniAll (.imm 0x200))) = false := of_meets (by decide +kernel)
def imaging (s : State) (k : AccKind) (stay : Bool) (c : Ctx) : Bool :=
  let va := c.base (.s 0) ((lowLane c.active).getD 0)
  let img := fun l => let e := (s.counters8 c).getD l ⟨0, 0⟩; s.cntValue c.t.vf e + e.config.toNat * 2 ^ 64
  let f : MemForm := ⟨k, .none, List.range 8, 16, fun l => va + 16 * l, if k = .image then fun _ => 0 else img, fun _ => 0⟩
  let y := f.run s (if k = .image then c else { c with sp := { c.sp with mode := c.sp.mode &&& 0xFE1F#16 } })
  c.active != 0 && imageCheck c va == none && !s.ownRegBusy c f.lanes f.ea 16 && !y.stay && y.faults.isEmpty
    && c.t.inFlight (f.path y 0) < 255 && y.s.accs == s.accs && (stay == (y.reqs ++ y.out).isEmpty)
theorem wit_cntsv_chip : ∃ c, atScratch.Issues (.cntsv 0) c ∧ imaging atScratch (.store 16 false) true c = true :=
  of_meets (by decide +kernel)
theorem wit_cntsv_page : ∃ c, atPage.Issues (.cntsv 0) c ∧ imaging atPage (.store 16 false) false c = true := of_meets (by decide +kernel)
theorem wit_cntld : ∃ c, atPage.Issues (.cntld 0) c ∧ (imaging atPage .image false c = true ∧ c.sp.kept = none) :=
  of_meets (by decide +kernel)
def imaged : State := withSplit (fun x => { x with kept := some (3, 7) }) bench
theorem wit_cntld_ends : ∃ c, imaged.Issues (.cntld 0) c ∧ (c.active ≠ 0 ∧ c.sp.kept = some (3, 7) ∧ imaged.accs = []
    ∧ (imageCounters imaged c.t.vf 7).isSome = true) := of_meets (by decide +kernel)
theorem wit_cnt_divided : ∀ i ∈ [Instr.cntsv 0, .cntld 0], ∃ c, (twoSplits bench).Issues i c ∧ c.t.divided = true := by
  intro i hi
  simp only [List.mem_cons, List.not_mem_nil, or_false] at hi
  rcases hi with rfl | rfl <;> exact of_meets (by decide +kernel)
theorem wit_cnt_idle : ∀ i ∈ [Instr.cntsv 0, .cntld 0], ∃ c, (withGuard 0 bench).Issues i c ∧
    (c.t.divided = false ∧ c.active = 0) := by
  intro i hi
  simp only [List.mem_cons, List.not_mem_nil, or_false] at hi
  rcases hi with rfl | rfl <;> exact of_meets (by decide +kernel)

/-- BoundedCounters: a record at a page, with no live counter, one whose holder is this core, one that it does not hold. -/
def keptAt (k v : Nat) (s : State) : State := withSplit (fun x => { x with kept := some (k, v) }) s
def replied (st : Nat) (s : State) : State := withTer (fun t => { t with reply := some (2 ^ 32, st, 0) }) s
def totalled (x : Nat) (s : State) : State := withTer (fun t => { t with total := some x }) s
/-- A holder whose entry drains. -/
def drained (allow : Nat) : State := { atPage with bcs := [⟨0, 2 ^ 32, 0x40000000, 0, 0, 5, [⟨0, true, allow, true, 0⟩], [], 0, [], 0⟩] }
def live (allow : Option Nat) (pool : Nat) : State :=
  { atPage with bcs := [⟨0, 2 ^ 32, 0x40000000, 0, 0, pool,
      match allow with | some n => [⟨0, true, n, false, 0⟩] | none => [], [], 0, [], 0⟩] }
def paging (s : State) (c : Ctx) : Option (Option BCounter) :=
  match s.bcPage c (c.bcAddr 0) with
  | (s1, .ok ph) => if ph.owner == .die 0 && ph.pa == 0x40000000 then some (s1.bc? c.t.vf (c.bcAddr 0)) else none
  | _ => none
def freshTake (s : State) (c : Ctx) : Bool :=
  c.sp.kept.isNone && c.t.reply.isNone && s.bcQueued c.uid == none && c.uniAll (.imm 8) % 2 ^ 31 == 8
theorem wit_bctake_done : ∃ c, (keptAt 1 0 bench).Issues (.bctake (.s 3) 0 (.imm 8)) c ∧ c.sp.kept = some (1, 0) :=
  of_meets (by decide +kernel)
theorem wit_bctake_replied : ∃ c, (replied 1 atPage).Issues (.bctake (.s 3) 0 (.imm 8)) c ∧ (c.sp.kept = none
    ∧ c.t.reply = some (c.bcAddr 0, 1, 0)) := of_meets (by decide +kernel)
theorem wit_bctake_closed : ∃ c, atPage.Issues (.bctake (.s 3) 0 (.imm 8)) c ∧ (freshTake atPage c = true ∧ paging atPage c = some none) :=
  of_meets (by decide +kernel)
theorem wit_bctake_local : ∃ c, (live (some 8) 0).Issues (.bctake (.s 3) 0 (.imm 8)) c ∧ (freshTake (live (some 8) 0) c = true
    ∧ ((paging (live (some 8) 0) c).bind id).map (fun k => (k.holder? c.t.core).map fun h => h.open && 8 ≤ h.allow) = some (some true)) :=
  of_meets (by decide +kernel)
theorem wit_bctake_home : ∃ c, (live (some 7) 0).Issues (.bctake (.s 3) 0 (.imm 8)) c ∧ (freshTake (live (some 7) 0) c = true
    ∧ ((paging (live (some 7) 0) c).bind id).map (fun k => (k.holder? c.t.core).map fun h => decide (h.allow < 8)) = some (some true)) :=
  of_meets (by decide +kernel)
theorem wit_bctake_drained : ∃ c, (drained 8).Issues (.bctake (.s 3) 0 (.imm 8)) c ∧ (freshTake (drained 8) c = true
    ∧ ((paging (drained 8) c).bind id).map (fun k => (k.holder? c.t.core).map fun h => h.open) = some (some false)) :=
  of_meets (by decide +kernel)
theorem wit_bctake_nonholder : ∃ c, (live none 5).Issues (.bctake (.s 3) 0 (.imm 8)) c ∧ (freshTake (live none 5) c = true
    ∧ ((paging (live none 5) c).bind id).map (fun k => (k.holder? c.t.core).isNone) = some true) := of_meets (by decide +kernel)
theorem wit_bcgive_drained : ∃ c, (drained 8).Issues (.bcgive (.s 3) 0 (.imm 8)) c ∧ (freshTake (drained 8) c = true
    ∧ ((paging (drained 8) c).bind id).map (fun k => (k.holder? c.t.core).map fun h => !h.open && k.pool + 8 < 2 ^ 63) = some (some true)) :=
  of_meets (by decide +kernel)
theorem wit_bcgive_done : ∃ c, (keptAt 1 0 bench).Issues (.bcgive (.s 3) 0 (.imm 8)) c ∧ c.sp.kept = some (1, 0) :=
  of_meets (by decide +kernel)
theorem wit_bcgive_nothing : ∃ c, atPage.Issues (.bcgive (.s 3) 0 (.imm 0)) c ∧ (c.sp.kept = none ∧ paging atPage c = some none
    ∧ c.uniAll (.imm 0) = 0) := of_meets (by decide +kernel)
theorem wit_bcgive_closed : ∃ c, atPage.Issues (.bcgive (.s 3) 0 (.imm 8)) c ∧ (freshTake atPage c = true ∧ paging atPage c = some none) :=
  of_meets (by decide +kernel)
theorem wit_bcgive_local : ∃ c, (live (some 7) 0).Issues (.bcgive (.s 3) 0 (.imm 8)) c ∧ (freshTake (live (some 7) 0) c = true
    ∧ ((paging (live (some 7) 0) c).bind id).map (fun k => (k.holder? c.t.core).map fun h => h.open && h.allow + 8 < 2 ^ 32)
      = some (some true)) := of_meets (by decide +kernel)
theorem wit_bcgive_home : ∃ c, (live none 5).Issues (.bcgive (.s 3) 0 (.imm 8)) c ∧ (freshTake (live none 5) c = true
    ∧ ((paging (live none 5) c).bind id).map (fun k => (k.holder? c.t.core).isNone && k.pool + 8 < 2 ^ 63) = some true) :=
  of_meets (by decide +kernel)
theorem wit_bcgive_over : ∃ c, (live none (2 ^ 63 - 8)).Issues (.bcgive (.s 3) 0 (.imm 8)) c ∧ (freshTake (live none (2 ^ 63 - 8)) c = true
    ∧ ((paging (live none (2 ^ 63 - 8)) c).bind id).map (fun k => (k.holder? c.t.core).isNone && 2 ^ 63 ≤ k.pool + 8) = some true) :=
  of_meets (by decide +kernel)
theorem wit_bcread_replied : ∃ c, (keptAt 2 9 (totalled 77 atPage)).Issues (.bcread (.s 6) 0) c ∧ (c.sp.kept = some (2, 9)
    ∧ c.t.total = some 77) := of_meets (by decide +kernel)
theorem wit_bcread_closed : ∃ c, atPage.Issues (.bcread (.s 6) 0) c ∧ (c.sp.kept = none ∧ paging atPage c = some none) :=
  of_meets (by decide +kernel)
theorem wit_bcread : ∃ c, (live none 5).Issues (.bcread (.s 6) 0) c ∧ (c.sp.kept = none
    ∧ ((paging (live none 5) c).bind id).isSome = true) := of_meets (by decide +kernel)
theorem wit_bcstat_closed : ∃ c, atPage.Issues (.bcstat (.s 6) 0) c ∧ paging atPage c = some none := of_meets (by decide +kernel)
theorem wit_bcstat : ∃ c, (live none 5).Issues (.bcstat (.s 6) 0) c ∧ ((paging (live none 5) c).bind id).isSome = true :=
  of_meets (by decide +kernel)
def initOf (s : State) (c : Ctx) : Option (Nat × Bool × Bool × Bool) :=
  match s.bcPage c (c.bcAddr 0) with
  | (s1, .ok ph) => match (s1.settleLine ph.pa).meetMem c.t.vf ph.pa 64 with
    | (s2, false) =>
      let bs := s2.rdBytes ph.pa 64
      some (fieldOf bs 0 1, s2.bcListOk c.t.vf 0 bs, (s2.bc? c.t.vf (c.bcAddr 0)).isSome,
        32 ≤ (s2.sliceCounters 0 (indexHash (s1.tenant c.t.vf).asid (c.bcAddr 0) % 96)).length)
    | _ => none
  | _ => none
def holders (nh core : Nat) (s : State) : State := withMem 0x40000010 2 core (withMem 0x40000000 1 nh s)
theorem wit_bcinit_bad : ∃ c, (holders 1 256 atPage).Issues (.bcinit (.s 2) 0 (.imm 24)) c ∧
    initOf (holders 1 256 atPage) c = some (1, false, false, false) := of_meets (by decide +kernel)
theorem wit_bcinit_none : ∃ c, atPage.Issues (.bcinit (.s 2) 0 (.imm 24)) c ∧ initOf atPage c = some (0, true, false, false) :=
  of_meets (by decide +kernel)
theorem wit_bcinit_new : ∃ c, (holders 1 0 atPage).Issues (.bcinit (.s 2) 0 (.imm 24)) c ∧
    initOf (holders 1 0 atPage) c = some (1, true, false, false) := of_meets (by decide +kernel)
def full : State :=
  { atPage with bcs := List.replicate 32 ⟨0, 2 ^ 33, 0x50000000, 0, indexHash (bench.tenant 0).asid (2 ^ 32) % 96, 5, [], [], 0, [], 0⟩ }
theorem wit_bcinit_full : ∃ c, full.Issues (.bcinit (.s 2) 0 (.imm 24)) c ∧ initOf full c = some (0, true, false, true) :=
  of_meets (by decide +kernel)
theorem wit_bcinit_close : ∃ c, (live none 5).Issues (.bcinit (.s 2) 0 (.imm 24)) c ∧
    initOf (live none 5) c = some (0, true, true, false) := of_meets (by decide +kernel)
theorem wit_bcinit_again : ∃ c, (holders 1 0 (live none 5)).Issues (.bcinit (.s 2) 0 (.imm 24)) c ∧
    initOf (holders 1 0 (live none 5)) c = some (1, true, true, false) := of_meets (by decide +kernel)

/-- BoundedCountersComplete: a record that can be used, intact and with no open access to it, with no live counter, one that
    this core holds, and one that it does not. -/
def recordAt (s : State) (va : Nat) (c : Ctx) : Bool :=
  va % 64 == 0 && isGlobal va && !c.t.divided && !s.lostRange 0x40000000 64 && s.accs.isEmpty
    && (match s.reach c.t c.die (some c.t.core) ⟨false, false, c.sp.supervisor⟩ va with
      | (_, .ok q) => q.ph.leaf.cls == clsUntracked && !q.ph.leaf.fmt && q.ph.leaf.place == 0 && q.ph.owner == .die 0
          && q.ph.pa == 0x40000000
      | _ => false)
theorem wit_record : ∀ s ∈ [atPage, live (some 8) 0, live none 5, replied 1 atPage, totalled 7 atPage, keptAt 1 0 atPage],
    ∀ i ∈ [Instr.bcinit (.s 2) 0 (.imm 24), .bctake (.s 3) 0 (.imm 8), .bcgive (.s 3) 0 (.imm 8), .bcread (.s 6) 0, .bcstat (.s 6) 0],
    ∃ c, s.Issues i c ∧ recordAt s (c.bcAddr 0) c = true := by
  intro s hs i hi
  simp only [List.mem_cons, List.not_mem_nil, or_false] at hs hi
  rcases hs with rfl | rfl | rfl | rfl | rfl | rfl <;> rcases hi with rfl | rfl | rfl | rfl | rfl <;>
    exact of_meets (by decide +kernel)

/-- EngineEvents: commands that engine 0 of their die has been handed; the second copies one piece of 16 bytes. -/
def onEngine0 (s : State) : State := { s with cmds := s.cmds.map fun c => { c with eng := 0 } }
def oneRow (acks : List (Nat × Nat)) : Cmd :=
  ⟨7, 1, 0, 0, 0, 0, 0, false, .cp 0x80000 64 0x80800 64 16 1 0 0, 0, 0x100000000, 0, 0, 0, none, false, [], acks, [], 0, some [0]⟩
def copied : State := { bench with cmds := [oneRow []] }
theorem copyRow_of_piece {s : State} {c : Cmd} {i : Nat} (hk : (match c.kind with | .cp .. => true | _ => false) = true)
    (hl : c.left = some [i]) (h : (State.firstPiece { s with tick := s.tick + 1 } c [i] [i]).isSome = true) :
    (s.copyRow c).isSome = true := by
  unfold State.copyRow
  split
  · rename_i e; simp [e] at hk
  · simpa [hl, Nat.mod_one] using h
theorem wit_copyEngineCommand : copied.cmd? 7 = some (oneRow []) ∧ (oneRow []).fault = none ∧ (oneRow []).next < (oneRow []).total
    ∧ copied.served (oneRow []) = true ∧ (copied.copyRow (oneRow [])).isSome = true :=
  ⟨by decide +kernel, by decide +kernel, by decide +kernel, by decide +kernel,
    copyRow_of_piece (by decide +kernel) rfl (by decide +kernel)⟩
def answered : State := { bench with cmds := [oneRow [(9, 0x80000)]], answers := [(9, .val 0)] }
theorem wit_copyAcks : answered.cmd? 7 = some (oneRow [(9, 0x80000)]) ∧ answered.ackHere [9] = true := by decide +kernel
def requanting : State := onEngine0 (run (.rqnt 0 8 false 0 16) (withPair 0 (2 ^ 32) (withS 8 1 (pagedAs 0x10D bench))))
theorem wit_requantisation : requanting.cmds.map (fun c => c.fault.isNone && c.next < c.total && (requanting.rqntStep c).isSome
    && requanting.served c && requanting.cmd? c.id == some c && (match c.kind with | .rqnt .. => true | _ => false)) = [true] := by
  decide +kernel
def finished : State :=
  let s := onEngine0 (run (.cp 0 4 8 0 0 2) (withS 3 0x80000 (withMem (2 ^ 60) 64 (8 + 0x18000 * 2 ^ 128) (copying 64))))
  { s with cmds := s.cmds.map fun c => { c with next := c.total } }
theorem wit_engineAlleyPush : finished.cmds.map (fun c => c.fault.isNone && c.total ≤ c.next && c.alley != 0 && c.acks.isEmpty
    && (finished.enginePush c).isSome && finished.cmd? c.id == some c) = [true] := by decide +kernel
def multiplying : State := run (.mma 1 0 4 1 1 1 false false) (withPair 0 (2 ^ 32) (withPair 4 (2 ^ 32) (pagedAs 0x10D bench)))
theorem wit_blockStep : (match multiplying.tileOn 1 with
    | some (t, sp, i) => t.core == 0 && (multiplying.blockStep 1 t sp i).isSome && multiplying.engineTurn 1
    | none => false) = true := by decide +kernel
def emptying : State := run (.macst 1 0 .zero) (withPair 0 (2 ^ 32) (paged bench))
/-- A MEPI whose rows are done. -/
def emptied : State :=
  let s := run (.mepi 1 8 12 128 128 2 5 false 0 0) epilogue
  s.setProg 1 { s.prog 1 with row := 128 }
theorem wit_mepi_ends : (match emptied.tileOn 1 with
    | some (t, _, i) => i == .mepi 1 8 12 128 128 2 5 false 0 0 && t.slot 1 == 1 && (emptied.job? t.uid).isNone && t.sVal 11 == 0
        && 128 ≤ (emptied.prog 1).row && (emptied.prog 1).acks.isEmpty
    | none => false) = true := by decide +kernel
theorem wit_rowBoundary : (match emptying.tileOn 1 with
    | some (t, sp, i) => t.core == 0 && (emptying.rowStep 1 t sp i).isSome
    | none => false) = true := by decide +kernel
def attended : State := run (.attn 0 0 4 128 128 1 5 1 1 false true) attending
theorem wit_jobCard : (attended.job? 1).map (fun j => (j.cards.find? fun c => c.card == 0).isSome && attended.cardServed j 0
    && (attended.jobCard j 0).isSome && (attended.jobSplit j).isSome) = some true := by decide +kernel
def rounding : State := run (.collBroadcast (.acc 0) 0) grouped
theorem wit_collectiveRound : rounding.rounds.map (fun r => r.handle == 0x55 && (match rounding.groups.find? fun g => g.handle == 0x55 with
    | some g => (rounding.roundTiles g r.index).isSome
    | none => false)) = [true] := by decide +kernel
theorem wit_rebalance : let b : BCounter := ⟨0, 2 ^ 32, 0x40000000, 0, 0, 5, [], [], 0, [.read 1], 0⟩
    let s : State := { atPage with bcs := [b] }
    s.bcAt? 0x40000000 = some b ∧ b.absorb.trigs = .read 1 :: [] := by decide +kernel
def near : State :=
  { bench with parts := bench.parts.map fun p => { p with near :=
      [⟨0x4000000, 0, 0x40000000, ⟨1, 0x4000, 0, 0, 0, false, 1, 0, true, true, false, true⟩, .die 0, List.replicate 64 0, none, []⟩] } }
theorem wit_nearLineEviction : (match near.partAt? 0 0 with
    | some p => (p.near.find? fun l => l.pa / 64 == 0x1000000).isSome
    | none => false) = true := by decide +kernel
def tasked : State :=
  { bench with launches := [{ launchRec with tasks := [(0, [(0, 2)])] }], ters := [] }
theorem wit_taskStart : (match tasked.launch? 5 with
    | some l => l.halt == 0 && (tasked.taskStart l 0).isSome
    | none => false) = true := by decide +kernel
theorem wit_launchCompletion : let s : State := { launched bench with ters := [] }
    (match s.launch? 5 with | some l => s.launchOver l | none => false) = true := by decide +kernel

/-- CrossingCompletes: a crossing that is due, one that is not, and a parked request. -/
def due : State := withTer (fun t => { t with crossArr := 1 }) (bench.setDom (.solo 1) { bench.dom (.solo 1) with started := 1 })
theorem wit_crossing : due.crossDue (.solo 1) = true ∧ bench.crossDue (.solo 1) = false := by decide +kernel
def parked : State :=
  let s := storing.setTenant 0 { storing.tenant 0 with tvec := 0x2000#64 }
  { s with accs := s.accs.map fun a => { a with parked := true } }
theorem wit_serviceTerrace : (parked.parkedOn 0 0).isSome = true ∧ (parked.serviceCore 0 0).isSome = true
    ∧ (∀ t ∈ parked.ters, ¬ (t.vf = 0 ∧ dieOf t.core = 0 ∧ t.service.isSome = true)) ∧ (parked.tenant 0).tvec ≠ 0
    ∧ parked.ter? parked.fresh = none := by decide +kernel

/-- CoreEvents. -/
theorem wit_coreCycle : let s : State := { bench with issue := [] }
    s.issue = [] ∧ (s.core 0).due = [] ∧ (s.core 0).again = [] ∧ s.cycleBlocked 0 = false := by decide +kernel
theorem wit_coreCycle_due : let s : State := { bench with issue := [] }.setCore 0 { bench.core 0 with due := [(1, 2)] }
    s.issue = [] ∧ (s.core 0).due ≠ [] ∧ (s.nextDue 0).issue = [(1, 2)] ∧ ((s.nextDue 0).core 0).due = [] := by decide +kernel
def missing : State := withSplit (fun x => { x with pc := 0x100010000#64 }) bench
theorem wit_instructionFetch : ((missing.ter? 1).bind fun t => (t.splits.find? fun x => x.low == 0).map fun x =>
    missing.candidate t x && (match missing.fetchNeed t x with
      | some (p, va) => (missing.fetchLine t x p va).isSome | none => false)) = some true := by decide +kernel
def slept : State := withSplit (fun x => { x with hold := .sleep 0 }) bench
theorem wit_sleepEnd : ((slept.ter? 1).bind fun t => (t.splits.find? fun x => x.low == 0).map fun x =>
    x.hold == .sleep 0 && 0 ≤ slept.now t.core) = some true := by decide +kernel
def mapParts (f : Part → Part) (s : State) : State := { s with parts := s.parts.map f }
theorem wit_detectorWindow : (((mapParts (fun p => { p with windowCycles := 2048 }) bench).partAt? 0 0).map fun p =>
    decide (2048 ≤ p.windowCycles)) = some true := by decide +kernel
def sliced : State :=
  let s := mapParts (fun p => { p with quant := 1 }) bench
  { s with cores := kset Core.init s.cores 0 { s.core 0 with now := 1 } }
theorem wit_quantumExpiry : sliced.quantumOver 0 = true := by decide +kernel
def idle : State :=
  { bench with ters := [{ freshTerrace 9 (freshSplit 10 placedPc) with vf := 1 }], issue := [], parts := bench.parts ++ [Part.fresh 0 1 1 0 0 0 4] }
theorem wit_worldSwitch : idle.switchDue 0 = true ∧ idle.issue = [] ∧ (idle.core 0).due = [] ∧
    ((idle.core 0).holder.bind (idle.partAt? 0)).map (fun p => (idle.nextPart 0 p.pidx).isSome) = some true := by decide +kernel
def pended : State :=
  { withTvec (mapParts (fun p => { p with counters := p.counters.map fun c => { c with config := 0xC0000500#32 } }) bench) with issue := [] }
theorem wit_overflowInterrupt : pended.issue = [] ∧ (pended.core 0).due = [] ∧ ((pended.interruptDue 0).bind fun x =>
    ((((pended.preemptOthers x.1 x.2.1 x.2.2).updPart 0 x.1.pidx fun p =>
      { p with counters := p.counters.map fun c => { c with config := c.config &&& 0xBFFFFFFF#32 } }).ter? x.2.1).bind fun t =>
        t.split? x.2.2)).isSome = true := by decide +kernel

/-- EdgeEvents. -/
def portAt (n retrainFrom : Nat) : State :=
  bench.setDie 0 { Die.init with ports := [(3, n)], retrain := if n = 1 then [(3, retrainFrom)] else [], samples := 10 ^ 6 }
theorem wit_linkRetraining : kget 0 (bench.die 0).ports 3 = 0 := by decide +kernel
theorem wit_linkRetrained : kget 0 ((portAt 1 (10 ^ 6)).die 0).ports 3 = 1 ∧ ((portAt 1 (10 ^ 6)).die 0).lateLink 3 = false := by
  decide +kernel
theorem wit_linkDeclaredDown : kget 0 ((portAt 1 1).die 0).ports 3 = 1 ∧ ((portAt 1 1).die 0).lateLink 3 = true := by decide +kernel
def flit (type : Nat) (op : FabOp) (ok : Bool) : FabFlit := ⟨type, 0, 0, 1, 0, 0, op, ok⟩
theorem wit_spill : let s : State := { bench with spill := [(0, ⟨0, some (0, 0), flit 0 (.read 1 0x40 8) true⟩)] }
    (s.spill.find? fun e => e.2.die == 0 && kget 0 (s.die 0).ports (portOf 0 e.2.flit.dst) == 0).isSome = true := by decide +kernel
theorem wit_fabric : (flit 0 (.read 1 0x40 8) true).type = 0 ∧ (flit 1 (.reply 1 []) true).type = 1
    ∧ (flit 4 (.other []) true).type = 4 ∧ (flit 4 (.other []) false).checkOk = false ∧ (flit 4 (.other []) true).dst = bench.dieCoord 0
    ∧ bench.queueUpset 0 = false ∧ bench.mgmtDue (flit 4 (.other []) true) = true
    ∧ (bench.setDom (.launch 5) { bench.dom (.launch 5) with arrived := [moduleOf 1] }).mgmtDue
        (flit 4 (.arrive (.launch 5) none []) true) = false
    ∧ ({ bench with flaws := [.fabric 0] } : State).queueUpset 0 = true
    ∧ ({ bench with routes := [(0, 0, 0, 2, 1)] } : State).routed (flit 0 (.read 1 0x40 8) true) = true
    ∧ bench.routed (flit 0 (.read 1 0x40 8) true) = false := by
  decide +kernel
theorem wit_collectivePacket :
    bench.packetRank (flit 2 (.tile 9 0 0 3 0 0 []) true) 9 = none
    ∧ (let s : State := { bench with groups := [⟨9, 5, 0, 9, [1, 0], []⟩], routes := [(0, 0, 0, 2, 1)] }
       (s.packetRank (flit 2 (.tile 9 0 0 3 0 0 []) true) 9).isSome = true ∧ s.tiles = []
         ∧ (flit 2 (.tile 9 0 0 3 0 0 []) true).dst = s.dieCoord 0 ∧ s.routed (flit 2 (.tile 9 0 0 3 0 0 []) true) = true) := by
  decide +kernel
theorem wit_stagger : let f := flit 3 (.stagger (0, 0, 2, 2) 10 4) true
    f.type = 3 ∧ f.dst = bench.dieCoord 0 ∧ f.src ≠ bench.dieCoord 0 ∧ f.src = bench.dieCoord 1 ∧ bench.queueUpset 0 = false := by
  decide +kernel
theorem wit_staggerEnd : (⟨5000, 10⟩ : Nat × Nat).2 ≤ 10 * ({ Die.init with held := some (5000, 10), samples := 1 } : Die).samples := by
  decide +kernel
theorem wit_powerSample : (bench.die 0).holdOver = false ∧ (bench.die 0).retrain = [] := by decide +kernel

/-- PowerLimits. -/
theorem wit_PowerLimits : let x : Die := { Die.init with drawn := 50000, held := some (50000, 10) }
    x.held = some (50000, 10) ∧ x.drawn ≤ 50000 ∧ (x.sample 0).filler < 56000
    ∧ Die.init.held = none ∧ 100 ≤ Die.init.drawn + powRise Die.init.power ∧ Die.init.drawn - powFall Die.init.power ≤ 100 := by
  decide +kernel

/-- HostEvents: flits of each type, a malformed one, a queue with an entry. -/
def hostBytes (type : Nat) : List Byte := natBytes 256 type
theorem wit_hostFlits : ∀ ty, ty < 7 → (hostFlitOf (hostBytes ty)).map (·.type) = some ty := by decide +kernel
theorem wit_hostMalformed : hostFlitOf (hostBytes 7) = none := by decide +kernel
theorem wit_queue : let s := withMem 0x40000004 4 1 (paged bench)
    (s.setTenant 0 { s.tenant 0 with queue := some 0x40000000 }).queueDue 0 = true := by decide +kernel

/-- ManagementCommands: operands within their limits at their ends, and beyond them. -/
theorem wit_ManagementCommands : (bench.partAt? 0 0).isSome = true ∧ (launched bench).launch? 5 = some launchRec
    ∧ bench.launch? 5 = none ∧ sysWritable 8 = true ∧ sysWritable 0x12 = false ∧ ownerOf 0x40000000 = .die 0 := by decide +kernel

/-- The digest of "abc" (FIPS 180-4), its first eight bytes, and the public key of RFC 8032's first test. -/
theorem test_sha512 : bytesNat ((sha512 [0x61#8, 0x62#8, 0x63#8]).take 8) = 0xBA7A6193A135AFDD := by decide +kernel
theorem test_ed25519 : bytesNat (edPublic (natBytes 32
      0x607FAE1C03AC3B701969327B69C54944C42CEC92F44A84BA605AFDEF9DB1619D)) =
    0x1A5107F7681A02AF2523A6DAF372E10E3A0764C9D3FE4BD5B70AB18201985AD7 := by decide +kernel

/-- BootAndReset: an image of another form is refused at the first check. Which keys are a vendor's the ROM's digests say, which
    are values left open (R457): where one signs an image of the next stage, it is accepted. -/
theorem wit_bootRefused : imageFails bench 0 [] = 1 := by decide +kernel
theorem wit_bootAccepted (bs : List Byte) (hf : imageForm bs = true) (hk : imageKey 0 bs = true) (hs : imageSig bs = true)
    (h1 : byteAt bs 4 = 1) : imageFails State.reset 0 bs = 0 := by
  have hb : (State.reset.die 0).boot = 0 := by decide
  simp [imageFails, hf, hk, hs, h1, hb]
theorem wit_freezePin : State.reset.dark = false ∧ State.reset.wbuf = [] := ⟨rfl, rfl⟩

end Sys2Proof.Tests
end

section
/-! ## Scalar and cross-lane instructions: shared laws -/

namespace Sys2Proof.Machine

/-! ### Masks and predicates -/

/-- One lane added to a mask. -/
theorem getLsbD_or_lane (m : Lanes) (j : Nat) {l : Nat} (hl : l < 32) :
    (m ||| 1#32 <<< j).getLsbD l = (m.getLsbD l || decide (l = j)) := by
  have hbit : (1#32 <<< j).getLsbD l = decide (l = j) := by
    rw [BitVec.getLsbD_shiftLeft, BitVec.getLsbD_one]
    by_cases hj : l = j
    · subst hj; simp [hl]
    · simp only [hl, hj, decide_true, decide_false, Bool.true_and]
      rcases Nat.lt_or_gt_of_ne hj with h | h
      · simp [h]
      · have : l - j ≠ 0 := by omega
        simp [this]
  rw [BitVec.getLsbD_or, hbit]

/-- The mask of a list has the list's lanes. -/
theorem getLsbD_maskOf (ls : List Nat) {l : Nat} (hl : l < 32) : (maskOf ls).getLsbD l = decide (l ∈ ls) := by
  have key : ∀ (ls : List Nat) (m : Lanes),
      (ls.foldl (fun m l => m ||| (1#32 <<< l)) m).getLsbD l = (m.getLsbD l || decide (l ∈ ls)) := by
    intro ls
    induction ls with
    | nil => intro m; simp
    | cons j ls ih =>
      intro m
      rw [List.foldl_cons, ih, getLsbD_or_lane m j hl]
      simp [Bool.or_assoc, Bool.decide_or]
  rw [maskOf, key]
  simp

/-- The lanes of a mask that a condition selects. -/
theorem getLsbD_laneBits_lanesOf (m : Lanes) (f : Nat → Bool) {l : Nat} (hl : l < 32) :
    (laneBits (lanesOf m) f).getLsbD l = (m.getLsbD l && f l) := by
  rw [laneBits, getLsbD_maskOf _ hl, Bool.eq_iff_iff]
  simp [mem_lanesOf, hl]

/-- A predicate register after an instruction has written it in its active lanes. -/
def Ctx.predAfter (c : Ctx) (p : Nat) (f : Nat → Bool) : Lanes :=
  (c.t.pget p &&& ~~~c.active) ||| (laneBits c.lanes f &&& c.active)

/-- The write of a predicate leaves `predAfter` in it (R40). -/
theorem Ctx.pset_eq (c : Ctx) (p : Nat) (f : Nat → Bool) :
    c.t.pset p c.active (laneBits c.lanes f) = { c.t with p := kset 0 c.t.p p (c.predAfter p f) } := rfl

theorem Ctx.getLsbD_predAfter (c : Ctx) (p : Nat) (f : Nat → Bool) {l : Nat} (hl : l < 32) :
    (c.predAfter p f).getLsbD l = if c.active.getLsbD l then f l else (c.t.pget p).getLsbD l := by
  have hbits := getLsbD_laneBits_lanesOf c.active f hl
  simp only [Ctx.predAfter, Ctx.lanes, BitVec.getLsbD_or, BitVec.getLsbD_and, BitVec.getLsbD_not, hl, decide_true,
    Bool.true_and, hbits]
  cases c.active.getLsbD l <;> simp

/-! ### Results -/

/-- Two changes of one terrace are one. -/
theorem State.updTer_updTer (s : State) (u : Nat) (f g : Terrace → Terrace) (hf : ∀ t, (f t).uid = t.uid) :
    (s.updTer u f).updTer u g = s.updTer u fun t => g (f t) := by
  simp only [State.updTer, List.map_map]
  congr 1
  apply List.map_congr_left
  intro t _
  by_cases h : t.uid = u
  · simp [h, hf]
  · simp [h]

/-- An instruction whose effect is a predicate and a result completes with both. -/
theorem completes_pred_result {i : Instr} {body : State → Ctx → Res} {s : State} {c : Ctx} {d : Dst} {wide : Bool}
    {p : Nat} {g : Nat → Bool} {f : Nat → Nat} (h : s.Issues i c) (hx : exec i s = issue i body s)
    (hb : body s c = c.result (c.writePred s p g) d wide f) :
    Completes i s c (({ c.t with p := kset 0 c.t.p p (c.predAfter p g) } : Terrace).writeDst d wide c.active
      fun l => resWords wide (f l)) c.sp := by
  refine ⟨_, hx.trans (issue_eq h), ?_⟩
  have hone := s.updTer_updTer c.uid (fun t => t.pset p c.active (laneBits c.lanes g))
    (fun t => t.writeDst d wide c.active fun l => resWords wide (f l)) fun _ => rfl
  rw [hb, Ctx.result_eq, Ctx.writePred, hone, ← Ctx.pset_eq]
  refine State.passes_regs _ h
    (fun t => (t.pset p c.active (laneBits c.lanes g)).writeDst d wide c.active fun l => resWords wide (f l)) ?_ ?_ ?_
  · exact fun t => Terrace.writeDst_uid _ d wide c.active _
  · obtain ⟨_, _, _, _, e⟩ := (c.t.pset p c.active (laneBits c.lanes g)).writeDst_frame d wide c.active
      fun l => resWords wide (f l)
    simp only [e]; rfl
  · exact Terrace.writeDst_splits _ d wide c.active _

/-- A form that TYPE does not allow ends in the illegal-instruction trap before any effect (R58, R60). -/
theorem traps_illegalForm {i : Instr} {body : State → Ctx → Res} {s : State} {c : Ctx} (h : s.issuer i = some c)
    (hx : exec i s = issue i body s) (hr : c.resumed = false) (hf : issueFormOk i c.ty = false) :
    Traps i s c s ⟨0x01, 0, false, false, none, c.pc.toNat⟩ := by
  have hi : c.i = i := (State.issuer_spec h).2.2.2.1
  refine ⟨false, ?_⟩
  rw [hx, issue, issueWith, h]
  simp only [hr, hi, hf]
  rfl

/-! ### Operands -/

/-- A 64-bit source that is no special value is a 64-bit pattern (R31, R54). -/
theorem Ctx.src64_lt (c : Ctx) {x : Src} (hx : srcSpecial x = false) (l : Nat) : c.src64 x l < 2 ^ 64 := by
  cases x with
  | v n =>
    have hlo := (c.rt.vget n l).isLt
    have hhi := (c.rt.vget (n + 1) l).isLt
    simp only [Ctx.src64]; omega
  | s n =>
    have hlo := (c.rt.sget n).isLt
    have hhi := (c.rt.sget (n + 1)).isLt
    simp only [Ctx.src64]; omega
  | zero => simp [Ctx.src64, Ctx.src]
  | latch k => exact ((c.latch k).vals.getD l 0).isLt
  | imm w =>
    simp only [Ctx.src64, wrapTo]
    omega
  | laneid | terid | smask | qid | teamid | coreid | diecoord => cases hx

/-- An element of TYPE that an instruction at its issue reads is a pattern of TYPE's width (R58, R64). -/
theorem State.Issues.srcTy_lt {s : State} {i : Instr} {c : Ctx} (h : s.Issues i c) {x : Src} {k : SrcKind}
    (hx : Opd.src x .typed k ∈ opds i) (l : Nat) : c.srcTy c.ty x l < 2 ^ tyWidth c.ty := by
  unfold Ctx.srcTy
  split
  · rename_i h64
    have hform := h.form
    simp only [issueFormOk, Bool.and_eq_true, List.all_eq_true] at hform
    obtain ⟨⟨⟨hall, _⟩, _⟩, _⟩ := hform
    have htyped : typedOk c.ty (.src x .typed k) = true := hall _ hx
    have hw : tyWidth c.ty = 64 := by simpa [ty64] using h64
    rw [hw]
    refine c.src64_lt ?_ l
    cases x <;> simp [typedOk, h64, srcSpecial] at htyped ⊢
  · exact Nat.mod_lt _ (Nat.two_pow_pos _)

theorem tyWidth_pos (ty : Nat) : 0 < tyWidth ty := by
  unfold tyWidth; split <;> decide

end Sys2Proof.Machine
end

section
/-! ## Cross-lane moves -/

namespace Sys2Proof.Machine

/-- A SHFL member whose form names the lane moves the value from there (R110). -/
theorem moveRuns_shfl {i : Instr} {s : State} {c : Ctx} {d : Dst} {a b : Src} {pick : Nat → Nat → Int}
    (hx : exec i s = issue i (shfl d a b pick) s) : MoveRuns i s c d a fun l => pick l (c.src b l) := by
  intro h
  have hb : shfl d a b pick s c = c.result s d (ty64 c.ty) fun l =>
      if 0 ≤ pick l (c.src b l) ∧ pick l (c.src b l) < 32 ∧ c.active.getLsbD (pick l (c.src b l)).toNat
      then c.moved a (pick l (c.src b l)).toNat else c.moved a l := by
    simp only [shfl, Bool.and_eq_true, decide_eq_true_eq, and_assoc]
  exact completes_result h hx hb

/-- Settles O21: each SHFL member is `shfl` with its own lane, and BCAST's value is the same in every lane. -/
theorem laneMoves : Obligations.LaneMoves := by
  intro s c d a b m
  refine ⟨?idx, ?up, ?down, ?xor, ?bcast⟩
  case idx => exact moveRuns_shfl (pick := fun _ x => (x % 32 : Nat)) rfl
  case up => exact moveRuns_shfl (pick := fun l x => (l : Int) - (x % 64 : Nat)) rfl
  case down => exact moveRuns_shfl (pick := fun l x => (l : Int) + (x % 64 : Nat)) rfl
  case xor => exact moveRuns_shfl (pick := fun l x => (l ^^^ (x % 32) : Nat)) rfl
  case bcast => exact fun h => completes_result h rfl rfl

end Sys2Proof.Machine
end

section
/-! ## The carry chain -/

namespace Sys2Proof.Machine

/-- An instruction of the carry chain: an exact result finished in TYPE, and its carry in the active lanes of p7 (R89). -/
theorem carryRuns {i : Instr} {body : State → Ctx → Res} {s : State} {c : Ctx} {d : Dst} {m : Option Mods}
    {r : Nat → Int} {out : Nat → Bool} (hx : exec i s = issue i body s)
    (hb : body s c = c.result (c.writePred s 7 out) d (ty64 c.ty) (c.int m r)) (h : s.Issues i c) :
    ∃ q : Lanes,
      Completes i s c (({ c.t with p := kset 0 c.t.p 7 q } : Terrace).writeDst d (ty64 c.ty) c.active fun l =>
        resWords (ty64 c.ty) (c.int m r l)) c.sp
      ∧ ∀ l, l < 32 → q.getLsbD l = if c.active.getLsbD l then out l else (c.t.pget 7).getLsbD l :=
  ⟨c.predAfter 7 out, completes_pred_result h hx hb, fun _ hl => c.getLsbD_predAfter 7 out hl⟩

/-- ADDC and SUBB accept n32 and n64 only (R89). -/
theorem issueFormOk_carry {i : Instr} {ty : Nat} (hi : typeOk i ty = (ty == 0 || ty == 6)) (h0 : ty ≠ 0) (h6 : ty ≠ 6) :
    issueFormOk i ty = false := by
  have hno : typeOk i ty = false := by simp [hi, h0, h6]
  simp [issueFormOk, hno]

/-- Settles O16: the carry that the model takes from the exact result is the statement's, and TYPE's check is the
    form's. -/
theorem carryChain : Obligations.CarryChain := by
  intro s c d a b m
  refine ⟨fun h => carryRuns rfl rfl h, fun h => carryRuns rfl rfl h, ?_⟩
  intro i hi hc hr h0 h6
  simp only [List.mem_cons, List.not_mem_nil, or_false] at hi
  obtain rfl | rfl := hi <;> exact traps_illegalForm hc rfl hr (issueFormOk_carry rfl h0 h6)

end Sys2Proof.Machine
end

section
/-! ## Bit operations: the patterns -/

namespace Sys2Proof.Machine

/-- A number is a pattern of w bits whose bit k is given. -/
def HasBits (w r : Nat) (bit : Nat → Bool) : Prop := r < 2 ^ w ∧ ∀ k, k < w → r.testBit k = bit k

variable {w v n : Nat}

/-! ### Logic -/

theorem hasBits_mod {r : Nat} {bit : Nat → Bool} (h : ∀ k, k < w → r.testBit k = bit k) : HasBits w (r % 2 ^ w) bit := by
  refine ⟨Nat.mod_lt _ (Nat.two_pow_pos w), fun k hk => ?_⟩
  rw [Nat.testBit_mod_two_pow, h k hk]
  simp [hk]

theorem hasBits_complement (hv : v < 2 ^ w) : HasBits w (2 ^ w - 1 - v) fun k => !v.testBit k := by
  have hsub : 2 ^ w - 1 - v = 2 ^ w - (v + 1) := by omega
  refine ⟨by omega, fun k hk => ?_⟩
  rw [hsub, Nat.testBit_two_pow_sub_succ hv]
  simp [hk]

/-! ### Shifts (R91) -/

theorem hasBits_shl : HasBits w (shlBits w v n) fun k => decide (n ≤ k) && v.testBit (k - n) := by
  unfold shlBits
  split
  · refine ⟨Nat.two_pow_pos w, fun k hk => ?_⟩
    have : ¬ n ≤ k := by omega
    simp [this]
  · exact hasBits_mod fun k _ => Nat.testBit_mul_two_pow v k n

theorem hasBits_shr (hv : v < 2 ^ w) : HasBits w (shrBits w v n) fun k => v.testBit (k + n) := by
  unfold shrBits
  split
  · refine ⟨Nat.two_pow_pos w, fun k _ => ?_⟩
    have hpow : 2 ^ w ≤ 2 ^ (k + n) := Nat.pow_le_pow_right (by decide) (by omega)
    exact (Nat.zero_testBit k).trans (Nat.testBit_lt_two_pow (by omega)).symm
  · exact ⟨Nat.lt_of_le_of_lt (Nat.div_le_self v _) hv, fun k _ => Nat.testBit_div_two_pow v k⟩

/-- The model's two's complement reading is that of bit vectors, so that their shift and extension laws apply. -/
theorem signExt_eq_toInt (hw : 0 < w) (v : Nat) : signExt w v = (BitVec.ofNat w v).toInt := by
  obtain ⟨j, rfl⟩ : ∃ j, w = j + 1 := ⟨w - 1, by omega⟩
  have hpow : 2 ^ (j + 1) = 2 * 2 ^ j := by omega
  simp only [signExt, BitVec.toInt_eq_toNat_cond, BitVec.toNat_ofNat, Nat.add_sub_cancel]
  split <;> split <;> omega

/-- The model's wrap is that of bit vectors. -/
theorem wrapTo_eq_toNat (w : Nat) (z : Int) : wrapTo w z = (BitVec.ofInt w z).toNat := (BitVec.toNat_ofInt z).symm

/-- An arithmetic shift on bit vectors takes its bits from the place n above, or the sign (R91). -/
theorem getLsbD_sshiftRight_min (x : BitVec w) {k : Nat} (hk : k < w) (n : Nat) :
    (x.sshiftRight n).getLsbD k = x.getLsbD (min (k + n) (w - 1)) := by
  rw [BitVec.getLsbD_sshiftRight, BitVec.msb_eq_getLsbD_last, Nat.add_comm n k]
  by_cases h : k + n < w
  · have hmin : min (k + n) (w - 1) = k + n := by omega
    simp [hk, h, hmin]
  · have hmin : min (k + n) (w - 1) = w - 1 := by omega
    simp [hk, h, hmin]

/-- Dividing a two's complement number by a power of two is an arithmetic shift. -/
theorem signExt_div_two_pow (hw : 0 < w) (v n : Nat) :
    signExt w v / (2 ^ n : Nat) = ((BitVec.ofNat w v).sshiftRight n).toInt := by
  rw [signExt_eq_toInt hw, BitVec.toInt_sshiftRight, Int.shiftRight_eq_div_pow]

theorem hasBits_sar (hw : 0 < w) : HasBits w (sarBits w v n) fun k => v.testBit (min (k + n) (w - 1)) := by
  have hbv : sarBits w v n = ((BitVec.ofNat w v).sshiftRight (min n w)).toNat := by
    rw [sarBits, signExt_div_two_pow hw, wrapTo_eq_toNat, BitVec.ofInt_toInt]
  rw [hbv]
  refine ⟨BitVec.isLt _, fun k hk => ?_⟩
  have hplace : min (k + min n w) (w - 1) = min (k + n) (w - 1) := by omega
  have hin : min (k + n) (w - 1) < w := by omega
  rw [BitVec.testBit_toNat, getLsbD_sshiftRight_min _ hk, hplace, BitVec.getLsbD_ofNat]
  simp [hin]

/-- A rotation by r puts the low w - r bits above the high r ones (R91). -/
theorem rolBits_eq (hv : v < 2 ^ w) (hw : 0 < w) :
    rolBits w v n = 2 ^ (n % w) * (v % 2 ^ (w - n % w)) + v / 2 ^ (w - n % w) ∧ v / 2 ^ (w - n % w) < 2 ^ (n % w) := by
  have hr : n % w < w := Nat.mod_lt n hw
  have hpow : 2 ^ w = 2 ^ (n % w) * 2 ^ (w - n % w) := by rw [← Nat.pow_add]; congr 1; omega
  refine ⟨?_, Nat.div_lt_of_lt_mul (by rw [Nat.mul_comm, ← hpow]; exact hv)⟩
  rw [rolBits, hpow, Nat.mul_comm v, Nat.mul_mod_mul_left]

theorem hasBits_rol (hv : v < 2 ^ w) (hw : 0 < w) :
    HasBits w (rolBits w v n) fun k => v.testBit ((k + w - n % w) % w) := by
  obtain ⟨heq, hlow⟩ := rolBits_eq (n := n) hv hw
  have hr : n % w < w := Nat.mod_lt n hw
  rw [heq]
  refine ⟨?_, fun k hk => ?_⟩
  · have hhigh : v % 2 ^ (w - n % w) < 2 ^ (w - n % w) := Nat.mod_lt _ (Nat.two_pow_pos _)
    calc 2 ^ (n % w) * (v % 2 ^ (w - n % w)) + v / 2 ^ (w - n % w)
        < 2 ^ (n % w) * (v % 2 ^ (w - n % w) + 1) := by rw [Nat.mul_succ]; omega
      _ ≤ 2 ^ (n % w) * 2 ^ (w - n % w) := Nat.mul_le_mul_left _ hhigh
      _ = 2 ^ w := by rw [← Nat.pow_add]; congr 1; omega
  · rw [Nat.testBit_two_pow_mul_add _ hlow]
    dsimp only
    split
    · have hplace : (k + w - n % w) % w = k + (w - n % w) := by rw [Nat.mod_eq_of_lt] <;> omega
      rw [Nat.testBit_div_two_pow, hplace]
    · have hplace : (k + w - n % w) % w = k - n % w := by
        have : k + w - n % w = k - n % w + w := by omega
        rw [this, Nat.add_mod_right, Nat.mod_eq_of_lt (by omega)]
      have hin : k - n % w < w - n % w := by omega
      rw [Nat.testBit_mod_two_pow, hplace]
      simp [hin]

/-! ### Bit fields (R92) -/

/-- The bits of a pattern above a place, as the sign extends them. -/
theorem bitOfExt_true_eq (hw : 0 < w) (v k : Nat) : bitOfExt true w v k = v.testBit (min k (w - 1)) := by
  unfold bitOfExt
  split
  · congr 1; omega
  · rw [Bool.true_and]; congr 1; omega

theorem bitOfExt_false_eq (hv : v < 2 ^ w) (k : Nat) : bitOfExt false w v k = v.testBit k := by
  unfold bitOfExt
  split
  · rfl
  · have hpow : 2 ^ w ≤ 2 ^ k := Nat.pow_le_pow_right (by decide) (by omega)
    rw [Bool.false_and, Nat.testBit_lt_two_pow (by omega)]

/-- A bit vector extended by its sign. -/
theorem getLsbD_signExtend_min {m : Nat} (x : BitVec m) {k : Nat} (hk : k < w) :
    (x.signExtend w).getLsbD k = x.getLsbD (min k (m - 1)) := by
  rw [BitVec.getLsbD_signExtend, BitVec.msb_eq_getLsbD_last]
  by_cases h : k < m
  · have hmin : min k (m - 1) = k := by omega
    simp [hk, h, hmin]
  · have hmin : min k (m - 1) = m - 1 := by omega
    simp [hk, h, hmin]

/-- A signed field of `len` bits at `pos` is a sign extension to the field's width, and from there to TYPE's. -/
theorem hasBits_signedField {len pos : Nat} (hw : 0 < w) (hlen : 0 < len) :
    HasBits w (wrapTo w (signExt len (wrapTo len (signExt w v / (2 ^ pos : Nat)))))
      fun k => bitOfExt true w v (min k (len - 1) + pos) := by
  have hbv : wrapTo w (signExt len (wrapTo len (signExt w v / (2 ^ pos : Nat))))
      = ((((BitVec.ofNat w v).sshiftRight pos).signExtend len).signExtend w).toNat := by
    rw [signExt_div_two_pow hw, wrapTo_eq_toNat, wrapTo_eq_toNat, signExt_eq_toInt hlen, BitVec.ofNat_toNat,
      BitVec.setWidth_eq]
    rfl
  rw [hbv]
  refine ⟨BitVec.isLt _, fun k hk => ?_⟩
  have hfield : min k (len - 1) < len := by omega
  have hfit : min (min k (len - 1)) (w - 1) = min k (len - 1) := by omega
  have hin : min (min k (len - 1) + pos) (w - 1) < w := by omega
  dsimp only
  rw [BitVec.testBit_toNat, getLsbD_signExtend_min _ hk, getLsbD_signExtend_min _ hfield, hfit,
    getLsbD_sshiftRight_min _ (by omega), BitVec.getLsbD_ofNat, bitOfExt_true_eq hw]
  simp [hin]

/-- An unsigned field of `len` bits at `pos`. -/
theorem hasBits_unsignedField {len pos : Nat} (hv : v < 2 ^ w) :
    HasBits w (wrapTo len ((v : Int) / (2 ^ pos : Nat)) % 2 ^ w) fun k => decide (k < len) && bitOfExt false w v (k + pos) := by
  have hfield : wrapTo len ((v : Int) / (2 ^ pos : Nat)) = v / 2 ^ pos % 2 ^ len := by
    rw [wrapTo, ← Int.natCast_ediv, ← Int.natCast_emod, Int.toNat_natCast]
  rw [hfield]
  refine hasBits_mod fun k _ => ?_
  rw [Nat.testBit_mod_two_pow, Nat.testBit_div_two_pow, bitOfExt_false_eq hv]

/-- BFX's field length: 6 bits of b, at most 32 where TYPE is not 64 bits wide. -/
def fieldLen (w b : Nat) : Nat := min (b / 256 % 64) (if w = 64 then 64 else 32)

theorem bfxBits_eq (ty v b : Nat) : bfxBits ty v b =
    if fieldLen (tyWidth ty) b = 0 then 0
    else if tySigned ty then wrapTo (tyWidth ty) (signExt (fieldLen (tyWidth ty) b)
      (wrapTo (fieldLen (tyWidth ty) b) (signExt (tyWidth ty) v / (2 ^ (b % 64) : Nat))))
    else wrapTo (fieldLen (tyWidth ty) b) ((v : Int) / (2 ^ (b % 64) : Nat)) % 2 ^ tyWidth ty := by
  simp only [bfxBits, fieldLen, beq_iff_eq]
  cases tySigned ty <;> rfl

theorem hasBits_bfx {ty b : Nat} (hv : v < 2 ^ tyWidth ty) : HasBits (tyWidth ty) (bfxBits ty v b) fun k =>
    if tySigned ty then decide (fieldLen (tyWidth ty) b ≠ 0)
      && bitOfExt true (tyWidth ty) v (min k (fieldLen (tyWidth ty) b - 1) + b % 64)
    else decide (k < fieldLen (tyWidth ty) b) && bitOfExt false (tyWidth ty) v (k + b % 64) := by
  rw [bfxBits_eq]
  by_cases hlen : fieldLen (tyWidth ty) b = 0
  · rw [if_pos hlen, hlen]
    exact ⟨Nat.two_pow_pos _, fun k _ => by simp⟩
  · rw [if_neg hlen]
    cases tySigned ty with
    | true => simpa [hlen] using hasBits_signedField (tyWidth_pos ty) (Nat.pos_of_ne_zero hlen)
    | false => exact hasBits_unsignedField hv

/-- The mask of a field of `len` bits at `pos`. -/
theorem hasBits_fieldMask (len pos : Nat) :
    HasBits w ((2 ^ len - 1) * 2 ^ pos % 2 ^ w) fun k => decide (pos ≤ k ∧ k < pos + len) := by
  refine hasBits_mod fun k _ => ?_
  rw [Nat.testBit_mul_two_pow, Nat.testBit_two_pow_sub_one, Bool.eq_iff_iff]
  simp only [Bool.and_eq_true, decide_eq_true_eq]
  omega

theorem hasBits_bfi {d b : Nat} : HasBits w (bfiBits w d v b) fun k =>
    if b % 64 ≤ k ∧ k < b % 64 + b / 256 % 64 then v.testBit (k - b % 64) else d.testBit k := by
  obtain ⟨hmask, hmaskBit⟩ := hasBits_fieldMask (w := w) (b / 256 % 64) (b % 64)
  obtain ⟨hrest, hrestBit⟩ := hasBits_complement hmask
  refine ⟨Nat.or_lt_two_pow (Nat.and_lt_two_pow d hrest) (Nat.and_lt_two_pow _ hmask), fun k hk => ?_⟩
  simp only [bfiBits, Nat.testBit_or, Nat.testBit_and, hrestBit k hk, hmaskBit k hk, Nat.testBit_mul_two_pow]
  by_cases hfield : b % 64 ≤ k ∧ k < b % 64 + b / 256 % 64 <;> simp [hfield]

/-! ### Reversal and counts (R94) -/

/-- The reversal of the low `j` bits of a w-bit pattern, as BREV builds it. -/
def brevUpTo (w v j : Nat) : Nat :=
  (List.range j).foldl (fun r i => if v.testBit i then r + 2 ^ (w - 1 - i) else r) 0

theorem brevBits_eq (w v : Nat) : brevBits w v = brevUpTo w v w := rfl

/-- The low j bits reversed stand at the top of the pattern. -/
theorem brevUpTo_eq (w v : Nat) : ∀ j, j ≤ w →
    ∃ a, brevUpTo w v j = 2 ^ (w - j) * a ∧ HasBits j a fun k => v.testBit (j - 1 - k) := by
  intro j
  induction j with
  | zero => exact fun _ => ⟨0, rfl, by decide, fun k hk => absurd hk (Nat.not_lt_zero k)⟩
  | succ j ih =>
    intro hj
    obtain ⟨a, heq, hlt, hbit⟩ := ih (by omega)
    have hpow : 2 ^ (w - j) = 2 ^ (w - (j + 1)) * 2 := by rw [← Nat.pow_succ]; congr 1; omega
    have hstep : brevUpTo w v (j + 1) = brevUpTo w v j + 2 ^ (w - (j + 1)) * (v.testBit j).toNat := by
      have hplace : w - 1 - j = w - (j + 1) := by omega
      rw [brevUpTo, List.range_succ, List.foldl_append, ← brevUpTo, List.foldl_cons, List.foldl_nil, hplace]
      cases v.testBit j <;> simp
    have hone : (v.testBit j).toNat < 2 := Bool.toNat_lt _
    refine ⟨2 * a + (v.testBit j).toNat, ?_, ?_, fun k hk => ?_⟩
    · rw [hstep, heq, hpow, Nat.mul_add, Nat.mul_assoc]
    · rw [Nat.pow_succ]; omega
    · cases k with
      | zero => cases h : v.testBit j <;> simp [h]
      | succ k =>
        have hhalf : (2 * a + (v.testBit j).toNat) / 2 = a := by omega
        have hplace : j + 1 - 1 - (k + 1) = j - 1 - k := by omega
        dsimp only
        rw [Nat.testBit_succ, hhalf, hbit k (by omega), hplace]

theorem hasBits_brev : HasBits w (brevBits w v) fun k => v.testBit (w - 1 - k) := by
  obtain ⟨a, heq, hbits⟩ := brevUpTo_eq w v w (Nat.le_refl w)
  rw [brevBits_eq, heq, Nat.sub_self, Nat.pow_zero, Nat.one_mul]
  exact hbits

theorem popcBits_lt (w v : Nat) : popcBits w v < 2 ^ w :=
  calc popcBits w v ≤ (List.range w).length := List.length_filter_le ..
    _ = w := List.length_range
    _ < 2 ^ w := Nat.lt_two_pow_self

theorem clzBits_lt (w v : Nat) : clzBits w v < 2 ^ w := by
  have hw : w < 2 ^ w := Nat.lt_two_pow_self
  unfold clzBits
  split <;> omega

end Sys2Proof.Machine
end

section
/-! ## Bit operations: the instructions -/

namespace Sys2Proof.Machine

section

variable {i : Instr} {body : State → Ctx → Res} {s : State} {c : Ctx} {d : Dst}

/-- An instruction whose effect is a pattern in TYPE completes with its bits. -/
theorem bitsRun_of {r : Nat → Nat} {bit : Nat → Nat → Bool} (hx : exec i s = issue i body s)
    (hb : body s c = c.resultTy s d c.ty r) (hr : s.Issues i c → ∀ l, HasBits (tyWidth c.ty) (r l) (bit l)) :
    BitsRun i s c d bit :=
  fun h => ⟨r, completes_result h hx hb, hr h⟩

/-- A two-source instruction on bit patterns acts on each bit by itself. -/
theorem bitsRun_aluBits {a b : Src} {op : Nat → Nat → Nat} {bit : Nat → Nat → Bool}
    (hx : exec i s = issue i (aluBits d a b op) s)
    (hop : ∀ l k, (op (c.srcTy c.ty a l) (c.srcTy c.ty b l)).testBit k = bit l k) : BitsRun i s c d bit :=
  bitsRun_of hx rfl fun _ l => hasBits_mod fun k _ => hop l k

/-- A one-source instruction on bit patterns whose result fits. -/
theorem natRuns_aluUnary {a : Src} {op : Nat → Nat → Nat} (hx : exec i s = issue i (aluUnary d a op) s)
    (hop : ∀ w v, op w v < 2 ^ w) : NatRuns i s c d fun l => op (tyWidth c.ty) (c.srcTy c.ty a l) := by
  intro h
  have hb : aluUnary d a op s c = c.resultTy s d c.ty fun l => op (tyWidth c.ty) (c.srcTy c.ty a l) := by
    simp only [aluUnary, Nat.mod_eq_of_lt (hop _ _)]
  exact completes_result h hx hb

end

/-- Settles O17: each instruction's pattern has the bits that its pattern law gives. -/
theorem bitOperations : Obligations.BitOperations := by
  intro s c d a b m
  have hw := tyWidth_pos c.ty
  refine ⟨?and, ?or, ?xor, ?andn, ?not, ?shl, ?shr, ?sar, ?rol, ?bfx, ?bfi, ?brev, ?popc, ?clz⟩
  case and => exact bitsRun_aluBits rfl fun l k => Nat.testBit_and ..
  case or => exact bitsRun_aluBits rfl fun l k => Nat.testBit_or ..
  case xor => exact bitsRun_aluBits rfl fun l k => Nat.testBit_xor ..
  case andn =>
    refine bitsRun_aluBits rfl fun l k => ?_
    rw [Nat.testBit_xor, Nat.testBit_and]
    cases (c.srcTy c.ty a l).testBit k <;> simp
  case not =>
    refine bitsRun_of rfl rfl fun h l => ?_
    obtain ⟨hlt, hbit⟩ := hasBits_complement (h.srcTy_lt (x := a) (.tail _ (.head _)) l)
    exact hasBits_mod hbit
  case shl => exact bitsRun_of rfl rfl fun _ l => hasBits_shl
  case shr => exact bitsRun_of rfl rfl fun h l => hasBits_shr (h.srcTy_lt (.tail _ (.head _)) l)
  case sar => exact bitsRun_of rfl rfl fun _ l => hasBits_sar hw
  case rol => exact bitsRun_of rfl rfl fun h l => hasBits_rol (h.srcTy_lt (.tail _ (.head _)) l) hw
  case bfx => exact bitsRun_of rfl rfl fun h l => hasBits_bfx (h.srcTy_lt (.tail _ (.head _)) l)
  case bfi => exact bitsRun_of rfl rfl fun _ l => hasBits_bfi
  case brev => exact bitsRun_of rfl rfl fun _ l => hasBits_mod hasBits_brev.2
  case popc => exact natRuns_aluUnary (op := popcBits) rfl popcBits_lt
  case clz =>
    have hrun := natRuns_aluUnary (i := .clz d a m) (s := s) (c := c) (op := clzBits) rfl clzBits_lt
    simpa only [clzBits, beq_iff_eq] using hrun

end Sys2Proof.Machine
end

section
/-! ## Accesses that complete: what a store at its place leaves as it was -/

namespace Sys2Proof.Machine

/-- The machine without what a store at its place may change beside memory: the caches and tables of dies, the partitions,
    staged entries, and what copy commands keep of the bytes. -/
def State.unstored (s : State) : State := { s with dies := [], parts := [], staged := [], cmds := [] }

theorem State.unstored_wrBytes (s : State) (x : Nat) (bs : List Byte) :
    (s.wrBytes x bs).unstored = s.unstored.wrBytes x bs := by
  induction bs generalizing s x with
  | nil => rfl
  | cons b bs ih => exact ih (s.wrByte x b) (x + 1)

theorem State.wrBytes_wbuf (s : State) (x : Nat) (bs : List Byte) : ∃ ws, s.wrBytes x bs = { s with wbuf := ws } := by
  induction bs generalizing s x with
  | nil => exact ⟨s.wbuf, rfl⟩
  | cons b bs ih => exact ih (s.wrByte x b) (x + 1)

@[simp] theorem State.wrBytes_mem (s : State) (x : Nat) (bs : List Byte) : (s.wrBytes x bs).mem = s.mem := by
  obtain ⟨_, h⟩ := s.wrBytes_wbuf x bs; rw [h]

@[simp] theorem State.wrBytes_accs (s : State) (x : Nat) (bs : List Byte) : (s.wrBytes x bs).accs = s.accs := by
  obtain ⟨_, h⟩ := s.wrBytes_wbuf x bs; rw [h]

@[simp] theorem State.wrBytes_flaws (s : State) (x : Nat) (bs : List Byte) : (s.wrBytes x bs).flaws = s.flaws := by
  obtain ⟨_, h⟩ := s.wrBytes_wbuf x bs; rw [h]

theorem State.unstored_lostWrite (s : State) (x n : Nat) : (s.lostWrite x n).unstored = s.unstored := by
  fun_cases State.lostWrite <;> rfl

theorem State.unstored_spoil (s : State) (pa n : Nat) : (s.spoil pa n).unstored = s.unstored := by
  fun_cases State.spoil <;> rfl

theorem State.unstored_l2Dirty (s : State) (pa : Nat) : (s.l2Dirty pa).unstored = s.unstored := by
  fun_cases State.l2Dirty <;> rfl

/-- A write at a point of coherence writes its bytes, whatever the sharers do (R177). -/
theorem State.unstored_pocShare (s : State) (pa : Nat) (bs : List Byte) (f : Part → Line → Line) :
    (s.pocShare pa bs f).unstored = s.unstored.wrBytes pa bs :=
  calc (s.pocShare pa bs f).unstored
      = ((((s.wrBytes pa bs).lostWrite pa bs.length).spoil pa bs.length).l2Dirty pa).unstored := rfl
    _ = s.unstored.wrBytes pa bs := by
      rw [State.unstored_l2Dirty, State.unstored_spoil, State.unstored_lostWrite, State.unstored_wrBytes]

theorem State.unstored_l2Touch {s : State} (hf : s.flaws = []) (t : Terrace) (va : Nat) (p : Phys) (first : Bool) :
    (s.l2Touch t va p first).1.unstored = s.unstored := by
  unfold State.l2Touch
  split
  · dsimp only
    split
    · rfl
    · simp only [State.l2Leave, hf, List.isEmpty_nil, if_true]; rfl
  · rfl

/-- A write at a point of coherence, with whatever its sharers do. -/
def WritesHere (put : State → Nat → List Byte → State) : Prop :=
  ∀ s pa bs, (put s pa bs).unstored = s.unstored.wrBytes pa bs

theorem writesHere_pocWrite : WritesHere State.pocWrite := fun s pa bs => s.unstored_pocShare pa bs _

theorem writesHere_pocSend (core id : Nat) : WritesHere fun s pa bs => s.pocSend core id pa bs :=
  fun s pa bs => s.unstored_pocShare pa bs _

/-- A core's store to a line that its near cache does not hold writes its bytes at their place (R176, R239). -/
theorem State.unstored_storeBy {s : State} {put : State → Nat → List Byte → State} (hput : WritesHere put)
    (hf : s.flaws = []) {t : Terrace} {ph : Phys} (hnear : ∀ p, s.part? t.core t.vf = some p → p.nearLine ph.pa = none)
    (va : Nat) (bypass shot : Bool) (bs : List Byte) :
    (s.storeBy put t va ph bypass shot bs).unstored = s.unstored.wrBytes ph.pa bs := by
  have hs : (if shot then s else (s.l2Touch t va ph false).1).unstored = s.unstored := by
    split
    · rfl
    · exact State.unstored_l2Touch hf t va ph false
  have hstored : (put (if shot then s else (s.l2Touch t va ph false).1) ph.pa bs).unstored = s.unstored.wrBytes ph.pa bs := by
    rw [hput, hs]
  unfold State.storeBy
  split
  case h_1 => exact hput s ph.pa bs
  case h_2 p hp =>
    rw [hnear p hp]
    simp only [Option.isSome_none, Bool.false_eq_true, if_false]
    split <;> exact hstored

/-- A read at the point of coherence of a page outside COMMUTE changes nothing. -/
theorem State.pocRead_state {ph : Phys} (hc : ph.leaf.cls ≠ clsCommute) (s : State) (core vf ter n : Nat) :
    (s.pocRead core vf ter ph n).1 = s := by
  unfold State.pocRead
  rw [if_neg (by simpa using hc)]
  split
  · rfl
  · split <;> rfl

theorem foldl_cmds {β : Type} (f : State → β → State) (hf : ∀ s b, ∃ cs, f s b = { s with cmds := cs }) (l : List β)
    (s : State) : ∃ cs, l.foldl f s = { s with cmds := cs } := by
  induction l generalizing s with
  | nil => exact ⟨s.cmds, rfl⟩
  | cons b l ih =>
    obtain ⟨_, hb⟩ := hf s b
    obtain ⟨cs, hl⟩ := ih (f s b)
    exact ⟨cs, by rw [List.foldl_cons, hl, hb]⟩

/-- What commands keep of the bytes of a request, before it is performed and after, is all that is noted of it (R226). -/
theorem State.noteSeen_cmds {r : Req} {ph : Phys} (hp : r.page = some ph) (hc : ph.leaf.cls ≠ clsCommute) (s : State)
    (ter before : Nat) : ∃ cs, s.noteSeen ter before r = { s with cmds := cs } := by
  refine foldl_cmds _ (fun u c => ?_) _ s
  simp only [hp, State.pocRead_state hc]
  exact ⟨_, rfl⟩

theorem State.unstored_noteDone {r : Req} {ph : Phys} (hp : r.page = some ph) (hc : ph.leaf.cls ≠ clsCommute) (s : State)
    (a : Access) : (s.noteDone a r).unstored = s.unstored := by
  have hcmds : ∃ cs, s.noteDone a r = { s with cmds := cs } := by
    unfold State.noteDone
    split
    · exact ⟨s.cmds, rfl⟩
    · refine foldl_cmds _ (fun u c => ?_) _ s
      simp only [hp, State.pocRead_state hc]
      exact ⟨_, rfl⟩
  obtain ⟨_, h⟩ := hcmds
  rw [h]; rfl

theorem State.correct_flawless {s : State} (hf : s.flaws = []) (us : List Nat) : s.correct us = s := by
  unfold State.correct; rw [hf]; rfl

/-- One request of a store as its step performs it, `put` writing its bytes. -/
def State.perform (s : State) (put : State → Nat → List Byte → State) (a : Access) (r : Req) (ph : Phys) (bypass : Bool)
    (us : List Nat) : State :=
  (((s.noteSeen a.ter a.id r).storeBy put (s.accTer a) r.ea ph bypass r.shot (natBytes r.len r.data)).noteDone a r).correct us

/-- It writes the request's bytes at their place, where the near cache of the terrace's core does not hold their line. -/
theorem State.unstored_perform {s : State} {put : State → Nat → List Byte → State} (hput : WritesHere put) {a : Access}
    {r : Req} {ph : Phys} (hp : r.page = some ph) (hc : ph.leaf.cls ≠ clsCommute) (hf : s.flaws = [])
    (hnear : ∀ p, s.part? (s.accTer a).core (s.accTer a).vf = some p → p.nearLine ph.pa = none) (bypass : Bool)
    (us : List Nat) : (s.perform put a r ph bypass us).unstored = s.unstored.wrBytes ph.pa (natBytes r.len r.data) := by
  obtain ⟨cs, hseen⟩ := State.noteSeen_cmds hp hc s a.ter a.id
  have hstore := State.unstored_storeBy (s := { s with cmds := cs }) (t := s.accTer a) hput hf hnear r.ea bypass r.shot
    (natBytes r.len r.data)
  have hdone := (State.unstored_noteDone hp hc _ a).trans hstore
  have hflaws : (State.noteDone _ a r).flaws = [] := (congrArg State.flaws hdone).trans ((State.wrBytes_flaws ..).trans hf)
  rw [State.perform, hseen, State.correct_flawless hflaws]
  exact hdone

/-- Byte k of the little-endian bytes of a number. -/
theorem natBytes_getD {n k : Nat} (hk : k < n) (x : Nat) :
    (natBytes n x).getD k 0 = BitVec.ofNat 8 (x / 256 ^ k) := by
  induction n generalizing k x with
  | zero => omega
  | succ n ih =>
    cases k with
    | zero => simp [natBytes]
    | succ k =>
      rw [natBytes, List.getD_cons_succ, ih (Nat.lt_of_succ_lt_succ hk), Nat.div_div_eq_div_mul, Nat.pow_succ,
        Nat.mul_comm 256]

/-- Between two states the bytes of a number are stored at an address, and no other byte changes. -/
def State.Stored (s t : State) (x n v : Nat) : Prop :=
  (∀ k, k < n → t.rdByte (x + k) = BitVec.ofNat 8 (v / 256 ^ k)) ∧ ∀ y, y < x ∨ x + n ≤ y → t.rdByte y = s.rdByte y

/-- What a step wrote stands there at its end. -/
theorem State.stored_commit {s v u : State} {x n d : Nat} (hv : v.unstored = s.unstored.wrBytes x (natBytes n d))
    (hum : u.mem = v.mem) (huw : u.wbuf = v.wbuf) : s.Stored (commit s u) x n d := by
  have hvm := congrArg State.mem hv
  rw [State.wrBytes_mem] at hvm
  have hmem : u.mem = s.mem := hum.trans hvm
  have hbyte (y : Nat) : (commit s u).rdByte y = if x ≤ y ∧ y < x + n then (natBytes n d).getD (y - x) 0 else s.rdByte y :=
    calc (commit s u).rdByte y
        = u.rdByte y := rdByte_commit hmem y
      _ = v.unstored.rdByte y := by rw [State.rdByte, hum, huw]; rfl
      _ = if x ≤ y ∧ y < x + n then (natBytes n d).getD (y - x) 0 else s.rdByte y := by
        rw [hv, State.rdByte_wrBytes, natBytes_length]; rfl
  refine ⟨fun k hk => ?_, fun y hy => ?_⟩
  · rw [hbyte, if_pos ⟨by omega, by omega⟩, Nat.add_sub_cancel_left, natBytes_getD hk]
  · rw [hbyte, if_neg (by omega)]

end Sys2Proof.Machine
end

section
/-! ## Accesses that complete: their ends -/

namespace Sys2Proof.Machine

/-- Between two states only terraces have changed, and each has the registers it had. -/
def State.Resumes (s u : State) : Prop :=
  ∃ ts, u = { s with ters := ts } ∧ ∀ k t, s.ter? k = some t → ∃ w, u.ter? k = some w ∧ w.regs = t.regs

theorem State.resumes_refl (s : State) : s.Resumes s := ⟨s.ters, rfl, fun _ t h => ⟨t, h, rfl⟩⟩

theorem State.Resumes.trans {s u w : State} (h : s.Resumes u) (h' : u.Resumes w) : s.Resumes w := by
  obtain ⟨_, rfl, hs⟩ := h
  obtain ⟨ts, rfl, hu⟩ := h'
  refine ⟨ts, rfl, fun k t hk => ?_⟩
  obtain ⟨x, hx, ex⟩ := hs k t hk
  obtain ⟨y, hy, ey⟩ := hu k x hx
  exact ⟨y, hy, ey.trans ex⟩

theorem State.resumes_updTer (s : State) (u : Nat) {f : Terrace → Terrace} (hu : ∀ t, (f t).uid = t.uid)
    (hr : ∀ t, (f t).regs = t.regs) : s.Resumes (s.updTer u f) := by
  refine ⟨_, rfl, fun k t hk => ?_⟩
  by_cases h : k = u
  · subst h; exact ⟨f t, State.ter?_updTer_same hk f hu, hr t⟩
  · exact ⟨t, (State.ter?_updTer_other s h f hu).trans hk, rfl⟩

theorem State.resumes_returned (s : State) (ter id : Nat) : s.Resumes (s.returned ter id) :=
  s.resumes_updTer ter (fun _ => rfl) fun _ => rfl

theorem State.resumes_retireHeld (s : State) (uid sid : Nat) : s.Resumes (s.retireHeld uid sid) := by
  unfold State.retireHeld
  split
  · exact s.resumes_refl
  · split
    · exact s.resumes_refl
    · exact s.resumes_updTer uid (fun _ => rfl) fun _ => rfl

/-- A load or a store that met no error only lets the split go on that it held. -/
theorem State.resumes_afterReturn {s : State} {a : Access} (he : a.errs = [])
    (hk : (∃ w sg by_, a.kind = .load w sg by_) ∨ ∃ w by_, a.kind = .store w by_) : s.Resumes (s.afterReturn a) := by
  unfold State.afterReturn
  split
  · exact s.resumes_refl
  · split
    · exact s.resumes_refl
    · split
      · exact s.resumes_refl
      · rw [he]
        obtain ⟨_, _, _, hk⟩ | ⟨_, _, hk⟩ := hk <;> rw [hk] <;> exact s.resumes_retireHeld ..

end Sys2Proof.Machine
end

section
/-! ## Accesses that complete: a lane alone -/

namespace Sys2Proof.Machine

/-- An access of one lane that may complete and has met no error, in a state with no upset. -/
structure State.Lone (s : State) (a : Access) (r : Req) : Prop where
  found : s.access? a.ter a.id = some a
  may : s.mayComplete a (1#32 <<< r.lane) = true
  lane : r.lane < 32
  only : a.reqs = [r]
  clean : a.errs = []
  sound : s.flaws = []

/-- The machine without the accesses of a number. -/
def State.without (s : State) (id : Nat) : State := { s with accs := s.accs.filter fun x => x.id != id }

theorem State.access?_without (s : State) (ter id : Nat) : (s.without id).access? ter id = none := by
  rw [State.access?, State.without, List.find?_eq_none]
  intro x hx hid
  simp only [List.mem_filter, bne_iff_ne, Bool.and_eq_true, beq_iff_eq] at hx hid
  exact hx.2 hid.2

theorem oneBit_getLsbD {l : Nat} (h : l < 32) : (1#32 <<< l).getLsbD l = true := by
  simp [h]

theorem Access.sel_lone {a : Access} {r : Req} (hl : r.lane < 32) (ho : a.reqs = [r]) : a.sel (1#32 <<< r.lane) = [r] := by
  simp only [Access.sel, ho, List.filter_cons, oneBit_getLsbD hl, if_true, List.filter_nil]

/-- A load or a store whose only lane completes is over, and its split goes on where it held it (R182). -/
theorem State.resumes_lone {s : State} {a : Access} {r : Req} (hl : r.lane < 32) (ho : a.reqs = [r]) (he : a.errs = [])
    (hk : (∃ w sg by_, a.kind = .load w sg by_) ∨ ∃ w by_, a.kind = .store w by_) :
    (s.without a.id).Resumes ((s.closeReqs a (1#32 <<< r.lane)).afterReturn a) := by
  have hclose : s.closeReqs a (1#32 <<< r.lane) = (s.without a.id).returned a.ter a.id := by
    simp only [State.closeReqs, ho, List.filter_cons, oneBit_getLsbD hl, Bool.not_true, Bool.false_eq_true, if_false,
      List.filter_nil, List.isEmpty_nil, if_true, State.without]
  rw [hclose]
  exact (State.resumes_returned ..).trans (State.resumes_afterReturn he hk)

/-- A search that only an access of its number answers finds the access that has replaced it. -/
theorem State.find?_setAccess {s : State} {a b : Access} {q : Access → Bool} (ha : a ∈ s.accs) (hid : b.id = a.id)
    (hq : ∀ x, q x = true → x.id = a.id) (hb : q b = true) : (s.setAccess b).accs.find? q = some b := by
  have hin : b ∈ (s.setAccess b).accs := List.mem_map.2 ⟨a, ha, if_pos hid.symm⟩
  cases h : (s.setAccess b).accs.find? q with
  | none => exact absurd hb (by simpa using List.find?_eq_none.1 h b hin)
  | some x =>
    obtain ⟨y, _, hy⟩ := List.mem_map.1 (List.mem_of_find?_eq_some h)
    have hx := hq x (List.find?_some h)
    split at hy
    · rw [hy]
    · exact absurd ((congrArg Access.id hy).trans (hx.trans hid.symm)) ‹_›

theorem State.accNow_setAccess {s : State} {a b : Access} (ha : a ∈ s.accs) (hid : b.id = a.id) :
    (s.setAccess b).accNow a = b := by
  rw [State.accNow, State.find?_setAccess ha hid (fun x hx => by simpa using hx) (by simpa using hid), Option.getD_some]

theorem State.setAccess_self {s : State} {a : Access} (ho : ∀ b ∈ s.accs, b.id = a.id → b = a) : s.setAccess a = s := by
  have : s.accs.map (fun x => if x.id = a.id then a else x) = s.accs := by
    refine (List.map_congr_left fun x hx => ?_).trans (List.map_id _)
    split
    · exact (ho x hx ‹_›).symm
    · rfl
  unfold State.setAccess; rw [this]

/-- The event LOAD_RETURN of a load of one lane, and STORE_ACKNOWLEDGEMENT of a store of one lane. -/
theorem State.Lone.returns {s : State} {a : Access} {r : Req} (h : s.Lone a r) {w : Nat} {sg by_ : Bool}
    (hk : a.kind = .load w sg by_) :
    exec (.loadReturn a.ter a.id (1#32 <<< r.lane)) s = .next (commit s (s.loadReturn a (1#32 <<< r.lane))) := by
  show execLoadReturn a.ter a.id _ s = _
  simp only [execLoadReturn, h.found, hk, AccKind.returning, h.may, event, State.noted_sound h.sound, Bool.true_or,
    Bool.and_self, if_true]

theorem State.Lone.acknowledges {s : State} {a : Access} {r : Req} (h : s.Lone a r) {w : Nat} {by_ : Bool}
    (hk : a.kind = .store w by_) :
    exec (.storeAcknowledgement a.ter a.id (1#32 <<< r.lane)) s = .next (commit s (s.storeStep a (1#32 <<< r.lane))) := by
  show execStoreAcknowledgement a.ter a.id _ s = _
  simp only [execStoreAcknowledgement, h.found, hk, h.may, event, State.noted_sound h.sound, Bool.and_self, if_true]

end Sys2Proof.Machine
end

section
/-! ## Accesses that complete: loads -/

namespace Sys2Proof.Machine

/-- The words that a load of w bytes writes: narrow signed values extended, eight bytes and more as a pair (R64, R189). -/
def loadWords (w : Nat) (sg : Bool) (v : Nat) : List Word :=
  if w ≤ 2 ∧ sg = true then [BitVec.ofInt 32 (signExt (8 * w) v)]
  else if w ≤ 4 then [BitVec.ofNat 32 v] else wordsOf (w / 4) v

theorem Access.words_load {a : Access} {w : Nat} {sg by_ : Bool} (hk : a.kind = .load w sg by_) (hw : w ∈ [1, 2, 4, 8, 16])
    (v : Nat) : a.words v = (decide (8 ≤ w), loadWords w sg v) := by
  have hwrap (n : Int) : BitVec.ofNat 32 (wrapTo 32 n) = BitVec.ofInt 32 n := by
    apply BitVec.eq_of_toNat_eq
    rw [BitVec.toNat_ofNat, BitVec.toNat_ofInt, wrapTo, Nat.mod_eq_of_lt (by omega)]
  simp only [List.mem_cons, List.not_mem_nil, or_false] at hw
  obtain rfl | rfl | rfl | rfl | rfl := hw <;> cases sg <;> simp [Access.words, hk, loadWords, wordsOf, hwrap]

section

variable {s : State} {a : Access} {r : Req} {w : Nat} {sg by_ : Bool}

/-- A request of w bytes to a store of the chip, its value not yet fixed. -/
structure Req.OnChip (r : Req) (w : Nat) : Prop where
  page : r.page = none
  reg : r.reg = none
  bound : r.bound = none
  len : r.len = w

/-- A load's value is written to its destination in its lane; of an s destination the access keeps which lane it was (R242). -/
theorem State.deliver_load (hk : a.kind = .load w sg by_) (hlow : a.low = none) (hl : r.lane < 32) (ha : a ∈ s.accs)
    (ho : ∀ b ∈ s.accs, b.id = a.id → b = a) (v : Nat) :
    ∃ low, s.deliver a r v = (s.setAccess { a with low := low }).updTer a.ter fun t =>
      t.writeDst a.dst (a.words v).1 (1#32 <<< r.lane) fun _ => (a.words v).2 := by
  have hsame : s.setAccess { a with low := a.low } = s := State.setAccess_self ho
  unfold State.deliver
  split
  case h_1 hk' => cases hk'.symm.trans hk
  case h_2 hk' => cases hk'.symm.trans hk
  case h_3 =>
    dsimp only
    split
    · have hnow : (s.accs.find? fun x => x.id == a.id).getD a = a := by
        rw [← State.setAccess_self ho]; exact State.accNow_setAccess ha rfl
      rw [hnow, hlow, if_neg (by simpa using hl)]
      exact ⟨some r.lane, rfl⟩
    · exact ⟨a.low, by rw [hsame]⟩

/-- The return of a load's only lane delivers the bytes at its on-chip place, and ends the access (R192). -/
theorem State.Lone.loadReturn_eq (h : s.Lone a r) (hk : a.kind = .load w sg by_) (hl : r.OnChip w) (hw : w ∈ [1, 2, 4, 8, 16])
    (hlow : a.low = none) (ho : ∀ b ∈ s.accs, b.id = a.id → b = a) :
    ∃ low, s.loadReturn a (1#32 <<< r.lane) = (((s.setAccess { a with low := low }).updTer a.ter fun t =>
      t.writeDst a.dst (decide (8 ≤ w)) (1#32 <<< r.lane) fun _ => loadWords w sg (s.rdNat r.loc w)).closeReqs
        { a with low := low } (1#32 <<< r.lane)).afterReturn { a with low := low } := by
  have ha : a ∈ s.accs := List.mem_of_find?_eq_some h.found
  have hreturn : s.returnReq a r = s.deliver a r (s.rdNat r.loc w) := by
    simp only [State.returnReq, hk, State.bindLoad, hl.bound, hl.page, Req.chip, hl.reg, State.chipRead, hl.len]
  obtain ⟨low, hdeliver⟩ := State.deliver_load hk hlow h.lane ha ho (s.rdNat r.loc w)
  rw [Access.words_load hk hw] at hdeliver
  have hnow := State.accNow_setAccess (s := s) (b := { a with low := low }) ha rfl
  have hfold : (a.sel (1#32 <<< r.lane)).foldl (fun s r => (s.returnReq a r).correct (s.unitsOf a r)) s
      = s.deliver a r (s.rdNat r.loc w) := by
    have hsound : (s.deliver a r (s.rdNat r.loc w)).flaws = [] := by rw [hdeliver]; exact h.sound
    rw [Access.sel_lone h.lane h.only, List.foldl_cons, List.foldl_nil, hreturn, State.correct_flawless hsound]
  refine ⟨low, ?_⟩
  unfold State.loadReturn
  rw [hfold, hdeliver]
  dsimp only
  rw [show ∀ f, ((s.setAccess { a with low := low }).updTer a.ter f).accNow a = { a with low := low } from fun _ => hnow]

/-- It writes the bytes to its destination in that lane, and changes no byte of memory (R192, R194). -/
theorem State.Lone.loads (h : s.Lone a r) (hk : a.kind = .load w sg by_) (hl : r.OnChip w) (hw : w ∈ [1, 2, 4, 8, 16])
    (hlow : a.low = none) (ho : ∀ b ∈ s.accs, b.id = a.id → b = a) {t : Terrace} (ht : s.ter? a.ter = some t) :
    Answers (exec (.loadReturn a.ter a.id (1#32 <<< r.lane)) s) fun u =>
      u.access? a.ter a.id = none ∧ (∀ y, u.rdByte y = s.rdByte y)
      ∧ ∃ x, u.ter? a.ter = some x
        ∧ x.regs = (t.writeDst a.dst (decide (8 ≤ w)) (1#32 <<< r.lane) fun _ => loadWords w sg (s.rdNat r.loc w)).regs := by
  refine ⟨_, h.returns hk, ?_⟩
  obtain ⟨low, heq⟩ := h.loadReturn_eq hk hl hw hlow ho
  have hter := State.ter?_updTer_same (s := s.setAccess { a with low := low }) ht
    (fun t => t.writeDst a.dst (decide (8 ≤ w)) (1#32 <<< r.lane) fun _ => loadWords w sg (s.rdNat r.loc w))
    fun _ => Terrace.writeDst_uid ..
  obtain ⟨ts, hend, hregs⟩ := State.resumes_lone (s := State.updTer _ a.ter _) (a := { a with low := low }) h.lane h.only
    h.clean (.inl ⟨w, sg, by_, hk⟩)
  obtain ⟨x, hx, hxr⟩ := hregs a.ter _ hter
  rw [heq]
  refine ⟨?_, fun y => ?_, x, hx, hxr⟩
  · rw [hend]; exact State.access?_without ..
  · rw [hend]; exact rdByte_commit rfl y

end

end Sys2Proof.Machine
end

section
/-! ## Accesses that complete: stores -/

namespace Sys2Proof.Machine

section

variable {s : State} {a : Access} {r : Req} {ph : Phys} {w : Nat} {by_ : Bool}

/-- A store of one lane goes to a page of this module whose line the near cache of its terrace's core does not hold. -/
structure State.StoresHere (s : State) (a : Access) (r : Req) (ph : Phys) (w : Nat) (by_ : Bool) : Prop extends s.Lone a r where
  kind : a.kind = .store w by_
  page : r.page = some ph
  home : ∃ d, ph.owner = .die d
  near : ∀ p, s.part? (s.accTer a).core (s.accTer a).vf = some p → p.nearLine ph.pa = none
  free : r.bound = none

/-- The acknowledgement that performs a store puts its bytes at their physical address, leaves every other byte, and ends
    the access (R176, R182). -/
theorem State.StoresHere.ack (h : s.StoresHere a r ph w by_) (hc : ph.leaf.cls ≠ clsCommute) :
    (s.storeAck a (1#32 <<< r.lane)).access? a.ter a.id = none
      ∧ s.Stored (commit s (s.storeAck a (1#32 <<< r.lane))) ph.pa r.len r.data := by
  obtain ⟨d, hd⟩ := h.home
  have hter : (s.noteSeen a.ter a.id r).accTer a = s.accTer a := by
    obtain ⟨_, hseen⟩ := State.noteSeen_cmds h.page hc s a.ter a.id
    rw [hseen]; rfl
  have hfold : s.storeAck a (1#32 <<< r.lane) = ((s.perform State.pocWrite a r ph by_ (s.unitsOf a r)).closeReqs a
      (1#32 <<< r.lane)).afterReturn a := by
    simp only [State.storeAck, Access.sel_lone h.lane h.only, List.foldl_cons, List.foldl_nil, Req.sent, h.free,
      State.ackReq, h.page, hd, h.kind, hter]
    rfl
  obtain ⟨ts, hend, _⟩ := State.resumes_lone (s := s.perform State.pocWrite a r ph by_ (s.unitsOf a r)) h.lane h.only h.clean
    (.inr ⟨w, by_, h.kind⟩)
  rw [hfold, hend]
  exact ⟨State.access?_without .., State.stored_commit (State.unstored_perform writesHere_pocWrite h.page hc h.sound h.near ..)
    rfl rfl⟩

/-- The step that sends a store to the slice puts its bytes there and leaves the access open, the request marked (R177). -/
theorem State.StoresHere.send (h : s.StoresHere a r ph w by_) (hc : ph.leaf.cls ≠ clsCommute) (hs : s.sharedAfar a r = true) :
    (s.storeSend a (1#32 <<< r.lane)).access? a.ter a.id = some { a with reqs := [{ r with bound := some 0 }] }
      ∧ s.Stored (commit s (s.storeSend a (1#32 <<< r.lane))) ph.pa r.len r.data := by
  have hfold : s.storeSend a (1#32 <<< r.lane) = (s.perform (fun s pa bs => s.pocSend a.core a.id pa bs) a r ph by_
      (s.unitsOf a r)).setAccess { a with reqs := [{ r with bound := some 0 }] } := by
    simp only [State.storeSend, Access.sel_lone h.lane h.only, List.filter_cons, hs, if_true, List.filter_nil, List.foldl_cons,
      List.foldl_nil, h.page, h.kind, h.only, List.map_cons, List.map_nil, List.contains_cons, beq_self_eq_true, Bool.true_or]
    rfl
  have hbytes := State.unstored_perform (writesHere_pocSend a.core a.id) h.page hc h.sound h.near by_ (s.unitsOf a r)
  rw [hfold]
  refine ⟨State.find?_setAccess (a := a) ?_ rfl (fun x hx => ?_) (by simp), State.stored_commit hbytes rfl rfl⟩
  · have haccs := congrArg State.accs hbytes
    rw [State.wrBytes_accs] at haccs
    exact haccs ▸ List.mem_of_find?_eq_some h.found
  · simp only [Bool.and_eq_true, beq_iff_eq] at hx; exact hx.2

/-- A store to an UPDATE line that other cores share may stand at the slice before they have applied it, or end at once: its
    bytes stand there in either case (R177). -/
theorem State.StoresHere.shared (h : s.StoresHere a r ph w by_) (hs : s.sharedAfar a r = true) :
    Answers (exec (.storeAcknowledgement a.ter a.id (1#32 <<< r.lane)) s) fun t =>
      (t.access? a.ter a.id = none ∨ t.access? a.ter a.id = some { a with reqs := [{ r with bound := some 0 }] })
      ∧ s.Stored t ph.pa r.len r.data := by
  have hc : ph.leaf.cls ≠ clsCommute := by
    simp only [State.sharedAfar, h.kind, h.page, Bool.and_eq_true, beq_iff_eq] at hs
    rw [hs.1.2]; decide
  -- the step draws one free value, which nothing else of the store sees
  have h1 : State.StoresHere { s with tick := s.tick + 1 } a r ph w by_ :=
    ⟨⟨h.found, h.may, h.lane, h.only, h.clean, h.sound⟩, h.kind, h.page, h.home, h.near, h.free⟩
  refine ⟨_, h.toLone.acknowledges h.kind, ?_⟩
  simp only [State.storeStep, Access.sel_lone h.lane h.only, List.any_cons, hs, Bool.true_or, if_true]
  split
  · exact ⟨.inr (h1.send hc hs).1, (h1.send hc hs).2⟩
  · exact ⟨.inl (h1.ack hc).1, (h1.ack hc).2⟩

/-- The acknowledgement of a store that no other core shares performs it and ends it. -/
theorem State.StoresHere.unshared (h : s.StoresHere a r ph w by_) (hc : ph.leaf.cls ≠ clsCommute)
    (hs : s.sharedAfar a r = false) :
    Answers (exec (.storeAcknowledgement a.ter a.id (1#32 <<< r.lane)) s) fun t =>
      t.access? a.ter a.id = none ∧ s.Stored t ph.pa r.len r.data := by
  refine ⟨_, h.toLone.acknowledges h.kind, ?_⟩
  simp only [State.storeStep, Access.sel_lone h.lane h.only, List.any_cons, hs, Bool.false_or, List.any_nil,
    Bool.false_eq_true, if_false]
  exact h.ack hc

/-- Every sharer has then applied what it owed of the access. -/
theorem State.settleShares_due (s : State) (id : Nat) :
    ∀ p ∈ (s.settleShares id).parts, ∀ l ∈ p.lines, ∀ e ∈ l.due, e.1 ≠ id := by
  intro p hp l hl e he
  obtain ⟨q, _, rfl⟩ := List.mem_map.1 hp
  obtain ⟨l0, _, rfl⟩ := List.mem_map.1 hl
  split at he
  next => cases he
  next hdue => exact fun hid => hdue (List.any_eq_true.2 ⟨e, he, beq_iff_eq.2 hid⟩)

/-- The acknowledgement of a store whose bytes stand at the slice changes no byte, ends the access, and leaves nothing that a
    sharer owes of it (R177). -/
theorem State.Lone.settles (h : s.Lone a r) (hk : a.kind = .store w by_) (hs : r.sent = true) :
    Answers (exec (.storeAcknowledgement a.ter a.id (1#32 <<< r.lane)) s) fun t =>
      t.access? a.ter a.id = none ∧ (∀ y, t.rdByte y = s.rdByte y)
      ∧ ∀ p ∈ t.parts, ∀ l ∈ p.lines, ∀ e ∈ l.due, e.1 ≠ a.id := by
  have hbound : r.bound.isNone = false := by
    simp only [Req.sent, Bool.and_eq_true] at hs
    rw [← Option.not_isSome, hs.1]; rfl
  have hshared : s.sharedAfar a r = false := by
    unfold State.sharedAfar
    split <;> simp [hbound]
  have hstep : s.storeStep a (1#32 <<< r.lane)
      = ((s.settleShares a.id).closeReqs a (1#32 <<< r.lane)).afterReturn a := by
    simp only [State.storeStep, State.storeAck, Access.sel_lone h.lane h.only, List.any_cons, List.any_nil, hshared, Bool.or_self,
      Bool.false_eq_true, if_false, List.foldl_cons, List.foldl_nil, hs, if_true]
  obtain ⟨ts, hend, _⟩ := State.resumes_lone (s := s.settleShares a.id) h.lane h.only h.clean (.inr ⟨w, by_, hk⟩)
  refine ⟨_, h.acknowledges hk, ?_⟩
  rw [hstep, hend]
  exact ⟨State.access?_without .., fun y => rdByte_commit rfl y, s.settleShares_due a.id⟩

end

end Sys2Proof.Machine
end

section
/-! ## Accesses that complete: a store recorded on another core than its terrace's -/

namespace Sys2Proof.Machine

/-- An UNTRACKED page of die 0 that user code may read and write, at physical address 0x40000000. -/
def strayPage : Phys := ⟨0x40000000, ⟨1, 0x4000, 0, 0, 0, false, 0, 0, true, true, false, true⟩, .die 0, false⟩

/-- A store of the byte 1 there in lane 0. -/
def strayReq : Req := ⟨0, 2 ^ 32, 0x40000000, 1, none, some strayPage, 1, 0, none, 0, false, [], false⟩

/-- Its access names core 0, and terrace 1. -/
def strayStore : Access := ⟨2, 1, 0, 0, 0, 0, 0, 0, .store 1 false, .none, 0, 0, 0, 1#32, [strayReq], false, [], none⟩

/-- Terrace 1 stands on core 1, whose near cache holds the line; core 0 has no partition. -/
def strayState : State :=
  { State.reset with
    ters := [.blank 1 1 0 0 0]
    accs := [strayStore]
    parts := [{ Part.fresh 1 0 0 15 15 0 4 with
      near := [⟨0x4000000, 0, 0x40000000, strayPage.leaf, .die 0, List.replicate 64 0, none, []⟩] }] }

/-- The step writes the NEAR line of core 1, and the byte of memory stays 0. -/
theorem strayStore_leaves_memory {t : State} (ht : exec (.storeAcknowledgement 1 2 1#32) strayState = .next t) :
    t.rdByte 0x40000000 = 0 := by
  have hstep : exec (.storeAcknowledgement 1 2 1#32) strayState
      = .next (commit strayState ((strayState.storeStep strayStore 1#32).noted strayState)) := rfl
  rw [hstep] at ht
  obtain rfl := Host.Outcome.next.inj ht
  decide +kernel

/-- Refutes O37: of an unshared store it asks that the near cache of the core that the access records does not hold the line,
    and `State.storeBy` looks in the near cache of the core of the access's terrace. Where the two cores differ, that line
    takes the bytes and memory does not. Each clause holds where the near cache meant is the terrace's: `State.Lone.loads`,
    `State.StoresHere.unshared`, `State.StoresHere.shared`, `State.Lone.settles`. -/
theorem not_accessesComplete : ¬ Obligations.AccessesComplete := by
  unfold Obligations.AccessesComplete
  intro h
  obtain ⟨_, _, hstore, _⟩ := h strayState strayStore 0
  have hnear : ∀ p, strayState.part? strayStore.core strayStore.vf = some p → p.nearLine strayPage.pa = none := by
    intro p hp; cases hp
  obtain ⟨t, ht, _, hbytes, _⟩ := hstore strayReq strayPage 0 1 false (by decide) (by decide) (by decide) rfl rfl rfl rfl
    (by decide) rfl rfl rfl hnear rfl (by decide)
  have hone : t.rdByte 0x40000000 = 1 := hbytes 0 (by decide)
  rw [strayStore_leaves_memory ht] at hone
  exact absurd hone (by decide)

end Sys2Proof.Machine
end

section
/-! ## Crossings: what the records and the writes of a landing leave alone -/

namespace Sys2Proof.Machine

/-- What a crossing decides about: the domains, and of every staged entry its domain, its terrace's arrivals and its terrace. -/
def State.crossView (s : State) : List (DomKey × Domain) × List (DomKey × Nat × Nat) :=
  (s.domains, s.staged.map fun e => (e.dom, e.after, e.ter))

theorem State.dom_of_crossView {s t : State} (h : t.crossView = s.crossView) (k : DomKey) : t.dom k = s.dom k := by
  have hd : t.domains = s.domains := congrArg Prod.fst h
  rw [State.dom, hd]; rfl

/-- An entry that stands after a step stood before it, in the fields that a crossing decides by. -/
theorem State.staged_of_crossView {s t : State} (h : t.crossView.2 = s.crossView.2) {e : Staged} (he : e ∈ t.staged) :
    ∃ x ∈ s.staged, x.dom = e.dom ∧ x.after = e.after ∧ x.ter = e.ter := by
  have hmem : (e.dom, e.after, e.ter) ∈ s.crossView.2 := h ▸ List.mem_map_of_mem he
  obtain ⟨x, hx, hkey⟩ := List.mem_map.1 hmem
  simp only [Prod.mk.injEq] at hkey
  exact ⟨x, hx, hkey⟩

/-- Steps that each leave the view alone leave it alone together. -/
theorem State.crossView_foldl {β : Type} {f : State → β → State} (hf : ∀ u b, (f u b).crossView = u.crossView)
    (l : List β) (s : State) : (l.foldl f s).crossView = s.crossView :=
  List.foldlRecOn l f (motive := fun t => t.crossView = s.crossView) rfl fun u hu b _ => (hf u b).trans hu

/-! ### Units, lost lines and records -/

@[simp] theorem State.crossView_logHyper (s : State) (vf : Nat) (r : LogRec) : (s.logHyper vf r).crossView = s.crossView := rfl

@[simp] theorem State.crossView_dropFlaw (s : State) (f : Flaw) : (s.dropFlaw f).crossView = s.crossView := rfl

@[simp] theorem State.crossView_setDie (s : State) (d : Nat) (x : Die) : (s.setDie d x).crossView = s.crossView := rfl

@[simp] theorem State.crossView_markError (s : State) (launch : Nat) : (s.markError launch).crossView = s.crossView := by
  fun_cases State.markError <;> rfl

@[simp] theorem State.crossView_loseLine (s : State) (vf line : Nat) : (s.loseLine vf line).crossView = s.crossView := by
  fun_cases State.loseLine <;> rfl

@[simp] theorem State.crossView_copyPass (s : State) (u : Nat) : (s.copyPass u).crossView = s.crossView := by
  fun_cases State.copyPass <;> rfl

@[simp] theorem State.crossView_cardPass (s : State) (u : Nat) : (s.cardPass u).crossView = s.crossView := rfl

@[simp] theorem State.crossView_sliceOut (s : State) (d n : Nat) : (s.sliceOut d n).crossView = s.crossView := by
  unfold State.sliceOut
  split
  · rfl
  · refine State.crossView_foldl (fun u l => ?_) ..
    dsimp only
    split
    · split <;> simp
    · rfl

@[simp] theorem State.crossView_retire1 (s : State) (u : Nat) : (s.retire1 u).crossView = s.crossView := by
  have hlog : (({ s with retired := s.retired ++ [u] } : State).logUnit u 0).crossView = s.crossView := rfl
  unfold State.retire1
  dsimp only
  split <;> split <;> simp [hlog]

@[simp] theorem State.crossView_unitEvent (s : State) (u : Nat) : (s.unitEvent u).crossView = s.crossView := by
  unfold State.unitEvent
  dsimp only
  split
  · rfl
  · split
    · rw [State.crossView_retire1]; rfl
    · split <;> rfl

@[simp] theorem State.crossView_meetL2 (s : State) (vf line : Nat) : (s.meetL2 vf line).crossView = s.crossView := by
  unfold State.meetL2
  split
  · split
    · dsimp only
      split
      · simp
      · split <;> simp
    · rfl
  · rfl

@[simp] theorem State.crossView_meetMem (s : State) (vf pa n : Nat) : (s.meetMem vf pa n).1.crossView = s.crossView := by
  unfold State.meetMem
  dsimp only
  split
  · rfl
  · refine State.crossView_foldl (fun u l => ?_) ..
    split
    · split <;> simp
    · simp

/-! ### Writes at the point of coherence, and the logs -/

/-- A write over an entry in an overflow area takes its check, and leaves its domain, arrivals and terrace (R247). -/
@[simp] theorem State.crossView_spoil (s : State) (pa n : Nat) : (s.spoil pa n).crossView = s.crossView := by
  unfold State.spoil
  split
  · simp only [State.crossView, List.map_map, Prod.mk.injEq, true_and]
    refine List.map_congr_left fun e _ => ?_
    simp only [Function.comp_apply]
    split
    · split <;> rfl
    · rfl
  · rfl

@[simp] theorem State.crossView_lostWrite (s : State) (x n : Nat) : (s.lostWrite x n).crossView = s.crossView := by
  fun_cases State.lostWrite <;> rfl

@[simp] theorem State.crossView_l2Dirty (s : State) (pa : Nat) : (s.l2Dirty pa).crossView = s.crossView := by
  fun_cases State.l2Dirty <;> rfl

@[simp] theorem State.crossView_pocWrite (s : State) (pa : Nat) (bs : List Byte) :
    (s.pocWrite pa bs).crossView = s.crossView := by
  obtain ⟨_, hbuf⟩ := s.wrBytes_wbuf pa bs
  calc (s.pocWrite pa bs).crossView
      = ((((s.wrBytes pa bs).lostWrite pa bs.length).spoil pa bs.length).l2Dirty pa).crossView := rfl
    _ = (s.wrBytes pa bs).crossView := by simp
    _ = s.crossView := by rw [hbuf]; rfl

@[simp] theorem State.crossView_logAt (s : State) (vf die base : Nat) (r : LogRec) :
    (s.logAt vf die base r).1.crossView = s.crossView := by
  unfold State.logAt
  split
  · rfl
  · split
    · rfl
    · dsimp only
      split
      · simp
      · split
        · simp [State.pocWriteNat]
        · split <;> simp [State.pocWriteNat]

@[simp] theorem State.crossView_logRec (s : State) (vf : Nat) (both : Bool) (r : LogRec) :
    (s.logRec vf both r).1.crossView = s.crossView := by
  simp only [State.logRec, apply_ite State.crossView, State.crossView_logHyper, State.crossView_logAt, ite_self]

/-! ### Staged entries that leave -/

@[simp] theorem State.crossView_freeSpill (s : State) (e : Staged) : (s.freeSpill e).crossView = s.crossView := by
  unfold State.freeSpill
  split
  · rfl
  · split
    · unfold State.setUsed
      split
      · simp [State.pocWriteNat]
      · rfl
    · rfl

@[simp] theorem State.crossView_dropEntry (s : State) (e : Staged) : (s.dropEntry e).crossView = s.crossView := by
  unfold State.dropEntry
  dsimp only
  split <;> split <;> simp

/-! ### Flits to other modules -/

@[simp] theorem State.crossView_countVf (s : State) (core vf ev n : Nat) : (s.countVf core vf ev n).crossView = s.crossView := by
  fun_cases State.countVf <;> rfl

@[simp] theorem State.crossView_crossFab (s : State) (die : Nat) (cause : Option (Nat × Nat)) (f : FabFlit) :
    (s.crossFab die cause f).crossView = s.crossView := by
  have hemit (e : Outgoing) : (s.emit e).crossView = s.crossView := by
    unfold State.emit
    dsimp only
    split
    · rw [State.crossView_countVf]; rfl
    · rfl
  unfold State.crossFab
  split
  · rfl
  · split
    · exact hemit _
    · rfl
    · rfl

/-- What other modules are told changes nothing here. -/
@[simp] theorem State.crossView_tellLanded (s : State) (k : DomKey) (cs : List Nat) :
    (s.tellLanded k cs).crossView = s.crossView :=
  State.crossView_foldl (fun _ _ => State.crossView_crossFab ..) ..

end Sys2Proof.Machine
end

section
/-! ## Crossings: a landing on this module -/

namespace Sys2Proof.Machine

/-! ### The places at which a landing writes -/

theorem mem_kdel {β : Type} {m : List (Nat × β)} {x : Nat} {e : Nat × β} (h : e ∈ kdel m x) : e ∈ m := by
  induction m with
  | nil => exact h
  | cons a r ih =>
    rw [kdel] at h
    split at h
    · exact List.mem_cons_of_mem _ (ih h)
    · exact (List.mem_cons.1 h).elim (fun h => h ▸ List.mem_cons_self) fun h => List.mem_cons_of_mem _ (ih h)

theorem mem_kins {β : Type} {m : List (Nat × β)} {x : Nat} {w : β} {e : Nat × β} (h : e ∈ kins x w m) :
    e = (x, w) ∨ e ∈ m := by
  induction m with
  | nil => exact .inl (List.mem_singleton.1 h)
  | cons a r ih =>
    rw [kins] at h
    split at h
    · exact List.mem_cons.1 h
    · rcases List.mem_cons.1 h with rfl | h
      · exact .inr List.mem_cons_self
      · exact (ih h).imp_right (List.mem_cons_of_mem _)

/-- Bytes that replace those of a list leave its places below a bound. -/
theorem replaced_lt {n : Nat} {m bs : List (Nat × Byte)} (hm : ∀ b ∈ m, b.1 < n) (hbs : ∀ b ∈ bs, b.1 < n) :
    ∀ b ∈ bs.foldl (fun m b => kins b.1 b.2 (kdel m b.1)) m, b.1 < n := by
  induction bs generalizing m with
  | nil => exact hm
  | cons b bs ih =>
    refine ih (fun e he => ?_) fun e he => hbs e (List.mem_cons_of_mem _ he)
    rcases mem_kins he with rfl | he
    · exact hbs b List.mem_cons_self
    · exact hm e (mem_kdel he)

theorem Writer.sole_lt (w : Writer) {off n : Nat} : ∀ b ∈ w.sole off n, b.1 < off + n := by
  intro b hb
  obtain ⟨i, hi, hb⟩ := List.mem_filterMap.1 hb
  obtain ⟨_, _, rfl⟩ := Option.map_eq_some_iff.1 hb
  have := List.mem_range.1 hi
  dsimp only
  omega

/-- The value of a conflict fills its word or block (R251). -/
theorem resolve_length {l : Leaf} {ws : List Writer} {old : List Byte} {off : Nat} {bs : List Byte}
    (h : resolve l.srule l.fmt ws old off l.unit = some bs) : bs.length = l.unit := by
  unfold resolve at h
  split at h
  · obtain rfl := Option.some.inj h
    rw [List.length_map, List.length_range]
  · split at h
    · cases h
    next hfmt =>
      have hunit : l.unit = 4 := by
        rw [Leaf.unit, if_neg fun hf => hfmt (by rw [hf, Bool.or_true])]
      dsimp only at h
      split at h
      · cases h
      · split at h
        · cases h
        · obtain rfl := Option.some.inj h
          rw [natBytes_length, hunit]

/-- Every byte that lands stands in its word or block. -/
theorem landUnit_put_lt (l : Leaf) (ws : List Writer) (old : Option (List Byte)) (off : Nat) :
    ∀ b ∈ (landUnit l ws old off l.unit).put, b.1 < off + l.unit := by
  unfold landUnit
  split
  · exact fun b hb => nomatch hb
  · exact Writer.sole_lt _
  · split
    · -- the staged bytes replace one another in ascending rank keys
      exact List.foldlRecOn _ _ (motive := fun m : List (Nat × Byte) => ∀ b ∈ m, b.1 < off + l.unit) (by simp)
        fun m hm w _ => replaced_lt hm w.sole_lt
    · split
      next bs hbs =>
        intro b hb
        obtain ⟨x, hx, rfl⟩ := List.mem_map.1 hb
        have hlt : x.2 < bs.length := by simpa using List.snd_lt_of_mem_zipIdx hx
        rw [resolve_length hbs] at hlt
        exact Nat.add_lt_add_left hlt off
      · exact fun b hb => nomatch hb

/-- A run begins at the place of one of its bytes. -/
theorem runsOf_start {l : List (Nat × Byte)} : ∀ r ∈ runsOf l, ∃ b ∈ l, b.1 = r.1 := by
  induction l with
  | nil => exact fun r hr => nomatch hr
  | cons a l ih =>
    intro r hr
    obtain ⟨x, b⟩ := a
    have hhead : ∃ c ∈ (x, b) :: l, c.1 = x := ⟨_, List.mem_cons_self, rfl⟩
    have htail (h : r ∈ runsOf l) : ∃ c ∈ (x, b) :: l, c.1 = r.1 :=
      let ⟨c, hc, e⟩ := ih r h
      ⟨c, List.mem_cons_of_mem _ hc, e⟩
    rw [runsOf] at hr
    split at hr
    next y bs rs hrs =>
      rw [hrs] at htail
      split at hr
      · rcases List.mem_cons.1 hr with rfl | hr
        · exact hhead
        · exact htail (List.mem_cons_of_mem _ hr)
      · rcases List.mem_cons.1 hr with rfl | hr
        · exact hhead
        · exact htail hr
    · rcases List.mem_cons.1 hr with rfl | hr
      · exact hhead
      · cases hr

/-- The units of a line end within it. -/
theorem Leaf.unit_le (l : Leaf) {i : Nat} (hi : i < 64 / l.unit) : l.unit * i + l.unit ≤ 64 :=
  calc l.unit * i + l.unit = l.unit * (i + 1) := (Nat.mul_succ ..).symm
    _ ≤ l.unit * (64 / l.unit) := Nat.mul_le_mul_left _ hi
    _ ≤ 64 := Nat.mul_div_le ..

/-- A line has one owner. -/
theorem ownerOf_line {line off : Nat} (h : off < 64) : ownerOf (line * 64 + off) = ownerOf (line * 64) := by
  have hbits (hi lo : Nat) (hlo : 6 ≤ lo) : bitsOf (line * 64 + off) hi lo = bitsOf (line * 64) hi lo := by
    obtain ⟨j, rfl⟩ := Nat.exists_eq_add_of_le hlo
    have hdiv : (line * 64 + off) / 2 ^ (6 + j) = line * 64 / 2 ^ (6 + j) := by
      rw [Nat.pow_add, ← Nat.div_div_eq_div_mul, ← Nat.div_div_eq_div_mul]
      congr 1
      omega
    rw [bitsOf, hdiv, bitsOf]
  unfold ownerOf
  simp only [hbits _ 53 (by decide), hbits _ 39 (by decide), hbits _ 37 (by decide), hbits _ 47 (by decide),
    hbits _ 43 (by decide)]

/-! ### The landing -/

/-- An entry's line stands on this module, and so does its overflow area where it has one. -/
def Staged.Home (e : Staged) : Prop := isAway (e.pa * 64) = false ∧ ∀ x, e.spill = some x → isAway x.1 = false

variable {es : List Staged}

/-- Entries of this module need nothing from outside it. -/
theorem landNeeds_home (h : ∀ e ∈ es, e.Home) : landNeeds es = [] := by
  unfold landNeeds
  rw [List.append_eq_nil_iff, List.filterMap_eq_nil_iff, List.filterMap_eq_nil_iff]
  refine ⟨fun e he => ?_, fun l hl => ?_⟩
  · split
    next hspill => rw [(h e he).2 _ hspill]; rfl
    · rfl
  · obtain ⟨e, he, rfl⟩ := List.mem_map.1 (List.mem_eraseDups.1 hl)
    dsimp only
    split
    · rw [(h e he).1]; rfl
    · rfl

theorem State.landReads_home (s : State) (gets : List OutRead) (h : ∀ e ∈ es, e.Home) :
    s.landReads gets es = (s, gets, false) := by
  rw [State.landReads, landNeeds_home h]; rfl

theorem owner_of_home {pa : Nat} (h : isAway pa = false) : ∃ d, ownerOf pa = .die d := by
  unfold isAway at h
  split at h
  next d hd => exact ⟨d, hd⟩
  · cases h

/-- A write within a line of this module is made at once. -/
theorem State.landPut_home (s : State) {e : Staged} (h : isAway (e.pa * 64) = false) {off : Nat} (hoff : off < 64)
    (bs : List Byte) : s.landPut e off bs = (s.pocWrite (e.pa * 64 + off) bs, []) := by
  obtain ⟨d, hd⟩ := owner_of_home h
  simp only [State.landPut, ownerOf_line hoff, hd]

/-- The landing of a line of this module waits for no answer, and decides about no domain and no other entry. -/
theorem State.landLine_home (s : State) (gets : List OutRead) (h : ∀ e ∈ es, e.Home) :
    (s.landLine gets es).1.crossView = s.crossView ∧ (s.landLine gets es).2.2 = [] := by
  unfold State.landLine
  split
  · exact ⟨rfl, rfl⟩
  next e r =>
    have hhome : isAway (e.pa * 64) = false := (h e List.mem_cons_self).1
    dsimp only
    refine List.foldlRecOn _ _ (motive := fun x : State × List (Nat × Nat) => x.1.crossView = s.crossView ∧ x.2 = [])
      ⟨?_, rfl⟩ fun x ⟨hx, hacks⟩ run hrun => ?_
    · -- the records of its conflicts
      refine (State.crossView_foldl (fun u b => ?_) ..).trans ?_
      · split <;> simp
      · split <;> simp
    · obtain ⟨u, hu, hrun⟩ := List.mem_flatMap.1 hrun
      obtain ⟨i, hi, rfl⟩ := List.mem_map.1 hu
      obtain ⟨b, hb, hstart⟩ := runsOf_start run hrun
      have hoff : run.1 < 64 :=
        calc run.1 = b.1 := hstart.symm
          _ < e.leaf.unit * i + e.leaf.unit := landUnit_put_lt _ _ _ _ b hb
          _ ≤ 64 := e.leaf.unit_le (List.mem_range.1 hi)
      dsimp only
      rw [State.landPut_home _ hhome hoff, hacks]
      exact ⟨(State.crossView_pocWrite ..).trans hx, rfl⟩

/-- The state without the staged entries of a list. -/
def State.unstage (s : State) (es : List Staged) : State := { s with staged := s.staged.filter fun e => !es.contains e }

/-- A landing of entries of this module takes them from what is staged, and waits for no answer (R250). -/
theorem State.land_home (s : State) (gets : List OutRead) (h : ∀ e ∈ es, e.Home) :
    (s.land gets es).1.crossView = (s.unstage es).crossView ∧ (s.land gets es).2.2 = [] := by
  unfold State.land
  dsimp only
  refine List.foldlRecOn _ _ (motive := fun x : State × Nat × List (Nat × Nat) =>
    x.1.crossView = (s.unstage es).crossView ∧ x.2.2 = []) ⟨?_, rfl⟩ fun x ⟨hx, hacks⟩ l _ => ?_
  · rw [State.crossView_foldl State.crossView_dropEntry, State.crossView_foldl State.crossView_freeSpill]; rfl
  · obtain ⟨hline, hnone⟩ := x.1.landLine_home gets (es := (es.filter fun e => !s.failsCheck gets e).filter fun e => e.pa == l)
      fun e he => h e (List.mem_filter.1 (List.mem_filter.1 he).1).1
    dsimp only
    rw [hacks, hnone]
    exact ⟨hline.trans hx, rfl⟩

end Sys2Proof.Machine
end

section
/-! ## Crossings: a crossing that completes -/

namespace Sys2Proof.Machine

variable {s : State} {k : DomKey}

@[simp] theorem State.setDom_staged (s : State) (k : DomKey) (d : Domain) : (s.setDom k d).staged = s.staged := by
  fun_cases State.setDom <;> rfl

/-- Only a gang's crossing changes a width (R273). -/
theorem State.widthWanted_of_not_gang (hk : ∀ g, k ≠ .gang g) : s.widthWanted k = none := by
  cases k with
  | gang g => exact absurd rfl (hk g)
  | phase | launch | solo => rfl

/-- Nothing is taken where no write is unanswered. -/
theorem State.settleDom_quiet {die : Nat} (h : (s.dom k).acks = []) :
    s.settleDom k die = (s.setDom k { s.dom k with acks := [] }, false) := by
  simp only [State.settleDom, State.settleAcks, h, List.foldl_nil]

/-- A crossing that is finished, but for what other modules are told of it. -/
def Domain.crossed (d : Domain) (nconf : Nat) : Domain :=
  { d with count := (d.count + 1) % 2 ^ 32, crossings := d.crossings + 1, nconf := nconf, arrived := [], asked := none,
           landing := .idle, gets := [], acks := [] }

theorem State.crossView_finishCross (s : State) (hk : ∀ g, k ≠ .gang g) (nconf : Nat) :
    (s.finishCross k nconf false id).crossView = (s.setDom k ((s.dom k).crossed nconf)).crossView := by
  cases k with
  | gang g => exact absurd rfl (hk g)
  | phase | launch | solo => exact State.crossView_tellLanded ..

/-- A crossing whose writes are made and answered completes: its domain has crossed, and what is staged stays (R250, R254). -/
theorem State.crossGo_quiet (hk : ∀ g, k ≠ .gang g) (h : (s.dom k).acks = []) (nconf : Nat) :
    (s.crossGo k nconf).dom k = (s.dom k).crossed nconf ∧ (s.crossGo k nconf).crossView.2 = s.crossView.2 := by
  have hgo : s.crossGo k nconf = (s.setDom k { s.dom k with acks := [] }).finishCross k nconf false id := by
    simp only [State.crossGo, State.widthWanted_of_not_gang hk, State.settleDom_quiet h, Bool.false_eq_true, if_false]
  have hview := State.crossView_finishCross (s.setDom k { s.dom k with acks := [] }) hk nconf
  rw [hgo]
  refine ⟨?_, ?_⟩
  · rw [State.dom_of_crossView hview, State.dom_setDom, State.dom_setDom]; rfl
  · rw [hview]; simp [State.crossView]

/-- The landing of a crossing with all its entries on this module completes it: the count and the crossings rise by one, and
    its entries are held no more. -/
theorem State.crossLand_home (hk : ∀ g, k ≠ .gang g) (h : ∀ e ∈ s.crossEntries k, e.Home) :
    let t := s.crossLand k
    (t.dom k).crossings = (s.dom k).crossings + 1 ∧ (t.dom k).count = ((s.dom k).count + 1) % 2 ^ 32
      ∧ t.crossView.2 = (s.unstage (s.crossEntries k)).crossView.2 := by
  obtain ⟨hview, hacks⟩ := s.land_home (s.dom k).gets h
  have hdom : (s.land (s.dom k).gets (s.crossEntries k)).1.dom k = s.dom k := State.dom_of_crossView hview k
  intro t
  generalize hland : s.land (s.dom k).gets (s.crossEntries k) = r at hview hacks hdom
  have ht : t = (r.1.setDom k { s.dom k with landing := .crossed r.2.1, gets := [], parts := [], acks := [] }).crossGo k r.2.1 := by
    simp only [t, State.crossLand, State.landReads_home _ _ h, hland, hacks, hdom, List.isEmpty_nil, if_true]
  obtain ⟨hcrossed, hkeys⟩ := State.crossGo_quiet
    (s := r.1.setDom k { s.dom k with landing := .crossed r.2.1, gets := [], parts := [], acks := [] }) hk
    (by rw [State.dom_setDom]) r.2.1
  rw [ht, hcrossed, State.dom_setDom, hkeys]
  refine ⟨rfl, rfl, ?_⟩
  rw [← hview]; simp [State.crossView]

/-- A staged entry that belongs to the next crossing of its domain is one of those that it lands (R249, R250). -/
theorem State.mem_crossEntries {e : Staged} (he : e ∈ s.staged) (hk : e.dom = k)
    (h : e.after ≤ (s.dom k).crossings ∨ e.ter ∉ (s.participants k).map (·.uid)) : e ∈ s.crossEntries k := by
  refine List.mem_append_left _ (List.mem_filter.2 ⟨he, ?_⟩)
  simpa [hk] using h

/-- What is staged once they have left belongs to no crossing that has completed. -/
theorem State.not_crossed_of_unstaged {t : State} (h : t.crossView.2 = (s.unstage (s.crossEntries k)).crossView.2) :
    ∀ e ∈ t.staged, ¬ (e.dom = k ∧ (e.after ≤ (s.dom k).crossings ∨ e.ter ∉ (s.participants k).map (·.uid))) := by
  rintro e he ⟨hdom, hbelongs⟩
  obtain ⟨x, hx, hxdom, hxafter, hxter⟩ := State.staged_of_crossView h he
  obtain ⟨hx, hleft⟩ := List.mem_filter.1 hx
  have hin : x ∈ s.crossEntries k := State.mem_crossEntries hx (hxdom.trans hdom) (by rwa [hxafter, hxter])
  rw [List.contains_iff_mem.2 hin] at hleft
  cases hleft

/-! ### The event -/

theorem State.completeCrossing_idle (hidle : (s.dom k).landing = .idle) (hcalls : (s.dom k).calls = 0) :
    s.completeCrossing k = s.crossLand k := by
  simp only [State.completeCrossing, hidle, hcalls, beq_self_eq_true, if_true]

theorem exec_crossingCompletion_not_due (h : s.crossDue k = false) : exec (.crossingCompletion k) s = .fault .notEnabled := by
  show event (s.crossDue k) s _ = _
  rw [event, h, if_neg Bool.false_ne_true]

end Sys2Proof.Machine
end

section
/-! ## A service terrace that starts -/

namespace Sys2Proof.Machine

theorem serviceSplit_cause (sid fid : Nat) (tvec : DWord) (addr now : Nat) :
    (serviceSplit sid fid tvec addr now).tcause.toNat % 256 = 0x21 := by
  simp [serviceSplit, causeWord]

/-- The service terrace of a parked request, as it starts at a place of a core with the handler's address (R408). -/
def serviceTerrace (s : State) (v core place : Nat) (a : Access) : Terrace :=
  { serviceRegs { Terrace.blank s.fresh core a.terno v 0 with ter := place, nregs := 32, service := some a.id } a.addr with
    splits := [serviceSplit (s.fresh + 1) (s.fresh + 2) (s.tenant v).tvec a.addr (s.now core)] }

theorem serviceTerrace_sget (s : State) (v core place : Nat) (a : Access) :
    (serviceTerrace s v core place a).sget 0 = BitVec.ofNat 32 a.addr
      ∧ (serviceTerrace s v core place a).sget 1 = BitVec.ofNat 32 (a.addr / 2 ^ 32) := by
  constructor
  · simp only [serviceTerrace, serviceRegs, Terrace.sget]
    rw [kget_kset_other _ _ _ (by decide), kget_kset_same]
  · exact kget_kset_same ..

/-- A parked request of a tenant with a handler starts a service terrace on a core that has room, where none of it stands on
    the die (R408). -/
theorem exec_serviceTerraceStart {s : State} {v die core : Nat} {a : Access} (hp : s.parkedOn v die = some a)
    (hc : s.serviceCore v die = some core)
    (hno : ∀ t ∈ s.ters, ¬ (t.vf = v ∧ dieOf t.core = die ∧ t.service.isSome = true))
    (htvec : (s.tenant v).tvec ≠ 0) (hfresh : s.ter? s.fresh = none) :
    Answers (exec (.serviceTerraceStart v die) s) fun t =>
      ∃ place, t.ters = s.ters ++ [serviceTerrace s v core place a] := by
  have hnone : ¬ (s.ters.any fun t => t.vf == v && dieOf t.core == die && t.service.isSome) = true := by
    rw [List.any_eq_true]
    rintro ⟨t, ht, hsvc⟩
    exact hno t ht (by simpa [and_assoc] using hsvc)
  have hblank : s.accTer { a with ter := s.fresh, core := core, vf := v, launch := 0 } = .blank s.fresh core a.terno v 0 := by
    rw [State.accTer, hfresh]
  let ps := s.freePlaces core v false
  let place := ps.getD (Config.choose s.tick % max ps.length 1) 0
  let s1 : State := { s with
    fresh := s.fresh + 3, tick := s.tick + 1, ters := s.ters ++ [serviceTerrace s v core place a] }
  have hstep : exec (.serviceTerraceStart v die) s = .next (commit s (s1.noted s)) := by
    show execServiceTerraceStart v die s = _
    unfold execServiceTerraceStart
    rw [hp, hc]
    dsimp only
    rw [if_neg hnone, if_neg (by simpa using htvec), hblank]
    rfl
  refine ⟨_, hstep, place, ?_⟩
  rw [State.noted_of_flaws (s := s1) (s0 := s) rfl]
  rfl

/-- Settles O53: a landing on this module leaves the domains and every entry but its own alone (`State.land_home`), so that only
    the end of the crossing changes its domain; and a service terrace has the fields with which it starts. -/
theorem crossingCompletes : Obligations.CrossingCompletes := by
  unfold Obligations.CrossingCompletes
  intro s k v die core a
  refine ⟨occurs_of rfl, exec_crossingCompletion_not_due, fun hk hidle hcalls hhome => ?_, fun hp hc hno htvec hfresh => ?_⟩
  · obtain ⟨hcrossings, hcount, hkeys⟩ := State.crossLand_home hk hhome
    rw [State.completeCrossing_idle hidle hcalls]
    exact ⟨hcrossings, hcount, State.not_crossed_of_unstaged hkeys⟩
  · obtain ⟨t, hstep, place, hters⟩ := exec_serviceTerraceStart hp hc hno htvec hfresh
    obtain ⟨hlow, hhigh⟩ := serviceTerrace_sget s v core place a
    exact ⟨t, hstep, serviceTerrace s v core place a, _, hters, rfl, rfl, rfl, rfl, rfl, rfl, serviceSplit_cause .., hlow,
      hhigh⟩

end Sys2Proof.Machine
end

section
/-! ## Instruction fetches of a split whose instruction is still open -/

namespace Sys2Proof.Machine

/-- A fetch that can be made occurs where its split is a candidate and no instruction of it is open (R321, R374). -/
theorem exec_instructionFetch {s s1 : State} {uid lane va : Nat} {t : Terrace} {x : Split} {p : Part}
    (hfound : ((s.ter? uid).bind fun t => (t.splits.find? fun x => x.low == lane).map fun x => (t, x)) = some (t, x))
    (hneed : s.fetchNeed t x = some (p, va)) (hline : s.fetchLine t x p va = some s1) :
    exec (.instructionFetch uid lane) s = event (s.candidate t x && x.held.isNone) s s1 := by
  show execInstructionFetch uid lane s = _
  rw [execInstructionFetch, hfound]
  dsimp only
  rw [hneed, Option.bind_some, hline]

/-- With an instruction of the split open, it does not. -/
theorem exec_instructionFetch_held {s s1 : State} {uid lane va : Nat} {t : Terrace} {x : Split} {p : Part}
    (hfound : ((s.ter? uid).bind fun t => (t.splits.find? fun x => x.low == lane).map fun x => (t, x)) = some (t, x))
    (hneed : s.fetchNeed t x = some (p, va)) (hline : s.fetchLine t x p va = some s1) (hheld : x.held.isSome = true) :
    exec (.instructionFetch uid lane) s = .fault .notEnabled := by
  rw [exec_instructionFetch hfound hneed hline, Option.isNone_eq_false_iff.2 hheld, Bool.and_false, event,
    if_neg Bool.false_ne_true]

/-- A terrace on core 0 about to issue an LDF of the first block of its team's scratchpad. -/
def blockLoad : State :=
  let w := (encode (.ldf (.v 8) (.s 0) .zero)).getD 0 0
  let s := { State.reset.withFetchWord 64 w.toNat with teams := [⟨0, 0, 0, 0, 0, 0x10000, 8, 64, [], true, 0⟩] }
  (s.updTer 1 fun t => t.sput 0 0x80000#32).updSplit 1 2 fun x => { x with mode := 0x100#16 }

/-- The LDF has issued, its access is open, and its page has been shot down (R373). -/
def shotBlockLoad : State :=
  match step blockLoad with
  | .next t => t.purge 0 fun va => va / 65536 == 65536
  | _ => blockLoad

/-- What the instruction fetch of the split of a lane asks for, where it is a candidate whose instruction is open: the terrace,
    the split, the partition, the address and the state after the fetch of its line. -/
def State.heldFetch (s : State) (uid lane : Nat) : Option (Terrace × Split × Part × Nat × State) :=
  match (s.ter? uid).bind fun t => (t.splits.find? fun x => x.low == lane).map fun x => (t, x) with
  | none => none
  | some (t, x) =>
    match s.fetchNeed t x with
    | none => none
    | some (p, va) =>
      match s.fetchLine t x p va with
      | none => none
      | some s1 => if s.candidate t x && x.held.isSome then some (t, x, p, va, s1) else none

theorem State.heldFetch_spec {s s1 : State} {uid lane va : Nat} {t : Terrace} {x : Split} {p : Part}
    (h : s.heldFetch uid lane = some (t, x, p, va, s1)) :
    ((s.ter? uid).bind fun t => (t.splits.find? fun x => x.low == lane).map fun x => (t, x)) = some (t, x)
      ∧ s.fetchNeed t x = some (p, va) ∧ s.fetchLine t x p va = some s1 ∧ s.candidate t x = true ∧ x.held.isSome = true := by
  unfold State.heldFetch at h
  split at h
  next => cases h
  next t' x' hfound =>
    split at h
    next => cases h
    next p' va' hneed =>
      split at h
      next => cases h
      next s1' hline =>
        split at h
        next hboth =>
          cases h
          obtain ⟨hcand, hheld⟩ := Bool.and_eq_true_iff.1 hboth
          exact ⟨hfound, hneed, hline, hcand, hheld⟩
        next => cases h

/-- The LDF keeps its split's next instruction back but leaves it a candidate (log entry 41), and its line has gone with the
    page. -/
theorem shotBlockLoad_heldFetch : (shotBlockLoad.heldFetch 1 0).isSome = true := by decide +kernel

/-- Refutes O54: of INSTRUCTION_FETCH it asks only that the split is a candidate and that its line is missing. A split whose LDF
    has issued and is still open is a candidate, and its line leaves with a shootdown; but an instruction that has issued
    completes without another fetch (R374), and the event is not enabled. The clause leaves out the condition `x.held = none`,
    with which it holds: `exec_instructionFetch`. -/
theorem not_coreEvents : ¬ Obligations.CoreEvents := by
  unfold Obligations.CoreEvents
  intro h
  obtain ⟨⟨t, x, p, va, s1⟩, hfetch⟩ := Option.isSome_iff_exists.1 shotBlockLoad_heldFetch
  obtain ⟨hfound, hneed, hline, hcand, hheld⟩ := State.heldFetch_spec hfetch
  obtain ⟨_, _, hoccurs, _⟩ := h shotBlockLoad 0 0 1 0 t x p
  have hnext : exec (.instructionFetch 1 0) shotBlockLoad = .next (commit shotBlockLoad (s1.noted shotBlockLoad)) :=
    hoccurs va s1 hfound hneed hcand hline
  rw [exec_instructionFetch_held hfound hneed hline hheld] at hnext
  cases hnext

end Sys2Proof.Machine
end

section
/-! ## Boot and reset -/

namespace Sys2Proof.Machine

section

variable {s : State} {die : Nat} {bs : List Byte}

/-! ### Boot images -/

@[simp] theorem State.die_setDie_same (s : State) (d : Nat) (x : Die) : (s.setDie d x).die d = x := by
  rw [State.die, State.setDie, kget_kset_same]

/-- The fourth check of an image (R458): its stage is the one after the die's. -/
theorem stage_of_imageFails_eq_zero (h : imageFails s die bs = 0) : byteAt bs 4 = (s.die die).boot + 1 := by
  unfold imageFails at h
  refine Decidable.byContradiction fun hstage => ?_
  have hne : (byteAt bs 4 != (s.die die).boot + 1) = true := bne_iff_ne.2 hstage
  dsimp only at h
  rw [if_pos hne] at h
  split at h
  · cases h
  · split at h
    · cases h
    · split at h <;> cases h

/-- What an accepted image does to its die whatever its stage: the boot stage and the attestation log (R458, R459). -/
def State.attested (s : State) (die : Nat) (bs : List Byte) : State :=
  s.setDie die { s.die die with boot := byteAt bs 4, attest := (s.die die).attest ++ [attestEntry bs] }

/-- An image that passes the checks takes its die to its stage, and one of stage 2 configures the die beside it (R458, R460). -/
theorem occurs_bootImage_accepted (hdie : die < 4) (h : imageFails s die bs = 0) :
    ∃ u, Occurs (.bootImage die bs) s (u.replyWith die 0 [] [])
      ∧ (u = s.attested die bs
        ∨ byteAt bs 4 = 2 ∧ ∃ r, Config.configRecord (bs.drop 112) = some r ∧ u = (s.attested die bs).configure die r) := by
  have hx : exec (.bootImage die bs) s = execBootImage die bs s := rfl
  unfold execBootImage at hx
  rw [h] at hx
  refine ⟨_, occurs_of hx (decide_eq_true hdie), ?_⟩
  split
  next r hstage hrec => exact .inr ⟨hstage, r, hrec, rfl⟩
  next => exact .inl rfl

/-- An image that fails a check changes nothing but for the reply, which names the check. -/
theorem occurs_bootImage_refused {n : Nat} (hdie : die < 4) (h : imageFails s die bs = n + 1) :
    Occurs (.bootImage die bs) s (s.replyWith die 3 [BitVec.ofNat 8 (n + 1)] []) := by
  have hx : exec (.bootImage die bs) s = execBootImage die bs s := rfl
  unfold execBootImage at hx
  rw [h] at hx
  exact occurs_of hx (decide_eq_true hdie)

@[simp] theorem State.attested_flaws (s : State) (die : Nat) (bs : List Byte) : (s.attested die bs).flaws = s.flaws := rfl
@[simp] theorem State.attested_replies (s : State) (die : Nat) (bs : List Byte) : (s.attested die bs).replies = s.replies := rfl

@[simp] theorem State.die_attested (s : State) (die : Nat) (bs : List Byte) : (s.attested die bs).die die =
    { s.die die with boot := byteAt bs 4, attest := (s.die die).attest ++ [attestEntry bs] } :=
  s.die_setDie_same die _

@[simp] theorem State.configure_flaws (s : State) (die : Nat) (r : ConfigRecord) : (s.configure die r).flaws = s.flaws := rfl
@[simp] theorem State.configure_replies (s : State) (die : Nat) (r : ConfigRecord) : (s.configure die r).replies = s.replies := rfl

/-- The configuration record gives a die neither a boot stage nor an entry of its log. -/
theorem State.die_configure (s : State) (die : Nat) (r : ConfigRecord) :
    ((s.configure die r).die die).boot = (s.die die).boot ∧ ((s.configure die r).die die).attest = (s.die die).attest := by
  have hdie : (s.configure die r).die die = _ := kget_kset_same ..
  rw [hdie]
  exact ⟨rfl, rfl⟩

/-- What an accepted image leaves, whether or not it configures its die. -/
theorem bootImage_accepted (hdie : die < 4) (h : imageFails s die bs = 0) :
    Answers (exec (.bootImage die bs) s) fun t =>
      (t.die die).boot = byteAt bs 4 ∧ (t.die die).boot = (s.die die).boot + 1
        ∧ (t.die die).attest = (s.die die).attest ++ [attestEntry bs] ∧ t.replies = s.replies ++ [⟨die, 0, [], []⟩] := by
  obtain ⟨u, hoccurs, hu⟩ := occurs_bootImage_accepted hdie h
  have heffect : u.flaws = s.flaws ∧ (u.die die).boot = byteAt bs 4
      ∧ (u.die die).attest = (s.die die).attest ++ [attestEntry bs] ∧ u.replies = s.replies := by
    obtain rfl | ⟨_, r, _, rfl⟩ := hu
    · simp
    · obtain ⟨hboot, hattest⟩ := (s.attested die bs).die_configure die r
      simp [hboot, hattest]
  obtain ⟨hflaws, hboot, hattest, hreplies⟩ := heffect
  have hquiet : (u.replyWith die 0 [] []).noted s = u.replyWith die 0 [] [] := State.noted_of_flaws hflaws
  refine ⟨_, hoccurs, ?_⟩
  rw [hquiet]
  exact ⟨hboot, hboot.trans (stage_of_imageFails_eq_zero h), hattest, congrArg (· ++ _) hreplies⟩

/-! ### Reset -/

/-- A location that memory does not list reads as the default. -/
theorem kget_of_not_mem {β : Type} (d : β) {m : List (Nat × β)} {x : Nat} (h : ∀ e ∈ m, e.1 ≠ x) : kget d m x = d := by
  induction m with
  | nil => rfl
  | cons e r ih => rw [kget, if_neg (h e List.mem_cons_self), ih fun e he => h e (List.mem_cons_of_mem _ he)]

/-- What a list of writes that all write one byte says of a location. -/
theorem wfind_map_const (m : List Host.Cell) (b : Byte) (x : Nat) :
    wfind x (m.map fun e => (e.1, b)) = if ∃ e ∈ m, e.1 = x then some b else none := by
  induction m with
  | nil => simp [wfind]
  | cons e r ih =>
    rw [List.map_cons, wfind, ih]
    by_cases he : e.1 = x <;> simp [he]

/-- After a reset DRAM and host memory hold what they held, and the on-chip stores read as nothing (log entries 1 and 34). -/
theorem rdByte_afterReset (h : s.wbuf = []) (y : Nat) :
    (commit s s.afterReset).rdByte y = if y < 2 ^ 55 then s.rdByte y else 0 := by
  have hold : s.rdByte y = kget memDefault s.mem y := by rw [State.rdByte, h]; rfl
  have hnew : (commit s s.afterReset).rdByte y
      = (wfind y ((s.mem.filter fun c => 2 ^ 55 ≤ c.1).map fun c => (c.1, memDefault))).getD (kget memDefault s.mem y) :=
    kget_applyWrites ..
  rw [hnew, hold, wfind_map_const]
  by_cases hy : y < 2 ^ 55
  · have hkept : ¬ ∃ e ∈ s.mem.filter fun c => 2 ^ 55 ≤ c.1, e.1 = y := by
      rintro ⟨e, he, rfl⟩
      exact Nat.not_le.2 hy (of_decide_eq_true (List.mem_filter.1 he).2)
    rw [if_neg hkept, if_pos hy]; rfl
  · rw [if_neg hy]
    split
    next => rfl
    next hnone =>
      refine kget_of_not_mem memDefault fun e he hey => hnone ⟨e, List.mem_filter.2 ⟨he, ?_⟩, hey⟩
      exact decide_eq_true (hey ▸ Nat.le_of_not_lt hy)

end

/-- Settles O58: an accepted image's effect on its die does not depend on whether it configures the die
    (`State.die_configure`), and a reset's writes are the default at every on-chip location (`rdByte_afterReset`). -/
theorem bootAndReset : Obligations.BootAndReset := by
  unfold Obligations.BootAndReset
  intro s die bs
  refine ⟨bootImage_accepted, fun n => occurs_bootImage_refused, fun hdark => ?_, fun hfrozen hdark hdie => ?_, fun hquiet => ?_⟩
  · exact occurs_of rfl (by rw [hdark]; rfl)
  · exact occurs_of rfl (by simp [hfrozen, hdark, hdie])
  · exact ⟨_, rfl, rfl, rfl, rdByte_afterReset hquiet⟩

end Sys2Proof.Machine
end

section
/-! ## Every step: an instruction word issues, and all else is an event -/

namespace Sys2Proof.Machine

/-- The instructions that check the right to issue them before their operands (R373, R375, R378, R379). -/
def checksRight : Instr → Bool
  | .sysrd .. | .syswr .. | .syXreqWrite .. | .shoot .. | .part .. => true
  | _ => false

/-- Every instruction word is issued, and but for those five with no check of its own. -/
theorem exec_issue {i : Instr} (hw : isWord i = true) (hr : checksRight i = false) :
    ∃ body, ∀ s, exec i s = issue i body s := by
  cases i
  all_goals first
    | exact absurd hw Bool.false_ne_true
    | exact absurd hr.symm Bool.false_ne_true
    | exact ⟨_, fun _ => rfl⟩

theorem exec_issueWith {i : Instr} (hw : isWord i = true) : ∃ own body, ∀ s, exec i s = issueWith i own body s := by
  cases hr : checksRight i
  case false =>
    obtain ⟨body, h⟩ := exec_issue hw hr
    exact ⟨_, body, h⟩
  case true =>
    cases i
    case sysrd | syswr | syXreqWrite | shoot | part => exact ⟨_, _, fun _ => rfl⟩
    all_goals exact absurd hr Bool.false_ne_true


/-- What an event answers: its step, or that it has no occurrence. -/
def IsEvent (s : State) (o : Host.Outcome State Fault Refusal) : Prop := ∃ ok s1, o = event ok s s1

theorem isEvent_event (ok : Bool) (s s1 : State) : IsEvent s (event ok s s1) := ⟨ok, s1, rfl⟩

theorem isEvent_notEnabled (s : State) : IsEvent s (.fault .notEnabled) := ⟨false, s, rfl⟩

/-- What is no instruction word and no reset is an event: each branch of its meaning is its step, or that it has no
    occurrence. -/
theorem isEvent_exec {i : Instr} (hw : isWord i = false) (hr : i ≠ .reset) (s : State) : IsEvent s (exec i s) := by
  cases i
  case reset => exact absurd rfl hr
  all_goals try exact absurd hw.symm Bool.false_ne_true
  all_goals
    simp only [exec, execLoadReturn, execStoreAcknowledgement, execOverflowInterrupt, execQuantumExpiry, execWorldSwitch,
      execSleepEnd, execDetectorWindowEnd, execCrossingCompletion, execCopyEngineCommand, execEngineAlleyPush,
      execRequantisation, execBlockStep, execJobCard, execWatchdogExpiry, execCollectiveRoundCompletion, execTaskStart,
      execLaunchCompletion, execRebalance, execNearLineEviction, execServiceTerraceStart, execLinkRetraining,
      execLinkDeclaredDown, execFabricRequest, execFabricResponse, execCollectivePacket, execFabricManagementFlit,
      execStagger, execStaggerHoldEnd, execEgressSpillDrain, execPowerSample, execSupplyLoss, execHostRead, execHostWrite,
      execHostAtomic, execHostReadCompletion, execHostErrorResponse, execHostInterrupt, execDoorbell, State.hostFlit,
      execLaunchQueueEntry, execMgmtPart, execQuant, execFrames, execWdog, execLink, execAbort, execStop, execLost,
      execQueue, execPower, execLogs, execFreeze, execQuote, execSysreg, mgmtIf, mgmt, execFreezePin, execBootImage,
      execCoreCycle, execRowBoundary, execLinkRetrained, execFreezeReadout, execInstructionFetch]
    repeat' split
    all_goals first
      | exact isEvent_event ..
      | exact isEvent_notEnabled s

/-- Memory's canonical form outlasts everything that the machine can do. -/
theorem exec_tidy {i : Instr} {s t : State} (h : s.Tidy) (hs : exec i s = .next t) : t.Tidy := by
  cases hw : isWord i
  case true =>
    obtain ⟨own, body, hx⟩ := exec_issueWith hw
    exact issueWith_tidy h ((hx s).symm.trans hs)
  case false =>
    by_cases hr : i = .reset
    · subst hr
      cases hs
      exact ⟨commit_wf h.1 _, rfl⟩
    · obtain ⟨ok, s1, hx⟩ := isEvent_exec hw hr s
      exact event_tidy h (hx.symm.trans hs)

theorem illegalWord_tidy {w : Word} {n : Nat} {s t : State} (h : s.Tidy) (hs : illegalWord w n s = .next t) : t.Tidy := by
  unfold illegalWord at hs
  split at hs
  · cases hs
  · cases hs
    exact State.finish_tidy h.1 _ _

theorem State.issueStep_tidy {s t : State} {x : Nat × Nat} (h : s.Tidy) (hs : s.issueStep x = .next t) : t.Tidy := by
  unfold State.issueStep at hs
  split at hs
  · cases hs; exact h
  · exact illegalWord_tidy h hs
  · exact exec_tidy h hs

theorem State.take_tidy {s t : State} {i : Instr} {rest : List Instr} (h : s.Tidy) (hs : s.take i rest = .next t) :
    t.Tidy := by
  unfold State.take at hs
  split at hs
  · cases hs; exact h
  · exact exec_tidy (s := { s with agenda := rest }) h hs

theorem State.haltedStep_tidy {s t : State} (h : s.Tidy) (hs : s.haltedStep = .next t) : t.Tidy := by
  unfold State.haltedStep at hs
  split at hs
  · cases hs
  · split at hs
    · exact State.take_tidy h hs
    · exact State.take_tidy h hs
    · cases hs; exact h

theorem State.agentStep_tidy {s t : State} (h : s.Tidy) (hs : s.agentStep = .next t) : t.Tidy := by
  unfold State.agentStep at hs
  dsimp only at hs
  split at hs
  · exact exec_tidy (s := { s with tick := s.tick + 1 }) h hs
  · cases hs

/-- Settles O2: a step ends in `commit`, which lands what it wrote and keeps the canonical form, or writes nothing. -/
theorem stepKeepsTidy : Obligations.StepKeepsTidy := by
  intro s t h hs
  unfold step at hs
  split at hs
  · exact State.haltedStep_tidy h hs
  · split at hs
    · exact State.issueStep_tidy h hs
    · split at hs
      · exact State.take_tidy h hs
      · exact State.agentStep_tidy h hs

/-- Settles O1: memory after reset is empty, and nothing has been written. -/
theorem resetTidy : Obligations.ResetTidy := ⟨rfl, rfl⟩

theorem issueWith_answers {i : Instr} {own : State → Ctx → Option Trap} {body : State → Ctx → Res} {s : State} {c : Ctx}
    (h : s.issuer i = some c) : ∃ r, issueWith i own body s = .next (s.finish c r) := by
  unfold issueWith
  rw [h]
  dsimp only
  repeat' split
  all_goals exact ⟨_, rfl⟩

/-- Settles O9: whatever an issue's checks and its effect come to, the machine's next state is what `State.finish` makes of it. -/
theorem everyIssueAnswers : Obligations.EveryIssueAnswers := by
  intro i s c hw hc
  obtain ⟨own, body, hx⟩ := exec_issueWith hw
  obtain ⟨r, hnext⟩ := issueWith_answers (own := own) (body := body) hc
  exact ⟨_, (hx s).trans hnext, trivial⟩


/-! ## Illegal words, forms and operands -/

/-- In a module that runs, the split chosen to issue does. -/
theorem step_issue {s : State} {x : Nat × Nat} {rest : List (Nat × Nat)} (hf : s.frozen = false) (hd : s.dark = false)
    (hi : s.issue = x :: rest) : step s = s.issueStep x := by
  simp [step, hf, hd, hi]

theorem stepTakesIllegalWord : Clause.StepTakesIllegalWord := by
  intro s x rest w n c hf hd hi hbad hc c'
  rw [step_issue hf hd hi, State.issueStep, hbad]
  simp only [illegalWord, hc]
  rfl

/-- The check of the form comes before any other (R58). -/
theorem issueWith_illegalForm {i : Instr} {own : State → Ctx → Option Trap} {body : State → Ctx → Res} {s : State} {c : Ctx}
    (h : s.issuer i = some c) (hr : c.resumed = false) (hf : issueFormOk i c.ty = false) :
    issueWith i own body s = .next (s.finish c (.trap s ⟨0x01, 0, false, false, none, c.pc.toNat⟩ false)) := by
  have hi : c.i = i := (State.issuer_spec h).2.2.2.1
  rw [issueWith, h]
  simp only [hr, hi, hf]
  rfl

theorem issue_illegalOperand {i : Instr} {body : State → Ctx → Res} {s : State} {c : Ctx}
    (h : s.issuer i = some c) (hr : c.resumed = false) (hf : issueFormOk i c.ty = true) (ho : operandsOk c.t c.sp i = false) :
    issue i body s = .next (s.finish c (.trap s ⟨0x02, 0, false, false, none, c.pc.toNat⟩ false)) := by
  have hi : c.i = i := (State.issuer_spec h).2.2.2.1
  rw [issue, issueWith, h]
  simp only [hr, hi, hf, ho]
  rfl

theorem illegalFormTraps : Clause.IllegalFormTraps := by
  intro i s c hw hc hr hf
  obtain ⟨own, body, hx⟩ := exec_issueWith hw
  exact ⟨false, (hx s).trans (issueWith_illegalForm hc hr hf)⟩

theorem illegalOperandTraps : Clause.IllegalOperandTraps := by
  intro i s c hw hc hr hf ho
  cases hright : checksRight i
  case false =>
    obtain ⟨body, hx⟩ := exec_issue hw hright
    have htrap : Traps i s c s ⟨0x02, 0, false, false, none, c.pc.toNat⟩ :=
      ⟨false, (hx s).trans (issue_illegalOperand hc hr hf ho)⟩
    split
    case h_6 => exact htrap
    all_goals trivial
  case true =>
    cases i
    case sysrd | syswr | syXreqWrite | shoot | part => trivial
    all_goals exact absurd hright Bool.false_ne_true

/-- Settles O10: the three traps, in the order of the checks at an issue. -/
theorem illegalInstructions : Obligations.IllegalInstructions :=
  ⟨stepTakesIllegalWord, illegalFormTraps, illegalOperandTraps⟩

/-! ## A step's instruction -/

/-- What decodes is well formed: the decoder ends in that check. -/
theorem wellFormed_of_decodeFields {f : Fields} {i : Instr} (h : decodeFields f = some i) : WellFormed i = true := by
  unfold decodeFields at h
  split at h
  · split at h
    · cases h; assumption
    · cases h
  · cases h

theorem wellFormed_of_decode {bs : List Byte} {i : Instr} {n : Nat} (h : decode bs = .ok (i, n)) : WellFormed i = true := by
  unfold decode at h
  split at h
  case h_2 => cases h
  case h_1 =>
    dsimp only at h
    split at h
    · split at h
      · split at h
        · cases h; exact wellFormed_of_decodeFields (by assumption)
        · cases h
      · cases h
    · split at h
      · cases h; exact wellFormed_of_decodeFields (by assumption)
      · cases h

/-- Settles O6: the chosen split's words decode to its instruction, and one that it holds goes on. -/
theorem stepRunsDecoded : Obligations.StepRunsDecoded := by
  intro s x rest t sp i hf hd hi ht hsp
  rw [step_issue hf hd hi]
  refine ⟨fun bs n hheld hbs hdec => ⟨?_, wellFormed_of_decode hdec⟩, fun hheld => ?_⟩
  · have hfetched : s.fetched x = .word i := by simp only [State.fetched, ht, hsp, hheld, hbs, hdec]
    rw [State.issueStep, hfetched]
  · have hfetched : s.fetched x = .word i := by simp only [State.fetched, ht, hsp, hheld]
    rw [State.issueStep, hfetched]

/-! ## A module that does not run -/

/-- What arrives at a module that does not run and is neither a reset nor the read-out is dropped (R423, R456). -/
theorem haltedStep_drops {s : State} {i : Instr} {rest : List Instr} (h : s.agenda = i :: rest)
    (hread : ∀ d, i ≠ .freezeReadout d) (hreset : i ≠ .reset) : s.haltedStep = .next { s with agenda := rest } := by
  rw [State.haltedStep, h]
  dsimp only
  split
  · exact absurd rfl hreset
  · exact absurd rfl (hread _)
  · rfl

theorem commit_self {s : State} (h : s.wbuf = []) : commit s s = s :=
  calc commit s s = { s with wbuf := [] } := by rw [commit, h]; rfl
    _ = s := by rw [← h]

/-- The read-out changes nothing: it occurs with no effect, or has no occurrence and is dropped. -/
theorem take_freezeReadout {s : State} {d : Nat} {rest : List Instr} (hq : s.wbuf = []) :
    s.take (.freezeReadout d) rest = .next { s with agenda := rest } := by
  have hcommit : commit { s with agenda := rest } { s with agenda := rest } = { s with agenda := rest } := commit_self hq
  have hx : exec (.freezeReadout d) { s with agenda := rest }
      = event (s.frozen && !s.dark && d < 4) { s with agenda := rest } { s with agenda := rest } := rfl
  rw [State.take, hx, event, State.noted_of_flaws rfl, hcommit]
  cases s.frozen && !s.dark && decide (d < 4) <;> rfl

/-- Settles O7. -/
theorem frozenMovesNot : Obligations.FrozenMovesNot := by
  intro s hhalt
  have hstep : step s = s.haltedStep := by
    rw [step, if_pos]
    simpa using hhalt
  rw [hstep]
  refine ⟨fun h => by rw [State.haltedStep, h], fun i rest h => ⟨haltedStep_drops h, ?_, ?_⟩⟩
  · rintro rfl
    rw [State.haltedStep, h]
    rfl
  · rintro ⟨d, rfl⟩ hq
    rw [State.haltedStep, h]
    exact take_freezeReadout hq

theorem kget_map_default {β : Type} (f : Nat → β) (ls : List Nat) (x : Nat) :
    kget (f x) (ls.map fun n => (n, f n)) x = f x := by
  induction ls with
  | nil => rfl
  | cons n ls ih =>
    rw [List.map_cons, kget, ih]
    split
    next h => rw [h]
    next => rfl

theorem State.tenant_reset (v : Nat) : State.reset.tenant v = Tenant.init v := kget_map_default Tenant.init _ v

/-- Settles O8: each is what the reset state is made of. -/
theorem resetValues : Obligations.ResetValues := by
  refine ⟨rfl, rfl, rfl, rfl, rfl, rfl, rfl, rfl, rfl, rfl, fun _ => rfl, fun _ => ⟨rfl, rfl, rfl⟩, fun v => ?_⟩
  rw [State.tenant_reset]
  exact ⟨rfl, rfl, rfl, rfl, rfl, rfl, rfl⟩

/-! ## Memory -/

/-- Settles O11: within the step by `State.rdByte_wrBytes`, and the step's end changes no byte. -/
theorem memoryReadBack : Obligations.MemoryReadBack := by
  intro s x bs hq t
  have hbyte (y : Nat) : t.rdByte y = if x ≤ y ∧ y < x + bs.length then bs.getD (y - x) 0 else s.rdByte y :=
    (rdByte_commit (State.wrBytes_mem ..) y).trans (State.rdByte_wrBytes ..)
  have hin (k : Nat) (hk : k < bs.length) : t.rdByte (x + k) = bs.getD k 0 := by
    rw [hbyte, if_pos ⟨by omega, by omega⟩, Nat.add_sub_cancel_left]
  refine ⟨hin, fun y hy => by rw [hbyte, if_neg (by omega)], ?_⟩
  refine List.ext_getElem (by simp [State.rdBytes]) fun k _ hk => ?_
  simp [State.rdBytes, hin k hk, hk]

/-! ## Worked words -/

/-- Settles O5: each word's fields are those of its table, read by computation. -/
theorem workedWords : Obligations.WorkedWords := by
  unfold Obligations.WorkedWords
  decide +kernel

end Sys2Proof.Machine
end

section
/-! ## What a result writes -/

namespace Sys2Proof.Machine

/-! ### Wide marks -/

/-- One lane set or cleared in a mask. -/
theorem getLsbD_lane_set (m : Lanes) (b : Bool) (j : Nat) {l : Nat} (hl : l < 32) :
    (if b then m ||| 1#32 <<< j else m &&& ~~~(1#32 <<< j)).getLsbD l = if l = j then b else m.getLsbD l := by
  have hone : (1#32 <<< j).getLsbD l = decide (l = j) := by simpa using getLsbD_or_lane 0#32 j hl
  cases b
  · simp only [Bool.false_eq_true, if_false, BitVec.getLsbD_and, BitVec.getLsbD_not, hl, decide_true, Bool.true_and, hone]
    by_cases h : l = j <;> simp [h]
  · simp only [if_true, getLsbD_or_lane m j hl]
    by_cases h : l = j <;> simp [h]

theorem getLsbD_pair_set (m : BitVec 16) (b : Bool) (j : Nat) {n : Nat} (hn : n < 16) :
    (if b then m ||| 1#16 <<< j else m &&& ~~~(1#16 <<< j)).getLsbD n = if n = j then b else m.getLsbD n := by
  have hone : (1#16 <<< j).getLsbD n = decide (n = j) := by
    rw [BitVec.getLsbD_shiftLeft, BitVec.getLsbD_one]
    by_cases h : n = j
    · simp [h ▸ hn, h]
    · simp only [hn, h, decide_true, decide_false, Bool.true_and]
      rcases Nat.lt_or_gt_of_ne h with h | h
      · simp [h]
      · have : n - j ≠ 0 := by omega
        simp [this]
  cases b
  · simp only [Bool.false_eq_true, if_false, BitVec.getLsbD_and, BitVec.getLsbD_not, hn, decide_true, Bool.true_and, hone]
    by_cases h : n = j <;> simp [h]
  · simp only [if_true, BitVec.getLsbD_or, hone]
    by_cases h : n = j <;> simp [h]

theorem Terrace.vwide_vmark (t : Terrace) (n l : Nat) (b : Bool) {r k : Nat} (hr : r % 2 = 0) (hk : k < 32) :
    (t.vmark n l b).vwide r k = if n - n % 2 = r ∧ k = l then b else t.vwide r k := by
  simp only [Terrace.vwide, Terrace.vmark, kget_kset, hr, beq_self_eq_true, Bool.true_and]
  by_cases hn : r = n - n % 2
  · subst hn
    rw [if_pos rfl, getLsbD_lane_set _ b l hk]
    by_cases h : k = l <;> simp [h]
  · simp [hn, Ne.symm hn]

theorem Terrace.swide_smark (t : Terrace) (n : Nat) (b : Bool) {r : Nat} (hr : r % 2 = 0) (h16 : r < 16) :
    (t.smark n b).swide r = if n - n % 2 = r then b else t.swide r := by
  simp only [Terrace.swide, Terrace.smark, hr, beq_self_eq_true, Bool.true_and, getLsbD_pair_set _ b _ h16]
  by_cases hn : r = n - n % 2 <;> simp [hn, eq_comm]

@[simp] theorem Terrace.vwide_vput (t : Terrace) (n l : Nat) (w : Word) (r k : Nat) : (t.vput n l w).vwide r k = t.vwide r k := rfl
@[simp] theorem Terrace.swide_sput (t : Terrace) (n : Nat) (w : Word) (r : Nat) : (t.sput n w).swide r = t.swide r := rfl

/-- The words of a result: one, or two for a wide one. -/
theorem resWords_cases (wide : Bool) (x : Nat) :
    resWords wide x = BitVec.ofNat 32 x :: if wide then [BitVec.ofNat 32 (x / 2 ^ 32)] else [] := by
  cases wide <;> rfl

theorem resWords_length (wide : Bool) (x : Nat) : (resWords wide x).length = if wide then 2 else 1 := by
  cases wide <;> rfl

/-- A result written to an even register marks its pair in its lane. -/
theorem Terrace.vwide_vwrite_result (t : Terrace) (wide : Bool) {n l k : Nat} (x : Nat) (hn : n % 2 = 0) (hk : k < 32) :
    (t.vwrite wide n l (resWords wide x)).vwide n k = if k = l then wide else t.vwide n k := by
  have hodd : n + 1 - (n + 1) % 2 = n := by omega
  cases wide <;>
    simp [resWords, words2, Terrace.vwrite, Terrace.vwide_vmark _ _ _ _ hn hk, hn, hodd]

theorem Terrace.swide_swrite_result (t : Terrace) (wide : Bool) {n : Nat} (x : Nat) (hn : n % 2 = 0) (h16 : n < 16) :
    (t.swrite wide n (resWords wide x)).swide n = wide := by
  have hodd : n + 1 - (n + 1) % 2 = n := by omega
  cases wide <;>
    simp [resWords, words2, Terrace.swrite, Terrace.swide_smark _ _ _ hn h16, hn, hodd]

/-- A result written to an even v register marks its pair in the lanes of the mask. -/
theorem Terrace.vwide_writeDst_result (t : Terrace) {n : Nat} (wide : Bool) (m : Lanes) (f : Nat → Nat) {k : Nat}
    (hn : n % 2 = 0) (hk : k < 32) :
    (t.writeDst (.v n) wide m fun l => resWords wide (f l)).vwide n k = if m.getLsbD k then wide else t.vwide n k := by
  have key : ∀ (ls : List Nat) (t : Terrace),
      (ls.foldl (fun t l => t.vwrite wide n l (resWords wide (f l))) t).vwide n k
        = if k ∈ ls then wide else t.vwide n k := by
    intro ls
    induction ls with
    | nil => intro t; simp
    | cons l ls ih =>
      intro t
      rw [List.foldl_cons, ih, Terrace.vwide_vwrite_result _ _ _ hn hk]
      by_cases h : k = l <;> simp [h]
  rw [Terrace.writeDst, key]
  simp [mem_lanesOf, hk]

/-! ### Frames -/

theorem Terrace.writeDst_v_s (t : Terrace) (n : Nat) (wide : Bool) (m : Lanes) (f : Nat → List Word) :
    (t.writeDst (.v n) wide m f).s = t.s := by
  simp only [Terrace.writeDst]
  induction lanesOf m generalizing t with
  | nil => rfl
  | cons l ls ih =>
    obtain ⟨v, vw, h⟩ := t.vwrite_frame wide n l (f l)
    rw [List.foldl_cons, ih, h]

theorem Terrace.writeDst_s_v (t : Terrace) (n : Nat) (wide : Bool) (m : Lanes) (f : Nat → List Word) :
    (t.writeDst (.s n) wide m f).v = t.v := by
  simp only [Terrace.writeDst]
  cases lowLane m with
  | none => rfl
  | some l =>
    obtain ⟨r, w, h⟩ := t.swrite_frame wide n (f l)
    show (t.swrite wide n (f l)).v = t.v
    rw [h]

theorem destinationWritten : Clause.DestinationWritten := by
  intro t m wide f
  refine ⟨fun n l k j hk hl => ⟨fun hm => ?_, fun hother => ?_, fun hn hm => ?_, ?_, ?_⟩,
    fun n l j hlow => ⟨?_, fun hwide => ?_, fun hother => ?_, fun hn h16 => ?_, ?_, ?_⟩, fun n hlow => ?_, rfl⟩
  · constructor
    · rw [Terrace.vget_writeDst_v _ _ _ _ _ hl, resWords_length, if_pos ⟨hm, by omega, by split <;> omega⟩, resWords_cases]
      simp
    · rintro rfl
      rw [Terrace.vget_writeDst_v _ _ _ _ _ hl, resWords_length, if_pos ⟨hm, by omega, by simp⟩, resWords_cases]
      simp
  · rw [Terrace.vget_writeDst_v _ _ _ _ _ hk, resWords_length, if_neg]
    rintro ⟨hm, hlo, hhi⟩
    rcases hother with h | ⟨h, rfl | h⟩
    · exact absurd (hm.symm.trans h) (by decide)
    · simp at hhi; omega
    · split at hhi <;> omega
  · rw [Terrace.vwide_writeDst_result _ _ _ _ hn hl, if_pos hm]
  · exact Terrace.writeDst_v_s ..
  · exact Terrace.writeDst_p ..
  · rw [Terrace.sget_writeDst_s, hlow]
    dsimp only
    rw [resWords_length, if_pos ⟨by omega, by split <;> omega⟩, resWords_cases]
    simp
  · subst hwide
    rw [Terrace.sget_writeDst_s, hlow]
    dsimp only
    rw [resWords_length, if_pos ⟨by omega, by simp⟩, resWords_cases]
    simp
  · rw [Terrace.sget_writeDst_s, hlow]
    dsimp only
    rw [resWords_length, if_neg]
    rintro ⟨hlo, hhi⟩
    obtain ⟨h, rfl | h⟩ := hother
    · simp at hhi; omega
    · split at hhi <;> omega
  · simp only [Terrace.writeDst, hlow]
    exact Terrace.swide_swrite_result _ _ _ hn h16
  · exact Terrace.writeDst_s_v ..
  · exact Terrace.writeDst_p ..
  · simp only [Terrace.writeDst, hlow]

/-! ### The guard -/

/-- A bit of a mode word as the model reads it. -/
theorem mode_bit (m : BitVec 16) (k : Nat) : (m.toNat / 2 ^ k % 2 == 1) = m.getLsbD k := by
  rw [BitVec.getLsbD, Nat.testBit_eq_decide_div_mod_eq]
  rfl

theorem guardSelectsLanes : Clause.GuardSelectsLanes := by
  intro t sp l hl
  have hgen : (sp.mode.toNat / 16 % 2 == 0) = !sp.mode.getLsbD 4 := by
    rw [← mode_bit sp.mode 4]
    rcases Nat.mod_two_eq_zero_or_one (sp.mode.toNat / 16) with h | h <;> simp [h]
  have hneg : (sp.mode.toNat / 8 % 2 == 1) = sp.mode.getLsbD 3 := mode_bit sp.mode 3
  simp only [activeOf, hgen, hneg]
  cases sp.mode.getLsbD 4
  · simp
  · cases sp.mode.getLsbD 3 <;> simp [hl]

/-- Settles O12. -/
theorem guardAndDestination : Obligations.GuardAndDestination := ⟨destinationWritten, guardSelectsLanes⟩


/-! ## The end of an issue -/

theorem State.apart_commit (s r : State) (u : Nat) :
    (commit s r).apart u = { r.apart u with mem := applyWrites s.mem r.wbuf, wbuf := [] } := rfl

/-- A terrace with one split changed. -/
def Terrace.mapSplit (t : Terrace) (k : Nat) (f : Split → Split) : Terrace :=
  { t with splits := t.splits.map fun y => if y.sid = k then f y else y }

theorem State.ter?_updSplit_same {s : State} {u k : Nat} {t : Terrace} (h : s.ter? u = some t) (f : Split → Split) :
    (s.updSplit u k f).ter? u = some (t.mapSplit k f) := by
  rw [State.ter?_updSplit, if_pos rfl, h]; rfl

theorem Terrace.split?_mapSplit (t : Terrace) (k v : Nat) {f : Split → Split} (hf : ∀ x, (f x).sid = x.sid) :
    (t.mapSplit k f).split? v = if v = k then (t.split? k).map f else t.split? v :=
  t.split?_map k v f hf

theorem Terrace.split?_mapSplit_same {t : Terrace} {k : Nat} {y : Split} (h : t.split? k = some y) {f : Split → Split}
    (hf : ∀ x, (f x).sid = x.sid) : (t.mapSplit k f).split? k = some (f y) := by
  rw [Terrace.split?_mapSplit t k k hf, if_pos rfl, h]; rfl

theorem Terrace.split?_mapSplit_other (t : Terrace) {k v : Nat} (h : v ≠ k) {f : Split → Split}
    (hf : ∀ x, (f x).sid = x.sid) : (t.mapSplit k f).split? v = t.split? v := by
  rw [Terrace.split?_mapSplit t k v hf, if_neg h]

theorem State.apart_updSplit_same (s : State) (u k : Nat) (f : Split → Split) : (s.updSplit u k f).apart u = s.apart u :=
  State.apart_updSplit s u k u f fun h => absurd rfl h

/-- Two states that are the same apart from a terrace are so at the end of a step. -/
theorem State.apart_commit_congr {s r r' : State} {u : Nat} (h : r.apart u = r'.apart u) :
    (commit s r).apart u = (commit s r').apart u := by
  have hw : (r.apart u).wbuf = (r'.apart u).wbuf := congrArg State.wbuf h
  change r.wbuf = r'.wbuf at hw
  rw [State.apart_commit, State.apart_commit, h, hw]

theorem endOfInstruction : Clause.EndOfInstruction := by
  intro s s0 c vals w y s1 hf hp hw hy
  exact State.finish_done vals rfl hf hp hw hy

theorem heldInstruction : Clause.HeldInstruction := by
  intro s s0 c h w y s1 hp hw hy t
  obtain ⟨hapart, hissue, w1, hw1, hregs, hothers, hsplit, hrest⟩ := State.issued_spec (c := c) hw hp
  rw [hy] at hsplit
  let f : Split → Split := fun x => { x with hold := h, held := some c.i, read := none }
  have ht : t = commit s ((s1.issued c).popIssue.updSplit c.uid c.sid f) := rfl
  refine ⟨?_, congrArg List.tail hissue, w1.mapSplit c.sid f, _, State.ter?_updSplit_same (s := (s1.issued c).popIssue) hw1 f,
    Terrace.split?_mapSplit_same hsplit fun _ => rfl, hregs, hothers, ?_, ?_, rfl, rfl, ?_, fun k hk => ?_⟩
  · rw [ht, State.apart_commit_congr]
    exact (State.apart_updSplit_same ..).trans hapart
  · cases c.resumed <;> rfl
  · cases c.resumed <;> rfl
  · cases c.resumed <;> rfl
  · rw [Terrace.split?_mapSplit_other w1 hk (f := f) fun _ => rfl, hrest k hk]

/-- What a wait leaves of a state before its split is held: but for pending bits, what an issue leaves. -/
theorem State.awaiting_spec {s : State} {c : Ctx} {w : Terrace} {y : Split} (hp : (s.part? c.t.core c.t.vf).isSome = true)
    (hw : s.ter? c.uid = some w) (hy : w.split? c.sid = some y) :
    let s1 := if c.resumed then s
      else (if overwritesCount c.i then s.noteIssue c else s.issued c).updTer c.uid
        fun t => t.setPending c.now (writesOf c.sp.mode c.i) none c.sid
    s1.apart c.uid = s.apart c.uid ∧ s1.issue = s.issue ∧
      ∃ u z, s1.ter? c.uid = some u ∧ u.regs = w.regs ∧ u.others = w.others ∧ u.split? c.sid = some z
        ∧ z.pc = y.pc ∧ z.mask = y.mask ∧ z.status = y.status ∧ z.kept = y.kept
        ∧ (c.resumed = false → ∀ r ∈ writesOf c.sp.mode c.i, ⟨r, none, c.sid⟩ ∈ u.pending)
        ∧ ∀ k, k ≠ c.sid → (u.split? k).map Split.bare = (w.split? k).map Split.bare := by
  intro s1
  cases hr : c.resumed with
  | true =>
    have hs : s1 = s := if_pos hr
    rw [hs]
    exact ⟨rfl, rfl, w, y, hw, rfl, rfl, hy, rfl, rfl, rfl, rfl, by simp, fun _ _ => rfl⟩
  | false =>
    let issued := if overwritesCount c.i then s.noteIssue c else s.issued c
    have hs : s1 = issued.updTer c.uid fun t => t.setPending c.now (writesOf c.sp.mode c.i) none c.sid :=
      if_neg (by simp [hr])
    obtain ⟨hapart, hissue, u, hu, hregs, hothers, hsplit, hrest⟩ : issued.apart c.uid = s.apart c.uid
        ∧ issued.issue = s.issue ∧ ∃ u, issued.ter? c.uid = some u ∧ u.regs = w.regs ∧ u.others = w.others
          ∧ u.split? c.sid = (w.split? c.sid).map (fun x => { x with waited := 0, hold := .none })
          ∧ ∀ j, j ≠ c.sid → (u.split? j).map Split.bare = (w.split? j).map Split.bare := by
      by_cases ho : overwritesCount c.i = true
      · simpa only [issued, if_pos ho] using State.noteIssue_spec hw hp
      · simpa [issued, ho, hr] using State.issued_spec (c := c) hw hp
    rw [hy] at hsplit
    rw [hs]
    refine ⟨(State.apart_updTer issued c.uid (fun t => t.setPending c.now (writesOf c.sp.mode c.i) none c.sid) fun _ => rfl).trans hapart, hissue, _, _,
      State.ter?_updTer_same hu _ fun _ => rfl, hregs, hothers, hsplit, rfl, rfl, rfl, rfl, fun _ r hmem => ?_, hrest⟩
    exact List.mem_append_right _ (List.mem_map.2 ⟨r, hmem, rfl⟩)

theorem waitingInstruction : Clause.WaitingInstruction := by
  intro s s0 c k w y s1 hp hw hy t
  obtain ⟨hapart, hissue, w1, z, hw1, hregs, hothers, hz, hpc, hmask, hstatus, _, hpending, hrest⟩ :=
    State.awaiting_spec hp hw hy
  let f : Split → Split := fun x =>
    { x with hold := .wait k, held := some c.i, read := some c.atIssue, avail := max x.avail (c.now + 1) }
  have ht : t = commit s (s1.await c k) := rfl
  refine ⟨?_, congrArg List.tail hissue, w1.mapSplit c.sid f, f z, State.ter?_updSplit_same hw1 f,
    Terrace.split?_mapSplit_same hz fun _ => rfl, hregs, hothers, hpc, hmask, rfl, rfl, hstatus, hpending, fun j hj => ?_⟩
  · rw [ht, State.apart_commit_congr]
    exact (State.apart_updSplit_same ..).trans hapart
  · rw [Terrace.split?_mapSplit_other w1 hj (f := f) fun _ => rfl, hrest j hj]

theorem stayingInstruction : Clause.StayingInstruction := by
  intro s c w y hr hq hw hy t
  let f : Split → Split := fun x => { x with avail := max x.avail (c.now + 1) }
  let k : Core := { s.core c.t.core with again := (c.t.ter / 16) :: (s.core c.t.core).again }
  have ht : t = commit s ((s.updSplit c.uid c.sid f).setCore c.t.core k).popIssue := by
    simp only [t, State.finish, State.stay, hr]; rfl
  have hapart : (s.updSplit c.uid c.sid f).apart c.uid = s.apart c.uid := State.apart_updSplit_same ..
  rw [ht]
  refine ⟨?_, rfl, fun j hj => kget_kset_other _ _ _ hj, w.mapSplit c.sid f, f y, State.ter?_updSplit_same hw f,
    Terrace.split?_mapSplit_same hy fun _ => rfl, rfl, rfl, rfl, rfl, rfl, rfl, rfl, rfl, rfl,
    fun j hj => Terrace.split?_mapSplit_other _ hj fun _ => rfl⟩
  calc (commit s ((s.updSplit c.uid c.sid f).setCore c.t.core k).popIssue).apart c.uid
      = { (s.updSplit c.uid c.sid f).apart c.uid with
          cores := kset Core.init s.cores c.t.core k, mem := applyWrites s.mem s.wbuf, wbuf := [] } := rfl
    _ = { s.apart c.uid with cores := kset Core.init s.cores c.t.core k } := by
      rw [hapart, ← hq, hq, applyWrites_nil, ← hq]; rfl

/-- Settles O13. -/
theorem endOfIssue : Obligations.EndOfIssue := ⟨endOfInstruction, heldInstruction, waitingInstruction, stayingInstruction⟩

end Sys2Proof.Machine
end

section
/-! ## Integer results -/

namespace Sys2Proof.Machine

/-! ### Finish (R64) -/

theorem wrapTo_lt (w : Nat) (n : Int) : wrapTo w n < 2 ^ w := by
  have hpos : (0 : Int) < ((2 ^ w : Nat) : Int) := by exact_mod_cast Nat.two_pow_pos w
  have hlt := Int.emod_lt_of_pos n hpos
  have hnn := Int.emod_nonneg n (Int.ne_of_gt hpos)
  unfold wrapTo
  omega

theorem coe_wrapTo (w : Nat) (n : Int) : (wrapTo w n : Int) = n % ((2 ^ w : Nat) : Int) := by
  have hpos : ((2 ^ w : Nat) : Int) ≠ 0 := by exact_mod_cast Nat.ne_of_gt (Nat.two_pow_pos w)
  exact Int.toNat_of_nonneg (Int.emod_nonneg n hpos)

/-- The value of a wrapped integer differs from it by a multiple of 2^w. -/
theorem dvd_intOf_wrapTo (ty : Nat) (n : Int) :
    ((2 ^ tyWidth ty : Nat) : Int) ∣ intOf ty (wrapTo (tyWidth ty) n) - n := by
  have hmod : ((wrapTo (tyWidth ty) n % 2 ^ tyWidth ty : Nat) : Int) = n % ((2 ^ tyWidth ty : Nat) : Int) := by
    rw [Nat.mod_eq_of_lt (wrapTo_lt ..), coe_wrapTo]
  have hbase : ((2 ^ tyWidth ty : Nat) : Int) ∣ n % ((2 ^ tyWidth ty : Nat) : Int) - n :=
    Int.dvd_emod_sub_self
  unfold intOf signExt
  dsimp only
  split
  · split
    · rwa [hmod]
    · have hcomm : ∀ a b c : Int, a - b - c = a - c - b := fun a b c => by omega
      rw [hmod, hcomm]
      exact Int.dvd_sub hbase (Int.dvd_refl _)
  · rwa [hmod]

theorem two_pow_tyWidth (ty : Nat) : 2 ^ tyWidth ty = 2 * 2 ^ (tyWidth ty - 1) := by
  rw [← Nat.pow_succ', Nat.succ_eq_add_one, Nat.sub_add_cancel (tyWidth_pos ty)]

/-- The value of a pattern lies in the range of its type. -/
theorem intOf_range (ty bits : Nat) : tyMin ty ≤ intOf ty bits ∧ intOf ty bits ≤ tyMax ty := by
  have hw := two_pow_tyWidth ty
  have hlt : bits % 2 ^ tyWidth ty < 2 ^ tyWidth ty := Nat.mod_lt _ (Nat.two_pow_pos _)
  unfold tyMin tyMax intOf signExt
  dsimp only
  generalize bits % 2 ^ tyWidth ty = m at hlt ⊢
  generalize 2 ^ tyWidth ty = n at hw hlt ⊢
  generalize 2 ^ (tyWidth ty - 1) = k at hw ⊢
  cases tySigned ty
  · simp; omega
  · simp only [if_true]
    split <;> omega

theorem tyMax_sub_tyMin (ty : Nat) : tyMax ty - tyMin ty + 1 = ((2 ^ tyWidth ty : Nat) : Int) := by
  have hw := two_pow_tyWidth ty
  unfold tyMin tyMax
  generalize 2 ^ tyWidth ty = n at hw ⊢
  generalize 2 ^ (tyWidth ty - 1) = k at hw ⊢
  cases tySigned ty
  · simp
  · simp; omega

/-- An integer in the range of a type is the value of its pattern. -/
theorem intOf_wrapTo_of_range {ty : Nat} {n : Int} (hlo : tyMin ty ≤ n) (hhi : n ≤ tyMax ty) :
    intOf ty (wrapTo (tyWidth ty) n) = n := by
  obtain ⟨h1, h2⟩ := intOf_range ty (wrapTo (tyWidth ty) n)
  have hspan := tyMax_sub_tyMin ty
  have hsmall : (intOf ty (wrapTo (tyWidth ty) n) - n).natAbs < 2 ^ tyWidth ty := by omega
  have hzero := Int.eq_zero_of_dvd_of_natAbs_lt_natAbs (dvd_intOf_wrapTo ty n) (by simpa only [Int.natAbs_natCast] using hsmall)
  omega

/-- Settles O14. -/
theorem integerFinish : Obligations.IntegerFinish := by
  intro ty r hty w lo hi
  have hlo : tyMin ty = lo := by simp [tyMin, lo, w]
  have hhi : tyMax ty = hi := by simp [tyMax, hi, w]
  have hrange : lo ≤ hi := by
    rw [← hlo, ← hhi]
    obtain ⟨h1, h2⟩ := intOf_range ty 0
    exact Int.le_trans h1 h2
  obtain ⟨h1, h2⟩ := intOf_range ty (finishInt ty false r)
  refine ⟨wrapTo_lt .., wrapTo_lt .., dvd_intOf_wrapTo .., hlo ▸ h1, hhi ▸ h2, ?_⟩
  have hclamp : finishInt ty true r = wrapTo (tyWidth ty) (max lo (min r hi)) := by
    rw [finishInt, if_pos rfl, hlo, hhi, Int.min_comm]
  rw [hclamp, intOf_wrapTo_of_range]
  · rw [hlo]; exact Int.le_max_left ..
  · rw [hhi]; exact Int.max_le.2 ⟨hrange, Int.min_le_right ..⟩

/-! ### Instructions (R88, R90, R94) -/

section

variable {i : Instr} {s : State} {c : Ctx} {d : Dst} {a b : Src} {m : Option Mods}

/-- A two-source integer instruction completes with its exact result, finished once. -/
theorem intRuns_aluInt {op : Int → Int → Int} {r : Nat → Int} {body : State → Ctx → Res} (hx : exec i s = issue i body s)
    (hb : body s c = aluInt d a b m op s c) (hr : ∀ l, op (c.xInt m a l) (c.yInt m b l) = r l) : IntRuns i s c d m r := by
  intro h
  refine completes_result h hx (hb.trans ?_)
  have hfun : c.int m r = c.int m fun l => op (c.xInt m a l) (c.yInt m b l) := by
    rw [funext hr]
  rw [hfun]
  rfl

theorem intRuns_aluUnaryInt {op : Int → Int} {r : Nat → Int} (hx : exec i s = issue i (aluUnaryInt d a m op) s)
    (hr : ∀ l, op (c.xInt m a l) = r l) : IntRuns i s c d m r := by
  intro h
  have hfun : c.int m r = c.int m fun l => op (c.xInt m a l) := by
    rw [funext hr]
  rw [hfun]
  exact completes_result h hx rfl

end

theorem coe_natAbs_eq (x : Int) : (x.natAbs : Int) = if x < 0 then -x else x := by
  split <;> omega

/-- Settles O15: each follows from its template at its exact operation. -/
theorem integerArithmetic : Obligations.IntegerArithmetic := by
  intro s c d a b m x y
  refine ⟨?add, ?sub, ?mullo, ?mulhi, ?mad, ?div, ?rem, ?min, ?max, ?abs, ?neg⟩
  case add => exact intRuns_aluInt rfl rfl fun _ => rfl
  case sub => exact intRuns_aluInt rfl rfl fun _ => rfl
  case mullo => exact intRuns_aluInt rfl rfl fun _ => rfl
  case mulhi => exact intRuns_aluInt rfl rfl fun _ => rfl
  case mad => exact fun h => completes_result h rfl rfl
  case div => exact intRuns_aluInt rfl rfl fun l => by simp only [divInt, beq_iff_eq]; rfl
  case rem => exact intRuns_aluInt rfl rfl fun l => by simp only [remInt, beq_iff_eq]; rfl
  case min => exact intRuns_aluInt rfl rfl fun l => Int.min_def ..
  case max => exact intRuns_aluInt rfl rfl fun l => Int.max_def ..
  case abs => exact intRuns_aluUnaryInt rfl fun l => coe_natAbs_eq _
  case neg => exact intRuns_aluUnaryInt rfl fun _ => rfl

/-! ## Moves and predicate writes -/

/-- An instruction whose effect is a predicate completes with it. -/
theorem predRuns_of {i : Instr} {body : State → Ctx → Res} {s : State} {c : Ctx} {p : Nat} {f g : Nat → Bool}
    (hx : exec i s = issue i body s) (hb : body s c = .done (c.writePred s p f) none) (hg : ∀ l, f l = g l) :
    PredRuns i s c p g := by
  intro h
  refine ⟨c.predAfter p f, ⟨_, hx.trans (issue_eq h), ?_⟩, fun l hl => by rw [c.getLsbD_predAfter p f hl, hg]⟩
  rw [hb]
  exact State.passes_regs none h (fun t => t.pset p c.active (laneBits c.lanes f)) (fun _ => rfl) rfl rfl

theorem int_beq_decide (x y : Int) : (x == y) = decide (x = y) := rfl

theorem cmpInt_eq (cond : Nat) (x y : Int) : cmpInt cond x y = (match cond with
    | 0 => decide (x = y) | 1 => decide (x ≠ y) | 2 => decide (x < y) | 3 => decide (x ≤ y)
    | 4 => decide (y < x) | _ => decide (y ≤ x)) := by
  unfold cmpInt
  split <;> simp only [bne, int_beq_decide, ne_eq, decide_not]

theorem cmpXr_eq (cond : Nat) (x y : Xr) : cmpXr cond x y =
    (let un := x.isNan || y.isNan
     let k := Xr.cmp x y
     match cond with
      | 0 => !un && decide (k = 0) | 1 => un || decide (k ≠ 0) | 2 => !un && decide (k < 0)
      | 3 => !un && decide (k ≤ 0) | 4 => !un && decide (0 < k) | 5 => !un && decide (0 ≤ k)
      | 6 => un | _ => !un) := by
  unfold cmpXr
  dsimp only
  split <;> simp [bne, int_beq_decide]

/-- The scaled index of LEA is the sum that a 64-bit address wraps to (R93). -/
theorem lea_address (x y k : Nat) : wrapTo 64 ((x : Int) + signExt 32 y * (k : Nat)) =
    (BitVec.ofNat 64 x + (BitVec.ofNat 32 y).signExtend 64 * BitVec.ofNat 64 k).toNat := by
  have hsign : signExt 32 y = (BitVec.ofNat 32 y).toInt := by
    simp only [signExt, BitVec.toInt, BitVec.toNat_ofNat]
    split <;> split <;> omega
  have hword : BitVec.ofInt 64 ((x : Int) + signExt 32 y * (k : Nat))
      = BitVec.ofNat 64 x + (BitVec.ofNat 32 y).signExtend 64 * BitVec.ofNat 64 k := by
    rw [BitVec.ofInt_add, BitVec.ofInt_mul, BitVec.ofInt_natCast, BitVec.ofInt_natCast, hsign]
    rfl
  rw [← hword, BitVec.toNat_ofInt]
  rfl

theorem movesComplete : Clause.Moves := by
  intro s c d a b m neg p w
  refine ⟨?sel, ?lea, ?mov, ?movi, ?movh⟩
  case sel =>
    intro h
    refine completes_result h rfl ?_
    have hpick (l : Nat) : (if (c.rt.pget p).getLsbD l = neg then c.moved b l else c.moved a l)
        = if (c.rt.pget p).getLsbD l != neg then (if ty64 c.ty then c.src64 a l else c.src a l)
          else (if ty64 c.ty then c.src64 b l else c.src b l) := by
      cases (c.rt.pget p).getLsbD l <;> cases neg <;> rfl
    simp only [hpick]
  case lea =>
    intro h
    refine completes_result h rfl ?_
    simp only [lea_address]
  case mov => exact fun h => completes_result h rfl rfl
  case movi => exact fun h => completes_result h rfl rfl
  case movh => exact fun h => completes_result h rfl rfl

theorem predicateWrites : Clause.PredicateWrites := by
  intro s c cond p a b m lanes x y u v un k
  refine ⟨?cmp, ?fcmp, ?pset⟩
  case cmp => exact predRuns_of rfl rfl fun l => cmpInt_eq ..
  case fcmp => exact predRuns_of rfl rfl fun l => cmpXr_eq ..
  case pset => exact predRuns_of rfl rfl fun _ => rfl

/-- Settles O18. -/
theorem movesAndPredicates : Obligations.MovesAndPredicates := ⟨movesComplete, predicateWrites⟩

end Sys2Proof.Machine
end

section
/-! ## Results that draw, and votes -/

namespace Sys2Proof.Machine

/-! ### A result written and the generator advanced -/

theorem Terrace.regs_eq_iff {t u : Terrace} :
    t.regs = u.regs ↔ t.v = u.v ∧ t.vw = u.vw ∧ t.s = u.s ∧ t.sw = u.sw ∧ t.p = u.p := by
  simp [Terrace.regs]

/-- A write in a lane of a group depends on the register files alone. -/
theorem Terrace.vwrite_regs_congr {t u : Terrace} (h : t.regs = u.regs) (wide : Bool) (n l : Nat) (ws : List Word) :
    (t.vwrite wide n l ws).regs = (u.vwrite wide n l ws).regs := by
  induction ws generalizing t u n with
  | nil => exact h
  | cons w ws ih =>
    refine ih ?_ (n + 1)
    obtain ⟨hv, hvw, hs, hsw, hp⟩ := Terrace.regs_eq_iff.1 h
    exact Terrace.regs_eq_iff.2 ⟨by simp [Terrace.vput, Terrace.vmark, hv], by simp [Terrace.vput, Terrace.vmark, hvw], hs, hsw, hp⟩

theorem Terrace.swrite_regs_congr {t u : Terrace} (h : t.regs = u.regs) (wide : Bool) (n : Nat) (ws : List Word) :
    (t.swrite wide n ws).regs = (u.swrite wide n ws).regs := by
  induction ws generalizing t u n with
  | nil => exact h
  | cons w ws ih =>
    refine ih ?_ (n + 1)
    obtain ⟨hv, hvw, hs, hsw, hp⟩ := Terrace.regs_eq_iff.1 h
    exact Terrace.regs_eq_iff.2 ⟨hv, hvw, by simp [Terrace.sput, Terrace.smark, hs], by simp [Terrace.sput, Terrace.smark, hsw], hp⟩

theorem Terrace.writeDst_regs_congr {t u : Terrace} (h : t.regs = u.regs) (d : Dst) (wide : Bool) (m : Lanes)
    (f : Nat → List Word) : (t.writeDst d wide m f).regs = (u.writeDst d wide m f).regs := by
  cases d with
  | none => exact h
  | v n =>
    simp only [Terrace.writeDst]
    induction lanesOf m generalizing t u with
    | nil => exact h
    | cons l ls ih => exact ih (Terrace.vwrite_regs_congr h wide n l (f l))
  | s n =>
    simp only [Terrace.writeDst]
    split
    · exact h
    · exact Terrace.swrite_regs_congr h wide n _

theorem Terrace.writeDst_others (t : Terrace) (d : Dst) (wide : Bool) (m : Lanes) (f : Nat → List Word) :
    (t.writeDst d wide m f).others = t.others := by
  obtain ⟨_, _, _, _, h⟩ := t.writeDst_frame d wide m f
  rw [h]; rfl

section

variable {i : Instr} {body : State → Ctx → Res} {s : State} {c : Ctx} {d : Dst} {a b : Src} {m : Option Mods}

/-- An instruction whose effect is a result, drawn from the generator where `draws` says so, completes with both (R68). -/
theorem completes_drawn {wide draws : Bool} {f : Nat → Nat} (h : s.Issues i c) (hx : exec i s = issue i body s)
    (hb : body s c = c.result (c.advance s draws) d wide f) : Completes i s c (c.put d wide f) (c.stepped draws) := by
  refine ⟨_, hx.trans (issue_eq h), ?_⟩
  rw [hb, Ctx.result_eq]
  unfold Ctx.stepped Ctx.advance
  split
  · exact State.passes_both _ h (fun x => { x with rc := x.rc + 1 }) (fun _ => rfl) rfl rfl
      (fun t => t.writeDst d wide c.active fun l => resWords wide (f l)) (fun t => t.writeDst_uid d wide c.active _)
      (fun t => t.writeDst_splits d wide c.active _) (fun t => t.writeDst_others d wide c.active _)
      (fun _ _ hr => Terrace.writeDst_regs_congr hr d wide c.active _)
  · exact State.passes_dst _ h d wide c.active _

/-- A result in a type that is not a signed integer one stands in its register as it is (R64). -/
theorem extendTy_unsigned {ty : Nat} (h : tySigned ty = false) (bits : Nat) : extendTy ty bits = bits := by
  rw [extendTy, h, Bool.false_and]
  rfl

theorem completes_drawn_ty {draws : Bool} {f : Nat → Nat} (h : s.Issues i c) (hx : exec i s = issue i body s)
    (hs : tySigned c.ty = false) (hb : body s c = c.resultTy (c.advance s draws) d c.ty f) :
    Completes i s c (c.put d (ty64 c.ty) f) (c.stepped draws) := by
  refine completes_drawn h hx (hb.trans ?_)
  simp only [Ctx.resultTy, extendTy_unsigned hs]

theorem tySigned_of_tyFp {ty : Nat} (h : tyFp ty = true ∨ tyFp32 ty = true) : tySigned ty = false := by
  have hty : ty = 8 ∨ ty = 9 ∨ ty = 10 ∨ ty = 11 ∨ ty = 12 ∨ ty = 13 := by
    simp [tyFp, tyFp32] at h; omega
  rcases hty with rfl | rfl | rfl | rfl | rfl | rfl <;> rfl

/-- An instruction of the template of R86 on floating-point values completes with its exact value, rounded once. -/
theorem fpRuns_of {v : Nat → Xr} (hx : exec i s = issue i body s)
    (hty : typeOk i c.ty = tyFp c.ty ∨ typeOk i c.ty = tyFp32 c.ty)
    (hb : body s c = c.resultTy (c.advance s c.srMode) d c.ty (c.fp m v)) : FpRuns i s c d m v := by
  intro h
  have htype : typeOk i c.ty = true := by
    have hform := h.form
    simp only [issueFormOk, Bool.and_eq_true] at hform
    exact hform.1.2
  exact completes_drawn_ty h hx (tySigned_of_tyFp (hty.imp (·.symm.trans htype) (·.symm.trans htype))) hb

end

/-- Settles O19: each follows from its template at its exact operation. -/
theorem floatArithmetic : Obligations.FloatArithmetic := by
  intro s c d a b m x y
  refine ⟨?add, ?sub, ?mul, ?fma, ?min, ?max, ?div, ?rcp, ?rsq, ?sqrt, ?exp2, ?log2, ?sin, ?cos, ?tanh⟩
  case add => exact fpRuns_of rfl (.inl rfl) rfl
  case sub => exact fpRuns_of rfl (.inl rfl) rfl
  case mul => exact fpRuns_of rfl (.inl rfl) rfl
  case fma => exact fpRuns_of rfl (.inl rfl) rfl
  case min => exact fpRuns_of rfl (.inl rfl) rfl
  case max => exact fpRuns_of rfl (.inl rfl) rfl
  case div => exact fpRuns_of rfl (.inl rfl) rfl
  case rcp => exact fpRuns_of rfl (.inl rfl) rfl
  case rsq => exact fpRuns_of rfl (.inl rfl) rfl
  case sqrt => exact fpRuns_of rfl (.inl rfl) rfl
  case exp2 => exact fpRuns_of rfl (.inr rfl) rfl
  case log2 => exact fpRuns_of rfl (.inr rfl) rfl
  case sin => exact fpRuns_of rfl (.inr rfl) rfl
  case cos => exact fpRuns_of rfl (.inr rfl) rfl
  case tanh => exact fpRuns_of rfl (.inr rfl) rfl

/-! ### Votes and reductions -/

theorem toNat_any {α : Type} (ls : List α) (f : α → Bool) : (ls.any f).toNat = if ∃ l ∈ ls, f l = true then 1 else 0 := by
  simp only [← List.any_eq_true]
  cases ls.any f <;> rfl

theorem toNat_all {α : Type} (ls : List α) (f : α → Bool) : (ls.all f).toNat = if ∀ l ∈ ls, f l = true then 1 else 0 := by
  simp only [← List.all_eq_true]
  cases ls.all f <;> rfl

/-- The values of a list are all equal exactly when all equal the first. -/
theorem uniform_iff {α : Type} (x : α → Nat) (l0 : α) (ls : List α) :
    (∀ l ∈ ls, (x l == x l0) = true) ↔ ∀ l ∈ l0 :: ls, ∀ k ∈ l0 :: ls, x l = x k := by
  constructor
  · intro h
    have hall : ∀ l ∈ l0 :: ls, x l = x l0 := by
      simpa using h
    exact fun l hl k hk => (hall l hl).trans (hall k hk).symm
  · exact fun h l hl => beq_iff_eq.2 (h l (List.mem_cons_of_mem _ hl) l0 (List.mem_cons_self ..))

/-- Settles O22. -/
theorem votesAndReductions : Obligations.VotesAndReductions := by
  intro s c d a o excl x red
  refine ⟨?any, ?all, ?uni, ?ballot, ?lred, ?lscan⟩
  case any =>
    intro h
    refine completes_result h rfl ?_
    simp only [← toNat_any, ← bne_iff_ne]
    rfl
  case all =>
    intro h
    refine completes_result h rfl ?_
    simp only [← toNat_all, ← bne_iff_ne]
    rfl
  case uni =>
    intro h
    refine completes_result h rfl ?_
    simp only [vote]
    split
    next hl => simp [hl]
    next l0 ls hl => 
      simp only [hl, toNat_all, ← uniform_iff]
      rfl
  case ballot =>
    intro h
    exact ⟨_, completes_result h rfl rfl, fun l hl => getLsbD_laneBits_lanesOf c.active _ hl⟩
  case lred => exact fun h => completes_drawn h rfl rfl
  case lscan => exact fun h => completes_drawn h rfl rfl

/-! ### QPACK of a format that is no code of its own -/

/-- Terrace 1 of one split in TYPE f32, about to issue an instruction in all 32 lanes. -/
def packState : State := (State.reset.withFetchWord 64 0).updSplit 1 2 fun x => { x with mode := 0x100#16 }

/-- It packs the value 300 of every lane in the 32-bit integer format 0x31, which is wider than the eight bits of a code. -/
def packWide : Instr := .qpack (.v 0) (.imm 0x43960000) 0x31 none

/-- The context it issues in. -/
def packCtx : Ctx := (packState.issuer packWide).get (by decide +kernel)

theorem packWide_issues : packState.Issues packWide packCtx where
  issuer := (Option.some_get _).symm
  form := by decide +kernel
  operands := by decide +kernel
  home := by decide +kernel
  sound := rfl
  tidy := rfl

/-- The code of 300 runs over into the next code's bits: 300 + 300 * 2^8 + 300 * 2^16 + 300 * 2^24. -/
theorem packWide_result {t : State} {u : Terrace} (ht : exec packWide packState = .next t) (hu : t.ter? 1 = some u) :
    u.vget 0 0 = 0x2D2D2D2C#32 := by
  have hrun : (match exec packWide packState with
      | .next t => (t.ter? 1).map fun u => u.vget 0 0
      | _ => none) = some 0x2D2D2D2C#32 := by decide +kernel
  rw [ht] at hrun
  simpa [hu] using hrun

/-- The code the statement names for lane 1 is the low byte of 300. -/
theorem packWide_code : (if packCtx.active.getLsbD 1 then
    roundToSet (elemFmt 0x31) (modExp (modsWord none)) packCtx.rnd (packCtx.draw 1 0) (packCtx.sat || (modsWord none).sat)
      (packCtx.val (.imm 0x43960000) 1) % 2 ^ 8 else 0) = 0x2C := by decide +kernel

/-- Refutes O20: it takes QPACK of every format number, and the code of a format of R72 that QPACK has no code for, such as
    0x31, has more than the eight bits that the statement reads back. No word decodes to such an instruction
    (`fieldsOk`). -/
theorem not_conversionsAndGenerator : ¬ Obligations.ConversionsAndGenerator := by
  unfold Obligations.ConversionsAndGenerator Clause.Conversions
  intro ⟨hconv, _⟩
  obtain ⟨_, _, _, _, hpack, _⟩ := hconv packState packCtx (.v 0) (.imm 0x43960000) 0 0x31 none
  obtain ⟨r, ⟨t, ht, _, _, u, _, hu, _, hregs, _⟩, hcode⟩ := hpack packWide_issues
  have hlane : u.vget 0 0 = BitVec.ofNat 32 (r 0) := by
    have hv : u.vget 0 0 = (packCtx.put (.v 0) false r).vget 0 0 := by
      rw [Terrace.vget, Terrace.vget, (Terrace.regs_eq_iff.1 hregs).1]
    rw [hv, Ctx.put, Terrace.vget_writeDst_v _ _ _ _ _ (by decide), if_pos ⟨by decide +kernel, by simp [resWords]⟩]
    rfl
  have hbyte : r 0 / 2 ^ 8 % 2 ^ 8 = 0x2C := (hcode 0 1 (by decide)).trans packWide_code
  have hword : r 0 % 2 ^ 32 = 0x2D2D2D2C := by
    rw [← BitVec.toNat_ofNat, ← hlane, packWide_result ht hu]
    rfl
  omega

end Sys2Proof.Machine
end

section
/-! ## Running values of reductions -/

namespace Sys2Proof.Machine

/-- The running values of a fold, kept last first, are those of its scan. -/
theorem foldl_running {α : Type} (g : α → α → α) (xs acc : List α) (y : α) :
    (xs.foldl (fun (r : List α × α) x => (g r.2 x :: r.1, g r.2 x)) (y :: acc, y)).1.reverse
      = acc.reverse ++ xs.scanl g y := by
  induction xs generalizing acc y with
  | nil => simp
  | cons x xs ih => simp [List.scanl_cons, ih]

/-- The operation of an integer reduction (R113). -/
def intStep (op : Nat) (x y : Int) : Int := match op with | 0 => x + y | 1 => min x y | _ => max x y

def bitStep (op : Nat) (x y : Nat) : Nat := match op with | 3 => x &&& y | 4 => x ||| y | _ => x ^^^ y

theorem runInt_eq_scanl (op : Nat) (x0 : Int) (xs : List Int) : runInt op x0 xs = xs.scanl (intStep op) x0 :=
  foldl_running (intStep op) xs [] x0

theorem runBits_eq_scanl (op : Nat) (x0 : Nat) (xs : List Nat) : runBits op x0 xs = xs.scanl (bitStep op) x0 :=
  foldl_running (bitStep op) xs [] x0

section

variable {c : Ctx} {a : Src} {l0 k : Nat} {ls : List Nat}

/-- The k-th running value of an integer add, minimum or maximum. -/
theorem Ctx.running_int (hty : tyInt c.ty = true) (hl : c.lanes = l0 :: ls) (hk : k ≤ ls.length) {op : Nat} (hop : op < 3) :
    (c.running op a).getD k 0 = finishInt c.ty c.sat
      (((ls.take k).map fun l => intOf c.ty (c.srcTy c.ty a l)).foldl (intStep op) (intOf c.ty (c.srcTy c.ty a l0))) := by
  have hnot : ¬ 3 ≤ op := by omega
  simp [Ctx.running, hl, hnot, hty, runInt_eq_scanl, List.getD_eq_getElem?_getD, List.getElem?_scanl, hk, ← List.map_take]

/-- The k-th running value of an and, or or xor. -/
theorem Ctx.running_bits (hl : c.lanes = l0 :: ls) (hk : k ≤ ls.length) {op : Nat} (hop : 3 ≤ op) :
    (c.running op a).getD k 0 = ((ls.take k).map (c.srcTy c.ty a)).foldl (bitStep op) (c.srcTy c.ty a l0) := by
  simp [Ctx.running, hl, hop, runBits_eq_scanl, List.getD_eq_getElem?_getD, List.getElem?_scanl, hk, ← List.map_take]

end

/-- A fold that picks one of two values by an order ends in a bound of them all. -/
theorem foldl_pick {α : Type} {r : Int → Int → Prop} (hrefl : ∀ x, r x x) (htrans : ∀ x y z, r x y → r y z → r x z)
    {g : Int → Int → Int} (hg : ∀ x y, (g x y = x ∨ g x y = y) ∧ r (g x y) x ∧ r (g x y) y) (v : α → Int) (l0 : α)
    (ls : List α) : ∃ l ∈ l0 :: ls, (ls.map v).foldl g (v l0) = v l ∧ ∀ j ∈ l0 :: ls, r (v l) (v j) := by
  induction ls generalizing l0 with
  | nil => exact ⟨l0, by simp, rfl, by simpa using hrefl _⟩
  | cons l1 ls ih =>
    obtain ⟨hpick, h0, h1⟩ := hg (v l0) (v l1)
    -- the picked one of the first two bounds both
    obtain ⟨p, hp, hval⟩ : ∃ p ∈ [l0, l1], g (v l0) (v l1) = v p := by
      rcases hpick with h | h
      · exact ⟨l0, by simp, h⟩
      · exact ⟨l1, by simp, h⟩
    obtain ⟨l, hl, hfold, hbound⟩ := ih p
    have hlp : r (v l) (v p) := hbound p (by simp)
    rw [hval] at h0 h1
    refine ⟨l, ?_, by rw [List.map_cons, List.foldl_cons, hval, hfold], ?_⟩
    · rcases List.mem_cons.1 hl with rfl | h
      · exact List.mem_append_left ls hp
      · simp [h]
    · intro j hj
      simp only [List.mem_cons] at hj
      rcases hj with rfl | rfl | hj
      · exact htrans _ _ _ hlp h0
      · exact htrans _ _ _ hlp h1
      · exact hbound j (by simp [hj])

theorem testBit_foldl_and {α : Type} (x : α → Nat) (n y : Nat) (ls : List α) :
    ((ls.map x).foldl (bitStep 3) y).testBit n = (y.testBit n && ls.all fun l => (x l).testBit n) := by
  induction ls generalizing y with
  | nil => simp
  | cons l ls ih => simp [ih, bitStep, Bool.and_assoc]

theorem testBit_foldl_or {α : Type} (x : α → Nat) (n y : Nat) (ls : List α) :
    ((ls.map x).foldl (bitStep 4) y).testBit n = (y.testBit n || ls.any fun l => (x l).testBit n) := by
  induction ls generalizing y with
  | nil => simp
  | cons l ls ih => simp [ih, bitStep, Bool.or_assoc]

/-- One more element with the bit turns the parity over. -/
theorem odd_length_filter_cons {α : Type} (p : α → Bool) (l : α) (ls : List α) :
    decide (((l :: ls).filter p).length % 2 = 1) = (p l ^^ decide ((ls.filter p).length % 2 = 1)) := by
  cases hp : p l
  · simp [hp]
  · simp only [List.filter_cons, hp, if_true, List.length_cons, Bool.true_xor]
    rw [← decide_not, decide_eq_decide]
    omega

theorem testBit_foldl_xor {α : Type} (x : α → Nat) (n y : Nat) (ls : List α) :
    ((ls.map x).foldl (bitStep 5) y).testBit n
      = (y.testBit n ^^ decide ((ls.filter fun l => (x l).testBit n).length % 2 = 1)) := by
  induction ls generalizing y with
  | nil => simp
  | cons l ls ih =>
    rw [odd_length_filter_cons, List.map_cons, List.foldl_cons, ih]
    simp [bitStep]

/-- Settles O23. -/
theorem runningValues : Obligations.RunningValues := by
  intro c a k hty hk ls v x fin
  cases hl : c.lanes with
  | nil => rw [hl] at hk; exact absurd hk (by simp)
  | cons l0 rest =>
    have hk' : k ≤ rest.length := by rw [hl, List.length_cons] at hk; omega
    have hls : ls = l0 :: rest.take k := by simp only [ls, hl, List.take_succ_cons]
    rw [hls]
    refine ⟨?add, ?min, ?max, ?and, ?or, ?xor⟩
    case add =>
      rw [Ctx.running_int hty hl hk' (by decide), List.sum_eq_foldl, List.map_cons, List.foldl_cons, Int.zero_add]
      rfl
    case min =>
      obtain ⟨l, hmem, hval, hle⟩ := foldl_pick (r := (· ≤ ·)) Int.le_refl (fun _ _ _ => Int.le_trans) (g := intStep 1)
        (fun x y => ⟨by simp only [intStep]; omega, Int.min_le_left .., Int.min_le_right ..⟩) v l0 (rest.take k)
      exact ⟨l, hmem, (Ctx.running_int hty hl hk' (by decide)).trans (congrArg fin hval), hle⟩
    case max =>
      obtain ⟨l, hmem, hval, hge⟩ := foldl_pick (r := (· ≥ ·)) Int.le_refl (fun _ _ _ h1 h2 => Int.le_trans h2 h1)
        (g := intStep 2) (fun x y => ⟨by simp only [intStep]; omega, Int.le_max_left .., Int.le_max_right ..⟩) v l0 (rest.take k)
      exact ⟨l, hmem, (Ctx.running_int hty hl hk' (by decide)).trans (congrArg fin hval), hge⟩
    case and => exact fun n => by rw [Ctx.running_bits hl hk' (by decide), testBit_foldl_and, List.all_cons]
    case or => exact fun n => by rw [Ctx.running_bits hl hk' (by decide), testBit_foldl_or, List.any_cons]
    case xor => exact fun n => by rw [Ctx.running_bits hl hk' (by decide), testBit_foldl_xor, odd_length_filter_cons]

end Sys2Proof.Machine
end

section
/-! ## The mode word, and the instructions that only read -/

namespace Sys2Proof.Machine

section

variable {i : Instr} {s : State} {c : Ctx}

/-- An instruction whose effect is a write of its destination completes with it. -/
theorem completes_dst {d : Dst} {wide : Bool} {f : Nat → List Word} {vals : Option (Bool × List DWord)} (h : s.Issues i c)
    (hx : exec i s = .next (s.finish c (.done (s.updTer c.uid fun t => t.writeDst d wide c.active f) vals))) :
    Completes i s c (c.t.writeDst d wide c.active f) c.sp :=
  ⟨_, hx, State.passes_dst vals h d wide c.active f⟩

theorem gangGate_eq {body : State → Ctx → Res} (h : s.gated c.t = false) : gangGate body s c = body s c := by
  simp [gangGate, h]

/-- An issued instruction on an accumulator slot of its core, which is held, idle and unclaimed, goes on to its body. -/
theorem withSlots_one {n : Nat} {body : State → Ctx → Res} (h1 : s.slotHeld c.t n = true)
    (h2 : s.roundBusy (c.t.slot n) = false) (h3 : s.claimed c.t n = false) : withSlots [n] body s c = body s c :=
  withSlots_eq fun k hk => by
    obtain rfl := List.mem_singleton.1 hk
    exact ⟨h1, h2, h3⟩

end

/-- Settles O24. -/
theorem modeNopAndReads : Obligations.ModeNopAndReads := by
  intro s c d a w n v
  refine ⟨?mode, ?nop, ?sysrd, ?cntrd, ?mprog, ?macrd, ?gview, ?grank⟩
  case mode => exact fun h => ⟨_, issue_eq h, State.passes_split none h (fun x => { x with mode := w }) (fun _ => rfl) rfl rfl⟩
  case nop => exact fun h => ⟨_, issue_eq h, State.passes_none none h⟩
  case sysrd =>
    intro h hright
    have hok : (sysUser n || c.sp.supervisor) = true := by simpa only [Bool.or_eq_true] using hright
    refine completes_dst (vals := none) h ?_
    change execSysrd d n s = _
    rw [execSysrd, issueWith_eq h (by rw [hok]; rfl)]
    rfl
  case cntrd => exact fun h => completes_dst h (issue_eq h)
  case mprog =>
    intro h hheld
    refine completes_dst (vals := none) h ((issue_eq h).trans ?_)
    simp only [hheld]
    rfl
  case macrd =>
    intro h hheld hidle hfree hrow
    have hbound : ¬ 127 < c.uni a := by omega
    have hsound : (c.active != 0 && s.flaws.contains (.slot c.t.core n)) = false := by rw [h.sound]; simp
    refine completes_dst (vals := none) h ((issue_eq h).trans ?_)
    rw [withSlots_one hheld hidle hfree]
    simp only [hbound, hsound, if_false, Bool.false_eq_true]
  case gview =>
    intro h hfree
    refine completes_dst (vals := none) h ((issue_eq h).trans ?_)
    rw [gangGate_eq hfree]
  case grank =>
    intro h hfree
    refine completes_dst (vals := none) h ((issue_eq h).trans ?_)
    rw [gangGate_eq hfree]
    rfl

end Sys2Proof.Machine
end

section
/-! ## The end of a control transfer -/

namespace Sys2Proof.Machine

/-! ### What the end of an instruction leaves of a terrace's splits -/

/-- What the end of an instruction leaves of every split of its terrace. -/
def Split.seat (x : Split) : Nat × Bool × Option Frame := (x.sid, x.stopped, x.frame)

def State.seats (s : State) (uid : Nat) : Option (List (Nat × Bool × Option Frame)) :=
  (s.ter? uid).map fun t => t.splits.map Split.seat

theorem State.seats_updTer (s : State) (o u : Nat) (f : Terrace → Terrace) (hu : ∀ t, (f t).uid = t.uid)
    (hf : ∀ t, (f t).splits.map Split.seat = t.splits.map Split.seat) : (s.updTer o f).seats u = s.seats u := by
  unfold State.seats
  rw [State.ter?_updTer s o u f hu]
  split
  next h =>
    subst h
    rw [Option.map_map]
    congr 1
    funext t
    exact hf t
  next => rfl

theorem State.seats_updSplit (s : State) (o k u : Nat) (f : Split → Split) (hf : ∀ x, (f x).seat = x.seat) :
    (s.updSplit o k f).seats u = s.seats u := by
  refine s.seats_updTer o u _ (fun _ => rfl) fun t => ?_
  rw [List.map_map]
  refine List.map_congr_left fun x _ => ?_
  simp only [Function.comp]
  split
  · exact hf x
  · rfl

theorem State.seats_noteIssue (s : State) (c : Ctx) (u : Nat) : (s.noteIssue c).seats u = s.seats u := by
  unfold State.noteIssue
  split
  next => rfl
  next p _ =>
    have hlast : ∀ o : Option (Nat × Nat), State.seats (match o with
        | some o => if o = (c.uid, c.sid) then s else s.updSplit o.1 o.2 fun x => { x with window := [] }
        | none => s) u = s.seats u := by
      intro o
      cases o with
      | none => rfl
      | some o =>
        dsimp only
        split
        · rfl
        · exact s.seats_updSplit _ _ _ _ fun _ => rfl
    refine (State.seats_updSplit _ c.uid c.sid u (fun x => { x with waited := 0, hold := .none }) fun _ => rfl).trans ?_
    exact hlast (p.slotState.getD (c.t.ter / 16) SlotState.init).last

theorem State.seats_issued (s : State) (c : Ctx) (u : Nat) : (s.issued c).seats u = s.seats u := by
  unfold State.issued
  split
  · exact s.seats_updTer _ _ _ (fun _ => rfl) fun _ => rfl
  · rw [State.seats_noteIssue]
    unfold State.seats
    rw [State.ter?_countVf]

/-- After the end of an instruction whose terrace was `w` and whose split was `y`: but for what `State.apart` leaves out, the
    machine outside the terrace is as before; the split is the one that `Split.retire` makes. -/
structure Retires (s r : State) (c : Ctx) (w u : Terrace) (y x : Split) : Prop where
  apart : r.apart c.uid = s.apart c.uid
  issue : r.issue = s.issue.tail
  ter : r.ter? c.uid = some u
  split : u.split? c.sid = some x
  regs : u.regs = w.regs
  others : u.others = w.others
  seats : u.splits.map Split.seat = w.splits.map Split.seat
  rest : ∀ k, k ≠ c.sid → (u.split? k).map Split.bare = (w.split? k).map Split.bare
  pc : x.pc = c.nextPc
  mask : x.mask = y.after.getD y.mask
  status : x.status = y.status
  stopped : x.stopped = y.stopped
  hold : x.hold = .none
  after : x.after = none

/-- The end of an instruction on a machine that holds its terrace and its split. -/
theorem State.retires {s : State} {c : Ctx} {w : Terrace} {y : Split} (hp : (s.part? c.t.core c.t.vf).isSome = true)
    (hw : s.ter? c.uid = some w) (hy : w.split? c.sid = some y) : ∃ u x, Retires s (s.retire c none) c w u y x := by
  let pend : Terrace → Terrace := fun t => match latency c.i c.ty with
    | some n => t.setPending c.now (writesOf c.sp.mode c.i) (some (c.now + n)) 0
    | none => t
  have hpend : ∀ t, (pend t).uid = t.uid ∧ (pend t).regs = t.regs ∧ (pend t).others = t.others ∧ (pend t).splits = t.splits := by
    intro t
    simp only [pend]
    split <;> exact ⟨rfl, rfl, rfl, rfl⟩
  obtain ⟨_, hpr, hpo, hps⟩ := hpend w
  let mv : Split → Split := fun sp => sp.retire c none
  let s2 := s.updTer c.uid pend
  have h2 : s2.ter? c.uid = some (pend w) := State.ter?_updTer_same hw pend fun t => (hpend t).1
  have hy2 : (pend w).split? c.sid = some y := by rw [Terrace.split?, hps]; exact hy
  let s3 := s2.updSplit c.uid c.sid mv
  have h3 : s3.ter? c.uid = some ((pend w).mapSplit c.sid mv) := State.ter?_updSplit_same h2 mv
  have ha3 : s3.apart c.uid = s.apart c.uid :=
    (State.apart_updSplit_same ..).trans (State.apart_updTer s c.uid pend fun t => (hpend t).1)
  have hseat3 : s3.seats c.uid = s.seats c.uid :=
    (State.seats_updSplit s2 c.uid c.sid c.uid mv fun _ => rfl).trans
      (s.seats_updTer c.uid c.uid pend (fun t => (hpend t).1) fun t => by rw [(hpend t).2.2.2])
  have hp3 : (s3.part? c.t.core c.t.vf).isSome = true := hp
  obtain ⟨hapart, hissue, u, hu, hregs, hothers, hsplit, hrest⟩ := State.issued_spec h3 hp3
  have hseats : (s3.issued c).seats c.uid = s.seats c.uid := (s3.seats_issued c c.uid).trans hseat3
  have hsplit' := hsplit.trans (congrArg _ (Terrace.split?_mapSplit_same hy2 (f := mv) fun _ => rfl))
  refine ⟨u, _, hapart.trans ha3, congrArg List.tail hissue, hu, hsplit', hregs.trans hpr, hothers.trans hpo, ?_,
    fun k hk => ?_, ?_, ?_, ?_, ?_, ?_, ?_⟩
  · simpa only [State.seats, hu, hw, Option.map_some, Option.some.injEq] using hseats
  · rw [hrest k hk, Terrace.split?_mapSplit_other _ hk (f := mv) fun _ => rfl, Terrace.split?, hps]; rfl
  · split <;> rfl
  · split <;> (change (match y.after with | some m => m | none => y.mask) = _; cases y.after <;> rfl)
  all_goals split <;> rfl

section

variable {i : Instr} {body : State → Ctx → Res} {s s1 : State} {c : Ctx} {place : State → State}

/-- The answer of an instruction whose meaning places its split. -/
theorem exec_jump (h : s.Issues i c) (hx : exec i s = issue i body s) (hb : body s c = .jump s1 place) (hf : s1.flaws = []) :
    exec i s = .next (commit s (place (s1.retire c none))) := by
  have hn : s1.noted s = s1 := State.noted_of_flaws (hf.trans h.sound.symm)
  have hh : s1.healRegs c = s1 := by
    unfold State.healRegs
    rw [hf]; rfl
  rw [hx, issue_eq h, hb]
  simp only [State.finish, hn, hh]

/-- A transfer with no effect of its own: its split's end, to which `place` is applied. -/
theorem State.Issues.retires (h : s.Issues i c) : ∃ u x, Retires s (s.retire c none) c c.t u c.sp x :=
  let ⟨_, ht, hsp, _⟩ := s.issuer_spec h.issuer
  State.retires h.home ht hsp

/-- What a step leaves as it was apart from its terrace, where it wrote no byte. -/
theorem State.apart_commit_same {r : State} {u : Nat} (h : r.apart u = s.apart u) (hw : s.wbuf = []) :
    (commit s r).apart u = s.apart u := by
  have hrw : r.wbuf = [] := (congrArg State.wbuf h).trans hw
  rw [State.apart_commit, h, hrw]
  change { s.apart u with mem := (s.apart u).mem, wbuf := [] } = _
  rw [← hw]; rfl

end

end Sys2Proof.Machine
end

section
/-! ## Transfers whose lanes go together, and transfers that divide their split -/

namespace Sys2Proof.Machine

/-! ### Groups of lanes -/

theorem maskOf_lanesOf (m : Lanes) : maskOf (lanesOf m) = m := by
  apply BitVec.eq_of_getLsbD_eq
  intro l hl
  rw [getLsbD_maskOf _ hl, Bool.eq_iff_iff]
  simp [mem_lanesOf, hl]

theorem lanesOf_ne_nil {m : Lanes} (h : m ≠ 0) : lanesOf m ≠ [] := by
  intro hnil
  apply h
  rw [← maskOf_lanesOf m, hnil]
  rfl

theorem and_not_self_zero (m : Lanes) : m &&& ~~~m = 0 := by
  ext i hi
  simp

/-- The lanes of a transfer all go to one address. -/
theorem dropEmpty_one {g : Lanes × DWord} {pc : DWord} (h : g.1 ≠ 0) : dropEmpty [g, (0, pc)] = [g] := by
  have h1 : (g.1 != 0) = true := by simpa using h
  simp only [dropEmpty, List.filter_cons, h1]
  rfl

theorem eraseDups_const {x : Nat} : ∀ {l : List Nat}, l ≠ [] → (∀ y ∈ l, y = x) → l.eraseDups = [x]
  | [], h, _ => absurd rfl h
  | y :: ys, _, h => by
    have hy : y = x := h y (List.mem_cons_self ..)
    subst hy
    rw [List.eraseDups_cons, List.filter_eq_nil_iff.2 fun z hz => by simp [h z (List.mem_cons_of_mem _ hz)]]
    rfl

/-- Lanes that all hold one target make one group. -/
theorem targetGroups_const {m : Lanes} {tgt : Nat → Nat} {x : Nat} (hm : m ≠ 0) (h : ∀ l ∈ lanesOf m, tgt l = x) :
    targetGroups (lanesOf m) tgt = [(m, BitVec.ofNat 64 x)] := by
  have htargets : ((lanesOf m).map tgt).eraseDups = [x] :=
    eraseDups_const (by simpa using lanesOf_ne_nil hm) fun y hy => by
      obtain ⟨l, hl, rfl⟩ := List.mem_map.1 hy
      exact h l hl
  have hall : (lanesOf m).filter (fun l => tgt l == x) = lanesOf m :=
    List.filter_eq_self.2 fun l hl => beq_iff_eq.2 (h l hl)
  simp [targetGroups, htargets, hall, maskOf_lanesOf]

section

variable {i : Instr} {body : State → Ctx → Res} {s s1 r : State} {c : Ctx} {w u : Terrace} {y x : Split}
  {gs : List (Lanes × DWord)} {g : Lanes × DWord}

/-! ### A split that goes on as one group -/

/-- A branch whose lanes form one group does not overflow the stack. -/
theorem branch_one (hg : dropEmpty gs = [g]) : branch s s1 c gs = .jump s1 fun s => s.diverge c.uid c.sid [g] := by
  simp [branch, hg, divergeOverflow]

theorem Retires.ter_uid (hr : Retires s r c w u y x) : u.uid = c.uid := State.ter?_uid hr.ter

theorem Retires.sid (hr : Retires s r c w u y x) : x.sid = c.sid := Terrace.split?_sid hr.split

theorem Retires.diverge_one (hr : Retires s r c w u y x) :
    r.diverge c.uid c.sid [g] = r.setTer (u.setSplit { x with pc := g.2, mask := g.1 }) := by
  simp only [State.diverge, hr.ter, hr.split]

/-- A terrace in the place of the one with its number. -/
def Terrace.instead (t u : Terrace) : Terrace := if u.uid = t.uid then t else u

theorem Terrace.instead_uid (t u : Terrace) : (t.instead u).uid = u.uid := by
  unfold Terrace.instead
  split
  next h => exact h.symm
  next => rfl

theorem State.setTer_eq (s : State) (t : Terrace) : s.setTer t = s.updTer t.uid t.instead := by
  simp only [State.setTer, State.updTer]
  congr 1
  refine List.map_congr_left fun u _ => ?_
  by_cases h : u.uid = t.uid <;> simp [Terrace.instead, h]

theorem State.apart_setTer (s : State) (t : Terrace) {n : Nat} (h : t.uid = n) : (s.setTer t).apart n = s.apart n := by
  subst h
  rw [State.setTer_eq]
  exact State.apart_updTer s t.uid t.instead t.instead_uid

theorem State.ter?_setTer {t t0 : Terrace} {n : Nat} (h : s.ter? n = some t0) (ht : t.uid = n) :
    (s.setTer t).ter? n = some t := by
  have h0 := State.ter?_uid h
  subst ht
  rw [State.setTer_eq, State.ter?_updTer_same h t.instead t.instead_uid, Terrace.instead, if_pos h0]

/-- A split in the place of the one with its number. -/
def Split.instead (z y : Split) : Split := if y.sid = z.sid then z else y

theorem Split.instead_sid (z y : Split) : (z.instead y).sid = y.sid := by
  unfold Split.instead
  split
  next h => exact h.symm
  next => rfl

theorem Terrace.setSplit_eq (t : Terrace) (z : Split) : t.setSplit z = t.mapSplit z.sid z.instead := by
  simp only [Terrace.setSplit, Terrace.mapSplit]
  congr 1
  refine List.map_congr_left fun y _ => ?_
  by_cases hy : y.sid = z.sid <;> simp [Split.instead, hy]

theorem Terrace.split?_setSplit_same {z : Split} {k : Nat} (h : u.split? k = some x) (hz : z.sid = k) :
    (u.setSplit z).split? k = some z := by
  have hx := Terrace.split?_sid h
  subst hz
  rw [Terrace.setSplit_eq, Terrace.split?_mapSplit_same h z.instead_sid, Split.instead, if_pos hx]

theorem Terrace.split?_setSplit_other {z : Split} {k : Nat} (h : k ≠ z.sid) : (u.setSplit z).split? k = u.split? k := by
  rw [Terrace.setSplit_eq, Terrace.split?_mapSplit_other u h z.instead_sid]

/-- A transfer whose lanes all go to one address leaves its split there. -/
theorem Retires.stands_one (hr : Retires s1 r c w u y x) (ha : s1.apart c.uid = s.apart c.uid) (hi : s1.issue = s.issue)
    (hq : s.wbuf = []) (hw : w.others = c.t.others) (hs : ∀ k, w.split? k = c.t.split? k) :
    Stands s (commit s (r.diverge c.uid c.sid [g])) c w y g.2 g.1 := by
  rw [hr.diverge_one]
  let z : Split := { x with pc := g.2, mask := g.1 }
  refine ⟨State.apart_commit_same ((State.apart_setTer r (u.setSplit z) hr.ter_uid).trans (hr.apart.trans ha)) hq,
    hr.issue.trans (by rw [hi]), u.setSplit z, z, State.ter?_setTer hr.ter hr.ter_uid,
    Terrace.split?_setSplit_same hr.split hr.sid, hr.regs, hr.others.trans hw, rfl, rfl, hr.hold, hr.status, fun k hk => ?_⟩
  rw [Terrace.split?_setSplit_other (z := z) (by rw [show z.sid = x.sid from rfl, hr.sid]; exact hk), hr.rest k hk, hs]

/-- An instruction with no effect of its own whose lanes all go to one address. -/
theorem answers_branch_one (h : s.Issues i c) (hx : exec i s = issue i body s)
    (hb : body s c = branch s s c gs) (hg : dropEmpty gs = [g]) :
    Answers (exec i s) fun t => Stands s t c c.t c.sp g.2 g.1 :=
  let ⟨_, _, hr⟩ := h.retires
  ⟨_, exec_jump h hx (hb.trans (branch_one hg)) h.sound, hr.stands_one rfl rfl h.tidy rfl fun _ => rfl⟩

end

/-! ### Both groups -/

theorem dropEmpty_two {g g' : Lanes × DWord} (h : g.1 ≠ 0) (h' : g'.1 ≠ 0) : dropEmpty [g, g'] = [g, g'] := by
  have hp : ∀ e : Lanes × DWord, e ∈ [g, g'] → (e.1 != 0) = true := by simpa using ⟨h, h'⟩
  exact List.filter_eq_self.2 hp

theorem dropEmpty_second {g : Lanes × DWord} {pc : DWord} (h : g.1 ≠ 0) : dropEmpty [(0, pc), g] = [g] := by
  have h1 : (g.1 != 0) = true := by simpa using h
  simp only [dropEmpty, List.filter_cons, h1]
  rfl

/-- A transfer of an instruction that writes a link before it. -/
theorem callTogether {s : State} {c : Ctx} {d : Dst} {off : Word} (h : s.Issues (.call d off) c) (hmask : c.sp.mask ≠ 0)
    (hall : c.active = c.sp.mask) : Answers (exec (.call d off) s) fun t =>
      Stands s t c (c.put d true fun _ => c.nextPc.toNat) c.sp (c.target off) c.sp.mask := by
  obtain ⟨_, ht, hsp, _⟩ := s.issuer_spec h.issuer
  let link : Terrace → Terrace := fun t => t.writeDst d true c.active fun _ => words2 c.nextPc.toNat
  have hlink : ∀ t, (link t).uid = t.uid := fun t => t.writeDst_uid d true c.active _
  have hsplits : ∀ k, (link c.t).split? k = c.t.split? k := fun k => by
    rw [Terrace.split?, Terrace.writeDst_splits]; rfl
  obtain ⟨u, x, hr⟩ := State.retires (s := s.updTer c.uid link) (c := c) (w := link c.t) (y := c.sp) h.home
    (State.ter?_updTer_same ht link hlink) ((hsplits _).trans hsp)
  have hg : dropEmpty [(c.active, c.target off), (c.sp.mask &&& ~~~c.active, c.nextPc)] = [(c.sp.mask, c.target off)] := by
    rw [hall, and_not_self_zero]; exact dropEmpty_one hmask
  refine ⟨_, exec_jump (s1 := s.updTer c.uid link) h rfl (branch_one hg) h.sound, ?_⟩
  exact hr.stands_one (State.apart_updTer s c.uid link hlink) rfl h.tidy (c.t.writeDst_others d true c.active _) hsplits

/-- JMPR and RET of lanes that all hold one aligned target. -/
theorem jumpTogether {i : Instr} {s : State} {c : Ctx} {a : Src} {x : Nat} (h : s.Issues i c) (hx : exec i s = issue i (jumpTo a) s)
    (hmask : c.sp.mask ≠ 0) (hall : c.active = c.sp.mask) (halign : x % 4 = 0) (htgt : ∀ l ∈ c.lanes, c.src64 a l = x) :
    Answers (exec i s) fun t => Stands s t c c.t c.sp (BitVec.ofNat 64 x) c.sp.mask := by
  have hactive : c.active ≠ 0 := hall ▸ hmask
  have haligned : (c.lanes.find? fun l => c.src64 a l % 4 != 0) = none :=
    List.find?_eq_none.2 fun l hl => by simp [htgt l hl, halign]
  have hgroups : targetGroups c.lanes (fun l => c.src64 a l) = [(c.active, BitVec.ofNat 64 x)] := targetGroups_const hactive htgt
  have hbody : jumpTo a s c = branch s s c [(c.active, BitVec.ofNat 64 x), (c.sp.mask &&& ~~~c.active, c.nextPc)] := by
    simp only [jumpTo, haligned, hgroups]; rfl
  refine answers_branch_one (g := (c.sp.mask, BitVec.ofNat 64 x)) h hx hbody ?_
  rw [hall, and_not_self_zero]; exact dropEmpty_one hmask

/-- Settles O25. -/
theorem branchesTogether : Obligations.BranchesTogether := by
  intro s c d a off p neg x aim pr taken go hmask
  refine ⟨fun h hall => ?bra, fun h htaken => ?taken, fun h hnone => ?untaken, fun h hall => ?call, fun h hall halign htgt => ?jmpr,
    fun h hall halign htgt => ?ret⟩
  case bra =>
    refine answers_branch_one (g := (c.sp.mask, aim)) h rfl rfl ?_
    rw [hall, and_not_self_zero]; exact dropEmpty_one hmask
  case taken =>
    refine answers_branch_one (g := (c.sp.mask, aim)) h rfl rfl ?_
    change dropEmpty [(taken, aim), (c.sp.mask &&& ~~~taken, c.nextPc)] = _
    rw [htaken, and_not_self_zero]; exact dropEmpty_one hmask
  case untaken =>
    refine answers_branch_one (g := (c.sp.mask, c.nextPc)) h rfl rfl ?_
    change dropEmpty [(taken, aim), (c.sp.mask &&& ~~~taken, c.nextPc)] = _
    have hrest : c.sp.mask &&& ~~~taken = c.sp.mask := by rw [hnone]; exact BitVec.and_allOnes
    rw [hrest, hnone]; exact dropEmpty_second hmask
  case call => exact callTogether h hmask hall
  case jmpr => exact jumpTogether h rfl hmask hall halign htgt
  case ret => exact jumpTogether h rfl hmask hall halign htgt

end Sys2Proof.Machine
end

section
/-! ## Transfers that divide their split -/

namespace Sys2Proof.Machine

/-- A branch with two groups of lanes, where no stack would exceed eight entries. -/
theorem branch_two {s s1 : State} {c : Ctx} {gs : List (Lanes × DWord)} {g g' : Lanes × DWord} (hg : dropEmpty gs = [g, g'])
    (ho : divergeOverflow c.t c.sp [g, g'] = false) :
    branch s s1 c gs = .jump s1 fun s => s.diverge c.uid c.sid [g, g'] := by
  simp [branch, hg, ho]

/-- The split that the second group of a division becomes. -/
def Split.divided (x : Split) (sid : Nat) (g : Lanes × DWord) : Split :=
  { x.atGroup sid g [] with
    tcause := if x.frame.isSome then x.tcause else 0
    taddr := if x.frame.isSome then x.taddr else 0
    waited := 0, hold := .none, held := none, read := none, kept := none, gets := [], list := none, stopping := false }

section

variable {s r : State} {c : Ctx} {w u : Terrace} {y x : Split} {g g' : Lanes × DWord}

theorem Retires.length (hr : Retires s r c w u y x) : u.splits.length = w.splits.length := by
  simpa using congrArg List.length hr.seats

theorem Retires.fresh (hr : Retires s r c w u y x) : r.fresh = s.fresh := by
  change (r.apart c.uid).fresh = (s.apart c.uid).fresh
  rw [hr.apart]

/-- The terrace of a division that has room for one split more. -/
def Terrace.withDivided (u : Terrace) (x z : Split) : Terrace := { u.setSplit x with splits := (u.setSplit x).splits ++ [z] }

theorem Retires.diverge_new (hr : Retires s r c w u y x) (hn : w.splits.length ≤ 3) :
    r.diverge c.uid c.sid [g, g'] =
      { r.setTer (u.withDivided (x.atGroup c.sid g x.stack) (x.divided r.fresh g')) with fresh := r.fresh + 1 } := by
  have hroom : u.splits.length - 1 + [g, g'].length ≤ 4 := by rw [hr.length]; simp; omega
  simp only [State.diverge, hr.ter, hr.split, hroom, if_true]
  rfl

theorem Retires.diverge_push (hr : Retires s r c w u y x) (hn : 4 ≤ w.splits.length) :
    r.diverge c.uid c.sid [g, g'] =
      r.setTer (u.setSplit (x.atGroup c.sid g (⟨false, g'.2, g'.1, x.mode, x.rk, x.rc⟩ :: x.stack))) := by
  have hfull : ¬ u.splits.length - 1 + [g, g'].length ≤ 4 := by rw [hr.length]; simp; omega
  simp only [State.diverge, hr.ter, hr.split, hfull, if_false]
  rfl

end

/-- Settles O26. -/
theorem branchDivides : Obligations.BranchDivides := by
  intro s c off p neg i aim pr taken rest depth h htaken hrest
  obtain ⟨_, hter, hsp, _⟩ := s.issuer_spec h.issuer
  obtain ⟨u, x, hr⟩ := h.retires
  have hg : dropEmpty [(taken, aim), (rest, c.nextPc)] = [(taken, aim), (rest, c.nextPc)] := dropEmpty_two htaken hrest
  have hstatus := hr.status
  simp only [Split.status, Prod.mk.injEq] at hstatus
  obtain ⟨hmode, hrk, hrc, hstack, _⟩ := hstatus
  refine ⟨fun hn hnew => ?divides, fun hn hdepth => ?pushes, fun hn hdepth => ?traps⟩
  case divides =>
    have hfits : divergeOverflow c.t c.sp [(taken, aim), (rest, c.nextPc)] = false := by
      simp [divergeOverflow]; omega
    have hfresh : (s.retire c none).fresh = s.fresh := hr.fresh
    have hne : s.fresh ≠ c.sid := fun e => by rw [e, hsp] at hnew; exact absurd hnew (by simp)
    have hnone : u.split? s.fresh = none := by simpa [hnew] using hr.rest s.fresh hne
    have hx := exec_jump h rfl (branch_two hg hfits) h.sound
    let z : Split := x.atGroup c.sid (taken, aim) x.stack
    have hz : (u.setSplit z).split? c.sid = some z := Terrace.split?_setSplit_same hr.split rfl
    rw [hr.diverge_new hn, hfresh] at hx
    refine ⟨_, hx, u.withDivided z (x.divided s.fresh (rest, c.nextPc)), z, x.divided s.fresh (rest, c.nextPc),
      State.ter?_setTer hr.ter hr.ter_uid, ?_, ?_, rfl, rfl, rfl, rfl, rfl, hstack, ?_, ?_, hr.regs, ?_⟩
    · rw [Terrace.split?, Terrace.withDivided, List.find?_append]
      exact congrArg (Option.or · _) hz
    · have hgone : (u.setSplit z).split? s.fresh = none := by rw [Terrace.split?_setSplit_other hne, hnone]
      rw [Terrace.split?, Terrace.withDivided, List.find?_append]
      refine (congrArg (Option.or · _) hgone).trans ?_
      simp [Split.divided, Split.atGroup]
    · exact Prod.ext hmode (Prod.ext hrk hrc)
    · exact Prod.ext hmode (Prod.ext hrk hrc)
    · simp [Terrace.withDivided, Terrace.setSplit, hr.length]
  case pushes =>
    have hfits : divergeOverflow c.t c.sp [(taken, aim), (rest, c.nextPc)] = false := by
      have hheld : ¬ 8 < depth + (2 - 1) := by omega
      simp only [divergeOverflow, List.length_cons, List.length_nil, Nat.zero_add, Nat.reduceAdd]
      exact Bool.and_eq_false_iff.2 (.inr (decide_eq_false hheld))
    have hx := exec_jump h rfl (branch_two hg hfits) h.sound
    let z : Split := x.atGroup c.sid (taken, aim) (⟨false, c.nextPc, rest, x.mode, x.rk, x.rc⟩ :: x.stack)
    rw [hr.diverge_push hn] at hx
    refine ⟨_, hx, u.setSplit z, z, State.ter?_setTer hr.ter hr.ter_uid, Terrace.split?_setSplit_same hr.split rfl,
      rfl, rfl, ?_, hr.regs, ?_⟩
    · simp only [z, Split.atGroup, hmode, hrk, hrc, hstack]
    · simp [Terrace.setSplit, hr.length]
  case traps =>
    have hover : divergeOverflow c.t c.sp [(taken, aim), (rest, c.nextPc)] = true := by
      have hheld : 8 < depth + (2 - 1) := by omega
      have hroom : 4 < c.t.splits.length - 1 + 2 := by omega
      simp only [divergeOverflow, List.length_cons, List.length_nil, Nat.zero_add, Nat.reduceAdd, hroom]
      exact decide_eq_true hheld
    refine traps_of h rfl ⟨false, ?_⟩
    change branch s s c [(taken, aim), (rest, c.nextPc)] = _
    simp only [branch, hg, hover, if_true]
    rfl

end Sys2Proof.Machine
end

section
/-! ## Statements that take states no step leads to -/

namespace Sys2Proof.Machine

/-! ### Terrace 1, whose split 2 is about to issue -/

/-- The machine right after reset with a terrace of one split, of 32 lanes, chosen to issue; the terrace and its split changed. -/
def stage (f : Terrace → Terrace) (g : Split → Split) : State := ((State.reset.withFetchWord 64 0).updSplit 1 2 g).updTer 1 f

/-- What an issue needs, as far as a concrete state decides it. -/
def State.issuesOk (s : State) (i : Instr) : Bool :=
  match s.issuer i with
  | none => false
  | some c => issueFormOk i c.ty && operandsOk c.t c.sp i && (s.part? c.t.core c.t.vf).isSome && s.flaws.isEmpty && s.wbuf.isEmpty

theorem State.issues_of_ok {s : State} {i : Instr} (h : s.issuesOk i = true) : ∃ c, s.issuer i = some c ∧ s.Issues i c := by
  unfold State.issuesOk at h
  split at h
  next => cases h
  next c hc =>
    simp only [Bool.and_eq_true, List.isEmpty_iff] at h
    obtain ⟨⟨⟨⟨hform, hops⟩, hpart⟩, hflaws⟩, hbuf⟩ := h
    exact ⟨c, hc, ⟨hc, hform, hops, hpart, hflaws, hbuf⟩⟩

/-! ### NOP.merge of a split whose number another split of the terrace has too -/

/-- A frame of all lanes, number 7. -/
def twinFrame : Frame := ⟨7, 0, 0xFFFFFFFF#32, 0xFFFFFFFF#32, 0, 0, 0, 0, 0, 4, [], none, none⟩

/-- Split 2, with an entry of its stack that runs next, and a second split of that number in a handler. -/
def twinState : State :=
  stage (fun t => { t with splits := t.splits ++ [{ freshSplit 2 placedPc with frame := some twinFrame }] })
    fun x => { x with stack := [⟨false, 0, 1#32, 0, 0, 0⟩] }

/-- The entry's address is where the split should stand; the twin stands first, after the marker. -/
theorem twin_result : (match exec .nopMerge twinState with
    | .next t => ((t.ter? 1).bind fun u => u.split? 2).map Split.pc
    | _ => none) = some (placedPc + 4) := by decide +kernel

/-- Refutes O27: it takes terraces with two splits of one number. NOP.merge stops the second of them, its frame's only split,
    at once releases it, and puts it before the first. Split numbers are distinct in every state that a step leads to from
    reset. -/
theorem not_mergeAndExit : ¬ Obligations.MergeAndExit := by
  unfold Obligations.MergeAndExit Clause.MergeMarker
  intro ⟨hmerge, _⟩
  obtain ⟨c, hc, h⟩ := State.issues_of_ok (s := twinState) (i := .nopMerge) (by decide +kernel)
  have hctx : (twinState.issuer .nopMerge).map (fun c => (c.uid, c.sid, c.sp.after, c.sp.stack, c.t.splits.map Split.stopped))
      = some (1, 2, none, [⟨false, 0, 1#32, 0, 0, 0⟩], [false, false]) := rfl
  simp only [hc, Option.map_some, Option.some.injEq, Prod.mk.injEq] at hctx
  obtain ⟨huid, hsid, hafter, hstack, hstopped⟩ := hctx
  have hrunning : ∀ o ∈ c.t.splits, o.stopped = false := fun o ho => by
    have hmem : o.stopped ∈ c.t.splits.map Split.stopped := List.mem_map_of_mem ho
    rw [hstopped] at hmem
    simpa using hmem
  obtain ⟨t, ht, u, x, hu, hx, hpc, _⟩ := (hmerge twinState c h hafter).1 _ _ hstack rfl hrunning
  have hrun := twin_result
  rw [huid] at hu
  rw [hsid] at hx
  simp only [ht, hu, Option.bind_some, hx, Option.map_some, Option.some.injEq, hpc] at hrun
  exact absurd hrun (by decide)

/-! ### YIELD of a split that went on after a wait -/

/-- Split 2 has waited, and its partition keeps nothing of its issue slots. -/
def waitedState : State :=
  let s := stage id fun x => { x with read := some ⟨[], [], [], 0, [], [], 0xFFFFFFFF#32, 0⟩ }
  { s with parts := s.parts.map fun p => { p with slotState := [] } }

theorem waited_result : (match exec .yield waitedState with
    | .next t => (t.part? 0 0).map fun p => (p.slotState.getD 0 SlotState.init).yielded
    | _ => none) = some none := by decide +kernel

/-- Refutes O28: it takes a YIELD that goes on after a wait, which records no issue in its slot, in a partition that keeps
    nothing of its slots. YIELD never waits, and a partition keeps four slots from its beginning (`Part.fresh`). -/
theorem not_yieldAndSleep : ¬ Obligations.YieldAndSleep := by
  unfold Obligations.YieldAndSleep
  intro hall
  obtain ⟨c, hc, h⟩ := State.issues_of_ok (s := waitedState) (i := .yield) (by decide +kernel)
  have hctx : (waitedState.issuer .yield).map (fun c => (c.t.ter, c.t.core, c.t.vf)) = some (0, 0, 0) := by decide +kernel
  simp only [hc, Option.map_some, Option.some.injEq, Prod.mk.injEq] at hctx
  obtain ⟨hter, hcore, hvf⟩ := hctx
  obtain ⟨t, ht, _, hyield⟩ := (hall waitedState c .zero (by rw [hter]; decide)).1 h
  have hrun := waited_result
  rw [hter, hcore, hvf] at hyield
  rw [ht] at hrun
  obtain ⟨p, hp, hnone⟩ := Option.map_eq_some_iff.1 hrun
  exact absurd ((hyield p hp).symm.trans hnone) (by simp)

/-! ### A trap whose code is no cause -/

/-- A trap whose code does not fit in the eight bits of a cause. -/
def wideTrap : Trap := ⟨0x10000, 0, false, false, none, 0⟩

/-- Split 2 about to issue, with a handler of its tenant. -/
def handledState : State := (stage id id).setTenant 0 { (stage id id).tenant 0 with tvec := 0x2000#64 }

/-- Refutes O29: it takes a trap of every code, and one above 255 changes the sub-code that the cause word shows. Every cause
    of the model is below 256. -/
theorem not_trapEntryAndLog : ¬ Obligations.TrapEntryAndLog := by
  unfold Obligations.TrapEntryAndLog Clause.TrapEntry
  intro ⟨hentry, _⟩
  obtain ⟨c, hc, h⟩ := State.issues_of_ok (s := handledState) (i := .nop) (by decide +kernel)
  have hctx : (handledState.issuer .nop).map (fun c => (c.uid, c.sid, c.sp.frame, c.t.vf)) = some (1, 2, none, 0) := by
    decide +kernel
  have hrun : (handledState.issuer .nop).map (fun c => (((handledState.finish c (.trap handledState wideTrap true)).ter? 1).bind
      fun u => u.split? 2).bind fun x => x.frame.map fun f => f.cause.toNat / 2 ^ 16 % 256) = some (some 1) := by
    decide +kernel
  simp only [hc, Option.map_some, Option.some.injEq, Prod.mk.injEq] at hctx hrun
  obtain ⟨huid, hsid, hframe, hvf⟩ := hctx
  obtain ⟨u, x, f, hu, hx, hf, _, _, _, _, _, _, _, _, _, _, _, _, _, _, _, _, hsub, _⟩ :=
    hentry handledState .nop c wideTrap true h hframe (by rw [hvf]; decide +kernel)
  rw [huid] at hu
  rw [hsid] at hx
  simp only [hu, Option.bind_some, hx, hf, Option.map_some, Option.some.injEq] at hrun
  exact absurd (hrun.symm.trans hsub) (by decide)

end Sys2Proof.Machine
end

section
/-! ## TRAP and TRET -/

namespace Sys2Proof.Machine

theorem softwareTrap : Clause.SoftwareTrap := by
  intro s c n h
  refine ⟨fun ha => traps_of h rfl ⟨true, ?_⟩, fun ha => completes_of h rfl ⟨none, ?_⟩⟩
  · have hne : (c.active == 0) = false := by simpa using ha
    simp only [hne]
    rfl
  · simp only [ha]
    rfl

theorem trapReturnRefused : Clause.TrapReturnRefused := by
  intro s c h hwhy
  refine traps_of h rfl ⟨false, ?_⟩
  rcases hwhy with hnone | ⟨f, hf, hmask⟩
  · simp only [hnone]; rfl
  · have hne : (c.sp.mask != f.fmask) = true := by simpa using hmask
    simp only [hf, hne, if_true]; rfl

/-- A split that leaves its handler stands where its frame says, with the lanes of the frame's kind. -/
theorem Split.tretTo_lanes (x : Split) (f : Frame) (now : Nat) (ha : x.after = none) :
    ((x.tretTo f now).mask, (x.tretTo f now).after)
      = (if f.afterBit || f.chainBit || f.fmask == f.rmask then (f.rmask, none) else (f.fmask, some f.rmask)) := by
  unfold Split.tretTo
  by_cases hall : (f.afterBit || f.chainBit) = true
  · simp [hall, Split.leaveFrame, ha]
  · by_cases heq : f.fmask = f.rmask
    · simp [hall, heq, Split.leaveFrame, ha]
    · simp [hall, heq, Split.leaveFrame]

theorem Split.tretTo_status (x : Split) (f : Frame) (now : Nat) :
    (x.tretTo f now).sid = x.sid ∧ (x.tretTo f now).frame = none ∧ (x.tretTo f now).pc = f.rpc
      ∧ ((x.tretTo f now).mode, (x.tretTo f now).rk, (x.tretTo f now).rc, (x.tretTo f now).stack) = (f.rmode, f.rk, f.rc, f.stack)
      ∧ (x.tretTo f now).window = [] ∧ (x.tretTo f now).hold = .none := by
  unfold Split.tretTo
  split
  · exact ⟨rfl, rfl, rfl, rfl, rfl, rfl⟩
  · dsimp only
    split <;> exact ⟨rfl, rfl, rfl, rfl, rfl, rfl⟩

theorem trapReturn : Clause.TrapReturn := by
  intro s c f h hf hmask hrel hserv
  obtain ⟨u, x, hr⟩ := h.retires
  let g : Split → Split := fun x => x.tretTo f c.now
  have hx : exec .tret s = .next (commit s ((s.retire c none).updSplit c.uid c.sid g)) := by
    refine exec_jump (place := fun s => s.updSplit c.uid c.sid g) h rfl ?_ h.sound
    have heq : (c.sp.mask != f.fmask) = false := by simpa using hmask
    simp only [hf, heq, hrel, hserv]
    rfl
  obtain ⟨_, hframe, hpc, hstatus, hwindow, hhold⟩ := x.tretTo_status f c.now
  refine ⟨_, hx, State.apart_commit_same ((State.apart_updSplit_same ..).trans hr.apart) h.tidy, u.mapSplit c.sid g, g x,
    State.ter?_updSplit_same hr.ter g, Terrace.split?_mapSplit_same hr.split fun y => (y.tretTo_status f c.now).1, hr.regs,
    hframe, hpc, hstatus, hwindow, hhold, x.tretTo_lanes f c.now hr.after⟩

/-- Settles O30. -/
theorem softwareTrapAndReturn : Obligations.SoftwareTrapAndReturn := ⟨softwareTrap, trapReturn, trapReturnRefused⟩

/-! ## Rights, and the system registers -/

theorem issueWith_ownTrap {i : Instr} {own : State → Ctx → Option Trap} {body : State → Ctx → Res} {s : State} {c : Ctx} {tr : Trap}
    {o : Host.Outcome State Fault Refusal} (he : exec i s = o) (hx : o = issueWith i own body s) (hi : s.issuer i = some c) (hr : c.resumed = false)
    (hf : issueFormOk i c.ty = true) (ho : own s c = some tr) : Traps i s c s tr := by
  have hci := (s.issuer_spec hi).2.2.2.1
  refine ⟨false, he.trans (hx.trans ?_)⟩
  simp only [issueWith, hi, hr, hci, hf, ho]
  rfl

theorem Ctx.not_supervisor {c : Ctx} (h : c.sp.frame = none) : c.sp.supervisor = false := by
  rw [Split.supervisor, h]; rfl

theorem privilegeTraps : Clause.PrivilegeTraps := by
  intro s c i hi hr hf hwhy
  split at hwhy
  next d n =>
    obtain ⟨huser, hframe⟩ := hwhy
    refine issueWith_ownTrap (o := execSysrd d n s) rfl rfl hi hr hf (if_neg ?_)
    simp [huser, Ctx.not_supervisor hframe]
  next n a =>
    refine issueWith_ownTrap (o := execSyswr n a s) rfl rfl hi hr hf (if_neg ?_)
    rcases hwhy with h | h
    · simp [h]
    · simp [Ctx.not_supervisor h]
  next a =>
    refine issueWith_ownTrap (o := execSyXreqWrite a s) rfl rfl hi hr hf (if_neg ?_)
    simp [Ctx.not_supervisor hwhy]
  next a b =>
    refine issueWith_ownTrap (o := execShoot a b s) rfl rfl hi hr hf (if_neg ?_)
    simp [Ctx.not_supervisor hwhy]
  next d a b =>
    refine issueWith_ownTrap (o := execPart d a b s) rfl rfl hi hr hf (if_neg ?_)
    rcases hwhy with h | h
    · simp [Ctx.not_supervisor h]
    · have hmanager : s.manager c.t.vf = false := h
      simp [hmanager]
  next => exact hwhy.elim

/-- A listed key's value replaced. -/
theorem kget_map_same {α : Type} (d x : α) {l : List (Nat × α)} {k : Nat} (hk : k ∈ l.map (·.1)) :
    kget d (l.map fun e => if e.1 = k then (k, x) else e) k = x := by
  induction l with
  | nil => simp at hk
  | cons e l ih =>
    obtain ⟨key, y⟩ := e
    by_cases hkey : key = k
    · simp [kget, hkey]
    · have hrest : k ∈ l.map (·.1) := by simpa [Ne.symm hkey] using hk
      simp [kget, hkey, ih hrest]

theorem kget_map_other {α : Type} (d x : α) (l : List (Nat × α)) {k v : Nat} (hv : v ≠ k) :
    kget d (l.map fun e => if e.1 = k then (k, x) else e) v = kget d l v := by
  induction l with
  | nil => rfl
  | cons e l ih =>
    obtain ⟨key, y⟩ := e
    by_cases hkey : key = k
    · simp [kget, hkey, Ne.symm hv, ih]
    · simp [kget, hkey, ih]

/-- Settles O31. -/
theorem privilegeAndSystemWrites : Obligations.PrivilegeAndSystemWrites := by
  refine ⟨privilegeTraps, fun s c n a l h hw hf hl hmem => ?_⟩
  let s1 := s.setTenant c.t.vf ((s.tenant c.t.vf).write n (BitVec.ofNat 64 (c.src64 a l)))
  have hx : exec (.syswr n a) s = .next (s.finish c (.done s1 none)) := by
    have hactive : (c.active == 0) = false := by
      rw [beq_eq_false_iff_ne]
      intro hz
      have hnone : lowLane c.active = none := by rw [hz]; rfl
      exact absurd (hnone.symm.trans hl) (by simp)
    have hright : (sysWritable n && c.sp.supervisor) = true := by simp [hw, Split.supervisor, hf]
    change execSyswr n a s = _
    rw [execSyswr, issueWith_eq h (by rw [hright]; rfl)]
    simp only [hactive, hl]
    rfl
  refine ⟨⟨none, hx⟩, _, hx, ?_⟩
  obtain ⟨_, hter, hsp, _⟩ := s.issuer_spec h.issuer
  obtain ⟨hapart, _⟩ := State.finish_done (s := s) (s0 := s1) (s1 := s1) none (State.noted_sound h.sound) h.sound h.home hter hsp
  have htenants : (s.finish c (.done s1 none)).tenants = s1.tenants := by
    change ((s.finish c (.done s1 none)).apart c.uid).tenants = _
    rw [hapart]; rfl
  have hread : ∀ v, (s.finish c (.done s1 none)).tenant v = s1.tenant v := fun v => by rw [State.tenant, htenants]; rfl
  refine ⟨?_, fun v hv => ?_⟩
  · exact (hread _).trans (kget_map_same _ _ hmem)
  · exact (hread v).trans (kget_map_other _ _ _ hv)

end Sys2Proof.Machine
end

section
/-! ## How memory instructions begin -/

namespace Sys2Proof.Machine

section

variable {i : Instr} {s : State} {c : Ctx} {f : MemForm}

theorem inScope_eq {ea : Ctx → Nat → Nat} {body : State → Ctx → Res} (h : s.scopeFree c c.scope) :
    inScope ea body s c = body s c := by
  obtain ⟨hsys, hgang⟩ := h
  have h7 : (c.scope == 7 && !s.sysScope c.t.vf) = false := sysScope_free hsys
  have h5 : (c.scope == 5 && s.gated c.t) = false := gangScope_free hgang
  have htrap : c.scopeTrap s (ea c) = none := by simp [Ctx.scopeTrap, h7]
  simp only [inScope, htrap, h5]
  rfl

/-- A memory instruction that may begin begins in its lanes. -/
theorem exec_memForm (h : s.Issues i c) (hi : c.memForm i = some f) (hb : s.mayBegin c i) :
    exec i s = .next (s.finish c (memOp f.kind f.dst f.lanes c.active f.len f.ea f.data f.cmp s c)) := by
  unfold Ctx.memForm at hi
  split at hi
  case h_21 => cases hi
  all_goals cases hi
  case h_17 d a dbl off =>
    obtain ⟨hscope, hundel, hrel⟩ := hb
    refine (issue_eq h).trans ?_
    rw [inScope_eq hscope]
    simp [hundel, hrel]
  case h_18 => exact (issue_eq h).trans (by rw [inScope_eq hb])
  case h_19 => exact (issue_eq h).trans (by rw [inScope_eq hb])
  case h_20 => exact (issue_eq h).trans (by rw [inScope_eq hb])
  all_goals exact issue_eq h

/-- Its lanes all begin. -/
theorem MemForm.op_runs {l : Nat} {r : List Nat} (hl : f.lanes = l :: r) (hb : s.ownRegBusy c f.lanes f.ea f.len = false)
    (hstay : (f.run s c).stay = false) (hfaults : (f.run s c).faults = []) (hroom : c.t.inFlight (f.path (f.run s c) l) < 255) :
    memOp f.kind f.dst f.lanes c.active f.len f.ea f.data f.cmp s c =
      if f.kind.holds (f.run s c).reqs (f.run s c).out = true
      then .hold (f.opened (f.run s c) c l true []) (.access (f.sent (f.run s c) c).1.fresh)
      else .done (f.opened (f.run s c) c l true []) none :=
  memOp_runs hl hb hstay hfaults hroom

theorem memoryInstructionsIssue : Clause.MemoryInstructionsIssue := by
  intro i s c f l r h hi hl hb hbusy x hstay hfaults hroom
  have hx := exec_memForm h hi hb
  rw [MemForm.op_runs hl hbusy hstay hfaults hroom] at hx
  split
  next hh => rw [if_pos hh] at hx; exact hx
  next hh => rw [if_neg hh] at hx; exact ⟨none, hx⟩

theorem memoryInstructionsIdle : Clause.MemoryInstructionsIdle := by
  intro i s c f h hi hl hb
  have hx := exec_memForm h hi hb
  rw [hl, memOp_idle] at hx
  exact ⟨_, hx, State.passes_none none h⟩

/-- Settles O32. -/
theorem memoryInstructions : Obligations.MemoryInstructions := ⟨memoryInstructionsIssue, memoryInstructionsIdle⟩

/-! ### Lanes that fault -/

theorem lane_misaligned {k : AccKind} {seen : Seen} {l ea len data cmp : Nat} (h : ea % len ≠ 0) :
    s.lane c k seen l ea len data cmp = (s, .fault 0x14) := by
  have hne : (ea % len != 0) = true := by simpa using h
  simp [State.lane, hne]

theorem lane_outside {k : AccKind} {seen : Seen} {l ea len data cmp : Nat} (h : ea % len = 0) (hk : k.block = false)
    (hg : isGlobal ea = false) (hc : s.chipAt c.t l ea len = none) :
    s.lane c k seen l ea len data cmp = (s, .fault 0x11) := by
  simp [State.lane, h, hk, hg, hc]
  rfl

/-- The lanes that go on are those whose number is among no fault's. -/
theorem find?_contains (lanes : List Nat) (fs : List (Nat × Nat × Nat)) :
    (lanes.find? fun l => !fs.any fun f => f.1 == l) = lanes.find? fun l => !(fs.map (·.1)).contains l := by
  congr 1
  funext l
  rw [List.contains_eq_any_beq, List.any_map]
  congr 2
  funext f
  exact Bool.beq_comm ..

/-- Some of its lanes fault, and it is no RED: its access is that of the others, and then it traps, or holds its split until
    they have been answered. -/
theorem MemForm.op_faults {e : Nat × Nat × Nat} {r : List (Nat × Nat × Nat)} (hbusy : s.ownRegBusy c f.lanes f.ea f.len = false)
    (hstay : (f.run s c).stay = false) (hfaults : (f.run s c).faults = e :: r) (hred : ∀ op, f.kind ≠ .red op) :
    memOp f.kind f.dst f.lanes c.active f.len f.ea f.data f.cmp s c =
      (let x := f.run s c
       let holds := f.kind.holds x.reqs x.out
       let first := f.lanes.find? fun l => !(x.faults.map (·.1)).contains l
       let s2 := match first with
         | none => x.s
         | some l => f.opened x c l false (if holds then x.faults else [])
       if holds then .hold s2 (.access (f.sent x c).1.fresh)
       else .trap (s2.logLanes c.t c.pc.toNat r) ⟨e.2.1, 0, false, false, some (maskOf (x.faults.map (·.1))), e.2.2⟩ first.isSome) := by
  have hlanes : f.lanes.isEmpty = false := by
    cases hl : f.lanes with
    | nil => simp [MemForm.run, hl] at hfaults
    | cons => rfl
  unfold memOp
  rw [if_neg (by simp [hlanes]), if_neg (by simp [hbusy])]
  change (if (f.run s c).stay = true then _ else _) = _
  rw [hstay, if_neg Bool.false_ne_true]
  have hall : ∀ l : List (Nat × Nat × Nat), l.filter (fun _ => true) = l := fun l => List.filter_eq_self.2 fun _ _ => rfl
  have hnone : ∀ l : List (Nat × Nat × Nat), l.filter (fun _ => false) = [] := fun l =>
    List.filter_eq_nil_iff.2 fun _ _ => Bool.false_ne_true
  simp only [Bool.false_and, Bool.not_false, hall, hnone, find?_contains]
  rw [show (f.lanes.foldl (fun (x : Lanes32) l => x.add l (f.ea l) (x.s.lane c f.kind x.seen l (f.ea l) f.len (f.data l) (f.cmp l)))
      ⟨s, [], [], [], [], [], false⟩) = f.run s c from rfl]
  simp only [hfaults, List.isEmpty_cons, Bool.false_and, Bool.false_eq_true, if_false]
  cases f.lanes.find? fun l => !((e :: r).map (·.1)).contains l with
  | none => rfl
  | some l => rfl

/-- Settles O33. -/
theorem accessFaults : Obligations.AccessFaults := by
  intro i s c f
  refine ⟨fun l hl => lane_misaligned hl, fun l ha hk hg hc => lane_outside ha hk hg hc, ?_⟩
  intro h hi hb hbusy x e r hstay hfaults hred whole tr first
  have hx := exec_memForm h hi hb
  rw [MemForm.op_faults hbusy hstay hfaults hred] at hx
  refine ⟨fun hnone hh => ⟨false, hx.trans ?_⟩, fun l hsome hh => ⟨true, hx.trans ?_⟩, fun l hsome hh => hx.trans ?_⟩
  all_goals
    have hfirst : (f.lanes.find? fun l => !((f.run s c).faults.map (·.1)).contains l) = first := rfl
    simp only [hfirst]
  · simp only [show f.kind.holds (f.run s c).reqs (f.run s c).out = false from hh, hnone]
    rfl
  · simp only [show f.kind.holds (f.run s c).reqs (f.run s c).out = false from hh, hsome]
    rfl
  · simp only [show f.kind.holds (f.run s c).reqs (f.run s c).out = true from hh, hsome]
    rfl

end

end Sys2Proof.Machine
end

section
/-! ## Blocks, LDA and prefetches -/

namespace Sys2Proof.Machine

section

variable {i : Instr} {s : State} {c : Ctx} {f : MemForm} {fin : State → State} {body : State → Ctx → Res}

/-- What the lanes of a memory form come to. -/
def MemForm.op (f : MemForm) (s : State) (c : Ctx) : Res := memOp f.kind f.dst f.lanes c.active f.len f.ea f.data f.cmp s c

/-- An instruction that goes on as its access does, with an effect of its own where it completes at once. -/
theorem begins_of {l : Nat} {r : List Nat} (h : s.Issues i c) (hx : exec i s = issue i body s) (hl : f.lanes = l :: r)
    (hhold : ∀ s2 k, f.op s c = .hold s2 k → body s c = .hold s2 k)
    (hdone : ∀ s2 v, f.op s c = .done s2 v → body s c = .done (fin s2) v)
    (hbusy : s.ownRegBusy c f.lanes f.ea f.len = false) (hstay : (f.run s c).stay = false) (hfaults : (f.run s c).faults = [])
    (hroom : c.t.inFlight (f.path (f.run s c) l) < 255) :
    if f.kind.holds (f.run s c).reqs (f.run s c).out = true
    then Holds i s c (f.opened (f.run s c) c l true []) (.access (f.sent (f.run s c) c).1.fresh)
    else Ends i s c (fin (f.opened (f.run s c) c l true [])) := by
  have hop := MemForm.op_runs hl hbusy hstay hfaults hroom
  split
  next hh => exact holds_of h hx (hhold _ _ (hop.trans (if_pos hh)))
  next hh => exact ends_of h hx ⟨none, hdone _ _ (hop.trans (if_neg hh))⟩

end

theorem lowLane_ne_zero {m : Lanes} {l : Nat} (h : lowLane m = some l) : m ≠ 0 := by
  rintro rfl
  exact absurd (show lowLane 0 = none from rfl) (by rw [h]; simp)

/-- Settles O38. -/
theorem blocksAndPrefetches : Obligations.BlocksAndPrefetches := by
  intro s c d x a b off dbl level l hl begins
  have hactive : (c.active == 0) = false := beq_eq_false_iff_ne.2 (lowLane_ne_zero hl)
  refine ⟨fun h hwhole => ?ldf, fun h hwhole hcontrol => ?stf, fun h hscope => ?lda, fun h => ?pref⟩
  case ldf =>
    intro hbusy y hstay hfaults hroom
    refine begins_of (fin := fun s2 => c.advance s2 c.srMode) (r := []) h rfl rfl (fun s2 k hm => ?_) (fun s2 v hm => ?_) hbusy hstay hfaults hroom
    all_goals
      change memOp .ldf d [l] c.active 64 (c.addr a b) (fun _ => 0) (fun _ => 0) s c = _ at hm
      simp only [hwhole, hl, Option.toList_some, hm]
      rfl
  case stf =>
    intro hbusy y hstay hfaults hroom
    refine begins_of (fin := fun s2 => c.advance s2 c.srMode) (r := []) h rfl rfl (fun s2 k hm => ?_) (fun s2 v hm => ?_) hbusy hstay hfaults hroom
    all_goals
      change memOp .stf .none [l] c.active 64 (c.addr a b) (fun _ => bytesNat (c.stfBlock x (c.group x 3 31))) (fun _ => 0) s c = _ at hm
      simp only [hwhole, hactive, hcontrol, hl, Option.toList_some, hm]
      rfl
  case lda =>
    intro w hbusy y hstay hfaults hroom
    obtain ⟨k, r, hlanes⟩ : ∃ k r, c.loadLanes d = k :: r := by
      cases hls : c.loadLanes d with
      | cons k r => exact ⟨k, r, rfl⟩
      | nil =>
        exfalso
        have hmem : l ∈ c.lanes := List.mem_of_head? hl
        unfold Ctx.loadLanes at hls
        split at hls
        · simp [hl] at hls
        · simp [hls] at hmem
    have hhead : (c.loadLanes d).headD 0 = k := by rw [hlanes]; rfl
    simp only [hhead] at hroom ⊢
    refine begins_of (fin := fun s2 => s2.acquire c.t c.scope) (r := r) h rfl hlanes (fun s2 k hm => ?_) (fun s2 v hm => ?_) hbusy hstay hfaults hroom
    all_goals
      change memOp (.lda w (decide (2 ≤ c.t.effScope c.scope))) d (c.loadLanes d) c.active w (c.offAddr a off) (fun _ => 0)
        (fun _ => 0) s c = _ at hm
      rw [inScope_eq hscope]
      simp only [w] at hm
      simp only [hm]
  case pref =>
    intro reads r
    have hcount : (c.lanes.any fun l => isGlobal (c.addr a b l) &&
        (match (s.reach c.t c.die none ⟨false, false, c.sp.supervisor⟩ (c.addr a b l)).2 with
         | .ok q => q.ph.owner != .host
         | .error _ => true)) = true ↔ ∃ k ∈ c.lanes, reads k := by
      rw [List.any_eq_true]
      refine exists_congr fun k => and_congr_right fun _ => ?_
      rw [Bool.and_eq_true]
      refine and_congr_right fun _ => ?_
      cases (s.reach c.t c.die none ⟨false, false, c.sp.supervisor⟩ (c.addr a b k)).2 with
      | ok q => exact bne_iff_ne
      | error e => simp
    refine ⟨fun hnone => ?_, fun hsome hroom => ?_⟩
    · refine completes_of h rfl ⟨none, ?_⟩
      have hzero := Bool.eq_false_iff.2 fun ht => (hcount.1 ht).elim fun k hk => hnone k hk.1 hk.2
      exact if_pos (congrArg not hzero)
    · refine ends_of h rfl ⟨none, ?_⟩
      have hone := hcount.2 hsome
      exact (if_neg (Bool.not_eq_true _ ▸ congrArg not hone)).trans (if_neg (Nat.not_le.2 hroom))

end Sys2Proof.Machine
end

section
/-! ## Accesses on the core's and the die's own windows -/

namespace Sys2Proof.Machine

/-! ### What the lanes of such an access may change -/

/-- All that a lane of an access at an on-chip place changes: bytes of memory, and what copy commands keep of the bytes it
    overwrites. -/
structure State.Scribbled (s t : State) : Prop where
  rest : t = { s with wbuf := t.wbuf, cmds := t.cmds }
  plain : t.cmds.map Cmd.plain = s.cmds.map Cmd.plain

theorem State.Scribbled.refl (s : State) : s.Scribbled s := ⟨rfl, rfl⟩

theorem State.Scribbled.trans {s t u : State} (h : s.Scribbled t) (h' : t.Scribbled u) : s.Scribbled u :=
  ⟨h'.rest.trans (by rw [h.rest]), h'.plain.trans h.plain⟩

theorem State.Scribbled.accs {s t : State} (h : s.Scribbled t) : t.accs = s.accs := by rw [h.rest]

theorem State.Scribbled.flaws {s t : State} (h : s.Scribbled t) : t.flaws = s.flaws := by rw [h.rest]

theorem State.Scribbled.mem {s t : State} (h : s.Scribbled t) : t.mem = s.mem := by rw [h.rest]

theorem State.Scribbled.fresh {s t : State} (h : s.Scribbled t) : t.fresh = s.fresh := by rw [h.rest]

theorem State.Scribbled.chipAt {s t : State} (h : s.Scribbled t) (u : Terrace) (l ea n : Nat) :
    t.chipAt u l ea n = s.chipAt u l ea n := by rw [h.rest]; rfl

/-- A command that has noted bytes is the same but for what it keeps. -/
theorem State.scribbled_noteSeen (s : State) (ter before : Nat) {w : Req} (hp : w.page = none) :
    s.Scribbled (s.noteSeen ter before w) ∧ ∀ y, (s.noteSeen ter before w).rdByte y = s.rdByte y := by
  unfold State.noteSeen
  refine List.foldlRecOn (motive := fun t => s.Scribbled t ∧ ∀ y, t.rdByte y = s.rdByte y) _ _ ⟨.refl s, fun _ => rfl⟩ ?_
  intro t ht m _
  simp only [hp]
  refine ⟨ht.1.trans ⟨rfl, ?_⟩, ht.2⟩
  rw [List.map_map]
  refine List.map_congr_left fun x _ => ?_
  simp only [Function.comp]
  split <;> rfl

/-- A write of a terrace that has no access open overtakes none. -/
theorem State.bindOver_clear {s : State} {ter before : Nat} {w : Req} (h : ∀ a ∈ s.accs, a.ter ≠ ter) :
    s.bindOver ter before w = s.noteSeen ter before w := by
  have hnone : (s.accs.filter fun a => a.ter == ter && a.kind.isLoad) = [] :=
    List.filter_eq_nil_iff.2 fun a ha => by simp [h a ha]
  rw [State.bindOver, hnone]
  rfl

/-- A write at an on-chip location. -/
theorem State.scribbled_chipWrite {s : State} (hf : s.flaws = []) (x n v : Nat) :
    s.Scribbled (s.chipWrite (.loc x) n v) ∧ (s.chipWrite (.loc x) n v).rdByte = (s.wrBytes x (natBytes n v)).rdByte := by
  obtain ⟨ws, hws⟩ := s.wrBytes_wbuf x (natBytes n v)
  have heq : s.chipWrite (.loc x) n v = { s with wbuf := ws } := by
    simp only [State.chipWrite, State.wrNat, hws, State.healChip, hf, List.filter_nil]
  rw [heq]
  exact ⟨⟨rfl, rfl⟩, by rw [hws]⟩

/-- A write of a lane at a location: its bytes stand there, and every other reads as before. -/
theorem State.rdByte_chipWrite {s : State} (hf : s.flaws = []) (x n v y : Nat) :
    (s.chipWrite (.loc x) n v).rdByte y = if x ≤ y ∧ y < x + n then (natBytes n v).getD (y - x) 0 else s.rdByte y := by
  rw [(s.scribbled_chipWrite hf x n v).2, State.rdByte_wrBytes, natBytes_length]

theorem State.rdNat_congr {s t : State} {x n : Nat} (h : ∀ y, x ≤ y → y < x + n → t.rdByte y = s.rdByte y) :
    t.rdNat x n = s.rdNat x n := by
  have hbytes : t.rdBytes x n = s.rdBytes x n :=
    List.map_congr_left fun i hi => h _ (by omega) (by have := List.mem_range.1 hi; omega)
  rw [State.rdNat, hbytes]; rfl

theorem State.rdNat_chipWrite {s : State} (hf : s.flaws = []) (x n v : Nat) :
    (s.chipWrite (.loc x) n v).rdNat x n = v % 256 ^ n := by
  have hbytes : (s.chipWrite (.loc x) n v).rdBytes x n = natBytes n v := by
    refine List.ext_getElem (by simp [State.rdBytes]) fun i h1 h2 => ?_
    have hi : i < n := by simpa using h2
    simp only [State.rdBytes, List.getElem_map, List.getElem_range]
    rw [State.rdByte_chipWrite hf, if_pos ⟨by omega, by omega⟩, Nat.add_sub_cancel_left, List.getD_eq_getElem?_getD, List.getElem?_eq_getElem h2, Option.getD_some]
  rw [State.rdNat, hbytes, bytesNat_natBytes]

/-! ### One lane -/

/-- The request of a lane at an on-chip location. -/
def MemForm.chipReq (f : MemForm) (loc : Nat → Nat) (l : Nat) : Req :=
  ⟨l, f.ea l, loc l, f.len, none, none, f.data l, f.cmp l, none, 0, false, [], false⟩

section

variable {s : State} {c : Ctx} {f : MemForm} {i : Instr} {loc : Nat → Nat}

theorem chipAt_not_global {t : Terrace} {l ea n : Nat} {p : Chip} (h : s.chipAt t l ea n = some p) : isGlobal ea = false := by
  have hlow : ea < 2 ^ 32 := by
    refine Decidable.byContradiction fun hge => ?_
    have habove : ∀ k, k < 2 ^ 32 → ¬ ea + n ≤ k := fun k hk => by omega
    simp [State.chipAt, habove] at h
  rw [isGlobal, decide_eq_false (Nat.not_le.2 hlow), Bool.false_and]

/-- An aligned lane at an on-chip location goes on there. -/
theorem MemForm.lane_chip {S : State} (hk : f.kind.block = false) {seen : Seen} {l : Nat} (ha : f.ea l % f.len = 0)
    (hc : S.chipAt c.t l (f.ea l) f.len = some (.loc (loc l))) :
    S.lane c f.kind seen l (f.ea l) f.len (f.data l) (f.cmp l) = S.chipLane c f.kind (f.chipReq loc l) := by
  simp only [State.lane, ha, hk, hc, chipAt_not_global hc, Chip.place]
  rfl

theorem memForm_not_block (h : c.memForm i = some f) : f.kind.block = false := by
  unfold Ctx.memForm at h
  split at h <;> cases h <;> rfl

/-! ### All lanes -/

/-- One lane of a memory form, after the others before it. -/
def MemForm.step (f : MemForm) (c : Ctx) (x : Lanes32) (l : Nat) : Lanes32 :=
  x.add l (f.ea l) (x.s.lane c f.kind x.seen l (f.ea l) f.len (f.data l) (f.cmp l))

theorem MemForm.run_eq : f.run s c = f.lanes.foldl (f.step c) ⟨s, [], [], [], [], [], false⟩ := rfl

/-- The lanes between two points of an instruction have met no fault, have sent no request and have not to wait. -/
structure Lanes32.Quiet (x y : Lanes32) : Prop where
  out : y.out = x.out
  faults : y.faults = x.faults
  stay : y.stay = x.stay

theorem Lanes32.Quiet.trans {x y z : Lanes32} (h : x.Quiet y) (h' : y.Quiet z) : x.Quiet z :=
  ⟨h'.out.trans h.out, h'.faults.trans h.faults, h'.stay.trans h.stay⟩

/-- What holds of a lane's place in the state that an instruction began with. -/
def MemForm.AtLoc (f : MemForm) (s : State) (c : Ctx) (loc : Nat → Nat) (l : Nat) : Prop :=
  f.ea l % f.len = 0 ∧ s.chipAt c.t l (f.ea l) f.len = some (.loc (loc l))

theorem MemForm.step_chip {x : Lanes32} {l : Nat} (hk : f.kind.block = false) (hs : s.Scribbled x.s) (hl : f.AtLoc s c loc l) :
    f.step c x l = x.add l (f.ea l) (x.s.chipLane c f.kind (f.chipReq loc l)) := by
  rw [MemForm.step, MemForm.lane_chip hk hl.1 ((hs.chipAt ..).trans hl.2)]

/-- A lane that reads meets no unreadable byte in a sound machine. -/
theorem meetChip_sound {S : State} (h : S.flaws = []) (x n : Nat) : S.meetChip x n = false := by
  rw [State.meetChip, h]; rfl

/-- A store's lane at an on-chip location writes it. -/
theorem chipLane_store {S : State} (hc : ∀ a ∈ S.accs, a.ter ≠ c.uid)
    (hk : match f.kind with | .store .. | .stl _ => True | _ => False) (l : Nat) :
    S.chipLane c f.kind (f.chipReq loc l)
      = ((S.noteSeen c.uid S.fresh (f.chipReq loc l)).chipWrite (.loc (loc l)) f.len (f.data l), .done) := by
  rw [← State.bindOver_clear hc]
  split at hk
  next h => simp only [State.chipLane, h]; rfl
  next h => simp only [State.chipLane, h]; rfl
  next => exact hk.elim

/-- The lanes of a store at on-chip locations write them in order. -/
theorem MemForm.store_lanes (hb : f.kind.block = false) (hk : match f.kind with | .store .. | .stl _ => True | _ => False)
    (hf : s.flaws = []) (hc : ∀ a ∈ s.accs, a.ter ≠ c.uid) (ls : List Nat) (hls : ∀ l ∈ ls, f.AtLoc s c loc l)
    (hord : ls.Pairwise (· < ·)) (x : Lanes32) (hs : s.Scribbled x.s) :
    s.Scribbled (ls.foldl (f.step c) x).s ∧ x.Quiet (ls.foldl (f.step c) x) ∧ (ls.foldl (f.step c) x).reqs = x.reqs
      ∧ (∀ y, (∀ l ∈ ls, y < loc l ∨ loc l + f.len ≤ y) → (ls.foldl (f.step c) x).s.rdByte y = x.s.rdByte y)
      ∧ ∀ l ∈ ls, (∀ k ∈ ls, l < k → loc k + f.len ≤ loc l ∨ loc l + f.len ≤ loc k) →
          (ls.foldl (f.step c) x).s.rdNat (loc l) f.len = f.data l % 256 ^ f.len := by
  induction ls generalizing x with
  | nil => exact ⟨hs, ⟨rfl, rfl, rfl⟩, rfl, fun _ _ => rfl, by simp⟩
  | cons l ls ih =>
    have hxf : x.s.flaws = [] := hs.flaws.trans hf
    have hxc : ∀ a ∈ x.s.accs, a.ter ≠ c.uid := hs.accs ▸ hc
    -- the lane's own step
    let N := x.s.noteSeen c.uid x.s.fresh (f.chipReq loc l)
    obtain ⟨hN, hNread⟩ := x.s.scribbled_noteSeen c.uid x.s.fresh (w := f.chipReq loc l) rfl
    have hNf : N.flaws = [] := hN.flaws.trans hxf
    have hstep : f.step c x l = x.add l (f.ea l) (N.chipWrite (.loc (loc l)) f.len (f.data l), .done) := by
      rw [MemForm.step_chip hb hs (hls l (List.mem_cons_self ..)), chipLane_store hxc hk]
    have hs1 : s.Scribbled (f.step c x l).s := by
      rw [hstep]
      exact hs.trans (hN.trans (N.scribbled_chipWrite hNf _ _ _).1)
    have hq1 : x.Quiet (f.step c x l) := by rw [hstep]; exact ⟨rfl, rfl, rfl⟩
    have hreqs : (f.step c x l).reqs = x.reqs := by rw [hstep]; rfl
    have hbyte : ∀ y, (y < loc l ∨ loc l + f.len ≤ y) → (f.step c x l).s.rdByte y = x.s.rdByte y := fun y hy => by
      rw [hstep]
      refine (State.rdByte_chipWrite hNf _ _ _ y).trans ?_
      rw [if_neg (by omega), hNread]
    have hnat : (f.step c x l).s.rdNat (loc l) f.len = f.data l % 256 ^ f.len := by
      rw [hstep]
      exact State.rdNat_chipWrite hNf ..
    -- and the others'
    obtain ⟨hlater, hord'⟩ := List.pairwise_cons.1 hord
    obtain ⟨h1, h2, h3, h4, h5⟩ := ih (fun k hk => hls k (List.mem_cons_of_mem _ hk)) hord' (f.step c x l) hs1
    refine ⟨h1, hq1.trans h2, h3.trans hreqs, fun y hy => ?_, fun k hk hdis => ?_⟩
    · rw [List.foldl_cons, h4 y fun k hk => hy k (List.mem_cons_of_mem _ hk), hbyte y (hy l (List.mem_cons_self ..))]
    · rcases List.mem_cons.1 hk with rfl | hmem
      · rw [List.foldl_cons, ← hnat]
        refine State.rdNat_congr fun y hlo hhi => h4 y fun j hj => ?_
        have := hdis j (List.mem_cons_of_mem _ hj) (hlater j hj)
        omega
      · exact h5 k hmem fun j hj => hdis j (List.mem_cons_of_mem _ hj)

/-- The lanes of a load at on-chip locations make one request each. -/
theorem MemForm.load_lanes (hk : match f.kind with | .load .. => True | _ => False) (hf : s.flaws = []) (ls : List Nat)
    (hls : ∀ l ∈ ls, f.AtLoc s c loc l) (x : Lanes32) (hs : x.s = s) :
    (ls.foldl (f.step c) x).s = s ∧ x.Quiet (ls.foldl (f.step c) x)
      ∧ (ls.foldl (f.step c) x).reqs = x.reqs ++ ls.map (f.chipReq loc) := by
  induction ls generalizing x with
  | nil => exact ⟨hs, ⟨rfl, rfl, rfl⟩, by simp⟩
  | cons l ls ih =>
    have hstep : f.step c x l = x.add l (f.ea l) (s, .open (f.chipReq loc l)) := by
      split at hk
      next w sg by_ h =>
        rw [MemForm.step_chip (by rw [h]; rfl) (hs ▸ .refl s) (hls l (List.mem_cons_self ..)), hs, h]
        have hmeet : s.meetChip (f.chipReq loc l).loc (f.chipReq loc l).len = false := meetChip_sound hf _ _
        simp only [State.chipLane, show (f.chipReq loc l).reg = none from rfl, hmeet]
        rfl
      next => exact hk.elim
    obtain ⟨h1, h2, h3⟩ := ih (fun k hk => hls k (List.mem_cons_of_mem _ hk)) (f.step c x l) (by rw [hstep]; rfl)
    refine ⟨h1, Lanes32.Quiet.trans (by rw [hstep]; exact ⟨rfl, rfl, rfl⟩) h2, ?_⟩
    rw [List.foldl_cons, h3, hstep]
    simp [Lanes32.add]

end

end Sys2Proof.Machine
end

section
/-! ## Stores, loads and atomics on an on-chip window -/

namespace Sys2Proof.Machine

section

variable {s : State} {c : Ctx} {f : MemForm} {i : Instr} {loc : Nat → Nat}

/-! ### Atomics of one location -/

/-- The kinds of the atomics that an instruction has. -/
def AccKind.isAtomicWord (k : AccKind) : Prop := (∃ op, k = .amo op) ∨ k = .cas ∨ ∃ op, k = .red op

/-- The value of an atomic's location after one lane. -/
def MemForm.next (f : MemForm) (c : Ctx) (v l : Nat) : Nat :=
  match f.kind.apply c.ty v (f.data l) (f.cmp l) with
  | some x => x % 2 ^ (8 * f.len)
  | none => v

theorem MemForm.after_cons (l : Nat) (ls : List Nat) (v : Nat) : f.after c (l :: ls) v = f.after c ls (f.next c v l) := rfl

/-- The state after one lane of an atomic, and what the lane comes to. -/
structure MemForm.Acts (f : MemForm) (c : Ctx) (x y : Lanes32) (loc l : Nat) : Prop where
  scribbled : x.s.Scribbled y.s
  quiet : x.Quiet y
  outside : ∀ b, (b < loc ∨ loc + f.len ≤ b) → y.s.rdByte b = x.s.rdByte b
  value : y.s.rdNat loc f.len = f.next c (x.s.rdNat loc f.len) l
  reqs : y.reqs.map (fun r => (r.lane, r.bound)) = x.reqs.map (fun r => (r.lane, r.bound))
    ++ if f.kind.returning then [(l, some (x.s.rdNat loc f.len))] else []

/-- An atomic's lane at an on-chip location changes it, and opens a request with the value it found where it returns one. -/
theorem MemForm.step_atomic {x : Lanes32} {l p : Nat} (hk : f.kind.isAtomicWord) (hf : s.flaws = [])
    (hc : ∀ a ∈ s.accs, a.ter ≠ c.uid) (hs : s.Scribbled x.s) (hl : f.AtLoc s c (fun _ => p) l) :
    f.Acts c x (f.step c x l) p l := by
  have hxf : x.s.flaws = [] := hs.flaws.trans hf
  have hxc : ∀ a ∈ x.s.accs, a.ter ≠ c.uid := hs.accs ▸ hc
  have hb : f.kind.block = false := by obtain ⟨_, h⟩ | h | ⟨_, h⟩ := hk <;> rw [h] <;> rfl
  let N := x.s.noteSeen c.uid x.s.fresh (f.chipReq (fun _ => p) l)
  obtain ⟨hN, hNread⟩ := x.s.scribbled_noteSeen c.uid x.s.fresh (w := f.chipReq (fun _ => p) l) rfl
  have hNf : N.flaws = [] := hN.flaws.trans hxf
  have hold : N.rdNat p f.len = x.s.rdNat p f.len := State.rdNat_congr fun y _ _ => hNread y
  let W : State := match f.kind.apply c.ty (x.s.rdNat p f.len) (f.data l) (f.cmp l) with
    | some v => N.chipWrite (.loc p) f.len v
    | none => N
  have hlane : x.s.chipLane c f.kind (f.chipReq (fun _ => p) l) = (W, if f.kind.returning then
      .open { f.chipReq (fun _ => p) l with bound := some (x.s.rdNat p f.len) } else .done) := by
    have hmeet : x.s.meetChip p f.len = false := meetChip_sound hxf _ _
    have hbind := State.bindOver_clear (before := x.s.fresh) (w := f.chipReq (fun _ => p) l) hxc
    obtain ⟨op, h⟩ | h | ⟨op, h⟩ := hk
    all_goals
      simp only [State.chipLane, h, W, show (f.chipReq (fun _ => p) l).reg = none from rfl,
        show (f.chipReq (fun _ => p) l).loc = p from rfl, show (f.chipReq (fun _ => p) l).len = f.len from rfl, hmeet, hbind,
        Bool.and_false, Bool.false_eq_true, if_false, show ∀ S : State, S.chipRead (f.chipReq (fun _ => p) l).chip f.len = S.rdNat p f.len from
          fun _ => rfl]
      rw [show x.s.noteSeen c.uid x.s.fresh (f.chipReq (fun _ => p) l) = N from rfl, hold]
      rfl
  have hstep := MemForm.step_chip hb hs hl
  rw [hlane] at hstep
  have hW : N.Scribbled W ∧ (∀ b, (b < p ∨ p + f.len ≤ b) → W.rdByte b = N.rdByte b)
      ∧ W.rdNat p f.len = f.next c (x.s.rdNat p f.len) l := by
    simp only [W, MemForm.next]
    split
    next v _ =>
      refine ⟨(N.scribbled_chipWrite hNf _ _ _).1, fun b hb => ?_, ?_⟩
      · rw [State.rdByte_chipWrite hNf, if_neg (by omega)]
      · rw [State.rdNat_chipWrite hNf, Nat.pow_mul]
    next => exact ⟨.refl N, fun _ _ => rfl, hold⟩
  obtain ⟨hW1, hW2, hW3⟩ := hW
  rw [hstep]
  cases hret : f.kind.returning
  · exact ⟨hN.trans hW1, ⟨rfl, rfl, rfl⟩, fun b hb => (hW2 b hb).trans (hNread b), hW3, by simp [Lanes32.add, hret]⟩
  · exact ⟨hN.trans hW1, ⟨rfl, rfl, rfl⟩, fun b hb => (hW2 b hb).trans (hNread b), hW3, by simp [Lanes32.add, hret, MemForm.chipReq]⟩

/-- The lanes of an atomic to one on-chip location act on it in order. -/
theorem MemForm.atomic_lanes {p : Nat} (hk : f.kind.isAtomicWord) (hf : s.flaws = []) (hc : ∀ a ∈ s.accs, a.ter ≠ c.uid)
    (ls : List Nat) (hls : ∀ l ∈ ls, f.AtLoc s c (fun _ => p) l) (hord : ls.Pairwise (· < ·)) (x : Lanes32) (hs : s.Scribbled x.s) :
    s.Scribbled (ls.foldl (f.step c) x).s ∧ x.Quiet (ls.foldl (f.step c) x)
      ∧ (∀ b, (b < p ∨ p + f.len ≤ b) → (ls.foldl (f.step c) x).s.rdByte b = x.s.rdByte b)
      ∧ (ls.foldl (f.step c) x).s.rdNat p f.len = f.after c ls (x.s.rdNat p f.len)
      ∧ (ls.foldl (f.step c) x).reqs.map (fun r => (r.lane, r.bound)) = x.reqs.map (fun r => (r.lane, r.bound))
          ++ if f.kind.returning then ls.map fun l => (l, some (f.after c (ls.filter fun k => k < l) (x.s.rdNat p f.len))) else [] := by
  induction ls generalizing x with
  | nil => exact ⟨hs, ⟨rfl, rfl, rfl⟩, fun _ _ => rfl, rfl, by simp⟩
  | cons l ls ih =>
    have hact := MemForm.step_atomic hk hf hc hs (hls l (List.mem_cons_self ..))
    obtain ⟨hlater, hord'⟩ := List.pairwise_cons.1 hord
    obtain ⟨h1, h2, h3, h4, h5⟩ := ih (fun k hk => hls k (List.mem_cons_of_mem _ hk)) hord' (f.step c x l) (hs.trans hact.scribbled)
    refine ⟨h1, hact.quiet.trans h2, fun b hb => (h3 b hb).trans (hact.outside b hb), ?_, ?_⟩
    · rw [List.foldl_cons, h4, hact.value, MemForm.after_cons]
    · rw [List.foldl_cons, h5, hact.reqs, hact.value]
      cases f.kind.returning
      · simp
      · have hfirst : (l :: ls).filter (fun k => k < l) = [] := by
          refine List.filter_eq_nil_iff.2 fun k hk => ?_
          rcases List.mem_cons.1 hk with rfl | hmem
          · simp
          · have := hlater k hmem; simp; omega
        have hrest : ∀ k ∈ ls, (l :: ls).filter (fun j => j < k) = l :: ls.filter fun j => j < k := fun k hk => by
          simp [hlater k hk]
        simp only [if_true, List.map_cons, hfirst, List.append_assoc, List.singleton_append]
        congr 2
        refine List.map_congr_left fun k hk => ?_
        rw [hrest k hk]; rfl

/-! ### The end of the issue -/

/-- The access that an instruction registers with its requests. -/
def MemForm.access (f : MemForm) (c : Ctx) (id path : Nat) (reqs : List Req) : Access :=
  ⟨id, c.uid, c.sid, c.t.core, c.t.ter, c.t.vf, c.t.launch, path, f.kind, f.dst, c.sp.mode, c.sp.rk, c.sp.rc, c.active, reqs,
    false, [], none⟩

/-- The access list after an instruction: an instruction that is over at its issue leaves no access. -/
def MemForm.added (f : MemForm) (c : Ctx) (id path : Nat) (reqs : List Req) : List Access :=
  if reqs.isEmpty then [] else [f.access c id path reqs]

theorem sendAll_nil (S : State) (by_ : Sender) (vf ety : Nat) (k : AccKind) : S.sendAll by_ vf ety k [] = (S, []) := rfl

theorem State.apart_committed (hq : s.wbuf = []) (u n : Nat) (ws : List (Nat × Byte)) (accs : List Access) (cmds : List Cmd) :
    (commit s { s with wbuf := ws, cmds := cmds, fresh := n, accs := accs }).apart u
      = { s.apart u with mem := applyWrites s.mem ws, fresh := n, accs := accs, cmds := cmds } := by
  cases s
  subst hq
  rfl

/-- An instruction that has completed with its access registered has passed its issue. -/
theorem passed_openAccess {S : State} (h : s.Issues i c) (hS : s.Scribbled S) (path : Nat) (reqs : List Req) :
    let t := s.finish c (.done (S.openAccess c f.kind f.dst c.active path reqs false true []) none)
    Passed s t c ∧ t.accs = s.accs ++ f.added c s.fresh path reqs ∧ ∀ y, t.rdByte y = S.rdByte y := by
  intro t
  obtain ⟨_, hter, hsp, _⟩ := s.issuer_spec h.issuer
  let g : Terrace → Terrace := fun t =>
    let t := { t with flight := trimAll (t.flight ++ [⟨S.fresh, path, if reqs.isEmpty then [] else [S.fresh]⟩]) }
    if reqs.isEmpty then t else t.setPending c.now (writesOf c.sp.mode c.i) none S.fresh
  have hg : ∀ t, (g t).uid = t.uid ∧ (g t).splits = t.splits ∧ (g t).regs = t.regs
      ∧ { (g t).others with flight := [] } = { t.others with flight := [] } := fun t => by
    simp only [g]
    split <;> exact ⟨rfl, rfl, rfl, rfl⟩
  obtain ⟨_, hsplits, hregs, hothers⟩ := hg c.t
  let S1 : State := { S with fresh := s.fresh + 1, accs := s.accs ++ f.added c s.fresh path reqs }
  have hopen : S.openAccess c f.kind f.dst c.active path reqs false true [] = S1.updTer c.uid g := by
    have hS1 : S1 = { S with fresh := S.fresh + 1, accs := S.accs ++ f.added c S.fresh path reqs } := by rw [hS.fresh, hS.accs]
    rw [hS1]
    cases reqs with
    | nil =>
      rw [show f.added c S.fresh path [] = [] from rfl, List.append_nil]
      rfl
    | cons => rfl
  have hS1 : S1.ter? c.uid = some c.t := by
    change S.ter? c.uid = _
    rw [hS.rest]; exact hter
  have hflaws : (S1.updTer c.uid g).flaws = s.flaws := hS.flaws
  have hpart : ((S1.updTer c.uid g).part? c.t.core c.t.vf).isSome = true := by
    change (S.part? c.t.core c.t.vf).isSome = true
    rw [hS.rest]; exact h.home
  have hsplit : (g c.t).split? c.sid = some c.sp := by rw [Terrace.split?, hsplits]; exact hsp
  obtain ⟨hapart, _, u, x, hu, hx, hur, huo, hpc, hmask, hhold, hstatus, _⟩ := State.finish_done (s := s) (s0 := S1.updTer c.uid g)
    none (State.noted_of_flaws hflaws) (hflaws.trans h.sound) hpart (State.ter?_updTer_same hS1 g fun t => (hg t).1) hsplit
  have ht : t = s.finish c (.done (S1.updTer c.uid g) none) := by rw [← hopen]
  rw [← ht] at hapart hu
  have hall : t.apart c.uid = { s.apart c.uid with
      mem := applyWrites s.mem S.wbuf, fresh := s.fresh + 1, accs := s.accs ++ f.added c s.fresh path reqs, cmds := S.cmds } := by
    rw [hapart, State.apart_commit_congr (State.apart_updTer S1 c.uid g fun t => (hg t).1)]
    have hrest : S1 = { s with wbuf := S.wbuf, cmds := S.cmds, fresh := s.fresh + 1, accs := s.accs ++ f.added c s.fresh path reqs } := by
      simp only [S1]; rw [hS.rest]
    rw [hrest]
    exact State.apart_committed h.tidy ..
  have hmem : t.mem = applyWrites s.mem S.wbuf := congrArg State.mem hall
  have hfresh : t.fresh = s.fresh + 1 := congrArg State.fresh hall
  have haccs : t.accs = s.accs ++ f.added c s.fresh path reqs := congrArg State.accs hall
  have hcmds : t.cmds = S.cmds := by have := congrArg State.cmds hall; exact this
  have hwbuf : t.wbuf = [] := (congrArg State.wbuf hall).trans h.tidy
  refine ⟨⟨?_, by rw [hcmds]; exact hS.plain, u, x, hu, hx, hur.trans hregs, ?_, hpc, hmask, hhold, hstatus⟩, haccs, fun y => ?_⟩
  · rw [hall, hmem, hfresh, haccs, hcmds]
  · rw [huo]; exact hothers
  · have hread : t.rdByte y = (commit s S).rdByte y := by simp only [State.rdByte, hmem, hwbuf]; rfl
    rw [hread, rdByte_commit hS.mem]

/-- An instruction with no effect has passed its issue. -/
theorem passed_none (h : s.Issues i c) :
    let t := s.finish c (.done s none)
    Passed s t c ∧ t.accs = s.accs ∧ ∀ y, t.rdByte y = s.rdByte y := by
  intro t
  obtain ⟨hapart, _, u, x, hu, hx, hur, huo, hpc, hmask, hhold, hstatus, _⟩ := State.passes_none (s := s) (i := i) none h
  change t.apart c.uid = s.apart c.uid at hapart
  have hmem : t.mem = s.mem := by have := congrArg State.mem hapart; exact this
  have haccs : t.accs = s.accs := by have := congrArg State.accs hapart; exact this
  have hfresh : t.fresh = s.fresh := by have := congrArg State.fresh hapart; exact this
  have hcmds : t.cmds = s.cmds := by have := congrArg State.cmds hapart; exact this
  have hwbuf : t.wbuf = s.wbuf := by have := congrArg State.wbuf hapart; exact this
  refine ⟨⟨?_, by rw [hcmds], u, x, hu, hx, hur, by rw [huo], hpc, hmask, hhold, hstatus⟩, haccs, fun y => ?_⟩
  · rw [hapart, hmem, haccs, hfresh, hcmds]; rfl
  · simp only [State.rdByte, hmem, hwbuf]

end

end Sys2Proof.Machine
end

section
/-! ## On-chip accesses: the statements -/

namespace Sys2Proof.Machine

section

variable {s : State} {c : Ctx} {f : MemForm} {i : Instr} {loc : Nat → Nat}

theorem memForm_holds_nil (h : c.memForm i = some f) (reqs : List Req) : f.kind.holds reqs [] = false := by
  unfold Ctx.memForm at h
  split at h <;> cases h <;> rfl

/-- No access of an instruction whose lanes are at on-chip locations is one of the register window. -/
theorem MemForm.not_ownRegBusy (h : f.onChip s c loc) : s.ownRegBusy c f.lanes f.ea f.len = false := by
  refine List.any_eq_false.2 fun l hl => ?_
  simp [(h l hl).2]

/-- An instruction whose lanes are all at on-chip locations, and have met nothing, has passed its issue. -/
theorem passed_onChip (h : s.Issues i c) (hi : c.memForm i = some f) (hb : s.mayBegin c i) (hchip : f.onChip s c loc)
    (hl : f.lanes ≠ []) (hroom : ∀ p, c.t.inFlight p < 255) (hS : s.Scribbled (f.run s c).s)
    (hq : (⟨s, [], [], [], [], [], false⟩ : Lanes32).Quiet (f.run s c)) :
    ∃ t path, exec i s = .next t ∧ Passed s t c ∧ t.accs = s.accs ++ f.added c s.fresh path (f.run s c).reqs
      ∧ ∀ y, t.rdByte y = (f.run s c).s.rdByte y := by
  obtain ⟨l, r, hlr⟩ := List.exists_cons_of_ne_nil hl
  have hsent : f.sent (f.run s c) c = ((f.run s c).s, []) := by rw [MemForm.sent, hq.out]; rfl
  have hx := exec_memForm h hi hb
  rw [MemForm.op_runs hlr (MemForm.not_ownRegBusy hchip) hq.stay hq.faults (hroom _), hq.out, memForm_holds_nil hi,
    if_neg Bool.false_ne_true, MemForm.opened, hsent, List.append_nil] at hx
  exact ⟨_, _, hx, passed_openAccess h hS _ _⟩

end

/-! ### The forms -/

/-- A memory form is that of a load, of a store of 1 to 16 bytes, or of an atomic. -/
inductive MemForm.Shape (c : Ctx) (f : MemForm) : Prop
  | load (w : Nat) (sg by_ : Bool) (hk : f.kind = .load w sg by_) (hd : f.data = fun _ => 0) (hc : f.cmp = fun _ => 0)
  | store (x : Src) (hk : match f.kind with | .store .. | .stl _ => True | _ => False) (hl : f.lanes = c.lanes)
      (hw : f.len ∈ [1, 2, 4, 8, 16]) (hd : f.data = c.storeVal x f.len)
  | atomic (hk : f.kind.isAtomicWord) (hl : f.lanes = c.lanes)

theorem memForm_shape {c : Ctx} {i : Instr} {f : MemForm} (h : c.memForm i = some f) : f.Shape c := by
  unfold Ctx.memForm at h
  split at h <;> cases h
  case h_1 | h_2 | h_3 | h_4 | h_5 | h_6 | h_7 | h_8 => exact .load _ _ _ rfl rfl rfl
  case h_9 | h_10 | h_11 | h_12 | h_13 | h_14 | h_15 | h_16 => exact .store _ trivial rfl (by simp [Ctx.storeForm]) rfl
  case h_17 d a dbl off => exact .store _ trivial rfl (by cases dbl <;> simp) rfl
  case h_18 d a b op => exact .atomic (.inl ⟨op, rfl⟩) rfl
  case h_19 => exact .atomic (.inr (.inl rfl)) rfl
  case h_20 a b op => exact .atomic (.inr (.inr ⟨op, rfl⟩)) rfl

theorem Ctx.group_lt (c : Ctx) (x : Src) (k l : Nat) : c.group x k l < 2 ^ 32 := by
  unfold Ctx.group
  split
  · exact BitVec.isLt _
  · exact BitVec.isLt _
  · decide

/-- The registers of a store's operand as one number. -/
theorem foldl_group_lt (c : Ctx) (x : Src) (l n : Nat) :
    (List.range n).foldl (fun v k => v + c.group x k l * 2 ^ (32 * k)) 0 < 2 ^ (32 * n) := by
  induction n with
  | zero => simp
  | succ n ih =>
    rw [List.range_succ, List.foldl_append, List.foldl_cons, List.foldl_nil, Nat.mul_succ, Nat.pow_add]
    have hg := c.group_lt x n l
    calc _ < 2 ^ (32 * n) + c.group x n l * 2 ^ (32 * n) := Nat.add_lt_add_right ih _
      _ = (c.group x n l + 1) * 2 ^ (32 * n) := (Nat.add_comm _ _).trans (Nat.succ_mul _ _).symm
      _ ≤ 2 ^ 32 * 2 ^ (32 * n) := Nat.mul_le_mul_right _ hg
      _ = 2 ^ (32 * n) * 2 ^ 32 := Nat.mul_comm ..

theorem Ctx.storeVal_lt (c : Ctx) (x : Src) {w : Nat} (hw : w ∈ [1, 2, 4, 8, 16]) (l : Nat) : c.storeVal x w l < 256 ^ w := by
  have hpow : 256 ^ w = 2 ^ (8 * w) := by rw [Nat.pow_mul]
  rw [Ctx.storeVal, hpow]
  split
  · exact Nat.mod_lt _ (Nat.two_pow_pos _)
  · have hlong : 8 * w = 32 * (w / 4) := by
      simp only [List.mem_cons, List.not_mem_nil, or_false] at hw
      omega
    rw [hlong]
    exact foldl_group_lt c x l (w / 4)

theorem lanesOf_sorted (m : Lanes) : (lanesOf m).Pairwise (· < ·) := List.Pairwise.filter _ List.pairwise_lt_range

/-! ### Stores, loads, atomics -/

/-- The lanes of an instruction before the first. -/
def Lanes32.start (s : State) : Lanes32 := ⟨s, [], [], [], [], [], false⟩

/-- Settles O34. -/
theorem onChipStores : Obligations.OnChipStores := by
  intro i s c f loc h hi hk hb hchip hclear
  obtain ⟨hnone, hroom⟩ := hclear
  have hsh := memForm_shape hi
  cases hsh with
  | load w sg by_ hkind => rw [hkind] at hk; exact hk.elim
  | atomic hkind => obtain ⟨_, h⟩ | h | ⟨_, h⟩ := hkind <;> (rw [h] at hk; exact hk.elim)
  | store x _ hlanes hw hdata =>
    obtain ⟨h1, h2, h3, h4, h5⟩ := MemForm.store_lanes (memForm_not_block hi) hk h.sound hnone f.lanes hchip
      (hlanes ▸ lanesOf_sorted _) (.start s) (.refl s)
    have hfull : ∀ l, f.data l % 256 ^ f.len = f.data l := fun l => Nat.mod_eq_of_lt (by rw [hdata]; exact c.storeVal_lt x hw l)
    by_cases hl : f.lanes = []
    · have hx := exec_memForm h hi hb
      rw [hl, memOp_idle] at hx
      obtain ⟨hpass, haccs, hread⟩ := passed_none h
      exact ⟨_, hx, hpass, haccs, fun y _ => hread y, by simp [hl]⟩
    · obtain ⟨t, path, hx, hpass, haccs, hread⟩ := passed_onChip h hi hb hchip hl hroom h1 h2
      have hreqs : (f.run s c).reqs = [] := h3
      refine ⟨t, hx, hpass, ?_, fun y hy => (hread y).trans (h4 y hy), fun l hmem hdis => ?_⟩
      · rw [haccs, hreqs]; exact List.append_nil _
      · rw [← hfull l, ← h5 l hmem hdis]
        exact State.rdNat_congr fun y _ _ => hread y

/-- A load begins without a check of its scope. -/
theorem mayBegin_of_load {s : State} {c : Ctx} {i : Instr} {f : MemForm} (h : c.memForm i = some f)
    (hk : match f.kind with | .load .. => True | _ => False) : s.mayBegin c i := by
  unfold Ctx.memForm at h
  split at h <;> cases h
  case h_17 | h_18 | h_19 | h_20 => exact hk.elim
  all_goals trivial

/-- An atomic begins where its scope is free. -/
theorem mayBegin_of_atomic {s : State} {c : Ctx} {i : Instr} {f : MemForm} (h : c.memForm i = some f)
    (hk : f.kind.atomic = true) (hs : s.scopeFree c c.scope) : s.mayBegin c i := by
  unfold Ctx.memForm at h
  split at h <;> cases h
  case h_18 | h_19 | h_20 => exact hs
  all_goals cases hk

/-- Settles O35. -/
theorem onChipLoads : Obligations.OnChipLoads := by
  intro i s c f loc h hi hk hchip hl hroom
  have hb : s.mayBegin c i := mayBegin_of_load hi hk
  obtain ⟨h1, h2, h3⟩ := MemForm.load_lanes hk h.sound f.lanes hchip (.start s) rfl
  have hrun : (f.run s c).s = s := h1
  obtain ⟨t, path, hx, hpass, haccs, hread⟩ := passed_onChip h hi hb hchip hl hroom (hrun.symm ▸ .refl s) h2
  have hreqs : (f.run s c).reqs = f.lanes.map (f.chipReq loc) := h3
  have hsome : (f.lanes.map (f.chipReq loc)).isEmpty = false := by
    rw [List.isEmpty_eq_false_iff]; simpa using hl
  rw [hreqs, MemForm.added, hsome] at haccs
  refine ⟨t, hx, hpass, fun y => (hread y).trans (by rw [hrun]), _, haccs, rfl, ?_⟩
  cases memForm_shape hi with
  | load w sg by_ hkind hd hc =>
    exact List.map_congr_left fun l _ => by simp only [MemForm.chipReq, hd, hc]
  | store x hstore =>
    split at hk
    next hkind => rw [hkind] at hstore; exact hstore.elim
    next => exact hk.elim
  | atomic hkind => obtain ⟨_, h⟩ | h | ⟨_, h⟩ := hkind <;> (rw [h] at hk; exact hk.elim)

/-- Settles O36. -/
theorem onChipAtomics : Obligations.OnChipAtomics := by
  intro i s c f x h hi hk hscope hchip hl hclear
  obtain ⟨hnone, hroom⟩ := hclear
  cases memForm_shape hi with
  | load w sg by_ hkind => rw [hkind] at hk; cases hk
  | store y hstore =>
    exfalso
    split at hstore
    next hkind => rw [hkind] at hk; cases hk
    next hkind => rw [hkind] at hk; cases hk
    next => exact hstore
  | atomic hkind hlanes =>
    obtain ⟨h1, h2, h3, h4, h5⟩ := MemForm.atomic_lanes hkind h.sound hnone f.lanes hchip (hlanes ▸ lanesOf_sorted _) (.start s)
      (.refl s)
    obtain ⟨t, path, hx, hpass, haccs, hread⟩ := passed_onChip h hi (mayBegin_of_atomic hi hk hscope) hchip hl hroom h1 h2
    refine ⟨t, hx, hpass, ?_, fun y hy => (hread y).trans (h3 y hy), ?_⟩
    · exact (State.rdNat_congr fun y _ _ => hread y).trans h4
    · change (f.run s c).reqs.map _ = [] ++ _ at h5
      rw [List.nil_append] at h5
      cases hret : f.kind.returning with
      | true =>
        rw [hret, if_pos rfl] at h5
        have hsome : (f.run s c).reqs.isEmpty = false := by
          rw [List.isEmpty_eq_false_iff]
          intro hnil
          rw [hnil] at h5
          exact hl (by simpa using h5.symm)
        rw [MemForm.added, hsome] at haccs
        rw [if_pos rfl]
        exact ⟨_, haccs, rfl, h5⟩
      | false =>
        rw [hret, if_neg Bool.false_ne_true] at h5
        rw [if_neg Bool.false_ne_true, haccs, List.map_eq_nil_iff.1 h5]
        exact List.append_nil _

end Sys2Proof.Machine
end

section
/-! ## Fences, removals of lines and copies -/

namespace Sys2Proof.Machine

section

variable {i : Instr} {s : State} {c : Ctx} {d : Dst} {sc : Nat} {acq rel : Bool}

/-- The state after a fence: the lines an acquire removes are gone, and no undelivered write is left to report. -/
def State.fenced (s : State) (c : Ctx) (acq : Bool) (sc : Nat) : State :=
  (if acq then s.acquire c.t sc else s).updSplit c.uid c.sid fun x => { x with undel := (0, 0) }

/-- A fence with nothing left to wait for gives its status, or traps where writes were not delivered and nothing takes it. -/
theorem fence_done (hscope : s.scopeFree c sc) (hrel : rel = true → s.released c.t sc c.ord = true)
    (hacq : acq = true → s.returnedAll c.t sc c.ord = true) :
    fence acq rel d sc s c =
      if c.sp.undel.1 != 0 && d == .none then .trap (s.fenced c acq sc) ⟨0x19, 0, false, true, none, c.sp.undel.2⟩ true
      else .done ((s.fenced c acq sc).give c d
        [BitVec.ofNat 32 (if c.sp.undel.1 == 0 then 0 else 2 ^ 31 + min c.sp.undel.1 0xFFFF)]) none := by
  have hr : (rel && !s.released c.t sc c.ord) = false := by
    cases rel with
    | false => rfl
    | true => simp [hrel rfl]
  have ha : (acq && !s.returnedAll c.t sc c.ord) = false := by
    cases acq with
    | false => rfl
    | true => simp [hacq rfl]
  unfold fence
  simp only [sysScope_free hscope.1, gangScope_free hscope.2, hr, ha, Bool.false_eq_true, if_false]
  rfl

/-- How a fence with nothing left to wait for ends. -/
theorem fence_ends (h : s.Issues i c) (hx : exec i s = issue i (fence acq rel d sc) s) (hscope : s.scopeFree c sc)
    (hrel : rel = true → s.released c.t sc c.ord = true) (hacq : acq = true → s.returnedAll c.t sc c.ord = true) :
    (c.sp.undel.1 = 0 ∨ d ≠ .none → Ends i s c ((s.fenced c acq sc).give c d
      [BitVec.ofNat 32 (if c.sp.undel.1 = 0 then 0 else 2 ^ 31 + min c.sp.undel.1 0xFFFF)]))
    ∧ (c.sp.undel.1 ≠ 0 → d = .none → Traps i s c (s.fenced c acq sc) ⟨0x19, 0, false, true, none, c.sp.undel.2⟩) := by
  have hbody := fence_done (d := d) hscope hrel hacq
  refine ⟨fun hgives => ends_of h hx ⟨none, ?_⟩, fun hn hd => traps_of h hx ⟨true, ?_⟩⟩
  · have hno : ¬ ((c.sp.undel.1 != 0 && d == .none) = true) := by
      rw [Bool.and_eq_true, bne_iff_ne, beq_iff_eq]
      exact fun hboth => hgives.elim hboth.1 fun hd => hd hboth.2
    rw [hbody, if_neg hno]
    simp only [beq_iff_eq]
  · rw [hbody, if_pos]
    rw [Bool.and_eq_true, bne_iff_ne, beq_iff_eq]
    exact ⟨hn, hd⟩

end

/-- Settles O39. -/
theorem fencesAndRemovals : Obligations.FencesAndRemovals := by
  intro s c d a b sc path p n st ended
  refine ⟨fun h hscope hrel hret => fence_ends (acq := true) (rel := true) h rfl hscope (fun _ => hrel) fun _ => hret,
    fun h hscope hret => fence_ends (acq := true) (rel := false) h rfl hscope nofun fun _ => hret,
    fun h hscope hrel => fence_ends (acq := false) (rel := true) h rfl hscope (fun _ => hrel) nofun,
    fun h hscope hrel => waits_of h rfl ?relWaits,
    fun h hle => completes_of h rfl ⟨none, if_pos hle⟩,
    fun h hlt => waits_of h rfl (if_neg (Nat.not_le.2 hlt)),
    fun hp => ⟨fun h => ends_of h rfl ⟨none, by simp only [hp]⟩, fun h => ends_of h rfl ⟨none, by simp only [hp]⟩⟩⟩
  case relWaits =>
    unfold fence
    simp only [sysScope_free hscope.1, gangScope_free hscope.2, hrel, Bool.false_eq_true, if_false]
    rfl

/-- Settles O40. -/
theorem copyInstructions : Obligations.CopyInstructions := by
  intro s c d a b sswz dswz rows rnd newf sat q x r dst src cp rqnt row
  refine ⟨fun h h0 => completes_of h rfl ⟨none, if_pos (beq_iff_eq.2 h0)⟩, ?cpEnds, ?cpTraps,
    fun h h0 => completes_of h rfl ⟨none, if_pos (beq_iff_eq.2 h0)⟩, ?rqnt, ?cps, ?cpw⟩
  case cpEnds =>
    intro h hact hlen16 hlen0 hlenMax hdst hsrc hds hss hstride hrange halley hgate hroom
    refine ends_of h rfl ⟨none, ?_⟩
    have hbad : ((List.range rows).flatMap fun i => [row src (r (a + 2)) i, row dst (r (d + 2)) i]).find?
        (fun va => !s.rangeOk c.t va (r b)) = none := by
      rw [List.find?_eq_none]
      intro va hva
      obtain ⟨i, hi, hmem⟩ := List.mem_flatMap.1 hva
      obtain ⟨hs, hd⟩ := hrange i (List.mem_range.1 hi)
      rcases List.mem_cons.1 hmem with rfl | hlast
      · simp [hs]
      · simp [List.mem_singleton.1 hlast, hd]
    have hstride0 : (r (d + 2) != 0 && decide (r (d + 2) < r b)) = false := by
      rw [Bool.and_eq_false_iff, bne_eq_false_iff_eq, decide_eq_false_iff_not, Nat.not_lt]
      exact hstride
    have hmisfit : (r b % 16 != 0 || r b == 0 || decide (1048576 < r b) || dst % 16 != 0 || src % 16 != 0 || r (d + 2) % 16 != 0
        || r (a + 2) % 16 != 0 || (r (d + 2) != 0 && decide (r (d + 2) < r b))) = false := by
      simp [hlen16, hlen0, hlenMax, hdst, hsrc, hds, hss, hstride0]
    have hroomy := Nat.not_le.2 hroom
    have hgated : (s.gated c.t && (List.range rows).any fun i =>
        s.stagedRange c.t c.sp.supervisor (c.t.domain 1) (row dst (r (d + 2)) i) (r b)) = false := by
      rcases hgate with h0 | hfree
      · rw [h0]; rfl
      · rw [Bool.and_eq_false_iff]
        exact .inr (List.any_eq_false.2 fun i hi => by simp [hfree i (List.mem_range.1 hi)])
    refine (if_neg (mt beq_iff_eq.1 hact)).trans ((if_neg (Bool.eq_false_iff.1 hmisfit)).trans ?_)
    simp only [r, dst, src, row] at hbad hgated hroomy halley ⊢
    simp only [hbad, hgated, hroomy, Bool.false_eq_true, if_false]
    rcases halley with h0 | ⟨y, hy, hsome⟩
    · simp only [h0]
      rfl
    · by_cases h0 : (c.rt.sget (d + 3)).toNat = 0
      · simp only [h0]
        rfl
      · simp only [beq_iff_eq, h0, if_false, hy, hsome]
  case cpTraps =>
    intro h hact hbad
    refine traps_of h rfl ⟨false, ?_⟩
    refine (if_neg (mt beq_iff_eq.1 hact)).trans (if_pos ?_)
    simpa only [Bool.or_eq_true, Bool.and_eq_true, bne_iff_ne, beq_iff_eq, decide_eq_true_eq, or_assoc] using hbad
  case rqnt =>
    intro h hact hsrc hlen hroom rn
    refine ends_of h rfl ⟨none, ?_⟩
    refine (if_neg (mt beq_iff_eq.1 hact)).trans ((if_neg ?_).trans ((if_neg (Nat.not_le.2 hroom)).trans ?_))
    · simpa only [Bool.or_eq_true, bne_iff_ne, decide_eq_true_eq, not_or, Decidable.not_not, Nat.not_lt] using And.intro hsrc hlen
    · simp only [rn, beq_iff_eq]
      rfl
  case cps =>
    intro h hunset n
    refine ends_of h rfl ⟨none, (if_neg (Nat.not_le.2 hunset)).trans ?_⟩
    simp only [n, beq_iff_eq]
  case cpw =>
    intro h hlast hb hclose hnone
    refine completes_of h rfl ⟨none, (if_neg ?_).trans ?_⟩
    · simpa only [Bool.or_eq_true, beq_iff_eq, decide_eq_true_eq, not_or, Nat.not_le] using ⟨⟨hlast, hb⟩, hclose⟩
    · simp only [hnone]
      rfl

end Sys2Proof.Machine
end

section
/-! ## Crossings -/

namespace Sys2Proof.Machine

section

variable {i : Instr} {s : State} {c : Ctx} {d : Dst} {ph dep : Bool} {k : DomKey} {n : Nat}

/-- The status of a crossing says that it had conflicts exactly when there were some. -/
theorem crossStatus_conflict (n : Nat) (early : Bool) : 2 ^ 31 ≤ crossStatus n early ↔ n ≠ 0 := by
  unfold crossStatus
  by_cases h : n = 0
  · subst h
    cases early <;> decide
  · simp only [beq_iff_eq, h, if_false]
    omega

/-- The machine after an arrival of the issuing terrace. -/
def State.arrived (s : State) (c : Ctx) (ph : Bool) (k : DomKey) : State :=
  (s.setDom k { s.dom k with started := max (s.dom k).started (c.t.arrivals k + 1) }).updTer c.uid fun t =>
    { t.setArrivals k (c.t.arrivals k + 1) with parted := if ph then t.parted else none }

@[simp] theorem State.arrived_crossings : ((s.arrived c ph k).dom k).crossings = (s.dom k).crossings := by
  simp [State.arrived]

/-- An arrival that nothing keeps back is made; then the instruction departs or gives its number. -/
theorem arrive_eq (hk : k = c.t.domain (if ph then 0 else 1)) (hnext : c.t.arrivals k ≤ (s.dom k).crossings)
    (hcopies : s.copyOpen c.t k = false) (hrel : s.released c.t (domScope k) c.ord = true) :
    arrive d ph dep s c =
      if dep then depart d ph k (c.t.arrivals k + 1) (s.arrived c ph k) { c with t := { c.t with parted := none } }
      else .done ((s.arrived c ph k).give c d [BitVec.ofNat 32 (c.t.arrivals k)]) none := by
  subst hk
  unfold arrive
  simp only [Nat.not_lt.2 hnext, hcopies, hrel, Bool.not_true, Bool.false_eq_true, if_false]
  rfl

/-- An arrival of CROSS or PHASE whose crossing has not come waits for it. -/
theorem depart_waits (hp : ph = true ∨ c.t.parted = none) (hkept : c.sp.kept = none) (hw : ∀ e, c.i ≠ .crossw e)
    (hlt : (s.dom k).crossings ≤ n) : depart d ph k (n + 1) s c = .wait (s.keep c 1 (n + 1)) (.crossing k n) := by
  have hparted : (if ph then none else c.t.parted) = none := by
    rcases hp with rfl | hp
    · rfl
    · rw [hp, ite_self]
  unfold depart
  simp only [hparted, Nat.add_one_ne_zero, beq_iff_eq, Nat.lt_succ_of_le hlt, if_true, if_false, hkept]
  rfl

/-- A departure of a crossing that has come ends with its status, or in the stage-conflict trap. -/
theorem depart_ends {body : State → Ctx → Res} (h : s.Issues i c) (hx : exec i s = issue i body s)
    (hb : body s c = depart d ph k n s c) (hp : ph = true ∨ c.t.parted = none) (h0 : n ≠ 0) (hcome : n ≤ (s.dom k).crossings)
    (hret : s.returnedAll c.t (domScope k) c.ord = true) :
    let x := s.dom k
    let s1 := (s.updTer c.uid fun t => t.seeEarly k x.early).acquire c.t (domScope k)
    (x.nconf = 0 ∨ d ≠ .none → Ends i s c (s1.give c d [BitVec.ofNat 32 (crossStatus x.nconf (c.t.earlySeen k < x.early))]))
    ∧ (x.nconf ≠ 0 → d = .none → Traps i s c s1 ⟨0x1A, 0, false, true, none, c.pc.toNat⟩) := by
  intro x s1
  have hparted : (if ph then none else c.t.parted) = none := by
    rcases hp with rfl | hp
    · rfl
    · rw [hp, ite_self]
  have hend : depart d ph k n s c = departEnd d (crossStatus x.nconf (c.t.earlySeen k < x.early)) (domScope k)
      (s.updTer c.uid fun t => t.seeEarly k x.early) c := by
    unfold depart
    simp only [hparted, beq_iff_eq, h0, Nat.not_lt.2 hcome, hret, Bool.not_true, Bool.false_eq_true, if_false]
    rfl
  have hconf : (decide (2 ^ 31 ≤ crossStatus x.nconf (c.t.earlySeen k < x.early)) && d == .none) = true
      ↔ x.nconf ≠ 0 ∧ d = .none := by
    rw [Bool.and_eq_true, decide_eq_true_eq, crossStatus_conflict, beq_iff_eq]
  refine ⟨fun hgives => ends_of h hx ⟨none, (hb.trans hend).trans (if_neg fun ht => ?_)⟩,
    fun hn hd => traps_of h hx ⟨true, (hb.trans hend).trans (if_pos (hconf.2 ⟨hn, hd⟩))⟩⟩
  obtain ⟨hn, hd⟩ := hconf.1 ht
  exact hgives.elim hn fun hne => hne hd

end

/-- Settles O41. -/
theorem crossings : Obligations.Crossings := by
  intro s c d ph k a x i arrived may departs
  have hx : exec i s = issue i (crossing d ph) s := by
    cases ph <;> rfl
  refine ⟨?arrives, ?waits, ?departs, ?crossw, ?zero⟩
  case arrives =>
    rintro rfl h ⟨hwhole, hnext, hcopies, hrel⟩
    refine ends_of h rfl ⟨none, (if_neg (Bool.eq_false_iff.1 hwhole)).trans ?_⟩
    exact arrive_eq (ph := false) (dep := false) rfl hnext hcopies hrel
  case waits =>
    rintro h hkept ⟨hwhole, hnext, hcopies, hrel⟩ hcome
    refine waits_of h hx ?_
    have hi : c.i = i := (State.issuer_spec h.issuer).2.2.2.1
    have hw : ∀ e, c.i ≠ .crossw e := by
      rw [hi]
      cases ph <;> simp [i]
    unfold crossing
    simp only [hwhole, hkept]
    refine (arrive_eq (ph := ph) (dep := true) rfl hnext hcopies hrel).trans ?_
    exact depart_waits (.inr rfl) hkept hw (Nat.le_trans (Nat.le_of_eq State.arrived_crossings) hcome)
  case departs =>
    intro w n h hwhole hkept hp h0 hcome hret
    refine depart_ends h hx ?_ hp h0 hcome hret
    unfold crossing
    simp only [hwhole, hkept]
    rfl
  case crossw =>
    rintro rfl h hwhole hp h0 hcome hret
    exact depart_ends (ph := false) h rfl (if_neg (Bool.eq_false_iff.1 hwhole)) hp h0 hcome hret
  case zero =>
    rintro rfl h hwhole hparted h0
    refine completes_dst (vals := none) h ((issue_eq h).trans ?_)
    have hzero : (c.t.arrivals (c.t.domain 1) == 0) = true := beq_iff_eq.2 h0
    simp only [hwhole, depart, hparted, hzero]
    rfl

end Sys2Proof.Machine
end

section
/-! ## Gangs, whose entry stands in another module -/

namespace Sys2Proof.Machine

/-- What an instruction that ends with an effect leaves outside its terrace. -/
theorem Ends.leaves {i : Instr} {s s1 : State} {c : Ctx} (h : s.Issues i c) (he : Ends i s c s1) (hf : s1.flaws = [])
    (hp : (s1.part? c.t.core c.t.vf).isSome = true) (hs : ((s1.ter? c.uid).bind fun t => t.split? c.sid).isSome = true) :
    ∃ t, exec i s = .next t ∧ t.apart c.uid = (commit s s1).apart c.uid := by
  obtain ⟨vals, ht⟩ := he
  obtain ⟨y, hy⟩ := Option.isSome_iff_exists.1 hs
  obtain ⟨w, hw, hy⟩ := Option.bind_eq_some_iff.1 hy
  have hn : s1.noted s = s1 := State.noted_of_flaws (hf.trans h.sound.symm)
  obtain ⟨hapart, _⟩ := endOfIssue.1 s s1 c vals w y (by rw [hn]; exact hf) (by rw [hn]; exact hp) (by rw [hn]; exact hw) hy
  rw [hn] at hapart
  exact ⟨_, ht, hapart⟩

/-- A machine whose tenant 0 has one page: virtual addresses from 2^32 on stand in another module, where user code may read
    and write them. -/
def withPeerPage (s : State) : State :=
  let t := { s.setTenant 0 { s.tenant 0 with ptroot := 0x10000#64, policy := 2#32 } with
    colours := [(1, 1)]
    dies := [(0, { Die.init with frames := [(1, 1)], ways := [(0, 15)] })] }
  commit t ((t.wrNat 0x10000 8 0x11131).wrNat 0x11020 8 (2 ^ 56 + 0x80000000 + 2 ^ 55 + 0xD))

/-- Terrace 1 about to bind itself to a gang whose entry stands there. -/
def peerEntry : State := withPeerPage (stage (fun t => t.writeDst (.s 0) true 1#32 fun _ => words2 (2 ^ 32)) id)

/-- The translation of the entry's address, with the TLB entry it would leave. -/
def Ctx.entryLook (c : Ctx) : State × Except Nat Phys :=
  peerEntry.translate c.t.vf c.die (some c.t.core) ⟨true, false, c.sp.supervisor⟩ (2 ^ 32)

/-- The effect that the statement names. -/
def Ctx.entryEffect (c : Ctx) : State := (c.entryLook.1.gset c (some (2 ^ 32))).1.give c (.s 3) [1]

theorem peerEntry_look : (peerEntry.issuer (.gset (.s 3) (.s 0))).map (fun c =>
    (c.base (.s 0) ((lowLane c.active).getD ((lowLane c.sp.mask).getD 0)), peerEntry.gated c.t,
      (match c.entryLook.2 with | .ok ph => decide (ph.leaf.cls = clsUntracked) && !ph.leaf.fmt | .error _ => false),
      (match (c.entryLook.1.gset c (some (2 ^ 32))).2 with | .status n => some n | _ => none)))
    = some (2 ^ 32, false, true, some 1) := by decide +kernel

theorem peerEntry_effect : (peerEntry.issuer (.gset (.s 3) (.s 0))).map (fun c =>
    (c.entryEffect.flaws, (c.entryEffect.part? c.t.core c.t.vf).isSome,
      ((c.entryEffect.ter? c.uid).bind fun t => t.split? c.sid).isSome, (c.entryEffect.die 0).tlb.length))
    = some ([], true, true, 1) := by decide +kernel

theorem peerEntry_result : (match exec (.gset (.s 3) (.s 0)) peerEntry with
    | .next t => some (t.die 0).tlb.length
    | _ => none) = some 0 := by decide +kernel

/-- Refutes O42: it takes a GSET whose entry stands in another module and says that the home TLB keeps the entry's page, as
    a translation that is used does. The model keeps none for a page of another module or of the host. -/
theorem not_gangsQuartersGrowth : ¬ Obligations.GangsQuartersGrowth := by
  unfold Obligations.GangsQuartersGrowth Clause.GangInstructions
  intro ⟨hgang, _⟩
  obtain ⟨c, hc, h⟩ := State.issues_of_ok (s := peerEntry) (i := .gset (.s 3) (.s 0)) (by decide +kernel)
  have hlook := peerEntry_look
  have heffect := peerEntry_effect
  simp only [hc, Option.map_some, Option.some.injEq, Prod.mk.injEq] at hlook heffect
  obtain ⟨hbase, hgated, hpage, hstatus⟩ := hlook
  obtain ⟨hflaws, hpart, hsplit, htlb⟩ := heffect
  obtain ⟨_, hbind, _⟩ := hgang peerEntry c (.s 3) (.s 0) hgated
  split at hpage
  next ph hph =>
    split at hstatus
    next n hn =>
      obtain rfl := Option.some.inj hstatus
      obtain ⟨hcls, hfmt⟩ := Bool.and_eq_true_iff.1 hpage
      have hends : Ends (.gset (.s 3) (.s 0)) peerEntry c c.entryEffect := by
        rw [hbase] at hbind
        exact hbind h nofun (by decide) (by decide) c.entryLook.1 _ ph 1 (Prod.ext rfl hph) (.inl (of_decide_eq_true hcls))
          (by simpa using hfmt) (Prod.ext rfl hn)
      obtain ⟨t, ht, hapart⟩ := hends.leaves h hflaws hpart hsplit
      have hdies : t.dies = c.entryEffect.dies := by
        have := congrArg State.dies hapart
        exact this
      have hrun := peerEntry_result
      simp only [ht, Option.some.injEq, State.die, hdies] at hrun
      exact absurd (hrun.symm.trans htlb) (by decide)
    next => cases hstatus
  next => cases hpage

end Sys2Proof.Machine
end

section
/-! ## Alleys, signals and barrier objects -/

namespace Sys2Proof.Machine

section

variable {s : State} {c : Ctx} {d : Dst}

/-- A pop ends with the handle where the terrace's loads have returned. -/
theorem popEnd_done {try_ : Bool} (w : Word) (hret : s.returnedAll c.t 3 c.ord = true) :
    popEnd d try_ s c w.toNat = .done ((s.acquire c.t 3).give c d (w :: if try_ then [1#32] else [])) none := by
  unfold popEnd
  rw [hret, BitVec.ofNat_toNat, BitVec.setWidth_eq]
  rfl

end

/-- Settles O43. -/
theorem alleys : Obligations.Alleys := by
  intro s c d a b x y q p hat
  refine ⟨fun h hrec => completes_of h rfl ⟨none, ?openAgain⟩, fun i h hrec hfree => ends_of h rfl ⟨none, ?openNew⟩,
    fun h hkept hfirst hsome hret => ends_of h rfl ⟨none, ?popEnds⟩, fun h hkept hmust => waits_of h rfl ?popWaits,
    fun h hkept hempty => ends_of h rfl ⟨none, ?tryEmpty⟩, fun h hkept hsome hret => ends_of h rfl ⟨none, ?tryEnds⟩,
    fun i h hrec hrel => ⟨fun hallow => ends_of h rfl ⟨none, ?pushEnds⟩, fun hallow => waits_of h rfl ?pushWaits⟩,
    fun h hrec => traps_of h rfl ⟨false, ?pushTraps⟩⟩
  case openAgain =>
    obtain ⟨i, hi⟩ := Option.isSome_iff_exists.1 hrec
    simp only [hat]
    simp only [y] at hi
    simp only [hi]
  case openNew =>
    simp only [y] at hrec hfree
    simp only [hat, hrec, hfree]
    rfl
  case popEnds =>
    have hmine : (q.head? == some c.uid && !y.empty) = true := by rw [hfirst, hsome]; simp
    simp only [hkept, hat]
    exact (if_pos hmine).trans (popEnd_done p.1 hret)
  case popWaits =>
    have hnot : ¬ (q.head? == some c.uid && !y.empty) = true := by
      rw [Bool.and_eq_true, beq_iff_eq, Bool.not_eq_true']
      rintro ⟨hfirst, hsome⟩
      exact hmust.elim (· hfirst) fun he => by simp [he] at hsome
    simp only [hkept, hat]
    exact if_neg hnot
  case tryEmpty =>
    simp only [hkept, hat]
    exact if_pos hempty
  case tryEnds =>
    simp only [hkept, hat]
    exact (if_neg (Bool.eq_false_iff.1 hsome)).trans (popEnd_done _ hret)
  case pushEnds =>
    simp only [y] at hrec hallow
    simp only [hat, hrec, hrel, beq_iff_eq, hallow]
    rfl
  case pushWaits =>
    simp only [y] at hrec hallow
    simp only [hat, hrec, hrel, hallow]
    rfl
  case pushTraps =>
    simp only [y] at hrec
    simp only [hat, hrec]
    rfl

/-! ### Signals -/

/-- A request that stays on this module is sent nowhere. -/
theorem sendAll_here {s : State} {by_ : Sender} {vf ety : Nat} {k : AccKind} {r : Req} (h : r.away = false) :
    s.sendAll by_ vf ety k [r] = (s, [r]) := by
  unfold State.sendAll
  simp [State.sendLanes, h]

theorem signalNext_eq (v n : Nat) (e : Bool) : signalNext v n e =
    (v % 2 ^ 63 - n) + if 2 ^ 63 ≤ v ∨ v % 2 ^ 63 < n ∨ e = true then 2 ^ 63 else 0 := by
  have hcond : (decide (2 ^ 63 ≤ v) || decide (v % 2 ^ 63 < n) || e) = true ↔ 2 ^ 63 ≤ v ∨ v % 2 ^ 63 < n ∨ e = true := by
    rw [Bool.or_eq_true, Bool.or_eq_true, decide_eq_true_eq, decide_eq_true_eq, or_assoc]
  unfold signalNext
  exact congrArg (v % 2 ^ 63 - n + ·) (ite_congr (propext hcond) (fun _ => rfl) fun _ => rfl)

/-- A wait ends with the signal's value where the terrace's loads have returned. -/
theorem signalEnd_done {s : State} {c : Ctx} {d : Dst} {v : Nat} (hret : s.returnedAll c.t 7 c.ord = true) :
    signalEnd d s c v = .done ((s.acquire c.t 7).updTer c.uid fun t => t.writeDst d true c.active fun _ => words2 v) none := by
  unfold signalEnd
  rw [hret]
  rfl

/-- SIGWAIT of a signal on this module, at its issue. -/
theorem sigwait_eq {s s1 : State} {c : Ctx} {d : Dst} {a k : Nat} {b : Src} {ph : Phys} (h : s.Issues (.sigwait d a b) c)
    (hact : c.active ≠ 0) (hkept : c.sp.kept = none)
    (hat : s.signalAt c.t.vf c.die (some c.t) ⟨false, false, c.sp.supervisor⟩ (c.src64 (.s a) 0) = (s1, .ok ph))
    (howner : ph.owner = .die k) (hread : (s1.meetMem c.t.vf ph.pa 8).2 = false) :
    exec (.sigwait d a b) s = .next (s.finish c (
      if signalMet ((s1.meetMem c.t.vf ph.pa 8).1.rdNat ph.pa 8) (c.uniAll b)
      then signalEnd d (s1.meetMem c.t.vf ph.pa 8).1 c ((s1.meetMem c.t.vf ph.pa 8).1.rdNat ph.pa 8)
      else .wait (s1.meetMem c.t.vf ph.pa 8).1 (.signal ph.pa (c.uniAll b)))) := by
  have hidle : ¬ (c.active == 0) = true := mt beq_iff_eq.1 hact
  refine (issue_eq h).trans ?_
  rw [if_neg hidle]
  split
  next v hv => exact absurd (hkept.symm.trans hv) nofun
  next => simp only [hat, howner, hread, Bool.false_eq_true, if_false]

theorem signals : Clause.Signals := by
  intro s c err d a b s1 ph k va dec wt path
  refine ⟨fun h h0 => completes_of h rfl ⟨none, if_pos (beq_iff_eq.2 h0)⟩,
    fun h h0 => completes_of h rfl ⟨none, if_pos (beq_iff_eq.2 h0)⟩, ?dec, ?wait, ?next⟩
  case dec =>
    intro h hact hundel hat howner hrel hroom hread
    have hsend : ∀ (t : State) (r : Req), r.page = some ph → t.sendAll (.core c.t.core) c.t.vf 0 .sig [r] = (t, [r]) :=
      fun t r hr => sendAll_here (by simp only [Req.away, hr, howner])
    have hbelow := Nat.not_le.2 hroom
    simp only [va, path] at hat hbelow ⊢
    refine ends_of h rfl ⟨none, (if_neg (mt beq_iff_eq.1 hact)).trans ?_⟩
    simp only [hundel, hat, howner, hrel, hbelow, hread, State.ownerDown, hsend]
    rfl
  case wait =>
    intro h hact hkept hat howner m v hread
    have hexec := sigwait_eq h hact hkept hat howner hread
    refine ⟨fun hmet hret => ⟨none, hexec.trans ?_⟩, fun hmet => hexec.trans ?_⟩
    · rw [if_pos hmet, signalEnd_done hret]
    · rw [if_neg (Bool.eq_false_iff.1 hmet)]
  case next =>
    exact fun v n e _ => signalNext_eq v n e

/-! ### Barrier objects -/

/-- The checks of an arrival or a wait at a barrier object pass. -/
theorem withBarrier_eq {s : State} {c : Ctx} {a : Src} {loc : Nat} {use : Nat → State → Ctx → Res} (atScope : Bool)
    (hat : s.barrierAt c.t (c.uniAll a) = .ok loc) (hscope : atScope = true → s.scopeFree c c.scope) :
    withBarrier atScope a use s c = use loc s c := by
  have hsys : (atScope && c.scope == 7 && !s.sysScope c.t.vf) = false := by
    cases atScope with
    | false => rfl
    | true => exact sysScope_free (hscope rfl).1
  have hgang : (atScope && c.scope == 5 && s.gated c.t) = false := by
    cases atScope with
    | false => rfl
    | true => exact gangScope_free (hscope rfl).2
  unfold withBarrier
  simp only [hsys, hgang, hat, Bool.false_eq_true, if_false]

theorem barrierObjects : Clause.BarrierObjects := by
  intro s c n d x a loc hat
  refine ⟨?init, ?arrive, ?wait⟩
  case init =>
    intro h v
    refine ⟨fun hlo hhi => ends_of h rfl ⟨none, (if_neg ?_).trans (withBarrier_eq false hat nofun)⟩,
      fun hbad => traps_of h rfl ⟨false, if_pos ?_⟩⟩
    · simp only [v] at hlo hhi
      simp only [Bool.or_eq_true, beq_iff_eq, decide_eq_true_eq]
      omega
    · simpa only [v, Bool.or_eq_true, beq_iff_eq, decide_eq_true_eq] using hbad
  case arrive =>
    intro h hscope hrel hread ph k
    refine ends_of h rfl ⟨none, (withBarrier_eq true hat fun _ => hscope).trans ?_⟩
    simp only [hrel, hread, State.barArrive, beq_iff_eq]
    rfl
  case wait =>
    intro h hscope hread
    refine ⟨fun hpassed hret => ends_of h rfl ⟨none, (withBarrier_eq true hat fun _ => hscope).trans ?_⟩,
      fun hpassed => waits_of h rfl ((withBarrier_eq true hat fun _ => hscope).trans ?_)⟩
    · simp only [hread, hpassed, hret]
      rfl
    · simp only [hread, hpassed]
      rfl

/-- Settles O44. -/
theorem signalsAndBarriers : Obligations.SignalsAndBarriers := ⟨signals, barrierObjects⟩

end Sys2Proof.Machine
end

section
/-! ## Groups and collectives -/

namespace Sys2Proof.Machine

/-- A COLL of a terrace of one split: nothing with no active lane; else its part of a round, or the trap of its operands. -/
theorem coll_spec {i : Instr} {s : State} {c : Ctx} {tile : Tile} {kind red a : Nat} (h : s.Issues i c)
    (hx : exec i s = issue i (coll tile kind red a) s) (hwhole : c.t.divided = false) :
    (c.active = 0 → Completes i s c c.t c.sp)
    ∧ (c.active ≠ 0 → (∀ k, tile = .acc k → s.slotHeld c.t k = true ∧ s.roundBusy (c.t.slot k) = false ∧ s.claimed c.t k = false) →
      (∀ args, s.collArgs c tile kind red a = some args → s.released c.t 2 c.ord = true → Ends i s c (s.collIssue c.t args))
      ∧ (s.collArgs c tile kind red a = none → Traps i s c s ⟨0x02, 0, false, false, none, c.pc.toNat⟩)) := by
  have hnot : ¬ c.t.divided = true := Bool.eq_false_iff.1 hwhole
  refine ⟨fun h0 => completes_of h hx ⟨none, (if_neg hnot).trans (if_pos (beq_iff_eq.2 h0))⟩, fun hact hslot => ?_⟩
  have hslots : ∀ k ∈ (match tile with | .acc n => [n] | .s _ => []),
      s.slotHeld c.t k = true ∧ s.roundBusy (c.t.slot k) = false ∧ s.claimed c.t k = false := by
    intro k hk
    cases tile with
    | acc n =>
      obtain rfl := List.mem_singleton.1 hk
      exact hslot k rfl
    | s n => exact absurd hk List.not_mem_nil
  have hbody : coll tile kind red a s c = (match s.collArgs c tile kind red a with
      | none => .trap s (.illegalOperand c.pc) false
      | some x => if !s.released c.t 2 c.ord then .stay else .done (s.collIssue c.t x) none) :=
    (if_neg hnot).trans ((if_neg (mt beq_iff_eq.1 hact)).trans (withSlots_eq hslots))
  refine ⟨fun args hargs hrel => ends_of h hx ⟨none, hbody.trans ?_⟩, fun hargs => traps_of h hx ⟨false, hbody.trans ?_⟩⟩
  · simp only [hargs, hrel]
    rfl
  · simp only [hargs]
    rfl

/-- What CGBIND does with the record at an address. -/
def Ctx.bindRecord (c : Ctx) (s : State) (n va : Nat) : Res :=
  let e := Eng.ofTer c.t c.sp.supervisor s.fresh
  let put := fun (s : State) (x : Nat) => Res.done (s.give c (.s n) [BitVec.ofNat 32 x]) none
  if va % 16 != 0 then put s 0x80000001
  else
    let out := fun (s : State) (g : List OutRead) => Res.wait (s.keepGets c g) (.outside (firstOpen g))
    match s.recordBytesOf e c.sp.gets va 8 with
    | none => .wait s (.before s.fresh)
    | some (s1, g, .wait) => out s1 g
    | some (s1, _, .fail code a) => .trap s1 (.whole code a) false
    | some (s1, g, .bytes hd) =>
      if fieldOf hd 8 2 == 0 || 1024 < fieldOf hd 8 2 then put s1 0x80000001
      else
        match s1.recordBytesOf e g (va + 16) (fieldOf hd 8 2) with
        | none => .wait s (.before s.fresh)
        | some (s2, g, .wait) => out s2 g
        | some (s2, _, .fail code a) => .trap s2 (.whole code a) false
        | some (s2, _, .bytes r) =>
          match groupOf (hd ++ r) with
          | none => put s2 0x80000001
          | some (key, ranks) => put (s2.cgbind c key ranks).1 (s2.cgbind c key ranks).2

/-- Settles O45. -/
theorem groupsAndCollectives : Obligations.GroupsAndCollectives := by
  intro s c n a red x tile va e gives colls
  refine ⟨fun h => ?bind, fun h hwhole => coll_spec h rfl hwhole, fun h hwhole => coll_spec h rfl hwhole,
    fun h hwhole => coll_spec h rfl hwhole, fun h hwhole => coll_spec h rfl hwhole, fun h hwhole => coll_spec h rfl hwhole⟩
  have hbind : ∀ {s1 v}, c.bindRecord s n va = .done (s1.give c (.s n) [BitVec.ofNat 32 v]) none → gives s1 v :=
    fun hb => ends_of h rfl ⟨none, hb⟩
  refine ⟨fun hmis => hbind (if_pos (bne_iff_ne.2 hmis)), ?_⟩
  intro s1 g hd hal hrec k
  have hmis : ¬ (va % 16 != 0) = true := by simp [hal]
  simp only [e] at hrec ⊢
  refine ⟨fun hk => hbind ((if_neg hmis).trans ?_), ?_⟩
  · have hbad : (k == 0 || decide (1024 < k)) = true := by simpa using hk
    simp only [hrec]
    exact if_pos hbad
  · intro s2 g2 r h0 hmax hrec2
    have hok : ¬ (k == 0 || decide (1024 < k)) = true := by simpa using ⟨h0, hmax⟩
    refine ⟨fun hgroup => hbind ((if_neg hmis).trans ?_), fun key ranks hgroup => hbind ((if_neg hmis).trans ?_)⟩
    all_goals
      simp only [hrec]
      refine (if_neg hok).trans ?_
      simp only [k] at hrec2
      simp only [hrec2, hgroup]

end Sys2Proof.Machine
end

section
/-! ## The instructions of the matrix engine -/

namespace Sys2Proof.Machine

section

variable {i : Instr} {s : State} {c : Ctx} {body : State → Ctx → Res}

/-- A tile instruction on an idle slot of an undivided terrace with an active lane goes on to its body. -/
theorem tile_one {n : Nat} (hwhole : c.t.divided = false) (hact : c.active ≠ 0) (hheld : s.slotHeld c.t n = true)
    (hidle : s.roundBusy (c.t.slot n) = false) (hfree : s.claimed c.t n = false) :
    tile (withSlots [n] body) s c = body s c := (tile_eq hwhole hact).trans (withSlots_one hheld hidle hfree)

/-- A tile instruction with no active lane does nothing. -/
theorem tile_idle (h : s.Issues i c) (hx : exec i s = issue i (tile body) s) (hwhole : c.t.divided = false) (h0 : c.active = 0) :
    Completes i s c c.t c.sp :=
  completes_of h hx ⟨none, (if_neg (Bool.eq_false_iff.1 hwhole)).trans (if_pos (beq_iff_eq.2 h0))⟩

end

/-- How a matrix instruction on a slot ends, by the handles it pops: it claims the slot, with them, and holds its split. -/
def Ctx.Claims (c : Ctx) (s : State) (i : Instr) (n opc a b : Nat) (pa pb : Bool) (saved : List Nat) : Prop :=
  (s.resumes c.t n opc = true → Holds i s c (s.claimSlots c [n] opc saved none none) .tile)
  ∧ (s.resumes c.t n opc = false → pa = false → pb = false → Holds i s c (s.claimSlots c [n] opc saved none none) .tile)
  ∧ (∀ x h, s.resumes c.t n opc = false → pa = true → pb = false → s.popLook c a 0 = .handle x h → h % 64 = 0 →
      s.returnedAll c.t 3 c.ord = true →
      Holds i s c (((s.takePop c.uid x).acquire c.t 3).claimSlots c [n] opc saved (some h) none) .tile)
  ∧ (∀ x h, s.resumes c.t n opc = false → pa = false → pb = true → s.popLook c b 0 = .handle x h → h % 64 = 0 →
      s.returnedAll c.t 3 c.ord = true →
      Holds i s c (((s.takePop c.uid x).acquire c.t 3).claimSlots c [n] opc saved none (some h)) .tile)
  ∧ (∀ x h y k, s.resumes c.t n opc = false → pa = true → pb = true → s.popLook c a 0 = .handle x h →
      s.popLook c b (if c.rt.sVal a = c.rt.sVal b then 1 else 0) = .handle y k → h % 64 = 0 → k % 64 = 0 →
      s.returnedAll c.t 3 c.ord = true → Holds i s c
        ((((s.takePop c.uid x).takePop c.uid y).acquire c.t 3).claimSlots c [n] opc saved (some h) (some k)) .tile)

/-- An instruction that goes on to `matrixIssue` claims its slot. -/
theorem claims_of {i : Instr} {s : State} {c : Ctx} {body : State → Ctx → Res} {n opc a b : Nat} {pa pb : Bool} {saved : List Nat}
    (h : s.Issues i c) (hx : exec i s = issue i body s) (hb : body s c = matrixIssue n opc a b pa pb saved s c) :
    c.Claims s i n opc a b pa pb saved := by
  have hnew : s.resumes c.t n opc = false → body s c =
      popHandles a b pa pb s c fun s ha hb => .hold (s.claimSlots c [n] opc saved ha hb) .tile :=
    fun hr => hb.trans (if_neg (Bool.eq_false_iff.1 hr))
  refine ⟨fun hr => holds_of h hx (hb.trans (if_pos hr)), ?none, ?left, ?right, ?both⟩
  case none =>
    rintro hr rfl rfl
    exact holds_of h hx ((hnew hr).trans rfl)
  case left =>
    rintro x k hr rfl rfl hpop hal hret
    refine holds_of h hx ((hnew hr).trans ?_)
    simp only [popHandles, if_true, Bool.false_eq_true, if_false, hpop, hal, hret]
    rfl
  case right =>
    rintro x k hr rfl rfl hpop hal hret
    refine holds_of h hx ((hnew hr).trans ?_)
    simp only [popHandles, if_true, Bool.false_and, Bool.false_eq_true, if_false, hpop, hal, hret]
    rfl
  case both =>
    rintro x k y m hr rfl rfl hpop hpop2 hal hal2 hret
    refine holds_of h hx ((hnew hr).trans ?_)
    have hsame : (true && true && c.rt.sVal a == c.rt.sVal b) = decide (c.rt.sVal a = c.rt.sVal b) := rfl
    simp only [popHandles, if_true, hsame, decide_eq_true_eq, hpop, hpop2, hal, hal2, hret]
    rfl

theorem patternBad_eq_false {pat : List Nat} {k : Nat} (h : ∀ g, g < k → (keptOf pat g).1 < (keptOf pat g).2) :
    patternBad pat k = false := by
  unfold patternBad
  rw [List.any_eq_false]
  intro g hg
  simpa using h g (List.mem_range.1 hg)

/-- Settles O46. -/
theorem matrixInstructions : Obligations.MatrixInstructions := by
  intro s c n d a b mr nc kb isel pa pb mma mmas mmac pat groups runs hwhole hheld hidle hfree
  refine ⟨?idle, fun hact hquad => ⟨fun h hquad2 => ?mma, fun k h hquad2 hk hpat => ?mmas, fun bs h hbase hal hlo hhi hread hshape => ?mmac⟩⟩
  case idle =>
    intro i hi h h0
    simp only [List.mem_cons, List.not_mem_nil, or_false] at hi
    rcases hi with rfl | rfl | rfl
    · exact tile_idle h rfl hwhole h0
    · exact tile_idle h rfl hwhole h0
    · exact tile_idle h rfl hwhole h0
  case mma =>
    refine claims_of h rfl ((tile_one hwhole hact hheld hidle hfree).trans (if_neg ?_))
    simp [hquad, hquad2]
  case mmas =>
    have hkbad := patternBad_eq_false hpat
    refine claims_of h rfl ((tile_one hwhole hact hheld hidle hfree).trans ((if_neg ?_).trans ?_))
    · have h15 : patternBad pat 15 = false := patternBad_eq_false fun g hg => hpat g (Nat.lt_of_lt_of_le hg ?_)
      · simp [hquad, hquad2, h15, pat]
      · rcases hk with rfl | ⟨va, -, ⟨cls, -, rfl⟩ | ⟨s1, code, ad, -, rfl⟩⟩
        · decide
        · exact Nat.le_max_left _ _
        · exact Nat.le_refl _
    · by_cases h60 : patternBad pat 60 = true
      · refine (if_neg (by simpa [pat] using h60)).trans ?_
        rcases hk with rfl | ⟨va, hva, ⟨cls, hcls, rfl⟩ | ⟨s1, code, ad, hcls, rfl⟩⟩
        · exact absurd h60 (by simp [hkbad])
        · simp only [hva, Option.map_some, hcls]
          exact if_neg (Bool.eq_false_iff.1 hkbad)
        · simp only [hva, Option.map_some, hcls]
          rfl
      · exact if_pos (by simpa [pat] using h60)
  case mmac =>
    refine claims_of h rfl ((tile_one hwhole hact hheld hidle hfree).trans ((if_neg ?_).trans ?_))
    · simp [hquad, hbase, hal, hlo, hhi]
    · simp only [hread, hshape]
      rfl

end Sys2Proof.Machine
end

section
/-! ## The other instructions of accumulator slots -/

namespace Sys2Proof.Machine

/-! ### Rows of a slot -/

section

variable {s : State} {slot r : Nat} {f : Nat → Word}

/-- Some elements of a row of a slot, written one after another. -/
def State.accRow (s : State) (slot r : Nat) (f : Nat → Word) (js : List Nat) : State :=
  js.foldl (fun s j => s.accPut slot r j (f j)) s

theorem State.accRow_eq (s : State) (js : List Nat) : s.accRow slot r f js = { s with acc := (s.accRow slot r f js).acc } := by
  induction js generalizing s with
  | nil => rfl
  | cons j js ih => exact ih (s.accPut slot r j (f j))

theorem accKey_inj {i j i' j' : Nat} (hj : j < 128) (hj' : j' < 128) : accKey slot i j = accKey slot i' j' ↔ i = i' ∧ j = j' := by
  unfold accKey
  omega

theorem State.accGet_accPut {i j k : Nat} {w : Word} (hj : j < 128) (hk : k < 128) :
    (s.accPut slot r k w).accGet slot i j = if i = r ∧ j = k then w else s.accGet slot i j := by
  unfold State.accGet State.accPut
  rw [kget_kset]
  exact ite_congr (propext (accKey_inj hj hk)) (fun _ => rfl) fun _ => rfl

theorem State.accGet_accRow {i j : Nat} (hj : j < 128) {js : List Nat} (hjs : ∀ k ∈ js, k < 128) :
    (s.accRow slot r f js).accGet slot i j = if i = r ∧ j ∈ js then f j else s.accGet slot i j := by
  induction js generalizing s with
  | nil => simp [State.accRow]
  | cons k js ih =>
    have hrest := ih (s := s.accPut slot r k (f k)) fun k hk => hjs k (List.mem_cons_of_mem _ hk)
    refine hrest.trans ?_
    rw [State.accGet_accPut hj (hjs k List.mem_cons_self)]
    by_cases hmem : i = r ∧ j ∈ js
    · simp [hmem]
    · by_cases hk : i = r ∧ j = k
      · obtain ⟨rfl, rfl⟩ := hk
        simp
      · rw [if_neg hmem, if_neg hk, if_neg]
        rintro ⟨hi, hc⟩
        exact (List.mem_cons.1 hc).elim (fun he => hk ⟨hi, he⟩) fun he => hmem ⟨hi, he⟩

end

/-- What a step that changes elements of slots alone leaves apart from its terrace. -/
theorem State.apart_commit_acc {s : State} (hq : s.wbuf = []) (u : Nat) (acc : List (Nat × Word)) :
    (commit s { s with acc := acc }).apart u = { s.apart u with acc := acc } := by
  cases s
  subst hq
  rfl

/-- The columns of a slot's row that some lanes hold, four each. -/
def laneCols (ls : List Nat) : List Nat := ls.flatMap fun l => (List.range 4).map fun j => 32 * j + l

theorem mem_laneCols {m : Lanes} {j : Nat} : j ∈ laneCols (lanesOf m) ↔ j < 128 ∧ m.getLsbD (j % 32) = true := by
  simp only [laneCols, List.mem_flatMap, List.mem_map, List.mem_range, mem_lanesOf]
  constructor
  · rintro ⟨l, ⟨hl, hm⟩, k, hk, rfl⟩
    refine ⟨by omega, ?_⟩
    rwa [Nat.mul_add_mod, Nat.mod_eq_of_lt hl]
  · rintro ⟨hj, hm⟩
    exact ⟨j % 32, ⟨Nat.mod_lt _ (by decide), hm⟩, j / 32, by omega, by omega⟩

/-- Folds of functions that agree on the list agree. -/
theorem foldl_congr_mem {α β : Type} {f g : β → α → β} {ls : List α} (h : ∀ b, ∀ a ∈ ls, f b a = g b a) (b : β) :
    ls.foldl f b = ls.foldl g b := by
  induction ls generalizing b with
  | nil => rfl
  | cons a ls ih =>
    rw [List.foldl_cons, List.foldl_cons, h b a (.head _)]
    exact ih (fun b a ha => h b a (.tail _ ha)) _

/-- MACWR writes the columns of its lanes. -/
theorem macwr_row {s : State} {c : Ctx} {slot r v : Nat} {ls : List Nat} (h : ∀ l ∈ ls, l < 32) :
    ls.foldl (fun s l => (List.range 4).foldl (fun s j => s.accPut slot r (32 * j + l) (c.rt.vget (v + j) l)) s) s
      = s.accRow slot r (fun j => c.rt.vget (v + j / 32) (j % 32)) (laneCols ls) := by
  unfold State.accRow laneCols
  rw [List.foldl_flatMap]
  refine foldl_congr_mem (fun s l hl => ?_) s
  rw [List.foldl_map]
  refine foldl_congr_mem (fun s j _ => ?_) s
  have hlt := h l hl
  simp only
  rw [Nat.mul_add_div (by decide), Nat.mul_add_mod, Nat.mod_eq_of_lt hlt, Nat.div_eq_of_lt hlt, Nat.add_zero]

/-- Settles O47. -/
theorem slotInstructions : Obligations.SlotInstructions := by
  intro s c n v a bx mr nc tgt rnd fam bfmt sat init fin x y slot bad free va mepi size dst stride one geo stats dim hfree
  obtain ⟨hheld, hidle, hclaim⟩ := hfree
  refine ⟨fun h hwhole hact => ?macz, fun h hrow => ?macwr, fun h hrow => ?macwrTraps, ?tiles⟩
  case macz =>
    refine ends_of h rfl ⟨none, (tile_one hwhole hact hheld hidle hclaim).trans ?_⟩
    have hlo : accKey (c.t.slot n) 0 0 = slot * 16384 := by simp only [accKey, slot]; omega
    simp only [hlo, h.sound, List.filter_nil]
    rfl
  case macwr =>
    let s1 := s.accRow slot (c.uni y) (fun j => c.rt.vget (v + j / 32) (j % 32)) (laneCols c.lanes)
    have hx : exec (.macwr v y n) s = .next (s.finish c (.done s1 none)) := by
      refine (issue_eq h).trans ?_
      rw [withSlots_one hheld hidle hclaim, if_neg (Nat.not_lt.2 hrow), macwr_row (ls := c.lanes) fun l hl => ((mem_lanesOf _ _).1 hl).1]
    have hacc : s1 = { s with acc := s1.acc } := s.accRow_eq _
    obtain ⟨_, hter, hsp, _⟩ := s.issuer_spec h.issuer
    obtain ⟨hapart, _, u, _, hu, _, hregs, _⟩ := State.finish_done (s := s) (s0 := s1) (s1 := s1) none
      (State.noted_of_flaws (by rw [hacc])) (by rw [hacc]; exact h.sound) (by rw [hacc]; exact h.home) (by rw [hacc]; exact hter) hsp
    have hread : (s.finish c (.done s1 none)).acc = s1.acc := by
      have := congrArg State.acc hapart
      exact this
    refine ⟨_, hx, ?_, ⟨u, hu, hregs⟩, fun i j hj => ?_⟩
    · rw [hapart, hread, hacc]
      exact State.apart_commit_acc h.tidy _ _
    · unfold State.accGet
      rw [hread]
      refine (State.accGet_accRow hj fun k hk => (mem_laneCols.1 hk).1).trans ?_
      exact ite_congr (propext (and_congr_right fun _ => mem_laneCols.trans (and_iff_right hj))) (fun _ => rfl) fun _ => rfl
  case macwrTraps =>
    exact traps_of h rfl ⟨false, (withSlots_one hheld hidle hclaim).trans (if_pos hrow)⟩
  case tiles =>
    intro hwhole hact low
    refine ⟨fun h hal => ?macld, fun h hal hgate => ?macst, ?ckpt, fun vec h hdst hstride hr hc halley hvec hgate => ?mepi,
      fun h hgeo hdim harea hal hslots => ?attc⟩
    case macld =>
      refine holds_of h rfl ((tile_one hwhole hact hheld hidle hclaim).trans ?_)
      exact if_neg (by simpa [va] using hal)
    case macst =>
      refine holds_of h rfl ((tile_one hwhole hact hheld hidle hclaim).trans ?_)
      exact (if_neg (by simpa [va] using hal)).trans (if_neg (by simpa [va] using hgate))
    case ckpt =>
      intro i hi h len p hwindow hal hlen hsome hmax
      have hcopy : ckptCopy n x y s c = .hold (s.claimSlots c [n] opcAcc [len, p] none none) .tile := by
        have hwin : (decide (0x80000 ≤ p) && decide (p < 0x100000) || decide (0x200000 ≤ p) && decide (p < 0x400000)) = true := by
          simpa only [Bool.or_eq_true, Bool.and_eq_true, decide_eq_true_eq] using hwindow
        refine if_neg ?_
        simp only [len, p] at hal hlen hsome hmax hwin
        simp only [hwin]
        simp [hal, hlen, hsome, hmax]
      simp only [List.mem_cons, List.not_mem_nil, or_false] at hi
      rcases hi with rfl | rfl
      · exact holds_of h rfl ((tile_one hwhole hact hheld hidle hclaim).trans hcopy)
      · exact holds_of h rfl ((tile_one hwhole hact hheld hidle hclaim).trans hcopy)
    case mepi =>
      refine holds_of h rfl ((tile_one hwhole hact hheld hidle hclaim).trans ?_)
      have hmisfit : (dst % size != 0 || stride % size != 0 || (!(c.rt.sVal bx == 0xFFFFFFFF) && c.rt.sVal bx % 4 != 0)
          || (!(c.rt.sVal (bx + 1) == 0xFFFFFFFF) && c.rt.sVal (bx + 1) % 4 != 0)) = false := by
        have hone : ∀ q, one q → (!(q == 0xFFFFFFFF) && q % 4 != 0) = false := by
          rintro q (rfl | hq)
          · rfl
          · simp [hq]
        rw [hone _ hr, hone _ hc, hdst, hstride]
        rfl
      have hstores : ((List.range mr).any fun i => s.storeGated c ((dst + i * stride) % 2 ^ 64) (nc * size)) = false :=
        List.any_eq_false.2 fun i hi => Bool.eq_false_iff.1 (hgate i (List.mem_range.1 hi))
      refine (if_neg (Bool.eq_false_iff.1 hmisfit)).trans ?_
      simp only [dst, size, stride] at hstores
      rcases halley with h0 | ⟨z, hz, hsome⟩
      · simp only [h0, hvec, hstores]
        rfl
      · by_cases h0 : c.rt.sVal (a + 3) = 0
        · simp only [h0, hvec, hstores]
          rfl
        · simp only [beq_iff_eq, h0, if_false, hz, hsome, hvec, hstores]
          rfl
    case attc =>
      refine holds_of h rfl ((tile_eq hwhole hact).trans ((if_neg ?_).trans ((if_neg ?_).trans ((if_neg ?_).trans
        (withSlots_eq hslots)))))
      · simp only [geo, dim] at hgeo hdim
        simp only [Bool.or_eq_true, Bool.and_eq_true, decide_eq_true_eq, beq_iff_eq]
        omega
      · simpa [stats] using harea
      · simpa [stats] using hal

end Sys2Proof.Machine
end

section
/-! ## Key-value lists and attention -/

namespace Sys2Proof.Machine

section

variable {i : Instr} {s s1 : State} {c : Ctx} {ps : List ListPart} {raw : List Byte} {va : Nat} {write : Bool}

/-- An instruction whose list can be read goes on with its bytes. -/
theorem withList_eq {use : ListUse} (h : ListReads s c write va s1 ps raw) : withList write va use s c = use s1 ps raw := by
  obtain ⟨s0, gets, hal, hsys, hgated, hparts, hrel, hbusy, hlock, hread⟩ := h
  have hmis : (va % 64 != 0) = false := by simp [hal]
  have hwait : (write && !s.released c.t c.scope c.ord) = false := by
    cases write with
    | false => rfl
    | true => simp [hrel rfl]
  have hany : (ps.any fun p => s0.engBusy (Eng.ofTer c.t c.sp.supervisor s0.fresh) true p.q.ph.pa p.len) = false :=
    List.any_eq_false.2 fun p hp => Bool.eq_false_iff.1 (hbusy p hp)
  unfold withList
  simp only [hmis, sysScope_free hsys, hgated, hparts, hwait, hany, hlock, hread, Bool.false_and, Bool.false_eq_true, if_false]

/-- KVAP and KVTR of an undivided terrace with an active lane, once the list is read. -/
theorem kvUpdate_eq {d : Dst} {f : List Byte → Nat × Option (List Byte)} (hwhole : c.t.divided = false) (hact : c.active ≠ 0)
    (hreads : ListReads s c true va s1 ps raw) : kvUpdate d va f s c =
      match (f raw).2 with
      | some new => s1.exchange c va ps raw new fun s => .done (s.give c d [BitVec.ofNat 32 (f raw).1]) none
      | none => .done (s1.give c d [BitVec.ofNat 32 (f raw).1]) none :=
  (if_neg (Bool.eq_false_iff.1 hwhole)).trans ((if_neg (mt beq_iff_eq.1 hact)).trans (withList_eq hreads))

theorem kvUpdate_idle {d : Dst} {f : List Byte → Nat × Option (List Byte)} (hwhole : c.t.divided = false) (h0 : c.active = 0) :
    kvUpdate d va f s c = .done s none :=
  (if_neg (Bool.eq_false_iff.1 hwhole)).trans (if_pos (beq_iff_eq.2 h0))

/-- A list that stands on this module is written at once. -/
theorem exchange_here {old new : List Byte} {fin : State → Res} (h : ∀ p ∈ ps, p.away = false) :
    s.exchange c va ps old new fin = fin (s.putList c ps new) := by
  have hnone : ps.find? ListPart.away = none := List.find?_eq_none.2 fun p hp => Bool.eq_false_iff.1 (h p hp)
  unfold State.exchange
  simp only [hnone]

/-- The bytes that an exchange compares at its part outside the module. -/
def ListPart.slice (p : ListPart) (bs : List Byte) : Nat := bytesNat ((bs.drop p.off).take p.len)

/-- The request of an exchange. -/
def State.askExchange (s : State) (c : Ctx) (va : Nat) (ps : List ListPart) (old new : List Byte) (p : ListPart) : State × Nat :=
  if (wholeAway ps).isSome then s.askFor (.core c.t.core) c.t.vf c.t.launch va 832 p.q.ph (.list (s.listSegs ps) old new) true
  else s.askFor (.core c.t.core) c.t.vf c.t.launch (va + p.off) p.len p.q.ph (.cas [(p.slice old, p.slice new)]) true

theorem exchange_asks {old new : List Byte} {fin : State → Res} {p : ListPart} (hp : ps.find? ListPart.away = some p)
    (hkept : ∀ tag, c.sp.kept ≠ some (2, tag)) : s.exchange c va ps old new fin =
      .wait (((s.askExchange c va ps old new p).1.updSplit c.uid c.sid fun z =>
        { z with kept := some (2, (s.askExchange c va ps old new p).2) }).holdList c ps)
        (.outside (s.askExchange c va ps old new p).2) := by
  unfold State.exchange State.askExchange
  by_cases hw : (wholeAway ps).isSome = true
  · simp only [hp, hw, if_true]
  · simp only [hp, hw, if_false, Bool.false_eq_true]
    rfl

theorem exchange_again {old new : List Byte} {fin : State → Res} {p : ListPart} {s2 : State} {tag v : Nat}
    (hp : ps.find? ListPart.away = some p) (hkept : c.sp.kept = some (2, tag)) (hans : s.takeAnswer tag = some (s2, .val v))
    (hne : v ≠ if (wholeAway ps).isSome then bytesNat old else p.slice old) : s.exchange c va ps old new fin =
      .wait (s2.updSplit c.uid c.sid fun z => { z with kept := none, gets := [] }) (.cycle (c.now + 1)) := by
  unfold State.exchange
  simp only [hp]
  split
  next tag' hk =>
    obtain rfl : tag = tag' := by simpa using hkept.symm.trans hk
    simp only [hans]
    exact if_neg (by rw [beq_iff_eq]; exact hne)
  next hk => exact absurd hkept (hk tag)

/-! ### The job of an ATTN -/

theorem State.jobs_claimSlots (s : State) (c : Ctx) (ns : List Nat) (opc : Nat) (saved : List Nat) (ha hb : Option Nat) :
    (s.claimSlots c ns opc saved ha hb).jobs = s.jobs := by
  unfold State.claimSlots
  refine List.foldlRecOn ns _ (motive := fun t : State => t.jobs = s.jobs) rfl fun t ht n _ => ?_
  split
  · exact ht
  · exact ht

theorem State.jobs_acquire (s : State) (t : Terrace) (sc : Nat) : (s.acquire t sc).jobs = s.jobs := by
  unfold State.acquire State.dropUntracked
  split
  · rfl
  · split
    · rfl
    · rfl

theorem State.jobs_freeList (s : State) (c : Ctx) : (s.freeList c).jobs = s.jobs := by
  unfold State.freeList
  split
  · rfl
  · rfl

/-- An ATTN whose list can be used starts its job, with one card for each group of four chunks. -/
theorem attnStart_holds {f : AttnForm} {l : KvList} (hparse : parseKv raw = some l)
    (hstride : ∀ e ∈ l.exts, 64 * (f.nk + f.nv) ≤ e.stride) : ∃ s2, attnStart f s c raw = .hold s2 .tile
      ∧ ∃ j : Job, s2.jobs = s.jobs ++ [j] ∧ (j.uid, j.sid, j.e) = (c.uid, c.sid, l.e)
        ∧ j.cards.map (·.card) = List.range ((f.chunks + 3) / 4) := by
  have hshort : (l.exts.any fun x => decide (x.stride < 64 * (f.nk + f.nv))) = false :=
    List.any_eq_false.2 fun e he => by simpa using hstride e he
  unfold attnStart
  simp only [hparse, hshort]
  have hjobs : ((s.acquire c.t c.scope).claimSlots c f.slots opcAttn [] none none).jobs = s.jobs := by
    rw [State.jobs_claimSlots, State.jobs_acquire]
  exact ⟨_, rfl, _, congrArg (· ++ _) hjobs, rfl, by simp [State.dealCards, Function.comp_def]⟩

end

/-- Settles O48. -/
theorem listsAndAttention : Obligations.ListsAndAttention := by
  intro s c d n a b q dim chunks lc kw vw fold causal x s1 ps raw kvap kvtr kvrd attn va f area put slice whole exchanges append cut
  have hputs : ∀ {i : Instr} {body : State → Ctx → Res} (g : List Byte → Nat × Option (List Byte)), s.Issues i c →
      exec i s = issue i body s → body s c = kvUpdate d va g s c → c.t.divided = false → c.active ≠ 0 → ListReads s c true va s1 ps raw → (∀ p ∈ ps, p.away = false) →
      Ends i s c (put s1 (g raw)) := by
    intro i body g h hx hb hwhole hact hreads hhere
    refine ends_of h hx ⟨none, (hb.trans (kvUpdate_eq hwhole hact hreads)).trans ?_⟩
    simp only [put]
    cases (g raw).2 with
    | some new => exact exchange_here hhere
    | none => rfl
  have hexchanges : ∀ {i : Instr} {body : State → Ctx → Res} (g : List Byte → Nat × Option (List Byte)) {new : List Byte},
      s.Issues i c → exec i s = issue i body s → body s c = kvUpdate d va g s c → c.t.divided = false → c.active ≠ 0 →
      ListReads s c true va s1 ps raw → (g raw).2 = some new → exchanges i new := by
    intro i body g new h hx hb hwhole hact hreads hnew p hp
    have hbody := hb.trans (kvUpdate_eq (d := d) (f := g) hwhole hact hreads)
    simp only [hnew] at hbody
    exact ⟨fun hkept => waits_of h hx (hbody.trans (exchange_asks hp hkept)),
      fun tag s2 v hkept hans hne => waits_of h hx (hbody.trans (exchange_again hp hkept hans hne))⟩
  let ups := fun bs => kvAppend bs (c.src64 (.s b) 0) (c.rt.sget (b + 2)).toNat (c.rt.sget (b + 3)).toNat
  let cuts := fun bs => kvTruncate bs (c.src64 (.s b) 0)
  refine ⟨?idle, fun hwhole hact hreads => ⟨fun hhere => ⟨fun h => ?append, fun h => ?cut⟩, fun new h hnew => ?appendAway,
    fun new h hnew => ?cutAway⟩, fun h h0 => ?readIdle, fun o h hact ho hreads => ?read, fun h hact hbig => ?readTraps, ?attn⟩
  case idle =>
    intro i hi h hwhole h0
    simp only [List.mem_cons, List.not_mem_nil, or_false] at hi
    rcases hi with rfl | rfl
    · exact completes_of h rfl ⟨none, kvUpdate_idle hwhole h0⟩
    · exact completes_of h rfl ⟨none, kvUpdate_idle hwhole h0⟩
  case append => exact hputs ups h rfl rfl hwhole hact hreads hhere
  case cut => exact hputs cuts h rfl rfl hwhole hact hreads hhere
  case appendAway => exact hexchanges ups h rfl rfl hwhole hact hreads hnew
  case cutAway => exact hexchanges cuts h rfl rfl hwhole hact hreads hnew
  case readIdle => exact completes_of h rfl ⟨none, if_pos (beq_iff_eq.2 h0)⟩
  case read =>
    refine ends_of h rfl ⟨none, (if_neg (mt beq_iff_eq.1 hact)).trans ?_⟩
    simp only [ho]
    exact withList_eq hreads
  case readTraps =>
    have hnone : kvOffset (c.uni x) = none := by
      unfold kvOffset
      rw [if_neg (by omega), if_neg (by simpa using by omega), if_neg (by omega)]
    refine traps_of h rfl ⟨false, (if_neg (mt beq_iff_eq.1 hact)).trans ?_⟩
    simp only [hnone]
    rfl
  case attn =>
    intro l h hwhole hact hfold hgang hbase hstride harea hwindow hslots hreads hparse hexts
    obtain ⟨s2, hstart, hjob⟩ := attnStart_holds (s := s1.freeList c) (c := c) (f := f) hparse hexts
    rw [State.jobs_freeList] at hjob
    refine ⟨s2, holds_of h rfl ((tile_eq hwhole hact).trans ((if_neg ?_).trans ((if_neg ?_).trans ((withSlots_eq hslots).trans
      ((withList_eq hreads).trans hstart))))), hjob⟩
    · have hnarrow : (fold && decide (128 < dim) && n == 3) = false := by
        rcases hfold with rfl | hdim | hn
        · rfl
        · simp [Nat.not_lt.2 hdim]
        · simp [hn]
      simp only [area] at harea
      simp only [hnarrow, hbase, hstride, harea, Bool.false_or]
      cases hg : c.t.gang.bind s.gang? with
      | none => simp
      | some g => simp [hgang g hg]
    · simpa [area, f] using hwindow

end Sys2Proof.Machine
end

section
/-! ## System instructions, ELOG and LAUNCH -/

namespace Sys2Proof.Machine

section

variable {s : State} {c : Ctx}

/-- The write of SY_XREQ in a handler goes on to its meaning. -/
theorem exec_xreq {a : Src} (h : s.Issues (.syXreqWrite a) c) (hf : c.sp.frame.isSome = true) (ha : c.uniAll a < 2) :
    exec (.syXreqWrite a) s = .next (s.finish c
      (if c.active == 0 then .done s none else .done (s.earlyCross (c.t.domain (c.uniAll a))) none)) := by
  change execSyXreqWrite a s = _
  rw [execSyXreqWrite, issueWith_eq h (if_pos hf), if_neg (Nat.not_le.2 ha)]

/-- A SHOOT of a valid range in a handler, before its purge and after it. -/
theorem exec_shoot {n lo hi : Nat} {b : Src} (h : s.Issues (.shoot n b) c) (hf : c.sp.frame.isSome = true)
    (hlo : lo = c.base (.s n) ((lowLane c.active).getD 0)) (hhi : hi = lo + c.uniAll b * 65536) (hal : lo % 65536 = 0)
    (hsome : 1 ≤ c.uniAll b) (hmax : c.uniAll b ≤ 2 ^ 24) (hend : hi ≤ 2 ^ 48) (hwhole : c.t.divided = false) :
    (c.sp.kept = none → s.released c.t 4 c.ord = true → exec (.shoot n b) s = .next (s.finish c (
      if (s.shootArrive c).shootTurn != some (c.uid, c.sid) then .wait (s.shootArrive c) .turn
      else .wait (((s.shootArrive c).purge c.t.vf fun va => lo ≤ va && va < hi).keep c 1 (s.shootArrive c).fresh)
        (.shot c.t.vf lo hi (s.shootArrive c).fresh))))
    ∧ (∀ m, c.sp.kept = some (1, m) → exec (.shoot n b) s = .next (s.finish c (
      if s.shotOver c.t.vf lo hi m then .done { s with shoots := s.shoots.filter fun x => x != (c.uid, c.sid) } none
      else .wait s (.shot c.t.vf lo hi m)))) := by
  subst hhi hlo
  have hmisfit : ¬ (c.base (.s n) ((lowLane c.active).getD 0) % 65536 != 0 || c.uniAll b == 0 || decide (2 ^ 24 < c.uniAll b)
      || decide (2 ^ 48 < c.base (.s n) ((lowLane c.active).getD 0) + c.uniAll b * 65536) || c.t.divided) = true := by
    rw [hal, hwhole, decide_eq_false (Nat.not_lt.2 hmax), decide_eq_false (Nat.not_lt.2 hend),
      beq_eq_false_iff_ne.2 (Nat.one_le_iff_ne_zero.1 hsome)]
    decide
  have hexec : execShoot n b s = _ := issueWith_eq h (if_pos hf)
  rw [if_neg hmisfit] at hexec
  refine ⟨fun hkept hrel => ?_, fun m hkept => ?_⟩
  · change execShoot n b s = _
    rw [hexec]
    split
    next m hm => exact absurd (hkept.symm.trans hm) nofun
    next => rw [hrel]; rfl
  · change execShoot n b s = _
    rw [hexec]
    split
    next m' hm =>
      obtain rfl : m = m' := by simpa using hkept.symm.trans hm
      rfl
    next hm => exact absurd hkept (hm m)

end

/-- Settles O49. -/
theorem systemInstructions : Obligations.SystemInstructions := by
  intro s c d a b n m xreq shoot part lo hi whole parted parent s0 acc come sub addr log
  refine ⟨fun h hf ha hact => ?cross, fun h hf ha h0 => ?crossIdle, fun h hf hw hkept hrel => ?shoot, fun h hf hw hkept hover => ?shot,
    fun h hf hmgr hwhole => ?part, fun h h0 => completes_of h rfl ⟨none, if_pos (beq_iff_eq.2 h0)⟩, fun h hact hserv => ?elog,
    fun h h0 => completes_of h rfl ⟨none, if_pos (beq_iff_eq.2 h0)⟩, fun h hact hrel => ?launch⟩
  case cross =>
    refine ⟨none, (exec_xreq h hf ha).trans ?_⟩
    rw [if_neg (mt beq_iff_eq.1 hact)]
  case crossIdle =>
    refine ⟨_, (exec_xreq h hf ha).trans ?_, State.passes_none none h⟩
    rw [if_pos (beq_iff_eq.2 h0)]
  case shoot =>
    obtain ⟨hal, hsome, hmax, hend, hwhole⟩ := hw
    have hexec := (exec_shoot h hf rfl rfl hal hsome hmax hend hwhole).1 hkept hrel
    refine ⟨fun hturn => hexec.trans ?_, fun hturn => hexec.trans ?_⟩
    · rw [if_neg (by simpa using hturn)]
    · rw [if_pos (bne_iff_ne.2 hturn)]
  case shot =>
    obtain ⟨hal, hsome, hmax, hend, hwhole⟩ := hw
    refine ⟨none, ((exec_shoot h hf rfl rfl hal hsome hmax hend hwhole).2 m hkept).trans ?_⟩
    rw [if_pos hover]
  case part =>
    refine ⟨none, ?_⟩
    have hown : (if (c.sp.supervisor && s.manager c.t.vf) = true then none else some (forbidden c)) = none :=
      if_pos (Bool.and_eq_true_iff.2 ⟨hf, hmgr⟩)
    change execPart d a b s = _
    rw [execPart, issueWith_eq h hown, if_neg (Bool.eq_false_iff.1 hwhole)]
    rfl
  case elog =>
    refine ends_of h rfl ⟨none, (if_neg (mt beq_iff_eq.1 hact)).trans ?_⟩
    simp only [hserv]
    rfl
  case launch =>
    have hnot : ¬ (!s.released c.t 6 c.ord) = true := by simp [hrel]
    refine ⟨fun st hst => ends_of h rfl ⟨none, (if_neg (mt beq_iff_eq.1 hact)).trans ((if_neg hnot).trans ?_)⟩,
      fun hst => waits_of h rfl ((if_neg (mt beq_iff_eq.1 hact)).trans ((if_neg hnot).trans ?_))⟩
    · simp only [acc, s0, parent] at hst ⊢
      simp only [beq_iff_eq]
      split
      next s1 st' heq =>
        rw [heq] at hst ⊢
        obtain rfl := Option.some.inj hst
        rfl
      next s1 heq => exact absurd (hst.symm.trans (congrArg Prod.snd heq)) nofun
    · simp only [acc, s0, parent] at hst ⊢
      simp only [beq_iff_eq]
      split
      next s1 st' heq => exact absurd (hst.symm.trans (congrArg Prod.snd heq)) nofun
      next s1 heq => rw [heq]

end Sys2Proof.Machine
end

section
/-! ## Counters -/

namespace Sys2Proof.Machine

/-! ### What requests out of the module leave of the open accesses -/

theorem State.accs_emit (s : State) (e : Outgoing) : (s.emit e).accs = s.accs := by
  unfold State.emit
  cases e.cause with
  | some x => simp
  | none => rfl

theorem State.accs_crossFab (s : State) (die : Nat) (cause : Option (Nat × Nat)) (f : FabFlit) :
    (s.crossFab die cause f).accs = s.accs := by
  unfold State.crossFab
  split
  · rfl
  · split
    · exact s.accs_emit _
    · rfl
    · rfl

theorem State.accs_noRoute (s : State) (die : Nat) (f : FabFlit) : (s.noRoute die f).accs = s.accs := by
  unfold State.noRoute
  dsimp only
  split
  · exact State.accs_crossFab _ _ _ _
  · rfl

theorem State.accs_sendFab (s : State) (die : Nat) (cause : Option (Nat × Nat)) (f : FabFlit) :
    (s.sendFab die cause f).accs = s.accs := by
  unfold State.sendFab
  split
  · exact s.accs_crossFab _ _ _
  · exact s.accs_noRoute _ _

theorem State.accs_sendOut (s : State) (by_ : Sender) (vf tag va pa n : Nat) (o : Owner) (op : OutOp) :
    (s.sendOut by_ vf tag va pa n o op).accs = s.accs := by
  unfold State.sendOut
  cases o with
  | host => cases op <;> rfl
  | peer i j d => exact s.accs_sendFab _ _ _
  | die d => rfl
  | bad => rfl

theorem State.sendLanes_spec (by_ : Sender) (vf ety : Nat) (k : AccKind) (n : Nat) (s : State) (rs done : List Req) :
    (s.sendLanes by_ vf ety k n rs done).1.accs = s.accs
    ∧ (rs.length ≤ n → (s.sendLanes by_ vf ety k n rs done).2.length = done.length + rs.length) := by
  induction n generalizing s rs done with
  | zero =>
    refine ⟨rfl, fun h => ?_⟩
    obtain rfl := List.length_eq_zero_iff.1 (Nat.le_zero.1 h)
    rfl
  | succ n ih =>
    cases rs with
    | nil => exact ⟨rfl, fun _ => rfl⟩
    | cons r rest =>
      have hlen : done.length + (rest.length + 1) = (done ++ [r]).length + rest.length := by
        rw [List.length_append, List.length_singleton]; omega
      have hskip := ih s rest (done ++ [r])
      unfold State.sendLanes
      split
      next => exact ⟨hskip.1, fun h => (hskip.2 (Nat.le_of_succ_le_succ h)).trans hlen.symm⟩
      next =>
        split
        next => exact ⟨hskip.1, fun h => (hskip.2 (Nat.le_of_succ_le_succ h)).trans hlen.symm⟩
        next ph _ =>
          dsimp only
          refine ⟨(ih _ _ _).1.trans (State.accs_sendOut _ _ _ _ _ _ _ _ _), fun h => ((ih _ _ _).2 ?_).trans ?_⟩
          · simpa using h
          · simp only [List.length_map, List.length_append, List.length_cons, List.length_nil]
            omega

theorem State.sendAll_accs (s : State) (by_ : Sender) (vf ety : Nat) (k : AccKind) (rs : List Req) :
    (s.sendAll by_ vf ety k rs).1.accs = s.accs := (State.sendLanes_spec by_ vf ety k rs.length s rs []).1

theorem State.sendAll_length (s : State) (by_ : Sender) (vf ety : Nat) (k : AccKind) (rs : List Req) :
    (s.sendAll by_ vf ety k rs).2.length = rs.length :=
  ((State.sendLanes_spec by_ vf ety k rs.length s rs []).2 (Nat.le_refl _)).trans (Nat.zero_add _)

/-- The accesses that are open once a memory form's is registered: one more where a request of it is left. -/
theorem MemForm.accs_opened {f : MemForm} {x : Lanes32} {c : Ctx} {l : Nat} {errs : List (Nat × Nat × Nat)} :
    (x.reqs ++ x.out = [] → (f.opened x c l true errs).accs = x.s.accs)
    ∧ (x.reqs ++ x.out ≠ [] → ∃ a : Access, a.id = (f.sent x c).1.fresh ∧ (f.opened x c l true errs).accs = x.s.accs ++ [a]) := by
  have hempty : (x.reqs ++ (f.sent x c).2).isEmpty = (x.reqs ++ x.out).isEmpty := by
    have hlen := x.s.sendAll_length (.core c.t.core) c.t.vf c.ty f.kind x.out
    rw [Bool.eq_iff_iff, List.isEmpty_iff_length_eq_zero, List.isEmpty_iff_length_eq_zero, List.length_append, List.length_append]
    unfold MemForm.sent
    rw [hlen]
  have haccs : (f.sent x c).1.accs = x.s.accs := x.s.sendAll_accs _ _ _ _ _
  unfold MemForm.opened State.openAccess
  simp only [hempty, State.updTer_accs]
  refine ⟨fun h => ?_, fun h => ?_⟩
  · rw [if_pos (List.isEmpty_iff.2 h)]
    exact haccs
  · rw [if_neg (mt List.isEmpty_iff.1 h)]
    exact ⟨_, rfl, congrArg (· ++ _) haccs⟩

/-- Settles O50. -/
theorem counterInstructions : Obligations.CounterInstructions := by
  intro s c d a k n x w old new cfg va place img sv ld
  refine ⟨fun h hw h0 => ?cfgIdle, fun h hw hact => ?cfg, fun h hw => ?cfgTraps, fun h hact hcheck hbusy => ?sv,
    fun h hact hkept hcheck hbusy => ?ld, fun cs h hwhole hact hkept hnone hcs => ?ldEnds, fun i hi h => ?both, fun h => ?wswitch⟩
  case cfgIdle =>
    have hok : ¬ (!cfgWritable w) = true := by simp [hw]
    exact completes_of h rfl ⟨none, (if_neg hok).trans (if_pos (beq_iff_eq.2 h0))⟩
  case cfg =>
    have hok : ¬ (!cfgWritable w) = true := by simp [hw]
    have hnew : (if cfgEvent w == cfgEvent old.config then old.value else 0) = (if cfgEvent w = cfgEvent old.config then old.value else 0) :=
      ite_congr (propext beq_iff_eq) (fun _ => rfl) fun _ => rfl
    refine jumps_of h rfl ((if_neg hok).trans ((if_neg (mt beq_iff_eq.1 hact)).trans ?_))
    simp only [old, w] at hnew
    simp only [hnew]
    rfl
  case cfgTraps => exact traps_of h rfl ⟨false, if_pos (by rw [hw]; rfl)⟩
  case sv =>
    intro c0 y hstay hfaults hroom haccs s2
    have hwhole : ¬ c.t.divided = true := fun hd => by simp [imageCheck, hd] at hcheck
    have hop : sv.op s c0 = .done s2 none :=
      MemForm.op_runs (l := 0) (r := [1, 2, 3, 4, 5, 6, 7]) rfl hbusy hstay hfaults hroom
    obtain ⟨hsame, hmore⟩ := MemForm.accs_opened (f := sv) (x := y) (c := c0) (l := 0) (errs := [])
    refine ⟨fun hsome => holds_of h rfl ?svHolds, fun hnone => ends_of h rfl ⟨none, ?svEnds⟩⟩
    case svHolds =>
      obtain ⟨a, hid, hlist⟩ := hmore hsome
      rw [haccs] at hlist
      refine (if_neg hwhole).trans ((if_neg (mt beq_iff_eq.1 hact)).trans ?_)
      simp only [va] at hcheck
      simp only [hcheck]
      split
      next s2' v heq =>
        obtain ⟨rfl, rfl⟩ : s2' = s2 ∧ v = none := by simpa using heq.symm.trans hop
        rw [if_pos (by rw [hlist, List.length_append]; exact Nat.lt_succ_self _), hlist]
        simp [hid]
      next heq => exact absurd (heq.symm.trans hop) nofun
      next hne _ => exact absurd hop (hne _ _)
    case svEnds =>
      refine (if_neg hwhole).trans ((if_neg (mt beq_iff_eq.1 hact)).trans ?_)
      simp only [va] at hcheck
      simp only [hcheck]
      split
      next s2' v heq =>
        obtain ⟨rfl, rfl⟩ : s2' = s2 ∧ v = none := by simpa using heq.symm.trans hop
        exact if_neg (by rw [hsame hnone, haccs]; exact Nat.lt_irrefl _)
      next heq => exact absurd (heq.symm.trans hop) nofun
      next hne _ => exact absurd hop (hne _ _)
  case ld =>
    intro y hstay hfaults hroom s2
    have hwhole : ¬ c.t.divided = true := fun hd => by simp [imageCheck, hd] at hcheck
    have hop : ld.op s c = .done s2 none :=
      MemForm.op_runs (l := 0) (r := [1, 2, 3, 4, 5, 6, 7]) rfl hbusy hstay hfaults hroom
    refine waits_of h rfl ((if_neg hwhole).trans ((if_neg (mt beq_iff_eq.1 hact)).trans ?_))
    simp only [va] at hcheck
    split
    next hx => exact absurd (hkept.symm.trans hx) nofun
    next hx => exact absurd (hkept.symm.trans hx) nofun
    next =>
      simp only [hcheck]
      split
      next s2' v heq =>
        obtain ⟨rfl, -⟩ : s2' = s2 ∧ v = none := by simpa using heq.symm.trans hop
        rfl
      next heq => exact absurd (heq.symm.trans hop) nofun
      next heq => exact absurd (heq.symm.trans hop) nofun
      next hne _ _ => exact absurd hop (hne _ _)
  case ldEnds =>
    have hopen : (s.accs.any fun a => a.ter == c.uid && a.sid == c.sid && a.kind == .image) = false := by
      refine List.any_eq_false.2 fun e he => ?_
      simpa only [Bool.and_eq_true, beq_iff_eq, and_assoc] using hnone e he
    refine jumps_of h rfl ((if_neg (Bool.eq_false_iff.1 hwhole)).trans ((if_neg (mt beq_iff_eq.1 hact)).trans ?_))
    split
    next x' hx =>
      obtain rfl : x = x' := by simpa using hkept.symm.trans hx
      rw [hopen, hcs]
      rfl
    next hx => exact absurd (hkept.symm.trans hx) (by simp)
    next hx _ => exact absurd hkept (hx x)
  case both =>
    simp only [List.mem_cons, List.not_mem_nil, or_false] at hi
    rcases hi with rfl | rfl
    · exact ⟨fun hwhole h0 => completes_of h rfl ⟨none, (if_neg (Bool.eq_false_iff.1 hwhole)).trans (if_pos (beq_iff_eq.2 h0))⟩,
        fun hdiv => traps_of h rfl ⟨false, if_pos hdiv⟩⟩
    · exact ⟨fun hwhole h0 => completes_of h rfl ⟨none, (if_neg (Bool.eq_false_iff.1 hwhole)).trans (if_pos (beq_iff_eq.2 h0))⟩,
        fun hdiv => traps_of h rfl ⟨false, if_pos hdiv⟩⟩
  case wswitch => exact jumps_of h rfl rfl

end Sys2Proof.Machine
end

section
/-! ## Bounded counters -/

namespace Sys2Proof.Machine

section

variable {s s1 : State} {c : Ctx} {d : Dst} {a : Nat} {b : Src} {ph : Phys}

theorem BCounter.upd_absent {b : BCounter} {core : Nat} {f : BcHolder → BcHolder} (h : b.holder? core = none) :
    b.upd core f = b := by
  have hids : (b.holders.map fun h => if h.core = core then f h else h) = b.holders := by
    refine (List.map_congr_left fun x hx => if_neg fun he => ?_).trans (List.map_id _)
    exact List.find?_eq_none.1 h x hx (beq_iff_eq.2 he)
  unfold BCounter.upd
  rw [hids]

/-- What a new BCGIVE does once its record's page has passed. -/
def bcGiveAt (d : Dst) (n : Nat) (s : State) (c : Ctx) (va : Nat) : Res :=
  if n == 0 then bcDone d 0 s c
  else
    match s.bc? c.t.vf va with
    | none => bcDone d 2 s c
    | some k =>
      let h := (k.holder? c.t.core).getD ⟨c.t.core, false, 0, false, 0⟩
      if h.open && h.allow + n < 2 ^ 32 then
        bcLocal { s.setBc (k.upd c.t.core fun h => { h with allow := h.allow + n, used := s.fresh }) with fresh := s.fresh + 1 } c
      else if 2 ^ 63 ≤ k.pool + n then bcDone d 1 s c
      else bcDone d 0 (s.setBc (k.give n)) c

section

variable {va n : Nat} {try_ : Bool} {k : BCounter} {x : BcHolder}

theorem bcTake_none (hn : n ≠ 0) (h : s.bc? c.t.vf va = none) : bcTake d n try_ s c va ph = bcDone d 2 s c := by
  rw [bcTake, if_neg (mt beq_iff_eq.1 hn)]
  simp only [h]

/-- A take that the core's open allowance covers is made there. -/
theorem bcTake_here (hn : n ≠ 0) (h : s.bc? c.t.vf va = some k) (hx : k.holder? c.t.core = some x) (hopen : x.open = true)
    (hle : n ≤ x.allow) : bcTake d n try_ s c va ph =
      bcLocal { s.setBc (k.upd c.t.core fun h => { h with allow := h.allow - n, used := s.fresh }) with fresh := s.fresh + 1 } c := by
  rw [bcTake, if_neg (mt beq_iff_eq.1 hn)]
  simp only [h, hx, Option.getD_some]
  exact if_pos (Bool.and_eq_true_iff.2 ⟨hopen, decide_eq_true hle⟩)

/-- Another goes to the home, with what the allowance held. -/
theorem bcTake_away (hn : n ≠ 0) (h : s.bc? c.t.vf va = some k)
    (hx : ∀ x, k.holder? c.t.core = some x → x.open = false ∨ x.allow < n) : bcTake d n try_ s c va ph =
      .wait (s.setBc { (k.upd c.t.core fun h => { h with allow := 0 }) with
        trigs := k.trigs ++ [.take ⟨c.uid, c.t.core, n, try_⟩ ((k.holder? c.t.core).map (·.allow) |>.getD 0)] }) .counter := by
  rw [bcTake, if_neg (mt beq_iff_eq.1 hn)]
  simp only [h]
  cases hh : k.holder? c.t.core with
  | none => rfl
  | some x =>
    refine if_neg fun hin => ?_
    obtain ⟨hopen, hle⟩ := Bool.and_eq_true_iff.1 hin
    exact (hx x hh).elim (fun hclosed => absurd hopen (by simp [hclosed])) (Nat.not_lt.2 (of_decide_eq_true hle))

theorem bcGiveAt_zero : bcGiveAt d 0 s c va = bcDone d 0 s c := rfl

theorem bcGiveAt_none (hn : n ≠ 0) (h : s.bc? c.t.vf va = none) : bcGiveAt d n s c va = bcDone d 2 s c := by
  rw [bcGiveAt, if_neg (mt beq_iff_eq.1 hn)]
  simp only [h]

/-- A give that the core's open allowance has room for is made there. -/
theorem bcGiveAt_here (hn : n ≠ 0) (h : s.bc? c.t.vf va = some k) (hx : k.holder? c.t.core = some x) (hopen : x.open = true)
    (hle : x.allow + n < 2 ^ 32) : bcGiveAt d n s c va =
      bcLocal { s.setBc (k.upd c.t.core fun h => { h with allow := h.allow + n, used := s.fresh }) with fresh := s.fresh + 1 } c := by
  rw [bcGiveAt, if_neg (mt beq_iff_eq.1 hn)]
  simp only [h, hx, Option.getD_some]
  exact if_pos (Bool.and_eq_true_iff.2 ⟨hopen, decide_eq_true hle⟩)

/-- Another goes to the pool, where it has room. -/
theorem bcGiveAt_away (hn : n ≠ 0) (h : s.bc? c.t.vf va = some k)
    (hx : ∀ x, k.holder? c.t.core = some x → x.open = false ∨ 2 ^ 32 ≤ x.allow + n) : bcGiveAt d n s c va =
      if 2 ^ 63 ≤ k.pool + n then bcDone d 1 s c else bcDone d 0 (s.setBc (k.give n)) c := by
  rw [bcGiveAt, if_neg (mt beq_iff_eq.1 hn)]
  simp only [h]
  cases hh : k.holder? c.t.core with
  | none => rfl
  | some x =>
    refine if_neg fun hin => ?_
    obtain ⟨hopen, hle⟩ := Bool.and_eq_true_iff.1 hin
    exact (hx x hh).elim (fun hclosed => absurd hopen (by simp [hclosed])) (Nat.not_le.2 (of_decide_eq_true hle))

end

/-- What BCINIT does once its record's page has passed and its line is read: `s` is the machine then. -/
def bcInitAt (d : Dst) (asid n die : Nat) (s : State) (c : Ctx) (va : Nat) (p : Phys) : Res :=
  let bs := s.rdBytes p.pa 64
  let nh := fieldOf bs 0 1
  let slice := indexHash asid va % 96
  let live := s.bc? c.t.vf va
  if 1 ≤ nh && !s.bcListOk c.t.vf die bs then bcDone d 3 s c
  else if live.isNone && 32 ≤ (s.sliceCounters die slice).length then bcDone d 4 s c
  else
    match live with
    | some b =>
      if nh == 0 then bcDone d 2 (s.bcClose b) c
      else bcDone d 1 ((s.bcClose b).bcCreate c.t.vf va p die slice n (bcHolders bs)) c
    | none => if nh == 0 then bcDone d 0 s c else bcDone d 0 (s.bcCreate c.t.vf va p die slice n (bcHolders bs)) c

section

variable {asid n die va : Nat}

theorem bcInitAt_bad (hnh : fieldOf (s.rdBytes ph.pa 64) 0 1 ≠ 0) (hbad : s.bcListOk c.t.vf die (s.rdBytes ph.pa 64) = false) :
    bcInitAt d asid n die s c va ph = bcDone d 3 s c := by
  have hrefused : (decide (1 ≤ fieldOf (s.rdBytes ph.pa 64) 0 1) && !s.bcListOk c.t.vf die (s.rdBytes ph.pa 64)) = true := by
    rw [hbad, decide_eq_true (Nat.one_le_iff_ne_zero.2 hnh)]
    rfl
  exact if_pos hrefused

/-- BCINIT of a record whose holder list is empty or valid. -/
theorem bcInitAt_good (hok : fieldOf (s.rdBytes ph.pa 64) 0 1 = 0 ∨ s.bcListOk c.t.vf die (s.rdBytes ph.pa 64) = true) :
    bcInitAt d asid n die s c va ph =
      match s.bc? c.t.vf va with
      | some b =>
        if fieldOf (s.rdBytes ph.pa 64) 0 1 = 0 then bcDone d 2 (s.bcClose b) c
        else bcDone d 1 ((s.bcClose b).bcCreate c.t.vf va ph die (indexHash asid va % 96) n (bcHolders (s.rdBytes ph.pa 64))) c
      | none =>
        if 32 ≤ (s.sliceCounters die (indexHash asid va % 96)).length then bcDone d 4 s c
        else if fieldOf (s.rdBytes ph.pa 64) 0 1 = 0 then bcDone d 0 s c
        else bcDone d 0 (s.bcCreate c.t.vf va ph die (indexHash asid va % 96) n (bcHolders (s.rdBytes ph.pa 64))) c := by
  have hpass : ¬ (decide (1 ≤ fieldOf (s.rdBytes ph.pa 64) 0 1) && !s.bcListOk c.t.vf die (s.rdBytes ph.pa 64)) = true := by
    rw [Bool.and_eq_true, decide_eq_true_eq, Bool.not_eq_true']
    rintro ⟨hnh, hbad⟩
    exact hok.elim (Nat.one_le_iff_ne_zero.1 hnh) fun ht => by simp [ht] at hbad
  refine (if_neg hpass).trans ?_
  cases s.bc? c.t.vf va with
  | some b => exact (if_neg Bool.false_ne_true).trans (ite_congr (propext beq_iff_eq) (fun _ => rfl) fun _ => rfl)
  | none =>
    refine ite_congr (propext ?_) (fun _ => rfl) fun _ => ite_congr (propext beq_iff_eq) (fun _ => rfl) fun _ => rfl
    rw [Option.isNone_none, Bool.true_and, decide_eq_true_eq]

end

theorem exec_bcinit {s2 : State} {k : Nat} (h : s.Issues (.bcinit d a b) c) (hpage : s.bcPage c (c.bcAddr a) = (s1, .ok ph))
    (howner : ph.owner = .die k) (hmeet : (s1.settleLine ph.pa).meetMem c.t.vf ph.pa 64 = (s2, false)) :
    exec (.bcinit d a b) s = .next (s.finish c (bcInitAt d (s1.tenant c.t.vf).asid (c.uniAll b) k s2 c (c.bcAddr a) ph)) := by
  refine (issue_eq h).trans (congrArg (fun r => Host.Outcome.next (s.finish c r)) ((bcOp_eq hpage).trans ?_))
  simp only [howner, hmeet]
  rfl

theorem exec_bctake_kept {st : Nat} (h : s.Issues (.bctake d a b) c) (hkept : c.sp.kept = some (1, st)) :
    exec (.bctake d a b) s = .next (s.finish c (bcDone d st s c)) := by
  refine (issue_eq h).trans ?_
  split
  next st' hst =>
    obtain rfl : st = st' := by simpa using hkept.symm.trans hst
    rfl
  next _ hne => exact absurd hkept (hne st)
  next _ _ hne => exact absurd hkept (hne st)
  next _ _ hne => exact absurd hkept (hne st)

theorem exec_bctake_reply {st m : Nat} (h : s.Issues (.bctake d a b) c) (hkept : c.sp.kept = none)
    (hreply : c.t.reply = some (c.bcAddr a, st, m)) :
    exec (.bctake d a b) s = .next (s.finish c (bcDone d st (s.updTer c.uid fun t => { t with reply := none }) c)) := by
  refine (issue_eq h).trans ?_
  split
  next st' hst => exact absurd (hkept.symm.trans hst) nofun
  next hst _ =>
    obtain ⟨rfl, rfl, rfl⟩ : _ = c.bcAddr a ∧ _ = st ∧ _ = m := by simpa using hst.symm.trans hreply
    exact congrArg (fun r => Host.Outcome.next (s.finish c r)) (if_pos (beq_self_eq_true _))
  next hst _ _ => exact absurd (hreply.symm.trans hst) nofun
  next hst _ _ => exact absurd (hreply.symm.trans hst) nofun

theorem exec_bctake_new (h : s.Issues (.bctake d a b) c) (hkept : c.sp.kept = none) (hreply : c.t.reply = none)
    (hq : s.bcQueued c.uid = none) (hpage : s.bcPage c (c.bcAddr a) = (s1, .ok ph)) :
    exec (.bctake d a b) s = .next (s.finish c (bcTake d (c.uniAll b % 2 ^ 31) (2 ^ 31 ≤ c.uniAll b) s1 c (c.bcAddr a) ph)) := by
  refine (issue_eq h).trans ?_
  split
  next st' hst => exact absurd (hkept.symm.trans hst) nofun
  next hst _ => exact absurd (hreply.symm.trans hst) nofun
  next _ hst _ => exact absurd (hq.symm.trans hst) nofun
  next => exact congrArg (fun r => Host.Outcome.next (s.finish c r)) (bcOp_eq hpage)

theorem exec_bcgive_kept {st : Nat} (h : s.Issues (.bcgive d a b) c) (hkept : c.sp.kept = some (1, st)) :
    exec (.bcgive d a b) s = .next (s.finish c (bcDone d st s c)) := by
  refine (issue_eq h).trans ?_
  split
  next st' hst =>
    obtain rfl : st = st' := by simpa using hkept.symm.trans hst
    rfl
  next hne => exact absurd hkept (hne st)

theorem exec_bcgive_new (h : s.Issues (.bcgive d a b) c) (hkept : c.sp.kept = none)
    (hpage : s.bcPage c (c.bcAddr a) = (s1, .ok ph)) :
    exec (.bcgive d a b) s = .next (s.finish c (bcGiveAt d (c.uniAll b) s1 c (c.bcAddr a))) := by
  refine (issue_eq h).trans ?_
  split
  next st' hst => exact absurd (hkept.symm.trans hst) nofun
  next => exact congrArg (fun r => Host.Outcome.next (s.finish c r)) (bcOp_eq hpage)

theorem exec_bcread_total {v x : Nat} (h : s.Issues (.bcread d a) c) (hkept : c.sp.kept = some (2, v)) (ht : c.t.total = some x) :
    exec (.bcread d a) s = .next (s.finish c (bcTotal d x (s.updTer c.uid fun t => { t with total := none }) c)) := by
  refine (issue_eq h).trans ?_
  split
  next x' _ hx _ =>
    obtain rfl : x = x' := by simpa using ht.symm.trans hx
    rfl
  next hx _ => exact absurd (ht.symm.trans hx) nofun
  next hne _ => exact absurd hkept (hne x v ht)

theorem exec_bcread_new (h : s.Issues (.bcread d a) c) (hkept : c.sp.kept = none)
    (hpage : s.bcPage c (c.bcAddr a) = (s1, .ok ph)) :
    exec (.bcread d a) s = .next (s.finish c (match s1.bc? c.t.vf (c.bcAddr a) with
      | none => bcTotal d (2 ^ 64 - 1) s1 c
      | some k => .wait ((s1.setBc { k with trigs := k.trigs ++ [.read c.uid] }).keep c 2 0) .total)) := by
  refine (issue_eq h).trans ?_
  split
  next hst => exact absurd (hkept.symm.trans hst) nofun
  next hst => exact absurd (hkept.symm.trans hst) nofun
  next => exact congrArg (fun r => Host.Outcome.next (s.finish c r)) (bcOp_eq hpage)

end

/-- Settles O51. -/
theorem boundedCounters : Obligations.BoundedCounters := by
  intro s c d a b s1 ph va take give n put used page
  refine ⟨fun st h hkept => ⟨none, exec_bctake_kept h hkept⟩, fun st m h hkept hreply => ⟨none, exec_bctake_reply h hkept hreply⟩,
    fun h hkept hreply hq hpage hn => ?takeCore, fun k h hkept hreply hq hpage hn hk hx => ?takeOut,
    fun st h hkept => ⟨none, exec_bcgive_kept h hkept⟩, fun h hkept hpage => ?give,
    fun h => ⟨fun v x hkept ht => ⟨none, exec_bcread_total h hkept ht⟩, fun hkept hpage hnone => ?readNone,
      fun k hkept hpage hk => ?readWait⟩,
    fun h hpage => ?stat, ?init⟩
  case takeCore =>
    have hexec := exec_bctake_new h hkept hreply hq hpage
    refine ⟨fun hnone => ⟨none, hexec.trans ?_⟩, fun k x hk hx => ⟨fun hopen hle => hexec.trans ?_, fun hfar => hexec.trans ?_⟩⟩
    · rw [bcTake_none hn hnone]
      rfl
    · rw [bcTake_here hn hk hx hopen hle]
      rfl
    · rw [bcTake_away hn hk fun y hy => by rwa [Option.some.inj (hy.symm.trans hx)], hx]
      rfl
  case takeOut =>
    refine (exec_bctake_new h hkept hreply hq hpage).trans ?_
    rw [bcTake_away hn hk fun y hy => absurd (hy.symm.trans hx) nofun, hx, BCounter.upd_absent hx]
    rfl
  case give =>
    have hexec := exec_bcgive_new h hkept hpage
    refine ⟨fun hn => ⟨none, hexec.trans ?_⟩, fun hn hnone => ⟨none, hexec.trans ?_⟩, fun k hn hk => ⟨fun x hx hopen hle => hexec.trans ?_,
      fun hfar => ⟨fun hroom => ⟨none, hexec.trans ?_⟩, fun hfull => ⟨none, hexec.trans ?_⟩⟩⟩⟩
    · simp only [n] at hn
      rw [hn]
      rfl
    · rw [bcGiveAt_none hn hnone]
      rfl
    · rw [bcGiveAt_here hn hk hx hopen hle]
      rfl
    · rw [bcGiveAt_away hn hk hfar, if_neg (Nat.not_le.2 hroom)]
      rfl
    · rw [bcGiveAt_away hn hk hfar, if_pos hfull]
      rfl
  case readNone =>
    refine ⟨none, (exec_bcread_new h hkept hpage).trans ?_⟩
    simp only [va] at hnone
    simp only [hnone]
    rfl
  case readWait =>
    refine (exec_bcread_new h hkept hpage).trans ?_
    simp only [va] at hk
    simp only [hk]
  case stat =>
    refine ⟨fun hnone => ends_of h rfl ⟨none, (bcOp_eq hpage).trans ?_⟩, fun k hk => ends_of h rfl ⟨none, (bcOp_eq hpage).trans ?_⟩⟩
    · simp only [va] at hnone
      simp only [hnone]
      rfl
    · simp only [va] at hk
      simp only [hk, bne_iff_ne]
      rfl
  case init =>
    intro h hpage s2 k howner hmeet bs nh slice held
    have hexec := exec_bcinit h hpage howner hmeet
    refine ⟨fun hnh hbad => ⟨none, hexec.trans ?_⟩, fun hok hnone => ⟨fun hfull => ⟨none, hexec.trans ?_⟩,
      fun hroom hnh => ⟨none, hexec.trans ?_⟩, fun hroom hnh => ⟨none, hexec.trans ?_⟩⟩, fun old hold => ⟨fun hnh => ⟨none, hexec.trans ?_⟩,
      fun hnh hok => ⟨none, hexec.trans ?_⟩⟩⟩
    · rw [bcInitAt_bad hnh hbad]
      rfl
    · rw [bcInitAt_good hok, hnone]
      exact congrArg (fun r => Host.Outcome.next (s.finish c r)) (if_pos hfull)
    · rw [bcInitAt_good (.inl hnh), hnone]
      exact congrArg (fun r => Host.Outcome.next (s.finish c r)) ((if_neg (Nat.not_le.2 hroom)).trans (if_pos hnh))
    · rw [bcInitAt_good (hok), hnone]
      exact congrArg (fun r => Host.Outcome.next (s.finish c r)) ((if_neg (Nat.not_le.2 hroom)).trans (if_neg hnh))
    · rw [bcInitAt_good (.inl hnh), hold]
      exact congrArg (fun r => Host.Outcome.next (s.finish c r)) (if_pos hnh)
    · rw [bcInitAt_good (.inr hok), hold]
      exact congrArg (fun r => Host.Outcome.next (s.finish c r)) (if_neg hnh)

end Sys2Proof.Machine
end

section
/-! ## A request that finds its list held -/

namespace Sys2Proof.Machine

/-- A module whose die 0 holds a list at address 0 for a request of another module, and that has a route of tenant 0 there. -/
def heldListState : State :=
  { State.reset with lists := [⟨0, 0, 0, false, ⟨0, 0, 0, 2, 0, 0, .list 0 [] [] [], true⟩⟩], routes := [(0, 0, 0, 32, 32)] }

/-- A write of one byte of that list. -/
def heldListWrite : FabFlit := ⟨0, 0, 0, 2, 0, 0, .write 0 0 [1#8], true⟩

theorem heldListWrite_waits : (match exec (.fabricRequest 0 heldListWrite) heldListState with
    | .next t => some t.waitFab.length
    | _ => none) = some 1 := by decide +kernel

theorem heldListWrite_served : (heldListState.fabServe 0 heldListWrite).waitFab = [] := by decide +kernel

/-- Refutes O55: it says that a request for this die is performed as it arrives. The model lets a request that writes a byte
    of a held list wait (R152), and here performs nothing. -/
theorem not_edgesAndPower : ¬ Obligations.EdgesAndPower := by
  unfold Obligations.EdgesAndPower Clause.EdgeEvents
  intro ⟨hedges, _⟩
  obtain ⟨_, _, _, _, hrequest, _⟩ := hedges heldListState 0 0 0 heldListWrite false (by decide)
  have hserved := hrequest rfl
  simp only at hserved
  rw [if_neg (by decide), if_neg (by decide +kernel), if_pos (by decide +kernel)] at hserved
  have hwaits := heldListWrite_waits
  rw [show exec _ _ = _ from hserved] at hwaits
  have hnoted : ((heldListState.fabServe 0 heldListWrite).noted heldListState).waitFab = [] := by
    rw [State.noted_of_flaws (by decide +kernel)]
    exact heldListWrite_served
  have hcommit : (commit heldListState ((heldListState.fabServe 0 heldListWrite).noted heldListState)).waitFab = [] := hnoted
  simp only [hcommit, List.length_nil] at hwaits
  exact absurd hwaits (by decide)

end Sys2Proof.Machine
end

section
/-! ## The management path -/

namespace Sys2Proof.Machine

section

variable {i : Instr} {s s1 : State} {die : Nat} {ok : Bool} {good : Prop}

/-- A command of the management path, with what makes its operands good. -/
theorem mgmtIf_occurs (hx : exec i s = mgmtIf ok die s s1) (hgood : good ↔ ok = true) :
    (good → Occurs i s (s1.replyWith die 0 [] [])) ∧ (¬ good → Occurs i s (s.replyWith die 3 [] [])) := by
  constructor
  · intro h
    exact occurs_of (ok := true) (hx.trans (by rw [hgood.1 h]; rfl)) rfl
  · intro h
    exact occurs_of (ok := true) (hx.trans (by rw [Bool.eq_false_iff.2 (mt hgood.2 h)]; rfl)) rfl

/-- Where a launch queue's record may stand (R449). -/
theorem queueAddr_iff {addr : Nat} : ((match ownerOf addr with | .die _ => decide (addr < 2 ^ 39) | _ => false) = true)
    ↔ addr < 2 ^ 39 ∧ ∃ d, ownerOf addr = .die d := by
  cases ownerOf addr with
  | die d => simp
  | peer m => simp
  | host => simp
  | bad => simp

end

/-- Settles O57. -/
theorem managementCommands : Obligations.ManagementCommands := by
  intro s a b core pidx q die frame colour us port vf n how addr reg w value nonce up lid x ok refused cmd
  refine ⟨occurs_of rfl rfl, mgmtIf_occurs rfl (by simp), mgmtIf_occurs rfl (by simp [and_assoc]), mgmtIf_occurs rfl (by simp),
    ?link, mgmtIf_occurs rfl (by simp), fun l hl => mgmtIf_occurs (ok := how ≤ 2) ?stop (by simp), fun hl => occurs_of (ok := true) ?noLaunch rfl,
    mgmtIf_occurs rfl (by simp), ?queue, mgmtIf_occurs rfl (by simp), mgmtIf_occurs rfl (by simp),
    fun hd => occurs_of (ok := true) ?logs rfl, fun hd => occurs_of (ok := true) ?noLogs rfl,
    fun hd hn => occurs_of (ok := true) ?quote rfl, fun hmal => occurs_of (ok := true) ?noQuote rfl, occurs_of rfl rfl⟩
  case link =>
    refine mgmtIf_occurs (ok := decide (die < 4) && decide (port < 8)) ?_ (by simp)
    change execLink die port up s = _
    simp only [execLink, beq_iff_eq]
    rfl
  case stop =>
    change execStop n how s = _
    simp only [execStop, hl]
  case noLaunch =>
    change execStop n how s = _
    simp only [execStop, hl]
    rfl
  case queue =>
    refine mgmtIf_occurs rfl ?_
    rw [Bool.and_eq_true, Bool.and_eq_true, decide_eq_true_eq, beq_iff_eq, ← and_assoc]
    exact and_congr_right fun _ => queueAddr_iff.symm
  case logs => exact congrArg (event true s) (if_pos hd)
  case noLogs => exact congrArg (event true s) (if_neg (Nat.not_lt.2 hd))
  case quote => exact congrArg (event true s) (if_pos (by simp [hd, hn]))
  case noQuote => exact congrArg (event true s) (if_neg (by simp; omega))

end Sys2Proof.Machine
end

section
/-! ## The host link -/

namespace Sys2Proof.Machine

section

variable {i : Instr} {s : State} {die ty : Nat} {bs : List Byte} {h : HostFlit} {f : State → HostFlit → State}

/-- A well-formed flit of the type that an event takes has its effect. -/
theorem hostFlit_occurs (hx : exec i s = s.hostFlit die bs ty f) (hd : die < 4) (hflit : hostFlitOf bs = some h)
    (hty : h.type = ty) : Occurs i s (f s h) := by
  refine occurs_of (ok := decide (die < 4) && h.type == ty) (hx.trans ?_) (by simp [hd, hty])
  simp only [State.hostFlit, hflit]

/-- A malformed one is recorded in the hypervisor's log alone. -/
theorem hostFlit_malformed (hx : exec i s = s.hostFlit die bs ty f) (hd : die < 4) (hflit : hostFlitOf bs = none) :
    Answers (exec i s) fun t => ∃ r, t = commit s { s with tick := s.tick + 1, hlog := s.hlog ++ [r] } := by
  have hocc : Occurs i s ({ s with tick := s.tick + 1 }.logHyper 0 ⟨0, 0, (Config.freeByte s.tick).toNat, 0, 0, 0, die, 4⟩) := by
    refine occurs_of (ok := decide (die < 4)) (hx.trans ?_) (decide_eq_true hd)
    simp only [State.hostFlit, hflit]
  exact ⟨_, hocc.trans (congrArg (fun u => Host.Outcome.next (commit s u)) (State.noted_of_flaws rfl)), _, rfl⟩

/-- A type byte that names no type. -/
theorem hostFlitOf_reserved {b : Byte} (hb : b ∈ bs.take 1) (h7 : 7 ≤ b.toNat) : hostFlitOf bs = none := by
  cases bs with
  | nil => simp at hb
  | cons x xs =>
    obtain rfl : b = x := by simpa using hb
    have hbyte : 6 < byteAt (b :: xs) 0 := h7
    simp [hostFlitOf, hbyte]

/-! ### What each flit of the link does as it arrives -/

theorem exec_hostRead : exec (.hostRead die bs) s =
    s.hostFlit die bs 0 fun s h => s.hostServe die h (.read h.tag h.base (64 * max 1 h.lines)) := rfl

theorem exec_hostWrite : exec (.hostWrite die bs) s = s.hostFlit die bs 1 fun s h => s.hostWrite die h := rfl

theorem exec_hostAtomic : exec (.hostAtomic die bs) s = s.hostFlit die bs 3 fun s h =>
    let x := Config.hostAtomic h.payload
    s.hostServe die h (if x.1 == 7 then .cas h.tag h.addr (tyWidth x.2.1 / 8) [(x.2.2.2, x.2.2.1)]
      else .amo h.tag h.addr x.1 x.2.1 [x.2.2.1]) := rfl

theorem exec_hostReadCompletion : exec (.hostReadCompletion die bs) s = s.hostFlit die bs 2 fun s h => s.hostCompletion h := rfl

theorem exec_doorbell : exec (.doorbell die bs) s =
    s.hostFlit die bs 4 fun s h => s.doorbell die h.vf (fieldOf h.payload 0 4) := rfl

theorem exec_hostErrorResponse : exec (.hostErrorResponse die bs) s = s.hostFlit die bs 5 fun s h =>
    { s with tick := s.tick + 1 }.answered (fun t => t % 65536 == h.tag) true
      fun _ _ => .err (Config.freeByte s.tick).toNat := rfl

theorem exec_hostInterrupt : exec (.hostInterrupt die bs) s = s.hostFlit die bs 6 fun s _ => s := rfl

/-- The completion of a read that one flit answers. -/
theorem hostCompletion_whole {pa n : Nat} (hr : s.taggedRange (fun t => t % 65536 == h.tag) true = some (pa, n))
    (hgot : s.hostGot = []) (hone : (hostChunks pa n).length ≤ 1) (hlen : pa % 64 + n ≤ h.payload.length) :
    s.hostCompletion h = { s with tick := s.tick + 1 }.answered (fun t => t % 65536 == h.tag) true fun pa n =>
      .val (bytesNat ((h.payload.drop (pa % 64)).take n)) := by
  have hkeep : kset ((0, []) : Nat × List Byte) [] h.tag (0, []) = [] := rfl
  have hfree : freeBytes s.tick (pa % 64 + n - h.payload.length) = [] := by
    rw [Nat.sub_eq_zero_of_le hlen]
    rfl
  have hlast : ¬ 1 < (hostChunks pa n).length := Nat.not_lt.2 hone
  simp only [State.hostCompletion, hr, hgot, kget, List.nil_append, Nat.zero_add, if_neg hlast, hfree, List.append_nil, hkeep]

end

/-- Settles O56. -/
theorem hostEvents : Obligations.HostEvents := by
  intro s die vf bs h at_ hd
  refine ⟨fun hflit => ⟨fun hty => ?read, fun hty => ?write, fun hty => ?atomic,
      fun hty => ⟨fun hnone => ?noRequest, fun pa n hr hgot hone hlen => ?answer⟩, fun hty => ?doorbell,
      fun hty => ?errorResponse, fun hty => ?interrupt⟩,
    fun hflit => ?malformed, fun b hb h7 => hostFlitOf_reserved hb h7,
    fun hvf hdue => occurs_of rfl (by simp [hvf, hdue]), fun cap hd tl t => ?bell⟩
  case read => exact hostFlit_occurs exec_hostRead hd hflit hty
  case write => exact hostFlit_occurs exec_hostWrite hd hflit hty
  case doorbell => exact hostFlit_occurs exec_doorbell hd hflit hty
  case interrupt => exact hostFlit_occurs exec_hostInterrupt hd hflit hty
  case atomic =>
    have hocc := hostFlit_occurs (s := s) exec_hostAtomic hd hflit hty
    simpa only [beq_iff_eq] using hocc
  case noRequest =>
    have hocc := hostFlit_occurs (s := s) exec_hostReadCompletion hd hflit hty
    simpa only [State.hostCompletion, hnone] using hocc
  case answer =>
    have hocc := hostFlit_occurs (s := s) exec_hostReadCompletion hd hflit hty
    rwa [hostCompletion_whole hr hgot hone hlen] at hocc
  case errorResponse => exact hostFlit_occurs exec_hostErrorResponse hd hflit hty
  case malformed =>
    intro i hi
    simp only [List.mem_cons, List.not_mem_nil, or_false] at hi
    obtain rfl | rfl | rfl | rfl | rfl | rfl | rfl := hi
    · exact hostFlit_malformed exec_hostRead hd hflit
    · exact hostFlit_malformed exec_hostWrite hd hflit
    · exact hostFlit_malformed exec_hostAtomic hd hflit
    · exact hostFlit_malformed exec_hostReadCompletion hd hflit
    · exact hostFlit_malformed exec_doorbell hd hflit
    · exact hostFlit_malformed exec_hostErrorResponse hd hflit
    · exact hostFlit_malformed exec_hostInterrupt hd hflit
  case bell => rw [doorbellOk, Bool.and_eq_true, decide_eq_true_eq, decide_eq_true_eq]

end Sys2Proof.Machine
end

section
/-! ## The events of the engines, the homes and the distributors -/

namespace Sys2Proof.Machine

section

variable {s s1 : State} {id core k u card : Nat} {c : Cmd} {t : Terrace} {sp : Split} {i : Instr} {j : Job}

/-- A command that has a row to copy is no requantisation. -/
theorem Cmd.kind_of_copyRow (h : (s.copyRow c).isSome = true) : ∃ a da b db m n x y, c.kind = .cp a da b db m n x y := by
  unfold State.copyRow at h
  split at h
  next => cases h
  next a da b db m n x y hk => exact ⟨a, da, b, db, m, n, x, y, hk⟩

theorem exec_copyEngineCommand {rows a da b db m n x y : Nat} (hc : s.cmd? id = some c) (hk : c.kind = .cp a da b db m n x y) :
    exec (.copyEngineCommand id rows) s =
      if rows = 0 then event (c.fault.isNone && s.ackHere (c.acks.map (·.1))) s (s.acked c)
      else event (c.fault.isNone && c.next < c.total && s.served c && (s.copyRow c).isSome) s (s.copySteps id rows) := by
  change execCopyEngineCommand id rows s = _
  simp only [execCopyEngineCommand, hc, hk, beq_iff_eq]

theorem exec_blockStep (ht : s.tileOn (core * 4 + k) = some (t, sp, i)) (hstep : s.blockStep (core * 4 + k) t sp i = some s1) :
    exec (.blockStep core k) s = event (k < 4 && t.core == core && s.engineTurn (core * 4 + k)) s s1 := by
  change execBlockStep core k s = _
  simp only [execBlockStep, ht, hstep]

theorem exec_rowBoundary (ht : s.tileOn (core * 4 + k) = some (t, sp, i)) (hstep : s.rowStep (core * 4 + k) t sp i = some s1) :
    exec (.rowBoundary core k) s = event (k < 4 && t.core == core) s s1 := by
  change execRowBoundary core k s = _
  simp only [execRowBoundary, ht, hstep]

/-- The end of a MEPI whose rows are done and acknowledged, and that has no alley to push to. -/
theorem rowStep_mepi_end {slot n a b mr nc tgt rnd : Nat} {sat : Bool} {fam bfmt : Nat} (hslot : t.slot n = slot)
    (hjob : s.job? t.uid = none) (halley : t.sVal (a + 3) = 0) (hrow : mr ≤ (s.prog slot).row) (hacks : (s.prog slot).acks = []) :
    s.rowStep slot t sp (.mepi n a b mr nc tgt rnd sat fam bfmt) =
      some ((if (if rnd = 6 then modeRnd sp.mode else rnd) = 5 then s.updSplit t.uid sp.sid fun x => { x with rc := x.rc + 1 }
        else s).tileDone t sp [slot]) := by
  have hnone : s.ackHere [] = false := rfl
  simp [State.rowStep, rowForm, hslot, hjob, hacks, hnone, movesEarly, hrow, State.rowsEnd, mepiPush, halley, State.healSlot,
    State.advanceTile]

theorem exec_watchdogExpiry {x : Card} (hj : s.job? u = some j) (hx : (j.cards.find? fun c => c.card == card) = some x) :
    exec (.watchdogExpiry u card) s = event (s.cardServed j card && (s.jobSplit j).isSome) s (s.watchdog j x) := by
  change execWatchdogExpiry u card s = _
  simp only [execWatchdogExpiry, hj, hx]

theorem exec_jobCard (hj : s.job? u = some j) (hstep : s.jobCard j card = some s1) :
    exec (.jobCard u card) s = event ((j.cards.any fun c => c.card == card) && s.cardServed j card) s s1 := by
  change execJobCard u card s = _
  simp only [execJobCard, hj, hstep]

end

/-- Settles O52. -/
theorem engineEvents : Obligations.EngineEvents := by
  intro s s1 id core k u card h n die pidx line leaf
  refine ⟨fun c hc hf hn hs rows hr hrow => ?copy, fun c a da b db m n x y hc hk hf ha => ?acks,
    fun c a m x sat rnd hc hk hf hn hs hstep => ?requant, fun c hc hf hn ha hstep => ?push,
    fun t sp i hk ht hcore => ⟨fun hstep hturn => ?block, fun hstep => ?row,
      fun n a b mr nc tgt rnd sat fam bfmt hi hslot hjob halley hrow hacks => ?mepi⟩,
    fun j c hj hx hserved => ⟨fun hstep => ?card, fun hsplit => ?dog⟩, fun g r hg hr hover => ?round,
    fun b tr rest hb htr => ?rebalance, fun p l hp hl => ?near, fun l hl hh hstart => ?start, fun l hl hover => ?finished⟩
  case copy =>
    obtain ⟨a, da, b, db, m, n, x, y, hk⟩ := Cmd.kind_of_copyRow hrow
    exact occurs_of ((exec_copyEngineCommand hc hk).trans (if_neg (by omega))) (by simp [hf, hn, hs, hrow])
  case acks => exact occurs_of ((exec_copyEngineCommand hc hk).trans (if_pos rfl)) (by simp [hf, ha])
  case requant =>
    refine occurs_of (ok := c.fault.isNone && s.served c) ?_ (by simp [hf, hs])
    change execRequantisation id s = _
    simp only [execRequantisation, hc, hk, if_neg (Nat.not_le.2 hn), hstep]
  case push =>
    refine occurs_of (ok := c.alley != 0 && c.fault.isNone && decide (c.total ≤ c.next)) ?_ (by simp [hf, hn, ha])
    change execEngineAlleyPush id s = _
    simp only [execEngineAlleyPush, hc, hstep]
  case block => exact occurs_of (exec_blockStep ht hstep) (by simp [hk, hcore, hturn])
  case row => exact occurs_of (exec_rowBoundary ht hstep) (by simp [hk, hcore])
  case mepi =>
    subst hi
    refine occurs_of (exec_rowBoundary ht ?_) (by simp [hk, hcore])
    exact rowStep_mepi_end hslot hjob halley hrow hacks
  case card =>
    refine occurs_of (exec_jobCard hj hstep) ?_
    rw [hserved, Bool.and_true]
    exact List.any_eq_true.2 ⟨c, List.mem_of_find?_eq_some hx, List.find?_some (p := fun c : Card => c.card == card) hx⟩
  case dog => exact occurs_of (exec_watchdogExpiry hj hx) (by rw [hserved, hsplit]; rfl)
  case round =>
    refine occurs_of (ok := r.failed || (s.roundTiles g n).isSome) ?_ (Bool.or_eq_true_iff.2 hover)
    change execCollectiveRoundCompletion h n die s = _
    simp only [execCollectiveRoundCompletion, hg, hr]
  case rebalance =>
    refine occurs_of (ok := true) ?_ rfl
    change execRebalance id s = _
    simp only [execRebalance, hb, htr]
  case near =>
    refine occurs_of (ok := true) ?_ rfl
    change execNearLineEviction core pidx line s = _
    simp only [execNearLineEviction, hp, Option.bind_some, hl]
  case start =>
    refine occurs_of (ok := true) ?_ rfl
    change execTaskStart id leaf s = _
    simp only [execTaskStart, hl, Option.bind_some, hh, beq_self_eq_true, if_true, hstart]
  case finished =>
    refine occurs_of (ok := s.launchOver l) ?_ hover
    change execLaunchCompletion id s = _
    simp only [execLaunchCompletion, hl]

end Sys2Proof.Machine
end

section
/-! ## What a look at a translation home leaves in a sound machine -/

namespace Sys2Proof.Machine

section

variable {s t u : State} {c : Ctx} {vf va die : Nat}

/-- A machine after a look at a translation home: only performance counters and the tables of the homes may differ. -/
structure State.Looked (s t : State) : Prop where
  ters : t.ters = s.ters
  bcs : t.bcs = s.bcs
  mem : t.mem = s.mem
  wbuf : t.wbuf = s.wbuf
  flaws : t.flaws = s.flaws
  accs : t.accs = s.accs
  tenants : t.tenants = s.tenants
  part : ∀ k v, (t.part? k v).isSome = (s.part? k v).isSome
  subst : ∀ d, (t.die d).substSlice = (s.die d).substSlice
  lost : ∀ d, (t.die d).lost = (s.die d).lost

theorem State.Looked.refl (s : State) : s.Looked s :=
  ⟨rfl, rfl, rfl, rfl, rfl, rfl, rfl, fun _ _ => rfl, fun _ => rfl, fun _ => rfl⟩

theorem State.Looked.trans (h : s.Looked t) (g : t.Looked u) : s.Looked u where
  ters := g.ters.trans h.ters
  bcs := g.bcs.trans h.bcs
  mem := g.mem.trans h.mem
  wbuf := g.wbuf.trans h.wbuf
  flaws := g.flaws.trans h.flaws
  accs := g.accs.trans h.accs
  tenants := g.tenants.trans h.tenants
  part k v := (g.part k v).trans (h.part k v)
  subst d := (g.subst d).trans (h.subst d)
  lost d := (g.lost d).trans (h.lost d)

theorem State.looked_countVf (s : State) (core v e n : Nat) : s.Looked (s.countVf core v e n) where
  ters := by simp
  bcs := by simp
  mem := by simp
  wbuf := by simp
  flaws := by simp
  accs := by simp
  tenants := by simp
  part := State.part?_countVf s core v e n
  subst _ := by simp [State.die]
  lost _ := by simp [State.die]

/-- A die with other tables of its translation home. -/
theorem State.looked_setDie {d : Nat} {x : Die} (hsubst : x.substSlice = (s.die d).substSlice) (hlost : x.lost = (s.die d).lost) :
    s.Looked (s.setDie d x) where
  ters := rfl
  bcs := rfl
  mem := rfl
  wbuf := rfl
  flaws := rfl
  accs := rfl
  tenants := rfl
  part _ _ := rfl
  subst e := by
    by_cases he : e = d
    · subst he
      simpa [State.setDie, State.die] using hsubst
    · simp [State.setDie, State.die, kget_kset_other _ _ _ he]
  lost e := by
    by_cases he : e = d
    · subst he
      simpa [State.setDie, State.die] using hlost
    · simp [State.setDie, State.die, kget_kset_other _ _ _ he]

theorem State.meetMem_sound (hf : s.flaws = []) (vf pa n : Nat) : s.meetMem vf pa n = (s, s.lostRange pa n) := by
  simp only [State.meetMem, hf, List.isEmpty_nil, if_true]

theorem State.meetTlb_sound (hf : s.flaws = []) (die asid va : Nat) : s.meetTlb die asid va = s := by
  unfold State.meetTlb
  split
  next => rfl
  next => simp [hf]

theorem State.walkFrom_sound (hf : s.flaws = []) (fuel level table : Nat) : (s.walkFrom vf va fuel level table).1 = s := by
  induction fuel generalizing level table with
  | zero => rfl
  | succ fuel ih =>
    simp only [State.walkFrom, State.meetMem_sound hf, apply_ite Prod.fst, ih, ite_self]

theorem State.walk_sound (hf : s.flaws = []) : (s.walk vf va).1 = s := by
  simp only [State.walk, apply_ite Prod.fst, State.walkFrom_sound hf, ite_self]

theorem State.tlbLeaf_sound (hf : s.flaws = []) (e : TlbEntry) : (s.tlbLeaf vf e va).1 = s := by
  simp only [State.tlbLeaf, State.meetMem_sound hf, apply_ite Prod.fst, ite_self]

theorem State.synonym_sound (hf : s.flaws = []) (asid pa : Nat) : (s.synonym vf asid va pa).1 = s := by
  unfold State.synonym
  split
  next => rfl
  next r _ =>
    split
    next => rfl
    next =>
      have hwalk := State.walk_sound (vf := r.1) (va := r.2.2 * 65536) hf
      split
      next w hw => exact (congrArg Prod.fst hw).symm.trans hwalk
      next e hw => exact (congrArg Prod.fst hw).symm.trans hwalk

/-- The checks of a look that has found a leaf or failed to (R369 to R372). -/
def State.lookFound (s : State) (vf die va : Nat) (w : Want) (asid : Nat) (hit : Option TlbEntry)
    (found : Except WalkErr WalkEnd × Bool) : State × Except WalkErr Reach :=
  match found.1 with
  | .error e => (s, .error e)
  | .ok wk =>
    let l := leafOf wk.word
    let pa := leafPa l wk.level va
    match s.checkLeaf vf w l pa with
    | some code => (s, .error ⟨code, false⟩)
    | none =>
      let shared := s.colourShared l.colour
      let i := levelIndex 3 va
      let e := match hit with | some e => e | none => s.tlbOfWalk die asid va wk
      let known := found.2 && e.reached.getLsbD i
      let out := shared || (match ownerOf pa with | .die _ => false | _ => true)
      let syn := if out || known then (s, none) else s.synonym vf asid va pa
      match syn.2 with
      | some code => (syn.1, .error ⟨code, false⟩)
      | none =>
        (syn.1, .ok ⟨⟨pa, l, ownerOf pa, shared⟩, some { e with reached := e.reached ||| (1#32 <<< i) }, !out && !known⟩)

theorem State.lookFound_sound (hf : s.flaws = []) (w : Want) (asid : Nat) (hit : Option TlbEntry)
    (found : Except WalkErr WalkEnd × Bool) : (s.lookFound vf die va w asid hit found).1 = s := by
  have hsyn : ∀ (b : Bool) (pa : Nat), (if b then (s, none) else s.synonym vf asid va pa).1 = s := fun b pa => by
    rw [apply_ite Prod.fst, State.synonym_sound hf, ite_self]
  unfold State.lookFound
  split
  next => rfl
  next =>
    dsimp only
    split
    next => rfl
    next =>
      split
      next => exact hsyn ..
      next => exact hsyn ..

/-- A look counts a miss of the home's TLB, for the core that it is made for. -/
theorem State.look_eq (hf : s.flaws = []) (owner : Option Nat) (w : Want) :
    s.look vf die owner w va =
      match s.tlbFind die (s.tenant vf).asid va, owner with
      | some e, _ => s.lookFound vf die va w (s.tenant vf).asid (some e) (s.tlbLeaf vf e va).2
      | none, some core =>
        (s.countVf core vf evTlbMiss 1).lookFound vf die va w (s.tenant vf).asid none ((s.walk vf va).2, false)
      | none, none => s.lookFound vf die va w (s.tenant vf).asid none ((s.walk vf va).2, false) := by
  unfold State.look
  simp only [State.meetTlb_sound hf]
  cases hhit : s.tlbFind die (s.tenant vf).asid va with
  | some e =>
    simp only [State.tlbLeaf_sound hf]
    rfl
  | none =>
    cases owner with
    | none =>
      simp only [State.walk_sound hf]
      rfl
    | some core =>
      simp only [State.walk_sound hf]
      rfl

theorem State.looked_look (hf : s.flaws = []) (owner : Option Nat) (w : Want) : s.Looked (s.look vf die owner w va).1 := by
  rw [State.look_eq hf]
  split
  next => rw [State.lookFound_sound hf]; exact .refl s
  next core _ =>
    rw [State.lookFound_sound ((State.countVf_flaws ..).trans hf)]
    exact State.looked_countVf ..
  next => rw [State.lookFound_sound hf]; exact .refl s

theorem State.looked_reach (hf : s.flaws = []) (tr : Terrace) (owner : Option Nat) (w : Want) :
    s.Looked (s.reach tr die owner w va).1 := by
  unfold State.reach
  split
  next => exact .refl s
  next => exact State.looked_look hf owner w

theorem State.looked_setRecord (pa : Nat) (r : Nat × Nat × Nat) : s.Looked (s.setRecord pa r) := by
  unfold State.setRecord
  split
  next => exact State.looked_setDie rfl rfl
  next => exact .refl s

theorem State.looked_tlbInsert (e : TlbEntry) : s.Looked (s.tlbInsert die vf e) := by
  unfold State.tlbInsert
  dsimp only
  split
  next => exact .refl s
  next => exact State.looked_setDie rfl rfl

theorem State.looked_enter (r : Reach) : s.Looked (s.enter vf die va r) := by
  have hrecord : s.Looked (if r.record then s.setRecord r.ph.pa (vf, (s.tenant vf).asid, va / 65536) else s) := by
    split
    next => exact State.looked_setRecord ..
    next => exact .refl s
  unfold State.enter
  dsimp only
  split
  next => exact hrecord.trans (State.looked_tlbInsert _)
  next => exact hrecord

/-! ### What such a look leaves of what BCINIT reads -/

theorem State.Looked.rdBytes (h : s.Looked t) (x n : Nat) : t.rdBytes x n = s.rdBytes x n := by
  simp only [State.rdBytes, State.rdByte, h.mem, h.wbuf]

theorem State.Looked.lostRange (h : s.Looked t) (pa n : Nat) : t.lostRange pa n = s.lostRange pa n := by
  simp only [State.lostRange, State.lostLine, h.lost]

theorem State.Looked.tenant (h : s.Looked t) (v : Nat) : t.tenant v = s.tenant v := by
  simp only [State.tenant, h.tenants]

theorem State.Looked.bc? (h : s.Looked t) (v a : Nat) : t.bc? v a = s.bc? v a := by
  simp only [State.bc?, h.bcs]

theorem State.Looked.sliceCounters (h : s.Looked t) (d slice : Nat) : t.sliceCounters d slice = s.sliceCounters d slice := by
  simp only [State.sliceCounters, h.bcs, h.subst]

theorem State.Looked.bcListOk (h : s.Looked t) (v d : Nat) (bs : List Byte) : t.bcListOk v d bs = s.bcListOk v d bs := by
  simp only [State.bcListOk, h.part]

theorem State.Looked.initStatus (h : s.Looked t) (v a k : Nat) (bs : List Byte) :
    t.initStatus v a k bs = s.initStatus v a k bs := by
  simp only [State.initStatus, h.tenant, h.bcListOk, h.bc?, h.sliceCounters]

end

end Sys2Proof.Machine
end

section
/-! ## Bounded counters whose record can be used -/

namespace Sys2Proof.Machine

section

variable {s t : State} {c : Ctx} {i : Instr} {d : Dst} {va pa k n : Nat} {b x : BCounter} {ph : Phys}

/-- What an effect leaves so that its instruction can end on it: no upset, the partition, and the terrace with the registers of
    the issue and its split. -/
structure State.Standing (s : State) (c : Ctx) : Prop where
  sound : s.flaws = []
  part : (s.part? c.t.core c.t.vf).isSome = true
  here : ∃ w, s.ter? c.uid = some w ∧ w.regs = c.t.regs ∧ w.split? c.sid = some c.sp

theorem State.Issues.standing (h : s.Issues i c) : s.Standing c :=
  let ⟨_, hter, hsplit, _⟩ := State.issuer_spec h.issuer
  ⟨h.sound, h.home, _, hter, rfl, hsplit⟩

theorem State.Standing.of_same (h : s.Standing c) (hflaws : t.flaws = s.flaws) (hters : t.ters = s.ters)
    (hpart : (t.part? c.t.core c.t.vf).isSome = (s.part? c.t.core c.t.vf).isSome) : t.Standing c where
  sound := hflaws.trans h.sound
  part := hpart.trans h.part
  here := by
    rw [State.ter?, hters]
    exact h.here

theorem State.Looked.standing (hl : s.Looked t) (h : s.Standing c) : t.Standing c := h.of_same hl.flaws hl.ters (hl.part _ _)

/-- A change of a terrace beside its registers and splits. -/
theorem State.Standing.updTer (h : s.Standing c) (u : Nat) {f : Terrace → Terrace} (huid : ∀ t, (f t).uid = t.uid)
    (hregs : ∀ t, (f t).regs = t.regs) (hsplits : ∀ t, (f t).splits = t.splits) : (s.updTer u f).Standing c where
  sound := h.sound
  part := h.part
  here := by
    obtain ⟨w, hw, hwr, hws⟩ := h.here
    rw [State.ter?_updTer s u c.uid f huid]
    split
    next hu =>
      refine ⟨f w, by rw [← hu, hw]; rfl, (hregs w).trans hwr, ?_⟩
      rw [Terrace.split?, hsplits]
      exact hws
    next => exact ⟨w, hw, hwr, hws⟩

theorem State.Standing.bcReply (h : s.Standing c) (ter addr v n : Nat) : (s.bcReply ter addr v n).Standing c :=
  h.updTer ter (fun _ => rfl) (fun _ => rfl) fun _ => rfl

theorem State.Standing.bcTell (h : s.Standing c) (ter x : Nat) : (s.bcTell ter x).Standing c :=
  h.updTer ter (fun _ => rfl) (fun _ => rfl) fun _ => rfl

/-- What a list of steps keeps that each of them keeps. -/
theorem State.Standing.foldl {α : Type} (h : s.Standing c) (l : List α) {f : State → α → State}
    (hf : ∀ s a, s.Standing c → (f s a).Standing c) : (l.foldl f s).Standing c := by
  induction l generalizing s with
  | nil => exact h
  | cons a l ih => exact ih (hf s a h)

theorem State.Standing.bcClose (h : s.Standing c) (b : BCounter) : (s.bcClose b).Standing c := by
  have hqueue : (b.queue.foldl (fun (s : State) (q : BcReq) => s.bcReply q.ter b.addr 2 0) { s with bcs := s.bcs.filter fun x => x.pa != b.pa }).Standing c :=
    State.Standing.foldl (s := { s with bcs := s.bcs.filter fun x => x.pa != b.pa }) (h.of_same rfl rfl rfl) b.queue
      fun (s : State) q hs => hs.bcReply q.ter b.addr 2 0
  refine State.Standing.foldl hqueue _ fun s e hs => ?_
  cases e with
  | take q u => exact hs.bcReply ..
  | read u => exact hs.bcTell ..
  | give u => exact hs

/-- What changes counters, and the number taken next. -/
theorem State.Standing.bcs (h : s.Standing c) (bs : List BCounter) (n : Nat) : { s with bcs := bs, fresh := n }.Standing c :=
  h.of_same rfl rfl rfl

theorem State.bcEvict_counters (vf core : Nat) : ∃ bs, s.bcEvict vf core = { s with bcs := bs } := by
  unfold State.bcEvict
  dsimp only
  split
  · exact ⟨s.bcs, rfl⟩
  · split
    · exact ⟨s.bcs, rfl⟩
    · split
      · exact ⟨s.bcs, rfl⟩
      · exact ⟨_, rfl⟩

theorem State.Standing.bcShare (h : s.Standing c) (pa share core : Nat) : (s.bcShare pa share core).Standing c := by
  unfold State.bcShare
  split
  next => exact h
  next b _ =>
    split
    next => exact h
    next y _ =>
      dsimp only
      split
      · exact h.bcs _ _
      · have hroom : (if y.entry then s else s.bcEvict b.vf core).Standing c := by
          split
          · exact h
          · obtain ⟨bs, hbs⟩ := State.bcEvict_counters (s := s) b.vf core
            rw [hbs]
            exact h.bcs _ _
        split
        · exact hroom
        · exact hroom.bcs _ _

theorem State.Standing.bcShares (h : s.Standing c) (pa share : Nat) : (s.bcShares pa share).Standing c := by
  unfold State.bcShares
  split
  · exact h
  · exact State.Standing.foldl h _ fun s y hs => hs.bcShare ..

theorem State.lostWrite_parts (pa n : Nat) : (s.lostWrite pa n).parts = s.parts := by
  fun_cases State.lostWrite <;> rfl

theorem State.spoil_parts (pa n : Nat) : (s.spoil pa n).parts = s.parts := by
  fun_cases State.spoil <;> rfl

theorem State.l2Dirty_parts (pa : Nat) : (s.l2Dirty pa).parts = s.parts := by
  fun_cases State.l2Dirty <;> rfl

/-- A write at a point of coherence leaves every partition on its core. -/
theorem State.part?_pocShare (pa : Nat) (bs : List Byte) (f : Part → Line → Line) (core vf : Nat) :
    ((s.pocShare pa bs f).part? core vf).isSome = (s.part? core vf).isSome := by
  obtain ⟨ws, hws⟩ := s.wrBytes_wbuf pa bs
  simp only [State.pocShare, State.part?, State.l2Dirty_parts, State.spoil_parts, State.lostWrite_parts, hws, List.find?_map,
    Option.isSome_map]
  refine congrArg (fun p => (s.parts.find? p).isSome) (funext fun x => ?_)
  simp only [Function.comp_apply]
  split <;> rfl

theorem State.Standing.pocWrite (h : s.Standing c) (pa : Nat) (bs : List Byte) : (s.pocWrite pa bs).Standing c := by
  have hun := writesHere_pocWrite s pa bs
  obtain ⟨ws, hws⟩ := s.unstored.wrBytes_wbuf pa bs
  rw [hws] at hun
  have hflaws : (s.pocWrite pa bs).flaws = s.flaws := by have := congrArg State.flaws hun; exact this
  have hters : (s.pocWrite pa bs).ters = s.ters := by have := congrArg State.ters hun; exact this
  exact h.of_same hflaws hters (State.part?_pocShare ..)

theorem State.Standing.bcCreate (h : s.Standing c) (vf va : Nat) (p : Phys) (die slice n : Nat) (hs : List Nat) :
    (s.bcCreate vf va p die slice n hs).Standing c := by
  unfold State.bcCreate
  have hshared := (h.bcs (s.bcs ++ [⟨vf, va, p.pa, die, slice, n, hs.map fun k => ⟨k, false, 0, false, 0⟩, [], 0, [], 0⟩]) s.fresh).bcShares
    p.pa (n / hs.length)
  dsimp only
  split
  · exact hshared
  · exact hshared.pocWrite ..

/-! ### The ends of these instructions -/

/-- An instruction that ends with words in its destination answers them. -/
theorem State.Standing.gives {wide : Bool} {ws : List Word} (h : t.Standing c) (hi : s.Issues i c)
    (hx : exec i s = .next (s.finish c (.done (t.updTer c.uid fun u => u.writeDst d wide c.active fun _ => ws) none))) :
    Gives i s c d wide ws := by
  obtain ⟨w, hw, hregs, hsplit⟩ := h.here
  have hter : (t.updTer c.uid fun u => u.writeDst d wide c.active fun _ => ws).ter? c.uid
      = some (w.writeDst d wide c.active fun _ => ws) := State.ter?_updTer_same hw _ fun u => u.writeDst_uid ..
  have hsplit' : (w.writeDst d wide c.active fun _ => ws).split? c.sid = some c.sp := by
    rw [Terrace.split?, Terrace.writeDst_splits]
    exact hsplit
  obtain ⟨_, _, u, y, hu, hy, huregs, _, hpc, _, hhold, _⟩ := State.finish_done (s := s)
    (s1 := t.updTer c.uid fun u => u.writeDst d wide c.active fun _ => ws) none (State.noted_sound hi.sound) h.sound h.part hter hsplit'
  exact ⟨_, hx, u, y, hu, hy, huregs.trans (Terrace.writeDst_regs_congr hregs ..), hpc, hhold⟩

theorem State.Standing.givesStatus {st : Nat} (h : t.Standing c) (hi : s.Issues i c)
    (hx : exec i s = .next (s.finish c (bcDone d st t c))) : Gives i s c d false [BitVec.ofNat 32 st] := h.gives hi hx

theorem BCounter.holder?_upd {core : Nat} {y : BcHolder} {f : BcHolder → BcHolder} (hf : ∀ h, (f h).core = h.core)
    (h : b.holder? core = some y) : (b.upd core f).holder? core = some (f y) := by
  have hcore : ∀ x : BcHolder, (if x.core = core then f x else x).core = x.core := fun x => by split <;> simp [hf]
  have hy : y.core = core := by simpa using List.find?_some h
  simp only [BCounter.holder?, BCounter.upd, List.find?_map]
  have hcomp : ((fun h : BcHolder => h.core == core) ∘ fun x => if x.core = core then f x else x) = fun h => h.core == core :=
    funext fun x => congrArg (· == core) (hcore x)
  rw [hcomp]
  refine (congrArg (Option.map _) h).trans ?_
  simp [hy]

/-- The counter of a record after it has been replaced by one of the same record. -/
theorem State.bc?_setBc {v a : Nat} {x' : BCounter} (h : s.bc? v a = some x) (hpa : x'.pa = x.pa) (hvf : x'.vf = x.vf)
    (haddr : x'.addr = x.addr) : (s.setBc x').bc? v a = some x' := by
  have hx := List.find?_some h
  have hhit : (x'.vf == v && x'.addr == a) = true := by rwa [hvf, haddr]
  obtain ⟨_, as, bs, hl, has⟩ := List.find?_eq_some_iff_append.1 h
  simp only [State.bc?, State.setBc, hl]
  clear h hl
  induction as with
  | nil => simp [hpa, hhit]
  | cons y ys ih =>
    rw [List.cons_append, List.map_cons]
    by_cases hy : y.pa = x'.pa
    · rw [if_pos hy, List.find?_cons, hhit]
    · rw [if_neg hy, List.find?_cons, (Bool.not_eq_true' _).mp (has y List.mem_cons_self)]
      exact ih fun z hz => has z (List.mem_cons_of_mem y hz)

/-- An instruction that waits keeps what its effect has put beside its split. -/
theorem State.finish_wait_kept {w : Terrace} {y : Split} {q : Wait} (hs : s.flaws = []) (hp : (t.part? c.t.core c.t.vf).isSome = true)
    (hw : t.ter? c.uid = some w) (hy : w.split? c.sid = some y) :
    (s.finish c (.wait t q)).bcs = t.bcs ∧ ∃ u x, (s.finish c (.wait t q)).ter? c.uid = some u ∧ u.split? c.sid = some x
      ∧ u.regs = w.regs ∧ x.hold = .wait q ∧ x.kept = y.kept := by
  obtain ⟨hapart, _, w1, z, hw1, hregs, _, hz, _, _, _, hkept, _⟩ := State.awaiting_spec hp hw hy
  let f : Split → Split := fun x =>
    { x with hold := .wait q, held := some c.i, read := some c.atIssue, avail := max x.avail (c.now + 1) }
  have hnext : s.finish c (.wait t q) = commit s (t.await c q) := by
    change commit s (State.await (t.noted s) c q) = _
    rw [State.noted_sound hs]
  rw [hnext]
  refine ⟨?_, w1.mapSplit c.sid f, f z, State.ter?_updSplit_same hw1 f, Terrace.split?_mapSplit_same hz fun _ => rfl, hregs, rfl, hkept⟩
  have := congrArg State.bcs hapart
  exact this

/-- A change of a core's allowance that completes 12 cycles later. -/
theorem State.Standing.allowanceBecomes {y : BcHolder} {f : BcHolder → BcHolder} (h : t.Standing c) (hi : s.Issues i c)
    (hx : exec i s = .next (s.finish c (bcLocal { t.setBc (x.upd c.t.core f) with fresh := n } c)))
    (hbc : t.bc? c.t.vf va = some x) (hy : x.holder? c.t.core = some y) (hf : ∀ h, (f h).core = h.core) :
    AllowanceBecomes i s c va (f y).allow := by
  obtain ⟨w, hw, hregs, hsplit⟩ := h.here
  let t1 : State := { t.setBc (x.upd c.t.core f) with fresh := n }
  let g : Split → Split := fun x => { x with kept := some (1, 0) }
  have hter : (t1.updSplit c.uid c.sid g).ter? c.uid = some (w.mapSplit c.sid g) := State.ter?_updSplit_same (s := t1) hw g
  obtain ⟨hbcs, u, z, hu, hz, huregs, hhold, hkept⟩ := State.finish_wait_kept (t := t1.updSplit c.uid c.sid g)
    (q := .cycle (c.now + 12)) hi.sound h.part hter (Terrace.split?_mapSplit_same hsplit fun _ => rfl)
  refine ⟨_, hx, u, z, x.upd c.t.core f, hu, hz, huregs.trans hregs, hhold, hkept, ?_, ?_⟩
  · rw [State.bc?]
    refine (congrArg _ hbcs).trans ?_
    exact State.bc?_setBc hbc rfl rfl rfl
  · rw [BCounter.holder?_upd hf hy]
    rfl

/-! ### A record that can be used -/

/-- The page of a record that can be used passes its checks. -/
theorem RecordReady.bcPage (h : RecordReady s c va pa k) (hf : s.flaws = []) :
    ∃ t ph, s.bcPage c va = (t, .ok ph) ∧ s.Looked t ∧ ph.owner = .die k ∧ ph.pa = pa := by
  obtain ⟨s1, q, hreach, hcls, hfmt, hplace, howner, hpa⟩ := h.page
  have hlooked : s.Looked s1 := by
    have := State.looked_reach (die := c.die) (va := va) hf c.t (some c.t.core) ⟨false, false, c.sp.supervisor⟩
    rwa [hreach] at this
  refine ⟨s1.enter c.t.vf c.die va q, q.ph, ?_, hlooked.trans (State.looked_enter q), howner, hpa⟩
  have hclass : (q.ph.leaf.cls == clsUntracked || q.ph.leaf.cls == clsUpdate) = true := by simpa using hcls
  simp [State.bcPage, h.aligned, h.window, h.whole, hreach, hclass, hfmt, hplace, howner]

/-- A line with no open request is settled. -/
theorem State.settleLine_idle (h : ∀ x ∈ s.accs, ∀ r ∈ x.reqs, r.loc / 64 ≠ pa / 64) : s.settleLine pa = s := by
  refine List.foldlRecOn (motive := fun t => t = s) s.accs _ rfl fun t ht a ha => ?_
  rw [ht]
  refine if_pos (Bool.or_eq_true_iff.2 (.inl (List.isEmpty_iff.2 (List.filter_eq_nil_iff.2 fun r hr => ?_))))
  simp [h a ha r hr]

/-- BCINIT of a record ends with the status that its table gives (R349), whatever it creates or closes. -/
theorem bcInitAt_status (hst : s.Standing c) (n : Nat) : ∃ t, t.Standing c
    ∧ bcInitAt d (s.tenant c.t.vf).asid n k s c va ph = bcDone d (s.initStatus c.t.vf va k (s.rdBytes ph.pa 64)) t c := by
  by_cases hbad : fieldOf (s.rdBytes ph.pa 64) 0 1 ≠ 0 ∧ s.bcListOk c.t.vf k (s.rdBytes ph.pa 64) = false
  · refine ⟨s, hst, ?_⟩
    rw [bcInitAt_bad hbad.1 hbad.2, State.initStatus, if_pos hbad]
  · have hok : fieldOf (s.rdBytes ph.pa 64) 0 1 = 0 ∨ s.bcListOk c.t.vf k (s.rdBytes ph.pa 64) = true := by
      simpa [Decidable.or_iff_not_imp_left] using hbad
    rw [bcInitAt_good hok, State.initStatus, if_neg hbad]
    cases s.bc? c.t.vf va with
    | some old =>
      by_cases hnh : fieldOf (s.rdBytes ph.pa 64) 0 1 = 0
      · exact ⟨_, hst.bcClose old, by simp [hnh]⟩
      · exact ⟨_, (hst.bcClose old).bcCreate c.t.vf va ph k (indexHash (s.tenant c.t.vf).asid va % 96) n
            (bcHolders (s.rdBytes ph.pa 64)), by simp [hnh]⟩
    | none =>
      by_cases hfull : 32 ≤ (s.sliceCounters k (indexHash (s.tenant c.t.vf).asid va % 96)).length
      · exact ⟨s, hst, by simp [hfull]⟩
      · by_cases hnh : fieldOf (s.rdBytes ph.pa 64) 0 1 = 0
        · exact ⟨s, hst, by simp [hfull, hnh]⟩
        · exact ⟨_, hst.bcCreate c.t.vf va ph k (indexHash (s.tenant c.t.vf).asid va % 96) n (bcHolders (s.rdBytes ph.pa 64)),
            by simp [hfull, hnh]⟩

end

/-- Settles O59. -/
theorem boundedCountersComplete : Obligations.BoundedCountersComplete := by
  intro s c d a b pa k va n take give live word hready
  refine ⟨fun h hintact hidle => ?init, fun st h hkept => ?takeKept,
    fun h hkept => ⟨fun st m hreply => ?takeReply, fun hreply hq hn => ⟨fun hlive => ?takeNone, fun x y hlive hy hopen hle => ?takeHere⟩⟩,
    fun st h hkept => ?giveKept,
    fun h hkept => ⟨fun hn => ?giveZero, fun hn hlive => ?giveNone, fun x hn hlive => ⟨fun y hy hopen hle => ?giveHere, fun hfar => ?giveAway⟩⟩,
    fun h => ⟨fun v x hkept ht => ?readTotal, fun hkept hlive => ?readNone⟩,
    fun h => ⟨fun hlive => ?statNone, fun x hlive => ?stat⟩⟩
  case init =>
    obtain ⟨t, ph, hpage, hlook, howner, rfl⟩ := hready.bcPage h.sound
    have hf := hlook.flaws.trans h.sound
    have hmeet : (t.settleLine ph.pa).meetMem c.t.vf ph.pa 64 = (t, false) := by
      rw [State.settleLine_idle (by rw [hlook.accs]; exact hidle), State.meetMem_sound hf, hlook.lostRange, hintact]
    obtain ⟨u, hu, hinit⟩ := bcInitAt_status (d := d) (va := va) (k := k) (ph := ph) (hlook.standing h.standing) n
    have hexec := exec_bcinit h hpage howner hmeet
    rw [hinit, hlook.initStatus, hlook.rdBytes] at hexec
    exact hu.givesStatus h hexec
  case takeKept => exact h.standing.givesStatus h (exec_bctake_kept h hkept)
  case takeReply =>
    have hst : (s.updTer c.uid fun t => { t with reply := none }).Standing c :=
      h.standing.updTer c.uid (fun _ => rfl) (fun _ => rfl) fun _ => rfl
    exact hst.givesStatus h (exec_bctake_reply h hkept hreply)
  case takeNone =>
    obtain ⟨t, ph, hpage, hlook, _⟩ := hready.bcPage h.sound
    have hexec := exec_bctake_new h hkept hreply hq hpage
    rw [bcTake_none hn ((hlook.bc? ..).trans hlive)] at hexec
    exact (hlook.standing h.standing).givesStatus h hexec
  case takeHere =>
    obtain ⟨t, ph, hpage, hlook, _⟩ := hready.bcPage h.sound
    have hexec := exec_bctake_new h hkept hreply hq hpage
    rw [bcTake_here hn ((hlook.bc? ..).trans hlive) hy hopen hle] at hexec
    exact (hlook.standing h.standing).allowanceBecomes h hexec ((hlook.bc? ..).trans hlive) hy fun _ => rfl
  case giveKept => exact h.standing.givesStatus h (exec_bcgive_kept h hkept)
  case giveZero =>
    obtain ⟨t, ph, hpage, hlook, _⟩ := hready.bcPage h.sound
    have hexec := exec_bcgive_new h hkept hpage
    simp only [n] at hn
    rw [hn, bcGiveAt_zero] at hexec
    exact (hlook.standing h.standing).givesStatus h hexec
  case giveNone =>
    obtain ⟨t, ph, hpage, hlook, _⟩ := hready.bcPage h.sound
    have hexec := exec_bcgive_new h hkept hpage
    rw [bcGiveAt_none hn ((hlook.bc? ..).trans hlive)] at hexec
    exact (hlook.standing h.standing).givesStatus h hexec
  case giveHere =>
    obtain ⟨t, ph, hpage, hlook, _⟩ := hready.bcPage h.sound
    have hexec := exec_bcgive_new h hkept hpage
    rw [bcGiveAt_here hn ((hlook.bc? ..).trans hlive) hy hopen hle] at hexec
    exact (hlook.standing h.standing).allowanceBecomes h hexec ((hlook.bc? ..).trans hlive) hy fun _ => rfl
  case giveAway =>
    obtain ⟨t, ph, hpage, hlook, _⟩ := hready.bcPage h.sound
    have hexec := exec_bcgive_new h hkept hpage
    have hst := hlook.standing h.standing
    rw [bcGiveAt_away hn ((hlook.bc? ..).trans hlive) hfar] at hexec
    by_cases hroom : x.pool + n < 2 ^ 63
    · rw [if_neg (Nat.not_le.2 hroom)] at hexec
      rw [if_pos hroom]
      exact (hst.bcs _ t.fresh).givesStatus h hexec
    · rw [if_pos (Nat.not_lt.1 hroom)] at hexec
      rw [if_neg hroom]
      exact hst.givesStatus h hexec
  case readTotal =>
    have hst : (s.updTer c.uid fun t => { t with total := none }).Standing c :=
      h.standing.updTer c.uid (fun _ => rfl) (fun _ => rfl) fun _ => rfl
    exact hst.gives h (exec_bcread_total h hkept ht)
  case readNone =>
    obtain ⟨t, ph, hpage, hlook, _⟩ := hready.bcPage h.sound
    have hexec := exec_bcread_new h hkept hpage
    rw [(hlook.bc? ..).trans hlive] at hexec
    exact (hlook.standing h.standing).gives h hexec
  case statNone =>
    obtain ⟨t, ph, hpage, hlook, _⟩ := hready.bcPage h.sound
    refine (hlook.standing h.standing).gives h ((issue_eq h).trans (congrArg (fun r => Host.Outcome.next (s.finish c r)) ((bcOp_eq hpage).trans ?_)))
    have hnone := (hlook.bc? ..).trans hlive
    simp only [va] at hnone
    simp only [hnone]
    rfl
  case stat =>
    obtain ⟨t, ph, hpage, hlook, _⟩ := hready.bcPage h.sound
    refine (hlook.standing h.standing).gives h ((issue_eq h).trans (congrArg (fun r => Host.Outcome.next (s.finish c r)) ((bcOp_eq hpage).trans ?_)))
    have hsome := (hlook.bc? ..).trans hlive
    simp only [va] at hsome
    simp only [hsome, bne_iff_ne] <;> rfl

end Sys2Proof.Machine
end

section
/-! ## The fields of a word: what the decoder reads is what the encoder writes -/

namespace Sys2Proof.Machine

section

variable {f n : Nat} {ext : Option Word} {w : Wd} {i : Instr}

/-! ### Operand fields (R29, R30) -/

/-- The numbers that a destination field can name. -/
def dstRange : Dst → Bool
  | .v n => n < 224
  | .s n => n < 16
  | .none => true

theorem encDst_lt {d : Dst} (h : dstRange d = true) : encDst d < 256 := by
  cases d with
  | v n => exact Nat.lt_trans (of_decide_eq_true h) (by decide)
  | s n =>
    have hn : n < 16 := of_decide_eq_true h
    simp only [encDst]
    omega
  | none => decide

theorem getDst_encDst {d : Dst} (h : dstRange d = true) : getDst (encDst d) = some d := by
  cases d with
  | v n =>
    have hn : n < 224 := of_decide_eq_true h
    simp [getDst, encDst, show n ≤ 0xDF by omega]
  | s n =>
    have hn : n < 16 := of_decide_eq_true h
    simp [getDst, encDst, show ¬ 0xE0 + n ≤ 0xDF by omega, show 0xE0 + n ≤ 0xEF by omega]
  | none => rfl

theorem encDst_getDst {d : Dst} (h : getDst f = some d) : encDst d = f := by
  unfold getDst at h
  split at h
  · cases h
    rfl
  split at h
  · cases h
    simp only [encDst]
    omega
  split at h
  next hn =>
    cases h
    exact hn.symm
  · cases h

theorem getS_add (h : n < 16) : getS (224 + n) = some n := by
  simp [getS, show 224 + n ≤ 0xEF by omega]

theorem add_getS (h : getS f = some n) : 224 + n = f := by
  unfold getS at h
  split at h
  · have hn := Option.some.inj h
    omega
  · cases h

theorem encSrc_lt {x : Src} (h : srcRange x = true) : encSrc x < 256 := by
  cases x with
  | v n =>
    have hn : n < 224 := of_decide_eq_true h
    simp only [encSrc]
    omega
  | s n =>
    have hn : n < 16 := of_decide_eq_true h
    simp only [encSrc]
    omega
  | latch k =>
    simp only [srcRange, Bool.and_eq_true, decide_eq_true_eq] at h
    simp only [encSrc]
    omega
  | _ => simp [encSrc]

/-- A field is 0xFF exactly when it names an immediate. -/
theorem encSrc_eq_255 {x : Src} (h : srcRange x = true) : (encSrc x == 255) = srcImm x := by
  cases x with
  | v n =>
    have hn : n < 224 := of_decide_eq_true h
    simp only [encSrc, srcImm, beq_eq_false_iff_ne]
    omega
  | s n =>
    have hn : n < 16 := of_decide_eq_true h
    simp only [encSrc, srcImm, beq_eq_false_iff_ne]
    omega
  | latch k =>
    simp only [srcRange, Bool.and_eq_true, decide_eq_true_eq] at h
    simp only [encSrc, srcImm, beq_eq_false_iff_ne]
    omega
  | _ => rfl

theorem immOf_isSome (x : Src) : (immOf x).isSome = srcImm x := by cases x <;> rfl

theorem immOf_of_not {x : Src} (h : srcImm x = false) : immOf x = none := by
  rw [← Option.not_isSome_iff_eq_none, immOf_isSome, h]
  exact Bool.false_ne_true

/-- A source field reads back; an immediate's value stands in the extension word. -/
theorem getSrc_encSrc {x : Src} (h : srcRange x = true) (hx : srcImm x = true → ext = immOf x) :
    getSrc (encSrc x) ext = some x := by
  cases x with
  | v n =>
    have hn : n < 224 := of_decide_eq_true h
    simp [getSrc, encSrc, show n ≤ 0xDF by omega]
  | s n =>
    have hn : n < 16 := of_decide_eq_true h
    simp [getSrc, encSrc, show ¬ 0xE0 + n ≤ 0xDF by omega, show 0xE0 + n ≤ 0xEF by omega]
  | latch k =>
    simp only [srcRange, Bool.and_eq_true, decide_eq_true_eq] at h
    simp [getSrc, encSrc, show ¬ 0xF0 + k ≤ 0xDF by omega, show ¬ 0xF0 + k ≤ 0xEF by omega, show k ≠ 0 by omega,
      show 0xF0 + k ≤ 0xF7 by omega]
  | imm w => rw [hx rfl]; rfl
  | _ => rfl

theorem getSrc_noImm {x : Src} (h : srcRange x = true) (hx : srcImm x = false) : getSrc (encSrc x) ext = some x :=
  getSrc_encSrc h fun hi => absurd (hi.symm.trans hx) (by decide)

/-- What a source field that has been read writes: its bits, and the extension word where it is 0xFF. -/
theorem encSrc_getSrc {x : Src} (hf : f < 256) (h : getSrc f ext = some x) :
    encSrc x = f ∧ immOf x = if f = 255 then ext else none := by
  unfold getSrc at h
  split at h
  next hv =>
    cases h
    exact ⟨rfl, (if_neg (by omega)).symm⟩
  split at h
  next hs =>
    cases h
    refine ⟨?_, (if_neg (by omega)).symm⟩
    simp only [encSrc]
    omega
  split at h
  next hz =>
    cases h
    exact ⟨hz.symm, (if_neg (by omega)).symm⟩
  split at h
  next hl =>
    cases h
    refine ⟨?_, (if_neg (by omega)).symm⟩
    simp only [encSrc]
    omega
  -- the special values
  iterate 7
    split at h
    next he =>
      cases h
      exact ⟨he.symm, (if_neg (by omega)).symm⟩
  obtain ⟨e, rfl, rfl⟩ := Option.map_eq_some_iff.1 h
  obtain rfl : f = 255 := by omega
  exact ⟨rfl, rfl⟩

theorem encSrc_getSrc_none {x : Src} (hf : f < 256) (h : getSrc f none = some x) : encSrc x = f :=
  (encSrc_getSrc hf h).1

theorem need_eq_some {b : Bool} {u : Unit} : need b = some u ↔ b = true := by cases b <;> simp [need]

/-! ### The modifier word (R43) -/

theorem encMods_lt (m : Mods) : (encMods m).toNat = m.sat.toNat + 2 * m.clamp.toNat + 4 * m.nega.toNat + 8 * m.negb.toNat
    + 16 * m.absa.toNat + 32 * m.absb.toNat + 64 * m.scale.toNat := by
  have h1 := m.sat.toNat_le
  have h2 := m.clamp.toNat_le
  have h3 := m.nega.toNat_le
  have h4 := m.negb.toNat_le
  have h5 := m.absa.toNat_le
  have h6 := m.absb.toNat_le
  have h7 := m.scale.isLt
  rw [encMods, BitVec.toNat_ofNat, Nat.mod_eq_of_lt (by omega)]

theorem beq_one_of_toNat {b : Bool} (h : n % 2 = b.toNat) : (n % 2 == 1) = b := by
  rw [h]
  cases b <;> rfl

theorem getMods_encMods (m : Mods) : getMods (encMods m) = some m := by
  have h1 := m.sat.toNat_le
  have h2 := m.clamp.toNat_le
  have h3 := m.nega.toNat_le
  have h4 := m.negb.toNat_le
  have h5 := m.absa.toNat_le
  have h6 := m.absb.toNat_le
  have h7 := m.scale.isLt
  have hn := encMods_lt m
  have hlt : (encMods m).toNat < 2 ^ 12 := by omega
  have hscale : BitVec.ofNat 6 ((encMods m).toNat / 64) = m.scale := BitVec.eq_of_toNat_eq (by simp; omega)
  simp only [getMods, if_pos hlt, hscale, beq_one_of_toNat (b := m.sat) (n := (encMods m).toNat) (by omega),
    beq_one_of_toNat (b := m.clamp) (n := (encMods m).toNat / 2) (by omega),
    beq_one_of_toNat (b := m.nega) (n := (encMods m).toNat / 4) (by omega),
    beq_one_of_toNat (b := m.negb) (n := (encMods m).toNat / 8) (by omega),
    beq_one_of_toNat (b := m.absa) (n := (encMods m).toNat / 16) (by omega),
    beq_one_of_toNat (b := m.absb) (n := (encMods m).toNat / 32) (by omega)]

theorem toNat_beq_one (n : Nat) : (n % 2 == 1).toNat = n % 2 := by
  rcases Nat.mod_two_eq_zero_or_one n with h | h <;> rw [h] <;> rfl

theorem encMods_getMods {e : Word} {m : Mods} (h : getMods e = some m) : encMods m = e := by
  simp only [getMods] at h
  split at h
  · cases h
    refine BitVec.eq_of_toNat_eq ?_
    rw [encMods_lt]
    simp only [toNat_beq_one, BitVec.toNat_ofNat]
    omega
  · cases h

/-- The modifier word of an A-class word reads back where an immediate leaves no room for one. -/
theorem getModsA_extA {a b : Src} {m : Option Mods} (h : (srcImm a || srcImm b) = true → m = none) :
    getModsA (extA a b m) (srcImm a || srcImm b) = some m := by
  have hlast : ∀ m : Option Mods, getModsA (m.map encMods) false = some m := fun m => by
    cases m with
    | none => rfl
    | some m => simp [getModsA, getMods_encMods]
  cases ha : immOf a with
  | some w =>
    have hi : srcImm a = true := by rw [← immOf_isSome, ha]; rfl
    rw [h (by simp [hi])]
    simp [extA, immOf2, ha, hi, getModsA]
  | none =>
    have hi : srcImm a = false := by rw [← immOf_isSome, ha]; rfl
    cases hb : immOf b with
    | some w =>
      have hj : srcImm b = true := by rw [← immOf_isSome, hb]; rfl
      rw [h (by simp [hj])]
      simp [extA, immOf2, ha, hb, hj, getModsA]
    | none =>
      have hj : srcImm b = false := by rw [← immOf_isSome, hb]; rfl
      simpa [extA, immOf2, ha, hb, hi, hj] using hlast m

/-- What an A-class word's operand and modifier fields that have been read write as its extension word. -/
theorem extA_getModsA {a b : Src} {m : Option Mods} {fa fb : Nat} (ha : immOf a = if fa = 255 then ext else none)
    (hb : immOf b = if fb = 255 then ext else none) (hm : getModsA ext (fa == 255 || fb == 255) = some m) :
    extA a b m = ext := by
  cases ext with
  | none =>
    have hnone : m = none := by
      simp only [getModsA] at hm
      split at hm
      · cases hm
      · exact (Option.some.inj hm).symm
    simp [extA, immOf2, ha, hb, hnone]
  | some e =>
    by_cases hi : (fa == 255 || fb == 255) = true
    · by_cases h255 : fa = 255
      · simp [extA, immOf2, ha, h255]
      · have hb255 : fb = 255 := by simpa [h255] using hi
        simp [extA, immOf2, ha, hb, h255, hb255]
    · simp only [getModsA, if_neg hi] at hm
      obtain ⟨m', hm', rfl⟩ := Option.map_eq_some_iff.1 hm
      simp only [Bool.or_eq_true, beq_iff_eq, not_or] at hi
      simp [extA, immOf2, ha, hb, hi, encMods_getMods hm']

/-! ### The checks of a well-formed instruction (R58) -/

theorem wf_opd (h : WellFormed i = true) {o : Opd} (ho : o ∈ opds i) : opdOk o = true :=
  List.all_eq_true.1 (Laws.FieldsFit.parts h).2.1 o ho

theorem wf_src (h : WellFormed i = true) {x : Src} {k : SrcKind} (ho : .src x w k ∈ opds i) : srcRange x = true := by
  have := wf_opd h ho
  simp only [opdOk, Bool.and_eq_true] at this
  exact this.1.2

theorem wf_accepts (h : WellFormed i = true) {x : Src} {k : SrcKind} (ho : .src x w k ∈ opds i) : srcAccepts k x = true := by
  have := wf_opd h ho
  simp only [opdOk, Bool.and_eq_true] at this
  exact this.1.1

/-- The fields that take an immediate. -/
def SrcKind.takesImm : SrcKind → Bool
  | .any | .noLatch | .uni | .sZeroImm | .sImm => true
  | _ => false

theorem wf_noImm (h : WellFormed i = true) {x : Src} {k : SrcKind} (ho : .src x w k ∈ opds i) (hk : k.takesImm = false) :
    srcImm x = false := by
  have := wf_accepts h ho
  cases x with
  | imm e => cases k <;> simp_all [srcAccepts, SrcKind.takesImm, srcImm]
  | _ => rfl

theorem wf_sReg (h : WellFormed i = true) {k : SrcKind} (ho : .src (.s n) w k ∈ opds i) : n < 16 :=
  of_decide_eq_true (wf_src h ho)

theorem dstRange_of_accepts {k : DstKind} {d : Dst} (h : dstAccepts k w d = true) : dstRange d = true := by
  cases d with
  | v n =>
    simp only [dstAccepts, Bool.and_eq_true] at h
    exact h.1
  | s n =>
    simp only [dstAccepts, Bool.and_eq_true] at h
    exact h.1.2
  | none => rfl

theorem wf_dst (h : WellFormed i = true) {d : Dst} {k : DstKind} (ho : .dst d w k ∈ opds i) : dstRange d = true :=
  dstRange_of_accepts (wf_opd h ho)

theorem wf_both (h : WellFormed i = true) {d : Dst} (ho : .both d w ∈ opds i) : dstRange d = true :=
  dstRange_of_accepts (wf_opd h ho)

theorem wf_pRead (h : WellFormed i = true) {p : Nat} (ho : .pRead p ∈ opds i) : p < 8 := of_decide_eq_true (wf_opd h ho)

theorem wf_pWrite (h : WellFormed i = true) {p : Nat} (ho : .pWrite p ∈ opds i) : p < 8 := of_decide_eq_true (wf_opd h ho)

theorem wf_immCount (h : WellFormed i = true) : immCount i ≤ 1 := by
  simp only [WellFormed, formOk, Bool.and_eq_true, decide_eq_true_eq] at h
  exact h.1.1.1.2

/-- A word holds one immediate at most. -/
theorem wf_oneImm (h : WellFormed i = true) {x y : Src} {w' : Wd} {k k' : SrcKind}
    (hs : [Opd.src x w k, .src y w' k'].Sublist (opds i)) : srcImm x = false ∨ srcImm y = false := by
  refine Decidable.byContradiction fun hno => ?_
  simp only [not_or, Bool.not_eq_false] at hno
  have hle := Nat.le_trans (hs.filter fun o => match o with | .src x _ _ => srcImm x | _ => false).length_le (wf_immCount h)
  simp [hno.1, hno.2] at hle

/-- A word with an immediate has no modifier word. -/
theorem wf_room (h : WellFormed i = true) {x : Src} {k : SrcKind} (ho : .src x w k ∈ opds i) (hx : srcImm x = true) :
    modsOf i = none := by
  simp only [WellFormed, formOk, Bool.and_eq_true] at h
  have hroom := h.1.2
  simp only [modsRoom, Bool.or_eq_true, beq_iff_eq] at hroom
  refine hroom.resolve_left fun h0 => ?_
  exact List.filter_eq_nil_iff.1 (List.length_eq_zero_iff.1 h0) _ ho hx

end

end Sys2Proof.Machine
end

section
/-! ## The word of the fields and its bytes (R6, R26) -/

namespace Sys2Proof.Machine

section

variable {f : Fields} {w e : Word} {i : Instr} {rest : List Byte}

/-- The opcode and the fields stay in their places of the word. -/
structure FieldsFit (f : Fields) : Prop where
  op : f.op < 128
  d : f.d < 256
  a : f.a < 256
  b : f.b < 256

theorem toNat_packWord (hf : FieldsFit f) : (packWord f).toNat =
    f.b + 2 ^ 8 * f.a + 2 ^ 16 * f.d + 2 ^ 24 * f.op + 2 ^ 31 * f.ext.isSome.toNat := by
  obtain ⟨hop, hd, ha, hb⟩ := hf
  have hx := f.ext.isSome.toNat_le
  rw [packWord, BitVec.toNat_ofNat, Nat.mod_eq_of_lt (by omega)]

/-- X of the word says whether there is an extension word. -/
theorem packWord_x (hf : FieldsFit f) : ((packWord f).toNat / 2 ^ 31 == 1) = f.ext.isSome := by
  have hn := toNat_packWord hf
  obtain ⟨hop, hd, ha, hb⟩ := hf
  cases hx : f.ext.isSome with
  | true =>
    rw [hx] at hn
    simp only [Bool.toNat_true] at hn
    simp only [beq_iff_eq]
    omega
  | false =>
    rw [hx] at hn
    simp only [Bool.toNat_false] at hn
    simp only [beq_eq_false_iff_ne]
    omega

theorem unpackWord_packWord (hf : FieldsFit f) (he : ∀ x, f.ext = some x → x = e) : unpackWord (packWord f) e = f := by
  have hext : (if ((packWord f).toNat / 2 ^ 31 == 1) = true then some e else none) = f.ext := by
    rw [packWord_x hf]
    cases hx : f.ext with
    | none => rfl
    | some x => simp [he x hx]
  have hn := toNat_packWord hf
  have hx := f.ext.isSome.toNat_le
  unfold unpackWord
  dsimp only
  rw [hext]
  obtain ⟨hop, hd, ha, hb⟩ := hf
  obtain ⟨op, d, a, b, ext⟩ := f
  simp only [Fields.mk.injEq, and_true]
  simp only at hn hop hd ha hb hx
  omega

theorem fit_unpackWord (w e : Word) : FieldsFit (unpackWord w e) :=
  ⟨Nat.mod_lt _ (by decide), Nat.mod_lt _ (by decide), Nat.mod_lt _ (by decide), Nat.mod_lt _ (by decide)⟩

theorem packWord_unpackWord (w e : Word) : packWord (unpackWord w e) = w := by
  refine BitVec.eq_of_toNat_eq ?_
  have hw := w.isLt
  have hx : (unpackWord w e).ext.isSome.toNat = w.toNat / 2 ^ 31 := by
    by_cases h : w.toNat / 2 ^ 31 = 1
    · rw [h]
      exact congrArg (fun x : Option Word => x.isSome.toNat) (if_pos (beq_iff_eq.2 h))
    · have h0 : w.toNat / 2 ^ 31 = 0 := by omega
      rw [h0]
      exact congrArg (fun x : Option Word => x.isSome.toNat) (if_neg (mt beq_iff_eq.1 h))
  rw [toNat_packWord (fit_unpackWord w e), hx]
  simp only [unpackWord]
  omega

theorem wordOfBytes_bytes (w : Word) : wordOfBytes (BitVec.ofNat 8 w.toNat) (BitVec.ofNat 8 (w.toNat / 2 ^ 8))
    (BitVec.ofNat 8 (w.toNat / 2 ^ 16)) (BitVec.ofNat 8 (w.toNat / 2 ^ 24)) = w := by
  refine BitVec.eq_of_toNat_eq ?_
  have hw := w.isLt
  simp only [wordOfBytes, BitVec.toNat_ofNat]
  omega

theorem bytesOfWord_wordOfBytes (b0 b1 b2 b3 : Byte) : bytesOfWord (wordOfBytes b0 b1 b2 b3) = [b0, b1, b2, b3] := by
  have h0 := b0.isLt
  have h1 := b1.isLt
  have h2 := b2.isLt
  have h3 := b3.isLt
  have hn : (wordOfBytes b0 b1 b2 b3).toNat = b0.toNat + 2 ^ 8 * b1.toNat + 2 ^ 16 * b2.toNat + 2 ^ 24 * b3.toNat := by
    rw [wordOfBytes, BitVec.toNat_ofNat, Nat.mod_eq_of_lt (by omega)]
  rw [bytesOfWord, hn]
  refine List.cons_eq_cons.2 ⟨?_, List.cons_eq_cons.2 ⟨?_, List.cons_eq_cons.2 ⟨?_, List.cons_eq_cons.2 ⟨?_, rfl⟩⟩⟩⟩
  all_goals exact BitVec.eq_of_toNat_eq (by rw [BitVec.toNat_ofNat]; omega)

/-! ### Decoding bytes -/

theorem decode_short (hx : (w.toNat / 2 ^ 31 == 1) = false) (hd : decodeFields (unpackWord w 0) = some i) :
    decode (bytesOfWord w ++ rest) = .ok (i, 4) := by
  simp only [bytesOfWord, List.cons_append, List.nil_append, decode, wordOfBytes_bytes, hx, hd, Bool.false_eq_true, if_false]

theorem decode_long (hx : (w.toNat / 2 ^ 31 == 1) = true) (hd : decodeFields (unpackWord w e) = some i) :
    decode (bytesOfWord w ++ (bytesOfWord e ++ rest)) = .ok (i, 8) := by
  simp only [bytesOfWord, List.cons_append, List.nil_append, decode, wordOfBytes_bytes, hx, hd, if_true]

/-- Bytes whose fields decode to an instruction that these fields encode. -/
theorem decode_encodeBytes (hf : FieldsFit (encodeFields i)) (hd : decodeFields (encodeFields i) = some i) :
    decode (encodeBytes i ++ rest) = .ok (i, 4 * (encode i).length) := by
  have hx := packWord_x hf
  cases hext : (encodeFields i).ext with
  | none =>
    rw [hext] at hx
    have hunpack := unpackWord_packWord (e := 0) hf fun x h => absurd (hext.symm.trans h) nofun
    simp only [encodeBytes, encode, hext, Option.toList_none, List.flatMap_cons, List.flatMap_nil, List.append_nil]
    exact decode_short hx ((congrArg decodeFields hunpack).trans hd)
  | some e =>
    rw [hext] at hx
    have hunpack := unpackWord_packWord (e := e) hf fun x h => Option.some.inj (h.symm.trans hext)
    simp only [encodeBytes, encode, hext, Option.toList_some, List.flatMap_cons, List.flatMap_nil, List.append_nil,
      List.append_assoc]
    exact decode_long hx ((congrArg decodeFields hunpack).trans hd)

/-- What the decoder answers comes from the fields of the first word, and of the second where X is set. -/
theorem decode_eq_ok {bs : List Byte} {n : Nat} (h : decode bs = .ok (i, n)) : ∃ w e rest, decodeFields (unpackWord w e) = some i
    ∧ ((w.toNat / 2 ^ 31 == 1) = false ∧ n = 4 ∧ bs = bytesOfWord w ++ rest
      ∨ (w.toNat / 2 ^ 31 == 1) = true ∧ n = 8 ∧ bs = bytesOfWord w ++ (bytesOfWord e ++ rest)) := by
  unfold decode at h
  split at h
  next b0 b1 b2 b3 rest =>
    dsimp only at h
    split at h
    next hx =>
      split at h
      next c0 c1 c2 c3 rest' =>
        split at h
        next j hj =>
          cases h
          refine ⟨_, _, rest', hj, .inr ⟨hx, rfl, ?_⟩⟩
          simp only [bytesOfWord_wordOfBytes, List.cons_append, List.nil_append]
        next => cases h
      next => cases h
    next hx =>
      split at h
      next j hj =>
        cases h
        refine ⟨_, _, rest, hj, .inl ⟨Bool.eq_false_iff.2 hx, rfl, ?_⟩⟩
        simp only [bytesOfWord_wordOfBytes, List.cons_append, List.nil_append]
      next => cases h
  next => cases h

/-- The encoding of an instruction whose fields are those of a word. -/
theorem encode_of_unpackWord (h : encodeFields i = unpackWord w e) :
    encode i = w :: (if w.toNat / 2 ^ 31 == 1 then some e else none).toList := by
  have hext : (encodeFields i).ext = if w.toNat / 2 ^ 31 == 1 then some e else none := congrArg Fields.ext h
  rw [encode, hext, h, packWord_unpackWord]

end

end Sys2Proof.Machine
end

section
/-! ## What the parser reads is what the encoder writes -/

namespace Sys2Proof.Machine

section

variable {f : Fields} {i : Instr} {op n : Nat}

theorem fields_eq {d a b : Nat} {e : Option Word} (hop : f.op = op) (hd : d = f.d) (ha : a = f.a) (hb : b = f.b) (he : e = f.ext) :
    (⟨op, d, a, b, e⟩ : Fields) = f := by
  subst hop hd ha hb he
  rfl

/-- The extension word of a word with one operand field that may name an immediate. -/
theorem immOf_eq_ext {x : Src} {fx : Nat} {u : Unit} (hx : needX f (fx == 255) = some u)
    (hi : immOf x = if fx = 255 then f.ext else none) : immOf x = f.ext := by
  have hsame := beq_iff_eq.1 (need_eq_some.1 hx)
  rw [hi]
  split
  next => rfl
  next h =>
    rw [beq_eq_false_iff_ne.2 h] at hsame
    exact (Option.not_isSome_iff_eq_none.1 (by rw [← hsame]; exact Bool.false_ne_true)).symm

/-- The extension word of a word with two operand fields that may name one. -/
theorem immOf2_eq_ext {x y : Src} {fx fy : Nat} {u : Unit} (hx : needX f (fx == 255 || fy == 255) = some u)
    (hi : immOf x = if fx = 255 then f.ext else none) (hj : immOf y = if fy = 255 then f.ext else none) :
    immOf2 x y = f.ext := by
  have hsame := beq_iff_eq.1 (need_eq_some.1 hx)
  rw [immOf2, hi, hj]
  by_cases h : fx = 255
  · rw [if_pos h]
    cases hext : f.ext with
    | some e => rfl
    | none => simp
  · rw [if_neg h]
    by_cases h' : fy = 255
    · rw [if_pos h']
    · rw [if_neg h']
      rw [beq_eq_false_iff_ne.2 h, beq_eq_false_iff_ne.2 h'] at hsame
      exact (Option.not_isSome_iff_eq_none.1 (by rw [← hsame]; exact Bool.false_ne_true)).symm

theorem ext_isNone (h : f.ext.isNone = true) : none = f.ext := (Option.isNone_iff_eq_none.1 h).symm

/-- A word put together again from its parts. -/
theorem ofNat_eq_ext {e : Word} (he : f.ext = some e) (hn : n = e.toNat) : some (BitVec.ofNat 32 n) = f.ext := by
  rw [he, hn, BitVec.ofNat_toNat, BitVec.setWidth_eq]

theorem toNat_beq_one_of_lt (h : n < 2) : (n == 1).toNat = n := by
  obtain rfl | rfl : n = 0 ∨ n = 1 := by omega
  · rfl
  · rfl

/-! ### Words of the A class -/

theorem parseA_exact {k : Dst → Src → Src → Option Mods → Instr} (hk : ∀ d a b m, encodeFields (k d a b m) = ⟨op, encDst d, encSrc a, encSrc b, extA a b m⟩)
    (hf : FieldsFit f) (hop : f.op = op) (h : parseA k f = some i) : encodeFields i = f := by
  simp only [parseA, Option.bind_eq_bind, Option.bind_eq_some_iff, Option.pure_def, Option.some.injEq] at h
  obtain ⟨_, _, d, hd, a, ha, b, hb, m, hm, rfl⟩ := h
  obtain ⟨ha, hai⟩ := encSrc_getSrc hf.a ha
  obtain ⟨hb, hbi⟩ := encSrc_getSrc hf.b hb
  exact (hk d a b m).trans (fields_eq hop (encDst_getDst hd) ha hb (extA_getModsA hai hbi hm))

/-- A field that names no operand takes no part in the modifier word. -/
theorem parseU_spec {k : Dst → Src → Option Mods → Instr} (hf : FieldsFit f) (h : parseU k f = some i) :
    ∃ d a m, i = k d a m ∧ encDst d = f.d ∧ encSrc a = f.a ∧ extA a .zero m = f.ext := by
  simp only [parseU, Option.bind_eq_bind, Option.bind_eq_some_iff, Option.pure_def, Option.some.injEq] at h
  obtain ⟨d, hd, a, ha, m, hm, rfl⟩ := h
  obtain ⟨ha, hai⟩ := encSrc_getSrc hf.a ha
  refine ⟨d, a, m, rfl, encDst_getDst hd, ha, extA_getModsA (fb := 0) hai rfl ?_⟩
  rwa [show (f.a == 255 || (0 : Nat) == 255) = (f.a == 255) from Bool.or_false _]

theorem parseU_exact {k : Dst → Src → Option Mods → Instr} (hk : ∀ d a m, encodeFields (k d a m) = ⟨op, encDst d, encSrc a, n, extA a .zero m⟩)
    (hf : FieldsFit f) (hop : f.op = op) (hb : f.b = n) (h : parseU k f = some i) : encodeFields i = f := by
  obtain ⟨d, a, m, rfl, hd, ha, he⟩ := parseU_spec hf h
  exact (hk d a m).trans (fields_eq hop hd ha hb.symm he)

theorem parseUF_exact {k : Dst → Src → Nat → Option Mods → Instr}
    (hk : ∀ d a t m, encodeFields (k d a t m) = ⟨op, encDst d, encSrc a, t, extA a .zero m⟩)
    (hf : FieldsFit f) (hop : f.op = op) (h : parseUF k f = some i) : encodeFields i = f := by
  obtain ⟨d, a, m, rfl, hd, ha, he⟩ := parseU_spec hf h
  exact (hk d a f.b m).trans (fields_eq hop hd ha rfl he)

theorem parseSel_exact (hf : FieldsFit f) (hop : f.op = 0x16) (h : parseSel f = some i) : encodeFields i = f := by
  simp only [parseSel, Option.bind_eq_bind, Option.bind_eq_some_iff, Option.pure_def, Option.some.injEq, need_eq_some,
    decide_eq_true_eq] at h
  obtain ⟨e, he, _, hlt, d, hd, a, ha, b, hb, rfl⟩ := h
  refine fields_eq hop (encDst_getDst hd) (encSrc_getSrc_none hf.a ha) (encSrc_getSrc_none hf.b hb) (ofNat_eq_ext he ?_)
  rw [toNat_beq_one_of_lt (by omega)]
  omega

theorem parseCmp_exact {k : Nat → Nat → Src → Src → Option Mods → Instr}
    (hk : ∀ c p a b m, encodeFields (k c p a b m) = ⟨op, p + 8 * c, encSrc a, encSrc b, extA a b m⟩)
    (hf : FieldsFit f) (hop : f.op = op) (h : parseCmp k f = some i) : encodeFields i = f := by
  simp only [parseCmp, Option.bind_eq_bind, Option.bind_eq_some_iff, Option.pure_def, Option.some.injEq] at h
  obtain ⟨_, _, a, ha, b, hb, m, hm, rfl⟩ := h
  obtain ⟨ha, hai⟩ := encSrc_getSrc hf.a ha
  obtain ⟨hb, hbi⟩ := encSrc_getSrc hf.b hb
  exact (hk ..).trans (fields_eq hop (Nat.mod_add_div ..) ha hb (extA_getModsA hai hbi hm))

/-! ### Words of the K and M classes -/

section

variable {k : Dst → Instr}

theorem parseD_exact (hk : ∀ d, encodeFields (k d) = ⟨op, encDst d, 0, n, none⟩) (hop : f.op = op) (hb : f.b = n)
    (h : parseD k f = some i) : encodeFields i = f := by
  simp only [parseD, Option.bind_eq_bind, Option.bind_eq_some_iff, Option.pure_def, Option.some.injEq, need_eq_some,
    Bool.and_eq_true, beq_iff_eq] at h
  obtain ⟨_, ⟨ha, hx⟩, d, hd, rfl⟩ := h
  exact (hk d).trans (fields_eq hop (encDst_getDst hd) ha.symm hb.symm (ext_isNone hx))

end

theorem parseMovi_exact {k : Dst → Word → Instr} (hk : ∀ d w, encodeFields (k d w) = ⟨op, encDst d, 0, 0, some w⟩)
    (hop : f.op = op) (h : parseMovi k f = some i) : encodeFields i = f := by
  simp only [parseMovi, Option.bind_eq_bind, Option.bind_eq_some_iff, Option.pure_def, Option.some.injEq, need_eq_some,
    Bool.and_eq_true, beq_iff_eq] at h
  obtain ⟨_, ⟨ha, hb⟩, d, hd, e, he, rfl⟩ := h
  exact (hk d e).trans (fields_eq hop (encDst_getDst hd) ha.symm hb.symm he.symm)

theorem parsePset_exact (hf : FieldsFit f) (hop : f.op = 0x1c) (h : parsePset f = some i) : encodeFields i = f := by
  simp only [parsePset, Option.bind_eq_bind, Option.bind_eq_some_iff, Option.pure_def, Option.some.injEq, need_eq_some,
    Bool.and_eq_true, decide_eq_true_eq] at h
  obtain ⟨_, ⟨_, hlt⟩, _, hx, a, ha, rfl⟩ := h
  obtain ⟨ha, hai⟩ := encSrc_getSrc hf.a ha
  exact fields_eq hop rfl ha (toNat_beq_one_of_lt hlt) (immOf_eq_ext hx hai)

/-- A word with a source in a and nothing in d or the extension word. -/
theorem parseReg_exact {k : Src → Instr} (hk : ∀ a, encodeFields (k a) = ⟨op, 0, encSrc a, n, none⟩) (hf : FieldsFit f)
    (hop : f.op = op) (hb : f.b = n) (h : parseReg k f = some i) : encodeFields i = f := by
  simp only [parseReg, Option.bind_eq_bind, Option.bind_eq_some_iff, Option.pure_def, Option.some.injEq, need_eq_some,
    Bool.and_eq_true, beq_iff_eq] at h
  obtain ⟨_, ⟨hd, hx⟩, a, ha, rfl⟩ := h
  exact (hk a).trans (fields_eq hop hd.symm (encSrc_getSrc_none hf.a ha) hb.symm (ext_isNone hx))

theorem parseDA_exact {k : Dst → Src → Instr} (hk : ∀ d a, encodeFields (k d a) = ⟨op, encDst d, encSrc a, n, immOf a⟩)
    (hf : FieldsFit f) (hop : f.op = op) (hb : f.b = n) (h : parseDA k f = some i) : encodeFields i = f := by
  simp only [parseDA, Option.bind_eq_bind, Option.bind_eq_some_iff, Option.pure_def, Option.some.injEq] at h
  obtain ⟨_, hx, d, hd, a, ha, rfl⟩ := h
  obtain ⟨ha, hai⟩ := encSrc_getSrc hf.a ha
  exact (hk d a).trans (fields_eq hop (encDst_getDst hd) ha hb.symm (immOf_eq_ext hx hai))

theorem parseDAF_exact {k : Dst → Src → Nat → Instr} (hk : ∀ d a, encodeFields (k d a f.b) = ⟨op, encDst d, encSrc a, f.b, immOf a⟩)
    (hf : FieldsFit f) (hop : f.op = op) (h : parseDAF k f = some i) : encodeFields i = f :=
  parseDA_exact hk hf hop rfl h

theorem parseAI_exact {k : Src → Instr} (hk : ∀ a, encodeFields (k a) = ⟨op, 0, encSrc a, n, immOf a⟩) (hf : FieldsFit f)
    (hop : f.op = op) (hb : f.b = n) (h : parseAI k f = some i) : encodeFields i = f := by
  simp only [parseAI, Option.bind_eq_bind, Option.bind_eq_some_iff, Option.pure_def, Option.some.injEq, need_eq_some,
    beq_iff_eq] at h
  obtain ⟨_, hd, _, hx, a, ha, rfl⟩ := h
  obtain ⟨ha, hai⟩ := encSrc_getSrc hf.a ha
  exact (hk a).trans (fields_eq hop hd.symm ha hb.symm (immOf_eq_ext hx hai))

theorem parseAB_exact {k : Src → Src → Instr} (hk : ∀ a b, encodeFields (k a b) = ⟨op, 0, encSrc a, encSrc b, immOf2 a b⟩)
    (hf : FieldsFit f) (hop : f.op = op) (h : parseAB k f = some i) : encodeFields i = f := by
  simp only [parseAB, Option.bind_eq_bind, Option.bind_eq_some_iff, Option.pure_def, Option.some.injEq, need_eq_some,
    Bool.and_eq_true, beq_iff_eq] at h
  obtain ⟨_, ⟨hd, _⟩, _, hx, a, ha, b, hb, rfl⟩ := h
  obtain ⟨ha, hai⟩ := encSrc_getSrc hf.a ha
  obtain ⟨hb, hbi⟩ := encSrc_getSrc hf.b hb
  exact (hk a b).trans (fields_eq hop hd.symm ha hb (immOf2_eq_ext hx hai hbi))

theorem parseOne_exact {j : Instr} (hk : encodeFields j = ⟨op, 0, 0, n, none⟩) (hop : f.op = op) (hb : f.b = n)
    (h : parseOne j f = some i) : encodeFields i = f := by
  simp only [parseOne, Option.bind_eq_bind, Option.bind_eq_some_iff, Option.pure_def, Option.some.injEq, need_eq_some,
    Bool.and_eq_true, beq_iff_eq] at h
  obtain ⟨_, ⟨⟨hd, ha⟩, hx⟩, rfl⟩ := h
  exact hk.trans (fields_eq hop hd.symm ha.symm hb.symm (ext_isNone hx))

theorem parseLd_exact {k : Dst → Src → Src → Instr} (hk : ∀ d a b, encodeFields (k d a b) = ⟨op, encDst d, encSrc a, encSrc b, immOf b⟩)
    (hf : FieldsFit f) (hop : f.op = op) (h : parseLd k f = some i) : encodeFields i = f := by
  simp only [parseLd, Option.bind_eq_bind, Option.bind_eq_some_iff, Option.pure_def, Option.some.injEq] at h
  obtain ⟨_, hx, d, hd, a, ha, b, hb, rfl⟩ := h
  obtain ⟨hb, hbi⟩ := encSrc_getSrc hf.b hb
  exact (hk d a b).trans (fields_eq hop (encDst_getDst hd) (encSrc_getSrc_none hf.a ha) hb (immOf_eq_ext hx hbi))

theorem parseSt_exact {k : Src → Src → Src → Instr} (hk : ∀ d a b, encodeFields (k d a b) = ⟨op, encSrc d, encSrc a, encSrc b, immOf b⟩)
    (hf : FieldsFit f) (hop : f.op = op) (h : parseSt k f = some i) : encodeFields i = f := by
  simp only [parseSt, Option.bind_eq_bind, Option.bind_eq_some_iff, Option.pure_def, Option.some.injEq] at h
  obtain ⟨_, hx, d, hd, a, ha, b, hb, rfl⟩ := h
  obtain ⟨hb, hbi⟩ := encSrc_getSrc hf.b hb
  exact (hk d a b).trans (fields_eq hop (encSrc_getSrc_none hf.d hd) (encSrc_getSrc_none hf.a ha) hb (immOf_eq_ext hx hbi))

theorem parseNAB_exact {k : Nat → Src → Src → Instr} (hk : ∀ a b, encodeFields (k f.d a b) = ⟨op, f.d, encSrc a, encSrc b, immOf b⟩)
    (hf : FieldsFit f) (hop : f.op = op) (h : parseNAB k f = some i) : encodeFields i = f := by
  simp only [parseNAB, Option.bind_eq_bind, Option.bind_eq_some_iff, Option.pure_def, Option.some.injEq] at h
  obtain ⟨_, hx, a, ha, b, hb, rfl⟩ := h
  obtain ⟨hb, hbi⟩ := encSrc_getSrc hf.b hb
  exact (hk a b).trans (fields_eq hop rfl (encSrc_getSrc_none hf.a ha) hb (immOf_eq_ext hx hbi))

theorem parseDSB_exact {k : Dst → Nat → Src → Instr} (hk : ∀ d a b, encodeFields (k d a b) = ⟨op, encDst d, 224 + a, encSrc b, immOf b⟩)
    (hf : FieldsFit f) (hop : f.op = op) (h : parseDSB k f = some i) : encodeFields i = f := by
  simp only [parseDSB, Option.bind_eq_bind, Option.bind_eq_some_iff, Option.pure_def, Option.some.injEq] at h
  obtain ⟨_, hx, d, hd, a, ha, b, hb, rfl⟩ := h
  obtain ⟨hb, hbi⟩ := encSrc_getSrc hf.b hb
  exact (hk d a b).trans (fields_eq hop (encDst_getDst hd) (add_getS ha) hb (immOf_eq_ext hx hbi))

theorem parseDSS_exact {k : Dst → Nat → Nat → Instr} (hk : ∀ d a b, encodeFields (k d a b) = ⟨op, encDst d, 224 + a, 224 + b, none⟩)
    (hop : f.op = op) (h : parseDSS k f = some i) : encodeFields i = f := by
  simp only [parseDSS, Option.bind_eq_bind, Option.bind_eq_some_iff, Option.pure_def, Option.some.injEq, need_eq_some] at h
  obtain ⟨_, hx, d, hd, a, ha, b, hb, rfl⟩ := h
  exact (hk d a b).trans (fields_eq hop (encDst_getDst hd) (add_getS ha) (add_getS hb) (ext_isNone hx))

theorem parseDS_exact {k : Dst → Nat → Instr} (hk : ∀ d a, encodeFields (k d a) = ⟨op, encDst d, 224 + a, n, none⟩)
    (hop : f.op = op) (hb : f.b = n) (h : parseDS k f = some i) : encodeFields i = f := by
  simp only [parseDS, Option.bind_eq_bind, Option.bind_eq_some_iff, Option.pure_def, Option.some.injEq, need_eq_some] at h
  obtain ⟨_, hx, d, hd, a, ha, rfl⟩ := h
  exact (hk d a).trans (fields_eq hop (encDst_getDst hd) (add_getS ha) hb.symm (ext_isNone hx))

theorem parseNSB_exact {k : Nat → Nat → Src → Instr} (hk : ∀ a b, encodeFields (k f.d a b) = ⟨op, f.d, 224 + a, encSrc b, immOf b⟩)
    (hf : FieldsFit f) (hop : f.op = op) (h : parseNSB k f = some i) : encodeFields i = f := by
  simp only [parseNSB, Option.bind_eq_bind, Option.bind_eq_some_iff, Option.pure_def, Option.some.injEq] at h
  obtain ⟨_, hx, a, ha, b, hb, rfl⟩ := h
  obtain ⟨hb, hbi⟩ := encSrc_getSrc hf.b hb
  exact (hk a b).trans (fields_eq hop rfl (add_getS ha) hb (immOf_eq_ext hx hbi))

theorem parseRow_exact {k : Nat → Src → Nat → Instr} (hk : ∀ a, encodeFields (k f.d a f.b) = ⟨op, f.d, encSrc a, f.b, immOf a⟩)
    (hf : FieldsFit f) (hop : f.op = op) (h : parseRow k f = some i) : encodeFields i = f := by
  simp only [parseRow, Option.bind_eq_bind, Option.bind_eq_some_iff, Option.pure_def, Option.some.injEq] at h
  obtain ⟨_, hx, a, ha, rfl⟩ := h
  obtain ⟨ha, hai⟩ := encSrc_getSrc hf.a ha
  exact (hk a).trans (fields_eq hop rfl ha rfl (immOf_eq_ext hx hai))

/-! ### Words of one instruction each -/

theorem parseRngld_exact (hf : FieldsFit f) (hop : f.op = 0x2d) (hb : f.b = 2) (h : parseRngld f = some i) : encodeFields i = f :=
  parseReg_exact (k := .rngld) (fun _ => rfl) hf hop hb h

theorem parseNop_exact (hop : f.op = 0x3d) (hb : f.b = 0) (h : parseNop f = some i) : encodeFields i = f := by
  simp only [parseNop, Option.bind_eq_bind, Option.bind_eq_some_iff, Option.pure_def, Option.some.injEq, need_eq_some,
    Bool.and_eq_true, beq_iff_eq, decide_eq_true_eq] at h
  obtain ⟨_, ⟨⟨hd, ha⟩, hx⟩, rfl⟩ := h
  split
  next h1 => exact fields_eq hop h1.symm ha.symm hb.symm (ext_isNone hx)
  next h1 => exact fields_eq hop (by omega) ha.symm hb.symm (ext_isNone hx)

theorem parseBra_exact (hop : f.op = 0x38) (h : parseBra f = some i) : encodeFields i = f := by
  simp only [parseBra, Option.bind_eq_bind, Option.bind_eq_some_iff, Option.pure_def, Option.some.injEq, need_eq_some,
    Bool.and_eq_true, beq_iff_eq] at h
  obtain ⟨_, ⟨⟨hd, ha⟩, hb⟩, e, he, rfl⟩ := h
  exact fields_eq hop hd.symm ha.symm hb.symm he.symm

theorem parseBrp_exact (hop : f.op = 0x39) (h : parseBrp f = some i) : encodeFields i = f := by
  simp only [parseBrp, Option.bind_eq_bind, Option.bind_eq_some_iff, Option.pure_def, Option.some.injEq, need_eq_some,
    Bool.and_eq_true, beq_iff_eq, decide_eq_true_eq] at h
  obtain ⟨_, ⟨⟨hd, ha⟩, hb⟩, e, he, rfl⟩ := h
  refine fields_eq hop ?_ ha.symm hb.symm he.symm
  rw [toNat_beq_one_of_lt (by omega)]
  omega

theorem parseMode_exact (hf : FieldsFit f) (hop : f.op = 0x3c) (h : parseMode f = some i) : encodeFields i = f := by
  simp only [parseMode, Option.bind_eq_bind, Option.bind_eq_some_iff, Option.pure_def, Option.some.injEq, need_eq_some,
    Bool.and_eq_true, beq_iff_eq] at h
  obtain ⟨_, ⟨hd, hx⟩, rfl⟩ := h
  have ha := hf.a
  have hb := hf.b
  have hn : (BitVec.ofNat 16 (f.a * 256 + f.b)).toNat = f.a * 256 + f.b := Nat.mod_eq_of_lt (by omega)
  refine fields_eq hop hd.symm ?_ ?_ (ext_isNone hx)
  · rw [hn]
    omega
  · rw [hn]
    omega

theorem parseTrap_exact (hop : f.op = 0x3d) (hb : f.b = 7) (h : parseTrap f = some i) : encodeFields i = f := by
  simp only [parseTrap, Option.bind_eq_bind, Option.bind_eq_some_iff, Option.pure_def, Option.some.injEq, need_eq_some,
    Bool.and_eq_true, beq_iff_eq] at h
  obtain ⟨_, ⟨ha, hx⟩, rfl⟩ := h
  exact fields_eq hop rfl ha.symm hb.symm (ext_isNone hx)

theorem parseLaunch_exact (hf : FieldsFit f) (hop : f.op = 0x3f) (h : parseLaunch f = some i) : encodeFields i = f := by
  simp only [parseLaunch, Option.bind_eq_bind, Option.bind_eq_some_iff, Option.pure_def, Option.some.injEq, need_eq_some,
    Bool.and_eq_true, beq_iff_eq] at h
  obtain ⟨_, ⟨hb, hx⟩, d, hd, a, ha, rfl⟩ := h
  exact fields_eq hop (encDst_getDst hd) (encSrc_getSrc_none hf.a ha) hb.symm (ext_isNone hx)

theorem parseInvl_exact (hf : FieldsFit f) (hop : f.op = 0x53) (h : parseInvl f = some i) : encodeFields i = f := by
  unfold parseInvl at h
  split at h
  next hd => exact parseNAB_exact (op := 0x53) (fun _ _ => by rw [hd]; rfl) hf hop h
  next hd =>
    simp only [parseOne, Option.bind_eq_bind, Option.bind_eq_some_iff, Option.pure_def, Option.some.injEq, need_eq_some,
      Bool.and_eq_true, beq_iff_eq] at h
    obtain ⟨_, ⟨⟨hb, ha⟩, hx⟩, rfl⟩ := h
    exact fields_eq hop hd.symm ha.symm hb.symm (ext_isNone hx)
  next => cases h

theorem parseWaitp_exact (hf : FieldsFit f) (hop : f.op = 0x54) (h : parseWaitp f = some i) : encodeFields i = f := by
  simp only [parseWaitp, Option.bind_eq_bind, Option.bind_eq_some_iff, Option.pure_def, Option.some.injEq, need_eq_some,
    beq_iff_eq] at h
  obtain ⟨_, hb, _, hx, a, ha, rfl⟩ := h
  obtain ⟨ha, hai⟩ := encSrc_getSrc hf.a ha
  exact fields_eq hop rfl ha hb.symm (immOf_eq_ext hx hai)

theorem parseCp_exact (hop : f.op = 0x55) (h : parseCp f = some i) : encodeFields i = f := by
  simp only [parseCp, Option.bind_eq_bind, Option.bind_eq_some_iff, Option.pure_def, Option.some.injEq, need_eq_some,
    beq_iff_eq] at h
  obtain ⟨e, he, _, hlow, d, hd, a, ha, b, hb, rfl⟩ := h
  have hlt := e.isLt
  exact fields_eq hop (add_getS hd) (add_getS ha) (add_getS hb) (ofNat_eq_ext he (by omega))

theorem parseRqnt_exact (hop : f.op = 0x57) (h : parseRqnt f = some i) : encodeFields i = f := by
  simp only [parseRqnt, Option.bind_eq_bind, Option.bind_eq_some_iff, Option.pure_def, Option.some.injEq, need_eq_some,
    Bool.and_eq_true, beq_iff_eq, decide_eq_true_eq] at h
  obtain ⟨e, he, _, ⟨hd, hlt⟩, a, ha, b, hb, rfl⟩ := h
  refine fields_eq hop hd.symm (add_getS ha) (add_getS hb) (ofNat_eq_ext he ?_)
  rw [toNat_beq_one_of_lt (by omega)]
  omega

theorem parseFence_exact (hop : f.op = 0x58) (h : parseFence f = some i) : encodeFields i = f := by
  simp only [parseFence, Option.bind_eq_bind, Option.bind_eq_some_iff, Option.pure_def, need_eq_some,
    Bool.and_eq_true, beq_iff_eq] at h
  obtain ⟨_, ⟨ha, hx⟩, d, hd, h⟩ := h
  split at h
  next hb => cases h; exact fields_eq hop (encDst_getDst hd) ha.symm (by omega) (ext_isNone hx)
  next hb => cases h; exact fields_eq hop (encDst_getDst hd) ha.symm (by omega) (ext_isNone hx)
  next hb => cases h; exact fields_eq hop (encDst_getDst hd) ha.symm (by omega) (ext_isNone hx)
  next => cases h

/-- The form of LDA and STL in b: 2, or 3 for a pair. -/
theorem two_add_beq_three (h : n = 2 ∨ n = 3) : 2 + (n == 3).toNat = n := by
  obtain rfl | rfl := h
  · rfl
  · rfl

theorem parseLda_exact (hf : FieldsFit f) (hop : f.op = 0x59) (h : parseLda f = some i) : encodeFields i = f := by
  simp only [parseLda, Option.bind_eq_bind, Option.bind_eq_some_iff, Option.pure_def, Option.some.injEq, need_eq_some,
    Bool.or_eq_true, beq_iff_eq] at h
  obtain ⟨_, hb, d, hd, a, ha, rfl⟩ := h
  exact fields_eq hop (encDst_getDst hd) (encSrc_getSrc_none hf.a ha) (two_add_beq_three hb) rfl

theorem parseStl_exact (hf : FieldsFit f) (hop : f.op = 0x5a) (h : parseStl f = some i) : encodeFields i = f := by
  simp only [parseStl, Option.bind_eq_bind, Option.bind_eq_some_iff, Option.pure_def, Option.some.injEq, need_eq_some,
    Bool.or_eq_true, beq_iff_eq] at h
  obtain ⟨_, hb, d, hd, a, ha, rfl⟩ := h
  exact fields_eq hop (encSrc_getSrc_none hf.d hd) (encSrc_getSrc_none hf.a ha) (two_add_beq_three hb) rfl

theorem parseAmo_exact (hf : FieldsFit f) (hop : f.op = 0x5b) (h : parseAmo f = some i) : encodeFields i = f := by
  simp only [parseAmo, Option.bind_eq_bind, Option.bind_eq_some_iff, Option.pure_def, Option.some.injEq] at h
  obtain ⟨d, hd, a, ha, b, hb, e, he, rfl⟩ := h
  exact fields_eq hop (encDst_getDst hd) (encSrc_getSrc_none hf.a ha) (encSrc_getSrc_none hf.b hb) (ofNat_eq_ext he rfl)

theorem parseRed_exact (hf : FieldsFit f) (hop : f.op = 0x5d) (h : parseRed f = some i) : encodeFields i = f := by
  simp only [parseRed, Option.bind_eq_bind, Option.bind_eq_some_iff, Option.pure_def, Option.some.injEq, need_eq_some,
    beq_iff_eq] at h
  obtain ⟨_, hd, a, ha, b, hb, e, he, rfl⟩ := h
  exact fields_eq hop hd.symm (encSrc_getSrc_none hf.a ha) (encSrc_getSrc_none hf.b hb) (ofNat_eq_ext he rfl)

theorem parseCgbind_exact (hf : FieldsFit f) (hop : f.op = 0x5f) (h : parseCgbind f = some i) : encodeFields i = f := by
  simp only [parseCgbind, Option.bind_eq_bind, Option.bind_eq_some_iff, Option.pure_def, Option.some.injEq, need_eq_some,
    beq_iff_eq] at h
  obtain ⟨_, hb, _, hx, d, hd, a, ha, rfl⟩ := h
  obtain ⟨ha, hai⟩ := encSrc_getSrc hf.a ha
  exact fields_eq hop (add_getS hd) ha hb.symm (immOf_eq_ext hx hai)

theorem encTile_getTile {t : Tile} (h : getTile n = some t) : encTile t = n := by
  unfold getTile at h
  split at h
  next => cases h; rfl
  next =>
    obtain ⟨m, hm, rfl⟩ := Option.map_eq_some_iff.1 h
    exact add_getS hm

theorem parseColl_exact (hop : f.op = 0x60) (h : parseColl f = some i) : encodeFields i = f := by
  simp only [parseColl, Option.bind_eq_bind, Option.bind_eq_some_iff, Option.pure_def, need_eq_some] at h
  obtain ⟨_, hx, d, hd, a, ha, h⟩ := h
  split at h
  next hb => cases h; exact fields_eq hop (encTile_getTile hd) (add_getS ha) (by omega) (ext_isNone hx)
  next hb => cases h; exact fields_eq hop (encTile_getTile hd) (add_getS ha) (by omega) (ext_isNone hx)
  iterate 3
    next hb =>
      simp only [Option.bind_eq_some_iff, need_eq_some, beq_iff_eq] at h
      obtain ⟨_, hr, h⟩ := h
      cases h
      exact fields_eq hop (encTile_getTile hd) (add_getS ha) (by omega) (ext_isNone hx)
  cases h

theorem parseAbinit_exact (hf : FieldsFit f) (hop : f.op = 0x61) (hb : f.b = 0) (h : parseAbinit f = some i) : encodeFields i = f := by
  simp only [parseAbinit, Option.bind_eq_bind, Option.bind_eq_some_iff, Option.pure_def, Option.some.injEq] at h
  obtain ⟨_, hx, d, hd, a, ha, rfl⟩ := h
  obtain ⟨ha, hai⟩ := encSrc_getSrc hf.a ha
  exact fields_eq hop (add_getS hd) ha hb.symm (immOf_eq_ext hx hai)

theorem parseAbwait_exact (hf : FieldsFit f) (hop : f.op = 0x61) (hb : f.b = 2) (h : parseAbwait f = some i) : encodeFields i = f := by
  simp only [parseAbwait, Option.bind_eq_bind, Option.bind_eq_some_iff, Option.pure_def, Option.some.injEq] at h
  obtain ⟨_, hx, d, hd, a, ha, rfl⟩ := h
  obtain ⟨ha, hai⟩ := encSrc_getSrc hf.a ha
  exact fields_eq hop (encSrc_getSrc_none hf.d hd) ha hb.symm (immOf_eq_ext hx hai)

theorem parseSigdec_exact (hf : FieldsFit f) (hop : f.op = 0x66) (h : parseSigdec f = some i) : encodeFields i = f := by
  simp only [parseSigdec, Option.bind_eq_bind, Option.bind_eq_some_iff, Option.pure_def, Option.some.injEq, need_eq_some,
    decide_eq_true_eq] at h
  obtain ⟨_, hd, _, hx, a, ha, b, hb, rfl⟩ := h
  obtain ⟨hb, hbi⟩ := encSrc_getSrc hf.b hb
  exact fields_eq hop (toNat_beq_one_of_lt hd) (add_getS ha) hb (immOf_eq_ext hx hbi)

theorem parseMma_exact (hop : f.op = 0x68) (h : parseMma f = some i) : encodeFields i = f := by
  simp only [parseMma, Option.bind_eq_bind, Option.bind_eq_some_iff, Option.pure_def, Option.some.injEq, need_eq_some,
    decide_eq_true_eq] at h
  obtain ⟨e, he, _, hlt, a, ha, b, hb, rfl⟩ := h
  refine fields_eq hop rfl (add_getS ha) (add_getS hb) (ofNat_eq_ext he ?_)
  simp only [toNat_beq_one]
  omega

theorem parseMmas_exact (hop : f.op = 0x69) (h : parseMmas f = some i) : encodeFields i = f := by
  simp only [parseMmas, Option.bind_eq_bind, Option.bind_eq_some_iff, Option.pure_def, Option.some.injEq, need_eq_some,
    Bool.and_eq_true, decide_eq_true_eq] at h
  obtain ⟨e, he, _, ⟨_, hlt⟩, a, ha, b, hb, rfl⟩ := h
  refine fields_eq hop rfl (add_getS ha) (add_getS hb) (ofNat_eq_ext he ?_)
  simp only [toNat_beq_one]
  omega

theorem parseMmac_exact (hop : f.op = 0x6a) (h : parseMmac f = some i) : encodeFields i = f := by
  simp only [parseMmac, Option.bind_eq_bind, Option.bind_eq_some_iff, Option.pure_def, Option.some.injEq, need_eq_some,
    Bool.and_eq_true, decide_eq_true_eq, beq_iff_eq] at h
  obtain ⟨e, he, _, ⟨hlt, hpa⟩, a, ha, b, hb, rfl⟩ := h
  refine fields_eq hop rfl (add_getS ha) (add_getS hb) (ofNat_eq_ext he ?_)
  simp only [toNat_beq_one, Bool.toNat_false]
  omega

theorem parseMepi_exact (hop : f.op = 0x6f) (h : parseMepi f = some i) : encodeFields i = f := by
  simp only [parseMepi, Option.bind_eq_bind, Option.bind_eq_some_iff, Option.pure_def, Option.some.injEq] at h
  obtain ⟨e, he, a, ha, b, hb, rfl⟩ := h
  refine fields_eq hop rfl (add_getS ha) (add_getS hb) (ofNat_eq_ext he ?_)
  simp only [toNat_beq_one]
  omega

theorem parseAcc_exact (hf : FieldsFit f) (hop : f.op = 0x70) (h : parseAcc f = some i) : encodeFields i = f := by
  simp only [parseAcc, Option.bind_eq_bind, Option.pure_def] at h
  split at h
  next hb =>
    simp only [Option.bind_eq_some_iff, Option.some.injEq, need_eq_some, Bool.and_eq_true, beq_iff_eq] at h
    obtain ⟨_, ⟨⟨hd, ha⟩, hx⟩, rfl⟩ := h
    exact fields_eq hop hd.symm ha.symm (by omega) (ext_isNone hx)
  next hb =>
    simp only [Option.bind_eq_some_iff, Option.some.injEq, need_eq_some, Bool.and_eq_true, beq_iff_eq] at h
    obtain ⟨_, ⟨ha, hx⟩, d, hd, rfl⟩ := h
    exact fields_eq hop (encDst_getDst hd) ha.symm (by omega) (ext_isNone hx)
  iterate 2
    next hb =>
      simp only [Option.bind_eq_some_iff, Option.some.injEq] at h
      obtain ⟨_, hx, d, hd, a, ha, rfl⟩ := h
      obtain ⟨ha, hai⟩ := encSrc_getSrc hf.a ha
      exact fields_eq hop (encSrc_getSrc_none hf.d hd) ha (by omega) (immOf_eq_ext hx hai)
  cases h

theorem parseAttn_exact (hop : f.op = 0x71) (h : parseAttn f = some i) : encodeFields i = f := by
  simp only [parseAttn, Option.bind_eq_bind, Option.bind_eq_some_iff, Option.pure_def, Option.some.injEq] at h
  obtain ⟨e, he, a, ha, b, hb, rfl⟩ := h
  have hlt := e.isLt
  refine fields_eq hop rfl (add_getS ha) (add_getS hb) (ofNat_eq_ext he ?_)
  rw [toNat_beq_one, toNat_beq_one_of_lt (n := e.toNat / 2 ^ 31) (by omega)]
  omega

theorem parseAttc_exact (hop : f.op = 0x72) (h : parseAttc f = some i) : encodeFields i = f := by
  simp only [parseAttc, Option.bind_eq_bind, Option.bind_eq_some_iff, Option.pure_def, Option.some.injEq, need_eq_some,
    Bool.and_eq_true, decide_eq_true_eq, beq_iff_eq] at h
  obtain ⟨_, ⟨⟨hd, hb⟩, hx⟩, a, ha, rfl⟩ := h
  refine fields_eq hop ?_ (add_getS ha) hb.symm (ext_isNone hx)
  rw [toNat_beq_one, toNat_beq_one_of_lt (by omega)]
  omega

theorem parseCnt_exact (hf : FieldsFit f) (hop : f.op = 0x76) (h : parseCnt f = some i) : encodeFields i = f := by
  simp only [parseCnt, Option.bind_eq_bind, Option.pure_def] at h
  split at h
  next hb =>
    simp only [Option.bind_eq_some_iff, Option.some.injEq, need_eq_some, Bool.and_eq_true, beq_iff_eq] at h
    obtain ⟨_, ⟨ha, hx⟩, d, hd, rfl⟩ := h
    exact fields_eq hop (encDst_getDst hd) ha.symm (by omega) (ext_isNone hx)
  next hb =>
    simp only [Option.bind_eq_some_iff, Option.some.injEq] at h
    obtain ⟨_, hx, d, hd, a, ha, rfl⟩ := h
    obtain ⟨ha, hai⟩ := encSrc_getSrc hf.a ha
    exact fields_eq hop (encDst_getDst hd) ha (by omega) (immOf_eq_ext hx hai)
  iterate 2
    next hb =>
      simp only [Option.bind_eq_some_iff, Option.some.injEq, need_eq_some, Bool.and_eq_true, beq_iff_eq] at h
      obtain ⟨_, ⟨⟨hd, hb⟩, hx⟩, a, ha, rfl⟩ := h
      exact fields_eq hop hd.symm (add_getS ha) hb.symm (ext_isNone hx)
  cases h

theorem parseSysrd_exact (hop : f.op = 0x7c) (h : parseSysrd f = some i) : encodeFields i = f := by
  simp only [parseSysrd, Option.bind_eq_bind, Option.bind_eq_some_iff, Option.pure_def, Option.some.injEq, need_eq_some,
    Bool.and_eq_true, beq_iff_eq] at h
  obtain ⟨_, ⟨ha, hx⟩, d, hd, rfl⟩ := h
  exact fields_eq hop (encDst_getDst hd) ha.symm rfl (ext_isNone hx)

theorem parseSyswr_exact (hf : FieldsFit f) (hop : f.op = 0x7d) (h : parseSyswr f = some i) : encodeFields i = f := by
  simp only [parseSyswr, Option.bind_eq_bind, Option.bind_eq_some_iff, Option.pure_def, Option.some.injEq, need_eq_some,
    beq_iff_eq] at h
  obtain ⟨_, hb, _, hx, a, ha, rfl⟩ := h
  obtain ⟨ha, hai⟩ := encSrc_getSrc hf.a ha
  split
  next hd => exact fields_eq hop hd.symm ha hb.symm (immOf_eq_ext hx hai)
  next => exact fields_eq hop rfl ha hb.symm (immOf_eq_ext hx hai)

theorem parseShoot_exact (hf : FieldsFit f) (hop : f.op = 0x7e) (h : parseShoot f = some i) : encodeFields i = f := by
  simp only [parseShoot, Option.bind_eq_bind, Option.bind_eq_some_iff, Option.pure_def, Option.some.injEq, need_eq_some,
    beq_iff_eq] at h
  obtain ⟨_, hd, _, hx, a, ha, b, hb, rfl⟩ := h
  obtain ⟨hb, hbi⟩ := encSrc_getSrc hf.b hb
  exact fields_eq hop hd.symm (add_getS ha) hb (immOf_eq_ext hx hbi)

theorem parsePart_exact (hf : FieldsFit f) (hop : f.op = 0x7f) (h : parsePart f = some i) : encodeFields i = f := by
  simp only [parsePart, Option.bind_eq_bind, Option.bind_eq_some_iff, Option.pure_def, Option.some.injEq] at h
  obtain ⟨_, _, _, hx, d, hd, a, ha, b, hb, rfl⟩ := h
  obtain ⟨ha, hai⟩ := encSrc_getSrc hf.a ha
  obtain ⟨hb, hbi⟩ := encSrc_getSrc hf.b hb
  exact fields_eq hop (encDst_getDst hd) ha hb (immOf2_eq_ext hx hai hbi)

end

end Sys2Proof.Machine
end

section
/-! ## The rows of the opcode map, read: each instruction's fields are those of its word (R55 to R57) -/

namespace Sys2Proof.Machine

section

variable {f : Fields} {i : Instr}

theorem lscanFields (f : Fields) (d : Dst) (a : Src) :
    encodeFields (.lscan d a (f.b / 8 % 2 == 1) (f.b % 8 + 16 * (f.b / 16))) = ⟨0x37, encDst d, encSrc a, f.b, immOf a⟩ := by
  have hb : f.b % 8 + 16 * (f.b / 16) + 8 * (f.b / 8 % 2 == 1).toNat = f.b := by
    rw [toNat_beq_one]
    omega
  exact congrArg (fun b => (⟨0x37, encDst d, encSrc a, b, immOf a⟩ : Fields)) hb

/-- What the parser reads encodes to the fields that it was read from. -/
theorem encodeFields_of_parse (hf : FieldsFit f) (h : parse f = some i) : encodeFields i = f := by
  unfold parse at h
  split at h
  -- ADD to BFI
  iterate 21 next hop => exact parseA_exact (fun _ _ _ _ => rfl) hf hop h
  next hop => exact parseSel_exact hf hop h
  next hop => exact parseCmp_exact (fun _ _ _ _ _ => rfl) hf hop h
  next hop => exact parseA_exact (fun _ _ _ _ => rfl) hf hop h
  -- ABS to MOV
  next hop =>
    split at h
    iterate 7 next hb => exact parseU_exact (fun _ _ _ => rfl) hf hop hb h
    cases h
  -- MOVI, MOVH and PSET
  iterate 2 next hop => exact parseMovi_exact (fun _ _ => rfl) hop h
  next hop => exact parsePset_exact hf hop h
  -- FADD to FDIV
  iterate 6 next hop => exact parseA_exact (fun _ _ _ _ => rfl) hf hop h
  next hop => exact parseCmp_exact (fun _ _ _ _ _ => rfl) hf hop h
  next hop => exact parseA_exact (fun _ _ _ _ => rfl) hf hop h
  -- FRCP to FCLASS
  next hop =>
    split at h
    iterate 10 next hb => exact parseU_exact (fun _ _ _ => rfl) hf hop hb h
    cases h
  -- CVT, QPACK, QUNPK, SRND
  iterate 4 next hop => exact parseUF_exact (fun _ _ _ _ => rfl) hf hop h
  -- the generator
  next hop =>
    split at h
    iterate 2 next hb => exact parseD_exact (fun _ => rfl) hop hb h
    next hb => exact parseRngld_exact hf hop hb h
    cases h
  -- SHFL and BCAST
  iterate 5 next hop => exact parseA_exact (fun _ _ _ _ => rfl) hf hop h
  -- VOTE
  next hop =>
    split at h
    iterate 4 next hb => exact parseDA_exact (fun _ _ => rfl) hf hop hb h
    cases h
  next hop => exact parseDAF_exact (fun _ _ => rfl) hf hop h
  next hop => exact parseDAF_exact (lscanFields f) hf hop h
  next hop => exact parseBra_exact hop h
  next hop => exact parseBrp_exact hop h
  next hop => exact parseMovi_exact (fun _ _ => rfl) hop h
  next hop =>
    split at h
    next hb => exact parseReg_exact (fun _ => rfl) hf hop (beq_iff_eq.1 hb) h
    next => cases h
  next hop => exact parseMode_exact hf hop h
  -- NOP to ELOG
  next hop =>
    split at h
    next hb => exact parseNop_exact hop hb h
    next hb => exact parseReg_exact (fun _ => rfl) hf hop hb h
    iterate 2 next hb => exact parseOne_exact rfl hop hb h
    next hb => exact parseAI_exact (fun _ => rfl) hf hop hb h
    iterate 2 next hb => exact parseOne_exact rfl hop hb h
    next hb => exact parseTrap_exact hop hb h
    next hb => exact parseOne_exact rfl hop hb h
    next hb => exact parseD_exact (fun _ => rfl) hop hb h
    cases h
  next hop => exact parseAB_exact (fun _ _ => rfl) hf hop h
  next hop => exact parseLaunch_exact hf hop h
  -- loads and stores
  iterate 8 next hop => exact parseLd_exact (fun _ _ _ => rfl) hf hop h
  iterate 8 next hop => exact parseSt_exact (fun _ _ _ => rfl) hf hop h
  next hop => exact parseLd_exact (fun _ _ _ => rfl) hf hop h
  next hop => exact parseSt_exact (fun _ _ _ => rfl) hf hop h
  next hop => exact parseNAB_exact (fun _ _ => rfl) hf hop h
  next hop => exact parseInvl_exact hf hop h
  next hop => exact parseWaitp_exact hf hop h
  -- copies
  next hop => exact parseCp_exact hop h
  next hop =>
    split at h
    next hb => exact parseD_exact (fun _ => rfl) hop hb h
    next hb => exact parseAI_exact (fun _ => rfl) hf hop hb h
    cases h
  next hop => exact parseRqnt_exact hop h
  -- ordering, atomics and crossings
  next hop => exact parseFence_exact hop h
  next hop => exact parseLda_exact hf hop h
  next hop => exact parseStl_exact hf hop h
  next hop => exact parseAmo_exact hf hop h
  next hop => exact parseLd_exact (fun _ _ _ => rfl) hf hop h
  next hop => exact parseRed_exact hf hop h
  next hop =>
    split at h
    iterate 4 next hb => exact parseD_exact (fun _ => rfl) hop hb h
    cases h
  next hop => exact parseCgbind_exact hf hop h
  next hop => exact parseColl_exact hop h
  next hop =>
    split at h
    next hb => exact parseAbinit_exact hf hop hb h
    next hb => exact parseDA_exact (fun _ _ => rfl) hf hop hb h
    next hb => exact parseAbwait_exact hf hop hb h
    cases h
  -- gangs, growth, alleys and signals
  next hop =>
    split at h
    iterate 2 next hb => exact parseDA_exact (fun _ _ => rfl) hf hop hb h
    next hb => exact parseD_exact (fun _ => rfl) hop hb h
    next hb => exact parseDA_exact (fun _ _ => rfl) hf hop hb h
    cases h
  next hop =>
    split at h
    iterate 2 next hb => exact parseAI_exact (fun _ => rfl) hf hop hb h
    cases h
  next hop =>
    split at h
    next hb => exact parseAI_exact (fun _ => rfl) hf hop hb h
    iterate 2 next hb => exact parseDA_exact (fun _ _ => rfl) hf hop hb h
    cases h
  next hop => exact parseAB_exact (fun _ _ => rfl) hf hop h
  next hop => exact parseSigdec_exact hf hop h
  next hop => exact parseDSB_exact (fun _ _ _ => rfl) hf hop h
  -- the matrix and attention instructions
  next hop => exact parseMma_exact hop h
  next hop => exact parseMmas_exact hop h
  next hop => exact parseMmac_exact hop h
  iterate 2 next hop => exact parseNSB_exact (fun _ _ => rfl) hf hop h
  iterate 2 next hop => exact parseRow_exact (fun _ => rfl) hf hop h
  next hop => exact parseMepi_exact hop h
  next hop => exact parseAcc_exact hf hop h
  next hop => exact parseAttn_exact hop h
  next hop => exact parseAttc_exact hop h
  iterate 2 next hop => exact parseDSS_exact (fun _ _ _ => rfl) hop h
  next hop => exact parseDSB_exact (fun _ _ _ => rfl) hf hop h
  -- counters and system instructions
  next hop => exact parseCnt_exact hf hop h
  next hop =>
    split at h
    next hb => exact parseOne_exact rfl hop (beq_iff_eq.1 hb) h
    next => cases h
  iterate 3 next hop => exact parseDSB_exact (fun _ _ _ => rfl) hf hop h
  next hop =>
    split at h
    iterate 2 next hb => exact parseDS_exact (fun _ _ => rfl) hop hb h
    cases h
  next hop => exact parseSysrd_exact hop h
  next hop => exact parseSyswr_exact hf hop h
  next hop => exact parseShoot_exact hf hop h
  next hop => exact parsePart_exact hf hop h
  cases h

/-- What decodes is well formed, and encodes to its fields. -/
theorem encodeFields_of_decodeFields (hf : FieldsFit f) (h : decodeFields f = some i) : WellFormed i = true ∧ encodeFields i = f := by
  unfold decodeFields at h
  split at h
  next j hj =>
    split at h
    next hw =>
      cases h
      exact ⟨hw, encodeFields_of_parse hf hj⟩
    next => cases h
  next => cases h

end

/-- Settles O4. -/
theorem encodeDecode : Obligations.EncodeDecode := by
  intro bs i n h
  obtain ⟨w, e, rest, hd, hbytes⟩ := decode_eq_ok h
  obtain ⟨hw, hfields⟩ := encodeFields_of_decodeFields (fit_unpackWord w e) hd
  have henc := encode_of_unpackWord hfields
  refine ⟨hw, ?_⟩
  obtain ⟨hx, rfl, rfl⟩ | ⟨hx, rfl, rfl⟩ := hbytes
  · rw [encodeBytes, henc, hx]
    exact ⟨rfl, rfl⟩
  · rw [encodeBytes, henc, hx]
    exact ⟨rfl, rfl⟩

end Sys2Proof.Machine
end

section
/-! ## The rows of the opcode map, written: each well-formed instruction's fields read as it (R55 to R57) -/

namespace Sys2Proof.Machine

section

variable {i : Instr} {op n : Nat} {x y d' : Src} {d : Dst} {m : Option Mods}

/-- The fields of an instruction fit their word and read as it. -/
structure ReadsBack (i : Instr) : Prop where
  fit : FieldsFit (encodeFields i)
  parse : parse (encodeFields i) = some i

/-- Where the parser comes to the row of an instruction, it is enough that this row reads it. -/
theorem readsBack_of {f : Fields} {p : Fields → Option Instr} (he : encodeFields i = f)
    (hp : Sys2Proof.parse (encodeFields i) = p (encodeFields i)) (hf : FieldsFit f) (h : p f = some i) : ReadsBack i := by
  subst he
  exact ⟨hf, hp.trans h⟩

theorem fit_mk {d a b : Nat} {e : Option Word} (hop : op < 128) (hd : d < 256) (ha : a < 256) (hb : b < 256) :
    FieldsFit ⟨op, d, a, b, e⟩ := ⟨hop, hd, ha, hb⟩

theorem need_of {b : Bool} (h : b = true) : need b = some () := need_eq_some.2 h

/-! ### The operands that the encoder writes read back -/

theorem needX_of {f : Fields} {b : Bool} (h : f.ext.isSome = b) : needX f b = some () :=
  need_of (beq_iff_eq.2 h.symm)

/-- X of a word with one operand field that may name an immediate. -/
theorem needX_immOf {a b c : Nat} (hx : srcRange x = true) : needX ⟨op, a, b, c, immOf x⟩ (encSrc x == 255) = some () :=
  needX_of (by rw [encSrc_eq_255 hx]; exact immOf_isSome x)

theorem getSrc_of_imm (hx : srcRange x = true) : getSrc (encSrc x) (immOf x) = some x := getSrc_encSrc hx fun _ => rfl

/-- With two operands of which one may be an immediate. -/
theorem immOf2_left (h : srcImm x = true) : immOf2 x y = immOf x := by
  cases x with
  | imm w => rfl
  | _ => cases h

theorem immOf2_right (hone : srcImm x = false ∨ srcImm y = false) (h : srcImm y = true) : immOf2 x y = immOf y := by
  rw [immOf2, immOf_of_not (hone.resolve_right fun h' => absurd (h.symm.trans h') (by decide))]

theorem immOf2_isSome (x y : Src) : (immOf2 x y).isSome = (srcImm x || srcImm y) := by
  unfold immOf2
  split
  next w hw => rw [← immOf_isSome x, hw]; rfl
  next hw => rw [← immOf_isSome x, hw, immOf_isSome]; rfl

theorem extA_eq_immOf2 (h : (immOf2 x y).isSome = true) : extA x y m = immOf2 x y := by
  obtain ⟨w, hw⟩ := Option.isSome_iff_exists.1 h
  rw [extA, hw]

theorem not_both_255 (hx : srcRange x = true) (hy : srcRange y = true) (hone : srcImm x = false ∨ srcImm y = false) :
    (!(encSrc x == 255 && encSrc y == 255)) = true := by
  rw [encSrc_eq_255 hx, encSrc_eq_255 hy]
  obtain h | h := hone <;> simp [h]

/-! ### Words of the A class -/

section

variable (hx : srcRange x = true) (hy : srcRange y = true) (hone : srcImm x = false ∨ srcImm y = false)
  (hm : (srcImm x || srcImm y) = true → m = none)
include hx hy hone hm

theorem operandsA_read : getSrc (encSrc x) (extA x y m) = some x ∧ getSrc (encSrc y) (extA x y m) = some y
    ∧ getModsA (extA x y m) (encSrc x == 255 || encSrc y == 255) = some m := by
  refine ⟨getSrc_encSrc hx fun h => ?_, getSrc_encSrc hy fun h => ?_, ?_⟩
  · rw [extA_eq_immOf2 (by rw [immOf2_isSome, h]; rfl), immOf2_left h]
  · rw [extA_eq_immOf2 (by rw [immOf2_isSome, h, Bool.or_true]), immOf2_right hone h]
  · rw [encSrc_eq_255 hx, encSrc_eq_255 hy]
    exact getModsA_extA hm

theorem readsBack_A {k : Dst → Src → Src → Option Mods → Instr} (he : encodeFields (k d x y m) = ⟨op, encDst d, encSrc x, encSrc y, extA x y m⟩)
    (hp : Sys2Proof.parse (encodeFields (k d x y m)) = parseA k (encodeFields (k d x y m))) (hop : op < 128) (hd : dstRange d = true) :
    ReadsBack (k d x y m) := by
  obtain ⟨hx', hy', hm'⟩ := operandsA_read hx hy hone hm
  refine readsBack_of he hp (fit_mk hop (encDst_lt hd) (encSrc_lt hx) (encSrc_lt hy)) ?_
  simp only [parseA, need_of (not_both_255 hx hy hone), getDst_encDst hd, hx', hy', hm', Option.bind_eq_bind, Option.bind_some,
    Option.pure_def]

theorem readsBack_cmp {k : Nat → Nat → Src → Src → Option Mods → Instr} {c q : Nat}
    (he : encodeFields (k c q x y m) = ⟨op, q + 8 * c, encSrc x, encSrc y, extA x y m⟩)
    (hp : Sys2Proof.parse (encodeFields (k c q x y m)) = parseCmp k (encodeFields (k c q x y m))) (hop : op < 128) (hq : q < 8) (hc : c < 16) :
    ReadsBack (k c q x y m) := by
  obtain ⟨hx', hy', hm'⟩ := operandsA_read hx hy hone hm
  refine readsBack_of he hp (fit_mk hop (show q + 8 * c < 256 by omega) (encSrc_lt hx) (encSrc_lt hy)) ?_
  have hneed : (decide (q + 8 * c < 128) && !(encSrc x == 255 && encSrc y == 255)) = true := by
    rw [not_both_255 hx hy hone, Bool.and_true, decide_eq_true_eq]
    omega
  have hdiv : (q + 8 * c) / 8 = c := by omega
  have hmod : (q + 8 * c) % 8 = q := by omega
  simp only [parseCmp, need_of hneed, hdiv, hmod, hx', hy', hm', Option.bind_eq_bind, Option.bind_some, Option.pure_def]

end

section

variable (hd : dstRange d = true) (hx : srcRange x = true) (hm : srcImm x = true → m = none)
include hd hx hm

theorem parseU_read (k : Dst → Src → Option Mods → Instr) (op n : Nat) :
    parseU k ⟨op, encDst d, encSrc x, n, extA x .zero m⟩ = some (k d x m) := by
  obtain ⟨hx', _, hm'⟩ := operandsA_read (y := .zero) hx rfl (.inr rfl) (by simpa [srcImm] using hm)
  have hm'' : getModsA (extA x .zero m) (encSrc x == 255) = some m := by
    rwa [show (encSrc x == 255 || encSrc .zero == 255) = (encSrc x == 255) from Bool.or_false _] at hm'
  simp only [parseU, getDst_encDst hd, hx', hm'', Option.bind_eq_bind, Option.bind_some, Option.pure_def]

theorem readsBack_U {k : Dst → Src → Option Mods → Instr} (he : encodeFields (k d x m) = ⟨op, encDst d, encSrc x, n, extA x .zero m⟩)
    (hp : Sys2Proof.parse (encodeFields (k d x m)) = parseU k (encodeFields (k d x m))) (hop : op < 128) (hn : n < 256) :
    ReadsBack (k d x m) :=
  readsBack_of he hp (fit_mk hop (encDst_lt hd) (encSrc_lt hx) hn) (parseU_read hd hx hm k op n)

theorem readsBack_UF {k : Dst → Src → Nat → Option Mods → Instr}
    (he : encodeFields (k d x n m) = ⟨op, encDst d, encSrc x, n, extA x .zero m⟩)
    (hp : Sys2Proof.parse (encodeFields (k d x n m)) = parseUF k (encodeFields (k d x n m))) (hop : op < 128) (hn : n < 256) :
    ReadsBack (k d x n m) :=
  readsBack_of he hp (fit_mk hop (encDst_lt hd) (encSrc_lt hx) hn) (parseU_read hd hx hm (fun d a m => k d a n m) op n)

end

/-! ### Words of the K and M classes -/

theorem readsBack_movi {k : Dst → Word → Instr} {w : Word} (he : encodeFields (k d w) = ⟨op, encDst d, 0, 0, some w⟩)
    (hp : Sys2Proof.parse (encodeFields (k d w)) = parseMovi k (encodeFields (k d w))) (hop : op < 128) (hd : dstRange d = true) :
    ReadsBack (k d w) := by
  refine readsBack_of he hp (fit_mk hop (encDst_lt hd) (by decide) (by decide)) ?_
  simp [parseMovi, need, getDst_encDst hd]

theorem readsBack_D {k : Dst → Instr} (he : encodeFields (k d) = ⟨op, encDst d, 0, n, none⟩)
    (hp : Sys2Proof.parse (encodeFields (k d)) = parseD k (encodeFields (k d))) (hop : op < 128) (hn : n < 256) (hd : dstRange d = true) :
    ReadsBack (k d) := by
  refine readsBack_of he hp (fit_mk hop (encDst_lt hd) (by decide) hn) ?_
  simp [parseD, need, getDst_encDst hd]

theorem readsBack_DA {k : Dst → Src → Instr} (he : encodeFields (k d x) = ⟨op, encDst d, encSrc x, n, immOf x⟩)
    (hp : Sys2Proof.parse (encodeFields (k d x)) = parseDA k (encodeFields (k d x))) (hop : op < 128) (hn : n < 256) (hd : dstRange d = true)
    (hx : srcRange x = true) : ReadsBack (k d x) := by
  refine readsBack_of he hp (fit_mk hop (encDst_lt hd) (encSrc_lt hx) hn) ?_
  simp only [parseDA, needX_immOf hx, getDst_encDst hd, getSrc_of_imm hx, Option.bind_eq_bind, Option.bind_some, Option.pure_def]

theorem readsBack_reg {k : Src → Instr} (he : encodeFields (k x) = ⟨op, 0, encSrc x, n, none⟩)
    (hp : Sys2Proof.parse (encodeFields (k x)) = parseReg k (encodeFields (k x))) (hop : op < 128) (hn : n < 256)
    (hx : srcRange x = true) (hreg : srcImm x = false) : ReadsBack (k x) := by
  refine readsBack_of he hp (fit_mk hop (by decide) (encSrc_lt hx) hn) ?_
  simp [parseReg, need, getSrc_noImm hx hreg]

theorem readsBack_AI {k : Src → Instr} (he : encodeFields (k x) = ⟨op, 0, encSrc x, n, immOf x⟩)
    (hp : Sys2Proof.parse (encodeFields (k x)) = parseAI k (encodeFields (k x))) (hop : op < 128) (hn : n < 256)
    (hx : srcRange x = true) : ReadsBack (k x) := by
  refine readsBack_of he hp (fit_mk hop (by decide) (encSrc_lt hx) hn) ?_
  simp only [parseAI, need_of (beq_self_eq_true 0), needX_immOf hx, getSrc_of_imm hx, Option.bind_eq_bind, Option.bind_some, Option.pure_def]

section

variable (hx : srcRange x = true) (hy : srcRange y = true) (hone : srcImm x = false ∨ srcImm y = false)
include hx hy hone

/-- Two operand fields of which one may name an immediate. -/
theorem operandsAB_read (op d : Nat) : needX ⟨op, d, encSrc x, encSrc y, immOf2 x y⟩ (encSrc x == 255 || encSrc y == 255) = some ()
    ∧ getSrc (encSrc x) (immOf2 x y) = some x ∧ getSrc (encSrc y) (immOf2 x y) = some y := by
  refine ⟨needX_of ?_, getSrc_encSrc hx fun h => immOf2_left h, getSrc_encSrc hy fun h => immOf2_right hone h⟩
  rw [encSrc_eq_255 hx, encSrc_eq_255 hy]
  exact immOf2_isSome x y

theorem readsBack_AB {k : Src → Src → Instr} (he : encodeFields (k x y) = ⟨op, 0, encSrc x, encSrc y, immOf2 x y⟩)
    (hp : Sys2Proof.parse (encodeFields (k x y)) = parseAB k (encodeFields (k x y))) (hop : op < 128) : ReadsBack (k x y) := by
  obtain ⟨hn, hx', hy'⟩ := operandsAB_read hx hy hone op 0
  have hboth : ((0 : Nat) == 0 && !(encSrc x == 255 && encSrc y == 255)) = true := not_both_255 hx hy hone
  refine readsBack_of he hp (fit_mk hop (by decide) (encSrc_lt hx) (encSrc_lt hy)) ?_
  simp only [parseAB, need_of hboth, hn, hx', hy', Option.bind_eq_bind, Option.bind_some, Option.pure_def]

theorem readsBack_part (hd : dstRange d = true) : ReadsBack (.part d x y) := by
  obtain ⟨hn, hx', hy'⟩ := operandsAB_read hx hy hone 0x7f (encDst d)
  refine readsBack_of (f := ⟨0x7f, encDst d, encSrc x, encSrc y, immOf2 x y⟩) (p := parsePart) rfl rfl (fit_mk (by decide) (encDst_lt hd) (encSrc_lt hx) (encSrc_lt hy)) ?_
  simp only [parsePart, need_of (not_both_255 hx hy hone), hn, getDst_encDst hd, hx', hy', Option.bind_eq_bind, Option.bind_some,
    Option.pure_def]

end

theorem readsBack_one (he : encodeFields i = ⟨op, 0, 0, n, none⟩)
    (hp : Sys2Proof.parse (encodeFields i) = parseOne i (encodeFields i)) (hop : op < 128) (hn : n < 256) : ReadsBack i :=
  readsBack_of he hp (fit_mk hop (by decide) (by decide) hn) rfl

theorem readsBack_Ld {k : Dst → Src → Src → Instr} (he : encodeFields (k d x y) = ⟨op, encDst d, encSrc x, encSrc y, immOf y⟩)
    (hp : Sys2Proof.parse (encodeFields (k d x y)) = parseLd k (encodeFields (k d x y))) (hop : op < 128) (hd : dstRange d = true)
    (hx : srcRange x = true) (hbase : srcImm x = false) (hy : srcRange y = true) : ReadsBack (k d x y) := by
  refine readsBack_of he hp (fit_mk hop (encDst_lt hd) (encSrc_lt hx) (encSrc_lt hy)) ?_
  simp only [parseLd, needX_immOf hy, getDst_encDst hd, getSrc_noImm hx hbase, getSrc_of_imm hy, Option.bind_eq_bind, Option.bind_some,
    Option.pure_def]

theorem readsBack_St {k : Src → Src → Src → Instr} (he : encodeFields (k d' x y) = ⟨op, encSrc d', encSrc x, encSrc y, immOf y⟩)
    (hp : Sys2Proof.parse (encodeFields (k d' x y)) = parseSt k (encodeFields (k d' x y))) (hop : op < 128) (hd : srcRange d' = true)
    (hdata : srcImm d' = false) (hx : srcRange x = true) (hbase : srcImm x = false) (hy : srcRange y = true) : ReadsBack (k d' x y) := by
  refine readsBack_of he hp (fit_mk hop (encSrc_lt hd) (encSrc_lt hx) (encSrc_lt hy)) ?_
  simp only [parseSt, needX_immOf hy, getSrc_noImm hd hdata, getSrc_noImm hx hbase, getSrc_of_imm hy, Option.bind_eq_bind,
    Option.bind_some, Option.pure_def]

theorem parseNAB_read (k : Nat → Src → Src → Instr) (op n : Nat) (hx : srcRange x = true) (hbase : srcImm x = false)
    (hy : srcRange y = true) : parseNAB k ⟨op, n, encSrc x, encSrc y, immOf y⟩ = some (k n x y) := by
  simp only [parseNAB, needX_immOf hy, getSrc_noImm hx hbase, getSrc_of_imm hy, Option.bind_eq_bind, Option.bind_some, Option.pure_def]

section

variable {a b : Nat} (ha : a < 16)
include ha

theorem readsBack_DSB {k : Dst → Nat → Src → Instr} (he : encodeFields (k d a y) = ⟨op, encDst d, 224 + a, encSrc y, immOf y⟩)
    (hp : Sys2Proof.parse (encodeFields (k d a y)) = parseDSB k (encodeFields (k d a y))) (hop : op < 128) (hd : dstRange d = true)
    (hy : srcRange y = true) : ReadsBack (k d a y) := by
  refine readsBack_of he hp (fit_mk hop (encDst_lt hd) (show 224 + a < 256 by omega) (encSrc_lt hy)) ?_
  simp only [parseDSB, needX_immOf hy, getDst_encDst hd, getS_add ha, getSrc_of_imm hy, Option.bind_eq_bind, Option.bind_some,
    Option.pure_def]

theorem readsBack_DSS {k : Dst → Nat → Nat → Instr} (he : encodeFields (k d a b) = ⟨op, encDst d, 224 + a, 224 + b, none⟩)
    (hp : Sys2Proof.parse (encodeFields (k d a b)) = parseDSS k (encodeFields (k d a b))) (hop : op < 128) (hd : dstRange d = true)
    (hb : b < 16) : ReadsBack (k d a b) := by
  refine readsBack_of he hp (fit_mk hop (encDst_lt hd) (show 224 + a < 256 by omega) (show 224 + b < 256 by omega)) ?_
  simp [parseDSS, need, getDst_encDst hd, getS_add ha, getS_add hb]

theorem readsBack_DS {k : Dst → Nat → Instr} (he : encodeFields (k d a) = ⟨op, encDst d, 224 + a, n, none⟩)
    (hp : Sys2Proof.parse (encodeFields (k d a)) = parseDS k (encodeFields (k d a))) (hop : op < 128) (hn : n < 256)
    (hd : dstRange d = true) : ReadsBack (k d a) := by
  refine readsBack_of he hp (fit_mk hop (encDst_lt hd) (show 224 + a < 256 by omega) hn) ?_
  simp [parseDS, need, getDst_encDst hd, getS_add ha]

theorem readsBack_NSB {k : Nat → Nat → Src → Instr} (he : encodeFields (k n a y) = ⟨op, n, 224 + a, encSrc y, immOf y⟩)
    (hp : Sys2Proof.parse (encodeFields (k n a y)) = parseNSB k (encodeFields (k n a y))) (hop : op < 128) (hn : n < 256)
    (hy : srcRange y = true) : ReadsBack (k n a y) := by
  refine readsBack_of he hp (fit_mk hop hn (show 224 + a < 256 by omega) (encSrc_lt hy)) ?_
  simp only [parseNSB, needX_immOf hy, getS_add ha, getSrc_of_imm hy, Option.bind_eq_bind, Option.bind_some, Option.pure_def]

end

theorem readsBack_row {k : Nat → Src → Nat → Instr} {r : Nat} (he : encodeFields (k n x r) = ⟨op, n, encSrc x, r, immOf x⟩)
    (hp : Sys2Proof.parse (encodeFields (k n x r)) = parseRow k (encodeFields (k n x r))) (hop : op < 128) (hn : n < 256) (hr : r < 256)
    (hx : srcRange x = true) : ReadsBack (k n x r) := by
  refine readsBack_of he hp (fit_mk hop hn (encSrc_lt hx) hr) ?_
  simp only [parseRow, needX_immOf hx, getSrc_of_imm hx, Option.bind_eq_bind, Option.bind_some, Option.pure_def]

end

end Sys2Proof.Machine
end

section
/-! ## Instructions with a form of their own, written and read -/

namespace Sys2Proof.Machine

section

variable {d : Dst} {t : Tile} {x y d' : Src} {n p a b : Nat} {w : Word} {u v : Bool} {off : Option Word}

/-- A number below 2^32 stands in a word. -/
theorem toNat_ofNat_word (h : n < 2 ^ 32) : (BitVec.ofNat 32 n).toNat = n := Nat.mod_eq_of_lt h

theorem beq_one_of_div {b : Bool} (h : n = b.toNat) : (n == 1) = b := by
  rw [h]
  cases b <;> rfl

theorem readsBack_sel (h : WellFormed (.sel d x y u p) = true) : ReadsBack (.sel d x y u p) := by
  have hx := wf_src h (.tail _ (.head _))
  have hy := wf_src h (.tail _ (.tail _ (.head _)))
  have hd := wf_dst h (.head _)
  have hp := wf_pRead h (.tail _ (.tail _ (.tail _ (.head _))))
  have hu := u.toNat_le
  have hn : (BitVec.ofNat 32 (p + 8 * u.toNat)).toNat = p + 8 * u.toNat := toNat_ofNat_word (by omega)
  refine readsBack_of (f := ⟨0x16, encDst d, encSrc x, encSrc y, some (BitVec.ofNat 32 (p + 8 * u.toNat))⟩) (p := parseSel) rfl rfl
    (fit_mk (by decide) (encDst_lt hd) (encSrc_lt hx) (encSrc_lt hy)) ?_
  have hlt : decide (p + 8 * u.toNat < 16) = true := decide_eq_true (by omega)
  simp only [parseSel, hn, need_of hlt, getDst_encDst hd, getSrc_noImm hx (wf_noImm h (.tail _ (.head _)) rfl),
    getSrc_noImm hy (wf_noImm h (.tail _ (.tail _ (.head _))) rfl), Option.bind_eq_bind, Option.bind_some, Option.pure_def,
    show (p + 8 * u.toNat) % 8 = p by omega, beq_one_of_div (b := u) (n := (p + 8 * u.toNat) / 8) (by omega)]

theorem readsBack_pset (h : WellFormed (.pset p x u) = true) : ReadsBack (.pset p x u) := by
  have hx := wf_src h (.head _)
  have hp := wf_pWrite h (.tail _ (.head _))
  have hu := u.toNat_le
  refine readsBack_of (f := ⟨0x1c, p, encSrc x, u.toNat, immOf x⟩) (p := parsePset) rfl rfl
    (fit_mk (by decide) (by omega) (encSrc_lt hx) (by omega)) ?_
  have hlt : (decide (p < 8) && decide (u.toNat < 2)) = true := by simp; omega
  simp only [parsePset, need_of hlt, needX_immOf hx, getSrc_of_imm hx, Option.bind_eq_bind, Option.bind_some, Option.pure_def,
    beq_one_of_div (b := u) rfl]

theorem readsBack_lred (h : WellFormed (.lred d x n) = true) : ReadsBack (.lred d x n) := by
  have hn : n < 6 := of_decide_eq_true (Laws.FieldsFit.fields h)
  have hx := wf_src h (.tail _ (.head _))
  have hd := wf_dst h (.head _)
  refine readsBack_of (f := ⟨0x36, encDst d, encSrc x, n, immOf x⟩) (p := parseDAF fun d a b => .lred d a b) rfl rfl
    (fit_mk (by decide) (encDst_lt hd) (encSrc_lt hx) (by omega)) ?_
  simp only [parseDAF, parseDA, needX_immOf hx, getDst_encDst hd, getSrc_of_imm hx, Option.bind_eq_bind, Option.bind_some, Option.pure_def]

theorem readsBack_lscan (h : WellFormed (.lscan d x u n) = true) : ReadsBack (.lscan d x u n) := by
  have hn : n < 6 := of_decide_eq_true (Laws.FieldsFit.fields h)
  have hx := wf_src h (.tail _ (.head _))
  have hd := wf_dst h (.head _)
  have hu := u.toNat_le
  refine readsBack_of (f := ⟨0x37, encDst d, encSrc x, n + 8 * u.toNat, immOf x⟩)
    (p := parseDAF fun d a b => .lscan d a (b / 8 % 2 == 1) (b % 8 + 16 * (b / 16))) rfl rfl
    (fit_mk (by decide) (encDst_lt hd) (encSrc_lt hx) (by omega)) ?_
  simp only [parseDAF, parseDA, needX_immOf hx, getDst_encDst hd, getSrc_of_imm hx, Option.bind_eq_bind, Option.bind_some, Option.pure_def,
    show (n + 8 * u.toNat) % 8 + 16 * ((n + 8 * u.toNat) / 16) = n by omega,
    beq_one_of_toNat (b := u) (n := (n + 8 * u.toNat) / 8) (by omega)]

theorem readsBack_bra : ReadsBack (.bra w) :=
  readsBack_of (f := ⟨0x38, 0, 0, 0, some w⟩) (p := parseBra) rfl rfl (fit_mk (by decide) (by decide) (by decide) (by decide)) rfl

theorem readsBack_brp (h : WellFormed (.brp p u w) = true) : ReadsBack (.brp p u w) := by
  have hp := wf_pRead h (.head _)
  have hu := u.toNat_le
  refine readsBack_of (f := ⟨0x39, p + 8 * u.toNat, 0, 0, some w⟩) (p := parseBrp) rfl rfl
    (fit_mk (by decide) (by omega) (by decide) (by decide)) ?_
  have hlt : (decide (p + 8 * u.toNat < 16) && 0 == 0 && 0 == 0) = true := by simp; omega
  simp only [parseBrp, need_of hlt, Option.bind_eq_bind, Option.bind_some, Option.pure_def,
    show (p + 8 * u.toNat) % 8 = p by omega, beq_one_of_div (b := u) (n := (p + 8 * u.toNat) / 8) (by omega)]

theorem readsBack_mode (i : BitVec 16) : ReadsBack (.mode i) := by
  have hi := i.isLt
  refine readsBack_of (f := ⟨0x3c, 0, i.toNat / 256, i.toNat % 256, none⟩) (p := parseMode) rfl rfl
    (fit_mk (by decide) (by decide) (by omega) (by omega)) ?_
  have hw : BitVec.ofNat 16 (i.toNat / 256 * 256 + i.toNat % 256) = i := by
    rw [Nat.div_add_mod', BitVec.ofNat_toNat, BitVec.setWidth_eq]
  simp [parseMode, need, hw]

theorem readsBack_nop : ReadsBack .nop :=
  readsBack_of (f := ⟨0x3d, 0, 0, 0, none⟩) (p := parseNop) rfl rfl (fit_mk (by decide) (by decide) (by decide) (by decide)) rfl

theorem readsBack_nopMerge : ReadsBack .nopMerge :=
  readsBack_of (f := ⟨0x3d, 1, 0, 0, none⟩) (p := parseNop) rfl rfl (fit_mk (by decide) (by decide) (by decide) (by decide)) rfl

theorem readsBack_trap (h : WellFormed (.trap n) = true) : ReadsBack (.trap n) :=
  readsBack_of (f := ⟨0x3d, n, 0, 7, none⟩) (p := parseTrap) rfl rfl
    (fit_mk (by decide) (of_decide_eq_true (Laws.FieldsFit.fields h)) (by decide) (by decide)) rfl

theorem readsBack_launch (h : WellFormed (.launch d x) = true) : ReadsBack (.launch d x) := by
  have hx := wf_src h (.tail _ (.head _))
  have hd := wf_dst h (.head _)
  refine readsBack_of (f := ⟨0x3f, encDst d, encSrc x, 0, none⟩) (p := parseLaunch) rfl rfl
    (fit_mk (by decide) (encDst_lt hd) (encSrc_lt hx) (by decide)) ?_
  simp [parseLaunch, need, getDst_encDst hd, getSrc_noImm hx (wf_noImm h (.tail _ (.head _)) rfl)]

theorem readsBack_pref (h : WellFormed (.pref n x y) = true) : ReadsBack (.pref n x y) := by
  have hn : n < 3 := of_decide_eq_true (Laws.FieldsFit.fields h)
  have hx := wf_src h (.head _)
  have hy := wf_src h (.tail _ (.head _))
  exact readsBack_of (f := ⟨0x52, n, encSrc x, encSrc y, immOf y⟩) (p := parseNAB .pref) rfl rfl
    (fit_mk (by decide) (by omega) (encSrc_lt hx) (encSrc_lt hy)) (parseNAB_read _ _ _ hx (wf_noImm h (.head _) rfl) hy)

theorem readsBack_invl (h : WellFormed (.invl x y) = true) : ReadsBack (.invl x y) := by
  have hx := wf_src h (.head _)
  have hy := wf_src h (.tail _ (.head _))
  exact readsBack_of (f := ⟨0x53, 0, encSrc x, encSrc y, immOf y⟩) (p := parseInvl) rfl rfl
    (fit_mk (by decide) (by decide) (encSrc_lt hx) (encSrc_lt hy))
    (parseNAB_read (fun _ => .invl) _ 0 hx (wf_noImm h (.head _) rfl) hy)

theorem readsBack_invlAll : ReadsBack .invlAll :=
  readsBack_of (f := ⟨0x53, 1, 0, 0, none⟩) (p := parseInvl) rfl rfl (fit_mk (by decide) (by decide) (by decide) (by decide)) rfl

theorem readsBack_waitp (h : WellFormed (.waitp n x) = true) : ReadsBack (.waitp n x) := by
  have hn : n < 5 := of_decide_eq_true (Laws.FieldsFit.fields h)
  have hx := wf_src h (.head _)
  refine readsBack_of (f := ⟨0x54, n, encSrc x, 0, immOf x⟩) (p := parseWaitp) rfl rfl
    (fit_mk (by decide) (by omega) (encSrc_lt hx) (by decide)) ?_
  simp only [parseWaitp, need_of (beq_self_eq_true 0), needX_immOf hx, getSrc_of_imm hx, Option.bind_eq_bind, Option.bind_some,
    Option.pure_def]

theorem readsBack_cp {c ss ds rows : Nat} (h : WellFormed (.cp a b c ss ds rows) = true) : ReadsBack (.cp a b c ss ds rows) := by
  have hf := Laws.FieldsFit.fields h
  simp only [fieldsOk, Bool.and_eq_true, decide_eq_true_eq] at hf
  obtain ⟨⟨⟨hss, hds⟩, hpos⟩, hrows⟩ := hf
  have ha := wf_sReg h (.head _)
  have hb := wf_sReg h (.tail _ (.head _))
  have hc := wf_sReg h (.tail _ (.tail _ (.head _)))
  let e := 2 ^ 16 * (rows - 1) + 2 ^ 28 * ds + 2 ^ 30 * ss
  have hn : (BitVec.ofNat 32 e).toNat = e := toNat_ofNat_word (by simp only [e]; omega)
  refine readsBack_of (f := ⟨0x55, 224 + a, 224 + b, 224 + c, some (BitVec.ofNat 32 e)⟩) (p := parseCp) rfl rfl
    (fit_mk (by decide) (by omega) (by omega) (by omega)) ?_
  have hlow : (e % 2 ^ 16 == 0) = true := beq_iff_eq.2 (by simp only [e]; omega)
  simp only [parseCp, hn, need_of hlow, getS_add ha, getS_add hb, getS_add hc, Option.bind_eq_bind, Option.bind_some, Option.pure_def,
    show e / 2 ^ 30 = ss by simp only [e]; omega, show e / 2 ^ 28 % 4 = ds by simp only [e]; omega,
    show e / 2 ^ 16 % 2 ^ 12 + 1 = rows by simp only [e]; omega]

theorem readsBack_rqnt {rnd newf : Nat} (h : WellFormed (.rqnt a b u rnd newf) = true) : ReadsBack (.rqnt a b u rnd newf) := by
  have hf := Laws.FieldsFit.fields h
  simp only [fieldsOk, Bool.and_eq_true, decide_eq_true_eq] at hf
  obtain ⟨⟨hrnd, hnewf⟩, _⟩ := hf
  have ha := wf_sReg h (.head _)
  have hb := wf_sReg h (.tail _ (.head _))
  have hu := u.toNat_le
  let e := newf + 2 ^ 8 * rnd + 2 ^ 11 * u.toNat
  have hn : (BitVec.ofNat 32 e).toNat = e := toNat_ofNat_word (by simp only [e]; omega)
  refine readsBack_of (f := ⟨0x57, 0, 224 + a, 224 + b, some (BitVec.ofNat 32 e)⟩) (p := parseRqnt) rfl rfl
    (fit_mk (by decide) (by decide) (by omega) (by omega)) ?_
  have hlt : (0 == 0 && decide (e < 2 ^ 12)) = true := by simp [e]; omega
  simp only [parseRqnt, hn, need_of hlt, getS_add ha, getS_add hb, Option.bind_eq_bind, Option.bind_some, Option.pure_def,
    beq_one_of_div (b := u) (n := e / 2 ^ 11) (by simp only [e]; omega), show e / 2 ^ 8 % 8 = rnd by simp only [e]; omega,
    show e % 2 ^ 8 = newf by simp only [e]; omega]

section

variable (hn : n < 8) (hd : dstRange d = true)
include hn hd

theorem readsBack_fence : ReadsBack (.fence d n) := by
  refine readsBack_of (f := ⟨0x58, encDst d, 0, n, none⟩) (p := parseFence) rfl rfl
    (fit_mk (by decide) (encDst_lt hd) (by decide) (by omega)) ?_
  simp [parseFence, need, getDst_encDst hd, Nat.div_eq_of_lt hn, Nat.mod_eq_of_lt hn]

theorem readsBack_acq : ReadsBack (.acq d n) := by
  refine readsBack_of (f := ⟨0x58, encDst d, 0, n + 8, none⟩) (p := parseFence) rfl rfl
    (fit_mk (by decide) (encDst_lt hd) (by decide) (by omega)) ?_
  simp [parseFence, need, getDst_encDst hd, show (n + 8) / 8 = 1 by omega, Nat.mod_eq_of_lt hn]

theorem readsBack_rel : ReadsBack (.rel d n) := by
  refine readsBack_of (f := ⟨0x58, encDst d, 0, n + 16, none⟩) (p := parseFence) rfl rfl
    (fit_mk (by decide) (encDst_lt hd) (by decide) (by omega)) ?_
  simp [parseFence, need, getDst_encDst hd, show (n + 16) / 8 = 2 by omega, show (n + 16) % 8 = n by omega]

end

theorem readsBack_lda (h : WellFormed (.lda d x u off) = true) : ReadsBack (.lda d x u off) := by
  have hx := wf_src h (.tail _ (.head _))
  have hd := wf_dst h (.head _)
  have hu := u.toNat_le
  refine readsBack_of (f := ⟨0x59, encDst d, encSrc x, 2 + u.toNat, off⟩) (p := parseLda) rfl rfl
    (fit_mk (by decide) (encDst_lt hd) (encSrc_lt hx) (by omega)) ?_
  cases u <;> simp [parseLda, need, getDst_encDst hd, getSrc_noImm hx (wf_noImm h (.tail _ (.head _)) rfl)]

theorem readsBack_stl (h : WellFormed (.stl d' x u off) = true) : ReadsBack (.stl d' x u off) := by
  have hd := wf_src h (.head _)
  have hx := wf_src h (.tail _ (.head _))
  have hu := u.toNat_le
  refine readsBack_of (f := ⟨0x5a, encSrc d', encSrc x, 2 + u.toNat, off⟩) (p := parseStl) rfl rfl
    (fit_mk (by decide) (encSrc_lt hd) (encSrc_lt hx) (by omega)) ?_
  cases u <;> simp [parseStl, need, getSrc_noImm hd (wf_noImm h (.head _) rfl), getSrc_noImm hx (wf_noImm h (.tail _ (.head _)) rfl)]

theorem readsBack_amo (h : WellFormed (.amo d x y n) = true) : ReadsBack (.amo d x y n) := by
  have hn : n < 7 := of_decide_eq_true (Laws.FieldsFit.fields h)
  have hd := wf_dst h (.head _)
  have hx := wf_src h (.tail _ (.head _))
  have hy := wf_src h (.tail _ (.tail _ (.head _)))
  have he : (BitVec.ofNat 32 n).toNat = n := toNat_ofNat_word (by omega)
  refine readsBack_of (f := ⟨0x5b, encDst d, encSrc x, encSrc y, some (BitVec.ofNat 32 n)⟩) (p := parseAmo) rfl rfl
    (fit_mk (by decide) (encDst_lt hd) (encSrc_lt hx) (encSrc_lt hy)) ?_
  simp only [parseAmo, he, getDst_encDst hd, getSrc_noImm hx (wf_noImm h (.tail _ (.head _)) rfl),
    getSrc_noImm hy (wf_noImm h (.tail _ (.tail _ (.head _))) rfl), Option.bind_eq_bind, Option.bind_some, Option.pure_def]

theorem readsBack_red (h : WellFormed (.red x y n) = true) : ReadsBack (.red x y n) := by
  have hn : n < 6 := of_decide_eq_true (Laws.FieldsFit.fields h)
  have hx := wf_src h (.head _)
  have hy := wf_src h (.tail _ (.head _))
  have he : (BitVec.ofNat 32 n).toNat = n := toNat_ofNat_word (by omega)
  refine readsBack_of (f := ⟨0x5d, 0, encSrc x, encSrc y, some (BitVec.ofNat 32 n)⟩) (p := parseRed) rfl rfl
    (fit_mk (by decide) (by decide) (encSrc_lt hx) (encSrc_lt hy)) ?_
  simp only [parseRed, he, need_of (beq_self_eq_true 0), getSrc_noImm hx (wf_noImm h (.head _) rfl),
    getSrc_noImm hy (wf_noImm h (.tail _ (.head _)) rfl), Option.bind_eq_bind, Option.bind_some, Option.pure_def]

theorem readsBack_cgbind (h : WellFormed (.cgbind a x) = true) : ReadsBack (.cgbind a x) := by
  have ha : a < 16 := of_decide_eq_true (wf_dst h (.head _))
  have hx := wf_src h (.tail _ (.head _))
  refine readsBack_of (f := ⟨0x5f, 224 + a, encSrc x, 0, immOf x⟩) (p := parseCgbind) rfl rfl
    (fit_mk (by decide) (by omega) (encSrc_lt hx) (by decide)) ?_
  simp only [parseCgbind, need_of (beq_self_eq_true 0), needX_immOf hx, getS_add ha, getSrc_of_imm hx, Option.bind_eq_bind,
    Option.bind_some, Option.pure_def]

/-! ### COLL -/

/-- The tiles that COLL can name. -/
def tileRange : Tile → Bool
  | .acc n => n < 4
  | .s n => n < 16

theorem getTile_encTile (h : tileRange t = true) : getTile (encTile t) = some t ∧ encTile t < 256 := by
  cases t with
  | acc n =>
    have hn : n < 4 := of_decide_eq_true h
    exact ⟨if_pos hn, show n < 256 by omega⟩
  | s n =>
    have hn : n < 16 := of_decide_eq_true h
    refine ⟨?_, show 224 + n < 256 by omega⟩
    simp only [getTile, encTile, if_neg (show ¬ 0xE0 + n < 4 by omega), getS_add hn, Option.map_some]

/-- The operands of a well-formed COLL. -/
theorem wf_coll {i : Instr} (h : WellFormed i = true) (ho : opds i = Laws.FieldsFit.tileOpds t a) (hf : Laws.FieldsFit.tileOk t = true) :
    tileRange t = true ∧ a < 16 := by
  have hall := Laws.FieldsFit.opd_append h ho
  constructor
  · cases t with
    | acc n => exact hf
    | s n =>
      have hop := hall (.src (.s n) .one .sReg) (.head _)
      simp only [opdOk, Bool.and_eq_true] at hop
      exact hop.1.2
  · have hop := hall (quad a) (List.mem_append_right _ (.head _))
    simp only [quad, opdOk, Bool.and_eq_true] at hop
    exact of_decide_eq_true hop.1.2

theorem readsBack_coll {i : Instr} (he : encodeFields i = ⟨0x60, encTile t, 224 + a, n, none⟩)
    (hp : Sys2Proof.parse (encodeFields i) = parseColl (encodeFields i)) (ht : tileRange t = true ∧ a < 16) (hn : n < 256)
    (hread : ∀ e, getTile e = some t → parseColl ⟨0x60, e, 224 + a, n, none⟩ = some i) : ReadsBack i := by
  obtain ⟨htile, ha⟩ := ht
  obtain ⟨hget, hlt⟩ := getTile_encTile htile
  exact readsBack_of he hp (fit_mk (by decide) hlt (by omega) hn) (hread _ hget)

theorem readsBack_collAllreduce (h : WellFormed (.collAllreduce t a n) = true) : ReadsBack (.collAllreduce t a n) := by
  obtain ⟨hn, htile⟩ := Laws.FieldsFit.and_parts (Laws.FieldsFit.fields h)
  have hn : n < 3 := of_decide_eq_true hn
  have ht := wf_coll h rfl htile
  refine readsBack_coll rfl rfl ht (show 8 * n < 256 by omega) fun e he => ?_
  simp [parseColl, need, he, getS_add ht.2]

theorem readsBack_collReducescatter (h : WellFormed (.collReducescatter t a n) = true) : ReadsBack (.collReducescatter t a n) := by
  obtain ⟨hn, htile⟩ := Laws.FieldsFit.and_parts (Laws.FieldsFit.fields h)
  have hn : n < 3 := of_decide_eq_true hn
  have ht := wf_coll h rfl htile
  refine readsBack_coll rfl rfl ht (show 1 + 8 * n < 256 by omega) fun e he => ?_
  simp [parseColl, need, he, getS_add ht.2, show (1 + 8 * n) % 8 = 1 by omega, show (1 + 8 * n) / 8 = n by omega]

theorem readsBack_collAllgather (h : WellFormed (.collAllgather t a) = true) : ReadsBack (.collAllgather t a) := by
  have ht := wf_coll h rfl (Laws.FieldsFit.fields h)
  refine readsBack_coll rfl rfl ht (by decide) fun e he => ?_
  simp [parseColl, need, he, getS_add ht.2]

theorem readsBack_collBroadcast (h : WellFormed (.collBroadcast t a) = true) : ReadsBack (.collBroadcast t a) := by
  have ht := wf_coll h rfl (Laws.FieldsFit.fields h)
  refine readsBack_coll rfl rfl ht (by decide) fun e he => ?_
  simp [parseColl, need, he, getS_add ht.2]

theorem readsBack_collAlltoall (h : WellFormed (.collAlltoall t a) = true) : ReadsBack (.collAlltoall t a) := by
  have ht := wf_coll h rfl (Laws.FieldsFit.fields h)
  refine readsBack_coll rfl rfl ht (by decide) fun e he => ?_
  simp [parseColl, need, he, getS_add ht.2]

/-! ### Barriers and signals -/

theorem readsBack_abinit (h : WellFormed (.abinit a x) = true) : ReadsBack (.abinit a x) := by
  have ha := wf_sReg h (.head _)
  have hx := wf_src h (.tail _ (.head _))
  refine readsBack_of (f := ⟨0x61, 224 + a, encSrc x, 0, immOf x⟩) (p := parseAbinit) rfl rfl
    (fit_mk (by decide) (by omega) (encSrc_lt hx) (by decide)) ?_
  simp only [parseAbinit, needX_immOf hx, getS_add ha, getSrc_of_imm hx, Option.bind_eq_bind, Option.bind_some, Option.pure_def]

theorem readsBack_abwait (h : WellFormed (.abwait d' x) = true) : ReadsBack (.abwait d' x) := by
  have hd := wf_src h (.head _)
  have hx := wf_src h (.tail _ (.head _))
  refine readsBack_of (f := ⟨0x61, encSrc d', encSrc x, 2, immOf x⟩) (p := parseAbwait) rfl rfl
    (fit_mk (by decide) (encSrc_lt hd) (encSrc_lt hx) (by decide)) ?_
  simp only [parseAbwait, needX_immOf hx, getSrc_noImm hd (wf_noImm h (.head _) rfl), getSrc_of_imm hx, Option.bind_eq_bind,
    Option.bind_some, Option.pure_def]

theorem readsBack_sigdec (h : WellFormed (.sigdec u a y) = true) : ReadsBack (.sigdec u a y) := by
  have ha := wf_sReg h (.head _)
  have hy := wf_src h (.tail _ (.head _))
  have hu := u.toNat_le
  refine readsBack_of (f := ⟨0x66, u.toNat, 224 + a, encSrc y, immOf y⟩) (p := parseSigdec) rfl rfl
    (fit_mk (by decide) (by omega) (by omega) (encSrc_lt hy)) ?_
  have hlt : decide (u.toNat < 2) = true := decide_eq_true (by omega)
  simp only [parseSigdec, need_of hlt, needX_immOf hy, getS_add ha, getSrc_of_imm hy, Option.bind_eq_bind, Option.bind_some,
    Option.pure_def, beq_one_of_div (b := u) rfl]

end

end Sys2Proof.Machine
end

section
/-! ## Matrix, counter and system instructions, written and read -/

namespace Sys2Proof.Machine

section

variable {d : Dst} {x y d' : Src} {n a b : Nat}

/-! ### Words with a descriptor -/

section

variable {mr nc kb isel : Nat} {pa pb : Bool}

/-- The sizes of a block that its descriptor can hold. -/
structure BlockSizes (mr nc kb : Nat) : Prop where
  rows : 1 ≤ mr ∧ mr ≤ 128
  cols : 1 ≤ nc ∧ nc ≤ 128
  depth : 1 ≤ kb ∧ kb ≤ 256

/-- A descriptor holds its parts side by side. -/
theorem mmaDesc_parts (hs : BlockSizes mr nc kb) (hn : n < 4) (hi : isel < 4) :
    let e := (mmaDesc mr nc kb pa pb n isel).toNat
    (e < 2 ^ 28 ∧ (n = 0 → isel = 0 → e < 2 ^ 24)) ∧ e % 2 ^ 7 + 1 = mr ∧ e / 2 ^ 7 % 2 ^ 7 + 1 = nc ∧ e / 2 ^ 14 % 2 ^ 8 + 1 = kb
      ∧ e / 2 ^ 22 % 2 = pa.toNat ∧ e / 2 ^ 23 % 2 = pb.toNat ∧ e / 2 ^ 24 % 4 = n ∧ e / 2 ^ 26 % 4 = isel := by
  obtain ⟨hr, hc, hd⟩ := hs
  have ha := pa.toNat_le
  have hb := pb.toNat_le
  rw [mmaDesc, toNat_ofNat_word (by omega)]
  dsimp only
  omega

theorem readsBack_mma (h : WellFormed (.mma n a b mr nc kb pa pb) = true) : ReadsBack (.mma n a b mr nc kb pa pb) := by
  have hf := Laws.FieldsFit.fields h
  simp only [fieldsOk, Bool.and_eq_true, decide_eq_true_eq] at hf
  obtain ⟨⟨⟨⟨⟨⟨hn, hr⟩, hr'⟩, hc⟩, hc'⟩, hk⟩, hk'⟩ := hf
  have ha := wf_sReg h (.head _)
  have hb := wf_sReg h (.tail _ (.head _))
  obtain ⟨⟨_, hlt⟩, hmr, hnc, hkb, hpa, hpb, _⟩ := mmaDesc_parts (pa := pa) (pb := pb) ⟨⟨hr, hr'⟩, ⟨hc, hc'⟩, hk, hk'⟩ (n := 0) (isel := 0)
    (by decide) (by decide)
  refine readsBack_of (f := ⟨0x68, n, 224 + a, 224 + b, some (mmaDesc mr nc kb pa pb 0 0)⟩) (p := parseMma) rfl rfl
    (fit_mk (by decide) (by omega) (by omega) (by omega)) ?_
  simp only [parseMma, need_of (decide_eq_true (hlt rfl rfl)), getS_add ha, getS_add hb, hmr, hnc, hkb, beq_one_of_toNat hpa,
    beq_one_of_toNat hpb, Option.bind_eq_bind, Option.bind_some, Option.pure_def]

theorem readsBack_mmas {g : Nat} (h : WellFormed (.mmas n g a b mr nc kb isel pa pb) = true) :
    ReadsBack (.mmas n g a b mr nc kb isel pa pb) := by
  have hf := Laws.FieldsFit.fields h
  simp only [fieldsOk, Bool.and_eq_true, decide_eq_true_eq] at hf
  obtain ⟨⟨⟨⟨⟨⟨⟨hn, hi⟩, hr⟩, hr'⟩, hc⟩, hc'⟩, hk⟩, hk'⟩ := hf
  have hg : g < 224 := of_decide_eq_true (wf_src h (.head _))
  have ha := wf_sReg h (.tail _ (.head _))
  have hb := wf_sReg h (.tail _ (.tail _ (.head _)))
  obtain ⟨⟨hlt, _⟩, hmr, hnc, hkb, hpa, hpb, hn', hi'⟩ := mmaDesc_parts (pa := pa) (pb := pb) ⟨⟨hr, hr'⟩, ⟨hc, hc'⟩, hk, hk'⟩ hn hi
  refine readsBack_of (f := ⟨0x69, g, 224 + a, 224 + b, some (mmaDesc mr nc kb pa pb n isel)⟩) (p := parseMmas) rfl rfl
    (fit_mk (by decide) (by omega) (by omega) (by omega)) ?_
  have hneed : (decide (g < 224) && decide ((mmaDesc mr nc kb pa pb n isel).toNat < 2 ^ 28)) = true :=
    Bool.and_eq_true_iff.2 ⟨decide_eq_true hg, decide_eq_true hlt⟩
  simp only [parseMmas, need_of hneed, getS_add ha, getS_add hb, hmr, hnc, hkb, hn', hi', beq_one_of_toNat hpa,
    beq_one_of_toNat hpb, Option.bind_eq_bind, Option.bind_some, Option.pure_def]

theorem readsBack_mmac (h : WellFormed (.mmac n a b mr nc kb pb) = true) : ReadsBack (.mmac n a b mr nc kb pb) := by
  have hf := Laws.FieldsFit.fields h
  simp only [fieldsOk, Bool.and_eq_true, decide_eq_true_eq] at hf
  obtain ⟨⟨⟨⟨⟨⟨hn, hr⟩, hr'⟩, hc⟩, hc'⟩, hk⟩, hk'⟩ := hf
  have ha := wf_sReg h (.head _)
  have hb := wf_sReg h (.tail _ (.head _))
  obtain ⟨⟨_, hlt⟩, hmr, hnc, hkb, hpa, hpb, _⟩ := mmaDesc_parts (pa := false) (pb := pb) ⟨⟨hr, hr'⟩, ⟨hc, hc'⟩, hk, hk'⟩ (n := 0)
    (isel := 0) (by decide) (by decide)
  refine readsBack_of (f := ⟨0x6a, n, 224 + a, 224 + b, some (mmaDesc mr nc kb false pb 0 0)⟩) (p := parseMmac) rfl rfl
    (fit_mk (by decide) (by omega) (by omega) (by omega)) ?_
  have hneed : (decide ((mmaDesc mr nc kb false pb 0 0).toNat < 2 ^ 24) && (mmaDesc mr nc kb false pb 0 0).toNat / 2 ^ 22 % 2 == 0) = true :=
    Bool.and_eq_true_iff.2 ⟨decide_eq_true (hlt rfl rfl), beq_iff_eq.2 hpa⟩
  simp only [parseMmac, need_of hneed, getS_add ha, getS_add hb, hmr, hnc, hkb, beq_one_of_toNat hpb, Option.bind_eq_bind,
    Option.bind_some, Option.pure_def]

end

/-- A code of a list of codes that fit a byte fits a byte. -/
theorem code_lt {l : List Nat} (hl : ∀ t ∈ l, t < 256) (h : l.contains n = true) : n < 256 := hl n (List.contains_iff_mem.1 h)

theorem formatAssigned_lt (h : formatAssigned n = true) : n < 256 := code_lt (by decide) h

theorem readsBack_mepi {mr nc tgt rnd fam bfmt : Nat} {sat : Bool} (h : WellFormed (.mepi n a b mr nc tgt rnd sat fam bfmt) = true) :
    ReadsBack (.mepi n a b mr nc tgt rnd sat fam bfmt) := by
  have hf := Laws.FieldsFit.fields h
  simp only [fieldsOk, Bool.and_eq_true, decide_eq_true_eq] at hf
  obtain ⟨⟨⟨⟨⟨⟨⟨⟨⟨⟨hn, hr⟩, hr'⟩, hc⟩, hc'⟩, htgt⟩, hrnd⟩, hfam⟩, hfmt⟩, _⟩, _⟩ := hf
  have hfmt := formatAssigned_lt hfmt
  have ha := wf_sReg h (.head _)
  have hb := wf_sReg h (.tail _ (.head _))
  have hs := sat.toNat_le
  let e := mr - 1 + 2 ^ 7 * (nc - 1) + 2 ^ 14 * tgt + 2 ^ 18 * rnd + 2 ^ 21 * sat.toNat + 2 ^ 22 * fam + 2 ^ 24 * bfmt
  have he : (BitVec.ofNat 32 e).toNat = e := toNat_ofNat_word (by simp only [e]; omega)
  obtain ⟨hmr, hnc, htgt, hrnd, hsat, hfam, hfmt⟩ : e % 2 ^ 7 + 1 = mr ∧ e / 2 ^ 7 % 2 ^ 7 + 1 = nc ∧ e / 2 ^ 14 % 2 ^ 4 = tgt
      ∧ e / 2 ^ 18 % 2 ^ 3 = rnd ∧ e / 2 ^ 21 % 2 = sat.toNat ∧ e / 2 ^ 22 % 4 = fam ∧ e / 2 ^ 24 = bfmt := by
    simp only [e]
    omega
  refine readsBack_of (f := ⟨0x6f, n, 224 + a, 224 + b, some (BitVec.ofNat 32 e)⟩) (p := parseMepi) rfl rfl
    (fit_mk (by decide) (by omega) (by omega) (by omega)) ?_
  simp only [parseMepi, he, getS_add ha, getS_add hb, hmr, hnc, htgt, hrnd, hfam, hfmt, beq_one_of_toNat hsat, Option.bind_eq_bind,
    Option.bind_some, Option.pure_def]

theorem readsBack_attn {q dim chunks lc kw vw : Nat} {fold causal : Bool}
    (h : WellFormed (.attn n a b q dim chunks lc kw vw fold causal) = true) : ReadsBack (.attn n a b q dim chunks lc kw vw fold causal) := by
  have hf := Laws.FieldsFit.fields h
  simp only [fieldsOk, Bool.and_eq_true, decide_eq_true_eq] at hf
  obtain ⟨⟨⟨⟨⟨⟨⟨⟨⟨⟨hn, _⟩, hq⟩, hq'⟩, hdim⟩, hdim'⟩, hch⟩, hch'⟩, hlc⟩, hkw⟩, hvw⟩ := hf
  have ha := wf_sReg h (.head _)
  have hb := wf_sReg h (.tail _ (.head _))
  have hfo := fold.toNat_le
  have hca := causal.toNat_le
  let e := q - 1 + 2 ^ 7 * (dim - 1) + 2 ^ 15 * chunks + 2 ^ 23 * lc + 2 ^ 26 * kw + 2 ^ 28 * vw + 2 ^ 30 * fold.toNat
    + 2 ^ 31 * causal.toNat
  have he : (BitVec.ofNat 32 e).toNat = e := toNat_ofNat_word (by simp only [e]; omega)
  obtain ⟨hq, hdim, hch, hlc, hkw, hvw, hfo, hca⟩ : e % 2 ^ 7 + 1 = q ∧ e / 2 ^ 7 % 2 ^ 8 + 1 = dim ∧ e / 2 ^ 15 % 2 ^ 8 = chunks
      ∧ e / 2 ^ 23 % 8 = lc ∧ e / 2 ^ 26 % 4 = kw ∧ e / 2 ^ 28 % 4 = vw ∧ e / 2 ^ 30 % 2 = fold.toNat ∧ e / 2 ^ 31 = causal.toNat := by
    simp only [e]
    omega
  refine readsBack_of (f := ⟨0x71, n, 224 + a, 224 + b, some (BitVec.ofNat 32 e)⟩) (p := parseAttn) rfl rfl
    (fit_mk (by decide) (by omega) (by omega) (by omega)) ?_
  simp only [parseAttn, he, getS_add ha, getS_add hb, hq, hdim, hch, hlc, hkw, hvw, beq_one_of_toNat hfo, beq_one_of_div hca,
    Option.bind_eq_bind, Option.bind_some, Option.pure_def]

/-! ### The ACC space, ATTC and the CNT space -/

theorem readsBack_macz (h : WellFormed (.macz n) = true) : ReadsBack (.macz n) := by
  have hn : n < 4 := of_decide_eq_true (Laws.FieldsFit.fields h)
  refine readsBack_of (f := ⟨0x70, 0, 0, 16 * n, none⟩) (p := parseAcc) rfl rfl
    (fit_mk (by decide) (by decide) (by decide) (by omega)) ?_
  simp [parseAcc, need]

theorem readsBack_mprog (h : WellFormed (.mprog d n) = true) : ReadsBack (.mprog d n) := by
  have hn : n < 4 := of_decide_eq_true (Laws.FieldsFit.fields h)
  have hd := wf_dst h (.head _)
  refine readsBack_of (f := ⟨0x70, encDst d, 0, 1 + 16 * n, none⟩) (p := parseAcc) rfl rfl
    (fit_mk (by decide) (encDst_lt hd) (by decide) (by omega)) ?_
  simp [parseAcc, need, getDst_encDst hd, show (1 + 16 * n) % 16 = 1 by omega, show (1 + 16 * n) / 16 = n by omega]

theorem readsBack_ackpt (h : WellFormed (.ackpt d' x n) = true) : ReadsBack (.ackpt d' x n) := by
  have hn : n < 4 := of_decide_eq_true (Laws.FieldsFit.fields h)
  have hd := wf_src h (.head _)
  have hx := wf_src h (.tail _ (.head _))
  refine readsBack_of (f := ⟨0x70, encSrc d', encSrc x, 2 + 16 * n, immOf x⟩) (p := parseAcc) rfl rfl
    (fit_mk (by decide) (encSrc_lt hd) (encSrc_lt hx) (by omega)) ?_
  simp [parseAcc, needX_immOf hx, getSrc_noImm hd (wf_noImm h (.head _) rfl), getSrc_of_imm hx, show (2 + 16 * n) % 16 = 2 by omega,
    show (2 + 16 * n) / 16 = n by omega]

theorem readsBack_acrst (h : WellFormed (.acrst d' x n) = true) : ReadsBack (.acrst d' x n) := by
  have hn : n < 4 := of_decide_eq_true (Laws.FieldsFit.fields h)
  have hd := wf_src h (.head _)
  have hx := wf_src h (.tail _ (.head _))
  refine readsBack_of (f := ⟨0x70, encSrc d', encSrc x, 3 + 16 * n, immOf x⟩) (p := parseAcc) rfl rfl
    (fit_mk (by decide) (encSrc_lt hd) (encSrc_lt hx) (by omega)) ?_
  simp [parseAcc, needX_immOf hx, getSrc_noImm hd (wf_noImm h (.head _) rfl), getSrc_of_imm hx, show (3 + 16 * n) % 16 = 3 by omega,
    show (3 + 16 * n) / 16 = n by omega]

theorem readsBack_attc {init fin : Bool} (h : WellFormed (.attc init fin n a) = true) : ReadsBack (.attc init fin n a) := by
  have hn : n < 4 := of_decide_eq_true (Laws.FieldsFit.fields h)
  have ha := wf_sReg h (.head _)
  have hi := init.toNat_le
  have hf := fin.toNat_le
  let e := n + 4 * fin.toNat + 8 * init.toNat
  obtain ⟨hlt, hn', hf', hi'⟩ : e < 16 ∧ e % 4 = n ∧ e / 4 % 2 = fin.toNat ∧ e / 8 = init.toNat := by
    simp only [e]
    omega
  refine readsBack_of (f := ⟨0x72, e, 224 + a, 0, none⟩) (p := parseAttc) rfl rfl (fit_mk (by decide) (by omega) (by omega) (by decide)) ?_
  have hneed : (decide (e < 16) && 0 == 0 && (none : Option Word).isNone) = true := by simp [hlt]
  simp only [parseAttc, need_of hneed, getS_add ha, hn', beq_one_of_toNat hf', beq_one_of_div hi', Option.bind_eq_bind, Option.bind_some,
    Option.pure_def]

theorem readsBack_cntrd (h : WellFormed (.cntrd d n) = true) : ReadsBack (.cntrd d n) := by
  have hn : n < 8 := of_decide_eq_true (Laws.FieldsFit.fields h)
  have hd := wf_dst h (.head _)
  refine readsBack_of (f := ⟨0x76, encDst d, 0, n, none⟩) (p := parseCnt) rfl rfl
    (fit_mk (by decide) (encDst_lt hd) (by decide) (by omega)) ?_
  simp [parseCnt, need, getDst_encDst hd, Nat.div_eq_of_lt hn, Nat.mod_eq_of_lt hn]

theorem readsBack_cntcfg (h : WellFormed (.cntcfg d x n) = true) : ReadsBack (.cntcfg d x n) := by
  have hn : n < 8 := of_decide_eq_true (Laws.FieldsFit.fields h)
  have hd := wf_dst h (.head _)
  have hx := wf_src h (.tail _ (.head _))
  refine readsBack_of (f := ⟨0x76, encDst d, encSrc x, 8 + n, immOf x⟩) (p := parseCnt) rfl rfl
    (fit_mk (by decide) (encDst_lt hd) (encSrc_lt hx) (by omega)) ?_
  simp [parseCnt, needX_immOf hx, getDst_encDst hd, getSrc_of_imm hx, show (8 + n) / 8 = 1 by omega, Nat.mod_eq_of_lt hn]

theorem readsBack_cntsv (h : WellFormed (.cntsv a) = true) : ReadsBack (.cntsv a) := by
  have ha := wf_sReg h (.head _)
  refine readsBack_of (f := ⟨0x76, 0, 224 + a, 16, none⟩) (p := parseCnt) rfl rfl (fit_mk (by decide) (by decide) (by omega) (by decide)) ?_
  simp [parseCnt, need, getS_add ha]

theorem readsBack_cntld (h : WellFormed (.cntld a) = true) : ReadsBack (.cntld a) := by
  have ha := wf_sReg h (.head _)
  refine readsBack_of (f := ⟨0x76, 0, 224 + a, 24, none⟩) (p := parseCnt) rfl rfl (fit_mk (by decide) (by decide) (by omega) (by decide)) ?_
  simp [parseCnt, need, getS_add ha]

/-! ### System registers and shootdown -/

theorem sysRegAssigned_lt (h : sysRegAssigned n = true) : n < 256 := code_lt (by decide) h

theorem readsBack_sysrd (h : WellFormed (.sysrd d n) = true) : ReadsBack (.sysrd d n) := by
  have hn := sysRegAssigned_lt (Laws.FieldsFit.fields h)
  have hd := wf_dst h (.head _)
  refine readsBack_of (f := ⟨0x7c, encDst d, 0, n, none⟩) (p := parseSysrd) rfl rfl (fit_mk (by decide) (encDst_lt hd) (by decide) hn) ?_
  simp [parseSysrd, need, getDst_encDst hd]

theorem parseSyswr_read (op : Nat) (hx : srcRange x = true) :
    parseSyswr ⟨op, n, encSrc x, 0, immOf x⟩ = some (if n == 0x12 then .syXreqWrite x else .syswr n x) := by
  simp only [parseSyswr, need_of (beq_self_eq_true 0), needX_immOf hx, getSrc_of_imm hx, Option.bind_eq_bind, Option.bind_some,
    Option.pure_def]

theorem readsBack_syswr (h : WellFormed (.syswr n x) = true) : ReadsBack (.syswr n x) := by
  obtain ⟨hn, hne⟩ := Laws.FieldsFit.and_parts (Laws.FieldsFit.fields h)
  have hx : srcRange x = true := by
    have hop := wf_opd h (.head _)
    split at hop <;> (simp only [opdOk, Bool.and_eq_true] at hop; exact hop.1.2)
  refine readsBack_of (f := ⟨0x7d, n, encSrc x, 0, immOf x⟩) (p := parseSyswr) rfl rfl
    (fit_mk (by decide) (sysRegAssigned_lt hn) (encSrc_lt hx) (by decide)) ?_
  rw [parseSyswr_read _ hx, if_neg (by simpa using hne)]

theorem readsBack_syXreqWrite (h : WellFormed (.syXreqWrite x) = true) : ReadsBack (.syXreqWrite x) := by
  have hx := wf_src h (.head _)
  exact readsBack_of (f := ⟨0x7d, 0x12, encSrc x, 0, immOf x⟩) (p := parseSyswr) rfl rfl
    (fit_mk (by decide) (by decide) (encSrc_lt hx) (by decide)) (parseSyswr_read _ hx)

theorem readsBack_shoot (h : WellFormed (.shoot a y) = true) : ReadsBack (.shoot a y) := by
  have ha := wf_sReg h (.head _)
  have hy := wf_src h (.tail _ (.head _))
  refine readsBack_of (f := ⟨0x7e, 0, 224 + a, encSrc y, immOf y⟩) (p := parseShoot) rfl rfl
    (fit_mk (by decide) (by decide) (by omega) (encSrc_lt hy)) ?_
  simp only [parseShoot, need_of (beq_self_eq_true 0), needX_immOf hy, getS_add ha, getSrc_of_imm hy, Option.bind_eq_bind, Option.bind_some,
    Option.pure_def]

end

end Sys2Proof.Machine
end

section
/-! ## Decoding an encoding (R55 to R58) -/

namespace Sys2Proof.Machine

section

variable {i : Instr} {op n : Nat} {x y d' : Src} {d : Dst} {m : Option Mods} {w w' w'' : Wd} {dk : DstKind} {k k' : SrcKind}

/-! ### A row, from the operands that its check accepts -/

/-- Of two sources of which one is an immediate, the word holds no modifier word. -/
theorem wf_noMods (h : WellFormed i = true) (hm : modsOf i = m) (hx : .src x w k ∈ opds i) (hy : .src y w' k' ∈ opds i)
    (himm : (srcImm x || srcImm y) = true) : m = none := by
  rw [← hm]
  obtain himm | himm := Bool.or_eq_true_iff.1 himm
  · exact wf_room h hx himm
  · exact wf_room h hy himm

/-- The row of a two-source instruction of the A class, whose destination has the check `o`. -/
theorem row_A {c : Dst → Src → Src → Option Mods → Instr} {o : Opd} (h : WellFormed (c d x y m) = true) (hd : dstRange d = true)
    (hs : [o, .src x w k, .src y w' k'].Sublist (opds (c d x y m))) (hm : modsOf (c d x y m) = m)
    (he : encodeFields (c d x y m) = ⟨op, encDst d, encSrc x, encSrc y, extA x y m⟩)
    (hp : Sys2Proof.parse (encodeFields (c d x y m)) = parseA c (encodeFields (c d x y m))) (hop : op < 128) : ReadsBack (c d x y m) := by
  have hx := hs.subset (.tail _ (.head _))
  have hy := hs.subset (.tail _ (.tail _ (.head _)))
  exact readsBack_A (wf_src h hx) (wf_src h hy) (wf_oneImm h ((List.sublist_cons_self _ _).trans hs)) (wf_noMods h hm hx hy) he hp hop hd

theorem row_cmp {c : Nat → Nat → Src → Src → Option Mods → Instr} {q t : Nat} (h : WellFormed (c t q x y m) = true) (ht : t < 16)
    (hs : [.src x w k, .src y w' k', .pWrite q].Sublist (opds (c t q x y m))) (hm : modsOf (c t q x y m) = m)
    (he : encodeFields (c t q x y m) = ⟨op, q + 8 * t, encSrc x, encSrc y, extA x y m⟩)
    (hp : Sys2Proof.parse (encodeFields (c t q x y m)) = parseCmp c (encodeFields (c t q x y m))) (hop : op < 128) :
    ReadsBack (c t q x y m) := by
  have hx := hs.subset (.head _)
  have hy := hs.subset (.tail _ (.head _))
  have hq := wf_pWrite h (hs.subset (.tail _ (.tail _ (.head _))))
  have hone := wf_oneImm h ((List.Sublist.cons_cons _ (.cons_cons _ (List.nil_sublist _))).trans hs)
  exact readsBack_cmp (wf_src h hx) (wf_src h hy) hone (wf_noMods h hm hx hy) he hp hop hq ht

theorem row_U {c : Dst → Src → Option Mods → Instr} (h : WellFormed (c d x m) = true)
    (hs : List.Sublist [.dst d w dk, .src x w' k] (opds (c d x m))) (hm : modsOf (c d x m) = m)
    (he : encodeFields (c d x m) = ⟨op, encDst d, encSrc x, n, extA x .zero m⟩)
    (hp : Sys2Proof.parse (encodeFields (c d x m)) = parseU c (encodeFields (c d x m))) (hop : op < 128) (hn : n < 256) :
    ReadsBack (c d x m) := by
  have hx : .src x w' k ∈ opds (c d x m) := hs.subset <| .tail _ (.head _)
  exact readsBack_U (wf_dst h (hs.subset <| .head _)) (wf_src h hx) (fun himm => hm.symm.trans (wf_room h hx himm)) he hp hop hn

theorem row_UF {c : Dst → Src → Nat → Option Mods → Instr} (h : WellFormed (c d x n m) = true)
    (hs : List.Sublist [.dst d w dk, .src x w' k] (opds (c d x n m))) (hm : modsOf (c d x n m) = m)
    (he : encodeFields (c d x n m) = ⟨op, encDst d, encSrc x, n, extA x .zero m⟩)
    (hp : Sys2Proof.parse (encodeFields (c d x n m)) = parseUF c (encodeFields (c d x n m))) (hop : op < 128) (hn : n < 256) :
    ReadsBack (c d x n m) := by
  have hx : .src x w' k ∈ opds (c d x n m) := hs.subset <| .tail _ (.head _)
  exact readsBack_UF (wf_dst h (hs.subset <| .head _)) (wf_src h hx) (fun himm => hm.symm.trans (wf_room h hx himm)) he hp hop hn

theorem row_DA {c : Dst → Src → Instr} (h : WellFormed (c d x) = true) (hs : List.Sublist [.dst d w dk, .src x w' k] (opds (c d x)))
    (he : encodeFields (c d x) = ⟨op, encDst d, encSrc x, n, immOf x⟩)
    (hp : Sys2Proof.parse (encodeFields (c d x)) = parseDA c (encodeFields (c d x))) (hop : op < 128) (hn : n < 256) : ReadsBack (c d x) :=
  readsBack_DA he hp hop hn (wf_dst h (hs.subset <| .head _)) (wf_src h (hs.subset <| .tail _ (.head _)))

theorem row_Ld {c : Dst → Src → Src → Instr} {o : Opd} (h : WellFormed (c d x y) = true) (hd : dstRange d = true)
    (hs : List.Sublist [o, .src x w k, .src y w' k'] (opds (c d x y))) (hk : k.takesImm = false)
    (he : encodeFields (c d x y) = ⟨op, encDst d, encSrc x, encSrc y, immOf y⟩)
    (hp : Sys2Proof.parse (encodeFields (c d x y)) = parseLd c (encodeFields (c d x y))) (hop : op < 128) : ReadsBack (c d x y) := by
  have hx : .src x w k ∈ opds (c d x y) := hs.subset <| .tail _ (.head _)
  exact readsBack_Ld he hp hop hd (wf_src h hx) (wf_noImm h hx hk) (wf_src h (hs.subset <| .tail _ (.tail _ (.head _))))

theorem row_St {c : Src → Src → Src → Instr} {k'' : SrcKind} (h : WellFormed (c d' x y) = true)
    (hs : List.Sublist [.src d' w'' k'', .src x w k, .src y w' k'] (opds (c d' x y))) (hk'' : k''.takesImm = false) (hk : k.takesImm = false)
    (he : encodeFields (c d' x y) = ⟨op, encSrc d', encSrc x, encSrc y, immOf y⟩)
    (hp : Sys2Proof.parse (encodeFields (c d' x y)) = parseSt c (encodeFields (c d' x y))) (hop : op < 128) : ReadsBack (c d' x y) := by
  have hd : .src d' w'' k'' ∈ opds (c d' x y) := hs.subset <| .head _
  have hx : .src x w k ∈ opds (c d' x y) := hs.subset <| .tail _ (.head _)
  exact readsBack_St he hp hop (wf_src h hd) (wf_noImm h hd hk'') (wf_src h hx) (wf_noImm h hx hk)
    (wf_src h (hs.subset <| .tail _ (.tail _ (.head _))))

theorem row_DSB {c : Dst → Nat → Src → Instr} {a : Nat} (h : WellFormed (c d a y) = true)
    (hs : List.Sublist [.dst d w dk, .src (.s a) w' k, .src y w'' k'] (opds (c d a y)))
    (he : encodeFields (c d a y) = ⟨op, encDst d, 224 + a, encSrc y, immOf y⟩)
    (hp : Sys2Proof.parse (encodeFields (c d a y)) = parseDSB c (encodeFields (c d a y))) (hop : op < 128) : ReadsBack (c d a y) :=
  readsBack_DSB (wf_sReg h (hs.subset <| .tail _ (.head _))) he hp hop (wf_dst h (hs.subset <| .head _))
    (wf_src h (hs.subset <| .tail _ (.tail _ (.head _))))

/-! ### Every row, by ranges of the primary opcode (R55) -/

/-- Whether an instruction is a word with its primary opcode in a range. -/
def opIn (lo hi : Nat) (i : Instr) : Bool := isWord i && Nat.ble lo (encodeFields i).op && Nat.blt (encodeFields i).op hi

theorem opIn_iff {lo hi : Nat} : opIn lo hi i = true ↔ isWord i = true ∧ lo ≤ (encodeFields i).op ∧ (encodeFields i).op < hi := by
  simp only [opIn, Bool.and_eq_true, Nat.ble_eq, Nat.blt_eq, and_assoc]

theorem op_lt (i : Instr) : (encodeFields i).op < 128 := Nat.blt_eq.mp (by cases i <;> rfl)

/-- The opcodes of scalar arithmetic and of the cross-lane instructions. -/
theorem readsBack_scalar (h : WellFormed i = true) (hop : opIn 0 0x38 i = true) : ReadsBack i := by
  cases i with
  | add d a b m | addc d a b m | sub d a b m | subb d a b m | mullo d a b m | mulhi d a b m | div d a b m | rem d a b m | min d a b m
  | max d a b m | and d a b m | or d a b m | xor d a b m | andn d a b m | shl d a b m | shr d a b m | sar d a b m | rol d a b m
  | bfx d a b m | lea d a b m | fadd d a b m | fsub d a b m | fmul d a b m | fmin d a b m | fmax d a b m | fdiv d a b m
  | shflIdx d a b m | shflUp d a b m | shflDown d a b m | shflXor d a b m | bcast d a b m =>
    exact row_A h (wf_dst h (.head _)) (.cons_cons _ (.cons_cons _ (.cons_cons _ (List.nil_sublist _)))) rfl rfl rfl (by decide)
  | mad d a b m | bfi d a b m | fma d a b m => exact row_A h (wf_both h (.head _)) (.refl _) rfl rfl rfl (by decide)
  | cmp c p a b m =>
    have hc : c < 6 := of_decide_eq_true (Laws.FieldsFit.fields h)
    exact row_cmp h (by omega) (.refl _) rfl rfl rfl (by decide)
  | fcmp c p a b m =>
    have hc : c < 8 := of_decide_eq_true (Laws.FieldsFit.fields h)
    exact row_cmp h (by omega) (.refl _) rfl rfl rfl (by decide)
  | abs d a m | neg d a m | not d a m | popc d a m | clz d a m | brev d a m | mov d a m | frcp d a m | frsq d a m | fsqrt d a m
  | fexp2 d a m | flog2 d a m | fsin d a m | fcos d a m | ftanh d a m | frint d a m | fclass d a m =>
    exact row_U h (.refl _) rfl rfl rfl (by decide) (by decide)
  | cvt d a t m =>
    have ht : t < 14 := of_decide_eq_true (Laws.FieldsFit.and_parts (Laws.FieldsFit.fields h)).1
    exact row_UF h (.refl _) rfl rfl rfl (by decide) (by omega)
  | qpack d a f m | qunpk d a f m | srnd d a f m =>
    exact row_UF h (.refl _) rfl rfl rfl (by decide) (code_lt (by decide) (Laws.FieldsFit.fields h))
  | movi d w => exact readsBack_movi rfl rfl (by decide) (wf_dst h (.head _))
  | movh d w => exact readsBack_movi rfl rfl (by decide) (wf_both h (.head _))
  | rng d | rngst d => exact readsBack_D rfl rfl (by decide) (by decide) (wf_dst h (.head _))
  | rngld a => exact readsBack_reg rfl rfl (by decide) (by decide) (wf_src h (.head _)) (wf_noImm h (.head _) rfl)
  | voteAny d a | voteAll d a | voteBallot d a | voteUni d a => exact row_DA h (.refl _) rfl rfl (by decide) (by decide)
  | sel d a b neg p => exact readsBack_sel h
  | pset p a lanes => exact readsBack_pset h
  | lred d a o => exact readsBack_lred h
  | lscan d a excl o => exact readsBack_lscan h
  | _ => exact absurd hop Bool.false_ne_true

/-- The opcodes of control flow. -/
theorem readsBack_control (h : WellFormed i = true) (hop : opIn 0x38 0x40 i = true) : ReadsBack i := by
  cases i with
  | bra off => exact readsBack_bra
  | brp p neg off => exact readsBack_brp h
  | call d w => exact readsBack_movi rfl rfl (by decide) (wf_dst h (.head _))
  | jmpr a | ret a => exact readsBack_reg rfl rfl (by decide) (by decide) (wf_src h (.head _)) (wf_noImm h (.head _) rfl)
  | mode w => exact readsBack_mode w
  | nop => exact readsBack_nop
  | nopMerge => exact readsBack_nopMerge
  | exit | yield | leave | qbar | tret => exact readsBack_one rfl rfl (by decide) (by decide)
  | sleep a => exact readsBack_AI rfl rfl (by decide) (by decide) (wf_src h (.head _))
  | trap n => exact readsBack_trap h
  | elog d => exact readsBack_D rfl rfl (by decide) (by decide) (wf_dst h (.head _))
  | join a b => exact readsBack_AB (wf_src h (.head _)) (wf_src h (.tail _ (.head _))) (wf_oneImm h (.refl _)) rfl rfl (by decide)
  | launch d a => exact readsBack_launch h
  | _ => exact absurd hop Bool.false_ne_true

/-- The opcodes of memory accesses, copies, fences and atomics. -/
theorem readsBack_memory (h : WellFormed i = true) (hop : opIn 0x40 0x5e i = true) : ReadsBack i := by
  cases i with
  | ldB d a b | ldH d a b | ldW d a b | ldD d a b | ldQ d a b | ldbyW d a b | ldbyD d a b | ldbyQ d a b | ldf d a b =>
    exact row_Ld h (wf_dst h (.head _)) (.refl _) rfl rfl rfl (by decide)
  | cas d a b => exact row_Ld h (wf_both h (.head _)) (.refl _) rfl rfl rfl (by decide)
  | stB d a b | stH d a b | stW d a b | stD d a b | stQ d a b | stbyW d a b | stbyD d a b | stbyQ d a b | stf d a b =>
    exact row_St h (.refl _) rfl rfl rfl rfl (by decide)
  | pref l a b => exact readsBack_pref h
  | invl a b => exact readsBack_invl h
  | invlAll => exact readsBack_invlAll
  | waitp p a => exact readsBack_waitp h
  | cp d a b ss ds rows => exact readsBack_cp h
  | cps d => exact readsBack_D rfl rfl (by decide) (by decide) (wf_dst h (.head _))
  | cpw a => exact readsBack_AI rfl rfl (by decide) (by decide) (wf_src h (.head _))
  | rqnt a b sat rnd newf => exact readsBack_rqnt h
  | fence d s => exact readsBack_fence (of_decide_eq_true (Laws.FieldsFit.fields h)) (wf_dst h (.head _))
  | acq d s => exact readsBack_acq (of_decide_eq_true (Laws.FieldsFit.fields h)) (wf_dst h (.head _))
  | rel d s => exact readsBack_rel (of_decide_eq_true (Laws.FieldsFit.fields h)) (wf_dst h (.head _))
  | lda d a dbl off => exact readsBack_lda h
  | stl d a dbl off => exact readsBack_stl h
  | amo d a b op => exact readsBack_amo h
  | red a b op => exact readsBack_red h
  | _ => exact absurd hop Bool.false_ne_true

/-- The opcodes of crossings, collectives, barriers, gangs, alleys and signals. -/
theorem readsBack_group (h : WellFormed i = true) (hop : opIn 0x5e 0x68 i = true) : ReadsBack i := by
  cases i with
  | cross d | crossa d | crossw d | phase d | gview d => exact readsBack_D rfl rfl (by decide) (by decide) (wf_dst h (.head _))
  | cgbind d a => exact readsBack_cgbind h
  | collAllreduce d a r => exact readsBack_collAllreduce h
  | collReducescatter d a r => exact readsBack_collReducescatter h
  | collAllgather d a => exact readsBack_collAllgather h
  | collBroadcast d a => exact readsBack_collBroadcast h
  | collAlltoall d a => exact readsBack_collAlltoall h
  | abinit d a => exact readsBack_abinit h
  | abwait d a => exact readsBack_abwait h
  | abarv d a | gset d a | gwid d a | grank d a | apop d a | atry d a => exact row_DA h (.refl _) rfl rfl (by decide) (by decide)
  | rgrow a | rshrink a | aopen a => exact readsBack_AI rfl rfl (by decide) (by decide) (wf_src h (.head _))
  | apush a b => exact readsBack_AB (wf_src h (.head _)) (wf_src h (.tail _ (.head _))) (wf_oneImm h (.refl _)) rfl rfl (by decide)
  | sigdec e a b => exact readsBack_sigdec h
  | sigwait d a b => exact row_DSB h (.refl _) rfl rfl (by decide)
  | _ => exact absurd hop Bool.false_ne_true

/-- The opcodes of the matrix, attention, counter and system instructions. -/
theorem readsBack_matrix (h : WellFormed i = true) (hop : opIn 0x68 0x80 i = true) : ReadsBack i := by
  cases i with
  | mma n a b mr nc kb pa pb => exact readsBack_mma h
  | mmas n d a b mr nc kb isel pa pb => exact readsBack_mmas h
  | mmac n a b mr nc kb pb => exact readsBack_mmac h
  | macld n a b | macst n a b =>
    have hn : n < 4 := of_decide_eq_true (Laws.FieldsFit.fields h)
    exact readsBack_NSB (wf_sReg h (.head _)) rfl rfl (by decide) (by omega) (wf_src h (.tail _ (.head _)))
  | macrd d a n =>
    have hd : d < 224 := of_decide_eq_true (wf_dst h (.head _))
    have hn : n < 4 := of_decide_eq_true (Laws.FieldsFit.fields h)
    exact readsBack_row rfl rfl (by decide) (by omega) (by omega) (wf_src h (.tail _ (.head _)))
  | macwr d a n =>
    have hd : d < 224 := of_decide_eq_true (wf_src h (.head _))
    have hn : n < 4 := of_decide_eq_true (Laws.FieldsFit.fields h)
    exact readsBack_row rfl rfl (by decide) (by omega) (by omega) (wf_src h (.tail _ (.head _)))
  | mepi n a b mr nc tgt rnd sat fam bfmt => exact readsBack_mepi h
  | macz n => exact readsBack_macz h
  | mprog d n => exact readsBack_mprog h
  | ackpt d a n => exact readsBack_ackpt h
  | acrst d a n => exact readsBack_acrst h
  | attn n a b q dim chunks lc kw vw fold causal => exact readsBack_attn h
  | attc init fin n a => exact readsBack_attc h
  | kvap d a b | kvtr d a b =>
    exact readsBack_DSS (wf_sReg h (.tail _ (.head _))) rfl rfl (by decide) (wf_dst h (.head _)) (wf_sReg h (.tail _ (.tail _ (.head _))))
  | kvrd d a b | bcinit d a b | bctake d a b | bcgive d a b => exact row_DSB h (.refl _) rfl rfl (by decide)
  | bcread d a | bcstat d a =>
    exact readsBack_DS (wf_sReg h (.tail _ (.head _))) rfl rfl (by decide) (by decide) (wf_dst h (.head _))
  | cntrd d k => exact readsBack_cntrd h
  | cntcfg d a k => exact readsBack_cntcfg h
  | cntsv a => exact readsBack_cntsv h
  | cntld a => exact readsBack_cntld h
  | wswitch => exact readsBack_one rfl rfl (by decide) (by decide)
  | sysrd d n => exact readsBack_sysrd h
  | syswr n a => exact readsBack_syswr h
  | syXreqWrite a => exact readsBack_syXreqWrite h
  | shoot a b => exact readsBack_shoot h
  | part d a b =>
    exact readsBack_part (wf_src h (.tail _ (.head _))) (wf_src h (.tail _ (.tail _ (.head _)))) (wf_oneImm h (.cons _ (.refl _)))
      (wf_dst h (.head _))
  | _ => exact absurd hop Bool.false_ne_true

/-- The fields of every well-formed instruction fit its word and read as it. -/
theorem readsBack (h : WellFormed i = true) : ReadsBack i := by
  have hword := (Laws.FieldsFit.parts h).1
  have hop : ∀ lo hi, lo ≤ (encodeFields i).op → (encodeFields i).op < hi → opIn lo hi i = true := fun _ _ hlo hhi =>
    opIn_iff.2 ⟨hword, hlo, hhi⟩
  by_cases h1 : (encodeFields i).op < 0x38
  · exact readsBack_scalar h (hop _ _ (Nat.zero_le _) h1)
  by_cases h2 : (encodeFields i).op < 0x40
  · exact readsBack_control h (hop _ _ (Nat.le_of_not_lt h1) h2)
  by_cases h3 : (encodeFields i).op < 0x5e
  · exact readsBack_memory h (hop _ _ (Nat.le_of_not_lt h2) h3)
  by_cases h4 : (encodeFields i).op < 0x68
  · exact readsBack_group h (hop _ _ (Nat.le_of_not_lt h3) h4)
  · exact readsBack_matrix h (hop _ _ (Nat.le_of_not_lt h4) (op_lt i))

end

/-- Settles O3: the fields that the encoder writes fit their word and read as the instruction, whatever follows them. -/
theorem decodeEncode : Obligations.DecodeEncode := by
  unfold Obligations.DecodeEncode
  intro i rest h
  obtain ⟨hfit, hparse⟩ := readsBack h
  exact decode_encodeBytes hfit (by simp [decodeFields, hparse, h])

end Sys2Proof.Machine
end
